-- ==== Sys2Proof/Word.lean ====
section
/-! DEFINITION. The words of the machine and their plainest arithmetic (00 R2, R3). -/

namespace Sys2Proof

/-- A 32-bit word. -/
abbrev Word := BitVec 32

/-- A byte. -/
abbrev Byte := BitVec 8

/-- A set of lanes of a warp, bit l for lane l (04 R88). -/
abbrev Mask := BitVec 128

/-- A virtual code address (04 R81). -/
abbrev Pc := BitVec 56

/-- One bit from a Bool. -/
def bbit (b : Bool) : BitVec 1 := if b then 1#1 else 0#1

end Sys2Proof
end

