-- ==== Sys2Proof/Machine/Num.lean ====
section
/-! DEFINITION. Numbers (02): the formats, decoding, one rounding from an exact value, and the basic operations. -/

namespace Sys2Proof.Machine

/-- Conditions an operation meets: IV, DZ, OF, UF, IX in bits 0 to 4 (R47), a signalling NaN operand in bit 5 (R49). -/
abbrev Cond := BitVec 6

def cNone : Cond := 0
def cIV : Cond := 1
def cDZ : Cond := 2
def cOF : Cond := 4
def cUF : Cond := 8
def cIX : Cond := 16
/-- A signalling NaN operand: IV, and the mark that `FTE.SNAN` tests (R30, R49). -/
def cSN : Cond := 33

/-- A number as an encoding means it: NaN (signalling or not), an infinity, or (-1)^neg * m * 2^e. -/
inductive Num
  | nan (signalling : Bool)
  | inf (neg : Bool)
  | fin (neg : Bool) (m : Nat) (e : Int)
  deriving DecidableEq, Repr, Inhabited

/-- Rounding modes: the four of R32, and stochastic with 16 random bits (R40). -/
inductive Mode
  | rne | rz | rp | rm
  | sr (r : Nat)
  deriving DecidableEq, Repr, Inhabited

/-- A binary format: precision, exponent of the smallest normal, largest finite value maxM * 2^maxE. -/
structure Fmt where
  p : Nat
  emin : Int
  maxM : Nat
  maxE : Int
  deriving DecidableEq, Repr, Inhabited

/-- An IEEE format: its precision and exponent width (R24). -/
structure Ieee where
  p : Nat
  w : Nat
  deriving DecidableEq, Repr, Inhabited

def Ieee.bias (f : Ieee) : Nat := 2 ^ (f.w - 1) - 1

def Ieee.fmt (f : Ieee) : Fmt :=
  { p := f.p, emin := 1 - (f.bias : Int), maxM := 2 ^ f.p - 1, maxE := (f.bias : Int) - (f.p : Int) + 1 }

def f64 : Ieee := ⟨53, 11⟩
def f32 : Ieee := ⟨24, 8⟩
def f16 : Ieee := ⟨11, 5⟩
def bf16 : Ieee := ⟨8, 8⟩

/-- 2 to a power that may not be negative, and to 1 otherwise. -/
def pow2 (k : Int) : Nat := 2 ^ k.toNat

/-- The number an IEEE encoding means (R24, R25). -/
def Ieee.decode (f : Ieee) (x : Nat) : Num :=
  let t := f.p - 1
  let neg := (x >>> (t + f.w)) % 2 == 1
  let e := (x >>> t) % 2 ^ f.w
  let m := x % 2 ^ t
  if e = 2 ^ f.w - 1 then
    if m = 0 then .inf neg else .nan (m < 2 ^ (t - 1))
  else if e = 0 then .fin neg m (1 - (f.bias : Int) - (t : Int))
  else .fin neg (m + 2 ^ t) ((e : Int) - (f.bias : Int) - (t : Int))

/-- Exponent field and fraction of k * 2^q in a format with t fraction bits: both exact (R24, R36). -/
def encodeMag (t : Nat) (emin : Int) (k : Nat) (q : Int) : Nat :=
  if k = 0 then 0 else
    let e := q + (k.log2 : Int)
    if e < emin then k * pow2 (q - (emin - (t : Int)))
    else
      let f := if k.log2 ≤ t then k * 2 ^ (t - k.log2) else k / 2 ^ (k.log2 - t)
      (e - emin + 1).toNat * 2 ^ t + (f - 2 ^ t)

/-- The canonical NaN (R29). -/
def Ieee.nan (f : Ieee) : Nat := (2 ^ f.w - 1) * 2 ^ (f.p - 1) + 2 ^ (f.p - 2)

/-- The encoding of a number that the format holds (R24, R29). -/
def Ieee.encode (f : Ieee) : Num → Nat
  | .nan _ => f.nan
  | .inf neg => (if neg then 2 ^ (f.p - 1 + f.w) else 0) + (2 ^ f.w - 1) * 2 ^ (f.p - 1)
  | .fin neg m e => (if neg then 2 ^ (f.p - 1 + f.w) else 0) + encodeMag (f.p - 1) f.fmt.emin m e

/-- Round |x| = m * 2^e, plus something below 2^e when `sticky`, to a multiple of 2^q: the multiple, and whether it differs. -/
def roundAt (mode : Mode) (neg : Bool) (m : Nat) (e : Int) (sticky : Bool) (q : Int) : Nat × Bool :=
  if q ≤ e then (m * pow2 (e - q), sticky)
  else
    let sh := (q - e).toNat
    let k := m / 2 ^ sh
    let rem := m % 2 ^ sh
    let half := 2 ^ (sh - 1)
    let inexact := rem != 0 || sticky
    let up := match mode with
      | .rne => decide (rem > half) || (rem == half && (sticky || k % 2 == 1))
      | .rz => false
      | .rp => inexact && !neg
      | .rm => inexact && neg
      | .sr r => decide (rem * 65536 / 2 ^ sh > r)
    (if up then k + 1 else k, inexact)

/-- Whether a * 2^i is above b * 2^j. -/
def dyGt (a : Nat) (i : Int) (b : Nat) (j : Int) : Bool :=
  decide (a * pow2 (i - j) > b * pow2 (j - i))

/-- One rounding of an exact nonzero magnitude (R32-R34, R39, R40): the result and the conditions OF, UF, IX.
Overflow gives an infinity or the largest finite value by the mode; with `sat` the largest finite value and no OF. -/
def roundTo (f : Fmt) (mode : Mode) (sat : Bool) (neg : Bool) (m : Nat) (e : Int) (sticky : Bool) : Num × Cond :=
  if m = 0 then (.fin neg 0 0, if sticky then cIX ||| cUF else cNone) else
  let t : Int := (f.p : Int) - 1
  let ex := e + (m.log2 : Int)
  let qu := ex - t
  let (ku, _) := roundAt mode neg m e sticky qu
  if dyGt ku qu f.maxM f.maxE then
    let big := Num.fin neg f.maxM f.maxE
    if sat then (big, cIX) else
    let toInf := match mode with
      | .rne | .sr _ => true
      | .rz => false
      | .rp => !neg
      | .rm => neg
    (if toInf then .inf neg else big, cOF ||| cIX)
  else
    let q := (if ex < f.emin then f.emin else ex) - t
    let (k, inexact) := roundAt mode neg m e sticky q
    let tiny := decide (qu + (ku.log2 : Int) < f.emin)
    (.fin neg k q, if inexact then (if tiny then cIX ||| cUF else cIX) else cNone)

/-- Round a number that may be zero, infinite or NaN; a signalling NaN raises IV (R30). -/
def roundNum (f : Fmt) (mode : Mode) (sat : Bool) : Num → Num × Cond
  | .nan s => (.nan false, if s then cSN else cNone)
  | .inf n => (.inf n, cNone)
  | .fin n m e => roundTo f mode sat n m e false

/-- Conditions of signalling NaNs among operands. -/
def snOf : Num → Cond
  | .nan true => cSN
  | _ => cNone

def Num.isNan : Num → Bool
  | .nan _ => true
  | _ => false

/-- A finite number as a signed multiple of 2^e. -/
def sgn (neg : Bool) (m : Nat) : Int := if neg then -(m : Int) else (m : Int)

/-- The exact sum of two finite numbers, with the sign of a zero sum (R31). -/
def addFin (mode : Mode) (n1 : Bool) (m1 : Nat) (e1 : Int) (n2 : Bool) (m2 : Nat) (e2 : Int) : Num :=
  if m1 = 0 && m2 = 0 then .fin (if n1 == n2 then n1 else mode == .rm) 0 0
  else
    let e := if e1 ≤ e2 then e1 else e2
    let x := sgn n1 (m1 * pow2 (e1 - e)) + sgn n2 (m2 * pow2 (e2 - e))
    if x = 0 then .fin (mode == .rm) 0 0 else .fin (decide (x < 0)) x.natAbs e

/-- The exact sum of two numbers, before rounding (R157): conditions are IV for opposite infinities. -/
def addNum (mode : Mode) : Num → Num → Num × Cond
  | .nan _, _ => (.nan false, cNone)
  | _, .nan _ => (.nan false, cNone)
  | .inf a, .inf b => if a == b then (.inf a, cNone) else (.nan false, cIV)
  | .inf a, _ => (.inf a, cNone)
  | _, .inf b => (.inf b, cNone)
  | .fin n1 m1 e1, .fin n2 m2 e2 => (addFin mode n1 m1 e1 n2 m2 e2, cNone)

/-- The exact product of two numbers; IV for zero times an infinity (R157). -/
def mulNum : Num → Num → Num × Cond
  | .nan _, _ => (.nan false, cNone)
  | _, .nan _ => (.nan false, cNone)
  | .inf a, .inf b => (.inf (a != b), cNone)
  | .inf a, .fin b m _ => if m = 0 then (.nan false, cIV) else (.inf (a != b), cNone)
  | .fin b m _, .inf a => if m = 0 then (.nan false, cIV) else (.inf (a != b), cNone)
  | .fin a m1 e1, .fin b m2 e2 => (.fin (a != b) (m1 * m2) (e1 + e2), cNone)

def negNum : Num → Num
  | .nan s => .nan s
  | .inf n => .inf (!n)
  | .fin n m e => .fin (!n) m e

/-- Round, keeping the conditions met before. -/
def finish1 (f : Fmt) (mode : Mode) (sat : Bool) (c : Cond) (r : Num × Cond) : Num × Cond :=
  let (x, c2) := roundNum f mode sat r.1
  (x, c ||| r.2 ||| c2)

/-- a + b with one rounding (R157). -/
def fpAdd (f : Fmt) (mode : Mode) (sat : Bool) (a b : Num) : Num × Cond :=
  finish1 f mode sat (snOf a ||| snOf b) (addNum mode a b)

/-- a * b with one rounding (R157). -/
def fpMul (f : Fmt) (mode : Mode) (sat : Bool) (a b : Num) : Num × Cond :=
  finish1 f mode sat (snOf a ||| snOf b) (mulNum a b)

/-- a * b + c with one rounding (R157). -/
def fpFma (f : Fmt) (mode : Mode) (sat : Bool) (a b c : Num) : Num × Cond :=
  let (p, c1) := mulNum a b
  finish1 f mode sat (snOf a ||| snOf b ||| snOf c ||| c1) (addNum mode p c)

/-- The quotient of two positive integers scaled to carry at least `p + 2` bits: significand, exponent, remainder left. -/
def divScaled (p m1 m2 : Nat) : Nat × Int × Bool :=
  let sh := p + 3 + m2.log2 - m1.log2
  let n := m1 * 2 ^ sh
  (n / m2, -(sh : Int), n % m2 != 0)

/-- a / b with one rounding (R157). -/
def fpDiv (f : Fmt) (mode : Mode) (sat : Bool) (a b : Num) : Num × Cond :=
  let sn := snOf a ||| snOf b
  match a, b with
  | .nan _, _ => (.nan false, sn)
  | _, .nan _ => (.nan false, sn)
  | .inf _, .inf _ => (.nan false, cIV)
  | .inf x, .fin y _ _ => (.inf (x != y), cNone)
  | .fin x _ _, .inf y => (.fin (x != y) 0 0, cNone)
  | .fin x m1 e1, .fin y m2 e2 =>
    if m2 = 0 then (if m1 = 0 then (.nan false, cIV) else (.inf (x != y), cDZ))
    else if m1 = 0 then (.fin (x != y) 0 0, cNone)
    else
      let (q, k, st) := divScaled f.p m1 m2
      roundTo f mode sat (x != y) q (e1 - e2 + k) st

/-- The integer square root, bit by bit from bit k - 1 down. -/
def isqrtFrom : Nat → Nat → Nat → Nat
  | 0, _, r => r
  | k + 1, m, r => let c := r + 2 ^ k; isqrtFrom k m (if c * c ≤ m then c else r)

/-- floor (sqrt m). -/
def isqrt (m : Nat) : Nat := isqrtFrom (m.log2 / 2 + 1) m 0

/-- The square root of m * 2^e (m positive): significand with at least p + 2 bits, exponent, remainder left. -/
def sqrtScaled (p m : Nat) (e : Int) : Nat × Int × Bool :=
  let sh0 := 2 * p + 6 - m.log2
  let sh := if (e - (sh0 : Int)) % 2 = 0 then sh0 else sh0 + 1
  let n := m * 2 ^ sh
  let r := isqrt n
  (r, (e - (sh : Int)) / 2, r * r != n)

/-- The square root with one rounding (R157). -/
def fpSqrt (f : Fmt) (mode : Mode) (a : Num) : Num × Cond :=
  match a with
  | .nan s => (.nan false, if s then cSN else cNone)
  | .inf false => (.inf false, cNone)
  | .inf true => (.nan false, cIV)
  | .fin n m e =>
    if m = 0 then (.fin n 0 0, cNone)
    else if n then (.nan false, cIV)
    else
      let (r, q, st) := sqrtScaled f.p m e
      roundTo f mode false false r q st

/-- a compared with b: below, equal, above; none when unordered. Zeros are equal (R161). -/
def cmpNum : Num → Num → Option Ordering
  | .nan _, _ => none
  | _, .nan _ => none
  | .inf a, .inf b => some (if a == b then .eq else if a then .lt else .gt)
  | .inf a, _ => some (if a then .lt else .gt)
  | _, .inf b => some (if b then .gt else .lt)
  | .fin n1 m1 e1, .fin n2 m2 e2 =>
    let e := if e1 ≤ e2 then e1 else e2
    some (compare (sgn n1 (m1 * pow2 (e1 - e))) (sgn n2 (m2 * pow2 (e2 - e))))

def Num.neg? : Num → Bool
  | .nan _ => false
  | .inf n => n
  | .fin n _ _ => n

def Num.isZero : Num → Bool
  | .fin _ m _ => m == 0
  | _ => false

/-- The exact difference of two numbers, before rounding (R157). By R31 a zero difference has the sign of the mode, that of two
zeros included: those of one sign by IEEE 754, the others because they are not both zeros of one sign. -/
def subNum (mode : Mode) (a b : Num) : Num × Cond :=
  if a.isZero && b.isZero then (.fin (mode == .rm) 0 0, cNone) else addNum mode a (negNum b)

/-- a - b with one rounding (R157). -/
def fpSub (f : Fmt) (mode : Mode) (sat : Bool) (a b : Num) : Num × Cond :=
  finish1 f mode sat (snOf a ||| snOf b) (subNum mode a b)

/-- Whether a ranks below b as minimum ranks numbers: -0 below +0 (R159). -/
def ranksBelow (a b : Num) : Bool :=
  match cmpNum a b with
  | some .lt => true
  | some .eq => a.neg? && !b.neg?
  | _ => false

/-- Minimum or maximum (R159): true takes the larger. -/
def fpMinMax (max num : Bool) (a b : Num) : Num × Cond :=
  let c := snOf a ||| snOf b
  match a.isNan, b.isNan with
  | true, true => (.nan false, c)
  | true, false => (if num then b else .nan false, c)
  | false, true => (if num then a else .nan false, c)
  | false, false => (if ranksBelow a b != max then a else b, c)

/-- a * 2^n with one rounding (R163); beyond 5,000 either way n changes nothing more in any format. -/
def fpScale (f : Fmt) (mode : Mode) (sat : Bool) (a : Num) (n : Int) : Num × Cond :=
  let n := if n > 5000 then 5000 else if n < -5000 then -5000 else n
  match a with
  | .fin s m e => if m = 0 then (a, cNone) else roundTo f mode sat s m (e + n) false
  | _ => roundNum f mode sat a

/-- Round to an integral value (R164): the result, and whether it differs. -/
def toIntegral (mode : Mode) (neg : Bool) (m : Nat) (e : Int) : Nat × Bool :=
  if 0 ≤ e then (m * pow2 e, false) else roundAt mode neg m e false 0

def fpRnd (mode : Mode) (x : Bool) (a : Num) : Num × Cond :=
  match a with
  | .fin s m e =>
    let (k, i) := toIntegral mode s m e
    (.fin s k 0, if x && i then cIX else cNone)
  | .inf n => (.inf n, cNone)
  | .nan s => (.nan false, if s then cSN else cNone)

/-- The exact sum of terms, none NaN (R51, R158): infinities, else the signed multiple of a common power. -/
def sumFin : List Num → Int × Int
  | [] => (0, 0)
  | x :: xs =>
    let (s, e) := sumFin xs
    match x with
    | .fin n m ex =>
      if m = 0 then (s, e)
      else if s = 0 then (sgn n m, ex)
      else
        let q := if ex ≤ e then ex else e
        (sgn n (m * pow2 (ex - q)) + s * (pow2 (e - q) : Int), q)
    | _ => (s, e)

/-- Whether some term is an infinity of a sign. -/
def hasInf (neg : Bool) (xs : List Num) : Bool := xs.any fun x => x == .inf neg

/-- The exact sum of many terms (R51, R52, R158): a NaN term gives NaN, opposite infinities give NaN and IV; a zero sum
is -0 when every term is -0, or when `mixed` and every term is a zero. -/
def sumNum (mixed : Bool) (xs : List Num) : Num × Cond :=
  if xs.any Num.isNan then (.nan false, cNone)
  else if hasInf false xs && hasInf true xs then (.nan false, cIV)
  else if hasInf false xs then (.inf false, cNone)
  else if hasInf true xs then (.inf true, cNone)
  else
    let (s, e) := sumFin xs
    if s = 0 then
      (.fin ((!xs.isEmpty && xs.all fun x => x.isZero && x.neg?) || (mixed && (xs.all Num.isZero) && xs.any Num.neg?)) 0 0, cNone)
    else (.fin (decide (s < 0)) s.natAbs e, cNone)

end Sys2Proof.Machine
end

