-- ==== Sys2Proof/Syntax.lean ====
section
/-! DEFINITION. The instructions and events of the TS-RL4 as data: one constructor for each row of the opcode table.
An instruction carries its decoded fields (03 R55-R67); an event of another agent (95) carries the choices the spec leaves to timing. -/

namespace Sys2Proof

/-- Type codes (R63); code 15 is refused. -/
inductive Ty
  | i32 | n32 | i64 | n64 | f32 | f64 | f16 | bf16 | i16x2 | n16x2 | f16x2 | bf16x2 | i8 | b8 | i4
  deriving DecidableEq, Repr, Inhabited

/-- Scopes (R8). -/
inductive Scope
  | self | warp | core | quad | die | pkg | pod | sys
  deriving DecidableEq, Repr, Inhabited

/-- Orderings (R64). -/
inductive Ordr
  | rlx | acq | rel | ar
  deriving DecidableEq, Repr, Inhabited

/-- Uses of a relaxed atomic (R64); codes 6 and 7 are refused. -/
inductive Use
  | ord | unp | comm | nonord | quant | spec
  deriving DecidableEq, Repr, Inhabited

/-- Comparisons of `ISET` (R133). -/
inductive ICmp
  | eq | ne | lt | le | gt | ge
  deriving DecidableEq, Repr, Inhabited

/-- Comparisons of `FSET` (R161). -/
inductive FCmp
  | eq | ne | lt | le | gt | ge | un | ord
  deriving DecidableEq, Repr, Inhabited

/-- `SHFL` modes (R141). -/
inductive ShflMode
  | from | rotl | xor | rev
  deriving DecidableEq, Repr, Inhabited

/-- `VOTE` modes (R141). -/
inductive VoteMode
  | all | any | uni | ballot | first
  deriving DecidableEq, Repr, Inhabited

/-- `FLGEN` modes (R167). -/
inductive FlgMode
  | set | or | andn
  deriving DecidableEq, Repr, Inhabited

/-- Atomic operations (R203). -/
inductive AtomOp
  | add | min | max | and | or | xor | xchg | cas | inc
  deriving DecidableEq, Repr, Inhabited

/-- Record kinds (R214); codes 0 and 7 are refused. -/
inductive RecKind
  | tensor | grid | bucket | launch | kovf | olog
  deriving DecidableEq, Repr, Inhabited

/-- `CPY` directions (R237). -/
inductive CpyDir
  | g2l | l2g | l2l | g2g
  deriving DecidableEq, Repr, Inhabited

/-- `EVMSET` modes (R235). -/
inductive EvSet
  | route | watch | pulse
  deriving DecidableEq, Repr, Inhabited

/-- `EVMCLR` modes (R235). -/
inductive EvClr
  | route | cnt | watch | rel
  deriving DecidableEq, Repr, Inhabited

/-- `TLD` transposes (R256). -/
inductive TrMode
  | none | tr8 | tr16
  deriving DecidableEq, Repr, Inhabited

/-- `MMASP` patterns (R254). -/
inductive SpPat
  | s24 | s14 | s48
  deriving DecidableEq, Repr, Inhabited

/-- `TMOV` directions (R256). -/
inductive TmDir
  | tt | t2v | v2t
  deriving DecidableEq, Repr, Inhabited

/-- `ADRU` rules (R274). -/
inductive UpdRule
  | axpy | wd | mom
  deriving DecidableEq, Repr, Inhabited

/-- Keyed value kinds (R293). -/
inductive KeyKind
  | add | min | max | or | fix
  deriving DecidableEq, Repr, Inhabited

/-- `PPT` modes (R451). -/
inductive PptMode
  | pt | hold | rel
  deriving DecidableEq, Repr, Inhabited

/-- `DBG` modes (R451). -/
inductive DbgMode
  | brk | step | nostep | watch
  deriving DecidableEq, Repr, Inhabited

/-- Rounding as an instruction names it (R32): from `FRM`, or one of the four modes. -/
inductive Rnd
  | dyn | rne | rz | rp | rm
  deriving DecidableEq, Repr, Inhabited

/-- Memory modifiers (R64). -/
structure Mm where
  scope : Scope
  ord : Ordr
  use : Use
  deriving DecidableEq, Repr, Inhabited

/-- A start field: the event-matrix column a command is held on, if any (R235, R256). -/
abbrev Start := Option (BitVec 4)

/-- An operand field: class and index (R59). -/
inductive Opnd
  | v (n : BitVec 8) | s (n : BitVec 8) | p (n : BitVec 8) | k (n : BitVec 8)
  | t (n : BitVec 8) | a (n : BitVec 8) | b (n : BitVec 8) | imm (n : BitVec 8)
  deriving DecidableEq, Repr, Inhabited

/-- The fields that every instruction word carries: guard, write-back and scheduling hints (R55, R57, R66, R67). -/
structure Hd where
  neg : Bool
  gp : BitVec 3
  nwb : Bool
  cap : Bool
  latch : BitVec 2
  yl : Bool
  st : BitVec 4
  deriving DecidableEq, Repr, Inhabited

/-- Who sends into a stream: a warp's held instruction, a copy command, a grid unit or a spire base. -/
inductive Sender
  | warp (wid warp : Nat) | cmd (wid cmd : Nat) | spire (sp : Nat)
  deriving DecidableEq, Repr, Inhabited

/-- An access by the host (R332, R347): a read, a write of device memory, or of its own memory. -/
inductive HostOp
  | read (pa n : Nat) | write (pa : Nat) (bytes : List (BitVec 8)) | writeHost (pa : Nat) (bytes : List (BitVec 8))
  deriving DecidableEq, Repr, Inhabited

/-- The 177 instructions (R69) and the 84 further steps of the opcode table. -/
inductive Instr
  -- CTL
  | nop (h : Hd)
  | bra (h : Hd) (pr : BitVec 8) (off : BitVec 24)
  | brx (h : Hd) (a : Opnd)
  | call (h : Hd) (pr : BitVec 8) (d : Opnd) (off : BitVec 24)
  | ret (h : Hd) (a : Opnd)
  | rjset (h : Hd) (d : Opnd)
  | rjwait (h : Hd) (pr : BitVec 8) (a : Opnd)
  | rjdrop (h : Hd) (d : Opnd)
  | exit (h : Hd)
  | yield (h : Hd)
  | prio (h : Hd) (pr : BitVec 8)
  | bkt (h : Hd) (pr : BitVec 8) (a : Opnd) (b : Opnd)
  | launch (h : Hd) (d : Opnd) (a : Opnd)
  | waitk (h : Hd) (d : Opnd) (a : Opnd) (b : Opnd)
  | sleep (h : Hd) (n : BitVec 24)
  -- INT
  | iadd (h : Hd) (ty : Ty) (sat : Bool) (d : Opnd) (a : Opnd) (b : Opnd)
  | isub (h : Hd) (ty : Ty) (sat : Bool) (d : Opnd) (a : Opnd) (b : Opnd)
  | imul (h : Hd) (ty : Ty) (sat : Bool) (d : Opnd) (a : Opnd) (b : Opnd)
  | imulh (h : Hd) (ty : Ty) (d : Opnd) (a : Opnd) (b : Opnd)
  | imad (h : Hd) (ty : Ty) (sat : Bool) (d : Opnd) (a : Opnd) (b : Opnd) (c : Opnd)
  | imadw (h : Hd) (ty : Ty) (d : Opnd) (a : Opnd) (b : Opnd) (c : Opnd)
  | idiv (h : Hd) (ty : Ty) (sat : Bool) (d : Opnd) (a : Opnd) (b : Opnd)
  | irem (h : Hd) (ty : Ty) (d : Opnd) (a : Opnd) (b : Opnd)
  | imin (h : Hd) (ty : Ty) (d : Opnd) (a : Opnd) (b : Opnd)
  | imax (h : Hd) (ty : Ty) (d : Opnd) (a : Opnd) (b : Opnd)
  | iabs (h : Hd) (ty : Ty) (sat : Bool) (d : Opnd) (a : Opnd)
  | ineg (h : Hd) (ty : Ty) (sat : Bool) (d : Opnd) (a : Opnd)
  | and (h : Hd) (ty : Ty) (d : Opnd) (a : Opnd) (b : Opnd)
  | or (h : Hd) (ty : Ty) (d : Opnd) (a : Opnd) (b : Opnd)
  | xor (h : Hd) (ty : Ty) (d : Opnd) (a : Opnd) (b : Opnd)
  | not (h : Hd) (ty : Ty) (d : Opnd) (a : Opnd)
  | bool3 (h : Hd) (tt : BitVec 8) (ty : Ty) (d : Opnd) (a : Opnd) (b : Opnd) (c : Opnd)
  | shl (h : Hd) (ty : Ty) (d : Opnd) (a : Opnd) (b : Opnd)
  | shr (h : Hd) (ty : Ty) (d : Opnd) (a : Opnd) (b : Opnd)
  | sar (h : Hd) (ty : Ty) (d : Opnd) (a : Opnd) (b : Opnd)
  | rot (h : Hd) (ty : Ty) (d : Opnd) (a : Opnd) (b : Opnd)
  | popc (h : Hd) (ty : Ty) (d : Opnd) (a : Opnd)
  | clz (h : Hd) (ty : Ty) (d : Opnd) (a : Opnd)
  | ctz (h : Hd) (ty : Ty) (d : Opnd) (a : Opnd)
  | brev (h : Hd) (ty : Ty) (d : Opnd) (a : Opnd)
  | bfe (h : Hd) (ty : Ty) (d : Opnd) (a : Opnd) (b : Opnd)
  | bfi (h : Hd) (ty : Ty) (d : Opnd) (a : Opnd) (b : Opnd) (c : Opnd)
  | iset (h : Hd) (cmp : ICmp) (ty : Ty) (d : Opnd) (a : Opnd) (b : Opnd)
  | isel (h : Hd) (ty : Ty) (d : Opnd) (a : Opnd) (b : Opnd) (c : Opnd)
  | lea (h : Hd) (sh : BitVec 3) (ty : Ty) (d : Opnd) (a : Opnd) (b : Opnd)
  | addc (h : Hd) (cp : BitVec 3) (ty : Ty) (d : Opnd) (a : Opnd) (b : Opnd) (c : Opnd)
  | subb (h : Hd) (cp : BitVec 3) (ty : Ty) (d : Opnd) (a : Opnd) (b : Opnd) (c : Opnd)
  | plop (h : Hd) (tt : BitVec 8) (d : Opnd) (a : Opnd) (b : Opnd) (c : Opnd)
  -- MOV
  | mov (h : Hd) (ty : Ty) (d : Opnd) (a : Opnd)
  | movi (h : Hd) (ty : Ty) (d : Opnd) (imm : BitVec 24)
  | movh (h : Hd) (n : BitVec 2) (ty : Ty) (d : Opnd) (a : Opnd) (imm : BitVec 16)
  | shfl (h : Hd) (mode : ShflMode) (seg : BitVec 3) (ty : Ty) (d : Opnd) (a : Opnd) (b : Opnd)
  | vote (h : Hd) (mode : VoteMode) (d : Opnd) (a : Opnd)
  | bcast (h : Hd) (elect : Bool) (ty : Ty) (d : Opnd) (a : Opnd) (b : Opnd)
  | rdsr (h : Hd) (d : Opnd) (sr : BitVec 12)
  | wrsr (h : Hd) (a : Opnd) (sr : BitVec 12)
  | xacq (h : Hd) (n : BitVec 24)
  | xrel (h : Hd)
  | xtry (h : Hd) (d : Opnd) (n : BitVec 24)
  | pmov (h : Hd) (unpack : Bool) (m : BitVec 7) (d : Opnd) (a : Opnd)
  | kmov (h : Hd) (d : Opnd) (a : Opnd)
  -- FPA
  | fadd (h : Hd) (rnd : Rnd) (ty : Ty) (sat : Bool) (d : Opnd) (a : Opnd) (b : Opnd)
  | fsub (h : Hd) (rnd : Rnd) (ty : Ty) (sat : Bool) (d : Opnd) (a : Opnd) (b : Opnd)
  | fmul (h : Hd) (rnd : Rnd) (ty : Ty) (sat : Bool) (d : Opnd) (a : Opnd) (b : Opnd)
  | ffma (h : Hd) (rnd : Rnd) (ty : Ty) (sat : Bool) (d : Opnd) (a : Opnd) (b : Opnd) (c : Opnd)
  | fmin (h : Hd) (num : Bool) (ty : Ty) (d : Opnd) (a : Opnd) (b : Opnd)
  | fmax (h : Hd) (num : Bool) (ty : Ty) (d : Opnd) (a : Opnd) (b : Opnd)
  | fabs (h : Hd) (ty : Ty) (d : Opnd) (a : Opnd)
  | fneg (h : Hd) (ty : Ty) (d : Opnd) (a : Opnd)
  | fcpys (h : Hd) (ty : Ty) (d : Opnd) (a : Opnd) (b : Opnd)
  | fdiv (h : Hd) (rnd : Rnd) (ty : Ty) (sat : Bool) (d : Opnd) (a : Opnd) (b : Opnd)
  | fsqrt (h : Hd) (rnd : Rnd) (ty : Ty) (d : Opnd) (a : Opnd)
  | frcp (h : Hd) (ty : Ty) (sat : Bool) (d : Opnd) (a : Opnd)
  | frsq (h : Hd) (ty : Ty) (d : Opnd) (a : Opnd)
  | fexp2 (h : Hd) (ty : Ty) (sat : Bool) (d : Opnd) (a : Opnd)
  | flog2 (h : Hd) (ty : Ty) (d : Opnd) (a : Opnd)
  | fsin (h : Hd) (ty : Ty) (d : Opnd) (a : Opnd)
  | fcos (h : Hd) (ty : Ty) (d : Opnd) (a : Opnd)
  | fset (h : Hd) (cmp : FCmp) (ty : Ty) (d : Opnd) (a : Opnd) (b : Opnd)
  | fclass (h : Hd) (ty : Ty) (d : Opnd) (a : Opnd)
  | fscale (h : Hd) (rnd : Rnd) (ty : Ty) (sat : Bool) (d : Opnd) (a : Opnd) (b : Opnd)
  | frnd (h : Hd) (x : Bool) (rnd : Rnd) (ty : Ty) (d : Opnd) (a : Opnd)
  | fdot2 (h : Hd) (rnd : Rnd) (ty : Ty) (sat : Bool) (d : Opnd) (a : Opnd) (b : Opnd) (c : Opnd)
  -- CVT
  | cvt (h : Hd) (src : Ty) (rnd : Rnd) (ty : Ty) (sat : Bool) (d : Opnd) (a : Opnd)
  | cvtb8 (h : Hd) (dec : Bool) (hi : Bool) (sr : Bool) (wide : Ty) (fmt : BitVec 5) (rnd : Rnd) (sat : Bool) (d : Opnd) (a : Opnd) (b : Opnd)
  | mxq (h : Hd) (sr : Bool) (src : Ty) (fmt : BitVec 5) (rnd : Rnd) (d : Opnd) (a : Opnd)
  | mxd (h : Hd) (out : Ty) (fmt : BitVec 5) (rnd : Rnd) (sat : Bool) (d : Opnd) (a : Opnd) (b : Opnd)
  | amax (h : Hd) (ty : Ty) (d : Opnd) (a : Opnd) (b : Opnd)
  | rng (h : Hd) (ty : Ty) (d : Opnd)
  | rngkey (h : Hd) (rd : Bool) (d : Opnd) (a : Opnd) (b : Opnd)
  | flgrd (h : Hd) (clr : Bool) (d : Opnd)
  | flgclr (h : Hd) (a : Opnd)
  | flgen (h : Hd) (mode : FlgMode) (a : Opnd)
  | frmset (h : Hd) (d : Opnd) (a : Opnd)
  | fxcvt (h : Hd) (line : Bool) (ty : Ty) (sat : Bool) (d : Opnd) (a : Opnd) (b : Opnd) (off : BitVec 24)
  -- LOC
  | ldl (h : Hd) (mm : Mm) (ty : Ty) (d : Opnd) (a : Opnd) (b : Opnd) (off : BitVec 24)
  | stl (h : Hd) (mm : Mm) (ty : Ty) (d : Opnd) (a : Opnd) (b : Opnd) (off : BitVec 24)
  | ldg (h : Hd) (mm : Mm) (ty : Ty) (d : Opnd) (a : Opnd) (b : Opnd) (off : BitVec 24)
  | stg (h : Hd) (mm : Mm) (ty : Ty) (d : Opnd) (a : Opnd) (b : Opnd) (off : BitVec 24)
  | atl (h : Hd) (mm : Mm) (op : AtomOp) (nr : Bool) (ty : Ty) (d : Opnd) (a : Opnd) (b : Opnd) (c : Opnd)
  | atg (h : Hd) (mm : Mm) (op : AtomOp) (nr : Bool) (ty : Ty) (d : Opnd) (a : Opnd) (b : Opnd) (c : Opnd)
  | stash (h : Hd) (win : BitVec 2) (a : Opnd) (b : Opnd) (c : Opnd)
  | stfl (h : Hd) (all : Bool) (win : BitVec 2)
  | stinv (h : Hd) (all : Bool) (win : BitVec 2)
  | l1inv (h : Hd)
  | pref (h : Hd) (a : Opnd) (b : Opnd) (off : BitVec 24)
  -- HDL
  | seal (h : Hd) (kind : RecKind) (d : Opnd) (a : Opnd) (b : Opnd) (off : BitVec 24)
  | unseal (h : Hd) (a : Opnd)
  | hqry (h : Hd) (rc : Bool) (d : Opnd) (a : Opnd) (n : BitVec 6)
  -- CPY
  | cpy (h : Hd) (dir : CpyDir) (grp : BitVec 3) (on : Start) (d : Opnd) (a : Opnd) (b : Opnd) (c : Opnd)
  | gath (h : Hd) (list : Bool) (rows : Bool) (grp : BitVec 3) (on : Start) (d : Opnd) (a : Opnd) (b : Opnd) (c : Opnd)
  | scat (h : Hd) (list : Bool) (rows : Bool) (grp : BitVec 3) (on : Start) (d : Opnd) (a : Opnd) (b : Opnd) (c : Opnd)
  | binit (h : Hd) (a : Opnd) (b : Opnd)
  | barv (h : Hd) (lanes : Bool) (d : Opnd) (a : Opnd) (b : Opnd) (c : Opnd)
  | bexp (h : Hd) (d : Opnd) (a : Opnd) (b : Opnd)
  | bwait (h : Hd) (d : Opnd) (a : Opnd) (b : Opnd) (c : Opnd)
  | btest (h : Hd) (img : Bool) (d : Opnd) (a : Opnd) (b : Opnd)
  | evmset (h : Hd) (mode : EvSet) (d : Opnd) (a : Opnd) (b : Opnd)
  | evmclr (h : Hd) (mode : EvClr) (a : Opnd) (b : Opnd)
  | cpyq (h : Hd) (clr : Bool) (d : Opnd) (a : Opnd)
  | cpyk (h : Hd) (d : Opnd) (a : Opnd)
  -- TIL
  | tcfg (h : Hd) (d : Opnd) (a : Opnd)
  | tld (h : Hd) (tr : TrMode) (d : Opnd) (a : Opnd) (b : Opnd) (off : BitVec 24)
  | tst (h : Hd) (d : Opnd) (a : Opnd) (b : Opnd) (off : BitVec 24)
  | tzero (h : Hd) (d : Opnd)
  | mma (h : Hd) (sw : Bool) (fb : BitVec 5) (fa : BitVec 5) (ty : Ty) (d : Opnd) (a : Opnd) (b : Opnd)
  | mmasp (h : Hd) (sw : Bool) (pat : SpPat) (fb : BitVec 5) (fa : BitVec 5) (ty : Ty) (d : Opnd) (a : Opnd) (b : Opnd) (c : Opnd)
  | mmseq (h : Hd) (sw : Bool) (on : Start) (fb : BitVec 5) (fa : BitVec 5) (ty : Ty) (d : Opnd) (a : Opnd) (b : Opnd)
  | seqst (h : Hd) (wait : Bool) (clr : Bool) (d : Opnd)
  | tmov (h : Hd) (dir : TmDir) (d : Opnd) (a : Opnd) (b : Opnd)
  | tqry (h : Hd) (n : Bool) (d : Opnd) (a : Opnd)
  -- ACC
  | ald (h : Hd) (ln : BitVec 3) (d : Opnd) (a : Opnd) (b : Opnd)
  | ast (h : Hd) (ln : BitVec 3) (ty : Ty) (d : Opnd) (a : Opnd) (b : Opnd)
  | azero (h : Hd) (d : Opnd)
  | adrn (h : Hd) (z : Bool) (fmt : BitVec 5) (rnd : Rnd) (ty : Ty) (sat : Bool) (a : Opnd) (b : Opnd)
  | adru (h : Hd) (rule : UpdRule) (z : Bool) (mbf : Bool) (ty : Ty) (sat : Bool) (a : Opnd) (b : Opnd) (c : Opnd)
  | asca (h : Hd) (fsc : Bool) (d : Opnd) (a : Opnd) (b : Opnd)
  | aqred (h : Hd) (z : Bool) (int : Bool) (fmt : BitVec 5) (rnd : Rnd) (ty : Ty) (sat : Bool) (a : Opnd) (b : Opnd) (c : Opnd)
  | split (h : Hd) (n : BitVec 4) (ex : Bool) (d : Opnd) (a : Opnd) (b : Opnd)
  | recomb (h : Hd) (lv : BitVec 4) (ln : BitVec 3) (d : Opnd) (a : Opnd) (b : Opnd)
  | acqry (h : Hd) (d : Opnd) (a : Opnd)
  -- KEY
  | kclaim (h : Hd) (kind : KeyKind) (ch : BitVec 3) (d : Opnd) (a : Opnd) (b : Opnd) (w : BitVec 12)
  | kfree (h : Hd)
  | kins (h : Hd) (d : Opnd) (a : Opnd) (b : Opnd)
  | kprb (h : Hd) (d : Opnd) (a : Opnd) (c : Opnd)
  | kdel (h : Hd) (d : Opnd) (a : Opnd)
  | kacc (h : Hd) (ty : Ty) (a : Opnd) (b : Opnd)
  | kdrn (h : Hd) (z : Bool) (d : Opnd) (a : Opnd) (b : Opnd)
  | kstat (h : Hd) (clr : Bool) (d : Opnd)
  -- GRD
  | gld (h : Hd) (sat : Bool) (d : Opnd) (a : Opnd) (b : Opnd)
  | gsc (h : Hd) (gen : BitVec 8) (sat : Bool) (a : Opnd) (b : Opnd) (c : Opnd)
  | gidx (h : Hd) (w : Bool) (d : Opnd) (a : Opnd) (b : Opnd) (lv : BitVec 5)
  | gqry (h : Hd) (d : Opnd) (a : Opnd) (sel : BitVec 6)
  -- ORD
  | fence (h : Hd) (mm : Mm) (kr : Bool) (kg : Bool) (kl : Bool)
  | bflip (h : Hd) (host : Bool) (d : Opnd) (a : Opnd)
  | bqry (h : Hd) (d : Opnd) (a : Opnd)
  -- RMT
  | radd (h : Hd) (comm : Bool) (ty : Ty) (d : Opnd) (a : Opnd) (b : Opnd) (off : BitVec 24)
  | rfxa (h : Hd) (comm : Bool) (init : Bool) (line : Bool) (fmt : BitVec 5) (ty : Ty) (d : Opnd) (a : Opnd) (b : Opnd) (c : Opnd)
  | rmin (h : Hd) (comm : Bool) (ty : Ty) (d : Opnd) (a : Opnd) (b : Opnd) (off : BitVec 24)
  | rmax (h : Hd) (comm : Bool) (ty : Ty) (d : Opnd) (a : Opnd) (b : Opnd) (off : BitVec 24)
  | ror (h : Hd) (comm : Bool) (ty : Ty) (d : Opnd) (a : Opnd) (b : Opnd) (off : BitVec 24)
  | rwo (h : Hd) (comm : Bool) (ty : Ty) (d : Opnd) (a : Opnd) (b : Opnd) (off : BitVec 24)
  | rarv (h : Hd) (ty : Ty) (d : Opnd) (a : Opnd) (b : Opnd) (off : BitVec 24)
  | rreq (h : Hd) (w32 : Bool) (n : BitVec 4) (d : Opnd) (a : Opnd) (b : Opnd)
  | waitc (h : Hd) (d : Opnd) (a : Opnd) (b : Opnd) (c : Opnd)
  -- PHS
  | hbar (h : Hd) (mm : Mm) (d : Opnd) (a : Opnd) (ch : BitVec 4)
  | phase (h : Hd) (d : Opnd) (a : Opnd)
  | phqry (h : Hd) (d : Opnd) (sel : BitVec 4)
  | oapp (h : Hd) (d : Opnd) (a : Opnd) (ch : BitVec 3)
  | odecl (h : Hd) (ch : BitVec 3)
  | dmqry (h : Hd) (d : Opnd)
  -- SYS
  | trap (h : Hd) (n : BitVec 4)
  | tret (h : Hd)
  | trdc (h : Hd) (clr : Bool) (d : Opnd)
  | ppt (h : Hd) (mode : PptMode) (n : BitVec 24)
  | tlbinv (h : Hd) (scope : BitVec 3) (all : Bool) (a : Opnd)
  | dbg (h : Hd) (mode : DbgMode) (a : Opnd) (b : Opnd) (code : BitVec 16)
  -- steps of other agents (95)
  /-- R70: a word whose opcode is not assigned. -/
  | unassignedOpcode (bits : BitVec 96)
  /-- R97: a placement turn of a die's launch unit. -/
  | placeWorkgroup (die : Nat)
  /-- R183: a draining core that is quiescent begins its carve change. -/
  | carveChange (core : Nat)
  /-- R183: the 512 clocks of a carve change are over. -/
  | carveChangeDone (core : Nat)
  /-- R444: a workgroup asked to stop is saved. -/
  | preemptSave (wid : Nat)
  /-- R446: a die's launch unit resumes a saved workgroup. -/
  | resumeWorkgroup (die : Nat)
  /-- R100: a finished workgroup retires. -/
  | workgroupRetire (wid : Nat)
  /-- R120: the head of a core's extended-block queue is granted. -/
  | xacqGrant (core : Nat)
  /-- R112: a warp's sleep ends. -/
  | sleepEnd (wid : Nat) (warp : Nat)
  /-- R111: a completion word has met a waiter's target. -/
  | waitkWake (wid : Nat) (warp : Nat)
  /-- R221: the copy engine starts the oldest command that is not held. -/
  | commandStart (core : Nat)
  /-- R237: a piece of a copy lands. -/
  | pieceLanded (wid : Nat) (cmd : Nat) (piece : Nat)
  /-- R238: a row of a gather or scatter lands. -/
  | rowLanded (wid : Nat) (cmd : Nat) (row : Nat)
  /-- R238: a remote row's 64 us have passed. -/
  | gatherRowTimeout (wid : Nat) (cmd : Nat) (row : Nat)
  /-- R223: a copy command completes. -/
  | commandComplete (wid : Nat) (cmd : Nat)
  /-- R238: a read reply reaches a core's reply buffer. -/
  | replyBufferWrite (die : Nat) (k : Nat) (noise : Nat)
  /-- R251: the matrix engine finishes the instruction at the head of its queue. -/
  | engineComplete (core : Nat)
  /-- R264: the sequencer runs one step. -/
  | sequencerStep (core : Nat)
  /-- R267: a waiting `SEQST` returns. -/
  | seqstWaitReturn (wid : Nat) (warp : Nat)
  /-- R285: a waiting `AQRED` makes its next step. -/
  | aqredStep (wid : Nat)
  /-- R301: the keyed unit applies the head of its queue. -/
  | keyedApply (core : Nat)
  /-- R321: the grid unit completes the head of its queue. -/
  | gridComplete (core : Nat)
  /-- R320: a scatter's next contribution enters its stream. -/
  | gscSend (core : Nat)
  /-- R358: a walk in flight ends. -/
  | walkComplete (die : Nat) (k : Nat)
  /-- R364: a waiting operation enters its stream. -/
  | streamEntry (who : Sender)
  /-- R364: an unacknowledged operation is sent again. -/
  | retransmit (src : Nat) (dst : Nat) (seq : Nat)
  /-- R376: a waiting counted arrival leaves. -/
  | rarvDepart (die : Nat) (wid : Nat) (warp : Nat)
  /-- R371: a warp has waited 10 ms. -/
  | streamStall (wid : Nat) (warp : Nat)
  /-- R371: a waiting counted arrival has waited 10 ms. -/
  | arrivalStall (die : Nat) (wid : Nat) (warp : Nat)
  /-- R379: a spire base applies a remote add. -/
  | applyRadd (sp : Nat) (k : Nat) (noise : Nat)
  /-- R379: a spire base applies a remote minimum. -/
  | applyRmin (sp : Nat) (k : Nat) (noise : Nat)
  /-- R379: a spire base applies a remote maximum. -/
  | applyRmax (sp : Nat) (k : Nat) (noise : Nat)
  /-- R379: a spire base applies a remote OR. -/
  | applyRor (sp : Nat) (k : Nat) (noise : Nat)
  /-- R44: a spire base adds a contribution to a line. -/
  | applyContribution (sp : Nat) (k : Nat) (noise : Nat)
  /-- R372: a spire base initialises a line. -/
  | applyLineInit (sp : Nat) (k : Nat) (noise : Nat)
  /-- R374: a spire base applies a write-once write or reset. -/
  | applyWriteOnce (sp : Nat) (k : Nat) (noise : Nat)
  /-- R375: a spire base applies a counted arrival. -/
  | applyArrival (sp : Nat) (k : Nat) (noise : Nat)
  /-- R383: a spire base serves a read request. -/
  | serveReadRequest (sp : Nat) (k : Nat) (noise : Nat)
  /-- R383: a spire base applies a read reply. -/
  | applyReply (sp : Nat) (k : Nat) (noise : Nat)
  /-- R395: a die takes a group of acknowledgements. -/
  | ackGroupReceived (die : Nat) (k : Nat) (noise : Nat)
  /-- R362: a watch fires. -/
  | watchFire (sp : Nat) (k : Nat)
  /-- R362: a `WAITC` without a watch polls its word. -/
  | watchPoll (wid : Nat) (warp : Nat)
  /-- R384: a `WAITC` passes its deadline. -/
  | waitcDeadline (wid : Nat) (warp : Nat)
  /-- R349: a fence's conditions hold. -/
  | fenceComplete (wid : Nat) (warp : Nat)
  /-- R410: an arrival reaches its barrier network. -/
  | networkArrival (k : Nat)
  /-- R414: a balance sweep of a complete phase. -/
  | balanceSweep (k : Nat)
  /-- R422: the next act of a channel is granted. -/
  | actGrant (die : Nat) (ch : Nat)
  /-- R427: an order-sensitive event is made and logged or replayed. -/
  | loggedEvent (wid : Nat) (warp : Nat)
  /-- R428: a warp has stalled 10 ms on a full log. -/
  | logFull (wid : Nat) (warp : Nat)
  /-- R455: a hold against pre-emption ends. -/
  | pptHoldExpiry (wid : Nat) (warp : Nat)
  /-- R461: the host writes the launch port. -/
  | launchPortWrite (pkg : Nat) (ctx : Nat) (off : Nat) (bytes : List (BitVec 8))
  /-- R463: a pre-emption request. -/
  | preqPreempt (die : Nat) (value : BitVec 64)
  /-- R463: a request to end a workgroup. -/
  | preqTerminate (die : Nat) (value : BitVec 64)
  /-- R463: a request with a reserved code. -/
  | preqReserved (die : Nat) (value : BitVec 64)
  /-- R460: the host asks for a bias flip. -/
  | biasFlipRequest (die : Nat) (value : BitVec 64)
  /-- R460: the host sets a bias bit. -/
  | biasForce (die : Nat) (value : BitVec 64)
  /-- R465: a report is asked for. -/
  | reportRequest (pkg : Nat) (value : BitVec 64)
  /-- R465: a report is ready. -/
  | reportReady (pkg : Nat)
  /-- R466: the power mode of a die is written. -/
  | powerModeWrite (die : Nat) (eff : Bool)
  /-- R466: a mode change takes effect. -/
  | modeSwitch (die : Nat)
  /-- R466: the power cap of a die is written. -/
  | powerCapWrite (die : Nat) (cap : BitVec 11)
  /-- R466: a die's average draw over 100 us is judged against its cap. -/
  | capClockStep (die : Nat) (watts : Nat)
  /-- R405: a table swap is armed. -/
  | armSwap (pkg : Nat) (n : BitVec 64)
  /-- R405: an armed bank becomes active. -/
  | tableSwap (pkg : Nat)
  /-- R402: the wrapped key is loaded. -/
  | keyLoad (pkg : Nat)
  /-- R402: the key is zeroised. -/
  | keyZero (pkg : Nat)
  /-- R402: `OCCTL` is written. -/
  | laneEnable (pkg : Nat) (value : BitVec 64)
  /-- R459: a register of the device is written. -/
  | registerWrite (pkg : Nat) (off : Nat) (value : BitVec 64)
  /-- R391: the next slot of the rotation starts. -/
  | slotStart (pkg : Nat)
  /-- R397: a receive lane takes a flit. -/
  | flitReceived (pkg : Nat) (lane : Nat) (k : Nat) (symbols : Nat) (bad : Bool) (noise : Nat)
  /-- R397: a missing flit number is given up. -/
  | flowGap (pkg : Nat) (src : Nat)
  /-- R396: a receive lane's window of code words ends. -/
  | fecWindowEnd (pkg : Nat) (lane : Nat)
  /-- R398: a request for a spare reaches the transmitting package. -/
  | handoverRequest (pkg : Nat) (lane : Nat)
  /-- R398: both ends of a spare report it ready. -/
  | spareReady (pkg : Nat) (lane : Nat)
  /-- R398: a lane's retraining ends. -/
  | retrainDone (pkg : Nat) (lane : Nat)
  /-- R332: the host reads or writes memory. -/
  | hostAccess (op : HostOp)
  /-- R363: a job's partition is formed of packages 0 to n - 1, with the page-table root of each (die, context). -/
  | partitionFormed (n : Nat) (roots : List (Nat × Nat × Nat))
  /-- R464: a die is reset; the manifest digest and the image digests come from outside. -/
  | dieReset (die : Nat) (fw : List (List (BitVec 8)))
  /-- R402: a package's optical side is reset. -/
  | packageReset (pkg : Nat)
  /-- R360: a DRAM error, corrected or not. -/
  | dramError (pa : Nat) (bad : Bool)
  /-- R350: a bias flip completes. -/
  | flipComplete (k : Nat)
  /-- R205: a stash line's write-back is acknowledged. -/
  | writeBackComplete (wid : Nat) (win : Nat) (line : Nat)
  /-- R393: a rotation starts. -/
  | rotationStart (pkg : Nat)
  /-- R392: a transmit lane sends a flit. -/
  | flitSend (pkg : Nat) (lane : Nat) (kind : Nat)
  deriving DecidableEq, Repr, Inhabited

/-- What a step of the machine does: a turn of issue port `p` of core `core`, or an event (L1). -/
inductive Act
  | port (core p : Nat)
  | event (i : Instr)
  deriving DecidableEq, Repr, Inhabited

/-- One entry of the schedule: the pod time that passes, in ns, and what acts. -/
structure Turn where
  dt : Nat
  act : Act
  deriving DecidableEq, Repr, Inhabited

end Sys2Proof
end

