-- ==== Sys2Proof/Config.lean ====
section
/-! DEFINITION. What the spec leaves to the implementation or to the world: uninterpreted constants without a body. No
proof can see their values; a statement holds whatever they are. -/

namespace Sys2Proof.Config

/-- The schedule when no turn is queued (L1). -/
opaque schedule : Nat → Turn

/-- Free values, one for each count (L5). -/
opaque freeValue : Nat → BitVec 64

/-- Whether a manifest's signature holds under the key fused in the ROM (R464; L6): of its digest. -/
opaque manifestSigned : BitVec 512 → Bool

/-- The signature of a report under a package's private key (R465; L6). -/
opaque signReport : Nat → List (BitVec 8) → List (BitVec 8)

/-- The key that a package unwraps from `KEYIN`, if it unwraps (R402; L6). -/
opaque unwrapKey : Nat → List (BitVec 8) → Option (BitVec 256)

/-- The AES-256-GCM key stream for 128 bytes under a key and an initialisation vector (R401; L6). -/
opaque keyStream : BitVec 256 → BitVec 96 → BitVec 1024

/-- The 96-bit GCM tag of a header and ciphertext (R401; L6). -/
opaque gcmTag : BitVec 256 → BitVec 96 → BitVec 32 → BitVec 1024 → BitVec 96

/-- The serial number fused into a package (R464). -/
opaque serial : Nat → BitVec 64

/-- The die stepping (R464). -/
opaque stepping : Nat → BitVec 8

/-- The 256-byte fuse record of a package, which holds its stepping, its features and its serial number (R464; L6). -/
opaque fuseRecord : Nat → BitVec 8 → BitVec 64 → BitVec 2048

/-- The byte at an offset of a part of a save image, by the number of its section, that holds some content in a layout of the
implementation's own (R447; L22). -/
opaque imageLayout {α : Type} : Nat → α → Nat → BitVec 8

end Sys2Proof.Config
end

