-- ==== Sys2Proof/Machine/Tab.lean ====
section
/-! DEFINITION. Finite tables keyed by a number: association lists in ascending order of key. -/

namespace Sys2Proof.Machine

/-- A table: pairs of key and value, keys strictly rising. -/
abbrev Tab (α : Type) := List (Nat × α)

/-- The entry of a key. -/
def look {α : Type} : Tab α → Nat → Option α
  | [], _ => none
  | (k, x) :: t, n => if k = n then some x else if n < k then none else look t n

/-- The table with one entry replaced or added. -/
def ins {α : Type} : Tab α → Nat → α → Tab α
  | [], n, y => [(n, y)]
  | (k, x) :: t, n, y => if n < k then (n, y) :: (k, x) :: t else if k = n then (n, y) :: t else (k, x) :: ins t n y

/-- The table without one entry. -/
def del {α : Type} : Tab α → Nat → Tab α
  | [], _ => []
  | (k, x) :: t, n => if n < k then (k, x) :: t else if k = n then t else (k, x) :: del t n

/-- The entry of a key, or a default. -/
def lookD {α : Type} (t : Tab α) (n : Nat) (d : α) : α := (look t n).getD d

/-- The values of a table, in order of key. -/
def vals {α : Type} (t : Tab α) : List α := t.map (·.2)

/-- The table with one entry changed, if it is there. -/
def upd {α : Type} (t : Tab α) (n : Nat) (f : α → α) : Tab α :=
  match look t n with
  | some x => ins t n (f x)
  | none => t

/-- Put an element into a list that ascends by a number. -/
def insOn {α : Type} (f : α → Nat) (x : α) : List α → List α
  | [] => [x]
  | y :: ys => if f x < f y then x :: y :: ys else y :: insOn f x ys

/-- A list in ascending order of a number, equal ones as they stood. -/
def sortOn {α : Type} (f : α → Nat) (xs : List α) : List α := xs.foldl (fun t x => insOn f x t) []

end Sys2Proof.Machine
end

