-- ==== Sys2Proof/Machine/State.lean ====
section
/-! DEFINITION. The state of a pod of TS-RL4 packages as plain data, its state after reset, and the ways a step can stop. -/

namespace Sys2Proof.Machine

/-- Memory: listed bytes in ascending address, none of them the value an unlisted byte reads as (L2). -/
abbrev Mem := List Host.Cell

/-- What a byte that nothing has written reads as: 0 (R187 for local areas; DESIGN CHOICE for spire and host memory, L2). -/
def blankByte : Byte := 0#8

/-- The canonical form of a memory: addresses strictly rising, no entry equal to an unlisted byte. -/
def Memory.wf : Mem → Bool
  | [] => true
  | [c] => c.2 != blankByte
  | c :: d :: m => c.2 != blankByte && decide (c.1 < d.1) && Memory.wf (d :: m)

/-! ### Warps -/

/-- A frontier entry (R82): `full` is the count of issues at which its counter reached 255 (R84). -/
structure Entry where
  prio : BitVec 8
  pc : Pc
  mask : Mask
  age : Nat
  full : Nat
  deriving DecidableEq, Repr, Inhabited

/-- Threads parked at one pair at one issue (R83): `age` is their park age, `born` the count of issues at which they parked. -/
structure Parked where
  prio : BitVec 8
  pc : Pc
  mask : Mask
  age : Nat
  born : Nat
  deriving DecidableEq, Repr, Inhabited

/-- What a port has issued, or is about to: the warp, the pair, the bundle and the word (R78). `ready` is false after the
warp turned out not to be ready (R84). -/
structure Cur where
  wid : Nat
  warp : Nat
  pc : Pc
  prio : BitVec 8
  bundle : Mask
  insn : BitVec 96
  ready : Bool
  deriving DecidableEq, Repr, Inhabited

/-- The wait operands of threads blocked in `HBAR` or `PHASE` (R430). `ans` is the network's answer: released, or refused
for a participant count that differs (R408). -/
structure NetWait where
  id : Nat
  phase : Bool
  scope : Nat
  ch : Nat
  n : Nat
  k : Nat
  d : Nat
  cur : Cur
  ans : Option Bool
  deriving DecidableEq, Repr, Inhabited

/-- What blocked threads wait on (R88, R241, R430). -/
inductive Why
  | rejoin (k : Nat) (prio : BitVec 8)
  | bar (bar : Nat) (token : BitVec 16) (d c : Nat)
  | net (w : NetWait)
  deriving DecidableEq, Repr, Inhabited

/-- Blocked threads of one instruction: live, out of the frontier, keeping their pair (R88). -/
structure Blocked where
  prio : BitVec 8
  pc : Pc
  mask : Mask
  why : Why
  deriving DecidableEq, Repr, Inhabited

/-- A deferred cause (R370). -/
structure Deferred where
  cause : BitVec 7
  tag : BitVec 64
  pa : Nat
  deriving DecidableEq, Repr, Inhabited

/-- A remote operation ready to enter a stream: home address, descriptor fields and payload (R367); `rest` is where the words
of an `RREQ` go on when they cross into a page that does not follow in physical memory (L54). -/
structure Send where
  pa : Nat
  idx : Nat
  ty : Nat
  fmt : Nat
  line : Bool
  init : Bool
  parity : Option Bool
  payload : List Byte
  rest : Option Nat
  deriving DecidableEq, Repr, Inhabited

/-- A condition that an instruction in progress waits for (R444 step 1). -/
inductive Wait
  /-- page walks (R359) -/
  | walk
  /-- the completion word's virtual and home address and the target (R111) -/
  | waitk (va pa target : Nat)
  /-- a counter word's virtual and home address, the target, the instant of the deadline, and whether a watch entry is held
  (R384, R362) -/
  | waitc (va pa target : Nat) (deadline : Option Nat) (watched : Bool)
  /-- an extended block (R120) -/
  | xacq (n : Nat)
  /-- every `MMSEQ` posted before (R267) -/
  | seqst
  /-- the conditions of a fence; true when it is a release over remote operations (R349) -/
  | fence (rel : Bool)
  /-- a bias flip (R350) -/
  | flip
  /-- write-backs of stash lines (R205) -/
  | wb
  /-- room in a stream or send queue for these operations (R364, R389) -/
  | room (sends : List Send) (arrival : Bool)
  /-- the grant of an act on a channel (R422) -/
  | act (ch : Nat)
  /-- the turn of a logged event (R427), and the instant from which it stalls on a full log (R428) -/
  | logged (full : Option Nat)
  /-- the keyed unit (R301) -/
  | keyed
  /-- acknowledgements before an `HBAR` arrival (R410) -/
  | acks
  deriving DecidableEq, Repr, Inhabited

/-- A bypass latch that holds values (R128): whether they are 64 bits wide, and each lane's. -/
structure Latch where
  wide : Bool
  x : Tab (BitVec 64)
  deriving DecidableEq, Repr, Inhabited

/-- An instruction in progress: nothing further of the warp issues. `latch` is what it read of its port's latches at issue. -/
structure Hold where
  cur : Cur
  instr : Instr
  since : Nat
  wait : Wait
  latch : Tab Latch
  deriving DecidableEq, Repr, Inhabited

/-- What an engine instruction of the warp still owes (R84, R251, R272, R302): v registers from `v` on, accesses to memory,
flags. -/
structure Await where
  id : Nat
  v : Nat
  n : Nat
  mem : Bool
  flags : Bool
  deriving DecidableEq, Repr, Inhabited

/-- What a page walk found (R358, R359): a translation or nothing. -/
structure Page where
  frame : Nat
  size : Nat
  hmem : Bool
  hb : Bool
  cls : Nat
  x : Bool
  w : Bool
  deriving DecidableEq, Repr, Inhabited

/-- What a walk made for an instruction in progress answered (R359, R360). -/
inductive Walked
  | page (p : Page) | absent | poison
  deriving DecidableEq, Repr, Inhabited

/-- A cached translation: context, first virtual address of the page, the page (R358). -/
structure TlbEntry where
  ctx : Nat
  va : Nat
  page : Page
  deriving DecidableEq, Repr, Inhabited

/-- A warp (R79, R115). Per-lane registers are keyed 128 * register + lane. -/
structure Warp where
  width : Nat
  ctx0 : Nat
  live : Mask
  front : List Entry
  parked : List Parked
  blocked : List Blocked
  issues : Nat
  v : Tab Word
  s : Tab Word
  p : Tab Mask
  k : Tab Mask
  x : Nat
  frm : BitVec 2
  flg : BitVec 5
  fte : BitVec 6
  rkey : BitVec 64
  rctr : BitVec 64
  ph : BitVec 64
  hcnt : Tab Word
  hmode : Bool
  tfaddr : Word
  clkHi : Word
  tpnd : Bool
  step : Bool
  stepDue : Bool
  watchBase : BitVec 64
  watchLen : Word
  dfr : List Deferred
  lost : Nat
  hold : Option Hold
  walked : Tab Walked
  /-- an issue that waited for walks and is made again: its program counter and bundle, and the latches that it read -/
  latched : Option (Pc × Mask × Tab Latch)
  await : List Await
  /-- completed `MMSEQ`s of the warp that nothing has joined yet: the columns that each one's pulse was counted in, and its flags
  (R267, R344) -/
  seqFlags : List (BitVec 16 × BitVec 5)
  stUntil : Nat
  sleepUntil : Nat
  /-- the port's cycle since which it has been found ready without being chosen (R86) -/
  readySince : Option Nat
  passOver : Bool
  /-- a hold against pre-emption: the clock at which it ends; and whether `PPT.pt` gave way to a pending request (R455) -/
  ppt : Option Nat
  yielded : Bool
  /-- the deadline of the `WAITC` that pre-emption stopped, until it issues again (R384) -/
  due : Option Nat
  /-- lane table at trap entry, kept for `TRET`: state, link value (R453) -/
  entry : Tab (Nat × BitVec 64)
  /-- blocked threads as they stood at trap entry (R438, R440) -/
  kept : List Blocked
  rseq : Nat
  /-- acts granted, or entries logged, of the keyed instruction that it is making (R422, R427) -/
  keyMade : Nat
  /-- where a trap stopped a keyed instruction with acts or logged events made: its address, bundle and how many (R422, R428) -/
  keyKept : Option (Pc × Mask × Nat)
  logSeq : Nat
  /-- how many writes had been made at its last access that was no acquire: a spec read is made no earlier (R340) -/
  floor : Nat
  deriving DecidableEq, Repr, Inhabited

/-! ### Workgroups -/

/-- A line of a stash window (R192): writable, written, and the bytes as the window holds them. -/
structure StashLine where
  excl : Bool
  dirty : Bool
  pa : Nat
  wb : Bool
  deriving DecidableEq, Repr, Inhabited

/-- An open stash window (R190). -/
structure Stash where
  g : Nat
  l : Nat
  n : Nat
  lines : Tab StashLine
  deriving DecidableEq, Repr, Inhabited

/-- A tile register (R245, R246). -/
structure Tile where
  cfg : Word
  bytes : Mem
  deriving DecidableEq, Repr, Inhabited

/-- What an accumulator tile holds (R248). -/
inductive AccKind
  | none | f32 | i32
  deriving DecidableEq, Repr, Inhabited

/-- How an accumulator tile lies (R248). -/
inductive AccLayout
  | unset | plain | turned
  deriving DecidableEq, Repr, Inhabited

/-- An accumulator tile (R248, R270): physical element (i, j) at key 64 * i + j. -/
structure Acc where
  kind : AccKind
  layout : AccLayout
  els : Tab Word
  deriving DecidableEq, Repr, Inhabited

/-- A landing barrier (R225). -/
structure Bar where
  exp : Nat
  arr : Nat
  pend : Nat
  phase : BitVec 16
  f : Bool
  pf : Bool
  u : Bool
  deriving DecidableEq, Repr, Inhabited

/-- A tensor record as its consumer keeps it (R215). -/
structure Tensor where
  base : Nat
  rank : Nat
  fmt : BitVec 5
  ty : Nat
  size : List Nat
  stride : List Nat
  deriving DecidableEq, Repr, Inhabited

/-- A copy command's work (R237, R238). -/
inductive Job
  /-- `CPY`: direction, destination, source, bytes -/
  | copy (dir : CpyDir) (dst src len : Nat)
  /-- `GATH` or `SCAT`: local address, table, lane indexes (none when skipped), or the list's address and count -/
  | rows (gather count list : Bool) (loc : Nat) (t : Tensor) (idx : List (Option Nat)) (listAt n : Nat)
  deriving DecidableEq, Repr, Inhabited

/-- A remote row of a gather in flight (R238): its reply lines, when its first request left, its entry's row. -/
structure RowWait where
  lines : List Nat
  elapsed : Nat
  since : Nat
  row : Nat
  deriving DecidableEq, Repr, Inhabited

/-- A posted copy command (R220-R224). -/
structure Cmd where
  seq : Nat
  warp : Nat
  job : Job
  grp : Nat
  on : Option Nat
  running : Bool
  /-- the workgroup and number of the barrier it reports to -/
  bar : Nat × Nat
  /-- pieces or entries still to do -/
  todo : List Nat
  /-- gather rows whose requests wait for stream room -/
  asks : List (Nat × Send)
  far : Tab RowWait
  missing : Nat
  missRows : Nat
  cause : Option (BitVec 7)
  parity : Option Bool
  deriving DecidableEq, Repr, Inhabited

/-- What is recorded of a copy group (R243). -/
structure Group where
  cause : Nat
  failed : Bool
  deriving DecidableEq, Repr, Inhabited

/-- The copy of a keyed overflow record (R215). -/
structure Overflow where
  list : Nat
  word : Nat
  cap : Nat
  deriving DecidableEq, Repr, Inhabited

/-- A keyed claim (R292, R293, R307). Slots are keyed 4 * bucket + slot; an absent slot is empty. -/
structure Claim where
  base : Nat
  n : Nat
  kind : KeyKind
  w : Int
  ov : Option Overflow
  ch : Nat
  slots : Tab (BitVec 64 × BitVec 64)
  ovfn : Nat
  rej : Bool
  deriving DecidableEq, Repr, Inhabited

/-- An `AQRED` under way (R283-R285): `steps` is how many of its steps it has made, `flags` what they have raised so far. -/
structure Aq where
  k : Nat
  id : Nat
  warp : Nat
  instr : Instr
  stage : Nat
  out : Option Tensor
  frm : BitVec 2
  steps : Nat
  flags : BitVec 6
  deriving DecidableEq, Repr, Inhabited

/-- Where a workgroup stands: on its core, in a save image, or ended before its warps exited (R441). -/
inductive WgSt
  | running | saved | ending
  deriving DecidableEq, Repr, Inhabited

/-- A save image: its die, place in the pool and size (R445). -/
structure Image where
  die : Nat
  off : Nat
  size : Nat
  /-- the reply lines of its rows, in the order of its reply section: line + 1024 times the core -/
  lines : List Nat
  deriving DecidableEq, Repr, Inhabited

/-- The event matrix (R230-R233). `rows` holds M, `cnt` the pulse counters, `watch` the watch points. -/
structure Matrix where
  holder : Option Nat
  rows : Tab (BitVec 16)
  cnt : Tab Nat
  watch : Tab Nat
  deriving DecidableEq, Repr, Inhabited

/-- An `MMSEQ` (R263-R268): held on a column, queued or running. -/
structure SeqJob where
  seq : Nat
  wid : Nat
  warp : Nat
  acc : Nat
  ty : Ty
  fa : BitVec 5
  fb : BitVec 5
  sw : Bool
  ta : Tensor
  tb : Tensor
  on : Option Nat
  run : Bool
  step : Nat
  flags : BitVec 5
  deriving DecidableEq, Repr, Inhabited

/-- A grid instruction in the queue (R321), with what it read at issue: register writes already known, the features each
result sums, or the contributions still to send. -/
structure GridJob where
  id : Nat
  wid : Nat
  warp : Nat
  instr : Instr
  /-- register, lane, value -/
  outs : List (Nat × Nat × Word)
  /-- register, lane, weights and addresses of the features -/
  sums : List (Nat × Nat × List (Word × Nat))
  ftype : Nat
  /-- contributions: home address and value -/
  sends : List (Nat × Word)
  gen : BitVec 8
  parity : Option Bool
  sent : Nat
  ord : Nat
  flags : BitVec 5
  deriving DecidableEq, Repr, Inhabited

/-- A keyed instruction in the queue (R301). The warp of one that acts on lanes is held, so its operands stand in its registers. -/
structure KeyJob where
  seq : Nat
  wid : Nat
  warp : Nat
  instr : Instr
  /-- `KDRN`: barrier, local address, capacity -/
  prm : List Nat
  deriving DecidableEq, Repr, Inhabited

/-- A workgroup (R94-R100). -/
structure Wg where
  inst : Nat
  g : Nat
  core : Nat
  st : WgSt
  order : Nat
  /-- off its core: saved, and no reservation held -/
  off : Bool
  warps : Tab Warp
  mem : Mem
  locUnits : Nat
  stash : Tab Stash
  tiles : Tab Tile
  accs : Tab Acc
  bars : Tab Bar
  cmds : Tab Cmd
  grps : Tab Group
  posted : Nat
  done : Nat
  flt : Bool
  claim : Option Claim
  aqIssued : Nat
  aqs : List Aq
  stopAt : Option Nat
  /-- its image found no place in the pool as it now stands (R445) -/
  unfit : Bool
  killed : Bool
  faulted : Bool
  image : Option Image
  /-- the matrix as pre-emption saved it, with its columns' order in the commands' and `MMSEQ`s' numbers (R234) -/
  heldMatrix : Option Matrix
  /-- `MMSEQ`s and unfinished `GSC`s as pre-emption saved them (R268, R323) -/
  savedSeq : List SeqJob
  savedGrid : List GridJob
  /-- `KDRN`s that pre-emption found behind a keyed instruction that could not complete (R303) -/
  savedKey : List KeyJob
  deriving DecidableEq, Repr, Inhabited

/-! ### Kernels -/

/-- A carve: granules of REG, LOC, L1 and KEY (R180). -/
structure Carve where
  reg : Nat
  loc : Nat
  l1 : Nat
  key : Nat
  deriving DecidableEq, Repr, Inhabited

/-- A launch record (R215). -/
structure LaunchRec where
  entry : Pc
  arg : BitVec 64
  prio : Nat
  det : Nat
  wcode : Nat
  warps : Nat
  gx : Nat
  gy : Nat
  gz : Nat
  carve : Carve
  xregs : Nat
  regs : Nat
  copies : Nat
  bars : Nat
  tiles : Nat
  accs : Nat
  sscope : Nat
  loc : Nat
  handler : Pc
  compl : Nat
  olog : Word
  dies : BitVec 4
  deriving DecidableEq, Repr, Inhabited

/-- A kernel instance (R92-R100). -/
structure Kernel where
  rc : LaunchRec
  ctx : Nat
  /-- the dies that may run it, as numbers in the pod, ascending -/
  dies : List Nat
  home : Nat
  /-- order log: base, capacity, index word (R425) -/
  olog : Option (Nat × Nat × Nat)
  started : List Nat
  gone : List Nat
  faulted : Bool
  lost : Bool
  complete : Bool
  deriving DecidableEq, Repr, Inhabited

/-! ### Cores -/

/-- An issue port (R78, R86, R87, R128): its last bundle, the first slot of the warp it issued last, its latches, the clock until
which it is busy and the clock after that of its last issue. -/
structure Port where
  last : Option (Nat × Nat × Mask)
  slot : Nat
  latch : Tab Latch
  busy : Nat
  after : Nat
  deriving DecidableEq, Repr, Inhabited

/-- An instruction in the matrix engine's queue (R249), with what it read at issue (R272). -/
structure EngJob where
  id : Nat
  wid : Nat
  warp : Nat
  instr : Instr
  live : Mask
  prm : List (BitVec 64)
  ten : List Tensor
  vals : Tab Word
  frm : BitVec 2
  deriving DecidableEq, Repr, Inhabited

/-- A line of the reply buffer (R238, R447): the command and entry it belongs to, and the reply once it is there. -/
structure ReplyLine where
  wid : Nat
  cmd : Nat
  row : Nat
  words : Option (List Byte)
  /-- whether the arrival that follows the reply has been counted, or never will be: nothing more comes to the line -/
  done : Bool
  deriving DecidableEq, Repr, Inhabited

/-- Counters of superstep traffic (R412). -/
structure Counts where
  sent0 : BitVec 48
  sent1 : BitVec 48
  appl0 : BitVec 48
  appl1 : BitVec 48
  deriving DecidableEq, Repr, Inhabited

/-- A core. -/
structure Core where
  carve : Carve
  drain : Option Carve
  change : Option (Carve × Nat)
  /-- the waiting workgroup of free mode for which the core drains or changes (R98, R184) -/
  asker : Option Nat
  port0 : Port
  port1 : Port
  l1 : Tab (List Byte)
  tlb : List TlbEntry
  xq : List (Nat × Nat × Nat)
  mx : Matrix
  engq : List EngJob
  engTurn : Bool
  seqq : List SeqJob
  keyq : List KeyJob
  gridq : List GridJob
  reply : Tab ReplyLine
  cnt : Counts
  deriving DecidableEq, Repr, Inhabited

/-! ### Dies -/

/-- A walk in flight or waiting (R358): context, page address, and the warps that wait for it. -/
structure Walk where
  ctx : Nat
  va : Nat
  waiters : List (Nat × Nat)
  install : Bool
  deriving DecidableEq, Repr, Inhabited

/-- A handle slot (R211). A retired slot has generation 0xFFFF and is not live. -/
structure Slot where
  gen : BitVec 16
  live : Bool
  retired : Bool
  kind : Nat
  copy : List Byte
  deriving DecidableEq, Repr, Inhabited

/-- An ordered-append channel (R421, R422): rounds made are keyed 32 * g + i. -/
structure Channel where
  bound : Option Nat
  total : BitVec 64
  rounds : Tab Nat
  deriving DecidableEq, Repr, Inhabited

/-- The order log of a die (R425-R428). -/
structure OrderLog where
  bound : Option Nat
  rpl : Bool
  rend : Bool
  div : Bool
  stall : Bool
  deriving DecidableEq, Repr, Inhabited

/-- Who issued a remote operation: a warp (with its place among the warp's operations, and the core), the copy engine, or a
spire base. -/
inductive Issuer
  | warp (wid warp ord core : Nat)
  | engine (wid core : Nat)
  | spire (sp : Nat)
  deriving DecidableEq, Repr, Inhabited

/-- An unacknowledged operation (R364): its message, its last departure (none while it waits in a send queue), its
"check" answers, who issued it, its parity, for a reply the arrival it owes (R383), and `Send.rest`. -/
structure OutOp where
  seq : Nat
  msg : List Byte
  left : Option Nat
  checks : Nat
  who : Issuer
  parity : Option Bool
  owes : Option Send
  rest : Option Nat
  deriving DecidableEq, Repr, Inhabited

/-- A stream (R363): next sequence number, unacknowledged operations, and the numbers of the operations that were given up, which are
never applied though copies of them may still reach the home (R368). -/
structure Stream where
  next : Nat
  ops : List OutOp
  gone : List Nat
  deriving DecidableEq, Repr, Inhabited

/-- A counted arrival that waits for acknowledgements (R376). -/
structure WaitingArrival where
  wid : Nat
  warp : Nat
  ord : Nat
  since : Nat
  raised : Bool
  /-- its operations, tagged and in their streams: stream and sequence number -/
  ops : List (Nat × Nat)
  deriving DecidableEq, Repr, Inhabited

/-- A de-duplication window (R365). -/
structure Window where
  base : Nat
  bits : BitVec 4096
  deriving DecidableEq, Repr, Inhabited

/-- A die. -/
structure Die where
  pend : List Nat
  turnAt : Nat
  /-- the instance placed last, by level -/
  lastKernel : Tab Nat
  handles : Tab (Tab Slot)
  roots : Tab Nat
  tlb : List TlbEntry
  walks : List Walk
  chans : Tab Channel
  log : OrderLog
  streams : Tab Stream
  arrivals : List WaitingArrival
  acks : List (List Byte)
  /-- acknowledgements on their way to the die: tag, status, and the stream's destination, which R395 leaves the entry no room for -/
  ackOf : List (Nat × Nat × Nat)
  replies : List (List Byte)
  /-- de-duplication windows of the reply buffers' incoming streams -/
  wins : Tab Window
  clkAcc : Nat
  eff : Bool
  effNow : Bool
  cap : BitVec 11
  capd : Bool
  fnow : Nat
  energy : BitVec 64
  poolBase : BitVec 64
  poolLen : BitVec 64
  images : List (Nat × Nat × Nat)
  biasBusy : Bool
  biasRes : Bool
  biasReq : BitVec 64
  preq : BitVec 64
  preqst : BitVec 3
  term : Tab (List Byte)
  termIdx : Nat
  up : Bool
  deriving DecidableEq, Repr, Inhabited

/-! ### Spire bases -/

/-- A spire base. -/
structure Spire where
  wins : Tab Window
  inbox : List (List Byte)
  watches : List (Nat × Nat)
  late : Nat
  errs : Nat
  corrected : Nat
  poisoned : Nat
  streams : Tab Stream
  /-- replies and arrivals that wait for room, a reply with the arrival that follows it -/
  owed : List (Send × Option Send)
  cnt : Counts
  deriving DecidableEq, Repr, Inhabited

/-! ### Packages -/

/-- One half of a lane (R406): state, channel code, partner lane. -/
structure Half where
  st : Nat
  ch : Nat
  sp : Nat
  deriving DecidableEq, Repr, Inhabited

/-- A lane: both halves, counters, the window under way, and the retraining under way (R396, R398, R406):
stage 1 asked, 2 spare training, 3 retraining, 4 fill window, since when, with which package's transmit half; failures in a
row; the spare that the receive half holds; bytes that the transmit half has sent in the slot (R391). -/
structure Lane where
  tx : Half
  rx : Half
  rtns : Nat
  cor : Nat
  unc : Nat
  auth : Nat
  sym : Nat
  flits : Nat
  win : Nat
  stage : Nat
  since : Nat
  mate : Nat
  fails : Nat
  spare : Option Nat
  /-- the transmit lane of `mate` whose light the lane in retraining hears in the slot in force (R387, R399) -/
  feed : Option Nat
  /-- a swap of tables ended the hand-over: no spare until the retraining ends (R399) -/
  barred : Bool
  /-- the package and the transmit lane that are retrained with it, once a swap of tables has parted them (R399) -/
  kept : Option (Nat × Nat)
  sent : Nat
  /-- bits of the current code word that have come, whether it is uncorrectable, and the code words of the current window (R396) -/
  bits : Nat
  uncor : Bool
  words : Nat
  deriving DecidableEq, Repr, Inhabited

/-- A flit on its way to a receive lane (R394): its source package, its receive lane and its 144 bytes. -/
structure Flit where
  src : Nat
  lane : Nat
  bytes : List Byte
  deriving DecidableEq, Repr, Inhabited

/-- The receiving side of a flow (R397). -/
structure Flow where
  /-- next number this package sends on the flow to that package -/
  next : Nat
  /-- the highest number accepted from that package -/
  high : Nat
  /-- every number below has been placed or given up -/
  base : Nat
  /-- flits accepted at or above `base`: used bytes, FIRST if a message begins, when accepted -/
  got : Tab (List Byte × Option Nat × Nat)
  /-- bytes of a message begun before `base`; none when the next boundary is not known -/
  part : Option (List Byte)
  /-- messages already delivered out of order, by the flit and offset where they begin -/
  given : List (Nat × Nat)
  deriving DecidableEq, Repr, Inhabited

/-- A send queue (R389): messages in order, the bytes of the first that have left, and the lane that took the last flit (R392). -/
structure SendQ where
  msgs : List (List Byte)
  off : Nat
  last : Nat
  deriving DecidableEq, Repr, Inhabited

/-- The header of a slot table (R403). -/
structure BankHdr where
  mode : Bool
  nslot : BitVec 7
  deriving DecidableEq, Repr, Inhabited

/-- A package. -/
structure Pkg where
  en : Bool
  rten : Bool
  eslot : BitVec 8
  err : BitVec 4
  act : Bool
  arm : Bool
  ocsw : BitVec 64
  ocrot : BitVec 64
  thr : Word
  bank0 : BankHdr
  bank1 : BankHdr
  slotMem : Mem
  keyin : Mem
  kst : BitVec 8
  key : Option (BitVec 256)
  slot : Nat
  slotAt : Nat
  rotAt : Nat
  lanes : Tab Lane
  queues : Tab SendQ
  flows : Tab Flow
  air : List Flit
  /-- hand-over requests that arrived: lane and the package that asks -/
  asks : List (Nat × Nat)
  /-- control flits to send: package and lane -/
  ctrl : List (Nat × Nat)
  note : BitVec 5
  msi : Nat
  bad : Nat
  ref : Nat
  lcode : BitVec 8
  loff : BitVec 8
  holdc : Bool
  lpq : List (Nat × List Byte)
  meas : Tab (BitVec 512)
  repBusy : Bool
  nonce : BitVec 256
  repNonce : BitVec 256
  repOut : List Byte
  deriving DecidableEq, Repr, Inhabited

/-! ### Barrier networks -/

/-- A network context (R407): channel 16 is the one of `PHASE`. `waits` lists the arrivals counted in the phase: workgroup,
warp, number; `late` those received while the sweeps of R414 run, with their parities and cores; `cores` those the arrivals came
from, whose nodes the context lives at. -/
structure Net where
  ctx : Nat
  ch : Nat
  scope : Nat
  inst : Nat
  n : Nat
  parity : Bool
  waits : List (Nat × Nat × Nat)
  late : List (Nat × Nat × Nat × Bool × Nat)
  cores : List Nat
  sums : Option (Nat × Nat)
  deriving DecidableEq, Repr, Inhabited

/-- An arrival on its way to its network (R408). -/
structure NetArrival where
  ctx : Nat
  ch : Nat
  scope : Nat
  inst : Nat
  n : Nat
  parity : Bool
  wid : Nat
  warp : Nat
  id : Nat
  core : Nat
  deriving DecidableEq, Repr, Inhabited

/-- A bias flip in progress (R350): the page, the new bias, and the warp or the die's host request that asked. -/
structure Flip where
  base : Nat
  size : Nat
  host : Bool
  warp : Option (Nat × Nat)
  die : Nat
  deriving DecidableEq, Repr, Inhabited

/-- A write of device memory, or of a local area (its workgroup), as history keeps it for the quantum and spec reads of R340:
the bytes it replaced and the warp that made it, if a warp did. `seen` marks no write but an acquire's read. -/
structure Past where
  area : Option Nat
  at_ : Nat
  old : List Byte
  who : Option (Nat × Nat)
  seen : Bool
  deriving DecidableEq, Repr, Inhabited

/-- The machine: one pod. -/
structure State where
  nPkg : Nat
  retired : List Nat
  mem : Mem
  hostMem : Mem
  /-- the writes made so far, the latest first (R340) -/
  past : List Past
  poison : List Nat
  bias : List Nat
  flips : List Flip
  kernels : Tab Kernel
  nextInst : Nat
  wgs : Tab Wg
  nets : List Net
  netMail : List NetArrival
  cores : Tab Core
  dies : Tab Die
  spires : Tab Spire
  pkgs : Tab Pkg
  time : Nat
  hostRead : List Byte
  count : Nat
  tick : Nat
  turns : List Turn
  cur : Option Cur
  fresh : Nat
  deriving DecidableEq, Repr, Inhabited

/-- Why the machine stops. -/
inductive Fault
  /-- Raised by `step` when a queued or scheduled turn names an issue port of a core that the pod does not have (R10, R17):
  no such thing happens in hardware. Safe: the model stops where there is nothing to model. -/
  | noSuchPort
  deriving DecidableEq, Repr

/-- What has no meaning. -/
inductive Refusal
  /-- Raised by the dispatcher for an instruction whose meaning is not written yet. Safe: nothing can be proved of it. -/
  | notModelled (mnemonic : String)
  deriving DecidableEq, Repr

/-! ### Reset -/

/-- The carve of a core at die reset (R181). -/
def Carve.reset : Carve := ⟨4, 8, 4, 0⟩

def Port.reset : Port := ⟨none, 63, [], 0, 0⟩

def Counts.reset : Counts := ⟨0, 0, 0, 0⟩

/-- A core after die reset. -/
def Core.reset : Core where
  carve := Carve.reset
  drain := none
  change := none
  asker := none
  port0 := Port.reset
  port1 := Port.reset
  l1 := []
  tlb := []
  xq := []
  mx := ⟨none, [], [], []⟩
  engq := []
  engTurn := false
  seqq := []
  keyq := []
  gridq := []
  reply := []
  cnt := Counts.reset

/-- A die after reset: `FNOW` 170, performance mode, no cap (R466). -/
def Die.reset : Die where
  pend := []
  turnAt := 0
  lastKernel := []
  handles := []
  roots := []
  tlb := []
  walks := []
  chans := []
  log := ⟨none, false, false, false, false⟩
  streams := []
  arrivals := []
  acks := []
  ackOf := []
  replies := []
  wins := []
  clkAcc := 0
  eff := false
  effNow := false
  cap := 0
  capd := false
  fnow := 170
  energy := 0
  poolBase := 0
  poolLen := 0
  images := []
  biasBusy := false
  biasRes := false
  biasReq := 0
  preq := 0
  preqst := 0
  term := []
  termIdx := 0
  up := true

/-- A spire base when the partition is formed (R363, R412). -/
def Spire.reset : Spire where
  wins := []
  inbox := []
  watches := []
  late := 0
  errs := 0
  corrected := 0
  poisoned := 0
  streams := []
  owed := []
  cnt := Counts.reset

/-- A lane at package reset (R406). -/
def Lane.reset : Lane where
  tx := ⟨0, 0x3F, 0xFF⟩
  rx := ⟨0, 0x3F, 0xFF⟩
  rtns := 0
  cor := 0
  unc := 0
  auth := 0
  sym := 0
  flits := 0
  win := 0
  stage := 0
  since := 0
  mate := 0
  fails := 0
  spare := none
  feed := none
  barred := false
  kept := none
  sent := 0
  bits := 0
  uncor := false
  words := 0

/-- A flow when the key is loaded (R394). -/
def Flow.reset : Flow := ⟨0, 0, 0, [], some [], []⟩

/-- A package after reset (R403, R406, R459). -/
def Pkg.reset : Pkg where
  en := false
  rten := true
  eslot := 0
  err := 0
  act := false
  arm := false
  ocsw := 0
  ocrot := 0
  thr := 891
  bank0 := ⟨false, 1⟩
  bank1 := ⟨false, 1⟩
  slotMem := []
  keyin := []
  kst := 0
  key := none
  slot := 0
  slotAt := 0
  rotAt := 0
  lanes := []
  queues := []
  flows := []
  air := []
  asks := []
  ctrl := []
  note := 0
  msi := 0
  bad := 0
  ref := 0
  lcode := 0
  loff := 0
  holdc := false
  lpq := []
  meas := []
  repBusy := false
  nonce := 0
  repNonce := 0
  repOut := []

/-- The machine right after reset: one package, nothing resident, every unit as at its own reset (L3). -/
def State.reset : State where
  nPkg := 1
  retired := []
  mem := []
  hostMem := []
  past := []
  poison := []
  bias := []
  flips := []
  kernels := []
  nextInst := 1
  wgs := []
  nets := []
  netMail := []
  cores := []
  dies := []
  spires := []
  pkgs := []
  time := 0
  hostRead := []
  count := 0
  tick := 0
  turns := []
  cur := none
  fresh := 0

/-- A landing barrier at workgroup start (R225). -/
def Bar.reset : Bar := ⟨0, 0, 0, 0, false, false, false⟩

/-- A tile register at workgroup start (R245, R246). -/
def Tile.reset : Tile := ⟨0x3F80, []⟩

/-- An accumulator tile at workgroup start (R248). -/
def Acc.reset : Acc := ⟨.none, .unset, []⟩

end Sys2Proof.Machine
end

