-- ==== Sys2Proof/Machine/Frontier.lean ====
section
/-! DEFINITION. The frontier of a warp (04): ranking, joining, ageing, parking, the entry to issue, rejoin masks. -/

namespace Sys2Proof.Machine

/-- The lanes of a mask, ascending. -/
def lanesOf (m : Mask) : List Nat := (List.range 128).filter fun l => m.getLsbD l

/-- The mask of one lane. -/
def laneBit (l : Nat) : Mask := BitVec.ofNat 128 (2 ^ l)

/-- The mask of some lanes. -/
def maskOf (ls : List Nat) : Mask := ls.foldl (fun m l => m ||| laneBit l) 0

/-- Lanes 0 to n - 1. -/
def lowLanes (n : Nat) : Mask := BitVec.ofNat 128 (2 ^ n - 1)

/-- Whether the pair (p, a) ranks before (q, b): higher priority, then lower program counter (R82). -/
def pairBefore (p : BitVec 8) (a : Pc) (q : BitVec 8) (b : Pc) : Bool := decide (q < p) || (p == q && decide (a < b))

/-- Where threads go: their new pair and their lanes. -/
structure Move where
  prio : BitVec 8
  pc : Pc
  mask : Mask
  deriving DecidableEq, Repr, Inhabited

/-- Two entries at one pair merged (R82): the larger counter; of two at 255 the earlier instant. -/
def mergeEntry (a b : Entry) : Entry :=
  { a with
    mask := a.mask ||| b.mask
    age := if a.age ≤ b.age then b.age else a.age
    full := if a.age = 255 ∧ b.age = 255 then (if a.full ≤ b.full then a.full else b.full) else if b.age = 255 then b.full else a.full }

/-- Put an entry into a ranked frontier (R82). -/
def joinEntry : List Entry → Entry → List Entry
  | [], e => [e]
  | f :: fs, e =>
    if f.prio == e.prio && f.pc == e.pc then mergeEntry f e :: fs
    else if pairBefore e.prio e.pc f.prio f.pc then e :: f :: fs
    else f :: joinEntry fs e

/-- Put threads into a ranked frontier with ageing counter 0; no threads make no entry. -/
def joinMove (fs : List Entry) (m : Move) : List Entry :=
  if m.mask = 0 then fs else joinEntry fs ⟨m.prio, m.pc, m.mask, 0, 0⟩

/-- Take the threads of an issue out of the frontier; an entry left with none is removed (R82). -/
def leaveFront (fs : List Entry) (m : Mask) : List Entry :=
  (fs.map fun e => { e with mask := e.mask &&& ~~~m }).filter fun e => e.mask != 0

/-- One issue's ageing of an entry (R84): n is the count of issues. -/
def ageEntry (n : Nat) (e : Entry) : Entry :=
  if e.age ≥ 255 then e else { e with age := e.age + 1, full := if e.age + 1 = 255 then n else e.full }

/-- Park threads at a pair (R83). -/
def parkAt (n : Nat) (ps : List Parked) (e : Entry) : List Parked := ps ++ [⟨e.prio, e.pc, e.mask, 0, n⟩]

/-- Park the lowest-ranked entries until 32 remain (R83). -/
def overflow (n : Nat) (fs : List Entry) (ps : List Parked) : List Entry × List Parked :=
  (fs.take 32, (fs.drop 32).foldl (parkAt n) ps)

/-- The highest-ranking parked pair. -/
def topParked : List Parked → Option Parked
  | [] => none
  | p :: ps =>
    match topParked ps with
    | none => some p
    | some q => if pairBefore q.prio q.pc p.prio p.pc then some q else some p

/-- The threads parked at a pair. -/
def parkedMask (ps : List Parked) (g : Parked) : Mask :=
  ps.foldl (fun m p => if p.prio == g.prio && p.pc == g.pc then m ||| p.mask else m) 0

/-- The parked threads that are not at a pair. -/
def unpark (ps : List Parked) (g : Parked) : List Parked := ps.filter fun p => !(p.prio == g.prio && p.pc == g.pc)

/-- Parked threads re-enter while the frontier has room (R83). -/
def reenter : Nat → List Entry → List Parked → List Entry × List Parked
  | 0, fs, ps => (fs, ps)
  | k + 1, fs, ps =>
    if fs.length ≥ 32 then (fs, ps)
    else
      match topParked ps with
      | none => (fs, ps)
      | some g => reenter k (joinMove fs ⟨g.prio, g.pc, parkedMask ps g⟩) (unpark ps g)

/-- Among parked threads of age 255, those that parked earliest; ties at the highest-ranked pair (R83). -/
def duePark : List Parked → Option Parked
  | [] => none
  | p :: ps =>
    match duePark ps with
    | none => if p.age ≥ 255 then some p else none
    | some q =>
      if p.age ≥ 255 && (decide (p.born < q.born) || (p.born == q.born && pairBefore p.prio p.pc q.prio q.pc)) then some p else some q

/-- A parked group of age 255 displaces the lowest-ranked entry of a full frontier (R83). -/
def displace (n : Nat) (fs : List Entry) (ps : List Parked) : List Entry × List Parked :=
  if fs.length < 32 then (fs, ps)
  else
    match duePark ps, fs.getLast? with
    | some g, some low =>
      let fs' := joinEntry fs.dropLast ⟨g.prio, g.pc, parkedMask ps g, 255, n⟩
      reenter 129 fs' (parkAt n (unpark ps g) low)
    | _, _ => (fs, ps)

/-- Threads join the frontier outside an issue of the warp: released by a unit of another agent. -/
def Warp.rejoin (w : Warp) (ms : List Move) : Warp :=
  let (fs, ps) := overflow w.issues (ms.foldl joinMove w.front) w.parked
  let (fs, ps) := reenter 129 fs ps
  { w with front := fs, parked := ps }

/-- The entry that the warp would issue (R84): the one whose counter reached 255 earliest, else the highest-ranked. -/
def fullest : List Entry → Option Entry
  | [] => none
  | e :: es =>
    match fullest es with
    | none => if e.age ≥ 255 then some e else none
    | some f => if e.age ≥ 255 && decide (e.full ≤ f.full) then some e else some f

def Warp.choice (w : Warp) : Option Entry :=
  match fullest w.front with
  | some e => some e
  | none => w.front.head?

/-! ### Rejoin masks (R88-R90) -/

/-- What blocked threads at an `RJWAIT` on k wait for. -/
def Blocked.onMask (k : Nat) (b : Blocked) : Bool :=
  match b.why with
  | .rejoin k' _ => k' == k
  | _ => false

/-- Blocked at some `RJWAIT`. -/
def Blocked.atRejoin (b : Blocked) : Bool :=
  match b.why with
  | .rejoin _ _ => true
  | _ => false

/-- The threads blocked on mask k. -/
def Warp.blockedOn (w : Warp) (k : Nat) : Mask :=
  w.blocked.foldl (fun m b => if b.onMask k then m ||| b.mask else m) 0

/-- Rejoin mask k. -/
def Warp.kget (w : Warp) (k : Nat) : Mask := lookD w.k k 0

def Warp.kset (w : Warp) (k : Nat) (x : Mask) : Warp := { w with k := ins w.k k x }

/-- Whether mask k meets its condition: every member blocked on it or exited, and one blocked (R88). -/
def Warp.rejoinMet (w : Warp) (k : Nat) : Bool :=
  w.blockedOn k != 0 && (w.kget k &&& w.live &&& ~~~(w.blockedOn k)) == 0

/-- Where the threads released from mask k resume: after their `RJWAIT`, at its priority. -/
def Warp.rejoinMoves (w : Warp) (k : Nat) : List Move :=
  (w.blocked.filter fun b => b.onMask k).map fun b =>
    match b.why with
    | .rejoin _ pr => ⟨pr, b.pc + 12, b.mask⟩
    | _ => ⟨b.prio, b.pc, b.mask⟩

/-- Release mask k. -/
def Warp.releaseMask (w : Warp) (k : Nat) : Warp :=
  { w with
    front := (w.rejoinMoves k).foldl joinMove w.front
    blocked := w.blocked.filter fun b => !b.onMask k
    k := ins w.k k 0 }

/-- The release check of R88 over the eight masks; held back in handler mode (R438). -/
def Warp.releaseCheck (w : Warp) : Warp :=
  if w.hmode then w else (List.range 8).foldl (fun w k => if w.rejoinMet k then w.releaseMask k else w) w

/-- The threads blocked at an `RJWAIT`. -/
def Warp.atRejoin (w : Warp) : Mask := w.blocked.foldl (fun m b => if b.atRejoin then m ||| b.mask else m) 0

/-- Whether every live thread is blocked at an `RJWAIT` and no mask meets its condition (R90). -/
def Warp.deadlocked (w : Warp) : Bool :=
  w.live != 0 && (w.live &&& ~~~w.atRejoin) == 0 && !((List.range 8).any fun k => w.rejoinMet k)

/-- The frontier after an issue (R82-R84, R88): the bundle leaves its entry, the other entries and the parked threads age,
the bundle's threads and released threads join, and parking follows. `w` holds the warp after the instruction's effect. -/
def Warp.afterIssue (w : Warp) (bundle : Mask) (moves : List Move) : Warp :=
  let n := w.issues + 1
  let others := (leaveFront w.front bundle).map (ageEntry n)
  let parked := w.parked.map fun p => { p with age := if p.age ≥ 255 then 255 else p.age + 1 }
  let w1 := { w with issues := n, front := moves.foldl joinMove others, parked := parked }
  let w2 := w1.releaseCheck
  let (fs, ps) := overflow n w2.front w2.parked
  let (fs, ps) := reenter 129 fs ps
  let (fs, ps) := displace n fs ps
  { w2 with front := fs, parked := ps }

end Sys2Proof.Machine
end

