-- ==== Sys2Proof/Machine/Codes.lean ====
section
/-! DEFINITION. The codes that the fields of an instruction word hold (00 R8; 03 R63, R64; and the tables of each group): from a
name to its code and back. -/

namespace Sys2Proof

/-- The code of a Ty. -/
def Ty.bits : Ty → BitVec 4
  | .i32 => 0#4
  | .n32 => 1#4
  | .i64 => 2#4
  | .n64 => 3#4
  | .f32 => 4#4
  | .f64 => 5#4
  | .f16 => 6#4
  | .bf16 => 7#4
  | .i16x2 => 8#4
  | .n16x2 => 9#4
  | .f16x2 => 10#4
  | .bf16x2 => 11#4
  | .i8 => 12#4
  | .b8 => 13#4
  | .i4 => 14#4

/-- The Ty of a code, if it names one. -/
def Ty.ofBits (x : BitVec 4) : Option Ty :=
  if x = 0#4 then some .i32 else
  if x = 1#4 then some .n32 else
  if x = 2#4 then some .i64 else
  if x = 3#4 then some .n64 else
  if x = 4#4 then some .f32 else
  if x = 5#4 then some .f64 else
  if x = 6#4 then some .f16 else
  if x = 7#4 then some .bf16 else
  if x = 8#4 then some .i16x2 else
  if x = 9#4 then some .n16x2 else
  if x = 10#4 then some .f16x2 else
  if x = 11#4 then some .bf16x2 else
  if x = 12#4 then some .i8 else
  if x = 13#4 then some .b8 else
  if x = 14#4 then some .i4 else
  none

theorem Ty.ofBits_bits (x : Ty) : Ty.ofBits x.bits = some x := by cases x <;> rfl

/-- The code of a Scope. -/
def Scope.bits : Scope → BitVec 3
  | .self => 0#3
  | .warp => 1#3
  | .core => 2#3
  | .quad => 3#3
  | .die => 4#3
  | .pkg => 5#3
  | .pod => 6#3
  | .sys => 7#3

/-- The Scope of a code, if it names one. -/
def Scope.ofBits (x : BitVec 3) : Option Scope :=
  if x = 0#3 then some .self else
  if x = 1#3 then some .warp else
  if x = 2#3 then some .core else
  if x = 3#3 then some .quad else
  if x = 4#3 then some .die else
  if x = 5#3 then some .pkg else
  if x = 6#3 then some .pod else
  if x = 7#3 then some .sys else
  none

theorem Scope.ofBits_bits (x : Scope) : Scope.ofBits x.bits = some x := by cases x <;> rfl

/-- The code of a Ordr. -/
def Ordr.bits : Ordr → BitVec 2
  | .rlx => 0#2
  | .acq => 1#2
  | .rel => 2#2
  | .ar => 3#2

/-- The Ordr of a code, if it names one. -/
def Ordr.ofBits (x : BitVec 2) : Option Ordr :=
  if x = 0#2 then some .rlx else
  if x = 1#2 then some .acq else
  if x = 2#2 then some .rel else
  if x = 3#2 then some .ar else
  none

theorem Ordr.ofBits_bits (x : Ordr) : Ordr.ofBits x.bits = some x := by cases x <;> rfl

/-- The code of a Use. -/
def Use.bits : Use → BitVec 3
  | .ord => 0#3
  | .unp => 1#3
  | .comm => 2#3
  | .nonord => 3#3
  | .quant => 4#3
  | .spec => 5#3

/-- The Use of a code, if it names one. -/
def Use.ofBits (x : BitVec 3) : Option Use :=
  if x = 0#3 then some .ord else
  if x = 1#3 then some .unp else
  if x = 2#3 then some .comm else
  if x = 3#3 then some .nonord else
  if x = 4#3 then some .quant else
  if x = 5#3 then some .spec else
  none

theorem Use.ofBits_bits (x : Use) : Use.ofBits x.bits = some x := by cases x <;> rfl

/-- The code of a ICmp. -/
def ICmp.bits : ICmp → BitVec 3
  | .eq => 0#3
  | .ne => 1#3
  | .lt => 2#3
  | .le => 3#3
  | .gt => 4#3
  | .ge => 5#3

/-- The ICmp of a code, if it names one. -/
def ICmp.ofBits (x : BitVec 3) : Option ICmp :=
  if x = 0#3 then some .eq else
  if x = 1#3 then some .ne else
  if x = 2#3 then some .lt else
  if x = 3#3 then some .le else
  if x = 4#3 then some .gt else
  if x = 5#3 then some .ge else
  none

theorem ICmp.ofBits_bits (x : ICmp) : ICmp.ofBits x.bits = some x := by cases x <;> rfl

/-- The code of a FCmp. -/
def FCmp.bits : FCmp → BitVec 3
  | .eq => 0#3
  | .ne => 1#3
  | .lt => 2#3
  | .le => 3#3
  | .gt => 4#3
  | .ge => 5#3
  | .un => 6#3
  | .ord => 7#3

/-- The FCmp of a code, if it names one. -/
def FCmp.ofBits (x : BitVec 3) : Option FCmp :=
  if x = 0#3 then some .eq else
  if x = 1#3 then some .ne else
  if x = 2#3 then some .lt else
  if x = 3#3 then some .le else
  if x = 4#3 then some .gt else
  if x = 5#3 then some .ge else
  if x = 6#3 then some .un else
  if x = 7#3 then some .ord else
  none

theorem FCmp.ofBits_bits (x : FCmp) : FCmp.ofBits x.bits = some x := by cases x <;> rfl

/-- The code of a ShflMode. -/
def ShflMode.bits : ShflMode → BitVec 2
  | .from => 0#2
  | .rotl => 1#2
  | .xor => 2#2
  | .rev => 3#2

/-- The ShflMode of a code, if it names one. -/
def ShflMode.ofBits (x : BitVec 2) : Option ShflMode :=
  if x = 0#2 then some .from else
  if x = 1#2 then some .rotl else
  if x = 2#2 then some .xor else
  if x = 3#2 then some .rev else
  none

theorem ShflMode.ofBits_bits (x : ShflMode) : ShflMode.ofBits x.bits = some x := by cases x <;> rfl

/-- The code of a VoteMode. -/
def VoteMode.bits : VoteMode → BitVec 3
  | .all => 0#3
  | .any => 1#3
  | .uni => 2#3
  | .ballot => 3#3
  | .first => 4#3

/-- The VoteMode of a code, if it names one. -/
def VoteMode.ofBits (x : BitVec 3) : Option VoteMode :=
  if x = 0#3 then some .all else
  if x = 1#3 then some .any else
  if x = 2#3 then some .uni else
  if x = 3#3 then some .ballot else
  if x = 4#3 then some .first else
  none

theorem VoteMode.ofBits_bits (x : VoteMode) : VoteMode.ofBits x.bits = some x := by cases x <;> rfl

/-- The code of a FlgMode. -/
def FlgMode.bits : FlgMode → BitVec 2
  | .set => 0#2
  | .or => 1#2
  | .andn => 2#2

/-- The FlgMode of a code, if it names one. -/
def FlgMode.ofBits (x : BitVec 2) : Option FlgMode :=
  if x = 0#2 then some .set else
  if x = 1#2 then some .or else
  if x = 2#2 then some .andn else
  none

theorem FlgMode.ofBits_bits (x : FlgMode) : FlgMode.ofBits x.bits = some x := by cases x <;> rfl

/-- The code of a AtomOp. -/
def AtomOp.bits : AtomOp → BitVec 4
  | .add => 0#4
  | .min => 1#4
  | .max => 2#4
  | .and => 3#4
  | .or => 4#4
  | .xor => 5#4
  | .xchg => 6#4
  | .cas => 7#4
  | .inc => 8#4

/-- The AtomOp of a code, if it names one. -/
def AtomOp.ofBits (x : BitVec 4) : Option AtomOp :=
  if x = 0#4 then some .add else
  if x = 1#4 then some .min else
  if x = 2#4 then some .max else
  if x = 3#4 then some .and else
  if x = 4#4 then some .or else
  if x = 5#4 then some .xor else
  if x = 6#4 then some .xchg else
  if x = 7#4 then some .cas else
  if x = 8#4 then some .inc else
  none

theorem AtomOp.ofBits_bits (x : AtomOp) : AtomOp.ofBits x.bits = some x := by cases x <;> rfl

/-- The code of a RecKind. -/
def RecKind.bits : RecKind → BitVec 3
  | .tensor => 1#3
  | .grid => 2#3
  | .bucket => 3#3
  | .launch => 4#3
  | .kovf => 5#3
  | .olog => 6#3

/-- The RecKind of a code, if it names one. -/
def RecKind.ofBits (x : BitVec 3) : Option RecKind :=
  if x = 1#3 then some .tensor else
  if x = 2#3 then some .grid else
  if x = 3#3 then some .bucket else
  if x = 4#3 then some .launch else
  if x = 5#3 then some .kovf else
  if x = 6#3 then some .olog else
  none

theorem RecKind.ofBits_bits (x : RecKind) : RecKind.ofBits x.bits = some x := by cases x <;> rfl

/-- The code of a CpyDir. -/
def CpyDir.bits : CpyDir → BitVec 2
  | .g2l => 0#2
  | .l2g => 1#2
  | .l2l => 2#2
  | .g2g => 3#2

/-- The CpyDir of a code, if it names one. -/
def CpyDir.ofBits (x : BitVec 2) : Option CpyDir :=
  if x = 0#2 then some .g2l else
  if x = 1#2 then some .l2g else
  if x = 2#2 then some .l2l else
  if x = 3#2 then some .g2g else
  none

theorem CpyDir.ofBits_bits (x : CpyDir) : CpyDir.ofBits x.bits = some x := by cases x <;> rfl

/-- The code of a EvSet. -/
def EvSet.bits : EvSet → BitVec 2
  | .route => 0#2
  | .watch => 1#2
  | .pulse => 2#2

/-- The EvSet of a code, if it names one. -/
def EvSet.ofBits (x : BitVec 2) : Option EvSet :=
  if x = 0#2 then some .route else
  if x = 1#2 then some .watch else
  if x = 2#2 then some .pulse else
  none

theorem EvSet.ofBits_bits (x : EvSet) : EvSet.ofBits x.bits = some x := by cases x <;> rfl

/-- The code of a EvClr. -/
def EvClr.bits : EvClr → BitVec 2
  | .route => 0#2
  | .cnt => 1#2
  | .watch => 2#2
  | .rel => 3#2

/-- The EvClr of a code, if it names one. -/
def EvClr.ofBits (x : BitVec 2) : Option EvClr :=
  if x = 0#2 then some .route else
  if x = 1#2 then some .cnt else
  if x = 2#2 then some .watch else
  if x = 3#2 then some .rel else
  none

theorem EvClr.ofBits_bits (x : EvClr) : EvClr.ofBits x.bits = some x := by cases x <;> rfl

/-- The code of a TrMode. -/
def TrMode.bits : TrMode → BitVec 2
  | .none => 0#2
  | .tr8 => 1#2
  | .tr16 => 2#2

/-- The TrMode of a code, if it names one. -/
def TrMode.ofBits (x : BitVec 2) : Option TrMode :=
  if x = 0#2 then some .none else
  if x = 1#2 then some .tr8 else
  if x = 2#2 then some .tr16 else
  none

theorem TrMode.ofBits_bits (x : TrMode) : TrMode.ofBits x.bits = some x := by cases x <;> rfl

/-- The code of a SpPat. -/
def SpPat.bits : SpPat → BitVec 2
  | .s24 => 0#2
  | .s14 => 1#2
  | .s48 => 2#2

/-- The SpPat of a code, if it names one. -/
def SpPat.ofBits (x : BitVec 2) : Option SpPat :=
  if x = 0#2 then some .s24 else
  if x = 1#2 then some .s14 else
  if x = 2#2 then some .s48 else
  none

theorem SpPat.ofBits_bits (x : SpPat) : SpPat.ofBits x.bits = some x := by cases x <;> rfl

/-- The code of a TmDir. -/
def TmDir.bits : TmDir → BitVec 2
  | .tt => 0#2
  | .t2v => 1#2
  | .v2t => 2#2

/-- The TmDir of a code, if it names one. -/
def TmDir.ofBits (x : BitVec 2) : Option TmDir :=
  if x = 0#2 then some .tt else
  if x = 1#2 then some .t2v else
  if x = 2#2 then some .v2t else
  none

theorem TmDir.ofBits_bits (x : TmDir) : TmDir.ofBits x.bits = some x := by cases x <;> rfl

/-- The code of a UpdRule. -/
def UpdRule.bits : UpdRule → BitVec 2
  | .axpy => 0#2
  | .wd => 1#2
  | .mom => 2#2

/-- The UpdRule of a code, if it names one. -/
def UpdRule.ofBits (x : BitVec 2) : Option UpdRule :=
  if x = 0#2 then some .axpy else
  if x = 1#2 then some .wd else
  if x = 2#2 then some .mom else
  none

theorem UpdRule.ofBits_bits (x : UpdRule) : UpdRule.ofBits x.bits = some x := by cases x <;> rfl

/-- The code of a KeyKind. -/
def KeyKind.bits : KeyKind → BitVec 3
  | .add => 0#3
  | .min => 1#3
  | .max => 2#3
  | .or => 3#3
  | .fix => 4#3

/-- The KeyKind of a code, if it names one. -/
def KeyKind.ofBits (x : BitVec 3) : Option KeyKind :=
  if x = 0#3 then some .add else
  if x = 1#3 then some .min else
  if x = 2#3 then some .max else
  if x = 3#3 then some .or else
  if x = 4#3 then some .fix else
  none

theorem KeyKind.ofBits_bits (x : KeyKind) : KeyKind.ofBits x.bits = some x := by cases x <;> rfl

/-- The code of a PptMode. -/
def PptMode.bits : PptMode → BitVec 2
  | .pt => 0#2
  | .hold => 1#2
  | .rel => 2#2

/-- The PptMode of a code, if it names one. -/
def PptMode.ofBits (x : BitVec 2) : Option PptMode :=
  if x = 0#2 then some .pt else
  if x = 1#2 then some .hold else
  if x = 2#2 then some .rel else
  none

theorem PptMode.ofBits_bits (x : PptMode) : PptMode.ofBits x.bits = some x := by cases x <;> rfl

/-- The code of a DbgMode. -/
def DbgMode.bits : DbgMode → BitVec 2
  | .brk => 0#2
  | .step => 1#2
  | .nostep => 2#2
  | .watch => 3#2

/-- The DbgMode of a code, if it names one. -/
def DbgMode.ofBits (x : BitVec 2) : Option DbgMode :=
  if x = 0#2 then some .brk else
  if x = 1#2 then some .step else
  if x = 2#2 then some .nostep else
  if x = 3#2 then some .watch else
  none

theorem DbgMode.ofBits_bits (x : DbgMode) : DbgMode.ofBits x.bits = some x := by cases x <;> rfl

/-- `OPX` of memory modifiers: use, ordering, scope from the high bits down (R64). -/
def Mm.bits (m : Mm) : BitVec 8 := m.use.bits ++ (m.ord.bits ++ m.scope.bits)

/-- The memory modifiers of an `OPX`. -/
def Mm.ofBits (x : BitVec 8) : Option Mm :=
  match Use.ofBits (x.extractLsb' 5 3), Ordr.ofBits (x.extractLsb' 3 2), Scope.ofBits (x.extractLsb' 0 3) with
  | some u, some o, some s => some ⟨s, o, u⟩
  | _, _, _ => none

theorem Mm.ofBits_bits (m : Mm) : Mm.ofBits m.bits = some m := by
  rcases m with ⟨s, o, u⟩
  cases s <;> cases o <;> cases u <;> rfl

/-- The five bits of a start field. -/
def Start.bits : Start → BitVec 5
  | none => 0#5
  | some c => 1#1 ++ c

/-- The start field of five bits; codes 1 to 15 are refused by the reserved-field check. -/
def Start.ofBits (x : BitVec 5) : Start :=
  if x.getLsbD 4 then some (x.extractLsb' 0 4) else none

end Sys2Proof
end

