-- ==== Sys2Proof/Machine/Encoding.lean ====
section
/-! DEFINITION. The instruction word (03): its fields, the opcode map, the checks that depend on the word alone
(steps 1 to 6 of R68), and the two maps between instructions and fields. -/

namespace Sys2Proof

/-- The eleven bits of an operand field: class, then index (R59). -/
def Opnd.bits : Opnd → BitVec 11
  | .v n => 0#3 ++ n | .s n => 1#3 ++ n | .p n => 2#3 ++ n | .k n => 3#3 ++ n
  | .t n => 4#3 ++ n | .a n => 5#3 ++ n | .b n => 6#3 ++ n | .imm n => 7#3 ++ n

/-- The operand of eleven bits. -/
def Opnd.ofBits (x : BitVec 11) : Opnd :=
  let n := x.extractLsb' 0 8
  match (x.extractLsb' 8 3).toNat with
  | 0 => .v n | 1 => .s n | 2 => .p n | 3 => .k n | 4 => .t n | 5 => .a n | 6 => .b n | _ => .imm n

/-- The class code of an operand (R59). -/
def Opnd.cls : Opnd → Nat
  | .v _ => 0 | .s _ => 1 | .p _ => 2 | .k _ => 3 | .t _ => 4 | .a _ => 5 | .b _ => 6 | .imm _ => 7

/-- The index of an operand. -/
def Opnd.idx : Opnd → Nat
  | .v n | .s n | .p n | .k n | .t n | .a n | .b n | .imm n => n.toNat

/-- The register index an operand field holds. -/
def Opnd.isImm : Opnd → Bool
  | .imm _ => true
  | _ => false

/-- `DYN` of a rounding (R32). -/
def Rnd.isDyn : Rnd → Bool
  | .dyn => true
  | _ => false

/-- `RND` of a rounding (R32). -/
def Rnd.rbits : Rnd → BitVec 2
  | .dyn | .rne => 0#2 | .rz => 1#2 | .rp => 2#2 | .rm => 3#2

/-- The rounding of `DYN` and `RND` (R32). -/
def Rnd.ofBits (dyn : Bool) (r : BitVec 2) : Rnd :=
  if dyn then .dyn else match r.toNat with
  | 0 => .rne | 1 => .rz | 2 => .rp | _ => .rm

/-- The names of the 177 instructions. -/
inductive Op
  | nop | bra | brx | call | ret | rjset | rjwait | rjdrop | exit | yield | prio | bkt | launch | waitk | sleep
  | iadd | isub | imul | imulh | imad | imadw | idiv | irem | imin | imax | iabs | ineg | and | or | xor | not | bool3 | shl | shr | sar | rot | popc | clz | ctz | brev | bfe | bfi | iset | isel | lea | addc | subb | plop
  | mov | movi | movh | shfl | vote | bcast | rdsr | wrsr | xacq | xrel | xtry | pmov | kmov
  | fadd | fsub | fmul | ffma | fmin | fmax | fabs | fneg | fcpys | fdiv | fsqrt | frcp | frsq | fexp2 | flog2 | fsin | fcos | fset | fclass | fscale | frnd | fdot2
  | cvt | cvtb8 | mxq | mxd | amax | rng | rngkey | flgrd | flgclr | flgen | frmset | fxcvt
  | ldl | stl | ldg | stg | atl | atg | stash | stfl | stinv | l1inv | pref
  | seal | unseal | hqry
  | cpy | gath | scat | binit | barv | bexp | bwait | btest | evmset | evmclr | cpyq | cpyk
  | tcfg | tld | tst | tzero | mma | mmasp | mmseq | seqst | tmov | tqry
  | ald | ast | azero | adrn | adru | asca | aqred | split | recomb | acqry
  | kclaim | kfree | kins | kprb | kdel | kacc | kdrn | kstat
  | gld | gsc | gidx | gqry
  | fence | bflip | bqry
  | radd | rfxa | rmin | rmax | ror | rwo | rarv | rreq | waitc
  | hbar | phase | phqry | oapp | odecl | dmqry
  | trap | tret | trdc | ppt | tlbinv | dbg
  deriving DecidableEq, Repr, Inhabited

/-- The opcode of an instruction: group * 64 + index (R69). -/
def Op.code : Op → BitVec 10
  | .nop => 0x000#10
  | .bra => 0x001#10
  | .brx => 0x002#10
  | .call => 0x003#10
  | .ret => 0x004#10
  | .rjset => 0x005#10
  | .rjwait => 0x006#10
  | .rjdrop => 0x007#10
  | .exit => 0x008#10
  | .yield => 0x009#10
  | .prio => 0x00a#10
  | .bkt => 0x00b#10
  | .launch => 0x00c#10
  | .waitk => 0x00d#10
  | .sleep => 0x00e#10
  | .iadd => 0x040#10
  | .isub => 0x041#10
  | .imul => 0x042#10
  | .imulh => 0x043#10
  | .imad => 0x044#10
  | .imadw => 0x045#10
  | .idiv => 0x046#10
  | .irem => 0x047#10
  | .imin => 0x048#10
  | .imax => 0x049#10
  | .iabs => 0x04a#10
  | .ineg => 0x04b#10
  | .and => 0x04c#10
  | .or => 0x04d#10
  | .xor => 0x04e#10
  | .not => 0x04f#10
  | .bool3 => 0x050#10
  | .shl => 0x051#10
  | .shr => 0x052#10
  | .sar => 0x053#10
  | .rot => 0x054#10
  | .popc => 0x055#10
  | .clz => 0x056#10
  | .ctz => 0x057#10
  | .brev => 0x058#10
  | .bfe => 0x059#10
  | .bfi => 0x05a#10
  | .iset => 0x05b#10
  | .isel => 0x05c#10
  | .lea => 0x05d#10
  | .addc => 0x05e#10
  | .subb => 0x05f#10
  | .plop => 0x060#10
  | .mov => 0x080#10
  | .movi => 0x081#10
  | .movh => 0x082#10
  | .shfl => 0x083#10
  | .vote => 0x084#10
  | .bcast => 0x085#10
  | .rdsr => 0x086#10
  | .wrsr => 0x087#10
  | .xacq => 0x088#10
  | .xrel => 0x089#10
  | .xtry => 0x08a#10
  | .pmov => 0x08b#10
  | .kmov => 0x08c#10
  | .fadd => 0x0c0#10
  | .fsub => 0x0c1#10
  | .fmul => 0x0c2#10
  | .ffma => 0x0c3#10
  | .fmin => 0x0c4#10
  | .fmax => 0x0c5#10
  | .fabs => 0x0c6#10
  | .fneg => 0x0c7#10
  | .fcpys => 0x0c8#10
  | .fdiv => 0x0c9#10
  | .fsqrt => 0x0ca#10
  | .frcp => 0x0cb#10
  | .frsq => 0x0cc#10
  | .fexp2 => 0x0cd#10
  | .flog2 => 0x0ce#10
  | .fsin => 0x0cf#10
  | .fcos => 0x0d0#10
  | .fset => 0x0d1#10
  | .fclass => 0x0d2#10
  | .fscale => 0x0d3#10
  | .frnd => 0x0d4#10
  | .fdot2 => 0x0d5#10
  | .cvt => 0x100#10
  | .cvtb8 => 0x101#10
  | .mxq => 0x102#10
  | .mxd => 0x103#10
  | .amax => 0x104#10
  | .rng => 0x105#10
  | .rngkey => 0x106#10
  | .flgrd => 0x107#10
  | .flgclr => 0x108#10
  | .flgen => 0x109#10
  | .frmset => 0x10a#10
  | .fxcvt => 0x10b#10
  | .ldl => 0x140#10
  | .stl => 0x141#10
  | .ldg => 0x142#10
  | .stg => 0x143#10
  | .atl => 0x144#10
  | .atg => 0x145#10
  | .stash => 0x146#10
  | .stfl => 0x147#10
  | .stinv => 0x148#10
  | .l1inv => 0x149#10
  | .pref => 0x14a#10
  | .seal => 0x180#10
  | .unseal => 0x181#10
  | .hqry => 0x182#10
  | .cpy => 0x1c0#10
  | .gath => 0x1c1#10
  | .scat => 0x1c2#10
  | .binit => 0x1c3#10
  | .barv => 0x1c4#10
  | .bexp => 0x1c5#10
  | .bwait => 0x1c6#10
  | .btest => 0x1c7#10
  | .evmset => 0x1c8#10
  | .evmclr => 0x1c9#10
  | .cpyq => 0x1ca#10
  | .cpyk => 0x1cb#10
  | .tcfg => 0x200#10
  | .tld => 0x201#10
  | .tst => 0x202#10
  | .tzero => 0x203#10
  | .mma => 0x204#10
  | .mmasp => 0x205#10
  | .mmseq => 0x206#10
  | .seqst => 0x207#10
  | .tmov => 0x208#10
  | .tqry => 0x209#10
  | .ald => 0x240#10
  | .ast => 0x241#10
  | .azero => 0x242#10
  | .adrn => 0x243#10
  | .adru => 0x244#10
  | .asca => 0x245#10
  | .aqred => 0x246#10
  | .split => 0x247#10
  | .recomb => 0x248#10
  | .acqry => 0x249#10
  | .kclaim => 0x280#10
  | .kfree => 0x281#10
  | .kins => 0x282#10
  | .kprb => 0x283#10
  | .kdel => 0x284#10
  | .kacc => 0x285#10
  | .kdrn => 0x286#10
  | .kstat => 0x287#10
  | .gld => 0x2c0#10
  | .gsc => 0x2c1#10
  | .gidx => 0x2c2#10
  | .gqry => 0x2c3#10
  | .fence => 0x300#10
  | .bflip => 0x301#10
  | .bqry => 0x302#10
  | .radd => 0x340#10
  | .rfxa => 0x341#10
  | .rmin => 0x342#10
  | .rmax => 0x343#10
  | .ror => 0x344#10
  | .rwo => 0x345#10
  | .rarv => 0x346#10
  | .rreq => 0x347#10
  | .waitc => 0x348#10
  | .hbar => 0x380#10
  | .phase => 0x381#10
  | .phqry => 0x382#10
  | .oapp => 0x383#10
  | .odecl => 0x384#10
  | .dmqry => 0x385#10
  | .trap => 0x3c0#10
  | .tret => 0x3c1#10
  | .trdc => 0x3c2#10
  | .ppt => 0x3c3#10
  | .tlbinv => 0x3c4#10
  | .dbg => 0x3c5#10

/-- All instructions, in opcode order. -/
def Op.all : List Op :=
  List.flatten [
  [.nop, .bra, .brx, .call, .ret, .rjset, .rjwait, .rjdrop, .exit, .yield, .prio, .bkt, .launch, .waitk, .sleep],
  [.iadd, .isub, .imul, .imulh, .imad, .imadw, .idiv, .irem, .imin, .imax, .iabs, .ineg, .and, .or, .xor, .not, .bool3, .shl, .shr, .sar, .rot, .popc, .clz, .ctz, .brev, .bfe, .bfi, .iset, .isel, .lea, .addc, .subb, .plop],
  [.mov, .movi, .movh, .shfl, .vote, .bcast, .rdsr, .wrsr, .xacq, .xrel, .xtry, .pmov, .kmov],
  [.fadd, .fsub, .fmul, .ffma, .fmin, .fmax, .fabs, .fneg, .fcpys, .fdiv, .fsqrt, .frcp, .frsq, .fexp2, .flog2, .fsin, .fcos, .fset, .fclass, .fscale, .frnd, .fdot2],
  [.cvt, .cvtb8, .mxq, .mxd, .amax, .rng, .rngkey, .flgrd, .flgclr, .flgen, .frmset, .fxcvt],
  [.ldl, .stl, .ldg, .stg, .atl, .atg, .stash, .stfl, .stinv, .l1inv, .pref],
  [.seal, .unseal, .hqry],
  [.cpy, .gath, .scat, .binit, .barv, .bexp, .bwait, .btest, .evmset, .evmclr, .cpyq, .cpyk],
  [.tcfg, .tld, .tst, .tzero, .mma, .mmasp, .mmseq, .seqst, .tmov, .tqry],
  [.ald, .ast, .azero, .adrn, .adru, .asca, .aqred, .split, .recomb, .acqry],
  [.kclaim, .kfree, .kins, .kprb, .kdel, .kacc, .kdrn, .kstat],
  [.gld, .gsc, .gidx, .gqry],
  [.fence, .bflip, .bqry],
  [.radd, .rfxa, .rmin, .rmax, .ror, .rwo, .rarv, .rreq, .waitc],
  [.hbar, .phase, .phqry, .oapp, .odecl, .dmqry],
  [.trap, .tret, .trdc, .ppt, .tlbinv, .dbg]]

/-- The instruction of an opcode, if it is assigned (R69, R70). -/
def Op.ofCode (c : BitVec 10) : Option Op := Op.all.find? fun o => o.code == c

/-- The fields of an instruction word whose opcode is assigned (R55). -/
structure Fields where
  op : Op
  hd : Hd
  d : BitVec 11
  a : BitVec 11
  b : BitVec 11
  ty : BitVec 4
  rnd : BitVec 2
  dyn : Bool
  sat : Bool
  opx : BitVec 8
  ext : BitVec 24
  deriving DecidableEq, Repr

/-- Fields with every operand, modifier and extension bit zero. -/
def Fields.zero (o : Op) (h : Hd) : Fields := ⟨o, h, 0#11, 0#11, 0#11, 0#4, 0#2, false, false, 0#8, 0#24⟩

/-- The bits of an instruction word from its opcode and fields (R55, R62, R66). -/
def Fields.pack (f : Fields) : BitVec 96 :=
  let x0 : BitVec 13 := BitVec.append (f.hd.gp) f.op.code
  let x1 : BitVec 14 := BitVec.append (bbit f.hd.neg) x0
  let x2 : BitVec 15 := BitVec.append (bbit f.hd.nwb) x1
  let x3 : BitVec 26 := BitVec.append (f.d) x2
  let x4 : BitVec 37 := BitVec.append (f.a) x3
  let x5 : BitVec 48 := BitVec.append (f.b) x4
  let x6 : BitVec 52 := BitVec.append (f.ty) x5
  let x7 : BitVec 54 := BitVec.append (f.rnd) x6
  let x8 : BitVec 55 := BitVec.append (bbit f.dyn) x7
  let x9 : BitVec 56 := BitVec.append (bbit f.sat) x8
  let x10 : BitVec 64 := BitVec.append (f.opx) x9
  let x11 : BitVec 68 := BitVec.append (f.hd.st) x10
  let x12 : BitVec 69 := BitVec.append (bbit f.hd.yl) x11
  let x13 : BitVec 70 := BitVec.append (bbit f.hd.cap) x12
  let x14 : BitVec 72 := BitVec.append (f.hd.latch) x13
  let x15 : BitVec 96 := BitVec.append (f.ext) x14
  x15

/-- The opcode field of a word. -/
def opcodeOf (w : BitVec 96) : BitVec 10 := w.extractLsb' 0 10

/-- The fields of a word, under an assigned opcode. -/
def Fields.unpack (o : Op) (w : BitVec 96) : Fields where
  op := o
  hd := ⟨w.getLsbD 13, w.extractLsb' 10 3, w.getLsbD 14, w.getLsbD 69, w.extractLsb' 70 2, w.getLsbD 68, w.extractLsb' 64 4⟩
  d := w.extractLsb' 15 11
  a := w.extractLsb' 26 11
  b := w.extractLsb' 37 11
  ty := w.extractLsb' 48 4
  rnd := w.extractLsb' 52 2
  dyn := w.getLsbD 54
  sat := w.getLsbD 55
  opx := w.extractLsb' 56 8
  ext := w.extractLsb' 72 24

/-- The fields of an instruction; none for a step of another agent and for an unassigned opcode. -/
def Instr.fields : Instr → Option Fields
  | .nop h => some (Fields.zero .nop h)
  | .bra h pr off => some { Fields.zero .bra h with opx := pr, ext := off }
  | .brx h a => some { Fields.zero .brx h with a := a.bits }
  | .call h pr d off => some { Fields.zero .call h with d := d.bits, opx := pr, ext := off }
  | .ret h a => some { Fields.zero .ret h with a := a.bits }
  | .rjset h d => some { Fields.zero .rjset h with d := d.bits }
  | .rjwait h pr a => some { Fields.zero .rjwait h with a := a.bits, opx := pr }
  | .rjdrop h d => some { Fields.zero .rjdrop h with d := d.bits }
  | .exit h => some (Fields.zero .exit h)
  | .yield h => some (Fields.zero .yield h)
  | .prio h pr => some { Fields.zero .prio h with opx := pr }
  | .bkt h pr a b => some { Fields.zero .bkt h with a := a.bits, b := b.bits, opx := pr }
  | .launch h d a => some { Fields.zero .launch h with d := d.bits, a := a.bits }
  | .waitk h d a b => some { Fields.zero .waitk h with d := d.bits, a := a.bits, b := b.bits }
  | .sleep h n => some { Fields.zero .sleep h with ext := n }
  | .iadd h ty sat d a b => some { Fields.zero .iadd h with d := d.bits, a := a.bits, b := b.bits, ty := ty.bits, sat := sat }
  | .isub h ty sat d a b => some { Fields.zero .isub h with d := d.bits, a := a.bits, b := b.bits, ty := ty.bits, sat := sat }
  | .imul h ty sat d a b => some { Fields.zero .imul h with d := d.bits, a := a.bits, b := b.bits, ty := ty.bits, sat := sat }
  | .imulh h ty d a b => some { Fields.zero .imulh h with d := d.bits, a := a.bits, b := b.bits, ty := ty.bits }
  | .imad h ty sat d a b c => some { Fields.zero .imad h with d := d.bits, a := a.bits, b := b.bits, ty := ty.bits, sat := sat, ext := (0#13 ++ c.bits) }
  | .imadw h ty d a b c => some { Fields.zero .imadw h with d := d.bits, a := a.bits, b := b.bits, ty := ty.bits, ext := (0#13 ++ c.bits) }
  | .idiv h ty sat d a b => some { Fields.zero .idiv h with d := d.bits, a := a.bits, b := b.bits, ty := ty.bits, sat := sat }
  | .irem h ty d a b => some { Fields.zero .irem h with d := d.bits, a := a.bits, b := b.bits, ty := ty.bits }
  | .imin h ty d a b => some { Fields.zero .imin h with d := d.bits, a := a.bits, b := b.bits, ty := ty.bits }
  | .imax h ty d a b => some { Fields.zero .imax h with d := d.bits, a := a.bits, b := b.bits, ty := ty.bits }
  | .iabs h ty sat d a => some { Fields.zero .iabs h with d := d.bits, a := a.bits, ty := ty.bits, sat := sat }
  | .ineg h ty sat d a => some { Fields.zero .ineg h with d := d.bits, a := a.bits, ty := ty.bits, sat := sat }
  | .and h ty d a b => some { Fields.zero .and h with d := d.bits, a := a.bits, b := b.bits, ty := ty.bits }
  | .or h ty d a b => some { Fields.zero .or h with d := d.bits, a := a.bits, b := b.bits, ty := ty.bits }
  | .xor h ty d a b => some { Fields.zero .xor h with d := d.bits, a := a.bits, b := b.bits, ty := ty.bits }
  | .not h ty d a => some { Fields.zero .not h with d := d.bits, a := a.bits, ty := ty.bits }
  | .bool3 h tt ty d a b c => some { Fields.zero .bool3 h with d := d.bits, a := a.bits, b := b.bits, ty := ty.bits, opx := tt, ext := (0#13 ++ c.bits) }
  | .shl h ty d a b => some { Fields.zero .shl h with d := d.bits, a := a.bits, b := b.bits, ty := ty.bits }
  | .shr h ty d a b => some { Fields.zero .shr h with d := d.bits, a := a.bits, b := b.bits, ty := ty.bits }
  | .sar h ty d a b => some { Fields.zero .sar h with d := d.bits, a := a.bits, b := b.bits, ty := ty.bits }
  | .rot h ty d a b => some { Fields.zero .rot h with d := d.bits, a := a.bits, b := b.bits, ty := ty.bits }
  | .popc h ty d a => some { Fields.zero .popc h with d := d.bits, a := a.bits, ty := ty.bits }
  | .clz h ty d a => some { Fields.zero .clz h with d := d.bits, a := a.bits, ty := ty.bits }
  | .ctz h ty d a => some { Fields.zero .ctz h with d := d.bits, a := a.bits, ty := ty.bits }
  | .brev h ty d a => some { Fields.zero .brev h with d := d.bits, a := a.bits, ty := ty.bits }
  | .bfe h ty d a b => some { Fields.zero .bfe h with d := d.bits, a := a.bits, b := b.bits, ty := ty.bits }
  | .bfi h ty d a b c => some { Fields.zero .bfi h with d := d.bits, a := a.bits, b := b.bits, ty := ty.bits, ext := (0#13 ++ c.bits) }
  | .iset h cmp ty d a b => some { Fields.zero .iset h with d := d.bits, a := a.bits, b := b.bits, ty := ty.bits, opx := (0#5 ++ ((cmp : ICmp).bits)) }
  | .isel h ty d a b c => some { Fields.zero .isel h with d := d.bits, a := a.bits, b := b.bits, ty := ty.bits, ext := (0#13 ++ c.bits) }
  | .lea h sh ty d a b => some { Fields.zero .lea h with d := d.bits, a := a.bits, b := b.bits, ty := ty.bits, opx := (0#5 ++ sh) }
  | .addc h cp ty d a b c => some { Fields.zero .addc h with d := d.bits, a := a.bits, b := b.bits, ty := ty.bits, opx := (0#5 ++ cp), ext := (0#13 ++ c.bits) }
  | .subb h cp ty d a b c => some { Fields.zero .subb h with d := d.bits, a := a.bits, b := b.bits, ty := ty.bits, opx := (0#5 ++ cp), ext := (0#13 ++ c.bits) }
  | .plop h tt d a b c => some { Fields.zero .plop h with d := d.bits, a := a.bits, b := b.bits, opx := tt, ext := (0#13 ++ c.bits) }
  | .mov h ty d a => some { Fields.zero .mov h with d := d.bits, a := a.bits, ty := ty.bits }
  | .movi h ty d imm => some { Fields.zero .movi h with d := d.bits, ty := ty.bits, ext := imm }
  | .movh h n ty d a imm => some { Fields.zero .movh h with d := d.bits, a := a.bits, ty := ty.bits, opx := (0#6 ++ n), ext := (0#8 ++ imm) }
  | .shfl h mode seg ty d a b => some { Fields.zero .shfl h with d := d.bits, a := a.bits, b := b.bits, ty := ty.bits, opx := (0#3 ++ (seg ++ ((mode : ShflMode).bits))) }
  | .vote h mode d a => some { Fields.zero .vote h with d := d.bits, a := a.bits, opx := (0#5 ++ ((mode : VoteMode).bits)) }
  | .bcast h elect ty d a b => some { Fields.zero .bcast h with d := d.bits, a := a.bits, b := b.bits, ty := ty.bits, opx := (0#7 ++ (bbit elect)) }
  | .rdsr h d sr => some { Fields.zero .rdsr h with d := d.bits, ext := (0#12 ++ sr) }
  | .wrsr h a sr => some { Fields.zero .wrsr h with a := a.bits, ext := (0#12 ++ sr) }
  | .xacq h n => some { Fields.zero .xacq h with ext := n }
  | .xrel h => some (Fields.zero .xrel h)
  | .xtry h d n => some { Fields.zero .xtry h with d := d.bits, ext := n }
  | .pmov h unpack m d a => some { Fields.zero .pmov h with d := d.bits, a := a.bits, opx := (m ++ (bbit unpack)) }
  | .kmov h d a => some { Fields.zero .kmov h with d := d.bits, a := a.bits }
  | .fadd h rnd ty sat d a b => some { Fields.zero .fadd h with d := d.bits, a := a.bits, b := b.bits, ty := ty.bits, rnd := rnd.rbits, dyn := rnd.isDyn, sat := sat }
  | .fsub h rnd ty sat d a b => some { Fields.zero .fsub h with d := d.bits, a := a.bits, b := b.bits, ty := ty.bits, rnd := rnd.rbits, dyn := rnd.isDyn, sat := sat }
  | .fmul h rnd ty sat d a b => some { Fields.zero .fmul h with d := d.bits, a := a.bits, b := b.bits, ty := ty.bits, rnd := rnd.rbits, dyn := rnd.isDyn, sat := sat }
  | .ffma h rnd ty sat d a b c => some { Fields.zero .ffma h with d := d.bits, a := a.bits, b := b.bits, ty := ty.bits, rnd := rnd.rbits, dyn := rnd.isDyn, sat := sat, ext := (0#13 ++ c.bits) }
  | .fmin h num ty d a b => some { Fields.zero .fmin h with d := d.bits, a := a.bits, b := b.bits, ty := ty.bits, opx := (0#7 ++ (bbit num)) }
  | .fmax h num ty d a b => some { Fields.zero .fmax h with d := d.bits, a := a.bits, b := b.bits, ty := ty.bits, opx := (0#7 ++ (bbit num)) }
  | .fabs h ty d a => some { Fields.zero .fabs h with d := d.bits, a := a.bits, ty := ty.bits }
  | .fneg h ty d a => some { Fields.zero .fneg h with d := d.bits, a := a.bits, ty := ty.bits }
  | .fcpys h ty d a b => some { Fields.zero .fcpys h with d := d.bits, a := a.bits, b := b.bits, ty := ty.bits }
  | .fdiv h rnd ty sat d a b => some { Fields.zero .fdiv h with d := d.bits, a := a.bits, b := b.bits, ty := ty.bits, rnd := rnd.rbits, dyn := rnd.isDyn, sat := sat }
  | .fsqrt h rnd ty d a => some { Fields.zero .fsqrt h with d := d.bits, a := a.bits, ty := ty.bits, rnd := rnd.rbits, dyn := rnd.isDyn }
  | .frcp h ty sat d a => some { Fields.zero .frcp h with d := d.bits, a := a.bits, ty := ty.bits, sat := sat }
  | .frsq h ty d a => some { Fields.zero .frsq h with d := d.bits, a := a.bits, ty := ty.bits }
  | .fexp2 h ty sat d a => some { Fields.zero .fexp2 h with d := d.bits, a := a.bits, ty := ty.bits, sat := sat }
  | .flog2 h ty d a => some { Fields.zero .flog2 h with d := d.bits, a := a.bits, ty := ty.bits }
  | .fsin h ty d a => some { Fields.zero .fsin h with d := d.bits, a := a.bits, ty := ty.bits }
  | .fcos h ty d a => some { Fields.zero .fcos h with d := d.bits, a := a.bits, ty := ty.bits }
  | .fset h cmp ty d a b => some { Fields.zero .fset h with d := d.bits, a := a.bits, b := b.bits, ty := ty.bits, opx := (0#5 ++ ((cmp : FCmp).bits)) }
  | .fclass h ty d a => some { Fields.zero .fclass h with d := d.bits, a := a.bits, ty := ty.bits }
  | .fscale h rnd ty sat d a b => some { Fields.zero .fscale h with d := d.bits, a := a.bits, b := b.bits, ty := ty.bits, rnd := rnd.rbits, dyn := rnd.isDyn, sat := sat }
  | .frnd h x rnd ty d a => some { Fields.zero .frnd h with d := d.bits, a := a.bits, ty := ty.bits, rnd := rnd.rbits, dyn := rnd.isDyn, opx := (0#7 ++ (bbit x)) }
  | .fdot2 h rnd ty sat d a b c => some { Fields.zero .fdot2 h with d := d.bits, a := a.bits, b := b.bits, ty := ty.bits, rnd := rnd.rbits, dyn := rnd.isDyn, sat := sat, ext := (0#13 ++ c.bits) }
  | .cvt h src rnd ty sat d a => some { Fields.zero .cvt h with d := d.bits, a := a.bits, ty := ty.bits, rnd := rnd.rbits, dyn := rnd.isDyn, sat := sat, opx := (0#4 ++ ((src : Ty).bits)) }
  | .cvtb8 h dec hi sr wide fmt rnd sat d a b => some { Fields.zero .cvtb8 h with d := d.bits, a := a.bits, b := b.bits, ty := 13#4, rnd := rnd.rbits, dyn := rnd.isDyn, sat := sat, opx := (0#1 ++ (((wide : Ty).bits) ++ ((bbit sr) ++ ((bbit hi) ++ (bbit dec))))), ext := (0#8 ++ (fmt ++ 0#11)) }
  | .mxq h sr src fmt rnd d a => some { Fields.zero .mxq h with d := d.bits, a := a.bits, ty := 13#4, rnd := rnd.rbits, dyn := rnd.isDyn, opx := (0#1 ++ (((src : Ty).bits) ++ ((bbit sr) ++ 0#2))), ext := (0#8 ++ (fmt ++ 0#11)) }
  | .mxd h out fmt rnd sat d a b => some { Fields.zero .mxd h with d := d.bits, a := a.bits, b := b.bits, ty := 13#4, rnd := rnd.rbits, dyn := rnd.isDyn, sat := sat, opx := (0#1 ++ (((out : Ty).bits) ++ 0#3)), ext := (0#8 ++ (fmt ++ 0#11)) }
  | .amax h ty d a b => some { Fields.zero .amax h with d := d.bits, a := a.bits, b := b.bits, ty := ty.bits }
  | .rng h ty d => some { Fields.zero .rng h with d := d.bits, ty := ty.bits }
  | .rngkey h rd d a b => some { Fields.zero .rngkey h with d := d.bits, a := a.bits, b := b.bits, opx := (0#7 ++ (bbit rd)) }
  | .flgrd h clr d => some { Fields.zero .flgrd h with d := d.bits, opx := (0#7 ++ (bbit clr)) }
  | .flgclr h a => some { Fields.zero .flgclr h with a := a.bits }
  | .flgen h mode a => some { Fields.zero .flgen h with a := a.bits, opx := (0#6 ++ ((mode : FlgMode).bits)) }
  | .frmset h d a => some { Fields.zero .frmset h with d := d.bits, a := a.bits }
  | .fxcvt h line ty sat d a b off => some { Fields.zero .fxcvt h with d := d.bits, a := a.bits, b := b.bits, ty := ty.bits, sat := sat, opx := (0#7 ++ (bbit line)), ext := off }
  | .ldl h mm ty d a b off => some { Fields.zero .ldl h with d := d.bits, a := a.bits, b := b.bits, ty := ty.bits, opx := ((mm : Mm).bits), ext := off }
  | .stl h mm ty d a b off => some { Fields.zero .stl h with d := d.bits, a := a.bits, b := b.bits, ty := ty.bits, opx := ((mm : Mm).bits), ext := off }
  | .ldg h mm ty d a b off => some { Fields.zero .ldg h with d := d.bits, a := a.bits, b := b.bits, ty := ty.bits, opx := ((mm : Mm).bits), ext := off }
  | .stg h mm ty d a b off => some { Fields.zero .stg h with d := d.bits, a := a.bits, b := b.bits, ty := ty.bits, opx := ((mm : Mm).bits), ext := off }
  | .atl h mm op nr ty d a b c => some { Fields.zero .atl h with d := d.bits, a := a.bits, b := b.bits, ty := ty.bits, opx := ((mm : Mm).bits), ext := (0#8 ++ ((bbit nr) ++ (((op : AtomOp).bits) ++ c.bits))) }
  | .atg h mm op nr ty d a b c => some { Fields.zero .atg h with d := d.bits, a := a.bits, b := b.bits, ty := ty.bits, opx := ((mm : Mm).bits), ext := (0#8 ++ ((bbit nr) ++ (((op : AtomOp).bits) ++ c.bits))) }
  | .stash h win a b c => some { Fields.zero .stash h with a := a.bits, b := b.bits, ext := (0#11 ++ (win ++ c.bits)) }
  | .stfl h all win => some { Fields.zero .stfl h with ext := (0#21 ++ ((bbit all) ++ win)) }
  | .stinv h all win => some { Fields.zero .stinv h with ext := (0#21 ++ ((bbit all) ++ win)) }
  | .l1inv h => some (Fields.zero .l1inv h)
  | .pref h a b off => some { Fields.zero .pref h with a := a.bits, b := b.bits, ext := off }
  | .seal h kind d a b off => some { Fields.zero .seal h with d := d.bits, a := a.bits, b := b.bits, opx := (0#5 ++ ((kind : RecKind).bits)), ext := off }
  | .unseal h a => some { Fields.zero .unseal h with a := a.bits }
  | .hqry h rc d a n => some { Fields.zero .hqry h with d := d.bits, a := a.bits, ext := (0#17 ++ ((bbit rc) ++ n)) }
  | .cpy h dir grp on d a b c => some { Fields.zero .cpy h with d := d.bits, a := a.bits, b := b.bits, ext := (0#3 ++ ((Start.bits on) ++ (grp ++ (((dir : CpyDir).bits) ++ c.bits)))) }
  | .gath h list rows grp on d a b c => some { Fields.zero .gath h with d := d.bits, a := a.bits, b := b.bits, ext := (0#3 ++ ((Start.bits on) ++ (grp ++ ((bbit rows) ++ ((bbit list) ++ c.bits))))) }
  | .scat h list rows grp on d a b c => some { Fields.zero .scat h with d := d.bits, a := a.bits, b := b.bits, ext := (0#3 ++ ((Start.bits on) ++ (grp ++ ((bbit rows) ++ ((bbit list) ++ c.bits))))) }
  | .binit h a b => some { Fields.zero .binit h with a := a.bits, b := b.bits }
  | .barv h lanes d a b c => some { Fields.zero .barv h with d := d.bits, a := a.bits, b := b.bits, ext := (0#12 ++ ((bbit lanes) ++ c.bits)) }
  | .bexp h d a b => some { Fields.zero .bexp h with d := d.bits, a := a.bits, b := b.bits }
  | .bwait h d a b c => some { Fields.zero .bwait h with d := d.bits, a := a.bits, b := b.bits, ext := (0#13 ++ c.bits) }
  | .btest h img d a b => some { Fields.zero .btest h with d := d.bits, a := a.bits, b := b.bits, opx := (0#7 ++ (bbit img)) }
  | .evmset h mode d a b => some { Fields.zero .evmset h with d := d.bits, a := a.bits, b := b.bits, opx := (0#6 ++ ((mode : EvSet).bits)) }
  | .evmclr h mode a b => some { Fields.zero .evmclr h with a := a.bits, b := b.bits, opx := (0#6 ++ ((mode : EvClr).bits)) }
  | .cpyq h clr d a => some { Fields.zero .cpyq h with d := d.bits, a := a.bits, opx := (0#7 ++ (bbit clr)) }
  | .cpyk h d a => some { Fields.zero .cpyk h with d := d.bits, a := a.bits }
  | .tcfg h d a => some { Fields.zero .tcfg h with d := d.bits, a := a.bits }
  | .tld h tr d a b off => some { Fields.zero .tld h with d := d.bits, a := a.bits, b := b.bits, opx := (0#6 ++ ((tr : TrMode).bits)), ext := off }
  | .tst h d a b off => some { Fields.zero .tst h with d := d.bits, a := a.bits, b := b.bits, ext := off }
  | .tzero h d => some { Fields.zero .tzero h with d := d.bits }
  | .mma h sw fb fa ty d a b => some { Fields.zero .mma h with d := d.bits, a := a.bits, b := b.bits, ty := ty.bits, opx := (0#7 ++ (bbit sw)), ext := (0#3 ++ (fb ++ (fa ++ 0#11))) }
  | .mmasp h sw pat fb fa ty d a b c => some { Fields.zero .mmasp h with d := d.bits, a := a.bits, b := b.bits, ty := ty.bits, opx := (0#5 ++ (((pat : SpPat).bits) ++ (bbit sw))), ext := (0#3 ++ (fb ++ (fa ++ c.bits))) }
  | .mmseq h sw on fb fa ty d a b => some { Fields.zero .mmseq h with d := d.bits, a := a.bits, b := b.bits, ty := ty.bits, opx := ((Start.bits on) ++ (0#2 ++ (bbit sw))), ext := (0#3 ++ (fb ++ (fa ++ 0#11))) }
  | .seqst h wait clr d => some { Fields.zero .seqst h with d := d.bits, opx := (0#6 ++ ((bbit clr) ++ (bbit wait))) }
  | .tmov h dir d a b => some { Fields.zero .tmov h with d := d.bits, a := a.bits, b := b.bits, opx := (0#6 ++ ((dir : TmDir).bits)) }
  | .tqry h n d a => some { Fields.zero .tqry h with d := d.bits, a := a.bits, opx := (0#7 ++ (bbit n)) }
  | .ald h ln d a b => some { Fields.zero .ald h with d := d.bits, a := a.bits, b := b.bits, opx := (0#5 ++ ln) }
  | .ast h ln ty d a b => some { Fields.zero .ast h with d := d.bits, a := a.bits, b := b.bits, ty := ty.bits, opx := (0#5 ++ ln) }
  | .azero h d => some { Fields.zero .azero h with d := d.bits }
  | .adrn h z fmt rnd ty sat a b => some { Fields.zero .adrn h with a := a.bits, b := b.bits, ty := ty.bits, rnd := rnd.rbits, dyn := rnd.isDyn, sat := sat, opx := (0#7 ++ (bbit z)), ext := (0#8 ++ (fmt ++ 0#11)) }
  | .adru h rule z mbf ty sat a b c => some { Fields.zero .adru h with a := a.bits, b := b.bits, ty := ty.bits, sat := sat, opx := (0#4 ++ ((bbit mbf) ++ ((bbit z) ++ ((rule : UpdRule).bits)))), ext := (0#13 ++ c.bits) }
  | .asca h fsc d a b => some { Fields.zero .asca h with d := d.bits, a := a.bits, b := b.bits, opx := (0#7 ++ (bbit fsc)) }
  | .aqred h z int fmt rnd ty sat a b c => some { Fields.zero .aqred h with a := a.bits, b := b.bits, ty := ty.bits, rnd := rnd.rbits, dyn := rnd.isDyn, sat := sat, opx := (0#6 ++ ((bbit int) ++ (bbit z))), ext := (0#8 ++ (fmt ++ c.bits)) }
  | .split h n ex d a b => some { Fields.zero .split h with d := d.bits, a := a.bits, b := b.bits, ty := 5#4, opx := (0#3 ++ ((bbit ex) ++ n)) }
  | .recomb h lv ln d a b => some { Fields.zero .recomb h with d := d.bits, a := a.bits, b := b.bits, ty := 5#4, opx := (0#1 ++ (ln ++ lv)) }
  | .acqry h d a => some { Fields.zero .acqry h with d := d.bits, a := a.bits }
  | .kclaim h kind ch d a b w => some { Fields.zero .kclaim h with d := d.bits, a := a.bits, b := b.bits, opx := (0#2 ++ (ch ++ ((kind : KeyKind).bits))), ext := (0#12 ++ w) }
  | .kfree h => some (Fields.zero .kfree h)
  | .kins h d a b => some { Fields.zero .kins h with d := d.bits, a := a.bits, b := b.bits }
  | .kprb h d a c => some { Fields.zero .kprb h with d := d.bits, a := a.bits, ext := (0#13 ++ c.bits) }
  | .kdel h d a => some { Fields.zero .kdel h with d := d.bits, a := a.bits }
  | .kacc h ty a b => some { Fields.zero .kacc h with a := a.bits, b := b.bits, ty := ty.bits }
  | .kdrn h z d a b => some { Fields.zero .kdrn h with d := d.bits, a := a.bits, b := b.bits, opx := (0#7 ++ (bbit z)) }
  | .kstat h clr d => some { Fields.zero .kstat h with d := d.bits, opx := (0#7 ++ (bbit clr)) }
  | .gld h sat d a b => some { Fields.zero .gld h with d := d.bits, a := a.bits, b := b.bits, sat := sat }
  | .gsc h gen sat a b c => some { Fields.zero .gsc h with a := a.bits, b := b.bits, sat := sat, ext := (0#5 ++ (gen ++ c.bits)) }
  | .gidx h w d a b lv => some { Fields.zero .gidx h with d := d.bits, a := a.bits, b := b.bits, ext := (0#18 ++ ((bbit w) ++ lv)) }
  | .gqry h d a sel => some { Fields.zero .gqry h with d := d.bits, a := a.bits, ext := (0#18 ++ sel) }
  | .fence h mm kr kg kl => some { Fields.zero .fence h with opx := ((mm : Mm).bits), ext := (0#21 ++ ((bbit kr) ++ ((bbit kg) ++ (bbit kl)))) }
  | .bflip h host d a => some { Fields.zero .bflip h with d := d.bits, a := a.bits, ext := (0#23 ++ (bbit host)) }
  | .bqry h d a => some { Fields.zero .bqry h with d := d.bits, a := a.bits }
  | .radd h comm ty d a b off => some { Fields.zero .radd h with d := d.bits, a := a.bits, b := b.bits, ty := ty.bits, opx := (0#1 ++ ((bbit comm) ++ 0#6)), ext := off }
  | .rfxa h comm init line fmt ty d a b c => some { Fields.zero .rfxa h with d := d.bits, a := a.bits, b := b.bits, ty := ty.bits, opx := (0#1 ++ ((bbit comm) ++ 0#6)), ext := (0#6 ++ ((bbit init) ++ ((bbit line) ++ (fmt ++ c.bits)))) }
  | .rmin h comm ty d a b off => some { Fields.zero .rmin h with d := d.bits, a := a.bits, b := b.bits, ty := ty.bits, opx := (0#1 ++ ((bbit comm) ++ 0#6)), ext := off }
  | .rmax h comm ty d a b off => some { Fields.zero .rmax h with d := d.bits, a := a.bits, b := b.bits, ty := ty.bits, opx := (0#1 ++ ((bbit comm) ++ 0#6)), ext := off }
  | .ror h comm ty d a b off => some { Fields.zero .ror h with d := d.bits, a := a.bits, b := b.bits, ty := ty.bits, opx := (0#1 ++ ((bbit comm) ++ 0#6)), ext := off }
  | .rwo h comm ty d a b off => some { Fields.zero .rwo h with d := d.bits, a := a.bits, b := b.bits, ty := ty.bits, opx := (0#1 ++ ((bbit comm) ++ 0#6)), ext := off }
  | .rarv h ty d a b off => some { Fields.zero .rarv h with d := d.bits, a := a.bits, b := b.bits, ty := ty.bits, ext := off }
  | .rreq h w32 n d a b => some { Fields.zero .rreq h with d := d.bits, a := a.bits, b := b.bits, ext := (0#8 ++ ((bbit w32) ++ (n ++ 0#11))) }
  | .waitc h d a b c => some { Fields.zero .waitc h with d := d.bits, a := a.bits, b := b.bits, ext := (0#13 ++ c.bits) }
  | .hbar h mm d a ch => some { Fields.zero .hbar h with d := d.bits, a := a.bits, opx := ((mm : Mm).bits), ext := (0#20 ++ ch) }
  | .phase h d a => some { Fields.zero .phase h with d := d.bits, a := a.bits }
  | .phqry h d sel => some { Fields.zero .phqry h with d := d.bits, ext := (0#20 ++ sel) }
  | .oapp h d a ch => some { Fields.zero .oapp h with d := d.bits, a := a.bits, ext := (0#21 ++ ch) }
  | .odecl h ch => some { Fields.zero .odecl h with ext := (0#21 ++ ch) }
  | .dmqry h d => some { Fields.zero .dmqry h with d := d.bits }
  | .trap h n => some { Fields.zero .trap h with ext := (0#20 ++ n) }
  | .tret h => some (Fields.zero .tret h)
  | .trdc h clr d => some { Fields.zero .trdc h with d := d.bits, opx := (0#7 ++ (bbit clr)) }
  | .ppt h mode n => some { Fields.zero .ppt h with opx := (0#6 ++ ((mode : PptMode).bits)), ext := n }
  | .tlbinv h scope all a => some { Fields.zero .tlbinv h with a := a.bits, opx := (0#5 ++ scope), ext := (0#23 ++ (bbit all)) }
  | .dbg h mode a b code => some { Fields.zero .dbg h with a := a.bits, b := b.bits, opx := (0#6 ++ ((mode : DbgMode).bits)), ext := (0#8 ++ code) }
  | .unassignedOpcode _ => none
  | .placeWorkgroup _ => none
  | .carveChange _ => none
  | .carveChangeDone _ => none
  | .preemptSave _ => none
  | .resumeWorkgroup _ => none
  | .workgroupRetire _ => none
  | .xacqGrant _ => none
  | .sleepEnd _ _ => none
  | .waitkWake _ _ => none
  | .commandStart _ => none
  | .pieceLanded _ _ _ => none
  | .rowLanded _ _ _ => none
  | .gatherRowTimeout _ _ _ => none
  | .commandComplete _ _ => none
  | .replyBufferWrite _ _ _ => none
  | .engineComplete _ => none
  | .sequencerStep _ => none
  | .seqstWaitReturn _ _ => none
  | .aqredStep _ => none
  | .keyedApply _ => none
  | .gridComplete _ => none
  | .gscSend _ => none
  | .walkComplete _ _ => none
  | .streamEntry _ => none
  | .retransmit _ _ _ => none
  | .rarvDepart _ _ _ => none
  | .streamStall _ _ => none
  | .arrivalStall _ _ _ => none
  | .applyRadd _ _ _ => none
  | .applyRmin _ _ _ => none
  | .applyRmax _ _ _ => none
  | .applyRor _ _ _ => none
  | .applyContribution _ _ _ => none
  | .applyLineInit _ _ _ => none
  | .applyWriteOnce _ _ _ => none
  | .applyArrival _ _ _ => none
  | .serveReadRequest _ _ _ => none
  | .applyReply _ _ _ => none
  | .ackGroupReceived _ _ _ => none
  | .watchFire _ _ => none
  | .watchPoll _ _ => none
  | .waitcDeadline _ _ => none
  | .fenceComplete _ _ => none
  | .networkArrival _ => none
  | .balanceSweep _ => none
  | .actGrant _ _ => none
  | .loggedEvent _ _ => none
  | .logFull _ _ => none
  | .pptHoldExpiry _ _ => none
  | .launchPortWrite _ _ _ _ => none
  | .preqPreempt _ _ => none
  | .preqTerminate _ _ => none
  | .preqReserved _ _ => none
  | .biasFlipRequest _ _ => none
  | .biasForce _ _ => none
  | .reportRequest _ _ => none
  | .reportReady _ => none
  | .powerModeWrite _ _ => none
  | .modeSwitch _ => none
  | .powerCapWrite _ _ => none
  | .capClockStep _ _ => none
  | .armSwap _ _ => none
  | .tableSwap _ => none
  | .keyLoad _ => none
  | .keyZero _ => none
  | .laneEnable _ _ => none
  | .registerWrite _ _ _ => none
  | .slotStart _ => none
  | .flitReceived _ _ _ _ _ _ => none
  | .flowGap _ _ => none
  | .fecWindowEnd _ _ => none
  | .handoverRequest _ _ => none
  | .spareReady _ _ => none
  | .retrainDone _ _ => none
  | .hostAccess _ => none
  | .partitionFormed _ _ => none
  | .dieReset _ _ => none
  | .packageReset _ => none
  | .dramError _ _ => none
  | .flipComplete _ => none
  | .writeBackComplete _ _ _ => none
  | .rotationStart _ => none
  | .flitSend _ _ _ => none

/-- The instruction of fields; none where a modifier code names nothing. -/
def Fields.build (f : Fields) : Option Instr :=
  let h := f.hd
  match f.op with
  | .nop => some (.nop h)
  | .bra => some (.bra h f.opx f.ext)
  | .brx => some (.brx h (Opnd.ofBits f.a))
  | .call => some (.call h f.opx (Opnd.ofBits f.d) f.ext)
  | .ret => some (.ret h (Opnd.ofBits f.a))
  | .rjset => some (.rjset h (Opnd.ofBits f.d))
  | .rjwait => some (.rjwait h f.opx (Opnd.ofBits f.a))
  | .rjdrop => some (.rjdrop h (Opnd.ofBits f.d))
  | .exit => some (.exit h)
  | .yield => some (.yield h)
  | .prio => some (.prio h f.opx)
  | .bkt => some (.bkt h f.opx (Opnd.ofBits f.a) (Opnd.ofBits f.b))
  | .launch => some (.launch h (Opnd.ofBits f.d) (Opnd.ofBits f.a))
  | .waitk => some (.waitk h (Opnd.ofBits f.d) (Opnd.ofBits f.a) (Opnd.ofBits f.b))
  | .sleep => some (.sleep h f.ext)
  | .iadd => (Ty.ofBits f.ty).bind fun ty => some (.iadd h ty f.sat (Opnd.ofBits f.d) (Opnd.ofBits f.a) (Opnd.ofBits f.b))
  | .isub => (Ty.ofBits f.ty).bind fun ty => some (.isub h ty f.sat (Opnd.ofBits f.d) (Opnd.ofBits f.a) (Opnd.ofBits f.b))
  | .imul => (Ty.ofBits f.ty).bind fun ty => some (.imul h ty f.sat (Opnd.ofBits f.d) (Opnd.ofBits f.a) (Opnd.ofBits f.b))
  | .imulh => (Ty.ofBits f.ty).bind fun ty => some (.imulh h ty (Opnd.ofBits f.d) (Opnd.ofBits f.a) (Opnd.ofBits f.b))
  | .imad => (Ty.ofBits f.ty).bind fun ty => some (.imad h ty f.sat (Opnd.ofBits f.d) (Opnd.ofBits f.a) (Opnd.ofBits f.b) (Opnd.ofBits (f.ext.extractLsb' 0 11)))
  | .imadw => (Ty.ofBits f.ty).bind fun ty => some (.imadw h ty (Opnd.ofBits f.d) (Opnd.ofBits f.a) (Opnd.ofBits f.b) (Opnd.ofBits (f.ext.extractLsb' 0 11)))
  | .idiv => (Ty.ofBits f.ty).bind fun ty => some (.idiv h ty f.sat (Opnd.ofBits f.d) (Opnd.ofBits f.a) (Opnd.ofBits f.b))
  | .irem => (Ty.ofBits f.ty).bind fun ty => some (.irem h ty (Opnd.ofBits f.d) (Opnd.ofBits f.a) (Opnd.ofBits f.b))
  | .imin => (Ty.ofBits f.ty).bind fun ty => some (.imin h ty (Opnd.ofBits f.d) (Opnd.ofBits f.a) (Opnd.ofBits f.b))
  | .imax => (Ty.ofBits f.ty).bind fun ty => some (.imax h ty (Opnd.ofBits f.d) (Opnd.ofBits f.a) (Opnd.ofBits f.b))
  | .iabs => (Ty.ofBits f.ty).bind fun ty => some (.iabs h ty f.sat (Opnd.ofBits f.d) (Opnd.ofBits f.a))
  | .ineg => (Ty.ofBits f.ty).bind fun ty => some (.ineg h ty f.sat (Opnd.ofBits f.d) (Opnd.ofBits f.a))
  | .and => (Ty.ofBits f.ty).bind fun ty => some (.and h ty (Opnd.ofBits f.d) (Opnd.ofBits f.a) (Opnd.ofBits f.b))
  | .or => (Ty.ofBits f.ty).bind fun ty => some (.or h ty (Opnd.ofBits f.d) (Opnd.ofBits f.a) (Opnd.ofBits f.b))
  | .xor => (Ty.ofBits f.ty).bind fun ty => some (.xor h ty (Opnd.ofBits f.d) (Opnd.ofBits f.a) (Opnd.ofBits f.b))
  | .not => (Ty.ofBits f.ty).bind fun ty => some (.not h ty (Opnd.ofBits f.d) (Opnd.ofBits f.a))
  | .bool3 => (Ty.ofBits f.ty).bind fun ty => some (.bool3 h f.opx ty (Opnd.ofBits f.d) (Opnd.ofBits f.a) (Opnd.ofBits f.b) (Opnd.ofBits (f.ext.extractLsb' 0 11)))
  | .shl => (Ty.ofBits f.ty).bind fun ty => some (.shl h ty (Opnd.ofBits f.d) (Opnd.ofBits f.a) (Opnd.ofBits f.b))
  | .shr => (Ty.ofBits f.ty).bind fun ty => some (.shr h ty (Opnd.ofBits f.d) (Opnd.ofBits f.a) (Opnd.ofBits f.b))
  | .sar => (Ty.ofBits f.ty).bind fun ty => some (.sar h ty (Opnd.ofBits f.d) (Opnd.ofBits f.a) (Opnd.ofBits f.b))
  | .rot => (Ty.ofBits f.ty).bind fun ty => some (.rot h ty (Opnd.ofBits f.d) (Opnd.ofBits f.a) (Opnd.ofBits f.b))
  | .popc => (Ty.ofBits f.ty).bind fun ty => some (.popc h ty (Opnd.ofBits f.d) (Opnd.ofBits f.a))
  | .clz => (Ty.ofBits f.ty).bind fun ty => some (.clz h ty (Opnd.ofBits f.d) (Opnd.ofBits f.a))
  | .ctz => (Ty.ofBits f.ty).bind fun ty => some (.ctz h ty (Opnd.ofBits f.d) (Opnd.ofBits f.a))
  | .brev => (Ty.ofBits f.ty).bind fun ty => some (.brev h ty (Opnd.ofBits f.d) (Opnd.ofBits f.a))
  | .bfe => (Ty.ofBits f.ty).bind fun ty => some (.bfe h ty (Opnd.ofBits f.d) (Opnd.ofBits f.a) (Opnd.ofBits f.b))
  | .bfi => (Ty.ofBits f.ty).bind fun ty => some (.bfi h ty (Opnd.ofBits f.d) (Opnd.ofBits f.a) (Opnd.ofBits f.b) (Opnd.ofBits (f.ext.extractLsb' 0 11)))
  | .iset => (ICmp.ofBits (f.opx.extractLsb' 0 3)).bind fun cmp => (Ty.ofBits f.ty).bind fun ty => some (.iset h cmp ty (Opnd.ofBits f.d) (Opnd.ofBits f.a) (Opnd.ofBits f.b))
  | .isel => (Ty.ofBits f.ty).bind fun ty => some (.isel h ty (Opnd.ofBits f.d) (Opnd.ofBits f.a) (Opnd.ofBits f.b) (Opnd.ofBits (f.ext.extractLsb' 0 11)))
  | .lea => (Ty.ofBits f.ty).bind fun ty => some (.lea h (f.opx.extractLsb' 0 3) ty (Opnd.ofBits f.d) (Opnd.ofBits f.a) (Opnd.ofBits f.b))
  | .addc => (Ty.ofBits f.ty).bind fun ty => some (.addc h (f.opx.extractLsb' 0 3) ty (Opnd.ofBits f.d) (Opnd.ofBits f.a) (Opnd.ofBits f.b) (Opnd.ofBits (f.ext.extractLsb' 0 11)))
  | .subb => (Ty.ofBits f.ty).bind fun ty => some (.subb h (f.opx.extractLsb' 0 3) ty (Opnd.ofBits f.d) (Opnd.ofBits f.a) (Opnd.ofBits f.b) (Opnd.ofBits (f.ext.extractLsb' 0 11)))
  | .plop => some (.plop h f.opx (Opnd.ofBits f.d) (Opnd.ofBits f.a) (Opnd.ofBits f.b) (Opnd.ofBits (f.ext.extractLsb' 0 11)))
  | .mov => (Ty.ofBits f.ty).bind fun ty => some (.mov h ty (Opnd.ofBits f.d) (Opnd.ofBits f.a))
  | .movi => (Ty.ofBits f.ty).bind fun ty => some (.movi h ty (Opnd.ofBits f.d) f.ext)
  | .movh => (Ty.ofBits f.ty).bind fun ty => some (.movh h (f.opx.extractLsb' 0 2) ty (Opnd.ofBits f.d) (Opnd.ofBits f.a) (f.ext.extractLsb' 0 16))
  | .shfl => (ShflMode.ofBits (f.opx.extractLsb' 0 2)).bind fun mode => (Ty.ofBits f.ty).bind fun ty => some (.shfl h mode (f.opx.extractLsb' 2 3) ty (Opnd.ofBits f.d) (Opnd.ofBits f.a) (Opnd.ofBits f.b))
  | .vote => (VoteMode.ofBits (f.opx.extractLsb' 0 3)).bind fun mode => some (.vote h mode (Opnd.ofBits f.d) (Opnd.ofBits f.a))
  | .bcast => (Ty.ofBits f.ty).bind fun ty => some (.bcast h (f.opx.getLsbD 0) ty (Opnd.ofBits f.d) (Opnd.ofBits f.a) (Opnd.ofBits f.b))
  | .rdsr => some (.rdsr h (Opnd.ofBits f.d) (f.ext.extractLsb' 0 12))
  | .wrsr => some (.wrsr h (Opnd.ofBits f.a) (f.ext.extractLsb' 0 12))
  | .xacq => some (.xacq h f.ext)
  | .xrel => some (.xrel h)
  | .xtry => some (.xtry h (Opnd.ofBits f.d) f.ext)
  | .pmov => some (.pmov h (f.opx.getLsbD 0) (f.opx.extractLsb' 1 7) (Opnd.ofBits f.d) (Opnd.ofBits f.a))
  | .kmov => some (.kmov h (Opnd.ofBits f.d) (Opnd.ofBits f.a))
  | .fadd => (Ty.ofBits f.ty).bind fun ty => some (.fadd h (Rnd.ofBits f.dyn f.rnd) ty f.sat (Opnd.ofBits f.d) (Opnd.ofBits f.a) (Opnd.ofBits f.b))
  | .fsub => (Ty.ofBits f.ty).bind fun ty => some (.fsub h (Rnd.ofBits f.dyn f.rnd) ty f.sat (Opnd.ofBits f.d) (Opnd.ofBits f.a) (Opnd.ofBits f.b))
  | .fmul => (Ty.ofBits f.ty).bind fun ty => some (.fmul h (Rnd.ofBits f.dyn f.rnd) ty f.sat (Opnd.ofBits f.d) (Opnd.ofBits f.a) (Opnd.ofBits f.b))
  | .ffma => (Ty.ofBits f.ty).bind fun ty => some (.ffma h (Rnd.ofBits f.dyn f.rnd) ty f.sat (Opnd.ofBits f.d) (Opnd.ofBits f.a) (Opnd.ofBits f.b) (Opnd.ofBits (f.ext.extractLsb' 0 11)))
  | .fmin => (Ty.ofBits f.ty).bind fun ty => some (.fmin h (f.opx.getLsbD 0) ty (Opnd.ofBits f.d) (Opnd.ofBits f.a) (Opnd.ofBits f.b))
  | .fmax => (Ty.ofBits f.ty).bind fun ty => some (.fmax h (f.opx.getLsbD 0) ty (Opnd.ofBits f.d) (Opnd.ofBits f.a) (Opnd.ofBits f.b))
  | .fabs => (Ty.ofBits f.ty).bind fun ty => some (.fabs h ty (Opnd.ofBits f.d) (Opnd.ofBits f.a))
  | .fneg => (Ty.ofBits f.ty).bind fun ty => some (.fneg h ty (Opnd.ofBits f.d) (Opnd.ofBits f.a))
  | .fcpys => (Ty.ofBits f.ty).bind fun ty => some (.fcpys h ty (Opnd.ofBits f.d) (Opnd.ofBits f.a) (Opnd.ofBits f.b))
  | .fdiv => (Ty.ofBits f.ty).bind fun ty => some (.fdiv h (Rnd.ofBits f.dyn f.rnd) ty f.sat (Opnd.ofBits f.d) (Opnd.ofBits f.a) (Opnd.ofBits f.b))
  | .fsqrt => (Ty.ofBits f.ty).bind fun ty => some (.fsqrt h (Rnd.ofBits f.dyn f.rnd) ty (Opnd.ofBits f.d) (Opnd.ofBits f.a))
  | .frcp => (Ty.ofBits f.ty).bind fun ty => some (.frcp h ty f.sat (Opnd.ofBits f.d) (Opnd.ofBits f.a))
  | .frsq => (Ty.ofBits f.ty).bind fun ty => some (.frsq h ty (Opnd.ofBits f.d) (Opnd.ofBits f.a))
  | .fexp2 => (Ty.ofBits f.ty).bind fun ty => some (.fexp2 h ty f.sat (Opnd.ofBits f.d) (Opnd.ofBits f.a))
  | .flog2 => (Ty.ofBits f.ty).bind fun ty => some (.flog2 h ty (Opnd.ofBits f.d) (Opnd.ofBits f.a))
  | .fsin => (Ty.ofBits f.ty).bind fun ty => some (.fsin h ty (Opnd.ofBits f.d) (Opnd.ofBits f.a))
  | .fcos => (Ty.ofBits f.ty).bind fun ty => some (.fcos h ty (Opnd.ofBits f.d) (Opnd.ofBits f.a))
  | .fset => (FCmp.ofBits (f.opx.extractLsb' 0 3)).bind fun cmp => (Ty.ofBits f.ty).bind fun ty => some (.fset h cmp ty (Opnd.ofBits f.d) (Opnd.ofBits f.a) (Opnd.ofBits f.b))
  | .fclass => (Ty.ofBits f.ty).bind fun ty => some (.fclass h ty (Opnd.ofBits f.d) (Opnd.ofBits f.a))
  | .fscale => (Ty.ofBits f.ty).bind fun ty => some (.fscale h (Rnd.ofBits f.dyn f.rnd) ty f.sat (Opnd.ofBits f.d) (Opnd.ofBits f.a) (Opnd.ofBits f.b))
  | .frnd => (Ty.ofBits f.ty).bind fun ty => some (.frnd h (f.opx.getLsbD 0) (Rnd.ofBits f.dyn f.rnd) ty (Opnd.ofBits f.d) (Opnd.ofBits f.a))
  | .fdot2 => (Ty.ofBits f.ty).bind fun ty => some (.fdot2 h (Rnd.ofBits f.dyn f.rnd) ty f.sat (Opnd.ofBits f.d) (Opnd.ofBits f.a) (Opnd.ofBits f.b) (Opnd.ofBits (f.ext.extractLsb' 0 11)))
  | .cvt => (Ty.ofBits (f.opx.extractLsb' 0 4)).bind fun src => (Ty.ofBits f.ty).bind fun ty => some (.cvt h src (Rnd.ofBits f.dyn f.rnd) ty f.sat (Opnd.ofBits f.d) (Opnd.ofBits f.a))
  | .cvtb8 => (Ty.ofBits (f.opx.extractLsb' 3 4)).bind fun wide => some (.cvtb8 h (f.opx.getLsbD 0) (f.opx.getLsbD 1) (f.opx.getLsbD 2) wide (f.ext.extractLsb' 11 5) (Rnd.ofBits f.dyn f.rnd) f.sat (Opnd.ofBits f.d) (Opnd.ofBits f.a) (Opnd.ofBits f.b))
  | .mxq => (Ty.ofBits (f.opx.extractLsb' 3 4)).bind fun src => some (.mxq h (f.opx.getLsbD 2) src (f.ext.extractLsb' 11 5) (Rnd.ofBits f.dyn f.rnd) (Opnd.ofBits f.d) (Opnd.ofBits f.a))
  | .mxd => (Ty.ofBits (f.opx.extractLsb' 3 4)).bind fun out => some (.mxd h out (f.ext.extractLsb' 11 5) (Rnd.ofBits f.dyn f.rnd) f.sat (Opnd.ofBits f.d) (Opnd.ofBits f.a) (Opnd.ofBits f.b))
  | .amax => (Ty.ofBits f.ty).bind fun ty => some (.amax h ty (Opnd.ofBits f.d) (Opnd.ofBits f.a) (Opnd.ofBits f.b))
  | .rng => (Ty.ofBits f.ty).bind fun ty => some (.rng h ty (Opnd.ofBits f.d))
  | .rngkey => some (.rngkey h (f.opx.getLsbD 0) (Opnd.ofBits f.d) (Opnd.ofBits f.a) (Opnd.ofBits f.b))
  | .flgrd => some (.flgrd h (f.opx.getLsbD 0) (Opnd.ofBits f.d))
  | .flgclr => some (.flgclr h (Opnd.ofBits f.a))
  | .flgen => (FlgMode.ofBits (f.opx.extractLsb' 0 2)).bind fun mode => some (.flgen h mode (Opnd.ofBits f.a))
  | .frmset => some (.frmset h (Opnd.ofBits f.d) (Opnd.ofBits f.a))
  | .fxcvt => (Ty.ofBits f.ty).bind fun ty => some (.fxcvt h (f.opx.getLsbD 0) ty f.sat (Opnd.ofBits f.d) (Opnd.ofBits f.a) (Opnd.ofBits f.b) f.ext)
  | .ldl => (Mm.ofBits f.opx).bind fun mm => (Ty.ofBits f.ty).bind fun ty => some (.ldl h mm ty (Opnd.ofBits f.d) (Opnd.ofBits f.a) (Opnd.ofBits f.b) f.ext)
  | .stl => (Mm.ofBits f.opx).bind fun mm => (Ty.ofBits f.ty).bind fun ty => some (.stl h mm ty (Opnd.ofBits f.d) (Opnd.ofBits f.a) (Opnd.ofBits f.b) f.ext)
  | .ldg => (Mm.ofBits f.opx).bind fun mm => (Ty.ofBits f.ty).bind fun ty => some (.ldg h mm ty (Opnd.ofBits f.d) (Opnd.ofBits f.a) (Opnd.ofBits f.b) f.ext)
  | .stg => (Mm.ofBits f.opx).bind fun mm => (Ty.ofBits f.ty).bind fun ty => some (.stg h mm ty (Opnd.ofBits f.d) (Opnd.ofBits f.a) (Opnd.ofBits f.b) f.ext)
  | .atl => (Mm.ofBits f.opx).bind fun mm => (AtomOp.ofBits (f.ext.extractLsb' 11 4)).bind fun op => (Ty.ofBits f.ty).bind fun ty => some (.atl h mm op (f.ext.getLsbD 15) ty (Opnd.ofBits f.d) (Opnd.ofBits f.a) (Opnd.ofBits f.b) (Opnd.ofBits (f.ext.extractLsb' 0 11)))
  | .atg => (Mm.ofBits f.opx).bind fun mm => (AtomOp.ofBits (f.ext.extractLsb' 11 4)).bind fun op => (Ty.ofBits f.ty).bind fun ty => some (.atg h mm op (f.ext.getLsbD 15) ty (Opnd.ofBits f.d) (Opnd.ofBits f.a) (Opnd.ofBits f.b) (Opnd.ofBits (f.ext.extractLsb' 0 11)))
  | .stash => some (.stash h (f.ext.extractLsb' 11 2) (Opnd.ofBits f.a) (Opnd.ofBits f.b) (Opnd.ofBits (f.ext.extractLsb' 0 11)))
  | .stfl => some (.stfl h (f.ext.getLsbD 2) (f.ext.extractLsb' 0 2))
  | .stinv => some (.stinv h (f.ext.getLsbD 2) (f.ext.extractLsb' 0 2))
  | .l1inv => some (.l1inv h)
  | .pref => some (.pref h (Opnd.ofBits f.a) (Opnd.ofBits f.b) f.ext)
  | .seal => (RecKind.ofBits (f.opx.extractLsb' 0 3)).bind fun kind => some (.seal h kind (Opnd.ofBits f.d) (Opnd.ofBits f.a) (Opnd.ofBits f.b) f.ext)
  | .unseal => some (.unseal h (Opnd.ofBits f.a))
  | .hqry => some (.hqry h (f.ext.getLsbD 6) (Opnd.ofBits f.d) (Opnd.ofBits f.a) (f.ext.extractLsb' 0 6))
  | .cpy => (CpyDir.ofBits (f.ext.extractLsb' 11 2)).bind fun dir => some (.cpy h dir (f.ext.extractLsb' 13 3) (Start.ofBits (f.ext.extractLsb' 16 5)) (Opnd.ofBits f.d) (Opnd.ofBits f.a) (Opnd.ofBits f.b) (Opnd.ofBits (f.ext.extractLsb' 0 11)))
  | .gath => some (.gath h (f.ext.getLsbD 11) (f.ext.getLsbD 12) (f.ext.extractLsb' 13 3) (Start.ofBits (f.ext.extractLsb' 16 5)) (Opnd.ofBits f.d) (Opnd.ofBits f.a) (Opnd.ofBits f.b) (Opnd.ofBits (f.ext.extractLsb' 0 11)))
  | .scat => some (.scat h (f.ext.getLsbD 11) (f.ext.getLsbD 12) (f.ext.extractLsb' 13 3) (Start.ofBits (f.ext.extractLsb' 16 5)) (Opnd.ofBits f.d) (Opnd.ofBits f.a) (Opnd.ofBits f.b) (Opnd.ofBits (f.ext.extractLsb' 0 11)))
  | .binit => some (.binit h (Opnd.ofBits f.a) (Opnd.ofBits f.b))
  | .barv => some (.barv h (f.ext.getLsbD 11) (Opnd.ofBits f.d) (Opnd.ofBits f.a) (Opnd.ofBits f.b) (Opnd.ofBits (f.ext.extractLsb' 0 11)))
  | .bexp => some (.bexp h (Opnd.ofBits f.d) (Opnd.ofBits f.a) (Opnd.ofBits f.b))
  | .bwait => some (.bwait h (Opnd.ofBits f.d) (Opnd.ofBits f.a) (Opnd.ofBits f.b) (Opnd.ofBits (f.ext.extractLsb' 0 11)))
  | .btest => some (.btest h (f.opx.getLsbD 0) (Opnd.ofBits f.d) (Opnd.ofBits f.a) (Opnd.ofBits f.b))
  | .evmset => (EvSet.ofBits (f.opx.extractLsb' 0 2)).bind fun mode => some (.evmset h mode (Opnd.ofBits f.d) (Opnd.ofBits f.a) (Opnd.ofBits f.b))
  | .evmclr => (EvClr.ofBits (f.opx.extractLsb' 0 2)).bind fun mode => some (.evmclr h mode (Opnd.ofBits f.a) (Opnd.ofBits f.b))
  | .cpyq => some (.cpyq h (f.opx.getLsbD 0) (Opnd.ofBits f.d) (Opnd.ofBits f.a))
  | .cpyk => some (.cpyk h (Opnd.ofBits f.d) (Opnd.ofBits f.a))
  | .tcfg => some (.tcfg h (Opnd.ofBits f.d) (Opnd.ofBits f.a))
  | .tld => (TrMode.ofBits (f.opx.extractLsb' 0 2)).bind fun tr => some (.tld h tr (Opnd.ofBits f.d) (Opnd.ofBits f.a) (Opnd.ofBits f.b) f.ext)
  | .tst => some (.tst h (Opnd.ofBits f.d) (Opnd.ofBits f.a) (Opnd.ofBits f.b) f.ext)
  | .tzero => some (.tzero h (Opnd.ofBits f.d))
  | .mma => (Ty.ofBits f.ty).bind fun ty => some (.mma h (f.opx.getLsbD 0) (f.ext.extractLsb' 16 5) (f.ext.extractLsb' 11 5) ty (Opnd.ofBits f.d) (Opnd.ofBits f.a) (Opnd.ofBits f.b))
  | .mmasp => (SpPat.ofBits (f.opx.extractLsb' 1 2)).bind fun pat => (Ty.ofBits f.ty).bind fun ty => some (.mmasp h (f.opx.getLsbD 0) pat (f.ext.extractLsb' 16 5) (f.ext.extractLsb' 11 5) ty (Opnd.ofBits f.d) (Opnd.ofBits f.a) (Opnd.ofBits f.b) (Opnd.ofBits (f.ext.extractLsb' 0 11)))
  | .mmseq => (Ty.ofBits f.ty).bind fun ty => some (.mmseq h (f.opx.getLsbD 0) (Start.ofBits (f.opx.extractLsb' 3 5)) (f.ext.extractLsb' 16 5) (f.ext.extractLsb' 11 5) ty (Opnd.ofBits f.d) (Opnd.ofBits f.a) (Opnd.ofBits f.b))
  | .seqst => some (.seqst h (f.opx.getLsbD 0) (f.opx.getLsbD 1) (Opnd.ofBits f.d))
  | .tmov => (TmDir.ofBits (f.opx.extractLsb' 0 2)).bind fun dir => some (.tmov h dir (Opnd.ofBits f.d) (Opnd.ofBits f.a) (Opnd.ofBits f.b))
  | .tqry => some (.tqry h (f.opx.getLsbD 0) (Opnd.ofBits f.d) (Opnd.ofBits f.a))
  | .ald => some (.ald h (f.opx.extractLsb' 0 3) (Opnd.ofBits f.d) (Opnd.ofBits f.a) (Opnd.ofBits f.b))
  | .ast => (Ty.ofBits f.ty).bind fun ty => some (.ast h (f.opx.extractLsb' 0 3) ty (Opnd.ofBits f.d) (Opnd.ofBits f.a) (Opnd.ofBits f.b))
  | .azero => some (.azero h (Opnd.ofBits f.d))
  | .adrn => (Ty.ofBits f.ty).bind fun ty => some (.adrn h (f.opx.getLsbD 0) (f.ext.extractLsb' 11 5) (Rnd.ofBits f.dyn f.rnd) ty f.sat (Opnd.ofBits f.a) (Opnd.ofBits f.b))
  | .adru => (UpdRule.ofBits (f.opx.extractLsb' 0 2)).bind fun rule => (Ty.ofBits f.ty).bind fun ty => some (.adru h rule (f.opx.getLsbD 2) (f.opx.getLsbD 3) ty f.sat (Opnd.ofBits f.a) (Opnd.ofBits f.b) (Opnd.ofBits (f.ext.extractLsb' 0 11)))
  | .asca => some (.asca h (f.opx.getLsbD 0) (Opnd.ofBits f.d) (Opnd.ofBits f.a) (Opnd.ofBits f.b))
  | .aqred => (Ty.ofBits f.ty).bind fun ty => some (.aqred h (f.opx.getLsbD 0) (f.opx.getLsbD 1) (f.ext.extractLsb' 11 5) (Rnd.ofBits f.dyn f.rnd) ty f.sat (Opnd.ofBits f.a) (Opnd.ofBits f.b) (Opnd.ofBits (f.ext.extractLsb' 0 11)))
  | .split => some (.split h (f.opx.extractLsb' 0 4) (f.opx.getLsbD 4) (Opnd.ofBits f.d) (Opnd.ofBits f.a) (Opnd.ofBits f.b))
  | .recomb => some (.recomb h (f.opx.extractLsb' 0 4) (f.opx.extractLsb' 4 3) (Opnd.ofBits f.d) (Opnd.ofBits f.a) (Opnd.ofBits f.b))
  | .acqry => some (.acqry h (Opnd.ofBits f.d) (Opnd.ofBits f.a))
  | .kclaim => (KeyKind.ofBits (f.opx.extractLsb' 0 3)).bind fun kind => some (.kclaim h kind (f.opx.extractLsb' 3 3) (Opnd.ofBits f.d) (Opnd.ofBits f.a) (Opnd.ofBits f.b) (f.ext.extractLsb' 0 12))
  | .kfree => some (.kfree h)
  | .kins => some (.kins h (Opnd.ofBits f.d) (Opnd.ofBits f.a) (Opnd.ofBits f.b))
  | .kprb => some (.kprb h (Opnd.ofBits f.d) (Opnd.ofBits f.a) (Opnd.ofBits (f.ext.extractLsb' 0 11)))
  | .kdel => some (.kdel h (Opnd.ofBits f.d) (Opnd.ofBits f.a))
  | .kacc => (Ty.ofBits f.ty).bind fun ty => some (.kacc h ty (Opnd.ofBits f.a) (Opnd.ofBits f.b))
  | .kdrn => some (.kdrn h (f.opx.getLsbD 0) (Opnd.ofBits f.d) (Opnd.ofBits f.a) (Opnd.ofBits f.b))
  | .kstat => some (.kstat h (f.opx.getLsbD 0) (Opnd.ofBits f.d))
  | .gld => some (.gld h f.sat (Opnd.ofBits f.d) (Opnd.ofBits f.a) (Opnd.ofBits f.b))
  | .gsc => some (.gsc h (f.ext.extractLsb' 11 8) f.sat (Opnd.ofBits f.a) (Opnd.ofBits f.b) (Opnd.ofBits (f.ext.extractLsb' 0 11)))
  | .gidx => some (.gidx h (f.ext.getLsbD 5) (Opnd.ofBits f.d) (Opnd.ofBits f.a) (Opnd.ofBits f.b) (f.ext.extractLsb' 0 5))
  | .gqry => some (.gqry h (Opnd.ofBits f.d) (Opnd.ofBits f.a) (f.ext.extractLsb' 0 6))
  | .fence => (Mm.ofBits f.opx).bind fun mm => some (.fence h mm (f.ext.getLsbD 2) (f.ext.getLsbD 1) (f.ext.getLsbD 0))
  | .bflip => some (.bflip h (f.ext.getLsbD 0) (Opnd.ofBits f.d) (Opnd.ofBits f.a))
  | .bqry => some (.bqry h (Opnd.ofBits f.d) (Opnd.ofBits f.a))
  | .radd => (Ty.ofBits f.ty).bind fun ty => some (.radd h (f.opx.getLsbD 6) ty (Opnd.ofBits f.d) (Opnd.ofBits f.a) (Opnd.ofBits f.b) f.ext)
  | .rfxa => (Ty.ofBits f.ty).bind fun ty => some (.rfxa h (f.opx.getLsbD 6) (f.ext.getLsbD 17) (f.ext.getLsbD 16) (f.ext.extractLsb' 11 5) ty (Opnd.ofBits f.d) (Opnd.ofBits f.a) (Opnd.ofBits f.b) (Opnd.ofBits (f.ext.extractLsb' 0 11)))
  | .rmin => (Ty.ofBits f.ty).bind fun ty => some (.rmin h (f.opx.getLsbD 6) ty (Opnd.ofBits f.d) (Opnd.ofBits f.a) (Opnd.ofBits f.b) f.ext)
  | .rmax => (Ty.ofBits f.ty).bind fun ty => some (.rmax h (f.opx.getLsbD 6) ty (Opnd.ofBits f.d) (Opnd.ofBits f.a) (Opnd.ofBits f.b) f.ext)
  | .ror => (Ty.ofBits f.ty).bind fun ty => some (.ror h (f.opx.getLsbD 6) ty (Opnd.ofBits f.d) (Opnd.ofBits f.a) (Opnd.ofBits f.b) f.ext)
  | .rwo => (Ty.ofBits f.ty).bind fun ty => some (.rwo h (f.opx.getLsbD 6) ty (Opnd.ofBits f.d) (Opnd.ofBits f.a) (Opnd.ofBits f.b) f.ext)
  | .rarv => (Ty.ofBits f.ty).bind fun ty => some (.rarv h ty (Opnd.ofBits f.d) (Opnd.ofBits f.a) (Opnd.ofBits f.b) f.ext)
  | .rreq => some (.rreq h (f.ext.getLsbD 15) (f.ext.extractLsb' 11 4) (Opnd.ofBits f.d) (Opnd.ofBits f.a) (Opnd.ofBits f.b))
  | .waitc => some (.waitc h (Opnd.ofBits f.d) (Opnd.ofBits f.a) (Opnd.ofBits f.b) (Opnd.ofBits (f.ext.extractLsb' 0 11)))
  | .hbar => (Mm.ofBits f.opx).bind fun mm => some (.hbar h mm (Opnd.ofBits f.d) (Opnd.ofBits f.a) (f.ext.extractLsb' 0 4))
  | .phase => some (.phase h (Opnd.ofBits f.d) (Opnd.ofBits f.a))
  | .phqry => some (.phqry h (Opnd.ofBits f.d) (f.ext.extractLsb' 0 4))
  | .oapp => some (.oapp h (Opnd.ofBits f.d) (Opnd.ofBits f.a) (f.ext.extractLsb' 0 3))
  | .odecl => some (.odecl h (f.ext.extractLsb' 0 3))
  | .dmqry => some (.dmqry h (Opnd.ofBits f.d))
  | .trap => some (.trap h (f.ext.extractLsb' 0 4))
  | .tret => some (.tret h)
  | .trdc => some (.trdc h (f.opx.getLsbD 0) (Opnd.ofBits f.d))
  | .ppt => (PptMode.ofBits (f.opx.extractLsb' 0 2)).bind fun mode => some (.ppt h mode f.ext)
  | .tlbinv => some (.tlbinv h (f.opx.extractLsb' 0 3) (f.ext.getLsbD 0) (Opnd.ofBits f.a))
  | .dbg => (DbgMode.ofBits (f.opx.extractLsb' 0 2)).bind fun mode => some (.dbg h mode (Opnd.ofBits f.a) (Opnd.ofBits f.b) (f.ext.extractLsb' 0 16))

/-! ### The checks of a word (R68, steps 2 to 6) -/

/-- Causes of the issue checks that a word alone decides. -/
inductive Ill
  | rsv | guard | cls | type | mod
  deriving DecidableEq, Repr

/-- How an instruction treats `RND` and `DYN`: uses them (R32), ignores them (its result is exact), or wants zeros. -/
inductive RndUse
  | use | ignored | zero
  deriving DecidableEq, Repr

/-- What an instruction's encoding row allows. Class sets have bit c for class c; the empty set means the field must be zero. -/
structure Shape where
  d : BitVec 8 := 0
  a : BitVec 8 := 0
  b : BitVec 8 := 0
  c : BitVec 8 := 0
  /-- bits of `EXT` above or beside operand C that may be nonzero -/
  ext : BitVec 24 := 0
  /-- allowed type codes; the empty set means `TYPE` is a reserved field -/
  types : BitVec 16 := 0
  rnd : RndUse := .zero
  sat : Bool := false
  opx : BitVec 8 := 0
  /-- a refused `OPX` traps with ILL_MOD and not with ILL_RSV -/
  opxMod : Bool := false
  /-- `SCH.CAP` may be set -/
  cap : Bool := false
  warpWide : Bool := false
  /-- operand positions that hold an even pair: D, A, B, C from bit 0 up -/
  pair : BitVec 4 := 0
  /-- D (bit 0) and C (bit 3) are written: p7 is refused there -/
  wr : BitVec 4 := 0
  /-- the destination rule of R130: an s destination needs sources that are not v or b -/
  uniform : Bool := false

/-- Class sets. -/
def cV : BitVec 8 := 1#8
def cS : BitVec 8 := 2#8
def cP : BitVec 8 := 4#8
def cK : BitVec 8 := 8#8
def cT : BitVec 8 := 16#8
def cA : BitVec 8 := 32#8
def cB : BitVec 8 := 64#8
def cI : BitVec 8 := 128#8
/-- v, s, b or short immediate (R130). -/
def cSrc : BitVec 8 := 195#8
/-- v or s. -/
def cVS : BitVec 8 := 3#8
/-- s or short immediate. -/
def cSI : BitVec 8 := 130#8
/-- v, s or short immediate. -/
def cVSI : BitVec 8 := 131#8

/-- A type code that is 64 bits wide (R63). -/
def wide64 (ty : BitVec 4) : Bool := ty == 2#4 || ty == 3#4 || ty == 5#4

/-- A set of operand positions from four Bools. -/
def pos4 (d a b c : Bool) : BitVec 4 := bbit c ++ (bbit b ++ (bbit a ++ bbit d))

/-- A short immediate 0, `#0` (R60). -/
def opndZero : BitVec 11 := 0x700#11

/-- A binary8 format code that names a format (R35). -/
def fmtOk (c : BitVec 5) : Bool := c.getLsbD 4 || (c.extractLsb' 0 3 != 7#3)

/-- A two-source integer row. -/
def shInt2 (types : BitVec 16) (sat : Bool) (pair : BitVec 4) : Shape :=
  { d := cVS, a := cSrc, b := cSrc, types := types, rnd := .ignored, sat := sat, cap := true, pair := pair, wr := 1, uniform := true }

/-- A one-source integer row. -/
def shInt1 (types : BitVec 16) (sat : Bool) (pair : BitVec 4) : Shape := { shInt2 types sat pair with b := 0 }

/-- A three-source integer row. -/
def shInt3 (types : BitVec 16) (sat : Bool) (pair : BitVec 4) : Shape := { shInt2 types sat pair with c := cSrc }

/-- A floating-point row with one, two or three sources. -/
def shFp (n : Nat) (types : BitVec 16) (rnd : RndUse) (sat : Bool) (opx : BitVec 8) (ty : BitVec 4) : Shape :=
  let w := ty == 5#4
  { d := cVS, a := cSrc, b := if n ≥ 2 then cSrc else 0, c := if n ≥ 3 then cSrc else 0, types := types, rnd := rnd, sat := sat,
    opx := opx, cap := true, pair := pos4 w w (w && n ≥ 2) (w && n ≥ 3), wr := 1, uniform := true }

/-- The encoding row of each instruction (R103, R133, R141, R156, R167, R199, R216, R235, R256, R274, R304, R324, R348, R377, R429, R451). No
memory operand's index is a latch, `FXCVT`'s no more than the LOC group's (L86). -/
def shape (f : Fields) : Shape :=
  let w := wide64 f.ty
  let t13 := f.ty == 13#4
  let x (n : Nat) : Bool := f.opx.getLsbD n
  let e (n : Nat) : Bool := f.ext.getLsbD n
  match f.op with
  -- CTL
  | .nop | .exit | .yield => {}
  | .bra => { ext := 0xFFFFFF, opx := 0xFF }
  | .brx | .ret => { a := cVS, pair := 2 }
  | .call => { d := cVS, ext := 0xFFFFFF, opx := 0xFF, pair := 1, wr := 1 }
  | .rjset | .rjdrop => { d := cK, wr := 1 }
  | .rjwait => { a := cK, opx := 0xFF }
  | .prio => { opx := 0xFF }
  | .bkt => { a := cS, b := cVS, opx := 0xFF, warpWide := true }
  | .launch => { d := cS, a := cS, wr := 1 }
  | .waitk => { d := cS, a := cS, b := cSI, pair := 1, wr := 1 }
  | .sleep => { ext := 0xFFFFFF }
  -- INT
  | .iadd | .isub => shInt2 0x530F true (pos4 w w w false)
  | .imul => shInt2 0x030F true (pos4 w w w false)
  | .imulh | .irem => shInt2 0x000F false (pos4 w w w false)
  | .imad => shInt3 0x000F true (pos4 w w w w)
  | .imadw => shInt3 0x0003 false (pos4 true false false true)
  | .idiv => shInt2 0x000F true (pos4 w w w false)
  | .imin | .imax => shInt2 0x530F false (pos4 w w w false)
  | .iabs | .ineg => shInt1 0x5105 true (pos4 w w false false)
  | .and | .or | .xor => shInt2 0x000F false (pos4 w w w false)
  | .not => shInt1 0x000F false (pos4 w w false false)
  | .bool3 => { shInt3 0x000F false (pos4 w w w w) with opx := 0xFF }
  | .shl | .shr | .rot => shInt2 0x000F false (pos4 w w false false)
  | .sar => shInt2 0x0005 false (pos4 w w false false)
  | .popc | .clz | .ctz => shInt1 0x000F false (pos4 false w false false)
  | .brev => shInt1 0x000F false (pos4 w w false false)
  | .bfe => shInt2 0x000F false (pos4 w w false false)
  | .bfi => shInt3 0x000F false (pos4 w w false w)
  | .iset => { shInt2 0x000F false (pos4 false w w false) with d := cVS ||| cP, opx := 7 }
  | .isel => { shInt3 0x000F false (pos4 w w w false) with c := cP }
  | .lea => { shInt2 0x0003 false (pos4 true true false false) with opx := 7 }
  | .addc | .subb => { shInt3 0x000F false (pos4 w w w false) with c := cP, opx := 7 }
  | .plop => { shInt3 0x0001 false 0 with d := cP, a := cP, b := cP, c := cP, opx := 0xFF }
  -- MOV
  | .mov => shInt1 0x000F false (pos4 w w false false)
  | .movi => { shInt1 0x000F false (pos4 w false false false) with a := 0, ext := 0xFFFFFF }
  | .movh => { shInt1 0x000F false (pos4 w w false false) with a := cVS ||| cB, ext := 0xFFFF, opx := 3 }
  | .shfl => { shInt2 0x000F false (pos4 w w false false) with d := cV, a := cV ||| cB, b := cVSI, opx := 0x1F }
  | .vote => { shInt1 0x0001 false 0 with d := cP ||| cS, a := cP, opx := 7 }
  | .bcast => { shInt2 0x000F false (pos4 w w w false) with d := cS, a := cV, b := cSI, opx := 1, uniform := false }
  | .rdsr => { shInt1 0x0001 false 0 with a := 0, ext := 0xFFF }
  | .wrsr => { shInt1 0x0001 false 0 with d := 0, a := cSI, ext := 0xFFF, cap := false }
  | .xacq => { types := 1, rnd := .ignored, ext := 0xFFFFFF }
  | .xrel => { types := 1, rnd := .ignored }
  | .xtry => { d := cP ||| cS, types := 1, rnd := .ignored, ext := 0xFFFFFF, cap := true, wr := 1 }
  | .pmov => { d := if x 0 then 0 else cV, a := if x 0 then cVSI else 0, types := 1, rnd := .ignored, opx := 0xFF, cap := !x 0, wr := 1 }
  | .kmov => { d := cK ||| cS, a := cK ||| cS, types := 1, rnd := .ignored, cap := true, wr := 1 }
  -- FPA
  | .fadd | .fsub | .fmul | .fdiv => shFp 2 0x0CF0 .use true 0 f.ty
  | .ffma => shFp 3 0x0CF0 .use true 0 f.ty
  | .fmin | .fmax => shFp 2 0x0CF0 .ignored false 1 f.ty
  | .fabs | .fneg => shFp 1 0x0CF0 .ignored false 0 f.ty
  | .fcpys => shFp 2 0x0CF0 .ignored false 0 f.ty
  | .fsqrt => shFp 1 0x0CF0 .use false 0 f.ty
  | .frcp | .fexp2 => shFp 1 0x00F0 .zero true 0 f.ty
  | .frsq | .flog2 | .fsin | .fcos => shFp 1 0x00F0 .zero false 0 f.ty
  | .fset => { shFp 2 0x00F0 .ignored false 7 f.ty with d := cVS ||| cP, pair := pos4 false w w false }
  | .fclass => { shFp 1 0x00F0 .ignored false 0 f.ty with pair := pos4 false w false false }
  | .fscale => { shFp 2 0x00F0 .use true 0 f.ty with pair := pos4 w w false false }
  | .frnd => shFp 1 0x00F0 .use false 1 f.ty
  | .fdot2 => shFp 3 0x0C00 .use true 0 f.ty
  -- CVT
  | .cvt => { shFp 1 0x00FF .use true 0x0F f.ty with pair := pos4 w (wide64 (f.opx.extractLsb' 0 4)) false false }
  | .cvtb8 =>
    { d := if x 0 then cVS else cV, a := cSrc, b := cSrc, ext := 0x00F800, types := 0x2000, rnd := .use, sat := true, opx := 0x7F, cap := true,
      pair := pos4 (x 0 && f.opx.extractLsb' 3 4 == 4#4) false false false, wr := 1, uniform := true }
  | .mxq => { d := cVS, a := cSrc, ext := 0x00F800, types := 0x2000, rnd := .use, opx := 0x7C, cap := true, wr := 1, uniform := true }
  | .mxd => { d := cVS, a := cSrc, b := cSrc, ext := 0x00F800, types := 0x2000, rnd := .use, sat := true, opx := 0x78, cap := true, wr := 1, uniform := true }
  | .amax => { d := cS, a := cV, b := cS, types := 0x00F0, rnd := .ignored, cap := true, pair := pos4 w w w false, wr := 1 }
  | .rng => { d := cV, types := 0x0012, cap := true, wr := 1 }
  | .rngkey => { d := cS, a := if x 0 then cI else cS, b := if x 0 then cI else cS, types := 1, opx := 1, cap := true, pair := 7, wr := 1 }
  | .flgrd => { d := cVS, types := 1, opx := 1, cap := true, wr := 1 }
  | .flgclr => { a := cSI, types := 1 }
  | .flgen => { a := cSI, types := 1, opx := 3 }
  | .frmset => { d := cS, a := cSI, types := 1, cap := true, wr := 1 }
  | .fxcvt => { d := cVS, a := cVS, b := cVSI, ext := 0xFFFFFF, types := 0x0030, sat := true, opx := 1, cap := true, pair := pos4 w true false false, wr := 1, uniform := true }
  -- LOC
  | .ldl => { d := cVS, a := cVS, b := cVSI, ext := 0xFFFFFF, types := 0x1FFF, opx := 0xFF, cap := true, pair := pos4 w false false false, wr := 1, uniform := true }
  | .stl => { d := cVSI, a := cVS, b := cVSI, ext := 0xFFFFFF, types := 0x1FFF, opx := 0xFF, pair := pos4 w false false false }
  | .ldg => { d := cVS, a := cVS, b := cVSI, ext := 0xFFFFFF, types := 0x1FFF, opx := 0xFF, cap := true, pair := pos4 w true false false, wr := 1, uniform := true }
  | .stg => { d := cVSI, a := cVS, b := cVSI, ext := 0xFFFFFF, types := 0x1FFF, opx := 0xFF, pair := pos4 w true false false }
  | .atl => { d := if e 15 then 0 else cV, a := cVS, b := cVSI, c := cSrc, ext := 0xF800, types := 0x000F, opx := 0xFF, cap := !e 15, pair := pos4 w false false w, wr := 1 }
  | .atg => { d := if e 15 then 0 else cV, a := cVS, b := cVSI, c := cSrc, ext := 0xF800, types := 0x000F, opx := 0xFF, cap := !e 15, pair := pos4 w true false w, wr := 1 }
  | .stash => { a := cS, b := cS, c := cS, ext := 0x1800, types := 1, opxMod := true, pair := 2 }
  | .stfl | .stinv => { ext := if e 2 then 4 else 7, types := 1, opxMod := true }
  | .l1inv => { types := 1, opxMod := true }
  | .pref => { a := cVS, b := cVSI, ext := 0xFFFFFF, types := 1, opxMod := true, pair := 2 }
  -- HDL
  | .seal => { d := cS, a := cS, b := cSI, ext := 0xFFFFFF, opx := 7, pair := 2, wr := 1 }
  | .unseal => { a := cS }
  | .hqry => { d := cS, a := cS, ext := 0x7F, wr := 1 }
  -- CPY
  | .cpy => { d := cSI, a := cS, b := cS, c := cS, ext := 0x1FF800, warpWide := true, pair := pos4 false (e 11) (e 11 == e 12) false }
  | .gath | .scat => { d := cSI, a := cS, b := if e 11 then cS else cV, c := cS, ext := 0x1FF800, warpWide := true }
  | .binit => { a := cSI, b := cSI }
  | .barv => { d := cS, a := cSI, b := cSI, c := cSI, ext := 0x800, wr := 1 }
  | .bexp => { d := cS, a := cSI, b := cSI, wr := 1 }
  | .bwait => { d := cP, a := cSI, b := cSI, c := cP, wr := 9 }
  | .btest => { d := if x 0 then cP ||| cS else cP, a := cSI, b := if x 0 then 0 else cSI, opx := 1, wr := 1 }
  | .evmset => { d := cS, a := cSI, b := cSI, opx := 3, wr := 1 }
  | .evmclr => { a := cSI, b := cSI, opx := 3 }
  | .cpyq => { d := cS, a := cSI, opx := 1, wr := 1 }
  | .cpyk => { d := cS, a := cSI, wr := 1 }
  -- TIL
  | .tcfg => { d := cT, a := cSI, types := 1, warpWide := true }
  | .tld => { d := cT, a := cS, b := cSI, ext := 0xFFFFFF, types := 1, opx := 3, warpWide := true }
  | .tst => { d := cT, a := cS, b := cSI, ext := 0xFFFFFF, types := 1, warpWide := true }
  | .tzero => { d := cT, types := 1, warpWide := true }
  | .mma => { d := cA, a := cT, b := cT, ext := if t13 then 0x1FF800 else 0, types := 0x30C0, opx := 1, warpWide := true }
  | .mmasp => { d := cA, a := cT, b := cT, c := cT, ext := if t13 then 0x1FF800 else 0, types := 0x30C0, opx := 7, warpWide := true }
  | .mmseq => { d := cA, a := cS, b := cS, ext := if t13 then 0x1FF800 else 0, types := 0x30C0, opx := 0xF9, warpWide := true }
  | .seqst => { d := cS, types := 1, opx := 3, warpWide := true, pair := 1, wr := 1 }
  | .tmov =>
    let both := x 0 && x 1
    { d := if both then cV ||| cT else if x 0 then cV else cT, a := if both then cV ||| cT else if x 1 then cV else cT,
      b := if x 0 || x 1 then cSI else cI, types := 1, opx := 3, warpWide := true, wr := 1 }
  | .tqry => { d := cS, a := if x 0 then 0 else cT, types := 1, opx := 1, warpWide := true, wr := 1 }
  -- ACC
  | .ald => { d := cV, a := cA, b := cSI, types := 1, opx := 7, warpWide := true }
  | .ast => { d := cA, a := cV, b := cSI, types := 0x11, opx := 7, warpWide := true }
  | .azero => { d := cA, types := 1, warpWide := true }
  | .adrn => { a := cA, b := cS, ext := if t13 then 0xF800 else 0, types := 0x30D1, rnd := .use, sat := true, opx := 1, warpWide := true }
  | .adru => { a := cA, b := cS, c := cS, types := 0x00D0, sat := true, opx := 0xF, warpWide := true }
  | .asca => { d := cA, a := cA, b := cS, types := 1, opx := 1, warpWide := true }
  | .aqred => { a := cA, b := cS, c := cS, ext := if t13 then 0xF800 else 0, types := 0x30D1, rnd := .use, sat := true, opx := 3, warpWide := true }
  | .split => { d := cT, a := cS, b := cS, types := 0x20, opx := 0x1F, warpWide := true }
  | .recomb => { d := cV, a := cA, b := cS, types := 0x20, opx := 0x7F, warpWide := true, pair := 1 }
  | .acqry => { d := cS, a := cA, types := 1, wr := 1 }
  -- KEY
  | .kclaim => { d := cS, a := cSI, b := cSI, ext := 0xFFF, types := 1, opx := 0x3F, wr := 1 }
  | .kfree => { types := 1 }
  | .kins => { d := if f.d = 0 then 0 else cP, a := cVS, b := cVS, types := 1, pair := 6, wr := 1 }
  | .kprb => { d := cV, a := cVS, c := cP, types := 1, pair := 3, wr := 9 }
  | .kdel => { d := if f.d = 0 then 0 else cP, a := cVS, types := 1, pair := 2, wr := 1 }
  | .kacc => { a := cVS, b := cVS, types := 0x31, pair := pos4 false true (f.ty != 4#4) false }
  | .kdrn => { d := cSI, a := cS, b := cSI, types := 1, opx := 1, warpWide := true }
  | .kstat => { d := cS, types := 1, opx := 1, pair := 1, wr := 1 }
  -- GRD
  | .gld => { d := cV, a := cS, b := cV, sat := true }
  | .gsc => { a := cS, b := cV, c := cV, ext := 0x7F800, sat := true }
  | .gidx => { d := cV, a := cS, b := cV, ext := 0x3F }
  | .gqry => { d := cS, a := cS, ext := 0x3F, wr := 1 }
  -- ORD
  | .fence => { ext := 7, opx := 0xFF }
  | .bflip => { d := cS, a := cS, ext := 1, opxMod := true, pair := 2, wr := 1 }
  | .bqry => { d := cVS, a := cVS, opxMod := true, pair := 2, wr := 1, uniform := true }
  -- RMT
  | .radd | .rmin | .rmax | .ror | .rwo =>
    { d := cVSI, a := cVS, b := cVSI, ext := 0xFFFFFF, types := 0x000F, opx := 0x40, opxMod := true, pair := pos4 w true false false }
  | .rfxa =>
    { d := if e 17 then 0 else cVS, a := cVS, b := cVSI, c := cSI, ext := 0x030000 ||| (if t13 then 0xF800 else 0), types := if e 17 then 1 else 0x20F0,
      opx := 0x40, opxMod := true, pair := pos4 w true false false }
  | .rarv => { d := cVSI, a := cVS, b := cVSI, ext := 0xFFFFFF, types := 0x000A, opxMod := true, pair := pos4 w true false false }
  | .rreq => { d := cVS, a := cVS, b := cVS, ext := 0xF800, types := 1, opxMod := true, pair := 7 }
  | .waitc => { d := cS, a := cS, b := cSI, c := cSI, types := 1, opxMod := true, pair := 3, wr := 1 }
  -- PHS
  | .hbar => { d := cS, a := cSI, ext := 0xF, opx := 0xFF, wr := 1 }
  | .phase => { d := cS, a := cSI, wr := 1 }
  | .phqry => { d := cS, ext := 0xF, wr := 1 }
  | .oapp => { d := cS, a := cSI, ext := 7, pair := 1, wr := 1 }
  | .odecl => { ext := 7 }
  | .dmqry => { d := cS, pair := 1, wr := 1 }
  -- SYS
  | .trap => { ext := 0xF }
  | .tret => {}
  | .trdc => { d := cS, opx := 1, wr := 1 }
  | .ppt => { ext := if f.opx = 1 then 0xFFFFFF else 0, opx := 3 }
  | .tlbinv => { a := if e 0 then cI else cS, ext := 1, opx := 7, pair := 2 }
  | .dbg => { a := if f.opx = 3 then cS else 0, b := if f.opx = 3 then cS else 0, ext := if f.opx = 0 then 0xFFFF else 0, opx := 3, pair := 2 }

/-- Whether an encoding row uses operand C. -/
def usesC (sh : Shape) : Bool := sh.c != 0

/-- Operand C of a word (R65). -/
def Fields.c (f : Fields) : BitVec 11 := f.ext.extractLsb' 0 11

/-- A nonzero unused or reserved field, or an operand that must be `#0` and is not (R6, R60, R62, R65; step 2). -/
def rsvBad (f : Fields) (sh : Shape) : Bool :=
  let allowed := sh.ext ||| (if usesC sh then 0x7FF#24 else 0)
  (sh.d == 0 && f.d != 0) || (sh.a == 0 && f.a != 0) || (sh.b == 0 && f.b != 0) ||
  (f.ext &&& ~~~allowed != 0) || (!sh.opxMod && f.opx &&& ~~~sh.opx != 0) ||
  (sh.types == 0 && f.ty != 0) || (sh.rnd == .zero && (f.rnd != 0 || f.dyn)) || (!sh.sat && f.sat) ||
  match f.op with
  | .bcast => f.opx.getLsbD 0 && f.b != opndZero
  | .cvtb8 => (f.opx.getLsbD 0 || f.opx.extractLsb' 3 4 == 10#4 || f.opx.extractLsb' 3 4 == 11#4) && f.b != opndZero
  | .rngkey => f.opx.getLsbD 0 && (f.a != opndZero || f.b != opndZero)
  | .cpy | .gath | .scat => !f.ext.getLsbD 20 && f.ext.extractLsb' 16 4 != 0
  | .barv => f.ext.getLsbD 11 && f.b != opndZero
  | .mmseq => !f.opx.getLsbD 7 && f.opx.extractLsb' 3 4 != 0
  | .tmov => f.opx.extractLsb' 0 2 == 0#2 && f.b != opndZero
  | .kclaim => (Opnd.ofBits f.b).isImm && f.b != opndZero
  | .tlbinv => f.ext.getLsbD 0 && f.a != opndZero
  | .ppt => false
  | _ => false

/-- A refused guard (R57, R58; step 3). -/
def guardBad (f : Fields) (sh : Shape) : Bool :=
  (f.hd.neg && f.hd.gp == 7#3) || (sh.warpWide && (f.hd.neg || f.hd.gp != 7#3))

/-- The number of registers of each class (R59). -/
def classSize (c : Nat) : Nat :=
  match c with
  | 1 => 64 | 2 => 8 | 3 => 8 | 4 => 16 | 5 => 16 | 6 => 4 | _ => 256

/-- An operand whose class is not allowed, whose index is out of range, or that writes p7 (R59). -/
def opndBad (classes : BitVec 8) (written : Bool) (x : BitVec 11) : Bool :=
  let o := Opnd.ofBits x
  classes != 0 && (!classes.getLsbD o.cls || o.idx ≥ classSize o.cls || (written && o == .p 7#8))

/-- A source that differs from lane to lane (R130). -/
def perLane (x : BitVec 11) : Bool :=
  match Opnd.ofBits x with
  | .v _ | .b _ => true
  | _ => false

/-- An s operand. -/
def isS (x : BitVec 11) : Bool :=
  match Opnd.ofBits x with
  | .s _ => true
  | _ => false

/-- An operand class or index that is not allowed (step 4). -/
def clsBad (f : Fields) (sh : Shape) : Bool :=
  opndBad sh.d (sh.wr.getLsbD 0) f.d || opndBad sh.a false f.a || opndBad sh.b false f.b || opndBad sh.c (sh.wr.getLsbD 3) f.c ||
  (sh.uniform && isS f.d && ((sh.a != 0 && perLane f.a) || (sh.b != 0 && perLane f.b) || (sh.c != 0 && perLane f.c))) ||
  match f.op with
  | .vote => f.opx == 4 && isS f.d
  | .rdsr => isS f.d && (f.ext == 0 || f.ext == 1)
  | .kmov => isS f.d && isS f.a
  | .cvtb8 => f.opx.getLsbD 0 && (Opnd.ofBits f.a).isImm
  | .mxd => (Opnd.ofBits f.a).isImm
  | .atl | .atg => f.ext.extractLsb' 11 4 == 7#4 && !((Opnd.ofBits f.c).cls == 0 || (Opnd.ofBits f.c).cls == 1)
  | _ => false

/-- A register operand whose index is not a multiple of n. -/
def notMult (n : Nat) (x : BitVec 11) : Bool :=
  match Opnd.ofBits x with
  | .v i | .s i => i.toNat % n != 0
  | _ => false

/-- The warp slots of a width code (R77): W / 32. -/
def slotsOfCode (wc : Nat) : Nat := 2 ^ wc

/-- A type or format code, an odd pair or a misaligned range (step 5). `wc` is the warp's width code. -/
def typeBad (wc : Nat) (f : Fields) (sh : Shape) : Bool :=
  let pb (n : Nat) (x : BitVec 11) : Bool := sh.pair.getLsbD n && notMult 2 x
  (sh.types != 0 && !sh.types.getLsbD f.ty.toNat) ||
  pb 0 f.d || pb 1 f.a || pb 2 f.b || pb 3 f.c ||
  match f.op with
  | .vote => f.opx == 3 && (!isS f.d || notMult (slotsOfCode wc) f.d)
  | .kmov => notMult 4 f.d || notMult 4 f.a
  | .cvt => f.opx.extractLsb' 3 1 == 1
  | .cvtb8 => !(f.opx.extractLsb' 3 4 == 4#4 || f.opx.extractLsb' 3 4 == 10#4 || f.opx.extractLsb' 3 4 == 11#4) || !fmtOk (f.ext.extractLsb' 11 5)
  | .mxq | .mxd => !(f.opx.extractLsb' 3 4 == 4#4 || f.opx.extractLsb' 3 4 == 6#4 || f.opx.extractLsb' 3 4 == 7#4) || !fmtOk (f.ext.extractLsb' 11 5)
  | .fxcvt => f.ty == 5#4 && !f.opx.getLsbD 0
  | .atl | .atg => f.ext.extractLsb' 11 4 == 7#4 && notMult (if wide64 f.ty then 4 else 2) f.c
  | .btest => f.opx.getLsbD 0 && (!isS f.d || notMult 4 f.d)
  | .mma | .mmasp | .mmseq => f.ty == 13#4 && (!fmtOk (f.ext.extractLsb' 11 5) || !fmtOk (f.ext.extractLsb' 16 5))
  | .adrn | .aqred => f.ty == 13#4 && !fmtOk (f.ext.extractLsb' 11 5)
  | .adru => notMult 4 f.c
  | .asca => notMult 2 f.b
  | .recomb => notMult 4 f.b
  | .rfxa => (f.ty == 13#4 && !fmtOk (f.ext.extractLsb' 11 5)) || (f.ty == 5#4 && !f.ext.getLsbD 16)
  | _ => false

/-- Memory modifiers that an access accepts (R64): scopes up to `top`, and whether it reads and writes. -/
def mmOk (top : Nat) (reads writes : Bool) (x : BitVec 8) : Bool :=
  match Mm.ofBits x with
  | none => false
  | some m =>
    decide (m.scope.bits.toNat ≤ top) &&
    (match m.ord with
      | .rlx => true
      | .acq => reads
      | .rel => writes
      | .ar => reads && writes) &&
    (m.use == .ord || (reads && writes && m.ord == .rlx))

/-- The modifiers of an atomic (R64, R203, R340). -/
def atomBad (top : Nat) (f : Fields) : Bool :=
  !mmOk top true true f.opx ||
  match AtomOp.ofBits (f.ext.extractLsb' 11 4), Mm.ofBits f.opx with
  | some op, some m =>
    (m.use == .comm && (op == .xchg || op == .cas)) ||
    ((m.use == .quant || m.use == .spec) && !(op == .or && f.c == opndZero && !f.ext.getLsbD 15))
  | _, _ => true

/-- A refused combination of modifiers (R32, R64, R66, R67; step 6). `wc` is the warp's width code. A latch that is not captured
into counts as unused only where nothing can be captured (L81). -/
def modBad (wc : Nat) (f : Fields) (sh : Shape) : Bool :=
  let dcls := (Opnd.ofBits f.d).cls
  let captures := sh.cap && (dcls == 0 || dcls == 1)
  (f.dyn && f.rnd != 0) || (f.hd.nwb && !f.hd.cap) || ((f.hd.cap || f.hd.latch != 0) && !captures) ||
  (sh.opxMod && f.opx &&& ~~~sh.opx != 0) ||
  match f.op with
  | .iset => f.opx.toNat ≥ 6
  | .movh => f.opx.toNat ≥ 2 && !wide64 f.ty
  | .shfl => 2 ^ (f.opx.extractLsb' 2 3).toNat > 32 * slotsOfCode wc
  | .vote => f.opx.toNat ≥ 5
  | .cvtb8 | .mxq => f.opx.getLsbD 2 && (f.rnd != 0 || f.dyn)
  | .flgen => f.opx == 3
  | .ldl => !mmOk 3 true false f.opx
  | .stl => !mmOk 3 false true f.opx
  | .ldg => !mmOk 7 true false f.opx
  | .stg => !mmOk 7 false true f.opx
  | .atl => atomBad 3 f
  | .atg => atomBad 7 f
  | .seal => f.opx == 0 || f.opx == 7
  | .bwait => f.d == f.c
  | .evmset => f.opx == 3
  | .tld => f.opx == 3
  | .mmasp => f.opx.extractLsb' 1 2 == 3#2
  | .tmov => f.opx == 3
  | .ald | .ast => f.opx == 0 || f.opx == 7
  | .adru => f.opx.extractLsb' 0 2 == 3#2
  | .split => !(1 ≤ (f.opx.extractLsb' 0 4).toNat && (f.opx.extractLsb' 0 4).toNat ≤ 9)
  | .recomb =>
    !(2 ≤ (f.opx.extractLsb' 0 4).toNat && (f.opx.extractLsb' 0 4).toNat ≤ 10) ||
    !(1 ≤ (f.opx.extractLsb' 4 3).toNat && (f.opx.extractLsb' 4 3).toNat ≤ 5)
  | .kclaim => 5 ≤ (f.opx.extractLsb' 0 3).toNat
  | .fence =>
    match Mm.ofBits f.opx with
    | some m => m.scope == .self || m.scope == .warp || m.ord == .rlx || m.use != .ord
    | none => true
  | .rreq => (f.ext.extractLsb' 11 4 == 0#4) || (f.ext.getLsbD 15 && f.ext.extractLsb' 11 4 != 1#4)
  | .hbar =>
    match Mm.ofBits f.opx with
    | some m => m.scope == .self || m.scope == .warp || m.scope == .sys || m.ord != .rlx || m.use != .ord
    | none => true
  | .ppt => f.opx == 3
  | .tlbinv => !(f.opx == 4 || f.opx == 5)
  | _ => false

/-- The first failing check of steps 2 to 6 of R68 on a word with an assigned opcode, for a warp of width code `wc`. -/
def checkWord (wc : Nat) (f : Fields) : Option Ill :=
  let sh := shape f
  if rsvBad f sh then some .rsv
  else if guardBad f sh then some .guard
  else if clsBad f sh then some .cls
  else if typeBad wc f sh then some .type
  else if modBad wc f sh then some .mod
  else none

end Sys2Proof
end

