-- ==== Sys2Proof/WellFormed.lean ====
section
/-! DEFINITION. Which instructions a word can hold: those whose fields pass steps 2 to 6 of the issue checks (R68). -/

namespace Sys2Proof

/-- Whether an instruction is well formed in a warp of width code `wc`: its own word would pass the checks that the word
alone decides. An unassigned opcode is well formed as itself (R70); a step of another agent is no word at all. -/
def WellFormed (wc : Nat) (i : Instr) : Bool :=
  match i with
  | .unassignedOpcode w => (Op.ofCode (opcodeOf w)).isNone
  | _ =>
    match i.fields with
    | some f => (checkWord wc f).isNone
    | none => false

end Sys2Proof
end

