-- ==== Sys2Proof/Decode.lean ====
section
/-! DEFINITION. From the bits of a word to an instruction or the cause that refuses it (R55, R68, R70), and back. -/

namespace Sys2Proof

/-- Decode a word for a warp of width code `wc`. Total: every word gives an instruction or the name of the failed check. -/
def decode (wc : Nat) (w : BitVec 96) : Except Ill Instr :=
  match Op.ofCode (opcodeOf w) with
  | none => .ok (.unassignedOpcode w)
  | some o =>
    let f := Fields.unpack o w
    match checkWord wc f with
    | some e => .error e
    | none =>
      match f.build with
      | some i => .ok i
      | none => .error .mod

/-- The word of an instruction; none for a step of another agent. -/
def encode (i : Instr) : Option (BitVec 96) :=
  match i with
  | .unassignedOpcode w => some w
  | _ => i.fields.map Fields.pack

/-- The number of bytes in little-endian order (R3). -/
def natOfBytes : List Byte → Nat
  | [] => 0
  | b :: bs => b.toNat + 256 * natOfBytes bs

/-- The n little-endian bytes of a number (R3). -/
def bytesOfNat : Nat → Nat → List Byte
  | 0, _ => []
  | n + 1, x => BitVec.ofNat 8 x :: bytesOfNat n (x / 256)

/-- The word of twelve bytes as they lie in memory: three little-endian 32-bit words (R3, R55). -/
def wordOfBytes (bs : List Byte) : BitVec 96 := BitVec.ofNat 96 (natOfBytes bs)

/-- The bytes of a word as they lie in memory. -/
def bytesOfWord (w : BitVec 96) : List Byte := bytesOfNat 12 w.toNat

/-- The host's question: the instruction read from the bits `w`, for a warp of width 32. -/
def decodeTableWord (nbits w : Nat) : Option Instr :=
  if nbits ≤ 96 then
    match decode 0 (wordOfBytes (bytesOfNat 12 w)) with
    | .ok i => some i
    | .error _ => none
  else none

end Sys2Proof
end

