-- ==== Sys2Proof/Machine/Mem.lean ====
section
/-! DEFINITION. Bytes of memory: reading and writing one byte and runs of bytes, in the canonical form (R3). -/

namespace Sys2Proof.Machine

/-- The byte at an address. -/
def memGet : Mem → Nat → Byte
  | [], _ => blankByte
  | (a, b) :: m, n => if a = n then b else if n < a then blankByte else memGet m n

/-- A memory without an entry at an address. -/
def memDrop : Mem → Nat → Mem
  | [], _ => []
  | (a, b) :: m, n => if a = n then m else if n < a then (a, b) :: m else (a, b) :: memDrop m n

/-- A memory with an entry at an address. -/
def memPut : Mem → Nat → Byte → Mem
  | [], n, x => [(n, x)]
  | (a, b) :: m, n, x =>
    if a = n then (n, x) :: m else if n < a then (n, x) :: (a, b) :: m else (a, b) :: memPut m n x

/-- Write one byte; writing the byte that an unlisted address reads as removes the entry. -/
def memSet (m : Mem) (n : Nat) (x : Byte) : Mem := if x = blankByte then memDrop m n else memPut m n x

/-- n bytes from an address up. -/
def memRead (m : Mem) (a : Nat) : Nat → List Byte
  | 0 => []
  | n + 1 => memGet m a :: memRead m (a + 1) n

/-- Write bytes from an address up. -/
def memWrite (m : Mem) (a : Nat) : List Byte → Mem
  | [] => m
  | b :: bs => memWrite (memSet m a b) (a + 1) bs

/-- The number that n bytes hold. -/
def memNat (m : Mem) (a n : Nat) : Nat := natOfBytes (memRead m a n)

/-- n zero bytes. -/
def zeros (n : Nat) : List Byte := List.replicate n 0#8

/-- Bytes padded with zeros to a multiple of k (k positive). -/
def padTo (k : Nat) (bs : List Byte) : List Byte := bs ++ zeros ((k - bs.length % k) % k)

end Sys2Proof.Machine
end

