-- ==== Sys2Proof/Machine/Ops.lean ====
section
/-! DEFINITION. The named operations over the state: finding and replacing its parts, free values, notifications,
termination, taking a trap and returning from one (18 R437-R441, R453, R480). -/

namespace Sys2Proof.Machine

/-! ### Parts of the state -/

/-- Change a workgroup, if it exists. -/
def State.modWg (s : State) (wid : Nat) (f : Wg → Wg) : State := { s with wgs := upd s.wgs wid f }

/-- Change a warp of a workgroup. -/
def Wg.modWarp (g : Wg) (i : Nat) (f : Warp → Warp) : Wg := { g with warps := upd g.warps i f }

/-- Change a warp. -/
def State.modWarp (s : State) (wid i : Nat) (f : Warp → Warp) : State := s.modWg wid fun g => g.modWarp i f

/-- A warp, if it exists. -/
def State.warp? (s : State) (wid i : Nat) : Option Warp := (look s.wgs wid).bind fun g => look g.warps i

/-- A core; one that nothing has touched is as reset left it. -/
def State.core (s : State) (c : Nat) : Core := lookD s.cores c Core.reset

def State.setCore (s : State) (c : Nat) (x : Core) : State := { s with cores := ins s.cores c x }

def State.modCore (s : State) (c : Nat) (f : Core → Core) : State := s.setCore c (f (s.core c))

/-- A die, by its number in the pod (R17). -/
def State.die (s : State) (d : Nat) : Die := lookD s.dies d Die.reset

def State.setDie (s : State) (d : Nat) (x : Die) : State := { s with dies := ins s.dies d x }

def State.modDie (s : State) (d : Nat) (f : Die → Die) : State := s.setDie d (f (s.die d))

/-- A spire base: 2 * die + spire. -/
def State.spire (s : State) (n : Nat) : Spire := lookD s.spires n Spire.reset

def State.modSpire (s : State) (n : Nat) (f : Spire → Spire) : State := { s with spires := ins s.spires n (f (s.spire n)) }

def State.pkg (s : State) (n : Nat) : Pkg := lookD s.pkgs n Pkg.reset

def State.modPkg (s : State) (n : Nat) (f : Pkg → Pkg) : State := { s with pkgs := ins s.pkgs n (f (s.pkg n)) }

/-- The die of a core (R17). -/
def dieOf (core : Nat) : Nat := core / 192

/-- The package of a die (R17). -/
def pkgOfDie (die : Nat) : Nat := die / 4

/-- The name of a workgroup: its instance and its 48-bit number. -/
def widOf (inst g : Nat) : Nat := inst * 2 ^ 48 + g

/-- A port of a core. -/
def Core.port (c : Core) (p : Nat) : Port := if p = 0 then c.port0 else c.port1

def Core.setPort (c : Core) (p : Nat) (x : Port) : Core := if p = 0 then { c with port0 := x } else { c with port1 := x }

/-- The port of a warp (R78). -/
def Warp.port (w : Warp) : Nat := (w.ctx0 / w.width) % 2

/-- The arithmetic clocks of a die since its reset (R116). -/
def Die.clocks (d : Die) : Nat := d.clkAcc / 200

/-- The clocks of the die of a core. -/
def State.clocksAt (s : State) (core : Nat) : Nat := (s.die (dieOf core)).clocks

/-! ### Free values (L5) -/

/-- A value that the spec leaves open, and the state after drawing it. -/
def State.free (s : State) : BitVec 64 × State := (Config.freeValue s.fresh, { s with fresh := s.fresh + 1 })

/-- A choice below n (n positive) that the spec leaves open. -/
def State.pick (s : State) (n : Nat) : Nat × State := ((Config.freeValue s.fresh).toNat % n, { s with fresh := s.fresh + 1 })

/-! ### Cause codes (R435) -/

def cILL_OP : BitVec 7 := 0x00
def cILL_RSV : BitVec 7 := 0x01
def cILL_CLASS : BitVec 7 := 0x02
def cILL_GUARD : BitVec 7 := 0x03
def cILL_TYPE : BitVec 7 := 0x04
def cILL_MOD : BitVec 7 := 0x05
def cSTALE_LATCH : BitVec 7 := 0x06
def cPARTIAL_MASK : BitVec 7 := 0x07
def cPRIV : BitVec 7 := 0x08
def cBKT_RANGE : BitVec 7 := 0x09
def cDBG_BREAK : BitVec 7 := 0x0A
def cDBG_STEP : BitVec 7 := 0x0B
def cDBG_WATCH : BitVec 7 := 0x0C
def cTRET_FRAME : BitVec 7 := 0x0D
def cNESTED : BitVec 7 := 0x0E
def cNO_HANDLER : BitVec 7 := 0x0F
def cREG_RANGE : BitVec 7 := 0x10
def cXBLOCK : BitVec 7 := 0x11
def cTILE_CFG : BitVec 7 := 0x12
def cACC_RANGE : BitVec 7 := 0x13
def cSR_INDEX : BitVec 7 := 0x14
def cPPT_STATE : BitVec 7 := 0x15
def cRESTORE_FAULT : BitVec 7 := 0x16
def cHOST_KILL : BitVec 7 := 0x17
def cDIE_RESET : BitVec 7 := 0x18
def cCOMPLETION_LOST : BitVec 7 := 0x19
def cFP_INVALID : BitVec 7 := 0x20
def cFP_DIVZERO : BitVec 7 := 0x21
def cFP_OVERFLOW : BitVec 7 := 0x22
def cFP_UNDERFLOW : BitVec 7 := 0x23
def cFP_INEXACT : BitVec 7 := 0x24
def cFP_SNAN : BitVec 7 := 0x25
def cPAGE_ABSENT : BitVec 7 := 0x30
def cPAGE_WRITE : BitVec 7 := 0x31
def cPAGE_CLASS : BitVec 7 := 0x32
def cMISALIGNED : BitVec 7 := 0x33
def cLOCAL_RANGE : BitVec 7 := 0x34
def cREMOTE_PLAIN : BitVec 7 := 0x35
def cSTASH_WINDOW : BitVec 7 := 0x36
def cPAGE_EXEC : BitVec 7 := 0x37
def cMEM_UNCORR : BitVec 7 := 0x38
def cHANDLE_STALE : BitVec 7 := 0x40
def cHANDLE_KIND : BitVec 7 := 0x41
def cSEAL_BAD : BitVec 7 := 0x42
def cCOPY_FAULT : BitVec 7 := 0x43
def cSEQ_FAULT : BitVec 7 := 0x44
def cKEY_FULL : BitVec 7 := 0x45
def cGRID_BAD : BitVec 7 := 0x46
def cKEY_STATE : BitVec 7 := 0x47
def cREMOTE_UNREACH : BitVec 7 := 0x50
def cCHECK_FAIL : BitVec 7 := 0x51
def cSTREAM_STALL : BitVec 7 := 0x52
def cFXA_RANGE : BitVec 7 := 0x53
def cBAR_INDEX : BitVec 7 := 0x60
def cBAR_UNDERFLOW : BitVec 7 := 0x61
def cOAPP_ORDER : BitVec 7 := 0x62
def cLOG_FULL : BitVec 7 := 0x63
def cREJOIN_DEADLOCK : BitVec 7 := 0x64
def cPHASE_STATE : BitVec 7 := 0x65

/-- The cause of a failed check of the word (R68). -/
def illCause : Ill → BitVec 7
  | .rsv => cILL_RSV
  | .guard => cILL_GUARD
  | .cls => cILL_CLASS
  | .type => cILL_TYPE
  | .mod => cILL_MOD

/-- A cause met: its code, the lanes that meet it, the faulting address where its rule gives one, what stands in `INFO`
when it is not the lost count, and the tag of a deferred cause (R440). -/
structure Trap where
  cause : BitVec 7
  lanes : Mask
  faddr : Option (BitVec 64)
  info : Option Word
  tag : Option (BitVec 64)
  deriving DecidableEq, Repr, Inhabited

/-- A cause with no faulting address. -/
def Trap.plain (c : BitVec 7) (m : Mask) : Trap := ⟨c, m, none, none, none⟩

/-- A cause with a faulting address. -/
def Trap.addr (c : BitVec 7) (m : Mask) (a : Nat) : Trap := ⟨c, m, some (BitVec.ofNat 64 a), none, none⟩

/-! ### Notifications and termination (R441, R462, R480) -/

/-- Set a bit of `NOTE`; a bit that was 0 raises an MSI-X message (R462). -/
def State.note (s : State) (pkg bit : Nat) : State :=
  s.modPkg pkg fun p =>
    if p.note.getLsbD bit then p else { p with note := p.note ||| BitVec.ofNat 5 (2 ^ bit), msi := p.msi + 1 }

/-- The 64 bytes of a termination record (R480). -/
def termRecord (inst g i : Nat) (code : BitVec 7) (met : Option Trap) (pc : Pc) (faddr : BitVec 64) : List Byte :=
  let m : Nat := match met with
    | none => 0
    | some t => t.cause.toNat + 256 + (if t.tag.isSome then 2 ^ 31 else 0)
  let tag : Nat := match met with
    | some t => (t.tag.getD 0).toNat
    | none => 0
  bytesOfNat 4 inst ++ bytesOfNat 4 (code.toNat + i * 2 ^ 16) ++ bytesOfNat 8 g ++ bytesOfNat 4 m ++ bytesOfNat 4 0 ++
  bytesOfNat 8 pc.toNat ++ bytesOfNat 8 faddr.toNat ++ bytesOfNat 8 tag ++ zeros 16

/-- A die keeps a termination record and notifies the host (R441, R462, R480). -/
def State.record (s : State) (die : Nat) (r : List Byte) : State :=
  (s.modDie die fun d => { d with term := ins d.term (d.termIdx % 16) r, termIdx := d.termIdx + 1 }).note (pkgOfDie die) 0

/-- The faulting address of a trap; a free value where no rule gives one (L5). -/
def State.faddrOf (s : State) (t : Trap) : BitVec 64 × State :=
  match t.faddr with
  | some a => (a, s)
  | none => s.free

/-- Whether pre-emption of a workgroup is held off (R455): a warp holds, and the request is less than 65,536 clocks old. -/
def Wg.pptHeld (g : Wg) (now : Nat) : Bool :=
  (match g.stopAt with
    | some t => decide (now < t + 65536)
    | none => true) &&
  g.warps.any fun p => p.2.live != 0 && match p.2.ppt with
    | some t => decide (now < t)
    | none => false

/-- Whether a workgroup lets its warps issue (R441, R444, R455). -/
def Wg.issues (g : Wg) (now : Nat) : Bool := g.st == .running && (g.stopAt.isNone || g.pptHeld now)

/-- Every warp of a workgroup stops issuing, and nothing of it waits any more but for the keyed unit's queue (R441). -/
def Wg.stopAll (g : Wg) : Wg :=
  { g with
    st := .ending, killed := true, faulted := true, stopAt := none
    warps := g.warps.map fun p => (p.1, { p.2 with hold := p.2.hold.filter fun h => h.wait == .keyed, walked := [] }) }

/-- The watches of a workgroup's warps are given up (R362). -/
def State.dropWatches (s : State) (wid : Nat) : State :=
  { s with spires := s.spires.map fun p => (p.1, { p.2 with watches := p.2.watches.filter fun e => e.1 != wid }) }

/-- End a workgroup that has not been ended yet: stop its warps, record the cause, mark the kernel (R441). -/
def State.terminate (s : State) (wid i : Nat) (code : BitVec 7) (met : Option Trap) (pc : Pc) : State :=
  match look s.wgs wid with
  | none => s
  | some g =>
    if g.st == .ending then s
    else
    let (fa, s) := match met with
      | some t => s.faddrOf t
      | none => (0, s)
    let s := s.modWg wid Wg.stopAll
    let s := (s.modCore g.core fun c => { c with xq := c.xq.filter fun q => q.1 != wid }).dropWatches wid
    let s := { s with kernels := upd s.kernels g.inst fun k => { k with faulted := true } }
    s.record (dieOf g.core) (termRecord g.inst g.g i code met pc fa)

/-! ### Trap frames (R438-R440) -/

/-- The offset of the frame area in the own area (R439). -/
def LaunchRec.frameBase (r : LaunchRec) : Nat := (r.loc + 1023) / 1024 * 1024

/-- The local address of a warp's frame (R439). -/
def LaunchRec.frameAt (r : LaunchRec) (i : Nat) : Nat := r.frameBase + 2048 * i

/-- State, priority, program counter, ageing counter, park age and mask index of a lane (R440). -/
structure LaneRec where
  st : Nat
  prio : BitVec 8
  pc : Pc
  age : Nat
  park : Nat
  k : Nat
  deriving DecidableEq, Repr, Inhabited

/-- What the lane states of R440 call blocked threads. -/
def Why.laneState : Why → Nat
  | .rejoin _ _ => 3
  | .bar _ _ _ _ => 4
  | .net _ => 5

def Why.mask : Why → Nat
  | .rejoin k _ => k
  | _ => 0

/-- The lane table's account of a lane (R440). -/
def Warp.laneRec (w : Warp) (l : Nat) : LaneRec :=
  match w.front.find? (fun e => e.mask.getLsbD l), w.parked.find? (fun p => p.mask.getLsbD l),
      w.blocked.find? (fun b => b.mask.getLsbD l) with
  | some e, _, _ => ⟨1, e.prio, e.pc, e.age, 0, 0⟩
  | none, some p, _ => ⟨2, p.prio, p.pc, 0, p.age, 0⟩
  | none, none, some b => ⟨b.why.laneState, b.prio, b.pc, 0, 0, b.why.mask⟩
  | none, none, none => ⟨0, 0, 0, 0, 0, 0⟩

/-- The link value of a lane record: priority above program counter (R440, R81). -/
def LaneRec.link (r : LaneRec) : Nat := r.prio.toNat * 2 ^ 56 + r.pc.toNat

/-- The state word of a lane record: state, mask, park and age, lowest first (R440). -/
def LaneRec.word (r : LaneRec) : Nat := r.st + 256 * (r.k + 256 * (r.park + 256 * r.age))

/-- The lane table and lane states of a frame: bytes 0x080 to 0x67F (R440). -/
def Warp.laneTable (w : Warp) : List Byte :=
  let rs := (List.range 128).map w.laneRec
  (rs.map fun r => bytesOfNat 8 r.link).flatten ++
  (rs.map fun r => bytesOfNat 4 r.word).flatten

/-- The first 128 bytes of a frame (R440). -/
def frameHead (cause : Nat) (info pc faddr tag : Nat) (lanes bndl live : Mask) (insn : BitVec 96) : List Byte :=
  bytesOfNat 4 cause ++ bytesOfNat 4 info ++ bytesOfNat 8 pc ++ bytesOfNat 8 faddr ++ bytesOfNat 8 tag ++
  bytesOfNat 16 lanes.toNat ++ bytesOfNat 16 bndl.toNat ++ bytesOfNat 16 live.toNat ++ bytesOfNat 12 insn.toNat ++ zeros 36

/-- The trap frame of a warp (R440). -/
def Warp.frame (w : Warp) (t : Trap) (c : Cur) (faddr : BitVec 64) : List Byte :=
  let cause := t.cause.toNat + (if t.tag.isSome then 2 ^ 31 else 0)
  let info := match t.info with
    | some x => x.toNat
    | none => w.lost
  frameHead cause info c.pc.toNat faddr.toNat (t.tag.getD 0).toNat t.lanes c.bundle w.live c.insn ++ w.laneTable ++ zeros 384

/-- The warp inside its handler (R438): every live thread in one entry at the handler address. -/
def Warp.inHandler (w : Warp) (c : Cur) (handler : Pc) (at_ : Nat) (deferred : Bool) : Warp :=
  { w with
    hmode := true
    tfaddr := BitVec.ofNat 32 at_
    entry := (lanesOf w.live).map fun l => (l, ((w.laneRec l).st, BitVec.ofNat 64 (w.laneRec l).link))
    kept := w.blocked
    front := [⟨0, handler, w.live, 0, 0⟩]
    parked := []
    blocked := []
    stepDue := false
    tpnd := true
    hold := none
    walked := []
    latched := none
    keyMade := 0
    keyKept := if w.keyMade = 0 then w.keyKept else some (c.pc, c.bundle, w.keyMade)
    sleepUntil := 0
    readySince := none
    due := none
    dfr := if deferred then w.dfr.drop 1 else w.dfr }

/-- The port that issued a trapping bundle: its latches are clear (R129, R438). -/
def Port.trapped (p : Port) (c : Cur) (slot now : Nat) : Port :=
  { p with last := some (c.wid, c.warp, c.bundle), slot := slot, latch := [], after := now + 1 }

/-- Take a trap (R437-R441): without a handler, or in handler mode, the workgroup ends, and the port is as it was (L70); else the
frame is written, the latches are cleared and the warp enters its handler. -/
def State.takeTrap (s : State) (c : Cur) (t : Trap) : State :=
  match look s.wgs c.wid, s.warp? c.wid c.warp, look s.kernels (c.wid / 2 ^ 48) with
  | some g, some w, some k =>
    let s := { s with cur := none }
    if g.st == .ending then s
    else if w.hmode then s.terminate c.wid c.warp cNESTED (some t) c.pc
    else if k.rc.handler = 0 then s.terminate c.wid c.warp cNO_HANDLER (some t) c.pc
    else
      let (fa, s) := s.faddrOf t
      let at_ := k.rc.frameAt c.warp
      let s := s.modCore g.core fun x => x.setPort w.port ((x.port w.port).trapped c (w.ctx0 / 32) (s.clocksAt g.core))
      s.modWg c.wid fun g =>
        { g.modWarp c.warp (fun w => w.inHandler c k.rc.handler at_ t.tag.isSome) with
          mem := memWrite g.mem at_ (w.frame t c fa) }
  | _, _, _ => { s with cur := none }

/-! ### Returning from a trap (R453) -/

/-- The frame's account of a lane. -/
def frameLane (m : Mem) (at_ l : Nat) : LaneRec :=
  let link := memNat m (at_ + 0x80 + 8 * l) 8
  let x := memNat m (at_ + 0x480 + 4 * l) 4
  ⟨x % 256, BitVec.ofNat 8 (link / 2 ^ 56), BitVec.ofNat 56 link, x / 2 ^ 24, x / 2 ^ 16 % 256, x / 2 ^ 8 % 256⟩

/-- Whether `TRET` refuses a lane's record (R453): `old` is the lane's state and link value at entry. -/
def laneRefused (old : Nat × BitVec 64) (r : LaneRec) : Bool :=
  !(1 ≤ r.st && r.st ≤ 5) || r.st != old.1 || r.pc.extractLsb' 0 2 != 0 || (3 ≤ r.st && r.link != old.2.toNat)

/-- The lanes whose records `TRET` refuses. -/
def Warp.refusedLanes (w : Warp) (m : Mem) : List Nat :=
  (lanesOf w.live).filter fun l =>
    match look w.entry l with
    | some old => laneRefused old (frameLane m w.tfaddr.toNat l)
    | none => false

/-- The frontier and the parked threads that some lane records describe (R453, R476). -/
def Warp.laned (w : Warp) (rs : List (Nat × LaneRec)) : Warp :=
  { w with
    front := (rs.filter fun x => x.2.st == 1).foldl
      (fun fs x => joinEntry fs ⟨x.2.prio, x.2.pc, laneBit x.1, x.2.age, w.issues⟩) []
    parked := (rs.filter fun x => x.2.st == 2).map fun x =>
      (⟨x.2.prio, x.2.pc, laneBit x.1, x.2.park, w.issues - x.2.park⟩ : Parked) }

/-- Return from the handler (R453), when no lane is refused: the frontier of the lanes in state 1, the parked lanes, the
blocked threads that are still live; the rejoin release check follows. -/
def Warp.afterHandler (w : Warp) (m : Mem) : Warp :=
  let rs := ((lanesOf w.live).filter fun l => (look w.entry l).isSome).map fun l => (l, frameLane m w.tfaddr.toNat l)
  let blocked := (w.kept.map fun b => ({ b with mask := b.mask &&& w.live } : Blocked)).filter fun b => b.mask != 0
  let w1 := { w.laned rs with hmode := false, tfaddr := 0, entry := [], kept := [], blocked := blocked, stepDue := false }
  let w2 := w1.releaseCheck
  let (fs, ps) := overflow w2.issues w2.front w2.parked
  let (fs, ps) := reenter 129 fs ps
  { w2 with front := fs, parked := ps }

end Sys2Proof.Machine
end

