-- ==== Sys2Proof/Machine/Operands.lean ====
section
/-! DEFINITION. Operands (03 R57-R61, 05 R128-R132, 06 R153): what an issue reads, every operand form, and how results reach
their destinations. -/

namespace Sys2Proof

/-! ### Types -/

/-- A 64-bit type (R63). -/
def Ty.wide : Ty → Bool
  | .i64 | .n64 | .f64 => true
  | _ => false

/-- A type read as signed (R131). -/
def Ty.signed : Ty → Bool
  | .i32 | .i64 | .i16x2 | .i8 | .i4 => true
  | _ => false

/-- The width of an element of an integer or floating-point type (R27, R63). -/
def Ty.ew : Ty → Nat
  | .i64 | .n64 | .f64 => 64
  | .i16x2 | .n16x2 | .f16x2 | .bf16x2 | .f16 | .bf16 => 16
  | .i8 | .b8 => 8
  | .i4 => 4
  | _ => 32

/-- The elements that a register of a type holds (R27). -/
def Ty.elems : Ty → Nat
  | .i16x2 | .n16x2 | .f16x2 | .bf16x2 => 2
  | .i8 => 4
  | .i4 => 8
  | _ => 1

/-- The IEEE format of a floating-point type (R24). -/
def Ty.ieee : Ty → Machine.Ieee
  | .f64 => Machine.f64
  | .f16 | .f16x2 => Machine.f16
  | .bf16 | .bf16x2 => Machine.bf16
  | _ => Machine.f32

def Ty.isFp : Ty → Bool
  | .f32 | .f64 | .f16 | .bf16 | .f16x2 | .bf16x2 => true
  | _ => false

/-- Elements of one width side by side, the first lowest (R27). -/
def packEls (ew : Nat) : List Nat → Nat
  | [] => 0
  | x :: xs => x % 2 ^ ew + 2 ^ ew * packEls ew xs

/-- Element e of a value (R27). -/
def elemOf (ew : Nat) (x e : Nat) : Nat := x / 2 ^ (ew * e) % 2 ^ ew

/-- The signed reading of w bits. -/
def asSigned (w x : Nat) : Int := if x < 2 ^ (w - 1) then (x : Int) else (x : Int) - (2 ^ w : Nat)

/-- The reading of an element, signed or unsigned by type (R131). -/
def Ty.elemInt (ty : Ty) (x e : Nat) : Int :=
  if ty.signed then asSigned ty.ew (elemOf ty.ew x e) else ((elemOf ty.ew x e : Nat) : Int)

/-- wrap(x, w) as a number of w bits. -/
def wrapNat (w : Nat) (x : Int) : Nat := (x % (2 ^ w : Nat)).toNat

/-- A short immediate under a type (R60): each element holds it, an IEEE type its exact value. -/
def immBits (ty : Ty) (n : BitVec 8) : Nat :=
  let i := n.toInt
  let one := if ty.isFp then ty.ieee.encode (Machine.Num.fin (decide (i < 0)) i.natAbs 0) else wrapNat ty.ew i
  packEls ty.ew (List.replicate ty.elems one)

/-- Whether a destination is an s register. -/
def Opnd.isS : Opnd → Bool
  | .s _ => true
  | _ => false

end Sys2Proof

namespace Sys2Proof.Machine

/-! ### Registers of a warp -/

/-- Register v(n) of a lane. -/
def Warp.vget (w : Warp) (n l : Nat) : Word := lookD w.v (128 * n + l) 0

def Warp.vset (w : Warp) (n l : Nat) (x : Word) : Warp := { w with v := ins w.v (128 * n + l) x }

def Warp.sget (w : Warp) (n : Nat) : Word := lookD w.s n 0

def Warp.sset (w : Warp) (n : Nat) (x : Word) : Warp := { w with s := ins w.s n x }

/-- Predicate n over the lanes; p7 reads true (R57, R59). -/
def Warp.pget (w : Warp) (n : Nat) : Mask := if n = 7 then BitVec.allOnes 128 else lookD w.p n 0

/-- Write predicate n in some lanes. -/
def Warp.pset (w : Warp) (n : Nat) (lanes bits : Mask) : Warp :=
  { w with p := ins w.p n ((w.pget n &&& ~~~lanes) ||| (bits &&& lanes)) }

/-- A v or s register or pair of a lane as a number (R26). -/
def Warp.vpair (w : Warp) (n l : Nat) : BitVec 64 := (w.vget (n + 1) l) ++ (w.vget n l)

def Warp.spair (w : Warp) (n : Nat) : BitVec 64 := (w.sget (n + 1)) ++ (w.sget n)

def Warp.vsetPair (w : Warp) (n l : Nat) (x : BitVec 64) : Warp :=
  (w.vset n l (x.setWidth 32)).vset (n + 1) l (x.extractLsb' 32 32)

def Warp.ssetPair (w : Warp) (n : Nat) (x : BitVec 64) : Warp :=
  (w.sset n (x.setWidth 32)).sset (n + 1) (x.extractLsb' 32 32)

/-- The registers that a warp holds: its base block and its extended block (R119). -/
def Warp.held (w : Warp) (r : LaunchRec) : Nat := r.regs + w.x

/-! ### The issue in progress -/

/-- What an instruction reads as it issues: the machine, the issue, the instruction's fields and head, its workgroup, warp
and kernel, the lanes of the bundle whose guard is true (R57), and the latches it would read (R87, R128). -/
structure Ix where
  s : State
  c : Cur
  i : Instr
  f : Fields
  g : Wg
  w : Warp
  kr : Kernel
  on : Mask
  latch : Tab Latch
  /-- the latches that stay the bundle's -/
  kept : Tab Latch
  deriving Repr

/-- The latches that a bundle reads: clear when the bundle differs from the last one of the port (R87). -/
def Port.latchesFor (p : Port) (c : Cur) : Tab Latch := if p.last = some (c.wid, c.warp, c.bundle) then p.latch else []

/-- The latches that an issue reads: those of its port, or what it read before it waited for walks (R87, R359). -/
def Warp.reads (w : Warp) (p : Port) (c : Cur) : Tab Latch :=
  match w.latched with
  | some (pc, m, t) => if pc = c.pc ∧ m = c.bundle then t else p.latchesFor c
  | none => p.latchesFor c

/-- The lanes of a bundle whose guard is true (R57). -/
def guardLanes (w : Warp) (h : Hd) (bundle : Mask) : Mask :=
  let p := w.pget h.gp.toNat
  bundle &&& (if h.neg then ~~~p else p)

/-- What the issue in progress reads, if its warp is there and the instruction is one of a core. -/
def Ix.of (s : State) (i : Instr) : Option Ix :=
  match s.cur with
  | none => none
  | some c =>
    match look s.wgs c.wid, s.warp? c.wid c.warp, look s.kernels (c.wid / 2 ^ 48), i.fields with
    | some g, some w, some k, some f =>
      some ⟨s, c, i, f, g, w, k, guardLanes w f.hd c.bundle, w.reads ((s.core g.core).port w.port) c,
        ((s.core g.core).port w.port).latchesFor c⟩
    | _, _, _, _ => none

/-- The lanes with a true guard, ascending. -/
def Ix.lanes (x : Ix) : List Nat := lanesOf x.on

/-- The lowest lane of a list, or 0. -/
def firstOf (ls : List Nat) : Nat := ls.headD 0

/-- The operand of a lane as bits; a short immediate under the type (R60), a latch's lane (R129). -/
def Ix.rd (x : Ix) (ty : Ty) (o : Opnd) (l : Nat) : Nat :=
  match o with
  | .v n => if ty.wide then (x.w.vpair n.toNat l).toNat else (x.w.vget n.toNat l).toNat
  | .s n => if ty.wide then (x.w.spair n.toNat).toNat else (x.w.sget n.toNat).toNat
  | .b n =>
    match look x.latch n.toNat with
    | some t => (lookD t.x l 0).toNat
    | none => 0
  | .imm n => immBits ty n
  | .p n => if (x.w.pget n.toNat).getLsbD l then 1 else 0
  | _ => 0

/-- An operand of 32 bits read as unsigned. -/
def Ix.rd32 (x : Ix) (o : Opnd) (l : Nat) : Nat := x.rd .n32 o l

/-- An even pair read as 64 bits. -/
def Ix.rd64 (x : Ix) (o : Opnd) (l : Nat) : Nat := x.rd .n64 o l

/-- A uniform 32-bit operand. -/
def Ix.u32 (x : Ix) (o : Opnd) : Nat := x.rd .n32 o 0

/-- A uniform 64-bit operand. -/
def Ix.u64 (x : Ix) (o : Opnd) : Nat := x.rd .n64 o 0

/-- A predicate operand of a lane. -/
def Ix.pred (x : Ix) (o : Opnd) (l : Nat) : Bool := x.rd .n32 o l == 1

/-- A global effective address (R61), 64 bits. -/
def Ix.gaddr (x : Ix) (base index : Opnd) (off : BitVec 24) (l : Nat) : Nat :=
  wrapNat 64 ((x.rd64 base l : Int) + asSigned 32 (x.rd32 index l) + off.toInt)

/-- A local effective address (R61), 32 bits. -/
def Ix.laddr (x : Ix) (base index : Opnd) (off : BitVec 24) (l : Nat) : Nat :=
  wrapNat 32 ((x.rd32 base l : Int) + asSigned 32 (x.rd32 index l) + off.toInt)

/-! ### Results -/

/-- The threads of the bundle advance and keep their priority. -/
def Cur.advance (c : Cur) : List Move := [⟨c.prio, c.pc + 12, c.bundle⟩]

/-- What an instruction comes to (R436, R84, R444). -/
inductive Eff
  /-- it changed only its warp: the warp after it, a captured latch, where the bundle goes -/
  | regs (w : Warp) (cap : Option (Nat × Latch)) (go : List Move)
  /-- it changed the machine; its warp is as the machine then holds it -/
  | mach (s : State) (cap : Option (Nat × Latch)) (go : List Move)
  /-- it meets a cause -/
  | trap (t : Trap)
  /-- the warp is not ready; nothing has happened -/
  | stall
  /-- it waits in progress; the machine meanwhile -/
  | hold (k : Wait) (s : State)
  deriving Repr, Inhabited

/-- A value for a lane. -/
abbrev LaneVal := Nat × BitVec 64

/-- The lanes that compute: all with a true guard, or the lowest of them for an s destination (R130). -/
def Ix.computing (x : Ix) (d : Opnd) : List Nat := if d.isS then x.lanes.take 1 else x.lanes

/-- Write a destination in some lanes (R130, R132). -/
def Warp.writeD (w : Warp) (d : Opnd) (wide : Bool) (rs : List LaneVal) : Warp :=
  match d with
  | .v n => rs.foldl (fun w r => if wide then w.vsetPair n.toNat r.1 r.2 else w.vset n.toNat r.1 (r.2.setWidth 32)) w
  | .s n => rs.foldl (fun w r => if wide then w.ssetPair n.toNat r.2 else w.sset n.toNat (r.2.setWidth 32)) w
  | .p n => w.pset n.toNat (maskOf (rs.map (·.1))) (maskOf ((rs.filter fun r => r.2 != 0).map (·.1)))
  | _ => w

/-- The latch that an instruction with `SCH.CAP` fills (R128): lanes that did not compute hold 0, a value for an s
register stands in every lane. -/
def Ix.capture (x : Ix) (d : Opnd) (wide : Bool) (rs : List LaneVal) : Option (Nat × Latch) :=
  if x.f.hd.cap then
    some (x.f.hd.latch.toNat, ⟨wide, if d.isS then
      match rs with
      | r :: _ => (List.range x.w.width).map fun l => (l, r.2)
      | [] => []
      else rs⟩)
  else none

/-- The warp after a result is written to D, unless `NWB` is set (R67). -/
def Ix.written (x : Ix) (w : Warp) (d : Opnd) (wide : Bool) (rs : List LaneVal) : Warp :=
  if x.f.hd.nwb then w else w.writeD d wide rs

/-- A register result: D written, the latch captured, the bundle advanced. -/
def Ix.give (x : Ix) (d : Opnd) (wide : Bool) (rs : List LaneVal) : Eff :=
  .regs (x.written x.w d wide rs) (x.capture d wide rs) x.c.advance

/-- One value for each computing lane. -/
def Ix.each (x : Ix) (d : Opnd) (f : Nat → Nat) : List LaneVal := (x.computing d).map fun l => (l, BitVec.ofNat 64 (f l))

/-- A uniform result of an instruction that acts once (R130, R451): written when some lane's guard is true. -/
def Ix.once (x : Ix) (v : Nat) : List LaneVal := (x.lanes.take 1).map fun l => (l, BitVec.ofNat 64 v)

/-- The bundle advances and nothing else happens. -/
def Ix.pass (x : Ix) : Eff := .regs x.w none x.c.advance

/-- The warp changes, the bundle advances. -/
def Ix.warpTo (x : Ix) (w : Warp) : Eff := .regs w none x.c.advance

/-- The machine changes, the bundle advances. -/
def Ix.to (x : Ix) (s : State) : Eff := .mach s none x.c.advance

/-- Change the issuing warp inside a changed machine. -/
def Ix.inWarp (x : Ix) (s : State) (f : Warp → Warp) : State := s.modWarp x.c.wid x.c.warp f

/-- A machine effect with a register result. -/
def Ix.giveIn (x : Ix) (s : State) (d : Opnd) (wide : Bool) (rs : List LaneVal) : Eff :=
  .mach (x.inWarp s fun w => x.written w d wide rs) (x.capture d wide rs) x.c.advance

/-- A cause of what is done once for the bundle names every lane of E. -/
def Ix.onceLanes (x : Ix) (d : Opnd) : Eff → Eff
  | .trap t => .trap (if d.isS then { t with lanes := x.on } else t)
  | e => e

/-- No lane's guard is true. -/
def Ix.idle (x : Ix) : Bool := x.on == 0

end Sys2Proof.Machine
end

