-- ==== Sys2Proof/Machine/Flags.lean ====
section
/-! DEFINITION. Status flags and floating-point traps (02 R47-R49, 06 R154). -/

namespace Sys2Proof.Machine

/-- The trap enables in force: none in handler mode (R438). -/
def Warp.enables (w : Warp) : BitVec 6 := if w.hmode then 0 else w.fte

/-- Whether a condition meets the cause with a place in the ranking of R49: 0 SNAN, 1 IV, 2 DZ, 3 OF, 4 UF, 5 IX. -/
def meets (fte : BitVec 6) (c : Cond) (rank : Nat) : Bool :=
  let b := if rank = 0 then 5 else rank - 1
  fte.getLsbD b && c.getLsbD b

/-- The cause code at a place in the ranking. -/
def fpCause (rank : Nat) : BitVec 7 := if rank = 0 then cFP_SNAN else BitVec.ofNat 7 (0x1F + rank)

/-- The trap that some lanes' conditions meet, if any: the highest-ranked cause and the lanes that meet it (R49). -/
def fpTrap (fte : BitVec 6) (cs : List (Nat × Cond)) : Option Trap :=
  (List.range 6).findSome? fun r =>
    let ls := (cs.filter fun c => meets fte c.2 r).map (·.1)
    if ls.isEmpty then none else some (Trap.plain (fpCause r) (maskOf ls))

/-- The flags of all the conditions, or-ed into `FLG` (R48). -/
def Warp.raise (w : Warp) (cs : List (Nat × Cond)) : Warp :=
  { w with flg := cs.foldl (fun f c => f ||| c.2.setWidth 5) w.flg }

/-- The lanes that stand behind what was computed: with an s destination every active lane reads the same operands, so what
one of them met every active lane meets (R49, R130). -/
def Ix.spread (x : Ix) {α : Type} (d : Opnd) (rs : List (Nat × α)) : List (Nat × α) :=
  match d.isS, rs with
  | true, r :: _ => x.lanes.map fun l => (l, r.2)
  | _, _ => rs

/-- A floating-point result: each computing lane's value and conditions; traps under `FTE`, else flags are raised and D is
written (R48, R49, R154). -/
def Ix.giveFp (x : Ix) (d : Opnd) (wide : Bool) (f : Nat → Nat × Cond) : Eff :=
  let rs := (x.computing d).map fun l => (l, f l)
  let cs := rs.map fun r => (r.1, r.2.2)
  match fpTrap x.w.enables (x.spread d cs) with
  | some t => .trap t
  | none =>
    let vs := rs.map fun r => (r.1, BitVec.ofNat 64 r.2.1)
    .regs (x.written (x.w.raise cs) d wide vs) (x.capture d wide vs) x.c.advance

end Sys2Proof.Machine
end

