-- ==== Sys2Proof/Machine/Issue.lean ====
section
/-! DEFINITION. Issuing an instruction (03 R68, 04 R78, R82-R87, 18 R436-R438): the checks that depend on the warp, the
scoreboard, and what completing, trapping, waiting or holding does to the warp and its port. -/

namespace Sys2Proof.Machine

/-- The width code of a warp (R77). -/
def Warp.wcode (w : Warp) : Nat := if w.width = 32 then 0 else if w.width = 64 then 1 else 2

/-- A deferred cause, or the single step, that comes before the checks of the word (R436 steps 1 and 2). -/
def earlyTrap (w : Warp) (bundle : Mask) : Option Trap :=
  if w.hmode then none
  else
    match w.dfr with
    | d :: _ => some ⟨d.cause, bundle, some (BitVec.ofNat 64 d.pa), none, some d.tag⟩
    | [] => if w.step && w.stepDue then some (Trap.plain cDBG_STEP bundle) else none

/-- The v registers that operand field `x` names, of which position n of the shape says how many: first and count. -/
def vSpan (sh : Shape) (n : Nat) (classes : BitVec 8) (x : BitVec 11) : List (Nat × Nat) :=
  match Opnd.ofBits x with
  | .v i => if classes = 0 then [] else [(i.toNat, if sh.pair.getLsbD n then 2 else 1)]
  | _ => []

/-- Further v registers named by their first index (R119): the runs of tile moves, accumulator moves and the second register
of `.cas`. -/
def extraSpans (f : Fields) : List (Nat × Nat) :=
  let nv (x : BitVec 11) (n : Nat) : List (Nat × Nat) :=
    match Opnd.ofBits x with
    | .v i => [(i.toNat, n)]
    | _ => []
  match f.op with
  | .atl | .atg => if f.ext.extractLsb' 11 4 == 7#4 then nv f.c (if wide64 f.ty then 4 else 2) else []
  | .tmov => if f.opx.getLsbD 0 then nv f.d 1 else if f.opx.getLsbD 1 then nv f.a 1 else []
  | .ald => nv f.d (2 ^ (f.opx.extractLsb' 0 3).toNat)
  | .ast => nv f.a (2 ^ (f.opx.extractLsb' 0 3).toNat)
  | .recomb => nv f.d (2 * 2 ^ (f.opx.extractLsb' 4 3).toNat)
  | _ => []

/-- All v registers that a word names. -/
def vSpans (f : Fields) (sh : Shape) : List (Nat × Nat) :=
  vSpan sh 0 sh.d f.d ++ vSpan sh 1 sh.a f.a ++ vSpan sh 2 sh.b f.b ++ vSpan sh 3 sh.c f.c ++ extraSpans f

/-- A latch operand that is clear or of the other width (R129). -/
def latchBad (latch : Tab Latch) (wide : Bool) (x : BitVec 11) : Bool :=
  match Opnd.ofBits x with
  | .b n =>
    match look latch n.toNat with
    | some t => t.wide != wide
    | none => true
  | _ => false

/-- Steps 7 to 10 of R68. -/
def dynTrap (x : Ix) : Option Trap :=
  let sh := shape x.f
  let priv := match x.f.op with
    | .tret | .trdc => !x.w.hmode
    | _ => false
  if priv then some (Trap.plain cPRIV x.c.bundle)
  else if sh.warpWide && x.c.bundle != x.w.live then some (Trap.plain cPARTIAL_MASK x.c.bundle)
  else if (vSpans x.f sh).any (fun p => decide (p.1 + p.2 > x.w.held x.kr.rc)) then
    some (Trap.plain cREG_RANGE x.c.bundle)
  else if latchBad x.latch (sh.pair.getLsbD 1) x.f.a || latchBad x.latch (sh.pair.getLsbD 2) x.f.b ||
      (usesC sh && latchBad x.latch (sh.pair.getLsbD 3) x.f.c) then some (Trap.plain cSTALE_LATCH x.c.bundle)
  else none

/-- Whether two runs of registers meet. -/
def spansMeet (a n b m : Nat) : Bool := decide (a < b + m) && decide (b < a + n)

/-- Whether an instruction accesses memory, or orders accesses, in the warp's program order (R336, R344). -/
def ordersMemory : Op → Bool
  | .bkt | .launch | .waitk | .fxcvt | .ldl | .stl | .ldg | .stg | .atl | .atg | .stash | .stfl | .stinv | .pref | .seal
  | .cpy | .gath | .scat | .barv | .mmseq | .gld | .gidx | .gsc | .kdrn | .fence | .bflip | .radd | .rfxa | .rmin | .rmax | .ror | .rwo
  | .rarv | .rreq | .waitc | .hbar | .phase | .oapp | .odecl | .tret | .kclaim | .kins | .kprb | .kdel | .kacc => true
  | _ => false

/-- Whether an instruction of the matrix engine's queue accesses local memory (R251, R272). -/
def engineLocal : Op → Bool
  | .tld | .tst | .adrn | .adru | .asca | .aqred | .split | .recomb => true
  | _ => false

/-- Whether an instruction reads or clears `FLG`: all by the same cut (R177, R251, R272). -/
def readsFlags (f : Fields) : Bool :=
  f.op == .flgrd || f.op == .flgclr || ((f.op == .rdsr || f.op == .wrsr) && f.ext.extractLsb' 0 12 == 0x00B#12)

/-- Whether an operand field names an accumulator tile that an `MMSEQ` of the workgroup keeps busy (R250). -/
def busyAcc (q : List SeqJob) (wid : Nat) (x : BitVec 11) : Bool :=
  match Opnd.ofBits x with
  | .a n => q.any fun j => j.wid == wid && j.acc == n.toNat
  | _ => false

/-- The accumulator tiles that an engine instruction names. -/
def engineAccs : Instr → List Nat
  | .mma _ _ _ _ _ d _ _ => [d.idx]
  | .mmasp _ _ _ _ _ _ d _ _ _ => [d.idx]
  | .ald _ _ _ a _ => [a.idx]
  | .ast _ _ _ d _ _ => [d.idx]
  | .azero _ d => [d.idx]
  | .adrn _ _ _ _ _ _ a _ => [a.idx]
  | .adru _ _ _ _ _ _ a _ _ => [a.idx]
  | .asca _ _ d a _ => [d.idx, a.idx]
  | .aqred _ _ _ _ _ _ _ a _ _ => [a.idx]
  | .recomb _ _ _ _ a _ => [a.idx]
  | _ => []

/-- Whether an engine instruction stores to the local area (R251, R272). -/
def engineStores : Instr → Bool
  | .tst _ _ _ _ _ | .adrn _ _ _ _ _ _ _ _ | .adru _ _ _ _ _ _ _ _ _ | .aqred _ _ _ _ _ _ _ _ _ _ | .split _ _ _ _ _ _ => true
  | _ => false

def isAqred : Instr → Bool
  | .aqred _ _ _ _ _ _ _ _ _ _ => true
  | _ => false

/-- The queued engine instructions of a warp. -/
def State.engineJobs (s : State) (core wid warp : Nat) : List EngJob := (s.core core).engq.filter fun j => j.wid == wid && j.warp == warp

/-- Whether a staged `AQRED` at position g of its quad has stores of its own left to make: sums at positions 0 and 2, the output at
position 0 (R284). -/
def Aq.stores (q : Aq) (g : Nat) : Bool := g % 4 == 0 || (g % 4 == 2 && q.steps == 0)

/-- Whether a store of the warp is still to be made by the engine, which a trap waits for (R251, R272, R437). -/
def State.storing (s : State) (core wid warp : Nat) : Bool :=
  (s.engineJobs core wid warp).any (fun j => engineStores j.instr) ||
    match look s.wgs wid with
    | some g => g.aqs.any fun q => q.warp == warp && q.stores g.g
    | none => false

/-- The same, of a warp wherever its workgroup is. -/
def State.storingOf (s : State) (wid warp : Nat) : Bool :=
  match look s.wgs wid with
  | some g => s.storing g.core wid warp
  | none => false

def Ix.storing (x : Ix) : Bool := x.s.storing x.g.core x.c.wid x.c.warp

/-- Whether an instruction of the warp outside the matrix engine's queue, such as a `GLD`, still has accesses to make, which the fork
of an engine thread comes after (R344). -/
def Ix.accessing (x : Ix) : Bool :=
  let js := x.s.engineJobs x.g.core x.c.wid x.c.warp
  x.w.await.any fun a => a.mem && !(js.any fun j => j.id == a.id) && !(x.g.aqs.any fun q => q.id == a.id)

/-- Whether the instruction waits for the engine's queue: an `MMSEQ` for what any warp of the workgroup has queued on its accumulator
tile (R249, R251); one of the queue that accesses memory for an `AQRED` of the warp before it, whose completion is its join edge, and
for the accesses of the warp made outside the queue (R344). -/
def queueHeld (x : Ix) : Bool :=
  let acc : Option Nat := match Opnd.ofBits x.f.d with
    | .a n => some n.toNat
    | _ => none
  (x.f.op == .mmseq && (x.s.core x.g.core).engq.any fun j => j.wid == x.c.wid && (engineAccs j.instr).any fun n => acc == some n) ||
    (engineLocal x.f.op && (x.accessing || (x.s.engineJobs x.g.core x.c.wid x.c.warp).any (fun j => isAqred j.instr) ||
      x.g.aqs.any fun q => q.warp == x.c.warp))

/-- Whether the instruction waits for an engine (R84): for a v register, for accesses to memory or flags of its warp's engine
instructions, for a busy accumulator tile, or for the queue. -/
def scoreHeld (x : Ix) : Bool :=
  queueHeld x ||
  ((vSpans x.f (shape x.f)).any fun p => x.w.await.any fun a => spansMeet a.v a.n p.1 p.2) ||
  (ordersMemory x.f.op && x.w.await.any (·.mem)) || (readsFlags x.f && x.w.await.any (·.flags)) ||
  (let q := (x.s.core x.g.core).seqq
   [x.f.d, x.f.a, x.f.b].any (busyAcc q x.c.wid))

/-- Whether a later spec read may still be made before this instruction's access: it makes none, or it is an acquire (R340). The reads
of an instruction of the matrix engine's queue bound it when they have been made. -/
def outrun (f : Fields) : Bool :=
  !ordersMemory f.op || f.op == .waitk || f.op == .waitc ||
    ((f.op == .ldl || f.op == .ldg || f.op == .atl || f.op == .atg || f.op == .fence) && f.opx.getLsbD 3)

/-- Clocks per 32-lane pass (R152). -/
def clocksPerPass (f : Fields) : Nat :=
  let d := f.ty == 5#4
  match f.op with
  | .fdiv | .fsqrt => if d then 16 else 4
  | .frcp | .frsq | .fexp2 | .flog2 | .fsin | .fcos => if d then 8 else 2
  | .cvt => if d || f.opx.extractLsb' 0 4 == 5#4 then 2 else 1
  | .fxcvt => 1
  | .idiv | .irem => if wide64 f.ty then 16 else 4
  | .fadd | .fsub | .fmul | .ffma | .fmin | .fmax | .fabs | .fneg | .fcpys | .fset | .fclass | .fscale | .frnd | .amax => if d then 2 else 1
  | _ => 1

/-- The passes of a bundle: groups of 32 lanes that hold a thread of it (R78). -/
def passes (m : Mask) : Nat := ((List.range 4).filter fun k => (m >>> (32 * k)).setWidth 32 != (0 : BitVec 32)).length

/-- A latch written by a capture (R128). -/
def putLatch (t : Tab Latch) : Option (Nat × Latch) → Tab Latch
  | some (n, l) => ins t n l
  | none => t

/-- The port after an issue: its last bundle, its latches, the clocks of its passes (R78, R87, R128). -/
def Ix.portAfter (x : Ix) (cap : Option (Nat × Latch)) : Port :=
  { last := some (x.c.wid, x.c.warp, x.c.bundle)
    slot := x.w.ctx0 / 32
    latch := putLatch x.kept cap
    busy := x.s.clocksAt x.g.core + passes x.c.bundle * clocksPerPass x.f
    after := x.s.clocksAt x.g.core + 1 }

/-- The warp after an instruction is complete: frontier, hints, single-step mark (R66, R82-R86, R457). -/
def Ix.warpAfter (x : Ix) (go : List Move) (w : Warp) : Warp :=
  let now := x.s.clocksAt x.g.core
  { w.afterIssue x.c.bundle go with
    hold := none
    walked := []
    latched := none
    keyMade := 0
    keyKept := if x.w.hmode then w.keyKept else w.keyKept.filter fun k => k.2.1 &&& x.c.bundle == 0
    stepDue := !w.hmode
    tpnd := false
    stUntil := now + x.f.hd.st.toNat
    passOver := x.f.hd.yl || x.f.op == .yield
    floor := if outrun x.f then w.floor else x.s.past.length
    readySince := none }

/-- Only the port that issued has its other warps' turn to be passed over used up (R86). -/
def Ix.issued (x : Ix) (cap : Option (Nat × Latch)) (s : State) : State :=
  s.modCore x.g.core fun k => k.setPort x.w.port (x.portAfter cap)

/-- Completion of an issue. -/
def Ix.complete (x : Ix) (cap : Option (Nat × Latch)) (go : List Move) (s : State) : State :=
  { (x.issued cap s).modWarp x.c.wid x.c.warp (x.warpAfter go) with cur := none }

/-- What the issue does to the machine. -/
def Ix.settle (x : Ix) : Eff → State
  | .regs w cap go => x.complete cap go (x.s.modWarp x.c.wid x.c.warp fun _ => w)
  | .mach s cap go => x.complete cap go s
  | .trap t => x.s.takeTrap x.c t
  | .stall => { x.s with cur := some { x.c with ready := false } }
  | .hold k s =>
    { (x.issued none s).modWarp x.c.wid x.c.warp (fun w => { w with hold := some ⟨x.c, x.i, s.time, k, x.latch⟩ }) with cur := none }

/-- The result of an issue: a cause that comes first, the scoreboard, then the instruction's own (R436). -/
def Ix.checked (x : Ix) (e : Eff) : Eff :=
  match earlyTrap x.w x.c.bundle with
  | some t => .trap t
  | none =>
    match dynTrap x with
    | some t => .trap t
    | none => if scoreHeld x then .stall else e

/-- A trap waits until the warp's older engine stores have been made (R437). -/
def Ix.entering (x : Ix) : Eff → Eff
  | .trap t => if x.storing then .stall else .trap t
  | e => e

/-- Issue an instruction: the meaning of every instruction of a core, given what is its own. With no issue in progress
there are no threads for it to act on (L4). -/
def issue (i : Instr) (s : State) (body : Ix → Eff) : Host.Outcome State Fault Refusal :=
  match Ix.of s i with
  | none => .next s
  | some x => .next (x.settle (x.entering (x.checked (body x))))

/-! ### Instructions in progress -/

/-- The keyed queue without the instruction of a warp that acts on lanes: it is over (R301). -/
def Core.keyOut (c : Core) (wid warp : Nat) : Core :=
  { c with keyq := c.keyq.filter fun j => !(j.wid == wid && j.warp == warp && j.prm.isEmpty) }

/-- The warp's instruction in progress ends with an effect, in a step of another agent: its port is not used. -/
def Ix.settleHeld (x : Ix) : Eff → State
  | .regs w cap go =>
    { ((x.s.modWarp x.c.wid x.c.warp fun _ => w).modCore x.g.core fun k =>
        let p := k.port x.w.port
        if p.last = some (x.c.wid, x.c.warp, x.c.bundle) then k.setPort x.w.port { p with latch := putLatch p.latch cap } else k).modWarp
          x.c.wid x.c.warp (x.warpAfter go) with cur := none }
  | .mach s cap go =>
    { (s.modCore x.g.core fun k =>
        let p := k.port x.w.port
        if p.last = some (x.c.wid, x.c.warp, x.c.bundle) then k.setPort x.w.port { p with latch := putLatch p.latch cap } else k).modWarp
          x.c.wid x.c.warp (x.warpAfter go) with cur := none }
  | .trap t =>
    if x.storing then { x.s with cur := none } else (x.s.modCore x.g.core fun k => k.keyOut x.c.wid x.c.warp).takeTrap x.c t
  | .stall => { x.s with cur := none }
  | .hold k s =>
    { s.modWarp x.c.wid x.c.warp (fun w => { w with hold := w.hold.map fun h => { h with wait := k } }) with cur := none }

/-- The instruction in progress of a warp, as an issue. -/
def State.held (s : State) (wid i : Nat) : Option (Hold × Ix) :=
  match s.warp? wid i with
  | some w =>
    match w.hold with
    | some h =>
      match Ix.of { s with cur := some h.cur } h.instr with
      | some x => some (h, { x with latch := h.latch })
      | none => none
    | none => none
  | none => none

/-- End the instruction in progress of a warp, if it waits as `sel` says. -/
def State.endHold (s : State) (wid i : Nat) (sel : Hold → Ix → Option Eff) : Host.Outcome State Fault Refusal :=
  match s.held wid i with
  | some (h, x) =>
    match sel h x with
    | some e => .next (x.settleHeld e)
    | none => .next s
  | none => .next s

end Sys2Proof.Machine
end

