-- ==== Sys2Proof/Machine/Trans.lean ====
section
/-! DEFINITION. The transcendental functions (06 R165, R166): correctly rounded, by enclosures between integers of growing
precision until both ends round alike. -/

namespace Sys2Proof.Machine

/-- An enclosure of a magnitude: lo ≤ |y| * 2^scale ≤ hi, with the sign of y. -/
structure Encl where
  neg : Bool
  lo : Nat
  hi : Nat
  scale : Int
  deriving Repr, Inhabited

/-- The enclosure of an approximation with an error in units of 2^-scale. -/
def encl (y : Int) (err : Nat) (scale : Int) : Encl := ⟨decide (y < 0), y.natAbs - err, y.natAbs + err, scale⟩

/-- Round an irrational result to nearest: precisions W, 2W, … until both ends of the enclosure round alike. -/
def roundEncl (f : Fmt) (sat : Bool) (approx : Nat → Encl) : Nat → Nat → Num × Cond
  | 0, w =>
    let e := approx w
    roundTo f .rne sat e.neg e.hi (-e.scale) true
  | k + 1, w =>
    let e := approx w
    let a := roundTo f .rne sat e.neg e.lo (-e.scale) true
    let b := roundTo f .rne sat e.neg e.hi (-e.scale) true
    if cmpNum a.1 b.1 = some .eq then b else roundEncl f sat approx k (2 * w)

/-- Σ ± term / (2j + 1) with term falling by a factor x2: the arctangent series of an inverse integer. -/
def atanTerms (alt : Bool) (x2 : Nat) : Nat → Nat → Nat → Int
  | 0, _, _ => 0
  | k + 1, term, j =>
    if term = 0 then 0
    else
      let t : Int := (term / (2 * j + 1) : Nat)
      (if alt && j % 2 == 1 then -t else t) + atanTerms alt x2 k (term / x2) (j + 1)

/-- ln 2 in units of 2^-w, within w units. -/
def ln2Fix (w : Nat) : Nat := (2 * atanTerms false 9 (w + 8) (2 ^ w / 3) 0).toNat

/-- π in units of 2^-w, within one unit: 16 more bits are carried and dropped. -/
def piFix (w : Nat) : Nat :=
  let v := w + 32
  ((16 * atanTerms true 25 (v + 8) (2 ^ v / 5) 0 - 4 * atanTerms true 57121 (v + 8) (2 ^ v / 239) 0).toNat) / 2 ^ 32

/-- ln 2 in units of 2^-w, within one unit. -/
def ln2Unit (w : Nat) : Nat := ln2Fix (w + 32) / 2 ^ 32

/-- Σ z^j / j! in units of 2^-w. -/
def expTerms (w z : Nat) : Nat → Nat → Nat → Nat
  | 0, _, _ => 0
  | k + 1, term, j => if term = 0 then 0 else term + expTerms w z k (term * z / 2 ^ w / (j + 1)) (j + 1)

/-- 2^a for a = v * 2^e with e < 0, not an integer. -/
def exp2Approx (v : Int) (e : Int) (w : Nat) : Encl :=
  let d := (-e).toNat
  let n := v / (2 ^ d : Nat)
  let fr := (v % (2 ^ d : Nat)).toNat
  let z := fr * 2 ^ w / 2 ^ d * ln2Unit w / 2 ^ w
  encl (expTerms w z (w + 16) (2 ^ w) 0 : Nat) (8 * w) ((w : Int) - n)

/-- Σ u^(2j+1) / (2j+1) in units of 2^-w. -/
def atanhTerms (w u2 : Nat) : Nat → Nat → Nat → Nat
  | 0, _, _ => 0
  | k + 1, term, j => if term = 0 then 0 else term / (2 * j + 1) + atanhTerms w u2 k (term * u2 / 2 ^ w) (j + 1)

/-- log2 of m * 2^e, not a power of two. -/
def log2Approx (m : Nat) (e : Int) (w : Nat) : Encl :=
  let k := e + (m.log2 : Int)
  let one := 2 ^ w
  let z := m * one / 2 ^ m.log2
  let u := (z - one) * one / (z + one)
  let s := 2 * atanhTerms w (u * u / one) (w + 8) u 0
  encl (k * (one : Nat) + ((s * one / ln2Unit w : Nat) : Int)) (16 * w) w

/-- Σ of the sine (odd = 1) or cosine (odd = 0) series in units of 2^-w; r2 is the square of the argument. -/
def trigTerms (w r2 : Nat) : Nat → Nat → Nat → Bool → Int
  | 0, _, _, _ => 0
  | k + 1, term, j, minus =>
    if term = 0 then 0
    else
      (if minus then -(term : Int) else (term : Int)) +
      trigTerms w r2 k (term * r2 / 2 ^ w / ((j + 1) * (j + 2))) (j + 2) (!minus)

/-- sine or cosine of ±m * 2^e, with the argument reduced by multiples of π/2: `hp / 4` is π/2 in units
of 2^-v. -/
def trigApprox (cosine neg : Bool) (m : Nat) (e : Int) (w0 : Nat) : Encl :=
  let ea := e + (m.log2 : Int)
  let w := w0 + (-ea).toNat
  let v := w + ea.toNat + 16
  let sh := e + (v : Int)
  let av := if sh ≥ 0 then m * 2 ^ sh.toNat else m / 2 ^ (-sh).toNat
  let hp := piFix (v + 1)
  let half := hp / 4
  let q := (av + half / 2) / half
  let r : Int := (av : Int) - ((q * hp / 4 : Nat) : Int)
  let ra := r.natAbs / 2 ^ (v - w)
  let r2 := ra * ra / 2 ^ w
  let sn0 := trigTerms w r2 (w + 8) ra 1 false
  let cs := trigTerms w r2 (w + 8) (2 ^ w) 0 false
  let sn := if r < 0 then -sn0 else sn0
  let y := if cosine then (match q % 4 with | 0 => cs | 1 => -sn | 2 => -cs | _ => sn)
    else (match q % 4 with | 0 => sn | 1 => cs | 2 => -sn | _ => -cs)
  encl (if !cosine && neg then -y else y) (16 * w) w

/-- UF as R166 judges it, on the returned value: inexact and below the smallest normal. -/
def judged (f : Fmt) (r : Num × Cond) : Num × Cond :=
  match r.1 with
  | .fin _ m e =>
    if r.2 &&& cIX = 0 then r
    else
      let small := m = 0 || decide (e + (m.log2 : Int) < f.emin)
      (r.1, (r.2 &&& ~~~cUF) ||| (if small then cUF else 0))
  | _ => r

/-- The least precision tried. -/
def startBits (f : Fmt) : Nat := f.p + 48

def fpRcp (f : Fmt) (sat : Bool) (a : Num) : Num × Cond := judged f (fpDiv f .rne sat (.fin false 1 0) a)

/-- The reciprocal square root of a positive number, from an integer root with the remainder noted. -/
def rsqScaled (p m : Nat) (e : Int) : Nat × Int × Bool :=
  let m := if e % 2 = 0 then m else 2 * m
  let e := if e % 2 = 0 then e else e - 1
  let k := p + 4 + m.log2
  let r := isqrt (2 ^ (2 * k) / m)
  (r, -(e / 2) - (k : Int), r * r * m != 2 ^ (2 * k))

def fpRsq (f : Fmt) (a : Num) : Num × Cond :=
  match a with
  | .nan s => (.nan false, if s then cSN else cNone)
  | .inf false => (.fin false 0 0, cNone)
  | .inf true => (.nan false, cIV)
  | .fin n m e =>
    if m = 0 then (.inf n, cDZ)
    else if n then (.nan false, cIV)
    else
      let (r, q, st) := rsqScaled f.p m e
      judged f (roundTo f .rne false false r q st)

/-- The value v * 2^e of a number known to be an integer. -/
def intOf (neg : Bool) (m : Nat) (e : Int) : Int := sgn neg (if e ≥ 0 then m * 2 ^ e.toNat else m / 2 ^ (-e).toNat)

/-- Whether m * 2^e is an integer. -/
def isInt (m : Nat) (e : Int) : Bool := decide (0 ≤ e) || m % 2 ^ (-e).toNat == 0

def fpExp2 (f : Fmt) (sat : Bool) (a : Num) : Num × Cond :=
  match a with
  | .nan s => (.nan false, if s then cSN else cNone)
  | .inf n => (if n then .fin false 0 0 else .inf false, cNone)
  | .fin n m e =>
    if m = 0 then (.fin false 1 0, cNone)
    else if decide (e + (m.log2 : Int) ≥ 14) then
      judged f (roundTo f .rne sat false 1 (if n then -20000 else 20000) false)
    else if isInt m e then judged f (roundTo f .rne sat false 1 (intOf n m e) false)
    else judged f (roundEncl f sat (exp2Approx (sgn n m) e) 12 (startBits f))

def fpLog2 (f : Fmt) (a : Num) : Num × Cond :=
  match a with
  | .nan s => (.nan false, if s then cSN else cNone)
  | .inf n => if n then (.nan false, cIV) else (.inf false, cNone)
  | .fin n m e =>
    if m = 0 then (.inf true, cDZ)
    else if n then (.nan false, cIV)
    else if m = 2 ^ m.log2 then
      let k := e + (m.log2 : Int)
      roundTo f .rne false (decide (k < 0)) k.natAbs 0 false
    else judged f (roundEncl f false (log2Approx m e) 12 (startBits f))

def fpTrig (f : Fmt) (cosine : Bool) (a : Num) : Num × Cond :=
  match a with
  | .nan s => (.nan false, if s then cSN else cNone)
  | .inf _ => (.nan false, cIV)
  | .fin n m e =>
    if m = 0 then (if cosine then .fin false 1 0 else .fin n 0 0, cNone)
    else judged f (roundEncl f false (trigApprox cosine n m e) 12 (startBits f))

end Sys2Proof.Machine
end

