-- ==== Sys2Proof/Machine/Fpa.lean ====
section
/-! DEFINITION. The FPA group (06 R156-R166): floating-point arithmetic in the vector pipes. -/

namespace Sys2Proof.Machine

/-- The rounding mode in use (R32). -/
def Ix.mode (x : Ix) : Rnd → Mode
  | .rne => .rne
  | .rz => .rz
  | .rp => .rp
  | .rm => .rm
  | .dyn => match x.w.frm.toNat with
    | 0 => .rne | 1 => .rz | 2 => .rp | _ => .rm

/-- Element e of a value as a number (R153). -/
def fpElem (ty : Ty) (v e : Nat) : Num := ty.ieee.decode (elemOf ty.ew v e)

/-- Elements computed each on its own, with all their conditions (R154). -/
def fpEls (ty : Ty) (f : Nat → Num × Cond) : Nat × Cond :=
  let rs := (List.range ty.elems).map f
  (packEls ty.ew (rs.map fun r => ty.ieee.encode r.1), rs.foldl (fun c r => c ||| r.2) cNone)

def Ix.fp1 (x : Ix) (ty : Ty) (d a : Opnd) (f : Num → Num × Cond) : Eff :=
  x.giveFp d ty.wide fun l => fpEls ty fun e => f (fpElem ty (x.rd ty a l) e)

def Ix.fp2 (x : Ix) (ty : Ty) (d a b : Opnd) (f : Num → Num → Num × Cond) : Eff :=
  x.giveFp d ty.wide fun l => fpEls ty fun e => f (fpElem ty (x.rd ty a l) e) (fpElem ty (x.rd ty b l) e)

def Ix.fp3 (x : Ix) (ty : Ty) (d a b c : Opnd) (f : Num → Num → Num → Num × Cond) : Eff :=
  x.giveFp d ty.wide fun l => fpEls ty fun e =>
    f (fpElem ty (x.rd ty a l) e) (fpElem ty (x.rd ty b l) e) (fpElem ty (x.rd ty c l) e)

def execFadd (h : Hd) (rnd : Rnd) (ty : Ty) (sat : Bool) (d a b : Opnd) (s : State) : Host.Outcome State Fault Refusal :=
  issue (.fadd h rnd ty sat d a b) s fun x => x.fp2 ty d a b (fpAdd ty.ieee.fmt (x.mode rnd) sat)

def execFsub (h : Hd) (rnd : Rnd) (ty : Ty) (sat : Bool) (d a b : Opnd) (s : State) : Host.Outcome State Fault Refusal :=
  issue (.fsub h rnd ty sat d a b) s fun x => x.fp2 ty d a b (fpSub ty.ieee.fmt (x.mode rnd) sat)

def execFmul (h : Hd) (rnd : Rnd) (ty : Ty) (sat : Bool) (d a b : Opnd) (s : State) : Host.Outcome State Fault Refusal :=
  issue (.fmul h rnd ty sat d a b) s fun x => x.fp2 ty d a b (fpMul ty.ieee.fmt (x.mode rnd) sat)

def execFfma (h : Hd) (rnd : Rnd) (ty : Ty) (sat : Bool) (d a b c : Opnd) (s : State) : Host.Outcome State Fault Refusal :=
  issue (.ffma h rnd ty sat d a b c) s fun x => x.fp3 ty d a b c (fpFma ty.ieee.fmt (x.mode rnd) sat)

def execFmin (h : Hd) (num : Bool) (ty : Ty) (d a b : Opnd) (s : State) : Host.Outcome State Fault Refusal :=
  issue (.fmin h num ty d a b) s fun x => x.fp2 ty d a b (fpMinMax false num)

def execFmax (h : Hd) (num : Bool) (ty : Ty) (d a b : Opnd) (s : State) : Host.Outcome State Fault Refusal :=
  issue (.fmax h num ty d a b) s fun x => x.fp2 ty d a b (fpMinMax true num)

/-- Sign bits rewritten element by element; NaNs are copied (R160). -/
def signEls (ty : Ty) (f : Nat → Nat → Nat) (a b : Nat) : Nat :=
  packEls ty.ew ((List.range ty.elems).map fun e =>
    let m := 2 ^ (ty.ew - 1)
    let va := elemOf ty.ew a e
    va % m + m * f (va / m) (elemOf ty.ew b e / m))

def execFabs (h : Hd) (ty : Ty) (d a : Opnd) (s : State) : Host.Outcome State Fault Refusal :=
  issue (.fabs h ty d a) s fun x => x.give d ty.wide (x.each d fun l => signEls ty (fun _ _ => 0) (x.rd ty a l) 0)

def execFneg (h : Hd) (ty : Ty) (d a : Opnd) (s : State) : Host.Outcome State Fault Refusal :=
  issue (.fneg h ty d a) s fun x => x.give d ty.wide (x.each d fun l => signEls ty (fun p _ => 1 - p) (x.rd ty a l) 0)

def execFcpys (h : Hd) (ty : Ty) (d a b : Opnd) (s : State) : Host.Outcome State Fault Refusal :=
  issue (.fcpys h ty d a b) s fun x =>
    x.give d ty.wide (x.each d fun l => signEls ty (fun _ q => q) (x.rd ty a l) (x.rd ty b l))

def execFdiv (h : Hd) (rnd : Rnd) (ty : Ty) (sat : Bool) (d a b : Opnd) (s : State) : Host.Outcome State Fault Refusal :=
  issue (.fdiv h rnd ty sat d a b) s fun x => x.fp2 ty d a b (fpDiv ty.ieee.fmt (x.mode rnd) sat)

def execFsqrt (h : Hd) (rnd : Rnd) (ty : Ty) (d a : Opnd) (s : State) : Host.Outcome State Fault Refusal :=
  issue (.fsqrt h rnd ty d a) s fun x => x.fp1 ty d a (fpSqrt ty.ieee.fmt (x.mode rnd))

def execFrcp (h : Hd) (ty : Ty) (sat : Bool) (d a : Opnd) (s : State) : Host.Outcome State Fault Refusal :=
  issue (.frcp h ty sat d a) s fun x => x.fp1 ty d a (fpRcp ty.ieee.fmt sat)

def execFrsq (h : Hd) (ty : Ty) (d a : Opnd) (s : State) : Host.Outcome State Fault Refusal :=
  issue (.frsq h ty d a) s fun x => x.fp1 ty d a (fpRsq ty.ieee.fmt)

def execFexp2 (h : Hd) (ty : Ty) (sat : Bool) (d a : Opnd) (s : State) : Host.Outcome State Fault Refusal :=
  issue (.fexp2 h ty sat d a) s fun x => x.fp1 ty d a (fpExp2 ty.ieee.fmt sat)

def execFlog2 (h : Hd) (ty : Ty) (d a : Opnd) (s : State) : Host.Outcome State Fault Refusal :=
  issue (.flog2 h ty d a) s fun x => x.fp1 ty d a (fpLog2 ty.ieee.fmt)

def execFsin (h : Hd) (ty : Ty) (d a : Opnd) (s : State) : Host.Outcome State Fault Refusal :=
  issue (.fsin h ty d a) s fun x => x.fp1 ty d a (fpTrig ty.ieee.fmt false)

def execFcos (h : Hd) (ty : Ty) (d a : Opnd) (s : State) : Host.Outcome State Fault Refusal :=
  issue (.fcos h ty d a) s fun x => x.fp1 ty d a (fpTrig ty.ieee.fmt true)

/-- A floating-point comparison and its conditions (R161). -/
def fcmp (c : FCmp) (a b : Num) : Bool × Cond :=
  let sn := snOf a ||| snOf b
  let un := a.isNan || b.isNan
  let o := cmpNum a b
  let quiet (r : Bool) : Bool × Cond := (r, sn)
  let loud (r : Bool) : Bool × Cond := (r, if un then sn ||| cIV else sn)
  match c with
  | .eq => quiet (o == some .eq)
  | .ne => quiet (o != some .eq)
  | .lt => loud (o == some .lt)
  | .le => loud (o == some .lt || o == some .eq)
  | .gt => loud (o == some .gt)
  | .ge => loud (o == some .gt || o == some .eq)
  | .un => quiet un
  | .ord => quiet (!un)

def execFset (h : Hd) (cmp : FCmp) (ty : Ty) (d a b : Opnd) (s : State) : Host.Outcome State Fault Refusal :=
  issue (.fset h cmp ty d a b) s fun x =>
    x.giveFp d false fun l =>
      let r := fcmp cmp (fpElem ty (x.rd ty a l) 0) (fpElem ty (x.rd ty b l) 0)
      (if r.1 then 1 else 0, r.2)

/-- The class bit of a value (R162). -/
def fclassBit (f : Ieee) (v : Nat) : Nat :=
  match f.decode v with
  | .nan s => if s then 0 else 1
  | .inf n => if n then 2 else 9
  | .fin n m e =>
    if m = 0 then (if n then 5 else 6)
    else if e + (m.log2 : Int) < f.fmt.emin then (if n then 4 else 7)
    else if n then 3 else 8

def execFclass (h : Hd) (ty : Ty) (d a : Opnd) (s : State) : Host.Outcome State Fault Refusal :=
  issue (.fclass h ty d a) s fun x => x.give d false (x.each d fun l => 2 ^ fclassBit ty.ieee (elemOf ty.ew (x.rd ty a l) 0))

def execFscale (h : Hd) (rnd : Rnd) (ty : Ty) (sat : Bool) (d a b : Opnd) (s : State) : Host.Outcome State Fault Refusal :=
  issue (.fscale h rnd ty sat d a b) s fun x =>
    x.giveFp d ty.wide fun l => fpEls ty fun e =>
      fpScale ty.ieee.fmt (x.mode rnd) sat (fpElem ty (x.rd ty a l) e) (asSigned 32 (x.rd32 b l))

def execFrnd (h : Hd) (ex : Bool) (rnd : Rnd) (ty : Ty) (d a : Opnd) (s : State) : Host.Outcome State Fault Refusal :=
  issue (.frnd h ex rnd ty d a) s fun x => x.fp1 ty d a (fpRnd (x.mode rnd) ex)

/-- The dot product of two elements and an addend (R158): exact, one rounding to f32. As in R51, a NaN among the three
terms gives the canonical NaN and raises IV. -/
def dot2 (ty : Ty) (mode : Mode) (sat : Bool) (a b c : Nat) : Nat × Cond :=
  let ae (e : Nat) : Num := fpElem ty a e
  let be (e : Nat) : Num := fpElem ty b e
  let cn := f32.decode c
  let sn := snOf (ae 0) ||| snOf (ae 1) ||| snOf (be 0) ||| snOf (be 1) ||| snOf cn
  let p0 := mulNum (ae 0) (be 0)
  let p1 := mulNum (ae 1) (be 1)
  let nan := if p0.1.isNan || p1.1.isNan || cn.isNan then cIV else cNone
  let r := finish1 f32.fmt mode sat (sn ||| p0.2 ||| p1.2 ||| nan) (sumNum (mode == .rm) [p0.1, p1.1, cn])
  (f32.encode r.1, r.2)

def execFdot2 (h : Hd) (rnd : Rnd) (ty : Ty) (sat : Bool) (d a b c : Opnd) (s : State) : Host.Outcome State Fault Refusal :=
  issue (.fdot2 h rnd ty sat d a b c) s fun x =>
    x.giveFp d false fun l => dot2 ty (x.mode rnd) sat (x.rd ty a l) (x.rd ty b l) (x.rd .f32 c l)

end Sys2Proof.Machine
end

