-- ==== Sys2Proof/Machine/B8.lean ====
section
/-! DEFINITION. The binary8 family and microscaling blocks (R35-R42). -/

namespace Sys2Proof.Machine

/-- A binary8 format: unsigned, with infinities, precision (R35). -/
structure B8 where
  u : Bool
  i : Bool
  k : Nat
  deriving DecidableEq, Repr, Inhabited

/-- The format of a code (R35). -/
def B8.ofCode (c : BitVec 5) : B8 := ⟨c.getLsbD 4, c.getLsbD 3, (c.extractLsb' 0 3).toNat + 1⟩

/-- Exponent width (R36). -/
def B8.w (f : B8) : Nat := if f.u then 9 - f.k else 8 - f.k

def B8.bias (f : B8) : Nat := 2 ^ (f.w - 1)

/-- The byte of the NaN (R36). -/
def B8.nanByte (f : B8) : Nat := if f.u then 0xFF else 0x80

/-- The byte of an infinity, where the format has one (R36). -/
def B8.infByte (f : B8) (neg : Bool) : Nat := if f.u then 0xFE else if neg then 0xFF else 0x7F

/-- The largest finite byte (R37). -/
def B8.maxByte (f : B8) : Nat := (if f.u then 0xFE else 0x7F) - (if f.i then 1 else 0)

/-- The magnitude of a byte's exponent and fraction fields (R36). -/
def B8.mag (f : B8) (b : Nat) : Nat × Int :=
  let t := f.k - 1
  let e := b / 2 ^ t
  let fr := b % 2 ^ t
  if e = 0 then (fr, 1 - (f.bias : Int) - (t : Int)) else (fr + 2 ^ t, (e : Int) - (f.bias : Int) - (t : Int))

/-- decode_b8 (R36). -/
def B8.decode (f : B8) (b : Nat) : Num :=
  if b = f.nanByte then .nan false
  else if f.u then
    if f.i && b == 0xFE then .inf false
    else let (m, e) := f.mag b; .fin false m e
  else if f.i && b == 0x7F then .inf false
  else if f.i && b == 0xFF then .inf true
  else let (m, e) := f.mag (b % 128); .fin (decide (b ≥ 128)) m e

/-- The format for rounding (R37). -/
def B8.fmt (f : B8) : Fmt :=
  let (m, e) := f.mag f.maxByte
  { p := f.k, emin := 1 - (f.bias : Int), maxM := m, maxE := e }

/-- The exponent of the largest finite value (R37). -/
def B8.emax (f : B8) : Int := f.fmt.maxE + (f.fmt.maxM.log2 : Int)

/-- The byte of a number on the format's grid; zeros give 0x00 (R36). -/
def B8.encode (f : B8) : Num → Nat
  | .nan _ => f.nanByte
  | .inf n => f.infByte n
  | .fin n m e =>
    if m = 0 then 0 else (if n then 128 else 0) + encodeMag (f.k - 1) (1 - (f.bias : Int)) m e

/-- convert_b8 (R38, R39): the byte and the conditions. -/
def B8.convert (f : B8) (mode : Mode) (sat : Bool) (x : Num) : Nat × Cond :=
  match x with
  | .nan s => (f.nanByte, if s then cSN else cNone)
  | .inf n =>
    if f.u && n then (0, cIV)
    else if f.i then (f.infByte n, cNone)
    else if sat then (f.encode (.fin n f.fmt.maxM f.fmt.maxE), cNone)
    else (f.nanByte, cIV)
  | .fin n m e =>
    if m = 0 then (0, cNone)
    else
      let (r, c) := roundTo f.fmt mode sat n m e false
      if f.u && n then (if r.isZero then (0, cUF ||| cIX) else (0, cIV))
      else
        match r with
        | .inf n' => (if f.i then f.infByte n' else f.nanByte, c)
        | r => (f.encode r, c)

/-- The quotient of a number by 2^x, exact. -/
def scaleBy (x : Int) : Num → Num
  | .fin n m e => .fin n m (e + x)
  | y => y

/-- |x| of a finite nonzero number: floor (log2 |x|). -/
def expOf : Num → Option Int
  | .fin _ m e => if m = 0 then none else some (e + (m.log2 : Int))
  | _ => none

/-- The largest of the exponents of finite nonzero values; none when all are zero or infinite. -/
def maxExp : List Num → Option Int
  | [] => none
  | x :: xs =>
    match expOf x, maxExp xs with
    | some a, some b => some (if a ≤ b then b else a)
    | some a, none => some a
    | none, r => r

/-- The scale code of a block and its X; none for a block that holds a NaN or an infinity without encoding (R42). -/
def mxScale (f : B8) (vs : List Num) : Option (Nat × Int) :=
  if vs.any Num.isNan || (!f.i && (hasInf false vs || hasInf true vs)) then none
  else
    match maxExp vs with
    | none => some (0, -127)
    | some a =>
      let x := a - f.emax
      let x := if x < -127 then -127 else if x > 127 then 127 else x
      some ((x + 127).toNat, x)

/-- Conditions of a block that has no scale (R42). -/
def mxBadCond (f : B8) (vs : List Num) : Cond :=
  (vs.foldl (fun c v => c ||| snOf v) cNone) |||
  (if !f.i && (hasInf false vs || hasInf true vs) then cIV else cNone)

/-- One element of a block that has a scale: always saturating (R42). -/
def mxElem (f : B8) (mode : Mode) (x : Int) (v : Num) : Nat × Cond :=
  match v with
  | .inf _ => f.convert mode false v
  | _ => f.convert mode true (scaleBy (-x) v)

end Sys2Proof.Machine
end

