-- ==== Sys2Proof/Machine/Lines.lean ====
section
/-! DEFINITION. Accumulator lines (02 R43-R46, 15 R372): contributions, initialisation and read-out of a line's bytes. -/

namespace Sys2Proof.Machine

/-- An accumulator line: header fields and the integer A. -/
structure Line where
  count : Nat
  gen : Nat
  weight : Int
  inx : Bool
  nz : Bool
  ninf : Bool
  pinf : Bool
  nan : Bool
  ovf : Bool
  a : Int
  deriving DecidableEq, Repr, Inhabited

/-- The bytes of A: 448 bits in a half-line, 960 in an FP64 line (R43, R45). -/
def lineBytes (full : Bool) : Nat := if full then 120 else 56

/-- The size of a line. -/
def lineSize (full : Bool) : Nat := if full then 128 else 64

/-- A line from its bytes (R43, R45). -/
def Line.ofBytes (full : Bool) (bs : List Byte) : Line :=
  let h := BitVec.ofNat 64 (natOfBytes (bs.take 8))
  let n := 8 * lineBytes full
  let x := natOfBytes ((bs.drop 8).take (lineBytes full))
  { count := (h.extractLsb' 32 32).toNat, gen := (h.extractLsb' 24 8).toNat
    weight := if full then (h.extractLsb' 12 12).toInt else -149
    inx := full && h.getLsbD 5, nz := h.getLsbD 4, ninf := h.getLsbD 3, pinf := h.getLsbD 2, nan := h.getLsbD 1, ovf := h.getLsbD 0
    a := if x < 2 ^ (n - 1) then (x : Int) else (x : Int) - (2 ^ n : Nat) }

def flag (b : Bool) (n : Nat) : Nat := if b then 2 ^ n else 0

/-- The bytes of a line. -/
def Line.bytes (full : Bool) (l : Line) : List Byte :=
  let w : Nat := if full then (l.weight % 4096).toNat * 4096 else 0
  bytesOfNat 8 (l.count * 2 ^ 32 + l.gen * 2 ^ 24 + w + flag (full && l.inx) 5 + flag l.nz 4 + flag l.ninf 3 + flag l.pinf 2 +
    flag l.nan 1 + flag l.ovf 0) ++
  bytesOfNat (lineBytes full) (l.a % (2 ^ (8 * lineBytes full) : Nat)).toNat

/-- |x| in units of 2^w, toward zero, and whether something is lost. -/
def inUnits (w : Int) (m : Nat) (e : Int) : Nat × Bool :=
  if w ≤ e then (m * 2 ^ (e - w).toNat, false) else (m / 2 ^ (w - e).toNat, m % 2 ^ (w - e).toNat != 0)

/-- Apply one accepted contribution (R44, R45). -/
def Line.add (full : Bool) (l : Line) (x : Num) : Line :=
  if l.count = 0xFFFFFFFF then { l with ovf := true }
  else
    let l := { l with count := l.count + 1 }
    match x with
    | .nan _ => { l with nan := true }
    | .inf false => { l with pinf := true }
    | .inf true => { l with ninf := true }
    | .fin n m e =>
      let l := if m = 0 && n then l else { l with nz := false }
      let (k, lost) := inUnits l.weight m e
      let l := { l with inx := l.inx || (full && lost) }
      if full && decide (k ≥ 2 ^ 926) then { l with ovf := true } else { l with a := l.a + sgn n k }

/-- Initialise a line for a generation; the same generation has no effect (R372). -/
def Line.init (full : Bool) (l : Line) (gen : Nat) (weight : Int) : Line :=
  if l.gen = gen then l
  else ⟨0, gen, if full then weight else l.weight, false, true, false, false, false, false, 0⟩

/-- Read a line out (R46), always to nearest even; `sat` is R178's saturation. -/
def Line.read (l : Line) (f : Fmt) (sat : Bool) : Num × Cond :=
  if l.nan || l.ovf || (l.pinf && l.ninf) then (.nan false, if l.ovf || (l.pinf && l.ninf) then cIV else cNone)
  else if l.pinf then (.inf false, cNone)
  else if l.ninf then (.inf true, cNone)
  else
    let ix := if l.inx then cIX else cNone
    if l.a = 0 then (.fin (l.nz && decide (1 ≤ l.count)) 0 0, ix)
    else
      let (x, c) := roundTo f .rne sat (decide (l.a < 0)) l.a.natAbs l.weight false
      (x, c ||| ix)

end Sys2Proof.Machine
end

