-- ==== Sys2Proof/Machine/Xlate.lean ====
section
/-! DEFINITION. Global memory (15): physical addresses, the page table and its walk, translation buffers, poison, bias, and
reads and writes of the two memories with what they do to stash windows (07 R192). -/

namespace Sys2Proof.Machine

/-! ### Physical addresses (R353) -/

def paPkg (pa : Nat) : Nat := pa / 2 ^ 46 % 64

/-- The home die, numbered in the pod. -/
def paDie (pa : Nat) : Nat := pa / 2 ^ 44 % 256

/-- The home spire base: 2 * die + spire. -/
def paSpire (pa : Nat) : Nat := 2 * paDie pa + pa / 2 ^ 36 % 2

/-- Whether a device address names a home: its package is in the pod and has not been retired (R18, R378). -/
def State.reachable (s : State) (pa : Nat) : Bool := decide (paPkg pa < s.nPkg) && !s.retired.contains (paPkg pa)

/-- Whether a block of 64 bytes in a run is poisoned (R360). -/
def State.poisoned (s : State) (pa n : Nat) : Bool := s.poison.any fun b => decide (64 * b < pa + n) && decide (pa < 64 * b + 64)

/-- Whether the page of a device address is biased to the host (R357). -/
def State.hostBiased (s : State) (pa : Nat) : Bool := s.bias.contains (pa / 65536)

/-- Whether the page of a device address is in flip (R350). -/
def State.inFlip (s : State) (pa : Nat) : Bool := s.flips.any fun f => decide (f.base ≤ pa) && decide (pa < f.base + f.size)

/-! ### Bytes of the two memories -/

/-- n bytes at a physical address of the host's or the device's space. -/
def State.gread (s : State) (host : Bool) (pa n : Nat) : List Byte := memRead (if host then s.hostMem else s.mem) pa n

/-- Stash lines after another agent's store to bytes of theirs: recalled and invalidated (R192). `own` is the window that
makes the store: its workgroup and number. -/
def dropLines (pa n : Nat) (own : Option (Nat × Nat)) (wgs : Tab Wg) : Tab Wg :=
  wgs.map fun (wid, g) => (wid, { g with
    stash := g.stash.map fun (k, w) => (k, if own = some (wid, k) then w else { w with
      lines := w.lines.filter fun (_, l) => !(decide (l.pa < pa + n) && decide (pa < l.pa + 128)) }) })

/-- Stash lines after another agent's load: an exclusive line is written back and stays shared (R192). -/
def cleanLines (pa n : Nat) (own : Option (Nat × Nat)) (wgs : Tab Wg) : Tab Wg :=
  wgs.map fun (wid, g) => (wid, { g with
    stash := g.stash.map fun (k, w) => (k, if own = some (wid, k) then w else { w with
      lines := w.lines.map fun (i, l) =>
        (i, if decide (l.pa < pa + n) && decide (pa < l.pa + 128) then { l with excl := false, dirty := false } else l) }) })

/-- Poison after a write: only a write of all 64 bytes of a block clears it (R360). -/
def unpoison (pa n : Nat) (ps : List Nat) : List Nat := ps.filter fun b => !(decide (pa ≤ 64 * b) && decide (64 * b + 64 ≤ pa + n))

/-- Write bytes at a physical address, as a coherent write of the home (R334, R337, R360, R192). -/
def State.gwrite (s : State) (own : Option (Nat × Nat)) (host : Bool) (pa : Nat) (bs : List Byte) : State :=
  if host then { s with hostMem := memWrite s.hostMem pa bs }
  else { s with
    mem := memWrite s.mem pa bs
    past := ⟨none, pa, s.gread false pa bs.length, none, false⟩ :: s.past
    poison := unpoison pa bs.length s.poison
    wgs := dropLines pa bs.length own s.wgs }

/-- A coherent read recalls exclusive lines (R192). -/
def State.recall (s : State) (own : Option (Nat × Nat)) (host : Bool) (pa n : Nat) : State :=
  if host then s else { s with wgs := cleanLines pa n own s.wgs }

/-- A read that the core makes at the dome, past its L1: an exclusive line of another window is written back (R192), and the L1 gives
up its copies, so that no later load of the core returns something older (R337). -/
def State.domeRead (s : State) (core : Nat) (host : Bool) (pa n : Nat) : State :=
  if host then s
  else (s.recall none false pa n).modCore core fun c =>
    { c with l1 := c.l1.filter fun l => !(decide (128 * l.1 < pa + n) && decide (pa < 128 * l.1 + 128)) }

/-- The latest write, as one that a warp made. -/
def State.mine (s : State) (who : Nat × Nat) : State :=
  { s with past := match s.past with
    | r :: rs => { r with who := some who } :: rs
    | [] => [] }

/-- The latest write, as one that a warp made, if one did. -/
def State.mineOf (s : State) : Option (Nat × Nat) → State
  | some who => s.mine who
  | none => s

/-- The home address of section j of a workgroup's save image, as the image's header gives it (R447). -/
def State.section (s : State) (g : Wg) (j : Nat) : Option Nat :=
  g.image.map fun m => m.off + memNat s.mem (m.off + 0x10 + 8 * j) 8

/-! ### The page table (R354-R356) -/

/-- The page of a leaf entry at a level with pages of `size` bytes, if its fields are legal. -/
def leafPage (nPkg : Nat) (e : BitVec 64) (size : Nat) : Walked :=
  let frame := (e.extractLsb' 16 36).toNat * 65536
  let hmem := e.getLsbD 8
  let cls := (e.extractLsb' 5 2).toNat
  if e.extractLsb' 52 12 != 0 || e.extractLsb' 9 7 != 0 || e.getLsbD 2 then .absent
  else if frame % size != 0 then .absent
  else if hmem && cls != 0 then .absent
  else if !hmem && (decide (paPkg frame ≥ nPkg) || (frame / 2 ^ 37 % 2 ^ 7 != 0)) then .absent
  else .page ⟨frame, size, hmem, e.getLsbD 7, cls, e.getLsbD 4, e.getLsbD 3⟩

/-- Walk from a table at a level: 3 the root (R354, R356, R358). -/
def walkFrom (s : State) (va : Nat) : Nat → Nat → Walked
  | lvl, table =>
    let shift := if lvl = 3 then 39 else if lvl = 2 then 30 else if lvl = 1 then 21 else 16
    let idx := va / 2 ^ shift % (if lvl = 3 then 131072 else if lvl = 0 then 32 else 512)
    let at_ := table + 8 * idx
    if s.poisoned at_ 8 then .poison
    else
      let e := BitVec.ofNat 64 (memNat s.mem at_ 8)
      if !e.getLsbD 0 then .absent
      else if e.getLsbD 1 then (if lvl = 3 then .absent else leafPage s.nPkg e (2 ^ shift))
      else if e.extractLsb' 52 12 != 0 || e.extractLsb' 2 6 != 0 then .absent
      else
        match lvl with
        | 0 => .absent
        | l + 1 => walkFrom s va l ((e.extractLsb' 8 44).toNat * 256)

/-- Walk the page table of a context on a die; an address with any of bits [63:56] set is not translated (R352). -/
def State.walk (s : State) (die ctx va : Nat) : Walked :=
  if va ≥ 2 ^ 56 then .absent else
  match look (s.die die).roots ctx with
  | some root => walkFrom s va 3 root
  | none => .absent

/-! ### Translation (R352, R358, R359) -/

/-- What an access finds. -/
inductive Tr
  | page (p : Page) | absent | poison | miss
  deriving DecidableEq, Repr, Inhabited

/-- The entry of a translation buffer for an address. -/
def tlbFind (t : List TlbEntry) (ctx va : Nat) : Option Page :=
  (t.find? fun e => e.ctx == ctx && decide (e.va ≤ va) && decide (va < e.va + e.page.size)).map (·.page)

/-- Translate: walks made for the instruction, then the core's buffer, then the die's. -/
def State.xlate (s : State) (core : Nat) (walked : Tab Walked) (ctx va : Nat) : Tr :=
  if va ≥ 2 ^ 56 then .absent
  else
    match look walked (va / 65536) with
    | some (.page p) => .page p
    | some .absent => .absent
    | some .poison => .poison
    | none =>
      match tlbFind (s.core core).tlb ctx va with
      | some p => .page p
      | none =>
        match tlbFind (s.die (dieOf core)).tlb ctx va with
        | some p => .page p
        | none => .miss

/-- The physical address of a virtual one in a page. -/
def Page.pa (p : Page) (va : Nat) : Nat := p.frame + va % p.size

/-- The translation cause of an access, with its rank (R359). -/
def Tr.cause (fetch write : Bool) : Tr → Option (Nat × BitVec 7)
  | .absent => some (1, cPAGE_ABSENT)
  | .poison => some (1, cMEM_UNCORR)
  | .miss => none
  | .page p =>
    if fetch && !p.x then some (2, cPAGE_EXEC)
    else if write && !p.w then some (3, cPAGE_WRITE)
    else none

def Tr.isMiss : Tr → Bool
  | .miss => true
  | _ => false

/-- Translate for the issuing warp. -/
def Ix.xlate (x : Ix) (va : Nat) : Tr := x.s.xlate x.g.core x.w.walked x.kr.ctx va

/-- Ask for a walk, joining one already asked for (R358). -/
def addWalk (ws : List Walk) (ctx va : Nat) (who : Nat × Nat) : List Walk :=
  match ws with
  | [] => [⟨ctx, va / 65536 * 65536, [who], true⟩]
  | w :: ws =>
    if w.ctx == ctx && w.va == va / 65536 * 65536 then
      { w with waiters := if w.waiters.contains who then w.waiters else w.waiters ++ [who] } :: ws
    else w :: addWalk ws ctx va who

/-- The machine with walks asked for on behalf of a warp. -/
def State.askWalks (s : State) (die ctx : Nat) (who : Nat × Nat) (vas : List Nat) : State :=
  s.modDie die fun d => { d with walks := vas.foldl (fun ws va => addWalk ws ctx va who) d.walks }

/-- The instruction waits for the walks of these addresses. -/
def Ix.walkFor (x : Ix) (vas : List Nat) : Eff :=
  .hold .walk (x.s.askWalks (dieOf x.g.core) x.kr.ctx (x.c.wid, x.c.warp) vas)

/-- A cause that a lane meets: its rank in the order of checks, and its code. -/
abbrev Ranked := Option (Nat × BitVec 7)

/-- The first cause in order that any lane meets: lanes that meet it, the lowest one's address (R202, R359, R378). -/
def firstCause (cs : List (Nat × Nat × Ranked)) : Option Trap :=
  match (cs.filterMap fun c => c.2.2).foldl (fun m c => match m with
      | none => some c
      | some b => if c.1 < b.1 then some c else some b) (none : Ranked) with
  | none => none
  | some b =>
    let ls := cs.filter fun c => c.2.2 == some b
    match ls with
    | [] => none
    | l :: _ => some (Trap.addr b.2 (maskOf (ls.map (·.1))) l.2.1)

/-! ### Plain access (R202) -/

/-- The kinds of plain access. -/
inductive Plain
  | load | store | atomic
  deriving DecidableEq, Repr, Inhabited

/-- Whether a page takes a plain access of a kind (R202, page classes and plain access). -/
def classOk (s : State) (k : Plain) (p : Page) (pa : Nat) : Bool :=
  match k with
  | .load => p.cls != 1
  | .store => p.cls == 0
  | .atomic => p.cls == 0 && !p.hmem && !s.hostBiased pa

/-- The checks of R202 after alignment on a translated address, in order. -/
def plainCause (s : State) (core : Nat) (k : Plain) (va : Nat) (tr : Tr) : Ranked :=
  match tr.cause false (k != .load) with
  | some c => some c
  | none =>
    match tr with
    | .page p =>
      if !classOk s k p (p.pa va) then some (4, cPAGE_CLASS)
      else if !p.hmem && paDie (p.pa va) != dieOf core then some (5, cREMOTE_PLAIN)
      else none
    | _ => none

/-- Accesses of lanes: lane, virtual address, size. -/
abbrev Acc1 := Nat × Nat × Nat

/-- An address that is not a multiple of its size. -/
def misCause (a : Acc1) : Nat × Nat × Ranked := (a.1, a.2.1, if a.2.1 % a.2.2 = 0 then none else some (0, cMISALIGNED))

/-- Translate the accesses of an instruction and make checks on each: a wait for walks, the first cause, or the pages.
`chk` gives an access's causes once it is translated. -/
def Ix.checkAll (x : Ix) (as : List Acc1) (chk : Nat → Tr → Ranked) : Except Eff (List (Acc1 × Page)) :=
  match firstCause (as.map misCause) with
  | some t => .error (.trap t)
  | none =>
    let trs := as.map fun a => (a, x.xlate a.2.1)
    let misses := trs.filter fun t => t.2.isMiss
    if !misses.isEmpty then .error (x.walkFor (misses.map fun t => t.1.2.1))
    else
      match firstCause (trs.map fun t => (t.1.1, t.1.2.1, chk t.1.2.1 t.2)) with
      | some t => .error (.trap t)
      | none => .ok (trs.filterMap fun t => match t.2 with
        | .page p => some (t.1, p)
        | _ => none)

/-- Whether any of some accesses meets poison: the trap (R360). -/
def poisonTrap (s : State) (as : List (Acc1 × Page)) : Option Trap :=
  firstCause (as.map fun a =>
    (a.1.1, a.1.2.1, if !a.2.hmem && s.poisoned (a.2.pa a.1.2.1) a.1.2.2 then some (6, cMEM_UNCORR) else none))

/-- Whether any of some accesses finds its page in flip: it waits (R350). -/
def anyFlip (s : State) (as : List (Acc1 × Page)) : Bool := as.any fun a => !a.2.hmem && s.inFlip (a.2.pa a.1.2.1)

/-- Accesses of an instruction, checked but for poison; one that finds its page in flip waits (R202, R350). -/
def Ix.access (x : Ix) (as : List Acc1) (chk : Nat → Tr → Ranked) : Except Eff (List (Acc1 × Page)) :=
  match x.checkAll as chk with
  | .error e => .error e
  | .ok ps => if anyFlip x.s ps then .error .stall else .ok ps

/-- Plain accesses of an instruction, checked (R202, R350, R360). -/
def Ix.plain (x : Ix) (k : Plain) (as : List Acc1) : Except Eff (List (Acc1 × Page)) :=
  match x.access as (fun va tr => plainCause x.s x.g.core k va tr) with
  | .error e => .error e
  | .ok ps =>
    if k == .store then .ok ps
    else
      match poisonTrap x.s ps with
      | some t => .error (.trap t)
      | none => .ok ps

/-- Accesses of the warp that meet its watch range trap after every other cause (R436, R457). -/
def Ix.watched (x : Ix) (as : List Acc1) : Option Trap :=
  let b := x.w.watchBase.toNat
  let n := x.w.watchLen.toNat
  firstCause (as.map fun a =>
    (a.1, a.2.1, if n != 0 && decide (b < a.2.1 + a.2.2) && decide (a.2.1 < b + n) then some (7, cDBG_WATCH) else none))

end Sys2Proof.Machine
end

