-- ==== Sys2Proof/Machine/Records.lean ====
section
/-! DEFINITION. Handles and sealed records (08): the record layouts, the checks of `SEAL`, and the handle tables. -/

namespace Sys2Proof.Machine

/-- The number in the bytes of a record from an offset. -/
def fld (bs : List Byte) (off n : Nat) : Nat := natOfBytes ((bs.drop off).take n)

/-- The size of a record kind (R214). -/
def recSize (kind : Nat) : Nat :=
  match kind with
  | 1 => 64 | 2 => 256 | 3 => 256 | 4 => 64 | 5 => 32 | 6 => 32 | _ => 0

/-- The size in bytes of an element of a type code (R215, R200). -/
def tySize (ty : Nat) : Nat :=
  match ty with
  | 2 | 3 | 5 => 8
  | 6 | 7 => 2
  | 12 | 13 | 14 | 15 => 1
  | _ => 4

/-- A check of a record: the offset at which it fails, unless it holds. -/
abbrev RecCheck := Nat × Bool

/-- The first failing check. -/
def firstBad (cs : List RecCheck) : Option Nat := (cs.find? fun c => !c.2).map (·.1)

/-- An address field: 56 bits, and a multiple (R215). -/
def addrOk (a al : Nat) : Bool := decide (a < 2 ^ 56) && a % al == 0

def tensorOf (bs : List Byte) : Tensor where
  base := fld bs 0 8
  rank := fld bs 8 4 / 2 ^ 9 % 8
  fmt := BitVec.ofNat 5 (fld bs 8 4 / 16)
  ty := fld bs 8 4 % 16
  size := (List.range 5).map fun i => fld bs (0x10 + 4 * i) 4
  stride := (List.range 5).map fun i => fld bs (0x24 + 4 * i) 4

/-- The address of the last byte of a tensor (R215). -/
def Tensor.last (t : Tensor) : Nat :=
  t.base + ((List.range t.rank).map fun i => (t.size.getD i 0 - 1) * t.stride.getD i 0).sum + tySize t.ty - 1

def tensorChecks (bs : List Byte) : List RecCheck :=
  let t := tensorOf bs
  [(0x00, addrOk t.base (tySize t.ty)),
   (0x08, fld bs 8 4 / 2 ^ 12 == 0 && decide (1 ≤ t.rank) && decide (t.rank ≤ 5) &&
     (if t.ty = 13 then fmtOk t.fmt else t.fmt == 0) && t.ty != 15),
   (0x0C, fld bs 0xC 4 == 0)] ++
  (List.range 5).map (fun i => (0x10 + 4 * i,
    if i < t.rank then decide (1 ≤ t.size.getD i 0) && decide (t.size.getD i 0 ≤ 2 ^ 31) else t.size.getD i 0 == 0)) ++
  (List.range 5).map (fun i => (0x24 + 4 * i,
    if i < t.rank then t.stride.getD i 0 % tySize t.ty == 0 else t.stride.getD i 0 == 0)) ++
  [(0x38, fld bs 0x38 8 == 0), (0x00, decide (t.last < 2 ^ 56))]

/-- A grid descriptor (R215): table and gradient base, feature type, features, dimension, resolutions and table sizes. -/
structure GridRec where
  table : Nat
  grad : Nat
  ft : Nat
  feats : Nat
  dim : Nat
  res : List Nat
  logT : List Nat
  deriving DecidableEq, Repr, Inhabited

/-- The bytes of a feature (R215). -/
def featSize (ft : Nat) : Nat := if ft = 0 then 4 else 2

def gridOf (bs : List Byte) : GridRec :=
  let w := fld bs 0x10 4
  let n := w / 16 % 64
  { table := fld bs 0 8, grad := fld bs 8 8, ft := w / 2 ^ 12 % 4, feats := 2 ^ (w / 2 ^ 10 % 4), dim := w % 16
    res := (List.range n).map fun l => fld bs (0x40 + 6 * l) 4
    logT := (List.range n).map fun l => fld bs (0x44 + 6 * l) 1 }

/-- The entries of the levels before a level. -/
def GridRec.before (g : GridRec) (l : Nat) : Nat := ((g.logT.take l).map fun t => 2 ^ t).sum

/-- The checks of a grid descriptor (R215); its regions end with their last byte (L96). -/
def gridChecks (bs : List Byte) : List RecCheck :=
  let w := fld bs 0x10 4
  let n := w / 16 % 64
  let g := gridOf bs
  let all := g.before n * g.feats
  [(0x00, addrOk g.table 128), (0x08, addrOk g.grad 128),
   (0x10, w / 2 ^ 14 == 0 && g.ft != 3 && decide (1 ≤ n) && decide (n ≤ 32) && decide (1 ≤ g.dim) && decide (g.dim ≤ 8)),
   (0x14, fld bs 0x14 0x2C == 0)] ++
  ((List.range 32).map fun l =>
    let r := fld bs (0x40 + 6 * l) 4
    let t := fld bs (0x44 + 6 * l) 1
    [(0x40 + 6 * l, if l < n then decide (1 ≤ r) && decide (r ≤ 2 ^ 24) else r == 0),
     (0x44 + 6 * l, if l < n then decide (10 ≤ t) && decide (t ≤ 24) else t == 0),
     (0x45 + 6 * l, fld bs (0x45 + 6 * l) 1 == 0)]).flatten ++
  [(0x00, decide (g.table + all * featSize g.ft ≤ 2 ^ 56)), (0x08, decide (g.grad + all * 64 ≤ 2 ^ 56))]

/-- The checks of a bucket table (R215); its region ends with its last byte (L96). -/
def bucketChecks (bs : List Byte) : List RecCheck :=
  let n := fld bs 8 4
  [(0x00, addrOk (fld bs 0 8) 8), (0x08, decide (1 ≤ n) && decide (n ≤ 2 ^ 24)), (0x0C, fld bs 0xC 0xF4 == 0),
   (0x00, decide (fld bs 0 8 + 8 * n ≤ 2 ^ 56))]

/-- The fields of a launch record (R215). -/
def launchOf (bs : List Byte) : LaunchRec :=
  let g := fld bs 0x10 8
  let r := fld bs 0x18 4
  let n := fld bs 0x1C 4
  let l := fld bs 0x20 8
  { entry := BitVec.ofNat 56 (fld bs 0 8), arg := BitVec.ofNat 64 (fld bs 8 8)
    prio := g / 2 ^ 60 % 16, det := g / 2 ^ 58 % 4, wcode := g / 2 ^ 56 % 4, warps := g / 2 ^ 48 % 256
    gz := g / 2 ^ 32 % 65536, gy := g / 2 ^ 16 % 65536, gx := g % 65536
    carve := ⟨r / 2 ^ 28 % 16, r / 2 ^ 24 % 16, r / 2 ^ 20 % 16, r / 2 ^ 16 % 16⟩
    xregs := r / 256 % 256, regs := r % 256
    copies := n / 2 ^ 17 % 256, bars := n / 2 ^ 10 % 128, tiles := n / 2 ^ 5 % 32, accs := n % 32
    sscope := l / 2 ^ 24 % 8, loc := l % 2 ^ 24
    handler := BitVec.ofNat 56 (fld bs 0x28 8), compl := fld bs 0x30 8
    olog := BitVec.ofNat 32 (fld bs 0x38 4), dies := BitVec.ofNat 4 (fld bs 0x3C 4) }

/-- Warp slots of one warp (R77). -/
def LaunchRec.slots (r : LaunchRec) : Nat := 2 ^ r.wcode

/-- The warp width (R77). -/
def LaunchRec.width (r : LaunchRec) : Nat := 32 * r.slots

/-- Units of the REG region for a block of n registers of one warp (R117). -/
def LaunchRec.units (r : LaunchRec) (n : Nat) : Nat := n / 8 * r.slots

/-- Units of the LOC region: local bytes, and frames when a handler is declared (R186, R439). -/
def LaunchRec.locUnits (r : LaunchRec) : Nat := (r.loc + 1023) / 1024 + (if r.handler = 0 then 0 else 2 * r.warps)

/-- A valid carve (R180). -/
def Carve.ok (c : Carve) : Bool :=
  decide (4 ≤ c.reg) && decide (1 ≤ c.l1) && decide (c.l1 ≤ 12) && decide (c.key ≤ 4) && c.reg + c.loc + c.l1 + c.key == 16

/-- An extended block size that may be declared (R118). -/
def xregsOk (n : Nat) : Bool := n == 0 || n == 32 || n == 64 || n == 96 || n == 128

/-- The field checks of a launch record but for the order-log handle (R75, R94, R118, R180, R215, R439). -/
def launchChecks (bs : List Byte) : List RecCheck :=
  let r := launchOf bs
  [(0x00, addrOk (fld bs 0 8) 4), (0x08, decide (fld bs 8 8 < 2 ^ 56)),
   (0x10, r.det != 3 && r.wcode != 3 && decide (1 ≤ r.warps) && decide (r.warps ≤ 32) &&
     r.gx != 0 && r.gy != 0 && r.gz != 0 && decide (r.warps * r.slots ≤ 64)),
   (0x18, r.carve.ok && xregsOk r.xregs && decide (8 ≤ r.regs) && decide (r.regs ≤ 128) && r.regs % 8 == 0 &&
     decide (r.warps * r.units r.regs + r.units r.xregs ≤ 64 * r.carve.reg)),
   (0x1C, fld bs 0x1C 4 / 2 ^ 25 == 0 && decide (r.copies ≤ 128) && decide (r.tiles ≤ 16) && decide (r.accs ≤ 16)),
   (0x20, fld bs 0x20 8 / 2 ^ 27 == 0 && (r.sscope == 0 || (decide (2 ≤ r.sscope) && decide (r.sscope ≤ 6))) &&
     decide (r.loc ≤ 65536 * r.carve.loc)),
   (0x28, addrOk (fld bs 0x28 8) 4 && (r.handler == 0 || decide (r.locUnits ≤ 64 * r.carve.loc))),
   (0x30, addrOk r.compl 8)]

/-- The checks of an overflow record (R215); its regions end with their last bytes (L96). -/
def ovChecks (bs : List Byte) : List RecCheck :=
  let n := fld bs 0x10 2
  [(0x00, addrOk (fld bs 0 8) 128), (0x08, addrOk (fld bs 8 8) 8), (0x10, decide (1 ≤ n) && decide (n ≤ 4096)),
   (0x12, fld bs 0x12 0xE == 0), (0x00, decide (fld bs 0 8 + 16 * n ≤ 2 ^ 56)), (0x08, decide (fld bs 8 8 + 8 ≤ 2 ^ 56))]

/-- The checks of an order-log record (R215); its regions end with their last bytes (L96). -/
def ologChecks (bs : List Byte) : List RecCheck :=
  let n := fld bs 8 4
  [(0x00, addrOk (fld bs 0 8) 128), (0x08, n != 0 && n % 8 == 0), (0x0C, fld bs 0xC 4 == 0), (0x10, addrOk (fld bs 0x10 8) 8),
   (0x18, fld bs 0x18 8 == 0), (0x00, decide (fld bs 0 8 + 16 * n ≤ 2 ^ 56)), (0x10, decide (fld bs 0x10 8 + 8 ≤ 2 ^ 56))]

/-! ### Handle tables (R209-R213) -/

/-- The slot that a handle names. -/
def hSlot (h : Word) : Nat := h.toNat / 65536

def hGen (h : Word) : BitVec 16 := h.setWidth 16

/-- A slot of a context's table on a die; one never used is free with generation 0 (R211). -/
def State.slotOf (s : State) (die ctx n : Nat) : Slot :=
  lookD (lookD (s.die die).handles ctx []) n ⟨0, false, false, 0, []⟩

def State.setSlot (s : State) (die ctx n : Nat) (x : Slot) : State :=
  s.modDie die fun d => { d with handles := ins d.handles ctx (ins (lookD d.handles ctx []) n x) }

/-- The live slot that a handle names (R212). -/
def State.liveSlot (s : State) (die ctx : Nat) (h : Word) : Option Slot :=
  let x := s.slotOf die ctx (hSlot h)
  if hSlot h != 0 && x.live && x.gen == hGen h then some x else none

/-- The copy of a record of a kind, or the cause that refuses its handle (R212). -/
def State.handle (s : State) (die ctx : Nat) (h : Word) (kind : Nat) : Except (BitVec 7) (List Byte) :=
  match s.liveSlot die ctx h with
  | none => .error cHANDLE_STALE
  | some x => if x.kind = kind then .ok x.copy else .error cHANDLE_KIND

/-- A handle that the issuing warp consumes. -/
def Ix.handle (x : Ix) (h : Nat) (kind : Nat) : Except (BitVec 7) (List Byte) :=
  x.s.handle (dieOf x.g.core) x.kr.ctx (BitVec.ofNat 32 h) kind

/-- The failing field of a record and the cause a launch port reports; an order-log handle is needed in mode D2 (R215). -/
def State.recBad (s : State) (die ctx kind : Nat) (bs : List Byte) : Option (BitVec 7 × Nat) :=
  let bad (cs : List RecCheck) : Option (BitVec 7 × Nat) := (firstBad cs).map fun o => (cSEAL_BAD, o)
  match kind with
  | 1 => bad (tensorChecks bs)
  | 2 => bad (gridChecks bs)
  | 3 => bad (bucketChecks bs)
  | 4 =>
    match bad (launchChecks bs) with
    | some e => some e
    | none =>
      let r := launchOf bs
      let h := if r.det = 2 then
        match s.handle die ctx r.olog 6 with
        | .ok _ => none
        | .error c => some (c, 0x38)
        else if r.olog = 0 then none else some (cSEAL_BAD, 0x38)
      match h with
      | some e => some e
      | none => if fld bs 0x3C 4 / 16 = 0 then none else some (cSEAL_BAD, 0x3C)
  | 5 => bad (ovChecks bs)
  | 6 => bad (ologChecks bs)
  | _ => some (cSEAL_BAD, 0)

/-- The lowest free slot of a context's table (R211): searched from slot 1, with fuel for the table's 65,535. -/
def lowestFree (t : Tab Slot) : Nat → Nat → Nat
  | 0, _ => 0
  | k + 1, n =>
    match look t n with
    | none => n
    | some x => if x.live || x.retired then lowestFree t k (n + 1) else n

end Sys2Proof.Machine
end

