-- ==== Sys2Proof/Machine/Cvt.lean ====
section
/-! DEFINITION. The CVT group (06 R167-R179): conversions, binary8 and MX blocks, the random stream, flags, and reading
accumulator lines. -/

namespace Sys2Proof.Machine

/-- Change the warp inside a register effect. -/
def Eff.mapWarp (f : Warp → Warp) : Eff → Eff
  | .regs w c g => .regs (f w) c g
  | e => e

/-- The range of an integer type. -/
def intMin (ty : Ty) : Int := if ty.signed then -(2 ^ (ty.ew - 1) : Nat) else 0

def intMax (ty : Ty) : Int := if ty.signed then (2 ^ (ty.ew - 1) : Nat) - 1 else (2 ^ ty.ew : Nat) - 1

def clampInt (ty : Ty) (v : Int) : Int := if v < intMin ty then intMin ty else if v > intMax ty then intMax ty else v

/-- A number to an integer type (R168). -/
def numToInt (ty : Ty) (mode : Mode) (sat : Bool) (a : Num) : Nat × Cond :=
  match a with
  | .nan s => (0, if s then cSN else cIV)
  | .inf n => (wrapNat ty.ew (if n then intMin ty else intMax ty), if sat then cNone else cIV)
  | .fin n m e =>
    let (k, lost) := toIntegral mode n m e
    let r := sgn n k
    if r < intMin ty || r > intMax ty then (wrapNat ty.ew (clampInt ty r), if sat then cNone else cIV)
    else (wrapNat ty.ew r, if lost then cIX else cNone)

/-- `CVT` of one value (R168). -/
def cvtVal (dst src : Ty) (mode : Mode) (sat : Bool) (v : Nat) : Nat × Cond :=
  if src.isFp then
    let a := src.ieee.decode (elemOf src.ew v 0)
    if dst.isFp then
      let r := roundNum dst.ieee.fmt mode sat a
      (dst.ieee.encode r.1, r.2)
    else numToInt dst mode sat a
  else
    let i := src.elemInt v 0
    if dst.isFp then
      let r := roundTo dst.ieee.fmt mode sat (decide (i < 0)) i.natAbs 0 false
      (dst.ieee.encode r.1, r.2)
    else (wrapNat dst.ew (if sat then clampInt dst i else i), cNone)

def execCvt (h : Hd) (src : Ty) (rnd : Rnd) (ty : Ty) (sat : Bool) (d a : Opnd) (s : State) : Host.Outcome State Fault Refusal :=
  issue (.cvt h src rnd ty sat d a) s fun x =>
    x.giveFp d ty.wide fun l => cvtVal ty src (x.mode rnd) sat (x.rd src a l)

/-! ### The random stream (R173-R176) -/

/-- The mixer (R174). -/
def mix (key x : BitVec 64) : Nat :=
  let z := x ^^^ key
  let z := z * 0xA3B19C45E7D20F6B#64
  let z := z ^^^ (z >>> 29)
  let z := z + ((key <<< 23) ||| (key >>> 41))
  let z := z * 0xC2F81D6A5B39E477#64
  let z := z ^^^ (z >>> 32)
  let z := z * 0x8F5D2E913CA7B06D#64
  let z := z ^^^ (z >>> 29)
  (z.extractLsb' 32 32).toNat

/-- draw(l) (R174). -/
def Warp.draw (w : Warp) (l : Nat) : Nat := mix w.rkey (w.rctr + BitVec.ofNat 64 l)

/-- The stream after an issue of a drawing instruction (R173). -/
def Warp.drawn (w : Warp) : Warp := { w with rctr := w.rctr + BitVec.ofNat 64 w.width }

/-- The stream advances when a drawing instruction completes. -/
def Eff.advanceIf (b : Bool) (e : Eff) : Eff := if b then e.mapWarp Warp.drawn else e

/-- The rounding of element i: stochastic with its 16 bits of the draw, else as named (R169); for an s destination lane l is the
lowest of E (L83). -/
def Ix.modeSr (x : Ix) (sr : Bool) (rnd : Rnd) (l i : Nat) : Mode :=
  if sr then .sr (x.w.draw l / 2 ^ (16 * i) % 65536) else x.mode rnd

/-- `CVTB8` (R169). -/
def execCvtb8 (h : Hd) (dec hi sr : Bool) (wide : Ty) (fmt : BitVec 5) (rnd : Rnd) (sat : Bool) (d a b : Opnd) (s : State) :
    Host.Outcome State Fault Refusal :=
  issue (.cvtb8 h dec hi sr wide fmt rnd sat d a b) s fun x =>
    let f := B8.ofCode fmt
    let sh := if hi then 2 ^ 16 else 1
    let md := x.modeSr sr rnd
    (if dec then
      x.giveFp d (wide == .f32) fun l =>
        let v (i : Nat) : Num := f.decode (x.rd32 a l / sh / 2 ^ (8 * i) % 256)
        let r (i : Nat) : Num × Cond := roundNum wide.ieee.fmt (md l i) sat (v i)
        if wide == .f32 then (f32.encode (v 0) + 2 ^ 32 * f32.encode (v 1), cNone)
        else (wide.ieee.encode (r 0).1 + 2 ^ 16 * wide.ieee.encode (r 1).1, (r 0).2 ||| (r 1).2)
    else
      x.giveFp d false fun l =>
        let v (i : Nat) : Num := if wide == .f32 then f32.decode (x.rd .f32 (if i = 0 then a else b) l) else fpElem wide (x.rd wide a l) i
        let r (i : Nat) : Nat × Cond := f.convert (md l i) sat (v i)
        let old := x.rd32 d l
        let new := (r 0).1 + 256 * (r 1).1
        (if hi then old % 2 ^ 16 + 2 ^ 16 * new else old / 2 ^ 16 * 2 ^ 16 + new, (r 0).2 ||| (r 1).2)).advanceIf sr

/-- `MXQ` (R170, R42). For an s destination the block and the draw are those of the lowest lane of E (L83); in a block without a
scale a lane meets the cause that its own value raises (L84). -/
def execMxq (h : Hd) (sr : Bool) (src : Ty) (fmt : BitVec 5) (rnd : Rnd) (d a : Opnd) (s : State) : Host.Outcome State Fault Refusal :=
  issue (.mxq h sr src fmt rnd d a) s fun x =>
    let f := B8.ofCode fmt
    let v (l : Nat) : Num := if x.on.getLsbD l then fpElem src (x.rd src a l) 0 else .fin false 0 0
    (x.giveFp d false fun l =>
      let block := (List.range 32).map fun i => v (l / 32 * 32 + i)
      match mxScale f block with
      | none => (0xFF00 + f.nanByte, snOf (v l) ||| (if !f.i && (v l == .inf false || v l == .inf true) then cIV else cNone))
      | some (code, e) =>
        let r := mxElem f (x.modeSr sr rnd l 0) e (v l)
        (code * 256 + r.1, r.2)).advanceIf sr

/-- `MXD` (R171). -/
def execMxd (h : Hd) (out : Ty) (fmt : BitVec 5) (rnd : Rnd) (sat : Bool) (d a b : Opnd) (s : State) : Host.Outcome State Fault Refusal :=
  issue (.mxd h out fmt rnd sat d a b) s fun x =>
    x.giveFp d false fun l =>
      let v := (B8.ofCode fmt).decode (x.rd32 a l % 256)
      let code := x.rd32 b l % 256
      let r := if code = 255 || v.isNan then (Num.nan false, cNone)
        else roundNum out.ieee.fmt (x.mode rnd) sat (scaleBy ((code : Int) - 127) v)
      (out.ieee.encode r.1, r.2)

/-- The larger of two numbers that are not NaN. -/
def maxNum (a b : Num) : Num := if ranksBelow a b then b else a

def absNum : Num → Num
  | .nan s => .nan s
  | .inf _ => .inf false
  | .fin _ m e => .fin false m e

/-- `AMAX` (R172). -/
def execAmax (h : Hd) (ty : Ty) (d a b : Opnd) (s : State) : Host.Outcome State Fault Refusal :=
  issue (.amax h ty d a b) s fun x =>
    let bn := fpElem ty (x.rd ty b 0) 0
    let vs := x.lanes.map fun l => (l, fpElem ty (x.rd ty a l) 0)
    let cs := vs.map fun v => (v.1, snOf v.2 ||| snOf bn)
    match fpTrap x.w.enables cs with
    | some t => .trap t
    | none =>
      let r := if bn.isNan || vs.any (fun v => v.2.isNan) then Num.nan false else vs.foldl (fun m v => maxNum m (absNum v.2)) bn
      let rs := x.once (ty.ieee.encode r)
      .regs (x.written (x.w.raise cs) d ty.wide rs) (x.capture d ty.wide rs) x.c.advance

/-- `RNG` (R175). -/
def execRng (h : Hd) (ty : Ty) (d : Opnd) (s : State) : Host.Outcome State Fault Refusal :=
  issue (.rng h ty d) s fun x =>
    (x.give d false (x.each d fun l =>
      if ty == .f32 then f32.encode (.fin false (x.w.draw l / 256) (-24)) else x.w.draw l)).advanceIf true

/-- `RNGKEY` (R176): A and B are read before D is written (L85). -/
def execRngkey (h : Hd) (rd : Bool) (d a b : Opnd) (s : State) : Host.Outcome State Fault Refusal :=
  issue (.rngkey h rd d a b) s fun x =>
    let e := x.give d true (x.once x.w.rctr.toNat)
    if rd || x.idle then e
    else e.mapWarp fun w => { w with rkey := BitVec.ofNat 64 (x.u64 a), rctr := BitVec.ofNat 64 (x.u64 b) }

/-! ### Flags and rounding control (R177) -/

def execFlgrd (h : Hd) (clr : Bool) (d : Opnd) (s : State) : Host.Outcome State Fault Refusal :=
  issue (.flgrd h clr d) s fun x =>
    let e := x.give d false (x.each d fun _ => x.w.flg.toNat)
    if clr && !x.idle then e.mapWarp fun w => { w with flg := 0 } else e

def execFlgclr (h : Hd) (a : Opnd) (s : State) : Host.Outcome State Fault Refusal :=
  issue (.flgclr h a) s fun x =>
    if x.idle then x.pass else x.warpTo { x.w with flg := x.w.flg &&& ~~~(BitVec.ofNat 5 (x.u32 a)) }

def execFlgen (h : Hd) (mode : FlgMode) (a : Opnd) (s : State) : Host.Outcome State Fault Refusal :=
  issue (.flgen h mode a) s fun x =>
    let v := BitVec.ofNat 6 (x.u32 a)
    if x.idle then x.pass
    else x.warpTo { x.w with fte := match mode with
      | .set => v | .or => x.w.fte ||| v | .andn => x.w.fte &&& ~~~v }

/-- `FRMSET` (R177): A is read before D is written (L85). -/
def execFrmset (h : Hd) (d a : Opnd) (s : State) : Host.Outcome State Fault Refusal :=
  issue (.frmset h d a) s fun x =>
    let e := x.give d false (x.once x.w.frm.toNat)
    if x.idle then e else e.mapWarp fun w => { w with frm := BitVec.ofNat 2 (x.u32 a) }

/-! ### Reading accumulator lines (R178, R179) -/

/-- The checks of an `FXCVT` address after alignment (R179). -/
def lineCause (s : State) (core va : Nat) (tr : Tr) : Ranked :=
  match tr.cause false false with
  | some c => some c
  | none =>
    match tr with
    | .page p =>
      if p.cls != 1 || p.hmem || s.hostBiased (p.pa va) then some (4, cPAGE_CLASS)
      else if paDie (p.pa va) != dieOf core then some (5, cREMOTE_PLAIN)
      else none
    | _ => none

/-- `FXCVT` (R178, R179, R46). -/
def execFxcvt (h : Hd) (line : Bool) (ty : Ty) (sat : Bool) (d a b : Opnd) (off : BitVec 24) (s : State) :
    Host.Outcome State Fault Refusal :=
  issue (.fxcvt h line ty sat d a b off) s fun x =>
    let n := lineSize line
    match x.checkAll ((x.computing d).map fun l => (l, x.gaddr a b off l, n)) (fun va tr => lineCause x.s x.g.core va tr) with
    | .error e => x.onceLanes d e
    | .ok ps =>
      if anyFlip x.s ps then .stall
      else
        match poisonTrap x.s ps with
        | some t => x.onceLanes d (.trap t)
        | none =>
          x.giveFp d ty.wide fun l =>
            match ps.find? fun p => p.1.1 == l with
            | some p =>
              let r := (Line.ofBytes line (x.s.gread false (p.2.pa p.1.2.1) n)).read ty.ieee.fmt sat
              (ty.ieee.encode r.1, r.2)
            | none => (0, cNone)

end Sys2Proof.Machine
end

