-- ==== Sys2Proof/Machine/Ctl.lean ====
section
/-! DEFINITION. The CTL group (04 R103-R112): branches, calls, rejoin masks, exit, bucket dispatch, launch, waiting. -/

namespace Sys2Proof.Machine

/-- `NOP` (R104). -/
def execNop (h : Hd) (s : State) : Host.Outcome State Fault Refusal :=
  issue (.nop h) s fun x => x.pass

/-- `YIELD` (R104); the port's passing over is at R86. -/
def execYield (h : Hd) (s : State) : Host.Outcome State Fault Refusal :=
  issue (.yield h) s fun x => x.pass

/-- The lanes of a bundle outside E advance and keep their priority. -/
def Ix.others (x : Ix) : Move := ⟨x.c.prio, x.c.pc + 12, x.c.bundle &&& ~~~x.on⟩

/-- A branch target (R65). Like the address after an instruction it is taken modulo 2^56 (L92). -/
def target (pc : Pc) (off : BitVec 24) : Pc := pc + 12 + 12 * off.signExtend 56

/-- `BRA` (R105). -/
def execBra (h : Hd) (pr : BitVec 8) (off : BitVec 24) (s : State) : Host.Outcome State Fault Refusal :=
  issue (.bra h pr off) s fun x => .regs x.w none [⟨pr, target x.c.pc off, x.on⟩, x.others]

/-- Threads move to the targets of link values, lane by lane; a misaligned one traps (R105). -/
def Ix.follow (x : Ix) (ls : List Nat) (pr : Nat → BitVec 8) (link : Nat → Nat) (faddr : Nat → Nat) : Eff :=
  match firstCause (ls.map fun l => (l, faddr l, if link l % 4 = 0 then none else some (0, cMISALIGNED))) with
  | some t => .trap t
  | none => .regs x.w none (ls.map (fun l => ⟨pr l, BitVec.ofNat 56 (link l), laneBit l⟩) ++ [x.others])

/-- `BRX` and `RET`: to the address and priority of a link value (R81, R105). -/
def Ix.toLink (x : Ix) (a : Opnd) : Eff :=
  x.follow x.lanes (fun l => BitVec.ofNat 8 (x.rd64 a l / 2 ^ 56)) (fun l => x.rd64 a l) (fun l => x.rd64 a l % 2 ^ 56)

def execBrx (h : Hd) (a : Opnd) (s : State) : Host.Outcome State Fault Refusal :=
  issue (.brx h a) s fun x => x.toLink a

/-- `CALL` (R105): the link value holds the caller's priority. -/
def execCall (h : Hd) (pr : BitVec 8) (d : Opnd) (off : BitVec 24) (s : State) : Host.Outcome State Fault Refusal :=
  issue (.call h pr d off) s fun x =>
    let link := x.c.prio.toNat * 2 ^ 56 + (x.c.pc + 12).toNat
    .regs (x.w.writeD d true (x.each d fun _ => link)) none [⟨pr, target x.c.pc off, x.on⟩, x.others]

def execRet (h : Hd) (a : Opnd) (s : State) : Host.Outcome State Fault Refusal :=
  issue (.ret h a) s fun x => x.toLink a

/-- An effect, unless it would leave every live thread blocked at an `RJWAIT` with no mask to be released (R90). -/
def Ix.orDeadlock (x : Ix) (w : Warp) (go : List Move) : Eff :=
  if w.deadlocked then .trap (Trap.plain cREJOIN_DEADLOCK x.c.bundle) else .regs w none go

/-- `RJSET` (R106, R89). -/
def execRjset (h : Hd) (d : Opnd) (s : State) : Host.Outcome State Fault Refusal :=
  issue (.rjset h d) s fun x =>
    if x.idle then x.pass else x.warpTo (x.w.kset d.idx (x.on ||| x.w.blockedOn d.idx))

/-- `RJDROP` (R106). -/
def execRjdrop (h : Hd) (d : Opnd) (s : State) : Host.Outcome State Fault Refusal :=
  issue (.rjdrop h d) s fun x =>
    if x.idle then x.pass else x.warpTo (x.w.kset d.idx (x.w.kget d.idx &&& ~~~x.on))

/-- Threads block, keeping their pair (R88). -/
def Warp.block (w : Warp) (c : Cur) (m : Mask) (why : Why) : Warp :=
  if m = 0 then w else { w with blocked := w.blocked ++ [⟨c.prio, c.pc, m, why⟩] }

/-- `RJWAIT` (R106, R88-R90). -/
def execRjwait (h : Hd) (pr : BitVec 8) (a : Opnd) (s : State) : Host.Outcome State Fault Refusal :=
  issue (.rjwait h pr a) s fun x =>
    let m := x.w.kget a.idx
    x.orDeadlock (x.w.block x.c (x.on &&& m) (.rejoin a.idx pr)) [⟨pr, x.c.pc + 12, x.on &&& ~~~m⟩, x.others]

/-- `EXIT` (R107, R90): the frontier, the rejoin conditions and retirement follow from the live threads. -/
def execExit (h : Hd) (s : State) : Host.Outcome State Fault Refusal :=
  issue (.exit h) s fun x => x.orDeadlock { x.w with live := x.w.live &&& ~~~x.on } [x.others]

/-- `PRIO` (R108). -/
def execPrio (h : Hd) (pr : BitVec 8) (s : State) : Host.Outcome State Fault Refusal :=
  issue (.prio h pr) s fun x => .regs x.w none [⟨pr, x.c.pc + 12, x.on⟩, x.others]

/-- Threads move, in a changed machine. -/
def Eff.movesIn (s : State) : Eff → Eff
  | .regs _ cap go => .mach s cap go
  | e => e

/-- `BKT` (R102, R109): handle, range, translation, alignment, in this order. The table is read as by a load at the dome (L12). -/
def execBkt (h : Hd) (pr : BitVec 8) (a b : Opnd) (s : State) : Host.Outcome State Fault Refusal :=
  issue (.bkt h pr a b) s fun x =>
    match x.handle (x.u32 a) 3 with
    | .error c => .trap (Trap.plain c x.on)
    | .ok bs =>
      let out := x.lanes.filter fun l => decide (fld bs 8 4 ≤ x.rd32 b l)
      if !out.isEmpty then .trap (Trap.plain cBKT_RANGE (maskOf out))
      else
        match x.plain .load (x.lanes.map fun l => (l, fld bs 0 8 + 8 * x.rd32 b l, 8)) with
        | .error e => e
        | .ok ps =>
          let entry (l : Nat) : Nat :=
            match ps.find? fun p => p.1.1 == l with
            | some p => natOfBytes (x.s.gread p.2.hmem (p.2.pa p.1.2.1) 8)
            | none => 0
          (x.follow x.lanes (fun _ => pr) entry (fun l => entry l % 2 ^ 56)).movesIn
            (ps.foldl (fun s p => s.domeRead x.g.core p.2.hmem (p.2.pa p.1.2.1) 8) x.s)

/-- The dies that a placement word names in a package; 0 names a default (R93). -/
def namedDies (pkg : Nat) (mask : BitVec 4) (dflt : List Nat) : List Nat :=
  if mask = 0 then dflt else ((List.range 4).filter fun d => mask.getLsbD d).map fun d => 4 * pkg + d

/-- A kernel instance accepted on the dies that its record names (R92, R95), with the order log that its record names (R425);
the callers have found its handle live. -/
def State.accept (s : State) (rc : LaunchRec) (ctx home : Nat) (dies : List Nat) : State :=
  let log := if rc.det = 2 then
    match s.handle home ctx rc.olog 6 with
    | .ok bs => some (fld bs 0 8, fld bs 8 4, fld bs 0x10 8)
    | .error _ => none
    else none
  let k : Kernel := ⟨rc, ctx, dies, home, log, [], [], false, false, false⟩
  let s := { s with kernels := ins s.kernels s.nextInst k, nextInst := s.nextInst + 1 }
  dies.foldl (fun t d => t.modDie d fun e => { e with pend := e.pend ++ [s.nextInst - 1] }) s

/-- Whether a pending-kernel table is full (R95). -/
def State.pendFull (s : State) (d : Nat) : Bool := decide (256 ≤ (s.die d).pend.length)

/-- `LAUNCH` (R92, R110); in mode D2 it consumes the record's order-log handle too (R212, R215). -/
def execLaunch (h : Hd) (d a : Opnd) (s : State) : Host.Outcome State Fault Refusal :=
  issue (.launch h d a) s fun x =>
    if x.idle then x.pass
    else
      match x.handle (x.u32 a) 4 with
      | .error c => .trap (Trap.plain c x.on)
      | .ok bs =>
        let rc := launchOf bs
        let own := dieOf x.g.core
        let dies := namedDies (pkgOfDie own) rc.dies [own]
        let log : Except (BitVec 7) Unit := if rc.det = 2 then (x.handle rc.olog.toNat 6).map fun _ => () else .ok ()
        match log with
        | .error c => .trap (Trap.plain c x.on)
        | .ok _ =>
        if !dies.any (fun e => (x.s.die e).up) then x.give d false (x.once 2)
        else if dies.any x.s.pendFull then x.give d false (x.once 1)
        else x.giveIn (x.s.accept rc x.kr.ctx own dies) d false (x.once 0)

/-- An acquire at `.quad` or wider invalidates the core's L1 (R198). -/
def Core.dropL1 (c : Core) : Core := { c with l1 := [] }

/-- A counter word that `WAITK` or `WAITC` waits on: checked in the order of R202 and R378, with its home address (R111, R384). -/
def Ix.counterWord (x : Ix) (va : Nat) : Except Eff Nat :=
  match x.access [(firstOf x.lanes, va, 8)] (fun va tr =>
      match tr.cause false false, tr with
      | some c, _ => some c
      | none, .page p =>
        if p.cls != 3 || p.hmem then some (4, cPAGE_CLASS)
        else if paDie (p.pa va) != dieOf x.g.core then some (5, cREMOTE_PLAIN)
        else none
      | none, _ => none) with
  | .error (.trap t) => .error (.trap { t with lanes := x.on })
  | .error e => .error e
  | .ok [] => .error .stall
  | .ok (p :: _) =>
    if x.s.poisoned (p.2.pa va) 8 then .error (.trap (Trap.addr cMEM_UNCORR x.on va)) else .ok (p.2.pa va)

/-- The word at a counter's home address. -/
def State.counter (s : State) (pa : Nat) : Nat := natOfBytes (s.gread false pa 8)

/-- A wait on a counter ends: the word goes to D, as an acquire at `.pod` (R111, R384, R198), unless it is poisoned (R360). -/
def Ix.counted (x : Ix) (d : Opnd) (va pa : Nat) : Eff :=
  if x.s.poisoned pa 8 then .trap (Trap.addr cMEM_UNCORR x.on va)
  else x.giveIn ((x.s.recall none false pa 8).modCore x.g.core Core.dropL1) d true (x.once (x.s.counter pa))

/-- `WAITK` (R111). -/
def execWaitk (h : Hd) (d a b : Opnd) (s : State) : Host.Outcome State Fault Refusal :=
  issue (.waitk h d a b) s fun x =>
    if x.idle then x.pass
    else
      match x.handle (x.u32 a) 4 with
      | .error c => .trap (Trap.plain c x.on)
      | .ok bs =>
        let va := (launchOf bs).compl
        if va = 0 then .trap (Trap.addr cPAGE_CLASS x.on 0)
        else
          match x.counterWord va with
          | .error e => e
          | .ok pa =>
            if x.s.counter pa % 2 ^ 32 ≥ x.u32 b then x.counted d va pa else .hold (.waitk va pa (x.u32 b)) x.s

/-- `SLEEP` (R112): at least the rest of this cycle. -/
def execSleep (h : Hd) (n : BitVec 24) (s : State) : Host.Outcome State Fault Refusal :=
  issue (.sleep h n) s fun x =>
    if x.idle then x.pass
    else x.warpTo { x.w with sleepUntil := x.s.clocksAt x.g.core + (if n = 0 then 1 else n.toNat) }

/-- The word of no assigned opcode traps with ILL_OP (R70). -/
def execUnassignedOpcode (_w : BitVec 96) (s : State) : Host.Outcome State Fault Refusal :=
  match s.cur with
  | none => .next s
  | some c =>
    match s.warp? c.wid c.warp with
    | none => .next s
    | some w =>
      if s.storingOf c.wid c.warp then .next { s with cur := some { c with ready := false } }
      else .next (s.takeTrap c (match earlyTrap w c.bundle with
        | some t => t
        | none => Trap.plain cILL_OP c.bundle))

end Sys2Proof.Machine
end

