-- ==== Sys2Proof/Machine/Order.lean ====
section
/-! DEFINITION. The ordered-append unit and the order log (17 R421-R428): whose turn it is, what waits, what an act and a
logged event do to them. -/

namespace Sys2Proof.Machine

/-- The number of workgroups of a grid (R94). -/
def LaunchRec.total (r : LaunchRec) : Nat := r.gx * r.gy * r.gz

/-- The logical core of workgroup g, as a core of the pod (R93). -/
def Kernel.logical (k : Kernel) (g : Nat) : Nat :=
  let c := g % (192 * k.dies.length)
  192 * k.dies.getD (c / 192) 0 + c % 192

/-- A channel of a die (R421). -/
def Die.chan (d : Die) (ch : Nat) : Channel := lookD d.chans ch ⟨none, 0, []⟩

/-- Whether a channel is bound to another instance (R421). -/
def State.chanTaken (s : State) (die ch inst : Nat) : Bool :=
  match ((s.die die).chan ch).bound with
  | some i => i != inst
  | none => false

/-- An instance's first act on a channel binds it (R421). -/
def State.bindChan (s : State) (die ch inst : Nat) : State :=
  s.modDie die fun d => { d with chans := ins d.chans ch { d.chan ch with bound := some inst } }

/-- The instruction asks for an act on a channel and waits for its grant (R421, R422). -/
def Ix.askAct (x : Ix) (ch : Nat) : Eff :=
  let die := dieOf x.g.core
  if x.kr.rc.det = 0 || x.s.chanTaken die ch x.g.inst then .trap (Trap.plain cOAPP_ORDER x.c.bundle)
  else .hold (.act ch) (x.s.bindChan die ch x.g.inst)

/-- Whether a warp of an instance has retired or was ended, which declines its later rounds (R422). -/
def State.warpOver (s : State) (k : Kernel) (inst g i : Nat) : Bool :=
  k.gone.contains g ||
    match look s.wgs (widOf inst g) with
    | some x => (match look x.warps i with
      | some w => w.live == 0 || x.st == .ending
      | none => false)
    | none => false

/-- The rounds that a warp has made on a channel (R422). -/
def Channel.made (c : Channel) (g i : Nat) : Nat := lookD c.rounds (32 * g + i) 0

/-- Whether a warp's next act on a channel is next in grant order: every act before it in the order of round, workgroup,
warp has been made (R422). -/
def State.mayAct (s : State) (die ch inst g i : Nat) : Bool :=
  match look s.kernels inst with
  | none => false
  | some k =>
    let c := (s.die die).chan ch
    let r := c.made g i
    (List.range k.rc.total).all fun h =>
      dieOf (k.logical h) != die || (List.range k.rc.warps).all fun j =>
        (h == g && j == i) || s.warpOver k inst h j ||
          decide (c.made h j ≥ (if h < g || (h == g && decide (j < i)) then r + 1 else r))

/-- The next act of a channel in grant order: the warp that has made the fewest rounds, the lowest first (R422). -/
def State.nextActor (s : State) (die ch inst : Nat) (k : Kernel) : Option (Nat × Nat) :=
  let c := (s.die die).chan ch
  let all := ((List.range k.rc.total).filter fun g => dieOf (k.logical g) == die).map fun g => (List.range k.rc.warps).map fun i => (g, i)
  (all.flatten.filter fun p => !s.warpOver k inst p.1 p.2).foldl (fun b p =>
    match b with
    | none => some p
    | some q => if c.made p.1 p.2 < c.made q.1 q.2 then some p else some q) none

/-- An act is made: the warp's round counted and the total raised (R422, R424). -/
def State.actMade (s : State) (die ch g i : Nat) (add : BitVec 64) : State :=
  s.modDie die fun d =>
    let c := d.chan ch
    { d with chans := ins d.chans ch { c with total := c.total + add, rounds := ins c.rounds (32 * g + i) (c.made g i + 1) } }

/-! ### The order log -/

/-- The share, the first entry's address and the index word's address of a die in a D2 kernel's log (R425). -/
def Kernel.logShare (k : Kernel) (die : Nat) : Option (Nat × Nat × Nat) :=
  k.olog.map fun (base, cap, idx) =>
    let share := cap / (8 * k.dies.length) * 8
    let j := (k.dies.filter fun d => decide (d < die)).length
    (share, base + 16 * (j * share), idx + 8 * j)

/-- The physical address of a virtual one as the order log's unit finds it: in a normal, device-biased page homed on the die, that
the context may write (R425, R359). -/
def State.logPa (s : State) (die ctx va : Nat) : Option Nat :=
  match s.walk die ctx va with
  | .page p =>
    if p.cls == 0 && p.w && !p.hmem && !s.hostBiased (p.pa va) && paDie (p.pa va) == die then some (p.pa va) else none
  | _ => none

/-- The home address of the index word of a die's bound instance. -/
def State.logIndex (s : State) (die : Nat) : Option Nat :=
  match (s.die die).log.bound with
  | some inst =>
    match look s.kernels inst with
    | some k =>
      match k.logShare die with
      | some (_, _, idx) => s.logPa die k.ctx idx
      | none => none
    | none => none
  | none => none

/-- A warp that stalled on a full log stalls no more: its time starts anew (R428). -/
def Hold.unstalled (h : Hold) : Hold :=
  { h with wait := match h.wait with
    | .logged _ => .logged none
    | w => w }

/-- A store at `.sys` of `IDX` := 0 releases the stall of a full log (R428). -/
def State.logReleased (s : State) (die pa n : Nat) : State :=
  if (s.die die).log.stall then
    match s.logIndex die with
    | some at_ =>
      if decide (at_ < pa + n) && decide (pa < at_ + 4) && memNat s.mem at_ 4 == 0 then
        { s.modDie die fun d => { d with log := { d.log with stall := false } } with
          wgs := s.wgs.map fun p => (p.1, if dieOf p.2.core = die then
            { p.2 with warps := p.2.warps.map fun w => (w.1, { w.2 with hold := w.2.hold.map Hold.unstalled }) } else p.2) }
      else s
    | none => s
  else s

/-- A die's log as its bound instance has it: context, share, the first entry's virtual address, the index word's home. -/
structure LogShare where
  ctx : Nat
  share : Nat
  base : Nat
  idx : Nat
  deriving DecidableEq, Repr, Inhabited

/-- The share of an instance in a die's log, if the unit finds its index word (R425). -/
def State.logShareOf (s : State) (die inst : Nat) : Option LogShare :=
  match look s.kernels inst with
  | none => none
  | some k =>
    match k.logShare die with
    | none => none
    | some (share, base, idx) => (s.logPa die k.ctx idx).map fun pa => ⟨k.ctx, share, base, pa⟩

/-- The two words of entry n; an entry that the unit cannot find reads as an end entry (L36). -/
def State.logAt (s : State) (die : Nat) (g : LogShare) (n : Nat) : Nat × Nat :=
  match s.logPa die g.ctx (g.base + 16 * n) with
  | some pa => (memNat s.mem pa 8, memNat s.mem (pa + 8) 8)
  | none => (15 * 2 ^ 60, 0)

/-- Whether replay ends at entry n: an end entry, or the end of the share (R427). -/
def State.logEnds (s : State) (die : Nat) (g : LogShare) (n : Nat) : Bool :=
  decide (g.share ≤ n) || (s.logAt die g n).1 / 2 ^ 60 == 15

/-- The workgroups of a grid that an entry with `WG` = w may name: those that are w modulo 2^32 (R426). -/
def LaunchRec.named (r : LaunchRec) (w : Nat) : List Nat :=
  ((List.range (r.total / 2 ^ 32 + 1)).map fun i => w + i * 2 ^ 32).filter fun g => decide (g < r.total)

/-- Whether entry n names a warp that makes no event any more: every workgroup that it may name is over (R426, R427). -/
def State.logDead (s : State) (die inst : Nat) (g : LogShare) (n : Nat) : Bool :=
  let w := (s.logAt die g n).1
  match look s.kernels inst with
  | some k => decide (k.rc.warps ≤ w / 2 ^ 55 % 32) || (k.rc.named (w % 2 ^ 32)).all fun h => s.warpOver k inst h (w / 2 ^ 55 % 32)
  | none => true

/-- Whether an order-sensitive event of a kernel waits for its turn in a log (R427): until the replay has ended. -/
def Ix.logs (x : Ix) : Bool := x.kr.rc.det == 2 && x.kr.olog.isSome && !(x.s.die (dieOf x.g.core)).log.rend

/-- Whether an order-sensitive event is ordered as in D1 (R420, R427). -/
def Ix.orders (x : Ix) : Bool := x.kr.rc.det == 1 || (x.kr.rc.det == 2 && !x.logs)

end Sys2Proof.Machine
end

