-- ==== Sys2Proof/Machine/Loc.lean ====
section
/-! DEFINITION. The LOC group (07): local addresses and partners, the L1, stash windows, loads, stores and atomics. -/

namespace Sys2Proof

/-- The size of an access of a type (R200). -/
def Ty.access (ty : Ty) : Nat :=
  match ty with
  | .i8 => 1
  | .f16 | .bf16 => 2
  | .i64 | .n64 | .f64 => 8
  | _ => 4

/-- What a load writes: a byte is sign-extended to 32 bits, the rest is zero-extended (R200). -/
def Ty.loaded (ty : Ty) (n : Nat) : Nat :=
  match ty with
  | .i8 => wrapNat 32 (asSigned 8 n)
  | _ => n

/-- Whether memory modifiers make an acquire, at any scope (R338). -/
def Mm.reads (m : Mm) : Bool := m.ord == .acq || m.ord == .ar

/-- Whether memory modifiers make an acquire that discards the L1 (R198, R338). -/
def Mm.acquires (m : Mm) : Bool :=
  m.reads && !(m.scope == .self || m.scope == .warp || m.scope == .core)

end Sys2Proof

namespace Sys2Proof.Machine

/-! ### Local addresses (R188, R189, R196) -/

/-- What a local address reaches: bytes of an area, nothing, or a partner to wait for. -/
inductive Reach
  | area (wid off : Nat) | nothing | wait
  deriving DecidableEq, Repr, Inhabited

/-- Whether bytes of an area meet the local range of an open stash window (R196). -/
def Wg.inStash (g : Wg) (off n : Nat) : Bool :=
  (vals g.stash).any fun w => decide (w.l < off + n) && decide (off < w.l + w.n)

/-- The own area: the declared bytes, and in handler mode the frame area (R188, R439). -/
def Ix.ownBytes (x : Ix) (off n : Nat) : Bool :=
  let r := x.kr.rc
  decide (off + n ≤ r.loc) ||
    (x.w.hmode && decide (r.frameBase ≤ off) && decide (off + n ≤ r.frameAt r.warps))

/-- A partner, as the table of R189 finds it. -/
inductive Partner
  /-- beyond the grid, retired, or in D0 not resident in the quad -/
  | nobody
  /-- in an ordered mode, not yet started -/
  | unborn
  /-- in an ordered mode, saved by pre-emption -/
  | saved (wid : Nat)
  | here (wid : Nat)
  deriving DecidableEq, Repr, Inhabited

/-- The partner at position j (R189). -/
def Ix.partnerOf (x : Ix) (j : Nat) : Partner :=
  let h := x.g.g - x.g.g % 4 + j
  let wid := widOf x.g.inst h
  let r := x.kr.rc
  if h ≥ r.total || x.kr.gone.contains h then .nobody
  else
    match look x.s.wgs wid with
    | some g =>
      if (r.det = 0 && (g.st == .saved || g.core / 4 != x.g.core / 4)) then .nobody
      else if g.st == .saved then .saved wid
      else .here wid
    | none => if r.det = 0 then .nobody else .unborn

/-- What n bytes at an offset of the area of the partner at position j reach (R188, R189, R196). -/
def Ix.partner (x : Ix) (j off n : Nat) : Reach :=
  if off + n > x.kr.rc.loc then .nothing
  else
    match x.partnerOf j with
    | .nobody => .nothing
    | .unborn | .saved _ => .wait
    | .here wid =>
      match look x.s.wgs wid with
      | some g => if g.inStash off n then .nothing else .area wid off
      | none => .nothing

/-- What n bytes at a local address reach (R188). -/
def Ix.reach (x : Ix) (ea n : Nat) : Reach :=
  let off := ea % 2 ^ 20
  if ea / 2 ^ 20 = 0 then
    if x.ownBytes off n && !x.g.inStash off n then .area x.c.wid off else .nothing
  else if ea / 2 ^ 30 = 1 && ea / 2 ^ 22 % 256 = 0 then x.partner (ea / 2 ^ 20 % 4) off n
  else .nothing

/-- Local accesses of an instruction, checked for every lane before any lane acts (R201): the area and offset of each. -/
def Ix.locals (x : Ix) (as : List Acc1) : Except Eff (List (Acc1 × Nat × Nat)) :=
  match firstCause (as.map misCause) with
  | some t => .error (.trap t)
  | none =>
    let rs := as.map fun a => (a, x.reach a.2.1 a.2.2)
    match firstCause (rs.map fun r => (r.1.1, r.1.2.1, if r.2 == .nothing then some (1, cLOCAL_RANGE) else none)) with
    | some t => .error (.trap t)
    | none =>
      if rs.any fun r => r.2 == .wait then .error .stall
      else .ok (rs.filterMap fun r => match r.2 with
        | .area wid off => some (r.1, wid, off)
        | _ => none)

/-- n bytes of a local area. -/
def State.lread (s : State) (wid off n : Nat) : List Byte :=
  match look s.wgs wid with
  | some g => memRead g.mem off n
  | none => zeros n

/-- Write bytes of a local area. -/
def State.lwrite (s : State) (wid off : Nat) (bs : List Byte) : State :=
  { s.modWg wid (fun g => { g with mem := memWrite g.mem off bs }) with
    past := ⟨some wid, off, s.lread wid off bs.length, none, false⟩ :: s.past }

/-- A store of the warp to a local area. -/
def Ix.lstore (x : Ix) (s : State) (wid off : Nat) (bs : List Byte) : State := (s.lwrite wid off bs).mine (x.c.wid, x.c.warp)

/-! ### What a location held (R340) -/

/-- Whether a record of the history is about some byte of a location. -/
def Past.meets (r : Past) (area : Option Nat) (at_ n : Nat) : Bool :=
  r.area == area && decide (r.at_ < at_ + n) && decide (at_ < r.at_ + r.old.length)

/-- The bytes of a location before some writes, the latest first, were made. -/
def before (rs : List Past) (area : Option Nat) (at_ : Nat) (bs : List Byte) : List Byte :=
  (List.range bs.length).map fun i => rs.foldl (fun b r =>
    if r.meets area (at_ + i) 1 then r.old.getD (at_ + i - r.at_) b else b) (bs.getD i 0)

/-- The writes that a read of the warp may be made before: a quantum read back to the warp's own latest write of the location
(R335, R340), a spec read no further than the warp's accesses that were no acquires, nor past what an acquire of the warp read
there (R337, R340). -/
def Ix.passable (x : Ix) (s : State) (spec : Bool) (area : Option Nat) (at_ n : Nat) : List Past :=
  (if spec then s.past.take (s.past.length - x.w.floor) else s.past).takeWhile fun r =>
    !(r.who == some (x.c.wid, x.c.warp) && (spec || !r.seen) && r.meets area at_ n)

/-- What a quantum or spec read of bytes that now stand as `bs` returns: what they held at some instant that R340 allows. -/
def Ix.heldOnce (x : Ix) (s : State) (spec : Bool) (area : Option Nat) (at_ : Nat) (bs : List Byte) : List Byte × State :=
  let rs := x.passable s spec area at_ bs.length
  let (k, s) := s.pick (rs.length + 1)
  (before (rs.take k) area at_ bs, s)

/-- An acquire of the warp has read a location. -/
def Ix.sawAt (x : Ix) (s : State) (area : Option Nat) (at_ : Nat) (bs : List Byte) : State :=
  { s with past := ⟨area, at_, bs, some (x.c.wid, x.c.warp), true⟩ :: s.past }

/-! ### The L1 (R197, R198) -/

/-- Whether the L1 and the stash may hold bytes of a page (R197, R202). -/
def State.cacheable (s : State) (p : Page) (pa : Nat) : Bool := p.cls == 0 && !p.hmem && !s.hostBiased pa

/-- The lines that a core's L1 holds. -/
def Core.l1Lines (c : Core) : Nat := 512 * c.carve.l1

/-- A line enters the L1; a full L1 gives up some line. -/
def State.l1Put (s : State) (core line : Nat) (bs : List Byte) : State :=
  let k := s.core core
  if (look k.l1 line).isSome || decide (k.l1.length < k.l1Lines) then
    s.setCore core { k with l1 := ins k.l1 line bs }
  else
    let (n, s) := s.pick k.l1.length
    let out := ((k.l1.map (·.1))[n]?).getD 0
    s.setCore core { k with l1 := ins (del k.l1 out) line bs }

/-- What a relaxed load reads from a line: the L1's copy, if it is there and still used, else the memory's bytes (R198). -/
def State.l1Get (s : State) (core line : Nat) : (Bool × List Byte) × State :=
  let fresh := memRead s.mem (128 * line) 128
  match look (s.core core).l1 line with
  | some bs =>
    let (n, s) := s.pick 2
    if n = 0 then ((true, bs), s) else ((false, fresh), s.setCore core { s.core core with l1 := ins (s.core core).l1 line fresh })
  | none => ((false, fresh), if s.poisoned (128 * line) 128 then s else s.l1Put core line fresh)

/-- Several lines of one load, each read once. -/
def State.l1GetAll (s : State) (core : Nat) : List Nat → Tab (Bool × List Byte) × State
  | [] => ([], s)
  | line :: rest =>
    let (t, s) := s.l1GetAll core rest
    match look t line with
    | some _ => (t, s)
    | none =>
      let (r, s) := s.l1Get core line
      (ins t line r, s)

/-- A store of the core updates the L1's copy of the line (R197). -/
def Core.l1Store (c : Core) (pa : Nat) (bs : List Byte) : Core :=
  { c with l1 := upd c.l1 (pa / 128) fun old => old.take (pa % 128) ++ bs ++ old.drop (pa % 128 + bs.length) }

/-! ### Stash windows (R190-R196) -/

/-- The open window that holds n bytes at a global address. An aligned access of at most 8 bytes is never partly inside one,
whose edges are multiples of 128 (R190, R191). -/
def Wg.windowOf (g : Wg) (va n : Nat) : Option (Nat × Stash) :=
  ((List.range 4).filterMap fun k => (look g.stash k).map fun w => (k, w)).find? fun p => decide (p.2.g ≤ va) && decide (va + n ≤ p.2.g + p.2.n)

/-- Whether the first touch of a window's line at an address must fill it. -/
def Wg.unfilled (g : Wg) (va n : Nat) : Bool :=
  match g.windowOf va n with
  | some (_, w) => (look w.lines ((va - w.g) / 128)).isNone
  | none => false

/-- The checks of R202 with those of a stash fill (R191, R202). -/
def Ix.globCause (x : Ix) (k : Plain) (va : Nat) (tr : Tr) : Ranked :=
  let e := plainCause x.s x.g.core k va tr
  match tr with
  | .page p =>
    if x.g.unfilled va 1 then
      let pa := p.pa va
      let f : Ranked :=
        if p.hmem || x.s.hostBiased pa then some (4, cPAGE_CLASS)
        else if x.s.poisoned (pa / 128 * 128) 128 then some (6, cMEM_UNCORR)
        else none
      match e, f with
      | some (r, c), some (q, d) => if r ≤ q then some (r, c) else some (q, d)
      | some (r, c), none => some (r, c)
      | none, f => f
    else e
  | _ => e

/-- A line of a window is present after a touch, filled if it was not (R191), and exclusive and dirty after a store (R192). -/
def State.touch (s : State) (wid k i pa : Nat) (store : Bool) : State :=
  let s := s.recall (some (wid, k)) false (pa / 128 * 128) 128
  let bs := memRead s.mem (pa / 128 * 128) 128
  s.modWg wid fun g =>
    match look g.stash k with
    | none => g
    | some w =>
      match look w.lines i with
      | some l =>
        let l' : StashLine := { l with excl := l.excl || store, dirty := l.dirty || store }
        { g with stash := ins g.stash k { w with lines := ins w.lines i l' } }
      | none =>
        { g with
          stash := ins g.stash k { w with lines := ins w.lines i ⟨store, store, pa / 128 * 128, false⟩ }
          mem := memWrite g.mem (w.l + 128 * i) bs }

/-- A global access as its page and the window it lies in tell: the window's number and line. -/
def Wg.windowLine (g : Wg) (va n : Nat) : Option (Nat × Nat) := (g.windowOf va n).map fun p => (p.1, (va - p.2.g) / 128)

/-- A touch of a window's line by the warp. The core's L1 gives up its copy: what the thread reads or writes in the window is
never older than what it reads once the window is closed (R198, R337, R343). -/
def Ix.touched (x : Ix) (s : State) (k i pa : Nat) (store : Bool) : State :=
  (s.touch x.c.wid k i pa store).modCore x.g.core fun c => { c with l1 := del c.l1 (pa / 128) }

/-- Whether an access is made on a line that a window already holds: it reads no block of the home (R191, R360). -/
def Wg.present (g : Wg) (va n : Nat) : Bool := (g.windowOf va n).isSome && !g.unfilled va n

/-- A store to global memory by the warp: into the window's line, or through the dome and the L1's copy; a page in host memory
is never held in a window (R202). The write-back of a line that a store dirties writes both its blocks before anyone else reads
them, which clears their poison (R192, R360). -/
def Ix.gstore (x : Ix) (s : State) (va : Nat) (p : Page) (bs : List Byte) : State :=
  let pa := p.pa va
  if p.hmem then s.gwrite none true pa bs
  else
    match x.g.windowOf va bs.length with
    | some (k, w) =>
      let s := (x.touched s k ((va - w.g) / 128) pa true).lwrite x.c.wid (w.l + (va - w.g)) bs
      let s := { s with poison := unpoison (pa / 128 * 128) 128 s.poison }
      (s.gwrite (some (x.c.wid, k)) false pa bs).mine (x.c.wid, x.c.warp)
    | none => ((s.gwrite none false pa bs).mine (x.c.wid, x.c.warp)).modCore x.g.core fun c => c.l1Store pa bs

/-! ### Loads and stores (R199-R202) -/

/-- The lanes that make an access for a destination or data operand (R201). -/
def Ix.accesses (x : Ix) (d : Opnd) (ty : Ty) (ea : Nat → Nat) : List Acc1 :=
  (x.computing d).map fun l => (l, ea l, ty.access)

/-- The core discards its L1 if the modifiers say so. -/
def State.acquired (s : State) (core : Nat) (mm : Mm) : State :=
  if mm.acquires then s.modCore core fun c => { c with l1 := [] } else s

/-- `LDL` (R201). -/
def execLdl (h : Hd) (mm : Mm) (ty : Ty) (d a b : Opnd) (off : BitVec 24) (s : State) : Host.Outcome State Fault Refusal :=
  issue (.ldl h mm ty d a b off) s fun x =>
    match x.locals (x.accesses d ty (x.laddr a b off)) with
    | .error e => x.onceLanes d e
    | .ok ps =>
      let s := if mm.reads then ps.foldl (fun s p => x.sawAt s (some p.2.1) p.2.2 (x.s.lread p.2.1 p.2.2 p.1.2.2)) x.s else x.s
      x.giveIn (s.acquired x.g.core mm) d ty.wide
        (ps.map fun p => (p.1.1, BitVec.ofNat 64 (ty.loaded (natOfBytes (x.s.lread p.2.1 p.2.2 p.1.2.2)))))

/-- `STL` (R201). -/
def execStl (h : Hd) (mm : Mm) (ty : Ty) (d a b : Opnd) (off : BitVec 24) (s : State) : Host.Outcome State Fault Refusal :=
  issue (.stl h mm ty d a b off) s fun x =>
    match x.locals (x.lanes.map fun l => (l, x.laddr a b off l, ty.access)) with
    | .error e => e
    | .ok ps => x.to (ps.foldl (fun s p => x.lstore s p.2.1 p.2.2 (bytesOfNat p.1.2.2 (x.rd ty d p.1.1))) x.s)

/-- What `LDG` reads at each access, and the machine after: windows' lines filled, the L1 used where it may be (R191, R197,
R198, R202); the cause of poison read (R360). -/
def Ix.gload (x : Ix) (acq : Bool) (ps : List (Acc1 × Page)) : Except Trap (State × List (Nat × Nat)) :=
  let cached := ps.filter fun p => !acq && (x.g.windowOf p.1.2.1 p.1.2.2).isNone && x.s.cacheable p.2 (p.2.pa p.1.2.1)
  let (t, s) := x.s.l1GetAll x.g.core (cached.map fun p => p.2.pa p.1.2.1 / 128)
  let hit (p : Acc1 × Page) : Option (List Byte) :=
    if cached.contains p then
      match look t (p.2.pa p.1.2.1 / 128) with
      | some (true, bs) => some ((bs.drop (p.2.pa p.1.2.1 % 128)).take p.1.2.2)
      | _ => none
    else none
  match poisonTrap x.s (ps.filter fun p => (hit p).isNone && !x.g.present p.1.2.1 p.1.2.2) with
  | some t => .error t
  | none =>
    let s := ps.foldl (fun s p =>
      match x.g.windowLine p.1.2.1 p.1.2.2 with
      | some (k, i) => x.touched s k i (p.2.pa p.1.2.1) false
      | none => if (hit p).isSome then s else s.recall none p.2.hmem (p.2.pa p.1.2.1) p.1.2.2) s
    .ok (s, ps.map fun p => (p.1.1, natOfBytes ((hit p).getD (s.gread p.2.hmem (p.2.pa p.1.2.1) p.1.2.2))))

/-- `LDG` (R201, R202). -/
def execLdg (h : Hd) (mm : Mm) (ty : Ty) (d a b : Opnd) (off : BitVec 24) (s : State) : Host.Outcome State Fault Refusal :=
  issue (.ldg h mm ty d a b off) s fun x =>
    let as := x.accesses d ty (x.gaddr a b off)
    match x.access as (x.globCause .load) with
    | .error e => x.onceLanes d e
    | .ok ps =>
      match x.gload mm.acquires ps with
      | .error t => x.onceLanes d (.trap t)
      | .ok (s, rs) =>
        match x.watched as with
        | some t => x.onceLanes d (.trap t)
        | none =>
          let s := if mm.reads then ps.foldl (fun s p =>
            if p.2.hmem then s else x.sawAt s none (p.2.pa p.1.2.1) (s.gread false (p.2.pa p.1.2.1) p.1.2.2)) s else s
          x.giveIn (s.acquired x.g.core mm) d ty.wide (rs.map fun r => (r.1, BitVec.ofNat 64 (ty.loaded r.2)))

/-- `STG` (R201, R202); a store at `.sys` may release a stalled log (R428). -/
def execStg (h : Hd) (mm : Mm) (ty : Ty) (d a b : Opnd) (off : BitVec 24) (s : State) : Host.Outcome State Fault Refusal :=
  issue (.stg h mm ty d a b off) s fun x =>
    let as := x.lanes.map fun l => (l, x.gaddr a b off l, ty.access)
    match x.access as (x.globCause .store) with
    | .error e => e
    | .ok ps =>
      match x.watched as with
      | some t => .trap t
      | none =>
        x.to (ps.foldl (fun s p =>
          let s := x.gstore s p.1.2.1 p.2 (bytesOfNat p.1.2.2 (x.rd ty d p.1.1))
          if mm.scope == .sys && !p.2.hmem then s.logReleased (dieOf x.g.core) (p.2.pa p.1.2.1) p.1.2.2 else s) x.s)

/-! ### Atomics (R203, R340) -/

/-- The new value of an atomic operation of w bits on the old value and operands (R203). -/
def atomNew (op : AtomOp) (signed : Bool) (w : Nat) (old c next : Nat) : Nat :=
  let less := if signed then decide (asSigned w old < asSigned w c) else decide (old < c)
  match op with
  | .add => (old + c) % 2 ^ w
  | .min => if less then old else c
  | .max => if less then c else old
  | .and => old &&& c
  | .or => old ||| c
  | .xor => old ^^^ c
  | .xchg => c
  | .cas => if old = c then next else old
  | .inc => if old ≥ c then 0 else old + 1

/-- The register after C that `.cas` stores (R203). -/
def nextOpnd (ty : Ty) : Opnd → Opnd
  | .v n => .v (n + (if ty.wide then 2 else 1))
  | .s n => .s (n + (if ty.wide then 2 else 1))
  | o => o

/-- What an atomic writes for a lane, from the old value (R203). -/
def Ix.atomTo (x : Ix) (op : AtomOp) (ty : Ty) (c : Opnd) (l old : Nat) : Nat :=
  atomNew op ty.signed ty.ew old (x.rd ty c l) (x.rd ty (nextOpnd ty c) l)

/-- Whether a use makes the atomic a read only (R340). -/
def readOnly (mm : Mm) : Bool := mm.use == .quant || mm.use == .spec

/-- The atomics of an instruction made in turn: `get` reads the old value of a lane, `put` writes its new one. -/
def atomAll (ls : List Nat) (get : State → Nat → Nat × State) (put : State → Nat → Nat → State) (s : State) :
    State × List LaneVal :=
  ls.foldl (fun r l =>
    let g := get r.1 l
    (put g.2 l g.1, r.2 ++ [(l, BitVec.ofNat 64 g.1)])) (s, [])

/-- What an atomic reads of a location whose bytes stand as `bs`, and the machine after: a quantum or spec read as R340 lets it,
any other the value just before its own write. -/
def Ix.atomOld (x : Ix) (mm : Mm) (area : Option Nat) (at_ : Nat) (bs : List Byte) (s : State) : Nat × State :=
  if readOnly mm then
    let r := x.heldOnce s (mm.use == .spec) area at_ bs
    (natOfBytes r.1, r.2)
  else (natOfBytes bs, if mm.reads then x.sawAt s area at_ bs else s)

/-- The atomics of `ATL`: the machine after and the old values, or what stops them. -/
def Ix.atlRun (x : Ix) (mm : Mm) (op : AtomOp) (ty : Ty) (a b c : Opnd) : Except Eff (State × List LaneVal) :=
  match x.locals (x.lanes.map fun l => (l, x.laddr a b 0 l, ty.access)) with
  | .error e => .error e
  | .ok ps =>
    let at_ (l : Nat) : Nat × Nat := ((ps.find? fun p => p.1.1 == l).map (·.2)).getD (0, 0)
    .ok (atomAll x.lanes (fun s l => x.atomOld mm (some (at_ l).1) (at_ l).2 (s.lread (at_ l).1 (at_ l).2 ty.access) s)
      (fun s l old => if readOnly mm then s
        else x.lstore s (at_ l).1 (at_ l).2 (bytesOfNat ty.access (x.atomTo op ty c l old)))
      (x.s.acquired x.g.core mm))

/-- The atomics of `ATG`: made at the dome or in the window's line; the L1's copy is discarded (R191, R197, R203). -/
def Ix.atgRun (x : Ix) (mm : Mm) (op : AtomOp) (ty : Ty) (a b c : Opnd) : Except Eff (State × List LaneVal) :=
  let as := x.lanes.map fun l => (l, x.gaddr a b 0 l, ty.access)
  match x.access as (x.globCause .atomic) with
  | .error e => .error e
  | .ok ps =>
    match poisonTrap x.s (ps.filter fun p => !x.g.present p.1.2.1 p.1.2.2) with
    | some t => .error (.trap t)
    | none =>
      match x.watched as with
      | some t => .error (.trap t)
      | none =>
        let at_ (l : Nat) : Nat × Page :=
          ((ps.find? fun p => p.1.1 == l).map fun p => (p.1.2.1, p.2)).getD (0, ⟨0, 1, false, false, 0, false, false⟩)
        let pa (l : Nat) : Nat := (at_ l).2.pa (at_ l).1
        let s := ps.foldl (fun s p =>
          match x.g.windowLine p.1.2.1 p.1.2.2 with
          | some (k, i) => x.touched s k i (p.2.pa p.1.2.1) (!readOnly mm)
          | none => (s.recall none false (p.2.pa p.1.2.1) p.1.2.2).modCore x.g.core fun k =>
              { k with l1 := del k.l1 (p.2.pa p.1.2.1 / 128) }) x.s
        .ok (atomAll x.lanes (fun s l => x.atomOld mm none (pa l) (s.gread false (pa l) ty.access) s)
          (fun s l old => if readOnly mm then s
            else x.gstore s (at_ l).1 (at_ l).2 (bytesOfNat ty.access (x.atomTo op ty c l old)))
          (s.acquired x.g.core mm))

/-- An atomic's end: old values to D unless `.nr` (R203). -/
def Ix.atomEnd (x : Ix) (nr : Bool) (ty : Ty) (d : Opnd) : Except Eff (State × List LaneVal) → Eff
  | .error e => e
  | .ok (s, rs) => if nr then x.to s else x.giveIn s d ty.wide rs

/-- `ATL` (R203); in D2 a value-returning one waits for its turn in the log (R427). -/
def execAtl (h : Hd) (mm : Mm) (op : AtomOp) (nr : Bool) (ty : Ty) (d a b c : Opnd) (s : State) :
    Host.Outcome State Fault Refusal :=
  issue (.atl h mm op nr ty d a b c) s fun x =>
    if x.idle then (if nr then x.pass else x.give d ty.wide [])
    else
      let r := x.atlRun mm op ty a b c
      match r with
      | .error e => e
      | .ok _ => if !nr && x.logs then .hold (.logged none) x.s else x.atomEnd nr ty d r

/-- `ATG` (R203); a value-returning one waits for its act on channel 7 in D1 and for its turn in the log in D2 (R421, R427). -/
def execAtg (h : Hd) (mm : Mm) (op : AtomOp) (nr : Bool) (ty : Ty) (d a b c : Opnd) (s : State) :
    Host.Outcome State Fault Refusal :=
  issue (.atg h mm op nr ty d a b c) s fun x =>
    if x.idle then (if nr then x.pass else x.give d ty.wide [])
    else
      let r := x.atgRun mm op ty a b c
      match r with
      | .error e => e
      | .ok _ =>
        if !nr && x.logs then .hold (.logged none) x.s
        else if !nr && x.orders then x.askAct 7
        else x.atomEnd nr ty d r

/-! ### Stash and L1 upkeep (R204-R207) -/

/-- Whether two ranges meet. -/
def rangesMeet (a n b m : Nat) : Bool := decide (a < b + m) && decide (b < a + n)

/-- `STASH` (R204). -/
def execStash (h : Hd) (win : BitVec 2) (a b c : Opnd) (s : State) : Host.Outcome State Fault Refusal :=
  issue (.stash h win a b c) s fun x =>
    if x.idle then x.pass
    else
      let g := x.u64 a
      let l := x.u32 b
      let n := x.u32 c
      let w := win.toNat
      let bad (cause : BitVec 7) : Eff := .trap (Trap.addr cause x.on g)
      if n = 0 then x.to (x.s.modWg x.c.wid fun y => { y with stash := del y.stash w })
      else if (look x.g.stash w).isSome then bad cSTASH_WINDOW
      else if g % 128 != 0 || l % 128 != 0 || n % 128 != 0 then bad cMISALIGNED
      else if l + n > x.kr.rc.loc then bad cLOCAL_RANGE
      else if g + n > 2 ^ 56 || (vals x.g.stash).any (fun o => rangesMeet g n o.g o.n || rangesMeet l n o.l o.n) then
        bad cSTASH_WINDOW
      else x.to (x.s.modWg x.c.wid fun y => { y with stash := ins y.stash w ⟨g, l, n, []⟩ })

/-- Whether `STFL` and `STINV` act on a window. -/
def covers (all : Bool) (win : BitVec 2) (k : Nat) : Bool := all || k == win.toNat

/-- A window after its dirty lines' write-backs begin; `.inv` empties the clean ones at once. -/
def Stash.flush (w : Stash) (inv : Bool) : Stash :=
  { w with lines := (if inv then w.lines.filter fun p => p.2.dirty || p.2.wb else w.lines).map fun p =>
      (p.1, { p.2 with excl := p.2.excl && !p.2.dirty, dirty := false, wb := p.2.wb || p.2.dirty }) }

/-- Whether a write-back of a window is not yet acknowledged. -/
def Wg.writingBack (g : Wg) (all : Bool) (win : BitVec 2) : Bool :=
  g.stash.any fun p => covers all win p.1 && p.2.lines.any fun l => l.2.wb

/-- `STFL` and `STINV` begin; the warp goes on when the write-backs have been acknowledged (R205). -/
def Ix.flush (x : Ix) (inv all : Bool) (win : BitVec 2) : Eff :=
  if x.idle then x.pass
  else
    let st := x.g.stash.map fun p => (p.1, if covers all win p.1 then p.2.flush inv else p.2)
    let s := x.s.modWg x.c.wid fun g => { g with stash := st }
    if ({ x.g with stash := st } : Wg).writingBack all win then .hold .wb s else x.to s

def execStfl (h : Hd) (all : Bool) (win : BitVec 2) (s : State) : Host.Outcome State Fault Refusal :=
  issue (.stfl h all win) s fun x => x.flush false all win

def execStinv (h : Hd) (all : Bool) (win : BitVec 2) (s : State) : Host.Outcome State Fault Refusal :=
  issue (.stinv h all win) s fun x => x.flush true all win

/-- `L1INV` (R206). -/
def execL1inv (h : Hd) (s : State) : Host.Outcome State Fault Refusal :=
  issue (.l1inv h) s fun x =>
    if x.idle then x.pass else x.to (x.s.modCore x.g.core fun c => { c with l1 := [] })

/-- A line that `PREF` asks for enters the window or the L1, where `LDG` of the byte there would not trap, a watch included (R207, R457).
Where `LDG` would wait for a page in flip, `PREF` brings in nothing (L95). -/
def Ix.prefetch (x : Ix) (s : State) (va : Nat) : State :=
  match x.xlate va with
  | .page p =>
    let pa := p.pa va
    if (x.globCause .load va (.page p)).isSome || (x.watched [(0, va, 1)]).isSome || !s.cacheable p pa || s.inFlip pa ||
        s.poisoned (pa / 128 * 128) 128 then s
    else
      match x.g.windowLine va 1 with
      | some (k, i) => x.touched s k i pa false
      | none =>
        if (look (s.core x.g.core).l1 (pa / 128)).isSome then s
        else (s.recall none false (pa / 128 * 128) 128).l1Put x.g.core (pa / 128) (memRead s.mem (pa / 128 * 128) 128)
  | _ => s

/-- `PREF` (R207); a walk it needs is made first. -/
def execPref (h : Hd) (a b : Opnd) (off : BitVec 24) (s : State) : Host.Outcome State Fault Refusal :=
  issue (.pref h a b off) s fun x =>
    let vas := x.lanes.map (x.gaddr a b off)
    let misses := vas.filter fun va => (x.xlate va).isMiss
    if misses.isEmpty then x.to (vas.foldl x.prefetch x.s) else x.walkFor misses

/-! ### Write-backs (R192, R205) -/

/-- What an instruction waits for with write-backs: all windows or one, and whether lines go. -/
def flushOf : Instr → Option (Bool × BitVec 2 × Bool)
  | .stfl _ all win => some (all, win, false)
  | .stinv _ all win => some (all, win, true)
  | _ => none

/-- Whether a warp waits in an `STINV` that covers a window. -/
def Wg.invalidating (g : Wg) (k : Nat) : Bool :=
  g.warps.any fun p => match p.2.hold with
    | some h => (match flushOf h.instr with
      | some (all, win, inv) => inv && h.wait == .wb && covers all win k
      | none => false)
    | none => false

/-- A line of a window after its write-back is acknowledged: it stays, shared, unless an `STINV` waits for it; one that no
write-back was made for is evicted (R192). -/
def Stash.written (w : Stash) (line : Nat) (inv : Bool) : Stash :=
  match look w.lines line with
  | some l => if l.wb && !inv then { w with lines := ins w.lines line { l with wb := false } } else { w with lines := del w.lines line }
  | none => w

/-- The instruction of a warp that waits for write-backs goes on when they are all acknowledged (R205). -/
def State.flushEnd (s : State) (wid i : Nat) : State :=
  match s.held wid i with
  | some (h, x) =>
    match flushOf h.instr with
    | some (all, win, _) => if h.wait == .wb && !x.g.writingBack all win then x.settleHeld (x.to s) else s
    | none => s
  | none => s

/-- WRITE_BACK_COMPLETE (R205): the home acknowledges a stash line's write-back, or the line is evicted. -/
def execWriteBackComplete (wid win line : Nat) (s : State) : Host.Outcome State Fault Refusal :=
  match look s.wgs wid with
  | none => .next s
  | some g =>
    let s := match (look g.stash win).bind fun w => look w.lines line with
      | some l => if l.wb || l.dirty then { s with poison := unpoison l.pa 128 s.poison } else s
      | none => s
    let s := s.modWg wid fun y => { y with stash := upd y.stash win fun w => w.written line (g.invalidating win) }
    .next ((g.warps.map (·.1)).foldl (fun s i => s.flushEnd wid i) s)

end Sys2Proof.Machine
end

