-- ==== Sys2Proof/Machine/Hdl.lean ====
section
/-! DEFINITION. The HDL group (08 R216-R219): sealing, unsealing and querying records. -/

namespace Sys2Proof.Machine

/-- A cause of an instruction that acts once names every lane with a true guard. -/
def Ix.all (x : Ix) : Eff → Eff
  | .trap t => .trap { t with lanes := x.on }
  | e => e

/-- The checks of a record's address after alignment, in order (R214, R217). -/
def Ix.recordCause (x : Ix) (size va : Nat) (tr : Tr) : Ranked :=
  match tr.cause false false, tr with
  | some c, _ => some c
  | none, .page p =>
    if va % p.size + size > p.size then some (4, cMISALIGNED)
    else if !classOk x.s .atomic p (p.pa va) then some (5, cPAGE_CLASS)
    else if paDie (p.pa va) != dieOf x.g.core then some (6, cREMOTE_PLAIN)
    else none
  | none, _ => none

/-- The bytes of a record, read as by one relaxed load at the dome, and the machine after (R217, R192). -/
def Ix.recordBytes (x : Ix) (size ea : Nat) : Except Eff (List Byte × State) :=
  match x.access [(firstOf x.lanes, ea, 32)] (x.recordCause size) with
  | .error e => .error (x.all e)
  | .ok [] => .error .stall
  | .ok (p :: _) =>
    if x.s.poisoned (p.2.pa ea) size then .error (.trap (Trap.addr cMEM_UNCORR x.on ea))
    else .ok (x.s.gread false (p.2.pa ea) size, x.s.domeRead x.g.core false (p.2.pa ea) size)

/-- The code of a record kind as a number (R214). -/
def kindCode (k : RecKind) : Nat := k.bits.toNat

/-- `SEAL` (R217). -/
def execSeal (h : Hd) (kind : RecKind) (d a b : Opnd) (off : BitVec 24) (s : State) : Host.Outcome State Fault Refusal :=
  issue (.seal h kind d a b off) s fun x =>
    if x.idle then x.pass
    else
      let ea := x.gaddr a b off (firstOf x.lanes)
      let k := kindCode kind
      match x.recordBytes (recSize k) ea with
      | .error e => e
      | .ok (bs, s) =>
        let die := dieOf x.g.core
        match x.s.recBad die x.kr.ctx k bs with
        | some (_, o) => .trap (Trap.addr cSEAL_BAD x.on (ea + o))
        | none =>
          let n := lowestFree (lookD (x.s.die die).handles x.kr.ctx []) 65535 1
          if n = 0 then x.giveIn s d false (x.once 0)
          else
            let g := (x.s.slotOf die x.kr.ctx n).gen
            x.giveIn (s.setSlot die x.kr.ctx n ⟨g, true, false, k, bs⟩) d false (x.once (n * 65536 + g.toNat))

/-- `UNSEAL` (R211, R218). -/
def execUnseal (h : Hd) (a : Opnd) (s : State) : Host.Outcome State Fault Refusal :=
  issue (.unseal h a) s fun x =>
    if x.idle then x.pass
    else
      let v := BitVec.ofNat 32 (x.u32 a)
      let die := dieOf x.g.core
      match x.s.liveSlot die x.kr.ctx v with
      | none => .trap (Trap.plain cHANDLE_STALE x.on)
      | some e =>
        x.to (x.s.setSlot die x.kr.ctx (hSlot v)
          (if e.gen = 0xFFFF#16 then ⟨e.gen, false, true, 0, []⟩ else ⟨e.gen + 1, false, false, 0, []⟩))

/-- `HQRY` (R219). -/
def execHqry (h : Hd) (rc : Bool) (d a : Opnd) (n : BitVec 6) (s : State) : Host.Outcome State Fault Refusal :=
  issue (.hqry h rc d a n) s fun x =>
    let v := BitVec.ofNat 32 (x.u32 a)
    let die := dieOf x.g.core
    let live := x.s.liveSlot die x.kr.ctx v
    let r :=
      if rc then
        match live with
        | some e => if 4 * n.toNat < recSize e.kind then fld e.copy (4 * n.toNat) 4 else 0
        | none => 0
      else if hSlot v = 0 then 0
      else (x.s.slotOf die x.kr.ctx (hSlot v)).gen.toNat * 65536 + (match live with
        | some e => e.kind
        | none => 0)
    x.give d false (x.once r)

end Sys2Proof.Machine
end

