-- ==== Sys2Proof/Machine/Barrier.lean ====
section
/-! DEFINITION. Landing barriers and the event matrix (09 R225-R234, R239-R242): updates, waiters, pulses, and the instructions
of the CPY group that act on them. -/

namespace Sys2Proof.Machine

/-! ### Barriers -/

/-- The completion check (R227): the barrier and whether a phase completed. -/
def Bar.check (b : Bar) : Bar × Bool :=
  if !b.u && decide (b.arr ≥ b.exp) && b.pend == 0 then
    ({ b with pf := b.f, f := false, arr := 0, phase := b.phase + 1 }, true)
  else (b, false)

/-- n arrivals and y bytes done (R227). -/
def Bar.arrive (n y : Nat) (b : Bar) : Bar × Bool :=
  let b := { b with arr := min (b.arr + n) 0xFFFF }
  Bar.check (if y > b.pend then { b with u := true, pend := 0 } else { b with pend := b.pend - y })

/-- y more bytes owed (R227). -/
def Bar.owe (y : Nat) (b : Bar) : Bar × Bool :=
  if b.pend + y > 2 ^ 48 - 1 then ({ b with u := true, pend := 2 ^ 48 - 1 }, false) else ({ b with pend := b.pend + y }, false)

/-- Initialisation (R239). -/
def Bar.init (exp : Nat) (b : Bar) : Bar × Bool := (⟨exp, 0, 0, b.phase + 2, false, false, false⟩, false)

/-- The fault mark of R223. -/
def Bar.faulted (b : Bar) : Bar := { b with f := true }

/-- The image of a barrier, 128 bits (R225). -/
def Bar.image (b : Bar) : Nat :=
  b.exp + b.arr * 2 ^ 16 + b.pend * 2 ^ 32 + b.phase.toNat * 2 ^ 80 + (if b.f then 2 ^ 96 else 0) + (if b.pf then 2 ^ 97 else 0) +
    (if b.u then 2 ^ 98 else 0)

/-- The distance of a token (R229). -/
def Bar.dist (b : Bar) (t : BitVec 16) : Nat := (b.phase - t).toNat

/-- A barrier of a workgroup. -/
def Wg.bar (g : Wg) (n : Nat) : Bar := lookD g.bars n Bar.reset

/-! ### Waiters (R228, R229, R240, R241) -/

/-- What becomes of threads blocked at a `BWAIT`: they stay, take the trap at their `BWAIT`, or go on with stale and fault. -/
inductive Judged
  | stay | again | go (stale fault : Bool)
  deriving DecidableEq, Repr, Inhabited

def Bar.judge (b : Bar) (t : BitVec 16) : Judged :=
  if b.u then .again
  else if b.dist t = 0 then .stay
  else .go (decide (b.dist t ≠ 1)) (decide (b.dist t = 1) && b.pf)

/-- Judge one set of blocked threads: the warp after. -/
def Warp.judgeOne (bars : Nat → Bar) (w : Warp) (b : Blocked) : Warp :=
  match b.why with
  | .bar n t d c =>
    match (bars n).judge t with
    | .stay => { w with blocked := w.blocked ++ [b] }
    | .again => w.rejoin [⟨b.prio, b.pc, b.mask⟩]
    | .go stale fault =>
      let all (x : Bool) : Mask := if x then b.mask else 0
      ((w.pset d b.mask (all stale)).pset c b.mask (all fault)).rejoin [⟨b.prio, b.pc + 12, b.mask⟩]
  | _ => { w with blocked := w.blocked ++ [b] }

/-- Judge every thread of a warp that is blocked in a `BWAIT`; held back in handler mode (R438). -/
def Warp.judgeBars (bars : Nat → Bar) (w : Warp) : Warp :=
  if w.hmode then w else w.blocked.foldl (Warp.judgeOne bars) { w with blocked := [] }

/-- Judge the waiters of a workgroup. -/
def Wg.judgeBars (g : Wg) : Wg := { g with warps := g.warps.map fun p => (p.1, p.2.judgeBars g.bar) }

/-! ### The event matrix (R230-R233) -/

/-- A command or `MMSEQ` held on a column: its post number, and whether it is an `MMSEQ`. -/
abbrev Held := Nat × Bool

/-- What is held on a column, in post order (R232, R264). -/
def State.column (s : State) (core wid c : Nat) : List Held :=
  let cmds := match look s.wgs wid with
    | some g => ((vals g.cmds).filter fun k => k.on == some c).map fun k => (k.seq, false)
    | none => []
  let seqs := ((s.core core).seqq.filter fun q => q.wid == wid && q.on == some c).map fun q => (q.seq, true)
  sortOn (·.1) (cmds ++ seqs)

/-- A held command starts: it is held no longer, and an `MMSEQ` joins the sequencer's queue at its end (R232, R221, R264). -/
def State.unhold (s : State) (core wid : Nat) (h : Held) : State :=
  if h.2 then s.modCore core fun c =>
    let me (q : SeqJob) : Bool := q.wid == wid && q.seq == h.1
    { c with seqq := (c.seqq.filter fun q => !me q) ++ (c.seqq.filter me).map fun q => { q with on := none } }
  else s.modWg wid fun g => { g with cmds := upd g.cmds h.1 fun k => { k with on := none } }

/-- `MMSEQ`s of the warp that `sel` picks by their pulses' columns are joined: their flags enter `FLG` (R50, R344). -/
def Warp.seqJoin (sel : BitVec 16 → Bool) (w : Warp) : Warp :=
  { w with
    flg := (w.seqFlags.filter fun f => sel f.1).foldl (fun a f => a ||| f.2) w.flg
    seqFlags := w.seqFlags.filter fun f => !sel f.1 }

/-- A start on a column is the join edge of the `MMSEQ`s whose pulses were counted there (R232, R344). -/
def Wg.seqJoin (g : Wg) (c : Nat) : Wg := { g with warps := g.warps.map fun p => (p.1, p.2.seqJoin fun m => m.getLsbD c) }

/-- Starts on a column while its counter and its queue allow (R232). -/
def State.startHeld (s : State) (core wid c : Nat) : State :=
  let q := s.column core wid c
  let n := min q.length (lookD (s.core core).mx.cnt c 0)
  let s := (q.take n).foldl (fun s h => s.unhold core wid h) (if n = 0 then s else s.modWg wid fun g => g.seqJoin c)
  s.modCore core fun k => { k with mx := { k.mx with cnt := ins k.mx.cnt c (lookD k.mx.cnt c 0 - n) } }

/-- A pulse from a source, of work of workgroup `wid` (R231, R232). -/
def State.pulse (s : State) (core wid src : Nat) : State :=
  if (s.core core).mx.holder = some wid then
    let cols := (List.range 16).filter fun c => (lookD (s.core core).mx.rows src 0).getLsbD c
    let s := s.modCore core fun k =>
      { k with mx := { k.mx with cnt := cols.foldl (fun t c => ins t c (min (lookD t c 0 + 1) 0xFFFF)) k.mx.cnt } }
    cols.foldl (fun s c => s.startHeld core wid c) s
  else s

/-- A phase completion of a barrier pulses every watch point on it (R227, R233). -/
def State.watchPulses (s : State) (core wid bar : Nat) : State :=
  (List.range 4).foldl (fun s i =>
    if (s.core core).mx.holder = some wid && look (s.core core).mx.watch i == some bar then s.pulse core wid (10 + i) else s) s

/-- An update of a barrier of a resident workgroup: the barrier, its waiters, its watch points (R227). -/
def State.barUpdate (s : State) (wid n : Nat) (f : Bar → Bar × Bool) : State :=
  match look s.wgs wid with
  | none => s
  | some g =>
    let r := f (g.bar n)
    let s := s.modWg wid fun g => ({ g with bars := ins g.bars n r.1 } : Wg).judgeBars
    if r.2 then s.watchPulses g.core wid n else s

/-- What is added to the redirect record of a saved workgroup's barrier, in its image (R448). -/
def State.redirect (s : State) (g : Wg) (n cnt y : Nat) : State :=
  match s.section g 6, look s.kernels g.inst with
  | some at_, some k =>
    let rec_ := at_ + (16 * k.rc.bars + 127) / 128 * 128 + 16 * n
    s.gwrite none false rec_ (bytesOfNat 8 (memNat s.mem rec_ 8 + cnt) ++ bytesOfNat 8 (memNat s.mem (rec_ + 8) 8 + y))
  | _, _ => s

/-- An arrival at a barrier: one of a saved workgroup is added to its redirect record (R227, R448). -/
def State.barArrive (s : State) (wid n cnt y : Nat) : State :=
  match look s.wgs wid with
  | none => s
  | some g =>
    if g.st == .saved then s.redirect g n cnt y else s.barUpdate wid n (Bar.arrive cnt y)

/-- A barrier's image in the save image of a saved workgroup (R225, R447). -/
def State.barKept (s : State) (wid n : Nat) : State :=
  match look s.wgs wid with
  | some g =>
    match (if g.st == .saved then s.section g 6 else none) with
    | some at_ => s.gwrite none false (at_ + 16 * n) (bytesOfNat 16 (g.bar n).image)
    | none => s
  | none => s

/-- The fault update of R223: `F`, in the image of a saved workgroup too, then one arrival with what is missing. -/
def State.barFault (s : State) (wid n cnt y : Nat) : State :=
  ((s.modWg wid fun g => { g with bars := ins g.bars n (g.bar n).faulted }).barKept wid n).barArrive wid n cnt y

/-! ### Barrier operands (R226) -/

/-- The workgroup and number that a barrier operand names, or what stops it. A partner's table comes first; `saved` says
whether a saved partner is named too, or waited for. -/
def Ix.barRef (x : Ix) (v : Nat) (peer saved : Bool) : Except Eff (Nat × Nat) :=
  let bad : Except Eff (Nat × Nat) := .error (.trap (Trap.addr cBAR_INDEX x.on v))
  let own (wid : Nat) : Except Eff (Nat × Nat) :=
    if v / 2048 != 0 || decide (v % 256 ≥ x.kr.rc.bars) then bad else .ok (wid, v % 256)
  if v / 1024 % 2 = 0 then own x.c.wid
  else if !peer then bad
  else
    match x.partnerOf (v / 256 % 4) with
    | .nobody => .error (.trap (Trap.plain cLOCAL_RANGE x.on))
    | .unborn => .error .stall
    | .saved wid => if saved then own wid else .error .stall
    | .here wid => own wid

/-- An own barrier: its number and state. -/
def Ix.ownBar (x : Ix) (a : Opnd) : Except Eff (Nat × Bar) :=
  match x.barRef (x.u32 a) false false with
  | .error e => .error e
  | .ok (_, n) => .ok (n, x.g.bar n)

/-! ### Instructions (R239, R240) -/

/-- `BINIT` (R239). -/
def execBinit (h : Hd) (a b : Opnd) (s : State) : Host.Outcome State Fault Refusal :=
  issue (.binit h a b) s fun x =>
    if x.idle then x.pass
    else
      match x.ownBar a with
      | .error e => e
      | .ok (n, _) => x.to (x.s.barUpdate x.c.wid n (Bar.init (x.u32 b % 65536)))

/-- `BARV` (R240): a release, which a saved partner takes into its redirect record. -/
def execBarv (h : Hd) (lanes : Bool) (d a b c : Opnd) (s : State) : Host.Outcome State Fault Refusal :=
  issue (.barv h lanes d a b c) s fun x =>
    if x.idle then x.pass
    else
      match x.barRef (x.u32 a) true true with
      | .error e => e
      | .ok (wid, n) =>
        let phase := match look x.s.wgs wid with
          | some g => (g.bar n).phase.toNat
          | none => 0
        let cnt := if lanes then x.lanes.length else x.u32 b % 65536
        x.giveIn (x.s.barArrive wid n cnt (x.u32 c)) d false (x.once phase)

/-- `BEXP` (R240). -/
def execBexp (h : Hd) (d a b : Opnd) (s : State) : Host.Outcome State Fault Refusal :=
  issue (.bexp h d a b) s fun x =>
    if x.idle then x.pass
    else
      match x.ownBar a with
      | .error e => e
      | .ok (n, bar) => x.giveIn (x.s.barUpdate x.c.wid n (Bar.owe (x.u32 b))) d false (x.once bar.phase.toNat)

/-- `BWAIT` (R229, R240, R241). -/
def execBwait (h : Hd) (d a b c : Opnd) (s : State) : Host.Outcome State Fault Refusal :=
  issue (.bwait h d a b c) s fun x =>
    if x.idle then x.pass
    else
      match x.ownBar a with
      | .error e => e
      | .ok (n, bar) =>
        let t := BitVec.ofNat 16 (x.u32 b)
        let all (y : Bool) : Mask := if y then x.on else 0
        match bar.judge t with
        | .again => .trap (Trap.addr cBAR_UNDERFLOW x.on (x.u32 a))
        | .stay => .regs (x.w.block x.c x.on (.bar n t d.idx c.idx)) none [x.others]
        | .go stale fault => x.warpTo ((x.w.pset d.idx x.on (all stale)).pset c.idx x.on (all fault))

/-- `BTEST` (R240). -/
def execBtest (h : Hd) (img : Bool) (d a b : Opnd) (s : State) : Host.Outcome State Fault Refusal :=
  issue (.btest h img d a b) s fun x =>
    if x.idle then x.pass
    else
      match x.ownBar a with
      | .error e => e
      | .ok (n, bar) =>
        let _ := n
        if img then
          x.warpTo ((List.range 4).foldl (fun w k => w.sset (d.idx + k) (BitVec.ofNat 32 (bar.image / 2 ^ (32 * k)))) x.w)
        else if bar.u then .trap (Trap.addr cBAR_UNDERFLOW x.on (x.u32 a))
        else x.give d false (x.each d fun _ => if bar.dist (BitVec.ofNat 16 (x.u32 b)) = 1 then 1 else 0)

/-! ### The event matrix' instructions (R242) -/

/-- A COPY_FAULT trap: every lane of the warp, address 0 (R244). -/
def Ix.copyFault (x : Ix) : Eff := .trap (Trap.addr cCOPY_FAULT (lowLanes x.w.width) 0)

/-- Change the event matrix of the issuing core. -/
def Ix.modMatrix (x : Ix) (f : Matrix → Matrix) : State := x.s.modCore x.g.core fun k => { k with mx := f k.mx }

/-- `EVMSET` (R242). B is judged before A; an A of `.watch` that fails R226 traps as R226 says, and one of `.pulse` that is not zero is judged
by its value, after the holder (L94). -/
def execEvmset (h : Hd) (mode : EvSet) (d a b : Opnd) (s : State) : Host.Outcome State Fault Refusal :=
  issue (.evmset h mode d a b) s fun x =>
    let av := x.u32 a
    let bv := x.u32 b
    let mx := (x.s.core x.g.core).mx
    let taken (m : Matrix) : Matrix := { m with holder := some x.c.wid }
    if x.idle then x.pass
    else if mx.holder.isSome && mx.holder != some x.c.wid then x.give d false (x.once 1)
    else
      match mode with
      | .route =>
        if bv > 15 then x.copyFault
        else x.giveIn (x.modMatrix fun m => { taken m with rows := ins m.rows bv (lookD m.rows bv 0 ||| BitVec.ofNat 16 av) })
          d false (x.once 0)
      | .watch =>
        if bv > 3 then x.copyFault
        else
          match x.barRef av false false with
          | .error e => e
          | .ok (_, n) => x.giveIn (x.modMatrix fun m => { taken m with watch := ins m.watch bv n }) d false (x.once 0)
      | .pulse =>
        if bv != 14 && bv != 15 then x.copyFault
        else if av != 0 then .trap (Trap.plain cILL_RSV x.c.bundle)
        else x.giveIn ((x.modMatrix taken).pulse x.g.core x.c.wid bv) d false (x.once 0)

/-- Whether a held command of the holder is outstanding (R242). -/
def Ix.holdsCommand (x : Ix) : Bool :=
  ((vals x.g.cmds).any fun c => c.on.isSome) || (x.s.core x.g.core).seqq.any fun q => q.wid == x.c.wid && q.on.isSome

/-- The matrix free and zero (R230). -/
def Matrix.free : Matrix := ⟨none, [], [], []⟩

/-- `EVMCLR` (R242). A row or watch point that the matrix does not have is cleared without effect (L14). Operands that must be zero are
judged by their values, of the holder alone (L94). -/
def execEvmclr (h : Hd) (mode : EvClr) (a b : Opnd) (s : State) : Host.Outcome State Fault Refusal :=
  issue (.evmclr h mode a b) s fun x =>
    let av := x.u32 a
    let bv := x.u32 b
    let bad : Eff := .trap (Trap.plain cILL_RSV x.c.bundle)
    if x.idle || (x.s.core x.g.core).mx.holder != some x.c.wid then x.pass
    else
      match mode with
      | .route => x.to (x.modMatrix fun m => { m with rows := upd m.rows bv fun r => r &&& ~~~(BitVec.ofNat 16 av) })
      | .cnt =>
        if bv != 0 then bad
        else x.to (x.modMatrix fun m => { m with cnt := m.cnt.filter fun p => !av.testBit p.1 })
      | .watch => x.to (x.modMatrix fun m => { m with watch := del m.watch bv })
      | .rel =>
        if av != 0 || bv != 0 then bad
        else if x.holdsCommand then x.copyFault
        else x.to (x.modMatrix fun _ => Matrix.free)

end Sys2Proof.Machine
end

