-- ==== Sys2Proof/Machine/Agents.lean ====
section
/-! DEFINITION. How engines and other agents reach memory (15 R358, R359; 09 R222; 18 R450): translation with its buffers
and walks, runs of bytes that cross pages, and local areas, also of saved workgroups. -/

namespace Sys2Proof.Machine

/-! ### Translation buffers (R358) -/

/-- A translation enters a buffer of `cap` entries; a full one gives up some entry. -/
def State.tlbRoom (s : State) (cap : Nat) (t : List TlbEntry) (e : TlbEntry) : List TlbEntry × State :=
  let t := t.filter fun o => !(o.ctx == e.ctx && o.va == e.va)
  if t.length < cap then (t ++ [e], s)
  else
    let (n, s) := s.pick t.length
    (t.eraseIdx n ++ [e], s)

def State.coreTlbPut (s : State) (core : Nat) (e : TlbEntry) : State :=
  let (t, s) := s.tlbRoom 256 (s.core core).tlb e
  s.modCore core fun c => { c with tlb := t }

def State.dieTlbPut (s : State) (die : Nat) (e : TlbEntry) : State :=
  let (t, s) := s.tlbRoom 8192 (s.die die).tlb e
  s.modDie die fun d => { d with tlb := t }

/-- The entry of a page found for an address. -/
def tlbOf (ctx va : Nat) (p : Page) : TlbEntry := ⟨ctx, va / p.size * p.size, p⟩

/-- Translation for an engine of a core, with the walk it needs. -/
def State.engXlate (s : State) (core ctx va : Nat) : Tr × State :=
  match s.xlate core [] ctx va with
  | .miss =>
    match s.walk (dieOf core) ctx va with
    | .page p => (.page p, (s.coreTlbPut core (tlbOf ctx va p)).dieTlbPut (dieOf core) (tlbOf ctx va p))
    | .absent => (.absent, s)
    | .poison => (.poison, s)
  | t => (t, s)

/-- Whether a walk result becomes an entry (R358). -/
def Walked.page? : Walked → Option Page
  | .page p => some p
  | _ => none

/-- A walk in flight ends (R358, R359): its result goes to the waiting instructions and, if it found a page and was not
invalidated meanwhile, into the buffers. A warp goes on when no walk it asked for is left. -/
def State.walkDone (s : State) (die : Nat) (w : Walk) (rest : List Walk) : State :=
  let r := s.walk die w.ctx w.va
  let s := s.modDie die fun d => { d with walks := rest }
  let s := match r.page?, w.install with
    | some p, true => s.dieTlbPut die (tlbOf w.ctx w.va p)
    | _, _ => s
  w.waiters.foldl (fun s who =>
    let s := match r.page?, w.install, look s.wgs who.1 with
      | some p, true, some g => s.coreTlbPut g.core (tlbOf w.ctx w.va p)
      | _, _, _ => s
    s.modWarp who.1 who.2 fun x =>
      match x.hold with
      | some h =>
        if h.wait == .walk then
          { x with
            walked := ins x.walked (w.va / 65536) r
            latched := if h.latch.isEmpty then x.latched else some (h.cur.pc, h.cur.bundle, h.latch)
            hold := if rest.any fun o => o.waiters.contains who then some h else none }
        else x
      | none => x) s

/-- WALK_COMPLETE (R358): one of the up to 256 walks that the walker carries. -/
def execWalkComplete (die k : Nat) (s : State) : Host.Outcome State Fault Refusal :=
  let ws := (s.die die).walks
  match ws[k % 256]? with
  | some w => .next (s.walkDone die w (ws.eraseIdx (k % 256)))
  | none => .next s

/-! ### Runs of global bytes -/

/-- A run cut at multiples of 64 KiB: offset in the run, address, length. -/
def segs (va n : Nat) : List (Nat × Nat × Nat) :=
  if n = 0 then []
  else (List.range ((va + n - 1) / 65536 - va / 65536 + 1)).map fun i =>
    let lo := if i = 0 then va else (va / 65536 + i) * 65536
    let hi := min (va + n) ((va / 65536 + i + 1) * 65536)
    (lo - va, lo, hi - lo)

/-- What an engine's access to a run within one page finds. -/
inductive Run
  | at_ (p : Page) (pa : Nat) | bad (cause : BitVec 7) | wait
  deriving DecidableEq, Repr, Inhabited

/-- An engine's plain access: translation, class and home as for a thread's (R202, R222), poison for a read (R360). -/
def State.engRun (s : State) (core ctx : Nat) (k : Plain) (va n : Nat) : Run × State :=
  let (tr, s) := s.engXlate core ctx va
  match plainCause s core k va tr, tr with
  | some c, _ => (.bad c.2, s)
  | none, .page p =>
    let pa := p.pa va
    if !p.hmem && s.inFlip pa then (.wait, s)
    else if k != .store && !p.hmem && s.poisoned pa n then (.bad cMEM_UNCORR, s)
    else (.at_ p pa, s)
  | none, _ => (.bad cPAGE_ABSENT, s)

/-- A run of bytes read by an engine: the bytes, a cause, or a wait for a flip. -/
inductive Bytes
  | ok (bs : List Byte) | bad (cause : BitVec 7) | wait
  deriving DecidableEq, Repr, Inhabited

/-- Two parts of a run. -/
def Bytes.join : Bytes → Bytes → Bytes
  | .ok a, .ok b => .ok (a ++ b)
  | .wait, _ => .wait
  | _, .wait => .wait
  | .bad c, .bad d => .bad (if c ≤ d then c else d)
  | .bad c, _ => .bad c
  | _, .bad c => .bad c

/-- An engine reads a run of global bytes; a cause anywhere in it is the run's (the smallest of several). -/
def State.engRead (s : State) (core ctx va n : Nat) : Bytes × State :=
  (segs va n).foldl (fun r g =>
    match r.2.engRun core ctx .load g.2.1 g.2.2 with
    | (.at_ p pa, s) =>
      (r.1.join (.ok (s.gread p.hmem pa g.2.2)), s.recall none p.hmem pa g.2.2)
    | (.bad c, s) => (r.1.join (.bad c), s)
    | (.wait, s) => (.wait, s)) (.ok [], s)

/-- Whether an engine may write a run of global bytes. -/
def State.engMayWrite (s : State) (core ctx va n : Nat) : Bytes × State :=
  (segs va n).foldl (fun r g =>
    match r.2.engRun core ctx .store g.2.1 g.2.2 with
    | (.at_ _ _, s) => (r.1, s)
    | (.bad c, s) => (r.1.join (.bad c), s)
    | (.wait, s) => (.wait, s)) (.ok [], s)

/-- An engine writes a run of global bytes that it may write. -/
def State.engWrite (s : State) (core ctx va : Nat) (bs : List Byte) : State :=
  (segs va bs.length).foldl (fun s g =>
    match s.engRun core ctx .store g.2.1 g.2.2 with
    | (.at_ p pa, s) => s.gwrite none p.hmem pa ((bs.drop g.1).take g.2.2)
    | (_, s) => s) s

/-! ### Local areas (R188, R450) -/

/-- The workgroup and offset that a local address of workgroup `wid` names, if it names any (R188, R189). -/
def areaOf (wid ea : Nat) : Option (Nat × Nat) :=
  let g := wid % 2 ^ 48
  if ea / 2 ^ 20 = 0 then some (wid, ea % 2 ^ 20)
  else if ea / 2 ^ 30 = 1 && ea / 2 ^ 22 % 256 = 0 then some (wid - g % 4 + ea / 2 ^ 20 % 4, ea % 2 ^ 20)
  else none

/-- An engine writes local bytes, for a warp's instruction or for none; into the image of a saved workgroup too (R450). -/
def State.areaWrite (s : State) (who : Option (Nat × Nat)) (wid off : Nat) (bs : List Byte) : State :=
  match look s.wgs wid with
  | some g =>
    let s := (s.lwrite wid off bs).mineOf who
    if g.st == .saved then
      match s.section g 3 with
      | some at_ => s.gwrite none false (at_ + off) bs
      | none => s
    else s
  | none => s

/-- Bytes of a workgroup's area: of its image while it is saved (R450). -/
def State.areaBytes (s : State) (g : Wg) (off n : Nat) : List Byte :=
  match (if g.st == .saved then s.section g 3 else none) with
  | some at_ => memRead s.mem (at_ + off) n
  | none => memRead g.mem off n

/-- Bytes that an engine reads at a local address; none when the area is there no more (L15). -/
def State.areaRead (s : State) (wid ea n : Nat) : Option (List Byte) :=
  match areaOf wid ea with
  | some (w, off) => (look s.wgs w).map fun g => s.areaBytes g off n
  | none => none

/-- Whether the area at a local address is there. -/
def State.areaThere (s : State) (wid ea : Nat) : Bool :=
  match areaOf wid ea with
  | some (w, _) => (look s.wgs w).isSome
  | none => false

/-- Write at a local address. -/
def State.areaPut (s : State) (who : Option (Nat × Nat)) (wid ea : Nat) (bs : List Byte) : State :=
  match areaOf wid ea with
  | some (w, off) => s.areaWrite who w off bs
  | none => s

end Sys2Proof.Machine
end

