-- ==== Sys2Proof/Machine/Cpy.lean ====
section
/-! DEFINITION. The copy engine's instructions (09 R220-R224, R236-R238, R243): the checks of a command, its post, the copy groups. -/

namespace Sys2Proof.Machine

/-- The column that a start field names; none when the command is not held (R235). -/
def startColumn (on : Start) : Option Nat := on.map (·.toNat)

/-- A post number, in order of posts in the machine. -/
def State.postNo (s : State) : Nat × State := (s.count, { s with count := s.count + 1 })

/-- Whether the kernel is in superstep mode (R415). -/
def LaunchRec.superstep (r : LaunchRec) : Bool := r.sscope != 0

/-- The parity that superstep traffic of a warp carries (R411). -/
def Ix.parity (x : Ix) : Option Bool := if x.kr.rc.superstep then some (x.w.ph.getLsbD 0) else none

/-- Whether a home die lies in the instance of a scope code for a thread of a die (R333). -/
def inScope (scope die home : Nat) : Bool :=
  if scope ≤ 3 then false
  else if scope = 4 then home == die
  else if scope = 5 then pkgOfDie home == pkgOfDie die
  else true

/-- The bytes of a table row (R238). -/
def Tensor.rowBytes (t : Tensor) : Nat := t.size.getD 0 0 * tySize t.ty

/-- Row r of a table (R238). -/
def Tensor.rowAt (t : Tensor) (r : Nat) : Nat := t.base + r * t.stride.getD 1 0

/-- Whether a table suits `GATH` and `SCAT` (R238). -/
def Tensor.rowsOk (t : Tensor) : Bool :=
  t.rank == 2 && t.stride.getD 0 0 == tySize t.ty && t.rowBytes % 4 == 0 && decide (4 ≤ t.rowBytes) && decide (t.rowBytes ≤ 65536)

/-- Step 3 of R236 but for argument limits: copy slots, and the matrix for a held command. -/
def Ix.copyBad (x : Ix) (on : Start) : Bool :=
  x.kr.rc.copies == 0 || ((startColumn on).isSome && (x.s.core x.g.core).mx.holder != some x.c.wid)

/-- Steps 4 and 5 of R236 for a local range. -/
def Ix.localRange (x : Ix) (ea n : Nat) : Option Eff :=
  match x.reach ea n with
  | .nothing => some (.trap (Trap.addr cLOCAL_RANGE x.c.bundle ea))
  | .wait => some .stall
  | .area _ _ => none

/-- An address that is not a multiple of 4 (R236 step 4). -/
def Ix.misaligned (x : Ix) (as : List Nat) : Option Eff :=
  (as.find? fun a => a % 4 != 0).map fun a => .trap (Trap.addr cMISALIGNED x.c.bundle a)

/-- The first that stops it, if any. -/
def firstStop (es : List (Option Eff)) : Option Eff := (es.find? Option.isSome).join

/-- A post, when a slot is free (R220): the command joins the workgroup's, held or not; a counter already above 0 starts it. -/
def Ix.post (x : Ix) (bar : Nat × Nat) (job : Job) (grp : BitVec 3) (on : Start) : Eff :=
  if x.g.cmds.length ≥ x.kr.rc.copies then .stall
  else
    let (n, s) := x.s.postNo
    let c : Cmd := ⟨n, x.c.warp, job, grp.toNat, startColumn on, false, bar, [], [], [], 0, 0, none, x.parity⟩
    let s := s.modWg x.c.wid fun g => { g with cmds := ins g.cmds n c }
    x.to (match startColumn on with
      | some col => s.startHeld x.g.core x.c.wid col
      | none => s)

/-- `CPY` (R236, R237). -/
def execCpy (h : Hd) (dir : CpyDir) (grp : BitVec 3) (on : Start) (d a b c : Opnd) (s : State) :
    Host.Outcome State Fault Refusal :=
  issue (.cpy h dir grp on d a b c) s fun x =>
    match x.barRef (x.u32 d) true false with
    | .error e => e
    | .ok bar =>
      let len := x.u32 c
      let ga := dir == .l2g || dir == .g2g
      let gb := dir == .g2l || dir == .g2g
      let dst := if ga then x.u64 a else x.u32 a
      let src := if gb then x.u64 b else x.u32 b
      let overlap := match areaOf x.c.wid dst, areaOf x.c.wid src with
        | some (u, p), some (v, q) => dir == .l2l && u == v && rangesMeet p len q len
        | _, _ => false
      if x.copyBad on || len % 4 != 0 || decide (len < 4) || decide (len > 2 ^ 24) || overlap then x.copyFault
      else
        match firstStop [x.misaligned [dst, src], if ga then none else x.localRange dst len,
            if gb then none else x.localRange src len] with
        | some e => e
        | none => x.post bar (.copy dir dst src len) grp on

/-- Whether an address is homed outside the superstep scope's instance (R413). -/
def Ix.homeOutside (x : Ix) (va : Nat) : Bool :=
  match (x.s.engXlate x.g.core x.kr.ctx va).1 with
  | .page p =>
    let home := paDie (p.pa va)
    !p.hmem && home != dieOf x.g.core && !inScope x.kr.rc.sscope (dieOf x.g.core) home
  | _ => false

/-- The 8-aligned span of some bytes: its start and length (R238). -/
def spanOf (va n : Nat) : Nat × Nat := (va / 8 * 8, (va + n + 7) / 8 * 8 - va / 8 * 8)

/-- The entries whose rows have a page outside the superstep scope's instance (R413). -/
def Ix.outside (x : Ix) (t : Tensor) (rows : List (Nat × Nat)) : List Nat :=
  if !x.kr.rc.superstep then []
  else (rows.filter fun r =>
    let sp := spanOf (t.rowAt r.2) t.rowBytes
    decide (r.2 < t.size.getD 1 0) && (segs sp.1 sp.2).any fun g => x.homeOutside g.2.1).map (·.1)

/-- The entries of a gather or scatter as they are known at the post: the lanes' indexes, or the list's words. -/
def Ix.rowIndexes (x : Ix) (list : Bool) (b : Opnd) (la n : Nat) : List (Option Nat) :=
  if list then
    match areaOf x.c.wid la with
    | some (w, off) => (List.range n).map fun i => some (natOfBytes (x.s.lread w (off + 4 + 4 * i) 4))
    | none => []
  else
    (List.range x.w.width).map fun l =>
      if x.w.live.getLsbD l && x.rd32 b l != 0xFFFFFFFF then some (x.rd32 b l) else none

/-- `GATH` and `SCAT` (R236, R238): of a list form the count word is checked and read before the rest. Every entry that is not skipped has
its local range checked, also one whose row the table does not have (L97). -/
def Ix.rowsCommand (x : Ix) (gather list rows : Bool) (grp : BitVec 3) (on : Start) (d a b c : Opnd) : Eff :=
  match x.handle (x.u32 c) 1 with
  | .error cause => .trap (Trap.plain cause x.c.bundle)
  | .ok bs =>
    let t := tensorOf bs
    match x.barRef (x.u32 d) true false with
    | .error e => e
    | .ok bar =>
      if x.copyBad on || !t.rowsOk then x.copyFault
      else
        let loc := x.u32 a
        let la := if list then x.u32 b else 0
        match firstStop (if list then [x.misaligned [la], x.localRange la 4] else [x.misaligned [loc]]) with
        | some e => e
        | none =>
          let n := match areaOf x.c.wid la with
            | some (w, off) => if list then natOfBytes (x.s.lread w off 4) else x.w.width
            | none => x.w.width
          if list && decide (n > 65535) then x.copyFault
          else
            let idx := x.rowIndexes list b la n
            let entries := ((List.range n).zip idx).filterMap fun p => p.2.map fun r => (p.1, r)
            let ranges := if list then
              x.misaligned [loc] :: (if n = 0 then [] else [x.localRange la (4 + 4 * n), x.localRange loc (n * t.rowBytes)])
              else entries.map fun e => x.localRange (wrapNat 32 (loc + e.1 * t.rowBytes)) t.rowBytes
            match firstStop ranges with
            | some e => e
            | none =>
              let out := if gather then x.outside t (entries.filter fun e => !list || e.2 != 0xFFFFFFFF) else []
              if !out.isEmpty then .trap (Trap.plain cPHASE_STATE (if list then x.c.bundle else maskOf out))
              else x.post bar (.rows gather rows list loc t (if list then [] else idx) la n) grp on

def execGath (h : Hd) (list rows : Bool) (grp : BitVec 3) (on : Start) (d a b c : Opnd) (s : State) :
    Host.Outcome State Fault Refusal :=
  issue (.gath h list rows grp on d a b c) s fun x => x.rowsCommand true list rows grp on d a b c

def execScat (h : Hd) (list rows : Bool) (grp : BitVec 3) (on : Start) (d a b c : Opnd) (s : State) :
    Host.Outcome State Fault Refusal :=
  issue (.scat h list rows grp on d a b c) s fun x => x.rowsCommand false list rows grp on d a b c

/-! ### Copy groups (R243) -/

def Wg.group (g : Wg) (n : Nat) : Group := lookD g.grps n ⟨0, false⟩

/-- The outstanding commands of a group. -/
def Wg.outstanding (g : Wg) (n : Nat) : List Cmd := (vals g.cmds).filter fun c => c.grp == n

/-- `CPYQ` (R243). -/
def execCpyq (h : Hd) (clr : Bool) (d a : Opnd) (s : State) : Host.Outcome State Fault Refusal :=
  issue (.cpyq h clr d a) s fun x =>
    let n := x.u32 a
    if x.idle then x.pass
    else if n > 7 then x.copyFault
    else
      let r := x.g.group n
      let out := x.g.outstanding n
      let v := r.cause * 2 ^ 17 + (if r.failed then 2 ^ 16 else 0) + (out.filter fun c => c.on.isSome).length * 256 + out.length
      x.giveIn (if clr then x.s.modWg x.c.wid fun g => { g with grps := del g.grps n } else x.s) d false (x.once v)

/-- The smaller of two causes, where 0 is none recorded. -/
def lessCause (a b : Nat) : Nat := if a = 0 then b else if b = 0 then a else min a b

/-- What a command would have landed: rows and bytes (R223). -/
def Job.amounts : Job → Nat × Nat
  | .copy _ _ _ len => (0, len)
  | .rows _ count _ _ t idx _ n =>
    let k := if idx.isEmpty then n else (idx.filter Option.isSome).length
    (if count then k else 0, k * t.rowBytes)

/-- A held command is cancelled (R223): the fault update for all of it, its group marked. Which entries of a list are skipped is read from
its index words now (L98). -/
def State.cancel (s : State) (wid : Nat) (c : Cmd) : State :=
  let (rows, bytes) := match look s.wgs wid, c.job with
    | some _, .rows _ count true _ t _ at_ n =>
      let k := (((List.range n).map fun i => s.areaRead wid (at_ + 4 + 4 * i) 4).filter fun w =>
        w != some (bytesOfNat 4 0xFFFFFFFF)).length
      (if count then k else 0, k * t.rowBytes)
    | _, j => j.amounts
  let s := s.modWg wid fun g =>
    { g with cmds := del g.cmds c.seq, grps := ins g.grps c.grp { g.group c.grp with failed := true } }
  s.barFault c.bar.1 c.bar.2 rows bytes

/-- `CPYK` (R243). -/
def execCpyk (h : Hd) (d a : Opnd) (s : State) : Host.Outcome State Fault Refusal :=
  issue (.cpyk h d a) s fun x =>
    let n := x.u32 a
    if x.idle then x.pass
    else if n > 7 then x.copyFault
    else
      let held := (x.g.outstanding n).filter fun c => c.on.isSome
      x.giveIn (held.foldl (fun s c => s.cancel x.c.wid c) x.s) d false (x.once held.length)

end Sys2Proof.Machine
end

