-- ==== Sys2Proof/Machine/Engine.lean ====
section
/-! DEFINITION. The matrix engine's storage and arithmetic (02 R51-R53; 10 R245-R254; 11 R270, R271): tiles and their edges,
accumulator tiles and their layout, group sums, products. -/

namespace Sys2Proof.Machine

/-! ### Tiles (R245-R247) -/

/-- The element bytes, rows and columns of a `TCFG` value (R246). -/
structure Edge where
  e : Nat
  rows : Nat
  cols : Nat
  deriving DecidableEq, Repr, Inhabited

def edgeOf (cfg : Nat) : Edge := ⟨2 ^ (cfg / 2 ^ 14 % 4), cfg / 2 ^ 8 % 64 + 1, cfg % 256⟩

/-- A valid `TCFG` value (R246). -/
def cfgOk (v : Nat) : Bool :=
  let g := edgeOf v
  decide (v < 2 ^ 16) && v / 2 ^ 14 % 4 != 3 && g.cols != 0 && decide (g.cols * g.e ≤ 128)

/-- The `TCFG` value of an edge. -/
def cfgValue (ew rows cols : Nat) : Nat := ew * 2 ^ 14 + (rows - 1) * 2 ^ 8 + cols

def Wg.tile (g : Wg) (n : Nat) : Tile := lookD g.tiles n Tile.reset

/-- Element (i, j) of a tile under an edge; zero outside it (R247). -/
def tileGet (bytes : Mem) (g : Edge) (i j : Nat) : Nat :=
  if i < g.rows ∧ j < g.cols then memNat bytes (128 * i + g.e * j) g.e else 0

/-- Byte c of row i under an edge. -/
def tileByte (bytes : Mem) (g : Edge) (i c : Nat) : Byte := if i < g.rows ∧ c < g.cols * g.e then memGet bytes (128 * i + c) else 0

/-! ### Accumulator tiles (R248, R271) -/

def Wg.acc (g : Wg) (n : Nat) : Acc := lookD g.accs n Acc.reset

/-- The key of logical element (i, j) (R248). -/
def accKey (turned : Bool) (i j : Nat) : Nat := if turned then 64 * j + i else 64 * i + j

def Acc.get (a : Acc) (turned : Bool) (i j : Nat) : Word := lookD a.els (accKey turned i j) 0

def Acc.put (a : Acc) (turned : Bool) (xs : List (Nat × Nat × Word)) : Acc :=
  { a with els := xs.foldl (fun t x => ins t (accKey turned x.1 x.2.1) x.2.2) a.els }

/-- Row and column of register q of a lane (R271). -/
def accPlace (width row0 q l : Nat) : Nat × Nat := (row0 + width / 32 * (q / 2) + l / 32, 32 * (q % 2) + l % 32)

/-! ### Sums (R51-R53) -/

/-- A number of an engine operand's element. -/
def engineNum (ty : Ty) (code : BitVec 5) (x : Nat) : Num :=
  match ty with
  | .b8 => (B8.ofCode code).decode x
  | _ => ty.ieee.decode x

/-- The group size (R51, R52). -/
def groupSize (ty : Ty) : Nat := if ty == .b8 then 32 else 16

/-- One group: its exact sum rounded, then added into the accumulator (R51, R254). -/
def groupAdd (acc : Nat) (ts : List (Num × Num)) : Nat × Cond :=
  let ps := ts.map fun t => mulNum t.1 t.2
  let c0 := (ts.foldl (fun c t => c ||| snOf t.1 ||| snOf t.2) cNone) ||| (ps.foldl (fun c p => c ||| p.2) cNone)
  let nan := if ps.any fun p => p.1.isNan then cIV else cNone
  let (s, c1) := sumNum false (ps.map (·.1))
  let (r, c2) := roundNum f32.fmt .rne false s
  let (x, c3) := fpAdd f32.fmt .rne false (f32.decode acc) r
  (f32.encode x, c0 ||| nan ||| c1 ||| c2 ||| c3)

/-- Groups in ascending order (R51). -/
def groupsAdd (acc : Nat) : List (List (Num × Num)) → Nat × Cond
  | [] => (acc, cNone)
  | g :: gs =>
    let (x, c) := groupAdd acc g
    let (y, d) := groupsAdd x gs
    (y, c ||| d)

/-- Terms of an i8 sum (R53). -/
def intAdd (acc : Nat) (ts : List (Nat × Nat)) : Nat :=
  wrapNat 32 ((acc : Int) + (ts.map fun t => asSigned 8 t.1 * asSigned 8 t.2).sum)

/-- engine_sum over terms (k, a, b) (R253, R254): `pad` counts the rest of every group as +0 products. -/
def engineSum (ty : Ty) (fa fb : BitVec 5) (n : Nat) (pad : Bool) (acc : Nat) (ts : List (Nat × Nat × Nat)) : Nat × Cond :=
  if ty == .i8 then (intAdd acc (ts.map (·.2)), cNone)
  else
    let g := groupSize ty
    groupsAdd acc ((List.range ((n + g - 1) / g)).map fun q =>
      let inG := (ts.filter fun t => t.1 / g == q).map fun t => (engineNum ty fa t.2.1, engineNum ty fb t.2.2)
      if pad then inG ++ List.replicate (g - inG.length) (.fin false 0 0, .fin false 0 0) else inG)

/-- A product into rows m and columns n of an accumulator tile: its new elements and the conditions. -/
def productInto (a : Acc) (turned : Bool) (m n : Nat) (f : Nat → Nat → Nat → Nat × Cond) : Acc × Cond :=
  let rs := ((List.range m).map fun i => (List.range n).map fun j =>
    let (x, c) := f i j (a.get turned i j).toNat
    (i, j, x, c)).flatten
  (a.put turned (rs.map fun r => (r.1, r.2.1, BitVec.ofNat 32 r.2.2.1)), rs.foldl (fun c r => c ||| r.2.2.2) cNone)

/-- tA x tB^T added into L (R253), for operands given by their elements and edges. -/
def product (ty : Ty) (fa fb : BitVec 5) (a : Acc) (turned : Bool) (m n k : Nat) (ea eb : Nat → Nat → Nat) : Acc × Cond :=
  productInto a turned m n fun i j x =>
    engineSum ty fa fb k true x ((List.range k).map fun q => (q, ea i q, eb j q))

/-- The stored and the whole group of a sparse pattern (R254). -/
def spSizes : SpPat → Nat × Nat
  | .s24 => (2, 4)
  | .s14 => (1, 4)
  | .s48 => (4, 8)

/-- A sparse product (R254): `meta` gives the nibble of stored element s of row i. -/
def sparseProduct (ty : Ty) (fa fb : BitVec 5) (pat : SpPat) (a : Acc) (turned : Bool) (ga gb : Edge) (ea eb nib : Nat → Nat → Nat) :
    Acc × Cond :=
  let (n, m) := spSizes pat
  productInto a turned ga.rows gb.rows fun i j x =>
    engineSum ty fa fb gb.cols false x ((List.range ga.cols).filterMap fun s =>
      let v := nib i s
      let k := s / n * m + v
      if v < m ∧ k < gb.cols then some (k, ea i s, eb j k) else none)

/-- Kind and layout that a product gives its tile (R248); none when they disagree. -/
def Acc.joined (a : Acc) (ty : Ty) (sw : Bool) : Option Acc :=
  let kind : AccKind := if ty == .i8 then .i32 else .f32
  let lay : AccLayout := if sw then .turned else .plain
  if (a.kind == .none || a.kind == kind) && (a.layout == .unset || a.layout == lay) then
    some { a with kind := kind, layout := lay }
  else none

/-! ### The queue (R249, R251) -/

/-- An engine instruction is queued: what it read, what the scoreboard waits for; the tiles' configuration and the accumulator
tiles' layout change in queue order, so at once (L16). -/
def Ix.enqueue (x : Ix) (s : State) (prm : List Nat) (ten : List Tensor) (vs : Tab Word) (v n : Nat) (mem flags : Bool) : Eff :=
  let (id, s) := s.postNo
  let j : EngJob := ⟨id, x.c.wid, x.c.warp, x.i, x.w.live, prm.map (BitVec.ofNat 64), ten, vs, x.w.frm⟩
  x.to ((x.inWarp s fun w => { w with await := w.await ++ [⟨id, v, n, mem, flags⟩] }).modCore x.g.core fun c =>
    { c with engq := c.engq ++ [j] })

/-- An engine instruction's debts are paid, when `now` writes have been made: what it read, a later spec read does not come before
(R337, R340, R344). -/
def Warp.paid (w : Warp) (id now : Nat) : Warp :=
  { w with
    await := w.await.filter fun a => a.id != id
    floor := if w.await.any fun a => a.id == id && a.mem then now else w.floor }

/-- A parameter of a queued instruction. -/
def EngJob.p (j : EngJob) (n : Nat) : Nat := (j.prm.getD n 0).toNat

/-- Flags that an engine raises into `FLG` at completion (R50). -/
def State.raiseIn (s : State) (wid i : Nat) (c : Cond) : State := s.modWarp wid i fun w => w.raise [(0, c)]

/-- A trap that names every lane of the warp (R257, R273). -/
def Ix.whole (x : Ix) (cause : BitVec 7) (faddr : Nat) : Eff := .trap (Trap.addr cause (lowLanes x.w.width) faddr)

/-- The least of some offsets into a run that `bad` picks; the run's start where it picks none. -/
def leastOffset (n : Nat) (os : List Nat) (bad : Nat → Bool) : Nat :=
  ((os.filter fun o => decide (o < n) && bad o).foldl (fun (m : Option Nat) o => match m with
    | none => some o
    | some p => some (min p o)) none).getD 0

/-- Where in a run of local bytes the reach of an address can end: at its start, at the end of the declared bytes or of the frames,
at an open window of the workgroup named. -/
def Ix.reachEnds (x : Ix) (ea : Nat) : List Nat :=
  let off := ea % 2 ^ 20
  let ws := match areaOf x.c.wid ea with
    | some (w, _) => (look x.s.wgs w).elim [] fun g => (vals g.stash).map fun s => s.l
    | none => []
  (0 :: x.kr.rc.loc :: x.kr.rc.frameAt x.kr.rc.warps :: ws).map fun b => b - off

/-- The first local address of a run that reaches nothing (R257, R273). -/
def Ix.firstLost (x : Ix) (ea n : Nat) : Nat := ea + leastOffset n (x.reachEnds ea) fun o => x.reach (ea + o) 1 == .nothing

/-- The first local range that an instruction cannot touch, or a partner to wait for (R257, R273). -/
def Ix.localRuns (x : Ix) (rs : List (Nat × Nat)) : Option Eff :=
  match rs.find? fun r => x.reach r.1 r.2 == .nothing with
  | some r => some (x.whole cLOCAL_RANGE (x.firstLost r.1 r.2))
  | none => if rs.any fun r => x.reach r.1 r.2 == .wait then some .stall else none

/-- The first byte of a run of the own area that is not a declared byte, or lies in an open window (R263, R283). -/
def Ix.declaredBad (x : Ix) (ea n : Nat) : Option Nat :=
  let bad (o n : Nat) : Bool := decide (x.kr.rc.loc < ea + o + n) || x.g.inStash (ea + o) n
  if bad 0 n then some (ea + leastOffset n (x.reachEnds ea) fun o => bad o 1) else none

/-- A local address plus an offset, modulo 2^32. -/
def laddr32 (a : Nat) (off : Int) : Nat := wrapNat 32 ((a : Int) + off)

/-- Local bytes an engine reads; zeros where the area is there no more (L15). -/
def State.engLocal (s : State) (wid ea n : Nat) : List Byte := (s.areaRead wid ea n).getD (zeros n)

end Sys2Proof.Machine
end

