-- ==== Sys2Proof/Machine/Til.lean ====
section
/-! DEFINITION. The TIL group (10 R256-R268): tile configuration, tile loads and stores, products, moves, and the macro
sequencer; what each queued one does when the engine executes it. -/

namespace Sys2Proof.Machine

/-- A tile index that the workgroup did not declare (R245). -/
def Ix.noTile (x : Ix) (o : Opnd) : Bool := decide (x.kr.rc.tiles ≤ o.idx)

/-- An accumulator index that the workgroup did not declare (R270). -/
def Ix.noAcc (x : Ix) (o : Opnd) : Bool := decide (x.kr.rc.accs ≤ o.idx)

/-- The `TCFG` value of a tile. -/
def Ix.cfg (x : Ix) (o : Opnd) : Nat := (x.g.tile o.idx).cfg.toNat

/-- Change a tile of the issuing workgroup. -/
def Wg.modTile (g : Wg) (n : Nat) (f : Tile → Tile) : Wg := { g with tiles := ins g.tiles n (f (g.tile n)) }

def Wg.modAcc (g : Wg) (n : Nat) (f : Acc → Acc) : Wg := { g with accs := ins g.accs n (f (g.acc n)) }

/-- Set the configuration of a tile. -/
def Wg.setCfg (g : Wg) (n cfg : Nat) : Wg := g.modTile n fun t => { t with cfg := BitVec.ofNat 32 cfg }

/-- `TCFG` (R258). -/
def execTcfg (h : Hd) (d a : Opnd) (s : State) : Host.Outcome State Fault Refusal :=
  issue (.tcfg h d a) s fun x =>
    if x.noTile d || !cfgOk (x.u32 a) then x.whole cTILE_CFG 0
    else x.to (x.s.modWg x.c.wid fun g => g.setCfg d.idx (x.u32 a))

/-- The memory runs of a tile load or store: address and length of each (R259). -/
def tileRuns (tr : TrMode) (g : Edge) (ea p : Nat) : List (Nat × Nat) :=
  match tr with
  | .none => (List.range g.rows).map fun (i : Nat) => (laddr32 ea ((i * p : Nat) : Int), g.cols * g.e)
  | _ => (List.range g.cols).map fun (j : Nat) => (laddr32 ea ((j * p : Nat) : Int), g.rows * g.e)

/-- The checks of a tile load or store (R257, R259), then its place in the queue. -/
def Ix.tileMove (x : Ix) (tr : TrMode) (d a b : Opnd) (off : BitVec 24) : Eff :=
  let p := x.u32 b
  let ea := laddr32 (x.u32 a) off.toInt
  let g := edgeOf (x.cfg d)
  if x.noTile d || p == 0 || decide (p > 65536) then x.whole cTILE_CFG 0
  else if ea % 4 != 0 then x.whole cMISALIGNED ea
  else if p % 4 != 0 then x.whole cMISALIGNED (laddr32 ea (p : Int))
  else if (tr == .tr8 && g.e != 1) || (tr == .tr16 && g.e != 2) then x.whole cMISALIGNED ea
  else
    match x.localRuns (tileRuns tr g ea p) with
    | some e => e
    | none => x.enqueue x.s [x.cfg d, ea, p] [] [] 0 0 true false

def execTld (h : Hd) (tr : TrMode) (d a b : Opnd) (off : BitVec 24) (s : State) : Host.Outcome State Fault Refusal :=
  issue (.tld h tr d a b off) s fun x => x.tileMove tr d a b off

def execTst (h : Hd) (d a b : Opnd) (off : BitVec 24) (s : State) : Host.Outcome State Fault Refusal :=
  issue (.tst h d a b off) s fun x => x.tileMove .none d a b off

/-- `TLD` executed (R259): runs across the rows, or down the columns with `.tr8` and `.tr16`. -/
def State.tldDone (s : State) (j : EngJob) (tr : TrMode) (d : Opnd) : State :=
  let g := edgeOf (j.p 0)
  let runs := ((tileRuns tr g (j.p 1) (j.p 2)).map fun r => s.engLocal j.wid r.1 r.2).zip (List.range 128)
  s.modWg j.wid fun w => w.modTile d.idx fun t =>
    { t with bytes :=
      match tr with
      | .none => runs.foldl (fun m r => memWrite m (128 * r.2) r.1) t.bytes
      | _ => runs.foldl (fun m r => (List.range g.rows).foldl (fun m (i : Nat) =>
          memWrite m (128 * i + g.e * r.2) ((r.1.drop (g.e * i)).take g.e)) m) t.bytes }

/-- `TST` executed (R259): rows in ascending order. -/
def State.tstDone (s : State) (j : EngJob) (d : Opnd) : State :=
  let g := edgeOf (j.p 0)
  match look s.wgs j.wid with
  | none => s
  | some w =>
    (List.range g.rows).foldl (fun s i =>
      s.areaPut (some (j.wid, j.warp)) j.wid (laddr32 (j.p 1) ((i * j.p 2 : Nat) : Int)) (memRead (w.tile d.idx).bytes (128 * i) (g.cols * g.e))) s

/-- `TZERO` (R260). -/
def execTzero (h : Hd) (d : Opnd) (s : State) : Host.Outcome State Fault Refusal :=
  issue (.tzero h d) s fun x =>
    if x.noTile d then x.whole cTILE_CFG 0 else x.enqueue x.s [] [] [] 0 0 false false

def State.tzeroDone (s : State) (j : EngJob) (d : Opnd) : State :=
  s.modWg j.wid fun w => w.modTile d.idx fun t => { t with bytes := [] }

/-- The element width code that a type needs (R261). -/
def engineEw (ty : Ty) : Nat := if ty == .f16 || ty == .bf16 then 1 else 0

/-- Whether a tile's width suits a type. -/
def Ix.widthBad (x : Ix) (ty : Ty) (o : Opnd) : Bool := x.cfg o / 2 ^ 14 % 4 != engineEw ty

/-- `MMA` (R253, R261). -/
def execMma (h : Hd) (sw : Bool) (fb fa : BitVec 5) (ty : Ty) (d a b : Opnd) (s : State) : Host.Outcome State Fault Refusal :=
  issue (.mma h sw fb fa ty d a b) s fun x =>
    if x.noAcc d then x.whole cACC_RANGE 0
    else if x.noTile a || x.noTile b || x.widthBad ty a || x.widthBad ty b then x.whole cTILE_CFG 0
    else
      match (x.g.acc d.idx).joined ty sw with
      | none => x.whole cTILE_CFG 0
      | some acc => x.enqueue (x.s.modWg x.c.wid fun g => g.modAcc d.idx fun _ => acc) [x.cfg a, x.cfg b] [] [] 0 0 false true

def State.mmaDone (s : State) (j : EngJob) (sw : Bool) (fb fa : BitVec 5) (ty : Ty) (d a b : Opnd) : State :=
  match look s.wgs j.wid with
  | none => s
  | some w =>
    let ga := edgeOf (j.p 0)
    let gb := edgeOf (j.p 1)
    let (acc, c) := product ty fa fb (w.acc d.idx) sw ga.rows gb.rows (max ga.cols gb.cols)
      (tileGet (w.tile a.idx).bytes ga) (tileGet (w.tile b.idx).bytes gb)
    (s.modWg j.wid fun w => w.modAcc d.idx fun y => { y with els := acc.els }).raiseIn j.wid j.warp c

/-- `MMASP` (R254, R262). -/
def execMmasp (h : Hd) (sw : Bool) (pat : SpPat) (fb fa : BitVec 5) (ty : Ty) (d a b c : Opnd) (s : State) :
    Host.Outcome State Fault Refusal :=
  issue (.mmasp h sw pat fb fa ty d a b c) s fun x =>
    if x.noAcc d then x.whole cACC_RANGE 0
    else if x.noTile a || x.noTile b || x.noTile c || x.widthBad ty a || x.widthBad ty b || x.cfg c / 2 ^ 14 % 4 != 0 then
      x.whole cTILE_CFG 0
    else
      match (x.g.acc d.idx).joined ty sw with
      | none => x.whole cTILE_CFG 0
      | some acc =>
        x.enqueue (x.s.modWg x.c.wid fun g => g.modAcc d.idx fun _ => acc) [x.cfg a, x.cfg b, x.cfg c] [] [] 0 0 false true

def State.mmaspDone (s : State) (j : EngJob) (sw : Bool) (pat : SpPat) (fb fa : BitVec 5) (ty : Ty) (d a b c : Opnd) : State :=
  match look s.wgs j.wid with
  | none => s
  | some w =>
    let ga := edgeOf (j.p 0)
    let gb := edgeOf (j.p 1)
    let gc := edgeOf (j.p 2)
    let nib (i k : Nat) : Nat := (tileByte (w.tile c.idx).bytes gc i (k / 2)).toNat / 16 ^ (k % 2) % 16
    let (acc, q) := sparseProduct ty fa fb pat (w.acc d.idx) sw ga gb (tileGet (w.tile a.idx).bytes ga)
      (tileGet (w.tile b.idx).bytes gb) nib
    (s.modWg j.wid fun w => w.modAcc d.idx fun y => { y with els := acc.els }).raiseIn j.wid j.warp q

/-- `TMOV` (R260). -/
def execTmov (h : Hd) (dir : TmDir) (d a b : Opnd) (s : State) : Host.Outcome State Fault Refusal :=
  issue (.tmov h dir d a b) s fun x =>
    let row0 := x.u32 b
    let far := decide (row0 + x.w.width / 32 > 64)
    match dir with
    | .tt =>
      if x.noTile d || x.noTile a then x.whole cTILE_CFG 0
      else x.enqueue (x.s.modWg x.c.wid fun g => g.setCfg d.idx (x.cfg a)) [] [] [] 0 0 false false
    | .t2v =>
      if x.noTile a || far then x.whole cTILE_CFG 0
      else x.enqueue x.s [x.cfg a, row0] [] [] d.idx 1 false false
    | .v2t =>
      if x.noTile d || far then x.whole cTILE_CFG 0
      else x.enqueue x.s [x.cfg d, row0] [] ((List.range x.w.width).map fun l =>
        (l, if x.w.live.getLsbD l then x.w.vget a.idx l else 0)) 0 0 false false

def State.tmovDone (s : State) (j : EngJob) (dir : TmDir) (d a : Opnd) : State :=
  let g := edgeOf (j.p 0)
  let at_ (l : Nat) : Nat × Nat := (j.p 1 + l / 32, 4 * (l % 32))
  match look s.wgs j.wid, dir with
  | none, _ => s
  | some w, .tt => s.modWg j.wid fun x => x.modTile d.idx fun t => { t with bytes := (w.tile a.idx).bytes }
  | some w, .t2v =>
    s.modWarp j.wid j.warp fun p => (lanesOf j.live).foldl (fun p l =>
      p.vset d.idx l (BitVec.ofNat 32 (natOfBytes ((List.range 4).map fun k =>
        tileByte (w.tile a.idx).bytes g (at_ l).1 ((at_ l).2 + k))))) p
  | some _, .v2t =>
    s.modWg j.wid fun x => x.modTile d.idx fun t =>
      { t with bytes := j.vals.foldl (fun m (q : Nat × Word) => (List.range 4).foldl (fun m (k : Nat) =>
          if (at_ q.1).1 < g.rows ∧ (at_ q.1).2 + k < g.cols * g.e then
            memSet m (128 * (at_ q.1).1 + (at_ q.1).2 + k) (q.2.extractLsb' (8 * k) 8)
          else m) m) t.bytes }

/-- `TQRY` (R258). -/
def execTqry (h : Hd) (n : Bool) (d a : Opnd) (s : State) : Host.Outcome State Fault Refusal :=
  issue (.tqry h n d a) s fun x =>
    if n then x.give d false (x.once (x.kr.rc.tiles + 256 * x.kr.rc.accs))
    else if x.idle then x.pass
    else if x.noTile a then x.whole cTILE_CFG 0
    else x.give d false (x.once (x.cfg a))

/-! ### The macro sequencer (R263-R268) -/

/-- The elements of a step (R264). -/
def stepSize (ty : Ty) : Nat := if engineEw ty = 1 then 64 else 128

/-- The geometry rules of R263 on one record. -/
def seqTensorOk (t : Tensor) (ty : Ty) (code : BitVec 5) : Bool :=
  let st := t.stride.getD 1 0
  t.rank == 2 && t.ty == ty.bits.toNat && (ty != .b8 || t.fmt == code) && t.stride.getD 0 0 == tySize t.ty &&
    st % 4 == 0 && decide (4 ≤ st) && decide (st ≤ 65536) && t.base % 4 == 0 && decide (t.base < 2 ^ 20) &&
    decide (t.size.getD 1 0 ≤ 64) && decide (t.size.getD 0 0 ≤ 1048576)

/-- The steps of an `MMSEQ` (R264). -/
def SeqJob.steps (j : SeqJob) : Nat := (j.ta.size.getD 0 0 + stepSize j.ty - 1) / stepSize j.ty

/-- `MMSEQ` (R257, R263-R265). The one that runs counts among the queue's eight; held ones do not (L99). -/
def execMmseq (h : Hd) (sw : Bool) (on : Start) (fb fa : BitVec 5) (ty : Ty) (d a b : Opnd) (s : State) :
    Host.Outcome State Fault Refusal :=
  issue (.mmseq h sw on fb fa ty d a b) s fun x =>
    match x.handle (x.u32 a) 1, x.handle (x.u32 b) 1 with
    | .error c, _ => x.whole c 0
    | .ok _, .error c => x.whole c 0
    | .ok ra, .ok rb =>
      let ta := tensorOf ra
      let tb := tensorOf rb
      let span (t : Tensor) : Nat × Nat := (t.base, t.last + 1 - t.base)
      if x.noAcc d then x.whole cACC_RANGE 0
      else
        match (x.g.acc d.idx).joined ty sw with
        | none => x.whole cTILE_CFG 0
        | some acc =>
          if !seqTensorOk ta ty fa then x.whole cSEQ_FAULT (x.u32 a)
          else if !seqTensorOk tb ty fb || ta.size.getD 0 0 != tb.size.getD 0 0 then x.whole cSEQ_FAULT (x.u32 b)
          else if (startColumn on).isSome && (x.s.core x.g.core).mx.holder != some x.c.wid then x.whole cCOPY_FAULT 0
          else
            match [span ta, span tb].findSome? fun r => x.declaredBad r.1 r.2 with
            | some a => x.whole cLOCAL_RANGE a
            | none =>
              if on.isNone && decide (8 ≤ ((x.s.core x.g.core).seqq.filter fun q => q.on.isNone).length) then .stall
              else
                let (n, s) := x.s.postNo
                let s := s.modWg x.c.wid fun g => { g.modAcc d.idx fun _ => acc with posted := (g.posted + 1) % 65536 }
                let s := s.modCore x.g.core fun c =>
                  { c with seqq := c.seqq ++ [⟨n, x.c.wid, x.c.warp, d.idx, ty, fa, fb, sw, ta, tb, startColumn on, false, 0, 0⟩] }
                x.to (match startColumn on with
                  | some col => s.startHeld x.g.core x.c.wid col
                  | none => s)

/-- The sequencer state of a workgroup (R266). -/
def State.seqState (s : State) (wid : Nat) : Nat :=
  match look s.wgs wid with
  | none => 0
  | some g =>
    let r := (s.core g.core).seqq.find? fun j => j.wid == wid && j.run
    g.posted * 2 ^ 48 + g.done * 2 ^ 32 + (if g.flt then 2 ^ 30 else 0) + (match r with
      | some j => 2 ^ 31 + j.step * 2 ^ 15 + j.steps
      | none => 0)

/-- Whether an `MMSEQ` that the warp posted has not completed. -/
def Ix.seqLeft (x : Ix) : Bool := (x.s.core x.g.core).seqq.any fun j => j.wid == x.c.wid && j.warp == x.c.warp

/-- `SEQST` reads the state; with `.clr` it clears `FLT`; a waiting one joins its warp's `MMSEQ`s and their flags (R266, R267). -/
def Ix.seqRead (x : Ix) (wait clr : Bool) (d : Opnd) : Eff :=
  let v := x.s.seqState x.c.wid
  let s := if clr then x.s.modWg x.c.wid fun g => { g with flt := false } else x.s
  let s := if wait then x.inWarp s (Warp.seqJoin fun _ => true) else s
  .mach (x.inWarp s fun w => w.writeD d true [(0, BitVec.ofNat 64 v)]) none x.c.advance

def execSeqst (h : Hd) (wait clr : Bool) (d : Opnd) (s : State) : Host.Outcome State Fault Refusal :=
  issue (.seqst h wait clr d) s fun x =>
    if x.idle then x.pass
    else if wait && x.seqLeft then .hold .seqst x.s else x.seqRead wait clr d

/-- SEQST_WAIT_RETURN (R267). -/
def execSeqstWaitReturn (wid warp : Nat) (s : State) : Host.Outcome State Fault Refusal :=
  s.endHold wid warp fun h x =>
    match h.wait, h.instr with
    | .seqst, .seqst _ w c d => if x.seqLeft then none else some (x.seqRead w c d)
    | _, _ => none

/-- An `MMSEQ` completes, with or without fault (R265): counted, its flags kept for its join with the columns that its pulse of source
8 is counted in. -/
def State.seqDone (s : State) (core : Nat) (j : SeqJob) (fault : Bool) : State :=
  let s := s.modCore core fun c => { c with seqq := c.seqq.filter fun q => q.seq != j.seq }
  let s := s.modWg j.wid fun g => { g with done := (g.done + 1) % 65536, flt := g.flt || fault }
  let mx := (s.core core).mx
  let cols : BitVec 16 := if mx.holder = some j.wid then lookD mx.rows 8 0 else 0
  let s := s.modWarp j.wid j.warp fun w => { w with seqFlags := w.seqFlags ++ [(cols, j.flags)] }
  s.pulse core j.wid 8

/-- The elements of a record's row in one step, by column. -/
def seqRow (m : Mem) (t : Tensor) (i k : Nat) : Nat := memNat m (t.base + i * t.stride.getD 1 0 + k * tySize t.ty) (tySize t.ty)

/-- Whether a step would read a byte that lies in an open stash window (R265). -/
def Wg.stepBlocked (g : Wg) (t : Tensor) (k0 kb : Nat) : Bool :=
  (List.range (t.size.getD 1 0)).any fun i =>
    g.inStash (t.base + i * t.stride.getD 1 0 + k0 * tySize t.ty) (kb * tySize t.ty)

/-- One step of an `MMSEQ` (R264, R265). -/
def State.seqStep (s : State) (core : Nat) (j : SeqJob) : State :=
  match look s.wgs j.wid with
  | none => s
  | some g =>
    let kk := stepSize j.ty
    let k0 := j.step * kk
    let kb := min kk (j.ta.size.getD 0 0 - k0)
    if g.stepBlocked j.ta k0 kb || g.stepBlocked j.tb k0 kb then s.seqDone core j true
    else
      let (acc, c) := product j.ty j.fa j.fb (g.acc j.acc) j.sw (j.ta.size.getD 1 0) (j.tb.size.getD 1 0) kb
        (fun i k => seqRow g.mem j.ta i (k0 + k)) (fun i k => seqRow g.mem j.tb i (k0 + k))
      let s := s.modWg j.wid fun w => w.modAcc j.acc fun y => { y with els := acc.els }
      let j' : SeqJob := { j with run := true, step := j.step + 1, flags := j.flags ||| c.setWidth 5 }
      if j'.step ≥ j.steps then s.seqDone core j' false
      else s.modCore core fun k => { k with seqq := k.seqq.map fun q => if q.seq == j.seq then j' else q }

/-- The `MMSEQ` that the sequencer runs or would run next (R265). One of a workgroup that is being stopped or ended makes no further
step (R268, R441, R444). -/
def State.seqHead (s : State) (core : Nat) : Option SeqJob :=
  let q := (s.core core).seqq.filter fun j => match look s.wgs j.wid with
    | some g => g.issues (s.clocksAt core)
    | none => false
  match q.find? fun j => j.run with
  | some j => some j
  | none => q.find? fun j => j.on.isNone

end Sys2Proof.Machine
end

