-- ==== Sys2Proof/Machine/Acc.lean ====
section
/-! DEFINITION. The ACC group (11 R270-R288): moves between accumulator tiles and registers, drains, updates, scaling, the quad
reduction, slices; what each queued one does when the engine executes it. -/

namespace Sys2Proof.Machine

/-! ### What the instructions capture and check -/

/-- The code of a tile's kind (R278). -/
def AccKind.code : AccKind → Nat
  | .none => 0
  | .f32 => 1
  | .i32 => 2

def AccKind.ofCode (n : Nat) : AccKind := if n = 1 then .f32 else if n = 2 then .i32 else .none

def AccLayout.code : AccLayout → Nat
  | .unset => 0
  | .plain => 1
  | .turned => 2

def AccLayout.ofCode (n : Nat) : AccLayout := if n = 1 then .plain else if n = 2 then .turned else .unset

/-- Kind and layout of a tile, as a queued instruction keeps them (L16). -/
def Acc.tag (a : Acc) : Nat := a.kind.code + 4 * a.layout.code

/-- The kind in a tag. -/
def tagKind (t : Nat) : AccKind := AccKind.ofCode (t % 4)

/-- Whether a tag says turned. -/
def tagTurned (t : Nat) : Bool := t / 4 == 2

/-- A tile after `AZERO` or a drain with `.z`, but for its elements (R277). -/
def Acc.fresh (a : Acc) : Acc := { a with kind := .none, layout := .unset }

/-- The tile's state when it is emptied; its elements become zero when the engine executes the instruction (L16). -/
def Ix.emptied (x : Ix) (z : Bool) (s : State) (n : Nat) : State :=
  if z then s.modWg x.c.wid fun g => g.modAcc n Acc.fresh else s

/-- All 4,096 elements zero (R277). -/
def State.accZero (s : State) (wid n : Nat) : State := s.modWg wid fun g => g.modAcc n fun a => { a with els := [] }

/-- The rows that a range of n registers covers (R271). -/
def rangeRows (width n : Nat) : Nat := width / 32 * (n / 2)

/-- A rounding mode as an engine has it: `FRM` as it stood at issue (R32, R272). -/
def engineMode (frm : BitVec 2) : Rnd → Mode
  | .rne => .rne
  | .rz => .rz
  | .rp => .rp
  | .rm => .rm
  | .dyn => match frm.toNat with
    | 0 => .rne | 1 => .rz | 2 => .rp | _ => .rm

/-- The conditions of a drain destination but for the base's alignment (R279): `al` divides stride 1, `m` and `n` bound the
rows and columns. -/
def drainOk (t : Tensor) (ty : Ty) (fmt : BitVec 5) (al m n : Nat) : Bool :=
  let st := t.stride.getD 1 0
  t.rank == 2 && t.ty == ty.bits.toNat && (ty != .b8 || t.fmt == fmt) && t.stride.getD 0 0 == tySize t.ty && st % al == 0 &&
    decide (4 ≤ st) && decide (st ≤ 65536) && decide (t.base < 2 ^ 20) && decide (t.size.getD 0 0 ≤ n) && decide (t.size.getD 1 0 ≤ m)

def Tensor.cols (t : Tensor) : Nat := t.size.getD 0 0

def Tensor.rows (t : Tensor) : Nat := t.size.getD 1 0

/-- The local address of a row. -/
def Tensor.row (t : Tensor) (i : Nat) : Nat := t.base + i * t.stride.getD 1 0

/-- The local runs of a tensor's rows. -/
def Tensor.runs (t : Tensor) : List (Nat × Nat) := (List.range t.rows).map fun i => (t.row i, t.cols * tySize t.ty)

/-- The first of some addresses that is not a multiple of its alignment (R273 step 4). -/
def Ix.wholeMis (x : Ix) (as : List (Nat × Nat)) : Option Eff :=
  (as.find? fun a => a.1 % a.2 != 0).map fun a => x.whole cMISALIGNED a.1

/-- A tensor handle (R273 step 1). -/
def Ix.tensorAt (x : Ix) (h : Nat) : Except Eff Tensor :=
  match x.handle h 1 with
  | .error c => .error (x.whole c h)
  | .ok bs => .ok (tensorOf bs)

/-- A condition that fails with a cause and no address. -/
def Ix.need (x : Ix) (ok : Bool) (c : BitVec 7) : Option Eff := if ok then none else some (x.whole c 0)

/-- Stop at the first check that fails, or go on. -/
def Ix.unless (_x : Ix) (es : List (Option Eff)) (go : Eff) : Eff :=
  match firstStop es with
  | some e => e
  | none => go

/-! ### Accumulator and vector registers (R276, R277) -/

/-- `ALD` (R276). -/
def execAld (h : Hd) (ln : BitVec 3) (d a b : Opnd) (s : State) : Host.Outcome State Fault Refusal :=
  issue (.ald h ln d a b) s fun x =>
    let n := 2 ^ ln.toNat
    let row0 := x.u32 b
    if x.noAcc a || decide (row0 + rangeRows x.w.width n > 64) then x.whole cACC_RANGE 0
    else x.enqueue x.s [(x.g.acc a.idx).tag, row0] [] [] d.idx n false false

def State.aldDone (s : State) (j : EngJob) (ln : BitVec 3) (d a : Opnd) : State :=
  match look s.wgs j.wid with
  | none => s
  | some g =>
    s.modWarp j.wid j.warp fun w => (List.range (2 ^ ln.toNat)).foldl (fun w q => (lanesOf j.live).foldl (fun w l =>
      let p := accPlace w.width (j.p 1) q l
      w.vset (d.idx + q) l ((g.acc a.idx).get (tagTurned (j.p 0)) p.1 p.2)) w) w

/-- Kind and layout after `AST` (R276). -/
def Acc.given (a : Acc) (kind : AccKind) : Acc :=
  { a with kind := kind, layout := if a.layout == .unset then .plain else a.layout }

/-- `AST` (R276): the registers as they are at issue. -/
def execAst (h : Hd) (ln : BitVec 3) (ty : Ty) (d a b : Opnd) (s : State) : Host.Outcome State Fault Refusal :=
  issue (.ast h ln ty d a b) s fun x =>
    let n := 2 ^ ln.toNat
    let row0 := x.u32 b
    let kind : AccKind := if ty == .i32 then .i32 else .f32
    let acc := x.g.acc d.idx
    x.unless [x.need (!x.noAcc d && decide (row0 + rangeRows x.w.width n ≤ 64)) cACC_RANGE,
        x.need (acc.kind == .none || acc.kind == kind) cTILE_CFG]
      (x.enqueue (x.s.modWg x.c.wid fun g => g.modAcc d.idx fun y => y.given kind) [(acc.given kind).tag, row0] []
        ((List.range n).map fun q => (List.range x.w.width).map fun l =>
          (128 * q + l, if x.w.live.getLsbD l then x.w.vget (a.idx + q) l else 0)).flatten 0 0 false false)

def State.astDone (s : State) (j : EngJob) (d : Opnd) : State :=
  match s.warp? j.wid j.warp with
  | none => s
  | some w =>
    s.modWg j.wid fun g => g.modAcc d.idx fun a => a.put (tagTurned (j.p 0)) (j.vals.map fun v =>
      let p := accPlace w.width (j.p 1) (v.1 / 128) (v.1 % 128)
      (p.1, p.2, v.2))

/-- `AZERO` (R277). -/
def execAzero (h : Hd) (d : Opnd) (s : State) : Host.Outcome State Fault Refusal :=
  issue (.azero h d) s fun x =>
    if x.noAcc d then x.whole cACC_RANGE 0 else x.enqueue (x.emptied true x.s d.idx) [] [] [] 0 0 false false

def State.azeroDone (s : State) (j : EngJob) (d : Opnd) : State := s.accZero j.wid d.idx

/-- `ACQRY` (R278): state in queue order (L16). -/
def execAcqry (h : Hd) (d a : Opnd) (s : State) : Host.Outcome State Fault Refusal :=
  issue (.acqry h d a) s fun x =>
    if x.idle then x.pass
    else if x.noAcc a then x.whole cACC_RANGE 0
    else x.give d false (x.once (x.g.acc a.idx).tag)

/-! ### Drains (R279, R280) -/

/-- Whether the table of R280 has a pair of kind and type. -/
def drainPair (k : AccKind) (ty : Ty) : Bool :=
  match k with
  | .none => true
  | .i32 => ty == .i32 || ty == .i8 || ty == .f32
  | .f32 => ty == .f32 || ty == .f16 || ty == .bf16 || ty == .b8

/-- One element drained (R280). -/
def drainEl (k : AccKind) (ty : Ty) (fmt : BitVec 5) (mode : Mode) (sat : Bool) (v : Word) : Nat × Cond :=
  match k with
  | .none => (0, cNone)
  | .i32 =>
    match ty with
    | .f32 =>
      let r := roundTo f32.fmt mode sat (decide (v.toInt < 0)) v.toInt.natAbs 0 false
      (f32.encode r.1, r.2)
    | .i8 => (wrapNat 8 (if sat then clampInt .i8 v.toInt else v.toInt), cNone)
    | _ => (v.toNat, cNone)
  | .f32 =>
    let y := f32.decode v.toNat
    match ty with
    | .b8 => (B8.ofCode fmt).convert mode sat y
    | .f16 | .bf16 =>
      let r := roundNum ty.ieee.fmt mode sat y
      (ty.ieee.encode r.1, r.2)
    | _ => if y == .nan true then (f32.nan, cSN) else (v.toNat, cNone)

/-- Rows written into a tensor of the own area, in ascending order, from the elements' numbers (R279). -/
def State.putRows (s : State) (wid warp : Nat) (t : Tensor) (f : Nat → Nat → Nat) : State :=
  (List.range t.rows).foldl (fun s i =>
    s.areaPut (some (wid, warp)) wid (t.row i) ((List.range t.cols).map fun j => bytesOfNat (tySize t.ty) (f i j)).flatten) s

/-- A drain of values into a tensor, with its conditions (R279, R280). -/
def State.drainTo (s : State) (wid warp : Nat) (t : Tensor) (f : Nat → Nat → Nat × Cond) : State × Cond :=
  (s.putRows wid warp t fun i j => (f i j).1,
   (List.range t.rows).foldl (fun c i => (List.range t.cols).foldl (fun c j => c ||| (f i j).2) c) cNone)

/-- `ADRN` (R280). -/
def execAdrn (h : Hd) (z : Bool) (fmt : BitVec 5) (rnd : Rnd) (ty : Ty) (sat : Bool) (a b : Opnd) (s : State) :
    Host.Outcome State Fault Refusal :=
  issue (.adrn h z fmt rnd ty sat a b) s fun x =>
    match x.tensorAt (x.u32 b) with
    | .error e => e
    | .ok t =>
      let acc := x.g.acc a.idx
      x.unless [x.need (!x.noAcc a) cACC_RANGE, x.need (drainPair acc.kind ty && drainOk t ty fmt 4 64 64) cTILE_CFG,
          x.wholeMis [(t.base, 4)], x.localRuns t.runs]
        (x.enqueue (x.emptied z x.s a.idx) [acc.tag] [t] [] 0 0 true true)

def State.adrnDone (s : State) (j : EngJob) (z : Bool) (fmt : BitVec 5) (rnd : Rnd) (ty : Ty) (sat : Bool) (a : Opnd) : State :=
  match look s.wgs j.wid, j.ten with
  | some g, t :: _ =>
    let (s, c) := s.drainTo j.wid j.warp t fun i k =>
      drainEl (tagKind (j.p 0)) ty fmt (engineMode j.frm rnd) sat ((g.acc a.idx).get (tagTurned (j.p 0)) i k)
    let s := if z then s.accZero j.wid a.idx else s
    s.raiseIn j.wid j.warp c
  | _, _ => s

/-! ### The optimiser step (R281) -/

/-- Whether the rows of two tensors of one workgroup have a byte in common. -/
def Tensor.meets (t u : Tensor) : Bool := t.runs.any fun p => u.runs.any fun q => rangesMeet p.1 p.2 q.1 q.2

/-- An element of a local tensor. -/
def Tensor.el (t : Tensor) (m : Mem) (i j : Nat) : Nat := memNat m (t.row i + j * tySize t.ty) (tySize t.ty)

/-- The updates of R281 on one element: g, the weight, the momentum; the new weight and momentum with their conditions. -/
def updateEl (rule : UpdRule) (fw fm : Ieee) (sat : Bool) (eta par g w mo : Num) : (Num × Num) × Cond :=
  let f := f32.fmt
  match rule with
  | .axpy =>
    let (t, c1) := fpMul f .rne sat eta g
    let (x, c2) := fpAdd fw.fmt .rne sat w t
    ((x, mo), c1 ||| c2)
  | .wd =>
    let (u, c1) := fpMul f .rne sat par w
    let (v, c2) := fpAdd f .rne sat g u
    let (t, c3) := fpMul f .rne sat eta v
    let (x, c4) := fpSub fw.fmt .rne sat w t
    ((x, mo), c1 ||| c2 ||| c3 ||| c4)
  | .mom =>
    let (u, c1) := fpMul f .rne sat par mo
    let (m, c2) := fpAdd fm.fmt .rne sat u g
    let (t, c3) := fpMul f .rne sat eta m
    let (x, c4) := fpSub fw.fmt .rne sat w t
    ((x, m), c1 ||| c2 ||| c3 ||| c4)

/-- `ADRU` (R281). -/
def execAdru (h : Hd) (rule : UpdRule) (z mbf : Bool) (ty : Ty) (sat : Bool) (a b c : Opnd) (s : State) :
    Host.Outcome State Fault Refusal :=
  issue (.adru h rule z mbf ty sat a b c) s fun x =>
    let par (k : Nat) : Nat := (x.w.sget (c.idx + k)).toNat
    let acc := x.g.acc a.idx
    let go (ts : List Tensor) (ok : Bool) : Eff :=
      x.unless [x.need (!x.noAcc a) cACC_RANGE, x.need (acc.kind != .i32 && ok) cTILE_CFG,
          x.wholeMis (ts.map fun t => (t.base, 4)), x.localRuns (ts.map Tensor.runs).flatten]
        (x.enqueue (x.emptied z x.s a.idx) [acc.tag, par 0, par 1] ts [] 0 0 true true)
    match x.tensorAt (x.u32 b) with
    | .error e => e
    | .ok t =>
      if rule == .mom then
        match x.tensorAt (par 2) with
        | .error e => e
        | .ok u =>
          go [t, u] (drainOk t ty 0 4 64 64 && drainOk u (if mbf then .bf16 else .f32) 0 4 64 64 &&
            t.rows == u.rows && t.cols == u.cols && !t.meets u)
      else go [t] (drainOk t ty 0 4 64 64 && par 2 == 0)

def State.adruDone (s : State) (j : EngJob) (rule : UpdRule) (z mbf : Bool) (ty : Ty) (sat : Bool) (a : Opnd) : State :=
  match look s.wgs j.wid, j.ten with
  | some g, t :: us =>
    let fm := if mbf then bf16 else f32
    let u := us.headD t
    let one (i k : Nat) : (Num × Num) × Cond :=
      updateEl rule ty.ieee fm sat (f32.decode (j.p 1)) (f32.decode (j.p 2))
        (f32.decode ((g.acc a.idx).get (tagTurned (j.p 0)) i k).toNat) (ty.ieee.decode (t.el g.mem i k)) (fm.decode (u.el g.mem i k))
    let (s, c) := s.drainTo j.wid j.warp t fun i k => (ty.ieee.encode (one i k).1.1, (one i k).2)
    let s := if us.isEmpty then s else s.putRows j.wid j.warp u fun i k => fm.encode (one i k).1.2
    let s := if z then s.accZero j.wid a.idx else s
    s.raiseIn j.wid j.warp c
  | _, _ => s

/-! ### Scale and accumulate (R282) -/

/-- A scale: an E8M0 byte or an f32 word (R282). -/
def scaleNum (fsc : Bool) (m : List Byte) (i : Nat) : Num :=
  if fsc then f32.decode (fld m (4 * i) 4)
  else
    let e := fld m i 1
    if e = 0xFF then .nan false else .fin false 1 ((e : Int) - 127)

def scaleBytes (fsc : Bool) : Nat := if fsc then 256 else 64

/-- An element of a tile as a number, by its kind (R271). -/
def accNum (k : AccKind) (v : Word) : Num :=
  match k with
  | .none => .fin false 0 0
  | .i32 => .fin (decide (v.toInt < 0)) v.toInt.natAbs 0
  | .f32 => f32.decode v.toNat

/-- `ASCA` (R282). -/
def execAsca (h : Hd) (fsc : Bool) (d a b : Opnd) (s : State) : Host.Outcome State Fault Refusal :=
  issue (.asca h fsc d a b) s fun x =>
    let r := (x.w.sget b.idx).toNat
    let c := (x.w.sget (b.idx + 1)).toNat
    let dst := x.g.acc d.idx
    let src := x.g.acc a.idx
    x.unless [x.need (!x.noAcc d && !x.noAcc a) cACC_RANGE, x.need (dst.kind != .i32) cTILE_CFG, x.wholeMis [(r, 4), (c, 4)],
        x.localRuns [(r, scaleBytes fsc), (c, scaleBytes fsc)]]
      (x.enqueue (x.s.modWg x.c.wid fun g => g.modAcc d.idx fun y => y.given .f32) [(dst.given .f32).tag, src.tag, r, c]
        [] [] 0 0 true true)

def State.ascaDone (s : State) (j : EngJob) (fsc : Bool) (d a : Opnd) : State :=
  match look s.wgs j.wid with
  | none => s
  | some g =>
    let rs := s.engLocal j.wid (j.p 2) (scaleBytes fsc)
    let cs := s.engLocal j.wid (j.p 3) (scaleBytes fsc)
    let (acc, c) := productInto (g.acc d.idx) (tagTurned (j.p 0)) 64 64 fun i k old =>
      let y := accNum (tagKind (j.p 1)) ((g.acc a.idx).get (tagTurned (j.p 1)) i k)
      let r := scaleNum fsc rs i
      let q := scaleNum fsc cs k
      let (p1, c1) := mulNum y r
      let (p2, c2) := mulNum p1 q
      let (v, c3) := roundNum f32.fmt .rne false p2
      let (t, c4) := fpAdd f32.fmt .rne false (f32.decode old) v
      (f32.encode t, snOf y ||| snOf r ||| snOf q ||| c1 ||| c2 ||| c3 ||| c4)
    (s.modWg j.wid fun w => w.modAcc d.idx fun y => { y with els := acc.els }).raiseIn j.wid j.warp c

/-! ### The quad reduction (R283-R285) -/

/-- `AQRED` (R283, R284): position 0 names the output, the others do not read C. -/
def execAqred (h : Hd) (z int : Bool) (fmt : BitVec 5) (rnd : Rnd) (ty : Ty) (sat : Bool) (a b c : Opnd) (s : State) :
    Host.Outcome State Fault Refusal :=
  issue (.aqred h z int fmt rnd ty sat a b c) s fun x =>
    let kind : AccKind := if int then .i32 else .f32
    let acc := x.g.acc a.idx
    let st := x.u32 b
    let go (ts : List Tensor) (ok : Bool) : Eff :=
      x.unless [x.need (!x.noAcc a) cACC_RANGE,
          x.need ((acc.kind == .none || acc.kind == kind) && drainPair kind ty && ok) cTILE_CFG,
          x.wholeMis ((st, 128) :: ts.map fun t => (t.base, 4)),
          if x.kr.rc.det = 0 then some (x.whole cLOCAL_RANGE st) else (x.declaredBad st 16384).map (x.whole cLOCAL_RANGE),
          x.localRuns (ts.map Tensor.runs).flatten]
        (x.enqueue ((x.emptied z x.s a.idx).modWg x.c.wid fun g => { g with aqIssued := g.aqIssued + 1 })
          [acc.tag, st, x.g.aqIssued + 1] ts [] 0 0 true true)
    if x.g.g % 4 = 0 then
      match x.tensorAt (x.u32 c) with
      | .error e => e
      | .ok t => go [t] (drainOk t ty fmt 4 64 64)
    else go [] true

/-- The words of a staging area (R283). -/
def stageGet (m : Mem) (st i j : Nat) : Nat := memNat m (st + 256 * i + 4 * j) 4

/-- Write a staging area. -/
def State.stagePut (s : State) (wid warp st : Nat) (f : Nat → Nat → Nat) : State :=
  (List.range 64).foldl (fun s i => s.areaWrite (some (wid, warp)) wid (st + 256 * i) ((List.range 64).map fun j => bytesOfNat 4 (f i j)).flatten) s

/-- The queue's part of `AQRED`: the tile is staged; what is left of the instruction stands beside the queue, which goes on only while
it waits for a partner (R285). -/
def State.aqredStaged (s : State) (j : EngJob) (z : Bool) (a : Opnd) : State :=
  match look s.wgs j.wid with
  | none => s
  | some g =>
    let s := s.stagePut j.wid j.warp (j.p 1) fun i k => ((g.acc a.idx).get (tagTurned (j.p 0)) i k).toNat
    let s := if z then s.accZero j.wid a.idx else s
    s.modWg j.wid fun g => { g with aqs := g.aqs ++ [⟨j.p 2, j.id, j.warp, j.instr, j.p 1, j.ten.head?, j.frm, 0, 0⟩] }

/-- The fields of an `AQRED`: `.int`, format, rounding, type, `SAT`. -/
def aqFields : Instr → Bool × BitVec 5 × Rnd × Ty × Bool
  | .aqred _ _ i f r t sat _ _ _ => (i, f, r, t, sat)
  | _ => (false, 0, .rne, .f32, false)

/-- The partner at a position of a workgroup's quad. -/
def partnerWid (wid p : Nat) : Nat := wid - wid % 2 ^ 48 % 4 + p

/-- What a partner has for the k-th reduction: zeros, words of its staging area after `need` steps, or nothing yet (R283). -/
inductive PartSum
  | zeros | words (wid : Nat) (stage : Nat) | wait
  deriving DecidableEq, Repr, Inhabited

def State.partSum (s : State) (g : Wg) (p k need : Nat) : PartSum :=
  let wid := partnerWid (widOf g.inst g.g) p
  match look s.kernels g.inst with
  | none => .zeros
  | some kr =>
    if wid % 2 ^ 48 ≥ kr.rc.total || kr.gone.contains (wid % 2 ^ 48) then .zeros
    else
      match look s.wgs wid with
      | none => .wait
      | some h =>
        if h.st == .saved then .wait
        else
          match h.aqs.find? fun q => q.k == k && decide (need ≤ q.steps) with
          | some q => .words wid q.stage
          | none => .wait

/-- A reduction is complete for a participant: the flags of its steps enter `FLG` (R272, R285). -/
def State.aqDone (s : State) (wid k : Nat) : State :=
  match look s.wgs wid with
  | none => s
  | some g =>
    match g.aqs.find? fun q => q.k == k with
    | none => s
    | some q =>
      ((s.modWg wid fun g => { g with aqs := g.aqs.filter fun r => r.k != k }).raiseIn wid q.warp q.flags).modWarp wid q.warp fun w =>
        w.paid q.id s.past.length

/-- An addition step: own staging plus the partner's, elementwise; the partner's instruction, now read, completes (R284, R285). -/
def State.aqAdd (s : State) (wid : Nat) (g : Wg) (q : Aq) (from_ : PartSum) : State :=
  let (int, _, _, _, _) := aqFields q.instr
  let src : Mem × Nat := match from_ with
    | .words w st => (match look s.wgs w with
      | some h => (h.mem, st)
      | none => ([], 0))
    | _ => ([], 0)
  let one (i j : Nat) : Nat × Cond :=
    let x := stageGet g.mem q.stage i j
    let y := stageGet src.1 src.2 i j
    if int then ((x + y) % 2 ^ 32, cNone)
    else
      let r := fpAdd f32.fmt .rne false (f32.decode x) (f32.decode y)
      (f32.encode r.1, r.2)
  let cs := (List.range 64).foldl (fun c i => (List.range 64).foldl (fun c j => c ||| (one i j).2) c) cNone
  let s := s.stagePut wid q.warp q.stage fun i j => (one i j).1
  let s := s.modWg wid fun g => { g with aqs := g.aqs.map fun r =>
    if r.k == q.k then { r with steps := r.steps + 1, flags := r.flags ||| cs } else r }
  let s := s.modCore g.core Core.dropL1
  match from_ with
  | .words w _ => s.aqDone w q.k
  | _ => s

/-- The conversion of position 0 (R284). -/
def State.aqWrite (s : State) (wid : Nat) (g : Wg) (q : Aq) (t : Tensor) : State :=
  let (int, fmt, rnd, ty, sat) := aqFields q.instr
  let (s, c) := s.drainTo wid q.warp t fun i j =>
    drainEl (if int then .i32 else .f32) ty fmt (engineMode q.frm rnd) sat (BitVec.ofNat 32 (stageGet g.mem q.stage i j))
  (s.raiseIn wid q.warp c).aqDone wid q.k

/-- The next step of a waiting `AQRED`, if it can be made (R284). -/
def State.aqStep (s : State) (wid : Nat) (g : Wg) (q : Aq) : Option State :=
  let add (p need : Nat) : Option State :=
    match s.partSum g p q.k need with
    | .wait => none
    | r => some (s.aqAdd wid g q r)
  match g.g % 4, q.steps, q.out with
  | 0, 0, _ => add 1 0
  | 0, 1, _ => add 2 1
  | 0, _, some t => some (s.aqWrite wid g q t)
  | 2, 0, _ => add 3 0
  | _, _, _ => none

/-- The next step that some `AQRED` of a workgroup can make: the first of them that does not wait for a partner; a saved workgroup
makes none. -/
def State.aqNext (s : State) (wid : Nat) (g : Wg) : Option State :=
  if g.st == .saved then none else g.aqs.findSome? fun q => s.aqStep wid g q

/-- AQRED_STEP (R285). -/
def execAqredStep (wid : Nat) (s : State) : Host.Outcome State Fault Refusal :=
  match look s.wgs wid with
  | some g =>
    match s.aqNext wid g with
    | some t => .next t
    | none => .next s
  | none => .next s

/-- Whether an `AQRED` of a core waits for no partner: the engine's other work waits for its steps (R285). -/
def State.aqReady (s : State) (core : Nat) : Bool := s.wgs.any fun p => p.2.core == core && (s.aqNext p.1 p.2).isSome

/-! ### Double precision by slices (R286, R288) -/

/-- The marker of a row that is not finite (R286). -/
def rowMark : Nat := 0x7FFFFFFF

/-- `SPLIT` (R286). -/
def execSplit (h : Hd) (n : BitVec 4) (ex : Bool) (d a b : Opnd) (s : State) : Host.Outcome State Fault Refusal :=
  issue (.split h n ex d a b) s fun x =>
    match x.tensorAt (x.u32 a) with
    | .error e => e
    | .ok t =>
      let k := n.toNat
      let e := x.u32 b
      let cfg := cfgValue 0 t.rows t.cols
      x.unless [x.need (decide (d.idx + k ≤ x.kr.rc.tiles) && drainOk t .f64 0 8 64 128) cTILE_CFG,
          x.wholeMis [(t.base, 8), (e, 4)], x.localRuns (t.runs ++ [(e, 4 * t.rows)])]
        (x.enqueue (x.s.modWg x.c.wid fun g => (List.range k).foldl (fun g i => g.setCfg (d.idx + i) cfg) g) [e] [t] [] 0 0 true true)

/-- The magnitude of a value in units of 2^(e - 7s), truncated and bounded (R286): the digits' number, and whether it was bounded. -/
def sliceMag (sl : Nat) (e : Int) (m : Nat) (ex : Int) : Nat × Bool :=
  let k := ex + 7 * (sl : Int) - e
  if m = 0 then (0, false)
  else if k + (m.log2 : Int) ≥ 7 * (sl : Int) then (2 ^ (7 * sl) - 1, true)
  else (if 0 ≤ k then m * pow2 k else m / pow2 (-k), false)

/-- One row of `SPLIT`: its exponent, its digits by slice and column, its conditions. `given` is the exponent of `.ex`. -/
def splitRow (sl : Nat) (given : Option Nat) (xs : List Num) : Nat × (Nat → Nat → Nat) × Cond :=
  let sn := xs.foldl (fun c v => c ||| snOf v) cNone
  if xs.any Num.isNan || hasInf false xs || hasInf true xs || given == some rowMark then (rowMark, fun _ _ => 0, sn)
  else
    let e : Int := match given with
      | some g => asSigned 32 g
      | none => match maxExp xs with
        | some a => a + 1
        | none => 0
    let ms := xs.map fun v => match v with
      | .fin neg m k => (neg, sliceMag sl e m k)
      | _ => (false, 0, false)
    (wrapNat 32 e,
     fun a k =>
      let v := ms.getD k (false, 0, false)
      let digit := v.2.1 / 2 ^ (7 * (sl - a)) % 128
      wrapNat 8 (sgn v.1 digit),
     sn ||| (if ms.any fun v => v.2.2 then cOF else cNone))

def State.splitDone (s : State) (j : EngJob) (n : BitVec 4) (ex : Bool) (d : Opnd) : State :=
  match look s.wgs j.wid, j.ten with
  | some g, t :: _ =>
    let sl := n.toNat
    (List.range t.rows).foldl (fun s i =>
      let at_ := laddr32 (j.p 0) ((4 * i : Nat) : Int)
      let given := if ex then some (natOfBytes (s.engLocal j.wid at_ 4)) else none
      let (e, digit, c) := splitRow sl given ((List.range t.cols).map fun k => f64.decode (t.el g.mem i k))
      let s := s.modWg j.wid fun w => (List.range sl).foldl (fun w a => w.modTile (d.idx + a) fun y =>
        { y with bytes := memWrite y.bytes (128 * i) ((List.range t.cols).map fun k => BitVec.ofNat 8 (digit (a + 1) k)) }) w
      (s.areaPut (some (j.wid, j.warp)) j.wid at_ (bytesOfNat 4 e)).raiseIn j.wid j.warp c) s
  | _, _ => s

/-- Elements that `RECOMB` reads for the lanes that are not exited: rows and columns (R271, R288). -/
def recombTouched (w : Warp) (row0 n : Nat) : List Nat × List Nat :=
  let ps := ((List.range n).map fun q => (lanesOf w.live).map fun l => accPlace w.width row0 q l).flatten
  ((List.range 64).filter fun r => ps.any fun p => p.1 == r, (List.range 64).filter fun c => ps.any fun p => p.2 == c)

/-- `RECOMB` (R288). -/
def execRecomb (h : Hd) (lv : BitVec 4) (ln : BitVec 3) (d a b : Opnd) (s : State) : Host.Outcome State Fault Refusal :=
  issue (.recomb h lv ln d a b) s fun x =>
    let n := 2 ^ ln.toNat
    let par (k : Nat) : Nat := (x.w.sget (b.idx + k)).toNat
    let acc := x.g.acc a.idx
    let (rows, cols) := recombTouched x.w (par 0) n
    x.unless [x.need (!x.noAcc a && decide (par 0 + rangeRows x.w.width n ≤ 64)) cACC_RANGE, x.need (acc.kind != .f32) cTILE_CFG,
        x.wholeMis [(par 1, 4), (par 2, 4)],
        x.localRuns (rows.map (fun (r : Nat) => (laddr32 (par 1) ((4 * r : Nat) : Int), 4)) ++
          cols.map (fun (k : Nat) => (laddr32 (par 2) ((4 * k : Nat) : Int), 4)))]
      (x.enqueue x.s [acc.tag, par 0, par 1, par 2] [] [] d.idx (2 * n) true true)

/-- One element of `RECOMB` (R288); an exponent beyond 5,000 either way rounds alike in f64. -/
def recombEl (t : Nat) (e f : Nat) (v : Word) (acc : Nat) : Nat × Cond :=
  if e = rowMark ∨ f = rowMark then (f64.nan, cIV)
  else
    let k := asSigned 32 e + asSigned 32 f - 7 * (t : Int)
    let k := if k > 5000 then 5000 else if k < -5000 then -5000 else k
    let r := fpAdd f64.fmt .rne false (.fin (decide (v.toInt < 0)) v.toInt.natAbs k) (f64.decode acc)
    (f64.encode r.1, r.2)

def State.recombDone (s : State) (j : EngJob) (lv : BitVec 4) (ln : BitVec 3) (d a : Opnd) : State :=
  match look s.wgs j.wid, s.warp? j.wid j.warp with
  | some g, some w =>
    let word (base i : Nat) : Nat := natOfBytes (s.engLocal j.wid (laddr32 base ((4 * i : Nat) : Int)) 4)
    let rs := ((List.range (2 ^ ln.toNat)).map fun q => (lanesOf j.live).map fun l =>
      let p := accPlace w.width (j.p 1) q l
      (d.idx + 2 * q, l, recombEl lv.toNat (word (j.p 2) p.1) (word (j.p 3) p.2)
        ((g.acc a.idx).get (tagTurned (j.p 0)) p.1 p.2) (w.vpair (d.idx + 2 * q) l).toNat)).flatten
    (s.modWarp j.wid j.warp fun w => rs.foldl (fun w r => w.vsetPair r.1 r.2.1 (BitVec.ofNat 64 r.2.2.1)) w).raiseIn j.wid j.warp
      (rs.foldl (fun c r => c ||| r.2.2.2) cNone)
  | _, _ => s

/-! ### The head of the queue (R249, R251) -/

/-- What an engine instruction does when it is executed. -/
def State.engineDo (s : State) (j : EngJob) : State :=
  match j.instr with
  | .tld _ tr d _ _ _ => s.tldDone j tr d
  | .tst _ d _ _ _ => s.tstDone j d
  | .tzero _ d => s.tzeroDone j d
  | .mma _ sw fb fa ty d a b => s.mmaDone j sw fb fa ty d a b
  | .mmasp _ sw pat fb fa ty d a b c => s.mmaspDone j sw pat fb fa ty d a b c
  | .tmov _ dir d a _ => s.tmovDone j dir d a
  | .ald _ ln d a _ => s.aldDone j ln d a
  | .ast _ _ _ d _ _ => s.astDone j d
  | .azero _ d => s.azeroDone j d
  | .adrn _ z fmt rnd ty sat a _ => s.adrnDone j z fmt rnd ty sat a
  | .adru _ rule z mbf ty sat a _ _ => s.adruDone j rule z mbf ty sat a
  | .asca _ fsc d a _ => s.ascaDone j fsc d a
  | .aqred _ z _ _ _ _ _ a _ _ => s.aqredStaged j z a
  | .split _ n ex d _ _ => s.splitDone j n ex d
  | .recomb _ lv ln d a _ => s.recombDone j lv ln d a
  | _ => s

/-- Whether an instruction is complete when the queue has executed it: all but `AQRED` are (R285). -/
def staysOpen : Instr → Bool
  | .aqred _ _ _ _ _ _ _ _ _ _ => true
  | _ => false

/-- SEQUENCER_STEP (R249, R264): in turns with the queue. -/
def execSequencerStep (core : Nat) (s : State) : Host.Outcome State Fault Refusal :=
  let c := s.core core
  match s.seqHead core with
  | some j =>
    .next (if (c.engq.isEmpty || c.engTurn) && !s.aqReady core then
      (s.seqStep core j).modCore core fun k => { k with engTurn := false } else s)
  | none => .next s

/-- ENGINE_COMPLETE (R249, R251): the head of the queue is executed, in turns with the sequencer. -/
def execEngineComplete (core : Nat) (s : State) : Host.Outcome State Fault Refusal :=
  let c := s.core core
  match c.engq with
  | [] => .next s
  | j :: rest =>
    if (c.engTurn && (s.seqHead core).isSome) || s.aqReady core then .next s
    else
      let s := (s.engineDo j).modCore core fun k => { k with engq := rest, engTurn := true }
      .next (if staysOpen j.instr then s else s.modWarp j.wid j.warp fun w => w.paid j.id s.past.length)

end Sys2Proof.Machine
end

