-- ==== Sys2Proof/Machine/Streams.lean ====
section
/-! DEFINITION. The transport of remote operations (15 R363-R370; 16 R389, R395; 17 R412): messages and their check codes,
streams, send queues, acknowledgements, deferred causes, and what a warp's remote instruction sends. -/

namespace Sys2Proof.Machine

/-! ### Check codes (R367) -/

/-- One bit of a reflected CRC-32C. -/
def crcBit (c : BitVec 32) : BitVec 32 := if c.getLsbD 0 then (c >>> 1) ^^^ 0x82F63B78#32 else c >>> 1

def crcByte (c : BitVec 32) (b : Byte) : BitVec 32 :=
  crcBit (crcBit (crcBit (crcBit (crcBit (crcBit (crcBit (crcBit (c ^^^ b.setWidth 32))))))))

/-- CRC-32C of a byte string. -/
def crc32c (bs : List Byte) : BitVec 32 := bs.foldl crcByte 0xFFFFFFFF#32 ^^^ 0xFFFFFFFF#32

/-! ### Messages (R367, R395) -/

/-- Descriptor indexes of a reply and of an acknowledgement group. -/
def ixReply : Nat := 0x3F
def ixAck : Nat := 0x3E

/-- The payload bytes that an index gives a message; a reply's are all that its length leaves (R377). -/
def payloadSize (idx len : Nat) : Nat :=
  if idx = 1 then 12 else if idx = 7 then 17 else if idx = ixReply || idx = ixAck then len - 24 else 8

/-- A message: the checked string, its code, and zeros to a multiple of 4 bytes (R367, R395). -/
def message (tag pa desc : Nat) (payload : List Byte) : List Byte :=
  let n := (20 + payload.length + 4 + 3) / 4
  let s := bytesOfNat 8 tag ++ bytesOfNat 8 pa ++ bytesOfNat 4 (desc + (n - 1) * 2 ^ 25) ++ payload
  padTo 4 (s ++ bytesOfNat 4 (crc32c s).toNat)

def msgTag (m : List Byte) : Nat := fld m 0 8
def msgPa (m : List Byte) : Nat := fld m 8 8
def msgDesc (m : List Byte) : Nat := fld m 16 4
def msgIdx (m : List Byte) : Nat := msgDesc m % 64

/-- Whether a message's check code holds (R367, R368). -/
def msgOk (m : List Byte) : Bool :=
  let n := 20 + payloadSize (msgIdx m) m.length
  decide (n + 4 ≤ m.length) && fld m n 4 == (crc32c (m.take n)).toNat

/-- A message as a noisy path delivers it. -/
def noised (m : List Byte) (noise : Nat) : List Byte := bytesOfNat m.length (natOfBytes m ^^^ (noise % 2 ^ (8 * m.length)))

/-! ### Streams (R363) -/

/-- Whether an address is a reply buffer's (R238, L17). -/
def isReplyPa (pa : Nat) : Bool := pa / 2 ^ 43 % 2 == 1

/-- The stream of an address: its home spire base, or its die's reply buffers. -/
def streamOf (pa : Nat) : Nat := if isReplyPa pa then 512 + paDie pa else paSpire pa

/-- A source agent: 4 * die, plus 1 and 2 for its spire bases (R363). -/
def coresAgent (die : Nat) : Nat := 4 * die
def spireAgent (sp : Nat) : Nat := 4 * (sp / 2) + 1 + sp % 2

/-- The spire base of an agent that is one. -/
def agentSpire (agent : Nat) : Nat := 2 * (agent / 4) + agent % 4 - 1

/-- A stream of an agent. -/
def State.stream (s : State) (agent dst : Nat) : Stream :=
  lookD (if agent % 4 = 0 then (s.die (agent / 4)).streams else (s.spire (agentSpire agent)).streams) dst ⟨0, [], []⟩

def State.setStream (s : State) (agent dst : Nat) (x : Stream) : State :=
  if agent % 4 = 0 then s.modDie (agent / 4) fun d => { d with streams := ins d.streams dst x }
  else s.modSpire (agentSpire agent) fun p => { p with streams := ins p.streams dst x }

def State.modStream (s : State) (agent dst : Nat) (f : Stream → Stream) : State := s.setStream agent dst (f (s.stream agent dst))

/-- The operations of a warp in the streams of its die, with their streams. -/
def State.warpOps (s : State) (die wid warp : Nat) : List (Nat × OutOp) :=
  ((s.die die).streams.map fun st => (st.2.ops.filter fun o => match o.who with
    | .warp w i _ _ => w == wid && i == warp
    | _ => false).map fun o => (st.1, o)).flatten

/-- The place of an operation among its warp's. -/
def OutOp.ord (o : OutOp) : Nat :=
  match o.who with
  | .warp _ _ n _ => n
  | _ => 0

/-- Superstep traffic counted at a core or spire base (R412): which counter moves by how much. -/
def Counts.sent (c : Counts) (p : Bool) (n : BitVec 48) : Counts :=
  if p then { c with sent1 := c.sent1 + n } else { c with sent0 := c.sent0 + n }

def Counts.applied (c : Counts) (p : Bool) : Counts :=
  if p then { c with appl1 := c.appl1 + 1 } else { c with appl0 := c.appl0 + 1 }

/-- `SENT` of a sender changes (R412). -/
def State.countSent (s : State) (who : Issuer) (parity : Option Bool) (n : BitVec 48) : State :=
  match parity with
  | none => s
  | some p =>
    match who with
    | .warp _ _ _ core => s.modCore core fun c => { c with cnt := c.cnt.sent p n }
    | .engine _ core => s.modCore core fun c => { c with cnt := c.cnt.sent p n }
    | .spire sp => s.modSpire sp fun c => { c with cnt := c.cnt.sent p n }

/-! ### Send queues (R389) -/

/-- The package that takes a message: of its address, or of the tag that an acknowledgement names. -/
def msgPkg (m : List Byte) : Nat := if msgIdx m = ixAck then fld m 20 8 / 2 ^ 58 else paPkg (msgPa m)

/-- The die that takes a message (R367). -/
def msgDie (m : List Byte) : Nat := 4 * msgPkg m + msgDesc m / 2 ^ 23 % 4

/-- The bytes that a send queue holds. -/
def SendQ.size (q : SendQ) : Nat := (q.msgs.map List.length).sum - q.off

def SendQ.push (q : SendQ) (m : List Byte) : SendQ := { q with msgs := q.msgs ++ [m] }

def SendQ.empty : SendQ := ⟨[], 0, 95⟩

def State.queue (s : State) (src dst : Nat) : SendQ := lookD (s.pkg src).queues dst SendQ.empty

/-- Whether a message of n bytes finds room on its way from a package (R389). -/
def State.mayLeave (s : State) (src dst n : Nat) : Bool := src == dst || decide ((s.queue src dst).size + n ≤ 262144)

/-- A message reaches its die: acknowledgements and replies to reply buffers at the die, the rest at the home spire base. -/
def State.deliver (s : State) (m : List Byte) : State :=
  if msgIdx m = ixAck then s.modDie (msgDie m) fun d => { d with acks := d.acks ++ [m] }
  else if isReplyPa (msgPa m) then s.modDie (msgDie m) fun d => { d with replies := d.replies ++ [m] }
  else s.modSpire (paSpire (msgPa m)) fun p => { p with inbox := p.inbox ++ [m] }

/-- A message departs: within its package at once, else into the send queue. -/
def State.depart (s : State) (src : Nat) (m : List Byte) : State :=
  if msgPkg m = src then s.deliver m
  else s.modPkg src fun p => { p with queues := ins p.queues (msgPkg m) ((lookD p.queues (msgPkg m) SendQ.empty).push m) }

/-- An operation departs: its message, and the instant, which counts from a lane when it leaves the package (R389). -/
def State.departOp (s : State) (agent dst seq : Nat) (m : List Byte) : State :=
  let here := msgPkg m == agent / 16
  (s.depart (agent / 16) m).modStream agent dst fun st =>
    { st with ops := st.ops.map fun o => if o.seq = seq then { o with left := if here then some s.time else none } else o }

/-- A departure through a lane, seen in the stream: the message has left the package (R364, R389). -/
def State.left (s : State) (m : List Byte) : State :=
  if msgIdx m = ixAck then s
  else s.modStream (msgTag m / 2 ^ 54) (streamOf (msgPa m)) fun st =>
    { st with ops := st.ops.map fun o => if o.seq = msgTag m % 2 ^ 54 then { o with left := some s.time } else o }

/-! ### Entering streams (R364, R411, R412) -/

/-- The bytes of the message that an operation becomes. -/
def Send.bytes (x : Send) : Nat := (20 + x.payload.length + 4 + 3) / 4 * 4

/-- The descriptor of an operation but for its length (R367). -/
def Send.desc (x : Send) : Nat :=
  x.idx + x.ty * 2 ^ 6 + x.fmt * 2 ^ 10 + (if x.line then 2 ^ 15 else 0) + (if x.init then 2 ^ 16 else 0) +
    (if x.parity = some true then 2 ^ 22 else 0) + paDie x.pa % 4 * 2 ^ 23

/-- Whether an agent's operations find room, in their streams and, unless they wait in the stream, in the send queues. -/
def State.roomFor (s : State) (agent : Nat) (queue : Bool) (xs : List Send) : Bool :=
  (xs.all fun x => decide ((s.stream agent (streamOf x.pa)).ops.length +
    (xs.filter fun y => streamOf y.pa == streamOf x.pa).length ≤ 4096)) &&
  (!queue || xs.all fun x => s.mayLeave (agent / 16) (paPkg x.pa)
    ((xs.filter fun y => paPkg y.pa == paPkg x.pa).map Send.bytes).sum)

/-- An operation enters its stream: numbered, tagged, counted, and sent unless it is held; its stream and number. -/
def State.enter (s : State) (agent : Nat) (who : Issuer) (held : Bool) (owes : Option Send) (x : Send) : (Nat × Nat) × State :=
  let dst := streamOf x.pa
  let st := s.stream agent dst
  let m := message (agent * 2 ^ 54 + st.next) x.pa x.desc x.payload
  let s := s.setStream agent dst { st with next := (st.next + 1) % 2 ^ 54, ops := st.ops ++ [⟨st.next, m, none, 0, who, x.parity, owes, x.rest⟩] }
  let s := s.countSent who x.parity 1
  ((dst, st.next), if held then s else s.departOp agent dst st.next m)

/-- Operations enter their streams in order. -/
def State.enterAll (s : State) (agent : Nat) (who : Issuer) (held : Bool) (xs : List Send) : List (Nat × Nat) × State :=
  xs.foldl (fun r x =>
    let (k, s) := r.2.enter agent who held none x
    (r.1 ++ [k], s)) ([], s)

/-- A spire base sends, or keeps what it owes until there is room. -/
def State.spireSend (s : State) (sp : Nat) (owes : Option Send) (x : Send) : State :=
  if s.roomFor (spireAgent sp) true [x] && (s.spire sp).owed.isEmpty then (s.enter (spireAgent sp) (.spire sp) false owes x).2
  else s.modSpire sp fun p => { p with owed := p.owed ++ [(x, owes)] }

/-! ### Deferred causes (R370, R454) -/

/-- A deferred cause as 24 bytes of a save image's queue: cause, tag, address (R447, L22). -/
def Deferred.bytes (d : Deferred) : List Byte := bytesOfNat 8 d.cause.toNat ++ bytesOfNat 8 d.tag.toNat ++ bytesOfNat 8 d.pa

/-- A deferred cause reaches its warp, resident or saved, in its image too (R449); for one that has exited it marks the kernel (R370). -/
def State.defer (s : State) (wid warp : Nat) (d : Deferred) : State :=
  match s.warp? wid warp with
  | none => s
  | some w =>
    if w.live = 0 then
      { s.modWg wid fun g => { g with faulted := true } with kernels := upd s.kernels (wid / 2 ^ 48) fun k => { k with faulted := true } }
    else
      let s1 := match look s.wgs wid with
        | some g =>
          match s.section g 1 with
          | some at_ =>
            if w.dfr.length ≥ 16 then s else s.gwrite none false (at_ + 4096 * warp + 2624 + 24 * w.dfr.length) d.bytes
          | none => s
        | none => s
      s1.modWarp wid warp fun w =>
        if w.dfr.length ≥ 16 then { w with lost := min (w.lost + 1) 255 } else { w with dfr := w.dfr ++ [d] }

/-- The deferred cause of an operation. -/
def OutOp.deferred (o : OutOp) (c : BitVec 7) : Deferred := ⟨c, BitVec.ofNat 64 (msgTag o.msg), msgPa o.msg⟩

/-- A cause for the warp that issued an operation. -/
def State.deferFor (s : State) (o : OutOp) (c : BitVec 7) : State :=
  match o.who with
  | .warp wid warp _ _ => s.defer wid warp (o.deferred c)
  | _ => s

/-! ### De-duplication (R365) -/

/-- What a window says of a sequence number. -/
inductive Seen
  | again | fresh (d : Nat) | beyond
  deriving DecidableEq, Repr, Inhabited

def Window.judge (w : Window) (seq : Nat) : Seen :=
  let d := (seq + 2 ^ 54 - w.base) % 2 ^ 54
  if decide (d ≥ 2 ^ 53) || (decide (d < 4096) && w.bits.getLsbD d) then .again
  else if d < 4096 then .fresh d
  else .beyond

/-- Whether the home of a stream has taken an operation of it, applied or refused. -/
def State.took (s : State) (agent dst seq : Nat) : Bool :=
  (lookD (if dst < 512 then (s.spire dst).wins else (s.die (dst - 512)).wins) agent ⟨0, 0⟩).judge seq == .again

/-! ### Reply lines (R224, R238) -/

/-- The core and line of a reply buffer's address (L17). -/
def replyCore (pa : Nat) : Nat := 192 * paDie pa + pa / 2 ^ 17 % 256
def replyLine (pa : Nat) : Nat := pa / 2 ^ 7 % 1024

/-- Whether a line's row is still waited for. -/
def State.rowWanted (s : State) (r : ReplyLine) : Bool :=
  match look s.wgs r.wid with
  | some g =>
    match look g.cmds r.cmd with
    | some c => (look c.far r.row).isSome
    | none => false
  | none => false

/-- Nothing more comes to a line: it is free, unless its row is still waited for (R224). -/
def State.replyDone (s : State) (core line : Nat) : State :=
  match look (s.core core).reply line with
  | none => s
  | some r =>
    let wanted := s.rowWanted r
    s.modCore core fun c => { c with reply := if wanted then ins c.reply line { r with done := true } else del c.reply line }

/-- The address of the reply line that an operation's arrival comes to: a row's read request, or the arrival itself. -/
def OutOp.replyAt (o : OutOp) : Option Nat :=
  let pa := if msgIdx o.msg = 7 then fld o.msg 28 8 else msgPa o.msg
  if msgIdx o.msg != ixReply && isReplyPa pa then some pa else none

/-- An operation is given up: no copy of it is applied from now on (R368). A read request or an arrival that its home has not taken
brings nothing to its reply line any more. -/
def State.giveUp (s : State) (agent dst : Nat) (o : OutOp) : State :=
  let s := s.modStream agent dst fun st => { st with gone := o.seq :: st.gone }
  match o.replyAt with
  | some pa => if s.took agent dst o.seq then s else s.replyDone (replyCore pa) (replyLine pa)
  | none => s

/-! ### Acknowledgements (R368, R369, R383) -/

/-- The arrival that a reply owes, with its amount. -/
def owedArrival (x : Send) (fault : Bool) : Send := { x with payload := bytesOfNat 8 (if fault then 0x100000001 else 1) }

/-- An operation is released; a reply's arrival follows (R376, R383). -/
def State.release (s : State) (agent dst : Nat) (o : OutOp) (fault : Bool) : State :=
  let s := s.modStream agent dst fun st => { st with ops := st.ops.filter fun p => p.seq != o.seq }
  match o.owes, o.who with
  | some x, .spire sp => s.spireSend sp none (owedArrival x fault)
  | _, _ => s

/-- An acknowledgement with a status reaches the source (R368, R369). -/
def State.acked (s : State) (agent dst seq status : Nat) : State :=
  match (s.stream agent dst).ops.find? fun o => o.seq == seq with
  | none => s
  | some o =>
    if status = 5 then
      if o.checks ≥ 2 then
        let s := (s.countSent o.who o.parity (-1)).deferFor o cCHECK_FAIL
        let s := match o.who with
          | .spire sp => s.modSpire sp fun p => { p with errs := p.errs + 1 }
          | _ => s
        (s.giveUp agent dst o).release agent dst o true
      else
        let s := s.modStream agent dst fun st =>
          { st with ops := st.ops.map fun p => if p.seq = seq then { p with checks := p.checks + 1 } else p }
        if o.left.isSome && s.mayLeave (agent / 16) (msgPkg o.msg) o.msg.length then s.departOp agent dst seq o.msg else s
    else if status = 3 then (s.deferFor o cPAGE_CLASS).release agent dst o true
    else if status = 4 then (s.deferFor o cMEM_UNCORR).release agent dst o true
    else s.release agent dst o false

/-- An acknowledgement group of one entry (R395). -/
def ackMessage (tag status : Nat) : List Byte :=
  message 0 0 (ixAck + tag / 2 ^ 56 % 4 * 2 ^ 23) (bytesOfNat 8 tag ++ bytesOfNat 1 status ++ zeros 3)

/-- Whether an acknowledgement may leave a package for its source. -/
def State.mayAck (s : State) (src tag : Nat) : Bool := s.mayLeave src (tag / 2 ^ 58) 36

/-- A home acknowledges an operation; the source's die is to find the stream, whose destination the entry does not name (L18). -/
def State.ack (s : State) (src tag dst status : Nat) : State :=
  (s.modDie (tag / 2 ^ 56) fun d => { d with ackOf := d.ackOf ++ [(tag, status, dst)] }).depart src (ackMessage tag status)

/-- The entry of a group with a tag and a status at the source's die: the first stream that an acknowledgement on its way names
and that still holds the operation (L18). -/
def State.ackEntry (s : State) (die tag status : Nat) : State :=
  let agent := tag / 2 ^ 54
  let seq := tag % 2 ^ 54
  match (s.die die).ackOf.find? fun r =>
      r.1 == tag && r.2.1 == status && (s.stream agent r.2.2).ops.any fun o => o.seq == seq with
  | some r => (s.modDie die fun d => { d with ackOf := d.ackOf.erase r }).acked agent r.2.2 seq status
  | none => s

/-- ACK_GROUP_RECEIVED (R395): a group whose check fails is discarded. -/
def execAckGroupReceived (die k noise : Nat) (s : State) : Host.Outcome State Fault Refusal :=
  let q := (s.die die).acks
  match q[k]? with
  | none => .next s
  | some m0 =>
    let m := noised m0 noise
    let s := s.modDie die fun d => { d with acks := q.eraseIdx k }
    if !msgOk m then .next s
    else .next ((List.range ((m.length - 24) / 12)).foldl (fun s i =>
      s.ackEntry die (fld m (20 + 12 * i) 8) (fld m (28 + 12 * i) 1)) s)

/-- RETRANSMIT (R364): 4 us after the last departure, on any path, unless the message is still in a send queue. -/
def execRetransmit (src dst seq : Nat) (s : State) : Host.Outcome State Fault Refusal :=
  match (s.stream src dst).ops.find? fun o => o.seq == seq with
  | none => .next s
  | some o =>
    match o.left with
    | none => .next s
    | some t =>
      .next (if decide (t + 4000 ≤ s.time) && s.mayLeave (src / 16) (msgPkg o.msg) o.msg.length then s.departOp src dst seq o.msg else s)

/-! ### What a warp sends (R364, R376, R378) -/

/-- The issuer of a warp's operations. -/
def Ix.issuer (x : Ix) : Issuer := .warp x.c.wid x.c.warp x.w.rseq x.g.core

/-- The instruction's operations are in their streams; those of an `RARV` stay there until R376 lets them leave. -/
def Ix.sent (x : Ix) (xs : List Send) (arrival : Bool) : State :=
  let die := dieOf x.g.core
  let (ks, s) := x.s.enterAll (coresAgent die) x.issuer arrival xs
  let s := x.inWarp s fun w => { w with rseq := w.rseq + 1 }
  if arrival then s.modDie die fun d =>
    { d with arrivals := d.arrivals ++ [⟨x.c.wid, x.c.warp, x.w.rseq, x.s.time, false, ks⟩] }
  else s

/-- Whether the instruction's operations find room. -/
def Ix.mayEnter (x : Ix) (xs : List Send) (arrival : Bool) : Bool := x.s.roomFor (coresAgent (dieOf x.g.core)) (!arrival) xs

end Sys2Proof.Machine
end

