-- ==== Sys2Proof/Machine/SpireEv.lean ====
section
/-! DEFINITION. The spire base (15 R361-R375, R379-R383): what it does with each remote operation that reaches it, and replies
at a core's reply buffer. -/

namespace Sys2Proof.Machine

/-! ### De-duplication (R365) -/

/-- Shift the window down past applied numbers. -/
def Window.shift : Nat → Window → Window
  | 0, w => w
  | k + 1, w => if w.bits.getLsbD 0 then Window.shift k ⟨(w.base + 1) % 2 ^ 54, w.bits >>> 1⟩ else w

def Window.mark (w : Window) (d : Nat) : Window :=
  Window.shift 4096 ⟨w.base, w.bits ||| BitVec.ofNat 4096 (2 ^ d)⟩

/-! ### Taking a message (R361, R368, R369) -/

/-- The parity of superstep traffic: bit 22 of its descriptor. That a message whose bit is 0 is superstep traffic at all is
known with its source's stream, where it is unacknowledged (R411, R412, L68). -/
def State.parityOf (s : State) (dst : Nat) (m : List Byte) : Option Bool :=
  if msgDesc m / 2 ^ 22 % 2 = 1 then some true
  else if (s.stream (msgTag m / 2 ^ 54) dst).ops.any (fun o => o.seq == msgTag m % 2 ^ 54 && o.parity.isSome) then some false
  else none

/-- Whether a message is a copy of an operation that its source has given up: it is never applied (R368). -/
def State.givenUp (s : State) (dst : Nat) (m : List Byte) : Bool := (s.stream (msgTag m / 2 ^ 54) dst).gone.contains (msgTag m % 2 ^ 54)

/-- The bytes that a read request asks for (R383). -/
def reqBytes (m : List Byte) : Nat := if fld m 36 1 / 16 % 2 = 1 then 4 else 8 * (fld m 36 1 % 16)

/-- The bytes that an operation touches at its home, for poison (R360, R374). -/
def msgTouches (m : List Byte) : List (Nat × Nat) :=
  let pa := msgPa m
  let d := msgDesc m
  let i := msgIdx m
  if i = 1 then [(pa, lineSize (d / 2 ^ 15 % 2 == 1))]
  else if i = 5 then (if pa % 128 = 0 then [] else [(pa / 128 * 128, 8), (pa, 8)])
  else if i = 7 then [(pa, reqBytes m)]
  else if i = ixReply then [(pa / 128 * 128, 8), (pa, (m.length - 24) / 8 * 8)]
  else if i = 6 then [(pa, 8)]
  else [(pa, if d / 2 ^ 6 % 16 < 2 then 4 else 8)]

/-- Where the source words of a read request lie: the run, or its parts in two pages when the first page's end parts them (R383,
L54); nothing when they cross and the source has given the operation up. -/
def State.reqParts (s : State) (dst : Nat) (m : List Byte) : List (Nat × Nat) :=
  let pa := msgPa m
  let n := reqBytes m
  if pa / 65536 = (pa + n - 1) / 65536 then [(pa, n)]
  else
    match (s.stream (msgTag m / 2 ^ 54) dst).ops.find? fun o => o.seq == msgTag m % 2 ^ 54 with
    | some o =>
      (match o.rest with
        | some r => [(pa, 65536 - pa % 65536), (r, n - (65536 - pa % 65536))]
        | none => [(pa, n)])
    | none => []

/-- What an operation touches: its home's bytes, for a read request both parts of its run. -/
def State.touches (s : State) (dst : Nat) (m : List Byte) : List (Nat × Nat) :=
  if msgIdx m = 7 then s.reqParts dst m else msgTouches m

/-- Whether a home refuses an operation: 3 for bias, 4 for poison (R361, R369, R383). -/
def State.refusal (s : State) (dst : Nat) (m : List Byte) : Option Nat :=
  if s.hostBiased (msgPa m) || (msgIdx m == 7 && ((s.reqParts dst m).isEmpty ||
      (s.reqParts dst m).any fun r => s.hostBiased r.1 || s.hostBiased (r.1 + r.2 - 1))) then some 3
  else if (s.touches dst m).any fun r => s.poisoned r.1 r.2 then some 4
  else none

/-- Whether a page that an operation touches is in flip: it waits (R361). -/
def State.flipping (s : State) (dst : Nat) (m : List Byte) : Bool :=
  s.inFlip (msgPa m) || (msgIdx m == 7 && (s.reqParts dst m).any fun r => s.inFlip r.1 || s.inFlip (r.1 + r.2 - 1))

/-- A spire base takes the k-th message that has reached it, if it is of a kind. One that finds its page in flip waits, and one
whose acknowledgement finds no room. `apply` makes the operation's change and gives its status. -/
def State.takeAt (s : State) (sp k noise : Nat) (kind : List Byte → Bool)
    (apply : State → List Byte → Option Bool → Nat × State) : Host.Outcome State Fault Refusal :=
  match (s.spire sp).inbox[k]? with
  | none => .next s
  | some m0 =>
    let pkg := sp / 8
    if !kind m0 || s.flipping sp m0 || !s.mayAck pkg (msgTag m0) then .next s
    else
      let m := noised m0 noise
      let s1 := s.modSpire sp fun p => { p with inbox := p.inbox.eraseIdx k }
      if !msgOk m then .next (s1.ack pkg (msgTag m0) sp 5)
      else
        let src := msgTag m / 2 ^ 54
        let w := lookD (s1.spire sp).wins src ⟨0, 0⟩
        match w.judge (msgTag m % 2 ^ 54) with
        | .again => .next (s1.ack pkg (msgTag m) sp 1)
        | .beyond => .next s1
        | .fresh d =>
          if s1.givenUp sp m then .next s1
          else
          let parity := s1.parityOf sp m
          let r := match s1.refusal sp m with
            | some c => (c, s1)
            | none => apply s1 m parity
          let s2 := r.2.modSpire sp fun p => { p with
            wins := ins p.wins src (w.mark d)
            late := p.late + (if r.1 = 2 then 1 else 0)
            errs := p.errs + (if msgIdx m = ixReply && r.1 ≥ 3 then 1 else 0)
            cnt := match parity with
              | some b => p.cnt.applied b
              | none => p.cnt }
          .next (s2.ack pkg (msgTag m) sp r.1)

/-- An applied write at the home: copies in domes and stash lines are recalled (R192, R361). -/
def State.homeWrite (s : State) (pa : Nat) (bs : List Byte) : State := (s.recall none false pa bs.length).gwrite none false pa bs

/-- A message of one index and, for `RFXA`, with or without the initialisation bit. -/
def isIdx (i : Nat) (m : List Byte) : Bool := msgIdx m == i

/-! ### Commutative updates (R379) -/

/-- The new value of a remote update of w bits. -/
def rmtNew (idx : Nat) (signed : Bool) (w old v : Nat) : Nat :=
  if idx = 2 then atomNew .min signed w old v 0
  else if idx = 3 then atomNew .max signed w old v 0
  else if idx = 4 then atomNew .or signed w old v 0
  else atomNew .add signed w old v 0

/-- A remote update at its home. -/
def State.applyUpdate (s : State) (m : List Byte) : State :=
  let ty := msgDesc m / 2 ^ 6 % 16
  let n := if ty < 2 then 4 else 8
  let old := natOfBytes (s.gread false (msgPa m) n)
  s.homeWrite (msgPa m) (bytesOfNat n (rmtNew (msgIdx m) (ty % 2 == 0) (8 * n) old (fld m 20 8 % 2 ^ (8 * n))))

def execApplyRadd (sp k noise : Nat) (s : State) : Host.Outcome State Fault Refusal :=
  s.takeAt sp k noise (isIdx 0) fun s m _ => (0, s.applyUpdate m)

def execApplyRmin (sp k noise : Nat) (s : State) : Host.Outcome State Fault Refusal :=
  s.takeAt sp k noise (isIdx 2) fun s m _ => (0, s.applyUpdate m)

def execApplyRmax (sp k noise : Nat) (s : State) : Host.Outcome State Fault Refusal :=
  s.takeAt sp k noise (isIdx 3) fun s m _ => (0, s.applyUpdate m)

def execApplyRor (sp k noise : Nat) (s : State) : Host.Outcome State Fault Refusal :=
  s.takeAt sp k noise (isIdx 4) fun s m _ => (0, s.applyUpdate m)

/-! ### Accumulator lines (R44, R372, R380) -/

/-- The line form and the line that an `RFXA` names. -/
def State.lineAt (s : State) (m : List Byte) : Bool × Line :=
  let full := msgDesc m / 2 ^ 15 % 2 == 1
  (full, Line.ofBytes full (s.gread false (msgPa m) (lineSize full)))

/-- The number that a contribution carries, in its type (R380). -/
def contribution (m : List Byte) : Num :=
  let ty := (Ty.ofBits (BitVec.ofNat 4 (msgDesc m / 2 ^ 6))).getD .f32
  engineNum ty (BitVec.ofNat 5 (msgDesc m / 2 ^ 10)) (fld m 20 8 % 2 ^ ty.ew)

def execApplyContribution (sp k noise : Nat) (s : State) : Host.Outcome State Fault Refusal :=
  s.takeAt sp k noise (fun m => isIdx 1 m && msgDesc m / 2 ^ 16 % 2 == 0) fun s m _ =>
    let (full, l) := s.lineAt m
    if l.gen = fld m 28 1 then (0, s.homeWrite (msgPa m) ((l.add full (contribution m)).bytes full)) else (2, s)

def execApplyLineInit (sp k noise : Nat) (s : State) : Host.Outcome State Fault Refusal :=
  s.takeAt sp k noise (fun m => isIdx 1 m && msgDesc m / 2 ^ 16 % 2 == 1) fun s m _ =>
    let (full, l) := s.lineAt m
    (0, s.homeWrite (msgPa m) ((l.init full (fld m 28 1) (asSigned 12 (fld m 28 4 / 2 ^ 16 % 4096))).bytes full))

/-! ### Write-once lines (R374, R381) -/

/-- A write of a value to a word of a write-once line; `conflict` is the mark of R381. -/
def State.writeWord (s : State) (pa v : Nat) (conflict : Bool) : State :=
  let line := pa / 128 * 128
  let i := pa % 128 / 8 - 1
  let h := natOfBytes (s.gread false line 8)
  let done := h.testBit i
  let h' := (h ||| 2 ^ i) ||| (if done || conflict then 2 ^ (15 + i) else 0)
  let s := s.homeWrite line (bytesOfNat 8 h')
  if done then s else s.homeWrite pa (bytesOfNat 8 v)

def execApplyWriteOnce (sp k noise : Nat) (s : State) : Host.Outcome State Fault Refusal :=
  s.takeAt sp k noise (isIdx 5) fun s m _ =>
    if msgPa m % 128 = 0 then (0, s.homeWrite (msgPa m) (zeros 128))
    else (0, s.writeWord (msgPa m) (fld m 20 8) (msgDesc m / 2 ^ 15 % 2 == 1))

/-- APPLY_REPLY (R383): the reply's words in one operation. -/
def execApplyReply (sp k noise : Nat) (s : State) : Host.Outcome State Fault Refusal :=
  s.takeAt sp k noise (isIdx ixReply) fun s m _ =>
    (0, (List.range ((m.length - 24) / 8)).foldl (fun s j => s.writeWord (msgPa m + 8 * j) (fld m (20 + 8 * j) 8) false) s)

/-! ### Counted arrivals and read requests (R375, R383) -/

def execApplyArrival (sp k noise : Nat) (s : State) : Host.Outcome State Fault Refusal :=
  s.takeAt sp k noise (isIdx 6) fun s m _ =>
    (0, s.homeWrite (msgPa m) (bytesOfNat 8 ((natOfBytes (s.gread false (msgPa m) 8) + fld m 20 8) % 2 ^ 64)))

/-- The arrival that follows a read request, with its amount. -/
def requestArrival (m : List Byte) (parity : Option Bool) (fault : Bool) : Send :=
  owedArrival ⟨fld m 28 8, 6, 3, 0, false, false, parity, [], none⟩ fault

/-- SERVE_READ_REQUEST (R383): the words read at one instant go back as one operation, or the arrival tells that they do not. -/
def execServeReadRequest (sp k noise : Nat) (s : State) : Host.Outcome State Fault Refusal :=
  match (s.spire sp).inbox[k]? with
  | none => .next s
  | some m0 =>
    let refused := s.refusal sp m0
    let parity := s.parityOf sp m0
    let fresh := isIdx 7 m0 && msgOk (noised m0 noise) && refused.isSome && !s.flipping sp m0 && s.mayAck (sp / 8) (msgTag m0) &&
      !s.givenUp sp m0 && match (lookD (s.spire sp).wins (msgTag m0 / 2 ^ 54) ⟨0, 0⟩).judge (msgTag m0 % 2 ^ 54) with
      | .fresh _ => true
      | _ => false
    let r := s.takeAt sp k noise (isIdx 7) fun s m p =>
      let ps := s.reqParts sp m
      let s := ps.foldl (fun s r => s.recall none false r.1 r.2) s
      let words := padTo 8 (ps.map fun r => s.gread false r.1 r.2).flatten
      (0, s.spireSend sp (some (requestArrival m p false)) ⟨fld m 20 8, ixReply, 3, 0, false, false, p, words, none⟩)
    match r with
    | .next t => .next (if fresh then t.spireSend sp none (requestArrival m0 parity true) else t)
    | r => r

/-! ### The reply buffers (R224, R238, R412) -/

/-- The address of a reply buffer's line (L17). -/
def replyPa (core line : Nat) : Nat := dieOf core * 2 ^ 44 + 2 ^ 43 + core % 192 * 2 ^ 17 + line * 2 ^ 7

/-- The reply lines of a workgroup's rows, on its core and on those that it was on before (R447). -/
def State.replyLines (s : State) (wid : Nat) : List Nat :=
  (s.cores.map fun c => (c.2.reply.filter fun p => p.2.wid == wid).map fun p => 1024 * c.1 + p.1).flatten

/-- A reply for a saved workgroup's row stands in its image too, where the save placed its line (R448). -/
def State.replyImage (s : State) (core line wid : Nat) (words : List Byte) : State :=
  match look s.wgs wid with
  | some g =>
    match g.image, s.section g 9 with
    | some m, some at_ =>
      if m.lines.contains (1024 * core + line) then s.gwrite none false (at_ + 128 * m.lines.idxOf (1024 * core + line)) words else s
    | _, _ => s
  | none => s

/-- A reply in its line, kept while its row is waited for, else discarded (R224). -/
def State.replyPut (s : State) (core line : Nat) (words : List Byte) : State :=
  match look (s.core core).reply line with
  | none => s
  | some r =>
    if s.rowWanted r then (s.replyImage core line r.wid words).modCore core fun c =>
      { c with reply := ins c.reply line { r with words := some words } }
    else s

/-- REPLY_BUFFER_WRITE (R238): a reply, or the arrival after it, reaches a reply buffer; each is counted. After the arrival nothing
more comes to the line. -/
def execReplyBufferWrite (die k noise : Nat) (s : State) : Host.Outcome State Fault Refusal :=
  match (s.die die).replies[k]? with
  | none => .next s
  | some m0 =>
    let pkg := pkgOfDie die
    let dst := 512 + die
    if !s.mayAck pkg (msgTag m0) then .next s
    else
      let m := noised m0 noise
      let s1 := s.modDie die fun d => { d with replies := d.replies.eraseIdx k }
      if !msgOk m then .next (s1.ack pkg (msgTag m0) dst 5)
      else
        let src := msgTag m / 2 ^ 54
        let w := lookD (s1.die die).wins src ⟨0, 0⟩
        match w.judge (msgTag m % 2 ^ 54) with
        | .again => .next (s1.ack pkg (msgTag m) dst 1)
        | .beyond => .next s1
        | .fresh d =>
          if s1.givenUp dst m then .next s1
          else
          let core := replyCore (msgPa m)
          let line := replyLine (msgPa m)
          let s2 := s1.modDie die fun x => { x with wins := ins x.wins src (w.mark d) }
          let s2 := match s1.parityOf dst m with
            | some b => s2.modCore core fun c => { c with cnt := c.cnt.applied b }
            | none => s2
          let s3 := if msgIdx m = ixReply then s2.replyPut core line ((m.drop 20).take (m.length - 24)) else s2.replyDone core line
          .next (s3.ack pkg (msgTag m) dst 0)

end Sys2Proof.Machine
end

