-- ==== Sys2Proof/Machine/CopyEv.lean ====
section
/-! DEFINITION. The copy engine at work (09 R221-R224, R237, R238; 18 R448, R450): commands start, their pieces and rows land
or are missing, they complete. -/

namespace Sys2Proof.Machine

/-- Change a command. -/
def State.modCmd (s : State) (wid n : Nat) (f : Cmd → Cmd) : State :=
  s.modWg wid fun g => { g with cmds := upd g.cmds n f }

/-- Whether engines of a workgroup work: not while it is saved. -/
def Wg.engaged (g : Wg) : Bool := !g.off

/-- The pieces of a copy: runs of the destination within multiples of 128 (R222). -/
def copyPieces (dst len : Nat) : List Nat := if len = 0 then [] else List.range ((dst + len - 1) / 128 - dst / 128 + 1)

/-- Piece q of a copy: its offset and length. -/
def copyPiece (dst len q : Nat) : Nat × Nat :=
  let lo := if q = 0 then dst else (dst / 128 + q) * 128
  (lo - dst, min (dst + len) ((dst / 128 + q + 1) * 128) - lo)

/-- A command as it starts: its work listed, the index list read (R238). -/
def State.begun (s : State) (wid : Nat) (c : Cmd) : Cmd :=
  match c.job with
  | .copy _ dst _ len => { c with running := true, todo := copyPieces dst len }
  | .rows g k l loc t idx at_ n =>
    let idx' := if l then (List.range n).map fun i =>
        let w := natOfBytes ((s.areaRead wid (laddr32 at_ ((4 + 4 * i : Nat) : Int)) 4).getD (zeros 4))
        if w = 0xFFFFFFFF then none else some w
      else idx
    let todo := (List.range idx'.length).filter fun i => (idx'.getD i none).isSome
    { c with running := true, job := .rows g k l loc t idx' at_ n, todo := todo, cause := if l && n == 0 then some cCOPY_FAULT else c.cause }

/-- COMMAND_START (R221): the oldest command of the core that is not held; none of a workgroup that is being stopped (R444). -/
def execCommandStart (core : Nat) (s : State) : Host.Outcome State Fault Refusal :=
  let cs := (s.wgs.map fun p => if p.2.core == core && p.2.engaged && (p.2.stopAt.isNone || p.2.pptHeld (s.clocksAt core)) then
    ((vals p.2.cmds).filter fun c => !c.running && c.on.isNone).map fun c => (p.1, c) else []).flatten
  match sortOn (fun p => p.2.seq) cs with
  | (wid, c) :: _ => .next (s.modCmd wid c.seq fun _ => s.begun wid c)
  | [] => .next s

/-- The smaller of the causes a command has met. -/
def Cmd.blame (c : Cmd) (cause : BitVec 7) : Cmd :=
  { c with cause := some (match c.cause with
      | some d => if d ≤ cause then d else cause
      | none => cause) }

/-- A piece or row is missing: its bytes, and a row if rows are counted (R223). -/
def Cmd.miss (c : Cmd) (cause : BitVec 7) (rows bytes : Nat) : Cmd :=
  { c.blame cause with missing := c.missing + bytes, missRows := c.missRows + rows }

/-- A command of a workgroup that works. -/
def State.cmd? (s : State) (wid n : Nat) : Option (Wg × Cmd × Kernel) :=
  match look s.wgs wid with
  | some g =>
    match look g.cmds n, look s.kernels g.inst with
    | some c, some k => if g.engaged then some (g, c, k) else none
    | _, _ => none
  | none => none

/-- What a command reads: global bytes, or local ones, gone ones being missing with COPY_FAULT (L15). -/
def State.cmdRead (s : State) (g : Wg) (ctx wid : Nat) (global : Bool) (a n : Nat) : Bytes × State :=
  if global then s.engRead g.core ctx a n
  else
    match s.areaRead wid a n with
    | some bs => (.ok bs, s)
    | none => (.bad cCOPY_FAULT, s)

/-- Whether a command may write. -/
def State.cmdMayWrite (s : State) (g : Wg) (ctx wid : Nat) (global : Bool) (a n : Nat) : Bytes × State :=
  if global then s.engMayWrite g.core ctx a n else (if s.areaThere wid a then .ok [] else .bad cCOPY_FAULT, s)

def State.cmdWrite (s : State) (g : Wg) (ctx wid : Nat) (global : Bool) (a : Nat) (bs : List Byte) : State :=
  if global then s.engWrite g.core ctx a bs else s.areaPut none wid a bs

/-- One unit of a command's work: moved and counted on the barrier, or missing; none while a page is in flip. -/
def State.moveUnit (s : State) (g : Wg) (k : Kernel) (wid : Nat) (c : Cmd) (rows u : Nat) (gsrc gdst : Bool) (src dst n : Nat) : State :=
  let done (c : Cmd) : Cmd := { c with todo := c.todo.filter fun v => v != u }
  let (r, s1) := s.cmdRead g k.ctx wid gsrc src n
  let (w, s2) := s1.cmdMayWrite g k.ctx wid gdst dst n
  match r, w with
  | .wait, _ => s1
  | _, .wait => s2
  | .bad a, .bad b => s2.modCmd wid c.seq fun c => done (c.miss (if a ≤ b then a else b) rows n)
  | .bad a, _ => s2.modCmd wid c.seq fun c => done (c.miss a rows n)
  | _, .bad b => s2.modCmd wid c.seq fun c => done (c.miss b rows n)
  | .ok bs, .ok _ =>
    ((s2.cmdWrite g k.ctx wid gdst dst bs).modCmd wid c.seq done).barArrive c.bar.1 c.bar.2 rows n

/-- PIECE_LANDED (R222, R237). -/
def execPieceLanded (wid cmd piece : Nat) (s : State) : Host.Outcome State Fault Refusal :=
  match s.cmd? wid cmd with
  | some (g, c, k) =>
    match c.job with
    | .copy dir dst src len =>
      if c.running && c.todo.contains piece then
        let (o, n) := copyPiece dst len piece
        .next (s.moveUnit g k wid c 0 piece (dir == .g2l || dir == .g2g) (dir == .l2g || dir == .g2g) (src + o) (dst + o) n)
      else .next s
    | _ => .next s
  | none => .next s

/-! ### Rows (R238) -/

/-- What the pages of a row's span say: all on the own die, or homes elsewhere (their runs), or a cause. -/
inductive RowHome
  | here | away (runs : List (Nat × Nat)) | bad (cause : BitVec 7)
  deriving DecidableEq, Repr, Inhabited

/-- What the pages of a row's span have shown so far: the smallest cause, the runs homed in the pod, whether one of them is on
another die, whether one page is the host's. -/
structure Span where
  bad : Option (BitVec 7)
  runs : List (Nat × Nat)
  away : Bool
  host : Bool
  deriving DecidableEq, Repr, Inhabited

/-- One page of a span. -/
def State.spanPage (s : State) (core n : Nat) (sp : Span) (va : Nat) : Tr → Span
  | .page p =>
    let pa := p.pa va
    if p.hmem then { sp with host := true }
    else if s.reachable pa then { sp with runs := sp.runs ++ [(pa, n)], away := sp.away || paDie pa != dieOf core }
    else { sp with bad := lessBad sp.bad cREMOTE_UNREACH }
  | .poison => { sp with bad := lessBad sp.bad cMEM_UNCORR }
  | _ => { sp with bad := lessBad sp.bad cPAGE_ABSENT }
where
  lessBad : Option (BitVec 7) → BitVec 7 → Option (BitVec 7)
    | some c, d => some (if c ≤ d then c else d)
    | none, d => some d

/-- Where a gather's row lies (R238): on the core's own die, or in the host's memory, it is read as a plain access; `runs` are
the physical addresses and bytes of the 8-aligned span of one that is homed elsewhere, which only device pages may be (R383). -/
def State.rowHome (s : State) (core ctx va n : Nat) : RowHome × State :=
  let (sp, s) := (segs (spanOf va n).1 (spanOf va n).2).foldl (fun (r : Span × State) g =>
    let (t, s) := r.2.engXlate core ctx g.2.1
    (s.spanPage core g.2.2 r.1 g.2.1 t, s)) (⟨none, [], false, false⟩, s)
  match sp.bad with
  | some c => (.bad c, s)
  | none => (if !sp.away then .here else if sp.host then .bad cPAGE_CLASS else .away sp.runs, s)

/-- Where byte o of some runs lies, and how many of its run's bytes are left from it. -/
def runAt : List (Nat × Nat) → Nat → Nat × Nat
  | [], _ => (0, 0)
  | (pa, n) :: rs, o => if o < n then (pa + o, n - o) else runAt rs (o - n)

/-- Requests of at most 15 words over a row's span, whose runs these are (R238): address, words, and where the words go on when they
cross into the next run. -/
def runRequests (runs : List (Nat × Nat)) : List (Nat × Nat × Option Nat) :=
  let all := (runs.map (·.2)).sum
  (List.range ((all + 119) / 120)).map fun i =>
    let (pa, left) := runAt runs (120 * i)
    let n := min 120 (all - 120 * i)
    (pa, n / 8, if left < n then some (runAt runs (120 * i + left)).1 else none)

/-- Free lines of a core's reply buffer. -/
def Core.freeLines (c : Core) (n : Nat) : List Nat := ((List.range 1024).filter fun i => (look c.reply i).isNone).take n

/-- The read request of a gather's row (R238, R383): reply and arrival go to the line. -/
def rowRequest (core line pa n : Nat) (rest : Option Nat) (parity : Option Bool) : Send :=
  ⟨pa, 7, 0, 0, false, false, parity, bytesOfNat 8 (replyPa core line + 8) ++ bytesOfNat 8 (replyPa core line) ++ bytesOfNat 1 n, rest⟩

/-- A remote row's requests are made up: lines reserved, requests waiting for stream room; nothing while lines are short. -/
def State.askRow (s : State) (g : Wg) (wid : Nat) (c : Cmd) (e row : Nat) (runs : List (Nat × Nat)) : State :=
  let rq := runRequests runs
  let lines := (s.core g.core).freeLines rq.length
  if lines.length < rq.length then s
  else
    let s := s.modCore g.core fun k =>
      { k with reply := lines.foldl (fun t i => ins t i ⟨wid, c.seq, e, none, false⟩) k.reply }
    s.modCmd wid c.seq fun c => { c with
      todo := c.todo.filter fun v => v != e
      far := ins c.far e ⟨lines.map fun i => g.core * 1024 + i, 0, 0, row⟩
      asks := c.asks ++ (lines.zip rq).map fun p => (e, rowRequest g.core p.1 p.2.1 p.2.2.1 p.2.2.2 c.parity) }

/-- The bytes of a row whose replies are all there. -/
def State.rowReplies (s : State) (r : RowWait) : Option (List Byte) :=
  r.lines.foldl (fun acc l =>
    match acc, (look (s.core (l / 1024)).reply (l % 1024)).bind (·.words) with
    | some bs, some ws => some (bs ++ ws)
    | _, _ => none) (some [])

/-- A far row is over: its lines are free when their arrivals have come; the others stay until they come (R224). -/
def State.rowOver (s : State) (wid : Nat) (c : Cmd) (e : Nat) (r : RowWait) : State :=
  let s := r.lines.foldl (fun s l => s.modCore (l / 1024) fun k =>
    { k with reply := match look k.reply (l % 1024) with
        | some x => if x.done then del k.reply (l % 1024) else ins k.reply (l % 1024) { x with words := none }
        | none => k.reply }) s
  s.modCmd wid c.seq fun c => { c with far := del c.far e }

/-- Whether 64 us of residence have passed since a remote row's first request (R238). `since` is one more than the instant. -/
def RowWait.late (w : RowWait) (now : Nat) : Bool := w.since != 0 && decide (64000 ≤ w.elapsed + (now + 1 - w.since))

/-- ROW_LANDED (R238): an own-die row moves whole; a remote one is asked for, and copied once its replies are there, unless its
time has passed. -/
def execRowLanded (wid cmd row : Nat) (s : State) : Host.Outcome State Fault Refusal :=
  match s.cmd? wid cmd with
  | none => .next s
  | some (g, c, k) =>
    match c.job with
    | .copy _ _ _ _ => .next s
    | .rows gather count _ loc t idx _ _ =>
      let n := t.rowBytes
      let rows := if count then 1 else 0
      let entry := laddr32 loc ((row * n : Nat) : Int)
      match look c.far row with
      | some w =>
        match s.rowReplies w with
        | none => .next s
        | some bs =>
          if w.late s.time || c.asks.any fun a => a.1 == row then .next s
          else
            let va := t.rowAt w.row
            let data := (bs.drop (va % 8)).take n
            if s.areaThere wid entry then
              .next (((s.areaPut none wid entry data).rowOver wid c row w).barArrive c.bar.1 c.bar.2 rows n)
            else .next ((s.rowOver wid c row w).modCmd wid cmd fun c => c.miss cCOPY_FAULT rows n)
      | none =>
        let turn := if gather then c.todo.contains row else c.todo.head? == some row
        if !c.running || !turn then .next s
        else
          let r := (idx.getD row none).getD 0
          if r ≥ t.size.getD 1 0 then
            .next (s.modCmd wid cmd fun c => { c.miss cCOPY_FAULT rows n with todo := c.todo.filter fun v => v != row })
          else if gather then
            match s.rowHome g.core k.ctx (t.rowAt r) n with
            | (.away runs, s) => .next (s.askRow g wid c row r runs)
            | (.bad e, s) =>
              .next (s.modCmd wid cmd fun c => { c.miss e rows n with todo := c.todo.filter fun v => v != row })
            | (.here, s) => .next (s.moveUnit g k wid c rows row true false (t.rowAt r) entry n)
          else .next (s.moveUnit g k wid c rows row false true entry (t.rowAt r) n)

/-- A command's next read request enters its stream, if there is room (R364, R389). -/
def State.cmdEntry (s : State) (wid cmd : Nat) : State :=
  match s.cmd? wid cmd with
  | none => s
  | some (g, c, _) =>
    match c.asks with
    | [] => s
    | (e, x) :: rest =>
      let agent := coresAgent (dieOf g.core)
      if !s.roomFor agent true [x] then s
      else
        let s := (s.enter agent (.engine wid g.core) false none x).2
        s.modCmd wid cmd fun c => { c with
          asks := rest
          far := upd c.far e fun w => if w.since = 0 then { w with since := s.time + 1 } else w }

/-- GATHER_ROW_TIMEOUT (R238): 64 us of residence after the row's first request. -/
def execGatherRowTimeout (wid cmd row : Nat) (s : State) : Host.Outcome State Fault Refusal :=
  match s.cmd? wid cmd with
  | none => .next s
  | some (_, c, _) =>
    match look c.far row, c.job with
    | some w, .rows _ count _ _ t _ _ _ =>
      if !w.late s.time then .next s
      else
        let unsent := (c.asks.filter fun a => a.1 == row).map fun a => fld a.2.payload 0 8
        let s := unsent.foldl (fun s pa => s.modCore (replyCore pa) fun k => { k with reply := del k.reply (replyLine pa) })
          (s.rowOver wid c row w)
        .next (s.modCmd wid cmd fun c =>
          { c.miss cREMOTE_UNREACH (if count then 1 else 0) t.rowBytes with asks := c.asks.filter fun a => a.1 != row })
    | _, _ => .next s

/-- COMMAND_COMPLETE (R223, R231): the fault update, the group's record, the slot, one pulse of the group's source. -/
def execCommandComplete (wid cmd : Nat) (s : State) : Host.Outcome State Fault Refusal :=
  match s.cmd? wid cmd with
  | none => .next s
  | some (g, c, _) =>
    if !c.running || !c.todo.isEmpty || !c.asks.isEmpty || !c.far.isEmpty then .next s
    else
      let s := s.modWg wid fun g => { g with cmds := del g.cmds cmd }
      let s := match c.cause with
        | none => s
        | some e =>
          let s := s.modWg wid fun g =>
            { g with grps := ins g.grps c.grp ⟨lessCause (g.group c.grp).cause e.toNat, true⟩ }
          s.barFault c.bar.1 c.bar.2 c.missRows c.missing
      .next (s.pulse g.core wid c.grp)

end Sys2Proof.Machine
end

