-- ==== Sys2Proof/Machine/Optics.lean ====
section
/-! DEFINITION. Optical circuit time (16 R386-R393, R398-R406): slot tables, lanes and their states, rotations, table swaps,
keys, retraining and hand-over. -/

namespace Sys2Proof.Machine

/-! ### Lanes and channels (R386, R387) -/

/-- The package that transmit channel c of package i reaches, and the one that receive channel c of package j hears (R387). -/
def reaches (i c : Nat) : Nat := (i + c) % 48
def hears (j c : Nat) : Nat := (j + 48 - c) % 48

/-- Whether a channel code names a channel (R404). -/
def isChannel (c : Nat) : Bool := decide (1 ≤ c) && decide (c ≤ 47)

/-- The codes of a spare lane and of an idle lane (R404). -/
def codeSpare : Nat := 0x3E
def codeIdle : Nat := 0x3F

def Pkg.lane (p : Pkg) (l : Nat) : Lane := lookD p.lanes l Lane.reset

def State.lane (s : State) (pkg l : Nat) : Lane := (s.pkg pkg).lane l

def State.modLane (s : State) (pkg l : Nat) (f : Lane → Lane) : State :=
  s.modPkg pkg fun p => { p with lanes := ins p.lanes l (f (p.lane l)) }

/-! ### Slot tables (R390, R391, R403-R405) -/

/-- The header of the active bank, and of the other. -/
def Pkg.active (p : Pkg) : BankHdr := if p.act then p.bank1 else p.bank0
def Pkg.inactive (p : Pkg) : BankHdr := if p.act then p.bank0 else p.bank1

/-- A byte of an entry of a bank (R403, R404). -/
def Pkg.entryByte (p : Pkg) (bank : Bool) (e i : Nat) : Nat :=
  (memGet p.slotMem ((if bank then 0x4000 else 0) + 256 * e + i)).toNat

/-- `LEN` of an entry, with its reserved bits (R404). -/
def Pkg.entryLen (p : Pkg) (bank : Bool) (e : Nat) : Nat := memNat p.slotMem ((if bank then 0x4000 else 0) + 256 * e) 8

/-- The channel code of a half-lane under the active bank (R390, R404). -/
def Pkg.code (p : Pkg) (rx : Bool) (l : Nat) : Nat :=
  if p.active.mode then p.entryByte p.act p.slot ((if rx then 104 else 8) + l)
  else if l % 48 = 0 then codeSpare else l % 48

/-- The length of a slot in nanoseconds (R391). -/
def Pkg.slotNs (p : Pkg) (e : Nat) : Nat := 10 * (p.entryLen p.act e % 2 ^ 17)

/-- Two lanes of one port of a slot on one channel (R405). -/
def Pkg.clash (p : Pkg) (bank : Bool) (e base : Nat) : Bool :=
  (List.range 12).any fun port => (List.range 8).any fun i => (List.range i).any fun j =>
    let a := p.entryByte bank e (base + 8 * port + i)
    isChannel a && a == p.entryByte bank e (base + 8 * port + j)

/-- The error of an entry (R404, R405). -/
def Pkg.entryError (p : Pkg) (bank : Bool) (e : Nat) : Option Nat :=
  let len := p.entryLen bank e
  if len < 50 || decide (len > 100000) || (List.range 56).any (fun i => p.entryByte bank e (200 + i) != 0) then some 2
  else if (List.range 192).any fun i =>
      let c := p.entryByte bank e (8 + i)
      !isChannel c && c != codeSpare && c != codeIdle then some 3
  else if p.clash bank e 8 then some 4
  else if p.clash bank e 104 then some 5
  else none

/-- The result of arming a swap at rotation n: the code and the entry (R405). -/
def Pkg.armError (p : Pkg) (n : Nat) : Option (Nat × Nat) :=
  let h := p.inactive
  let k := h.nslot.toNat
  let late : Option (Nat × Nat) := if n ≤ p.ocrot.toNat then some (7, 0) else none
  if k = 0 ∨ k > 64 then some (1, 0)
  else if !h.mode then late
  else
    match (List.range k).findSome? fun e => (p.entryError (!p.act) e).map fun c => (c, e) with
    | some r => some r
    | none => if ((List.range k).map fun e => 10 * p.entryLen (!p.act) e).sum > 4000000 then some (6, 0) else late

/-- ARM_SWAP (R405). -/
def execArmSwap (pkg : Nat) (n : BitVec 64) (s : State) : Host.Outcome State Fault Refusal :=
  .next (s.modPkg pkg fun p =>
    match p.armError n.toNat with
    | some (c, e) => { p with ocsw := n, arm := false, err := BitVec.ofNat 4 c, eslot := BitVec.ofNat 8 e }
    | none => { p with ocsw := n, arm := true, err := 0, eslot := 0 })

/-! ### Lane states (R398, R399, R406) -/

/-- A half-lane of a lit package under a channel code; what is failed or retraining stays so (R399, R406). -/
def Half.tuned (h : Half) (code : Nat) (mesh : Bool) : Half :=
  let ch := if mesh && code == codeSpare then codeIdle else code
  if h.st = 5 || h.st = 2 || h.st = 3 then { h with ch := if isChannel code then code else ch }
  else ⟨if code = codeSpare then 6 else 1, ch, 0xFF⟩

/-- A package's lanes take the channels of the slot in force (R391). -/
def Pkg.retune (p : Pkg) : Pkg :=
  if !p.en then p
  else
    let mesh := !p.active.mode
    { p with lanes := (List.range 96).map fun l =>
        let x := p.lane l
        (l, { x with tx := x.tx.tuned (p.code false l) mesh, rx := x.rx.tuned (p.code true l) mesh, sent := 0 }) }

/-! ### Light (R387) -/

/-- The lanes of lane l's port, l itself first. -/
def portLanes (l : Nat) : List Nat := l :: (List.range 8).map (8 * (l / 8) + ·)

/-- The receive lane of package j that hears transmit lane l of a peer on channel c: of the same port and tuned to that channel; a spare
that serves hears the spare of its own number alone (R387, R398). -/
def State.listener (s : State) (j l c : Nat) : Option Nat :=
  if !(s.pkg j).en then none
  else (portLanes l).find? fun m =>
    let r := (s.lane j m).rx
    r.ch == c && r.st != 0 && r.st != 5 && (m == l || r.st != 4)

/-- The package and transmit lane whose light receive lane l of package j hears (R387). -/
def State.feeder (s : State) (j l : Nat) : Option (Nat × Nat) :=
  let c := (s.lane j l).rx.ch
  if !isChannel c then none
  else
    let i := hears j c
    ((portLanes l).find? fun m =>
      let t := (s.lane i m).tx
      t.ch == c && t.st != 0 && t.st != 4).map fun m => (i, m)

/-! ### Spares (R398, R399) -/

/-- Whether a spare is promised to a lane of a package that is being handed over. -/
def State.promised (s : State) (pkg sp : Nat) (rx : Bool) : Bool :=
  if rx then (s.pkg pkg).lanes.any fun e => e.2.stage == 2 && e.2.spare == some sp
  else (List.range s.nPkg).any fun q => (s.pkg q).lanes.any fun e => e.2.stage == 2 && e.2.mate == pkg && e.2.spare == some sp

/-- The lowest spare that is free at both ends, for traffic from package i to package j. -/
def State.freeSpare (s : State) (i j : Nat) : Option Nat :=
  (List.range 96).find? fun l =>
    (s.lane i l).tx.st == 6 && (s.lane j l).rx.st == 6 && !s.promised i l false && !s.promised j l true

/-- A half out of service, its share on a spare or nowhere; a failed half stays failed (R398, R399, R406). -/
def Half.out (h : Half) (sp : Option Nat) : Half :=
  { h with st := if h.st = 5 then 5 else if sp.isSome then 2 else 3, sp := sp.getD 0xFF }

/-- Receive lane l of package j and the transmit lane that it hears leave service; a spare pair, if one is given, is tuned to their
channel and serves (R398 steps 3 and 4, R399). -/
def State.handOver (s : State) (j l : Nat) (sp : Option Nat) : State :=
  let c := (s.lane j l).rx.ch
  match s.feeder j l with
  | none => s.modLane j l fun x => { x with rx := x.rx.out none, spare := none, feed := none }
  | some (i, m) =>
    let s := match sp with
      | some k => (s.modLane i k fun x => { x with tx := ⟨4, c, m⟩ }).modLane j k fun x => { x with rx := ⟨4, c, l⟩ }
      | none => s
    let s := s.modLane i m fun x => { x with tx := x.tx.out sp }
    s.modLane j l fun x => { x with rx := x.rx.out sp, spare := sp, mate := i, feed := some m }

/-- The same with the spares of the slot in force: in scheduled mode the lowest free pair; none in mesh mode, or once a swap of tables
has ended the hand-over (R399). -/
def State.matched (s : State) (j l : Nat) : State :=
  s.handOver j l (if (s.pkg j).active.mode && !(s.lane j l).barred then (s.feeder j l).bind fun f => s.freeSpare f.1 j else none)

/-- Whether a lane's share is, or may be, with a spare: it is in retraining, or failed (R398). -/
def Lane.away (x : Lane) : Bool := decide (x.stage ≥ 3) || x.rx.st == 5

/-- A half under its package's own table again. -/
def Pkg.back (p : Pkg) (rx : Bool) (l st : Nat) : Half := (⟨st, codeIdle, 0xFF⟩ : Half).tuned (p.code rx l) (!p.active.mode)

/-- Whether some lane keeps transmit lane m of package i out of service until its own retraining ends (R399). -/
def State.keeps (s : State) (i m : Nat) : Bool := (List.range s.nPkg).any fun q => (s.pkg q).lanes.any fun e => e.2.kept == some (i, m)

/-- Whether some lane that is away hears transmit lane m of package i. -/
def State.feeds (s : State) (i m : Nat) : Bool :=
  (List.range s.nPkg).any fun q => (s.pkg q).lanes.any fun e => e.2.away && e.2.mate == i && e.2.feed == some m

/-- The hand-over of a lane ends at its spare pair and at the transmit lane that it hears, which stays out of service while a
retraining keeps it so (R398 step 5, R399). -/
def State.released (s : State) (j l : Nat) : State :=
  let x := s.lane j l
  let a := s.pkg x.mate
  let b := s.pkg j
  let s := match x.spare with
    | some k =>
      let s := s.modLane x.mate k fun y => { y with tx := if y.tx.st = 4 ∧ some y.tx.sp = x.feed then a.back false k 6 else y.tx }
      s.modLane j k fun y => { y with rx := if y.rx.st = 4 ∧ y.rx.sp = l then b.back true k 6 else y.rx }
    | none => s
  let s := match x.feed with
    | some m => s.modLane x.mate m fun y => { y with tx :=
        if y.tx.st = 2 ∨ y.tx.st = 3 then (if s.keeps x.mate m then { y.tx with st := 3, sp := 0xFF } else a.back false m 1)
        else { y.tx with sp := 0xFF } }
    | none => s
  s.modLane j l fun y => { y with rx := y.rx.out none, spare := none, feed := none }

/-- A lane's retraining keeps its transmit lane no longer: it is back in service, unless another lane keeps or hears it. -/
def State.unkept (s : State) (j l : Nat) : State :=
  match (s.lane j l).kept with
  | none => s
  | some (i, m) =>
    let s := s.modLane j l fun y => { y with kept := none }
    if s.keeps i m || s.feeds i m then s
    else s.modLane i m fun y => { y with tx := if y.tx.st = 2 ∨ y.tx.st = 3 then (s.pkg i).back false m 1 else y.tx }

/-- The lanes of every package that satisfy a test, in order. -/
def State.lanesWhere (s : State) (f : Nat → Lane → Bool) : List (Nat × Nat) :=
  (List.range s.nPkg).flatMap fun j => ((s.pkg j).lanes.filter fun e => f j e.2).map fun e => (j, e.1)

/-- The hand-overs that a package has a part in end with its slot. -/
def State.freeMates (s : State) (pkg : Nat) : State :=
  (s.lanesWhere fun j x => x.away && (j == pkg || x.mate == pkg)).foldl (fun s e => s.released e.1 e.2) s

/-- Lanes that are away look for the lane that they hear, and for spares, in the slot in force (R399). -/
def State.rematch (s : State) : State :=
  (s.lanesWhere fun _ x => x.away && x.feed.isNone).foldl (fun s e => s.matched e.1 e.2) s

/-- Retraining of a lane begins (R398 step 4). -/
def State.retrain (s : State) (j l : Nat) : State :=
  s.modLane j l fun x => { x with stage := 3, since := s.time, rtns := min (x.rtns + 1) 255 }

/-- Both halves of a lane are back under the table in force (R398 step 5). -/
def State.backInService (s : State) (j l : Nat) : State :=
  let b := s.pkg j
  (((s.released j l).modLane j l fun x => { x with
    rx := if x.rx.st = 5 then x.rx else b.back true l 1
    stage := 0, fails := 0, barred := false })).unkept j l

/-- HANDOVER_REQUEST (R398 step 2, R399): the oldest request at the transmitting package. -/
def execHandoverRequest (pkg lane : Nat) (s : State) : Host.Outcome State Fault Refusal :=
  match (s.pkg pkg).asks with
  | [] => .next s
  | (l, j) :: rest =>
    if l != lane then .next s
    else
      let s := s.modPkg pkg fun p => { p with asks := rest }
      if (s.lane j l).stage != 1 || (s.lane j l).mate != pkg then .next s
      else
        match s.freeSpare pkg j with
        | some sp => .next (s.modLane j l fun x => { x with stage := 2, since := s.time, spare := some sp })
        | none => .next ((s.retrain j l).handOver j l none)

/-- SPARE_READY (R398 step 3): 40 us of training are over, and the spare takes the lane's share; in scheduled mode a spare of the slot
in force takes it (R399). -/
def execSpareReady (pkg lane : Nat) (s : State) : Host.Outcome State Fault Refusal :=
  let x := s.lane pkg lane
  if x.stage = 2 ∧ x.since + 40000 ≤ s.time then
    let t := s.retrain pkg lane
    .next (if (s.pkg pkg).active.mode then t.matched pkg lane else t.handOver pkg lane x.spare)
  else .next s

/-- RETRAIN_DONE (R398 step 4): 400 us are over; a window of fill flits begins. -/
def execRetrainDone (pkg lane : Nat) (s : State) : Host.Outcome State Fault Refusal :=
  let x := s.lane pkg lane
  if x.stage = 3 ∧ x.since + 400000 ≤ s.time then .next (s.modLane pkg lane fun x => { x with stage := 4, win := 0, words := 0 }) else .next s

/-- Both halves of a lane fail, the spare stays in service, and the host is notified at both packages (R398 step 5, R462). -/
def State.laneFails (s : State) (j l : Nat) : State :=
  let x := s.lane j l
  let s := match x.kept, x.feed with
    | some (i, m), _ => s.modLane i m fun y => { y with tx := { y.tx with st := 5 } }
    | none, some m => s.modLane x.mate m fun y => { y with tx := { y.tx with st := 5 } }
    | none, none => s
  let peer := match x.kept with
    | some (i, _) => i
    | none => x.mate
  ((s.modLane j l fun y => { y with rx := { y.rx with st := 5 }, stage := 0, kept := none }).note j 2).note peer 2

/-- What the end of a fill window decides (R398 step 5). -/
def State.fillJudged (s : State) (pkg lane : Nat) : State :=
  let x := s.lane pkg lane
  if x.win ≤ (s.pkg pkg).thr.toNat then s.backInService pkg lane
  else if x.fails ≥ 2 then s.laneFails pkg lane
  else (s.modLane pkg lane fun x => { x with fails := x.fails + 1 }).retrain pkg lane

/-- The code words of a window (R396). -/
def windowWords : Nat := 2 ^ 14

/-- FEC_WINDOW_END (R396, R398): after 2^14 code words the count goes to `LNSYM`; a lane in service above the threshold asks for a
hand-over. -/
def execFecWindowEnd (pkg lane : Nat) (s : State) : Host.Outcome State Fault Refusal :=
  let p := s.pkg pkg
  let x := s.lane pkg lane
  if x.words < windowWords then .next s
  else if x.stage = 4 then .next ((s.fillJudged pkg lane).modLane pkg lane fun y => { y with sym := x.win, win := 0, words := 0 })
  else if x.rx.st = 1 ∨ x.rx.st = 4 then
    let s := s.modLane pkg lane fun y => { y with sym := x.win, win := 0, words := 0 }
    if x.rx.st = 1 && decide (x.stage ≤ 1) && p.rten && p.thr != 0 && decide (x.win > p.thr.toNat) && isChannel x.rx.ch then
      let i := hears pkg x.rx.ch
      .next ((s.modLane pkg lane fun y => { y with stage := 1, mate := i, fails := 0 }).modPkg pkg fun p =>
        { p with ctrl := if p.ctrl.contains (i, lane) then p.ctrl else p.ctrl ++ [(i, lane)] })
    else .next s
  else .next s

/-! ### Rotations and swaps (R391, R393, R405) -/

/-- Whether an armed swap is due (R405). -/
def Pkg.swapDue (p : Pkg) : Bool := p.arm && decide (p.ocsw.toNat ≤ p.ocrot.toNat)

/-- When the slot in force ends; a rotation in mesh mode lasts 10 us (R391, R393). -/
def Pkg.slotEnd (p : Pkg) : Nat := if p.active.mode then p.slotAt + p.slotNs p.slot else p.rotAt + 10000

/-- Whether the slot in force is the rotation's last. -/
def Pkg.lastSlot (p : Pkg) : Bool := !p.active.mode || decide (p.active.nslot.toNat ≤ p.slot + 1)

/-- A package's lanes are tuned anew, and spares are matched anew (R391, R399). -/
def State.retuned (s : State) (pkg : Nat) : State := ((s.freeMates pkg).modPkg pkg Pkg.retune).rematch

/-- SLOT_START (R391). -/
def execSlotStart (pkg : Nat) (s : State) : Host.Outcome State Fault Refusal :=
  let p := s.pkg pkg
  if p.swapDue || p.lastSlot || decide (s.time < p.slotEnd) then .next s
  else .next ((s.modPkg pkg fun p => { p with slot := p.slot + 1, slotAt := p.slotEnd }).retuned pkg)

/-- ROTATION_START (R391, R393): counted in `OCROT`; the first slot of a rotation starts. -/
def execRotationStart (pkg : Nat) (s : State) : Host.Outcome State Fault Refusal :=
  let p := s.pkg pkg
  if p.swapDue || !p.lastSlot || decide (s.time < p.slotEnd) then .next s
  else
    let s := s.modPkg pkg fun p => { p with ocrot := p.ocrot + 1, slot := 0, slotAt := p.slotEnd, rotAt := p.slotEnd }
    if p.active.mode then .next (s.retuned pkg) else .next s

/-- Every hand-over of a package ends; what is retraining stays out of service until its retraining ends, at a swap of tables both
halves that are retrained together (R399). -/
def State.endHandovers (s : State) (pkg : Nat) (swap : Bool) : State :=
  let drop (q : Nat) (x : Lane) : Lane :=
    if q ≠ pkg ∧ x.mate ≠ pkg then x
    else if x.stage = 1 ∨ x.stage = 2 then { x with stage := 0, spare := none }
    else if x.away then
      { x with barred := true, kept := if swap && !x.barred && decide (x.stage ≥ 3) then x.feed.map fun m => (x.mate, m) else x.kept }
    else x
  (List.range s.nPkg).foldl (fun s q => s.modPkg q fun p => { p with lanes := p.lanes.map fun e => (e.1, drop q e.2) }) s

/-- TABLE_SWAP (R405): the armed bank becomes active. -/
def execTableSwap (pkg : Nat) (s : State) : Host.Outcome State Fault Refusal :=
  if (s.pkg pkg).swapDue then
    .next ((((s.endHandovers pkg true).freeMates pkg).modPkg pkg fun p =>
      Pkg.retune { p with act := !p.act, arm := false, slot := 0, slotAt := p.rotAt, asks := [], ctrl := [] }).rematch)
  else .next s

/-! ### Control and keys (R402, R403) -/

/-- A package goes dark: its hand-overs end, and no retraining keeps a lane for it or of it any more (R399, R402). -/
def State.parted (s : State) (pkg : Nat) : State :=
  let s := s.endHandovers pkg false
  let s := (s.lanesWhere fun j x => x.kept.any fun k => j == pkg || k.1 == pkg).foldl (fun s e => s.unkept e.1 e.2) s
  s.freeMates pkg

/-- A dark lane; a failed half stays failed until the package is reset (R399, R406). -/
def Lane.dark (x : Lane) : Lane :=
  let off (h : Half) : Half := if h.st = 5 then h else ⟨0, codeIdle, 0xFF⟩
  { x with tx := off x.tx, rx := off x.rx, stage := 0, spare := none, feed := none, barred := false, kept := none, fails := 0 }

/-- LANE_ENABLE (R402, R403): `OCCTL` is written; lanes light only with a key. -/
def execLaneEnable (pkg : Nat) (value : BitVec 64) (s : State) : Host.Outcome State Fault Refusal :=
  let p := s.pkg pkg
  let en := value.getLsbD 0 && p.key.isSome
  let s := s.modPkg pkg fun p => { p with rten := value.getLsbD 3, en := en }
  if en && !p.en then .next (s.retuned pkg)
  else if !en && p.en then
    .next ((s.parted pkg).modPkg pkg fun p =>
      { p with lanes := p.lanes.map fun e => (e.1, e.2.dark), asks := [], ctrl := [] })
  else .next s

/-- The wrapped key in `KEYIN` (R403). -/
def Pkg.wrapped (p : Pkg) : List Byte := memRead p.keyin 0 512

/-- KEY_LOAD (R402): the key is unwrapped, flit counters start from 0, `KEYIN` is cleared. -/
def execKeyLoad (pkg : Nat) (s : State) : Host.Outcome State Fault Refusal :=
  .next (s.modPkg pkg fun p =>
    match Config.unwrapKey pkg p.wrapped with
    | some k => { p with key := some k, kst := 1, keyin := [], flows := [] }
    | none => { p with kst := 2, keyin := [] })

/-- KEY_ZERO (R402). -/
def execKeyZero (pkg : Nat) (s : State) : Host.Outcome State Fault Refusal :=
  .next (s.modPkg pkg fun p => { p with key := none, kst := 0, flows := [] })

/-- PACKAGE_RESET (R402, R403, R406): the optical registers, lanes and keys are as at reset; pod time, the rotations on it,
and the messages in the send queues go on (L23). -/
def execPackageReset (pkg : Nat) (s : State) : Host.Outcome State Fault Refusal :=
  .next ((s.parted pkg).modPkg pkg fun p =>
    { p with
      en := false, rten := true, eslot := 0, err := 0, act := false, arm := false, ocsw := 0, thr := 891
      bank0 := ⟨false, 1⟩, bank1 := ⟨false, 1⟩, slotMem := [], keyin := [], kst := 0, key := none
      slot := 0, slotAt := p.rotAt, lanes := [], flows := [], air := [], asks := [], ctrl := [] })

/-! ### Reading the registers (R403, R406) -/

/-- `LNST` (R406). -/
def Lane.status (x : Lane) : Nat :=
  x.rx.st + 2 ^ 4 * x.tx.st + 2 ^ 16 * x.rx.ch + 2 ^ 24 * x.tx.ch + 2 ^ 40 * x.rtns + 2 ^ 48 * x.rx.sp + 2 ^ 56 * x.tx.sp

/-- `OCCTL` and `OCSTAT` (R403). -/
def Pkg.occtl (p : Pkg) : Nat := (if p.en then 1 else 0) + (if p.rten then 8 else 0)
def Pkg.ocstat (p : Pkg) : Nat :=
  (if p.en then 1 else 0) + (if p.arm then 2 else 0) + (if p.act then 4 else 0) + 2 ^ 12 * p.err.toNat + 2 ^ 16 * p.eslot.toNat

def BankHdr.value (h : BankHdr) : Nat := h.nslot.toNat + (if h.mode then 128 else 0)

/-- A register of the optical block, at an offset of 8 bytes (R403). -/
def Pkg.opticalReg (p : Pkg) (off : Nat) : Nat :=
  if off = 0 then p.occtl
  else if off = 0x8 then p.ocstat
  else if off = 0x10 then p.ocsw.toNat
  else if off = 0x18 then p.ocrot.toNat
  else if off = 0x20 then p.thr.toNat
  else if off = 0x28 then p.bank0.value
  else if off = 0x30 then p.bank1.value
  else if 0x100 ≤ off ∧ off < 0x300 then memNat p.keyin (off - 0x100) 8
  else if off = 0x300 then p.kst.toNat * 256
  else if 0x1000 ≤ off ∧ off < 0x2800 then
    let x := p.lane ((off - 0x1000) / 64)
    match off % 64 with
    | 0x00 => x.status
    | 0x08 => x.cor
    | 0x10 => x.unc
    | 0x18 => x.auth
    | 0x20 => x.sym
    | 0x28 => x.flits
    | _ => 0
  else if 0x4000 ≤ off ∧ off < 0xC000 then memNat p.slotMem (off - 0x4000) 8
  else 0

/-- A write to a register of the optical block that is plain storage (R403, R404). -/
def Pkg.opticalWrite (p : Pkg) (off : Nat) (v : BitVec 64) : Pkg :=
  let locked (bank : Bool) : Bool := p.en && p.act == bank
  let hdr : BankHdr := ⟨v.getLsbD 7, v.extractLsb' 0 7⟩
  if off = 0x20 then { p with thr := v.setWidth 32 }
  else if off = 0x28 then (if locked false then p else { p with bank0 := hdr })
  else if off = 0x30 then (if locked true then p else { p with bank1 := hdr })
  else if 0x100 ≤ off ∧ off < 0x300 then { p with keyin := memWrite p.keyin (off - 0x100) (bytesOfNat 8 v.toNat) }
  else if 0x4000 ≤ off ∧ off < 0xC000 then
    (if locked (decide (0x8000 ≤ off)) then p else { p with slotMem := memWrite p.slotMem (off - 0x4000) (bytesOfNat 8 v.toNat) })
  else p

end Sys2Proof.Machine
end

