-- ==== Sys2Proof/Machine/Flits.lean ====
section
/-! DEFINITION. Flits (16 R389, R392-R397, R401): cutting send queues, headers, encryption, receiving, rebuilding the byte
streams of flows, gaps. -/

namespace Sys2Proof.Machine

/-! ### Header and protection (R394, R401) -/

/-- The header of a flit (R394). -/
def flitHeader (kind used : Nat) (first : Option Nat) (seq : Nat) : BitVec 32 :=
  BitVec.ofNat 32 (seq % 2 ^ 16 + (match first with
    | some f => f / 4 * 2 ^ 17 + 2 ^ 22
    | none => 0) + (if kind = 0 then (used - 1) * 2 ^ 23 else 0) + kind * 2 ^ 30)

/-- The initialisation vector of a flit of a flow (R401). -/
def flitIv (src dst n : Nat) : BitVec 96 := BitVec.ofNat 96 (src * 2 ^ 90 + dst * 2 ^ 84 + n % 2 ^ 64)

/-- The 144 bytes of a flit (R394, R401). -/
def flitBytes (key : BitVec 256) (src dst n : Nat) (hdr : BitVec 32) (payload : List Byte) : List Byte :=
  let iv := flitIv src dst n
  let ct := BitVec.ofNat 1024 (natOfBytes payload) ^^^ Config.keyStream key iv
  bytesOfNat 4 hdr.toNat ++ bytesOfNat 128 ct.toNat ++ bytesOfNat 12 (Config.gcmTag key iv hdr ct).toNat

/-- The payload of a flit with a number, if its tag holds (R401). -/
def flitOpen (key : BitVec 256) (src dst n : Nat) (bs : List Byte) : Option (List Byte) :=
  let iv := flitIv src dst n
  let hdr := BitVec.ofNat 32 (fld bs 0 4)
  let ct := BitVec.ofNat 1024 (fld bs 4 128)
  if fld bs 132 12 = (Config.gcmTag key iv hdr ct).toNat then some (bytesOfNat 128 (ct ^^^ Config.keyStream key iv).toNat) else none

/-! ### Sending (R387, R391, R392, R394, R398) -/

def Pkg.flow (p : Pkg) (peer : Nat) : Flow := lookD p.flows peer Flow.reset

/-- Whether the package may carry flits now: lit, with a key, no swap due, and past the slot's guard interval (R391). -/
def Pkg.carries (p : Pkg) (now : Nat) : Bool :=
  p.en && p.key.isSome && !p.swapDue && (!p.active.mode || (decide (p.slotAt + 250 ≤ now) && decide (now < p.slotEnd)))

/-- The package that a lane of a package reaches, if it is one of the pod (R387, R390). -/
def State.laneReaches (s : State) (pkg l : Nat) : Option Nat :=
  let c := (s.lane pkg l).tx.ch
  if isChannel c && decide (reaches pkg c < s.nPkg) then some (reaches pkg c) else none

/-- Whether a lane carries traffic: in service, or a spare that serves (R398, R406). -/
def Lane.sends (x : Lane) : Bool := x.tx.st == 1 || x.tx.st == 4

/-- The bytes that a lane may still carry in the slot, in words of 4 bytes so that messages begin at a `FIRST` (R391, R394). -/
def Pkg.roomIn (p : Pkg) (x : Lane) : Nat := if p.active.mode then (25 * (p.slotNs p.slot - 250) - x.sent) / 4 * 4 else 128

/-- The lanes that reach a destination now, and whose turn it is after the lane that the queue used last (R392). -/
def State.nextLane (s : State) (pkg dst last : Nat) : Option Nat :=
  let p := s.pkg pkg
  ((List.range 96).map fun i => (last + 1 + i) % 96).find? fun l =>
    let x := p.lane l
    x.sends && s.laneReaches pkg l == some dst && decide (0 < p.roomIn x)

/-- The first bytes of a queue and where a message first begins in them (R394, R395). -/
def SendQ.cut (q : SendQ) (n : Nat) : List Byte × Option Nat :=
  let bs := (q.msgs.flatten.drop q.off).take n
  let at_ := if q.off = 0 then 0 else (q.msgs.headD []).length - q.off
  (bs, if at_ < bs.length then some at_ else none)

/-- A queue after n bytes have left: what remains, and the messages whose last byte has left. -/
def SendQ.after (n : Nat) : List (List Byte) → Nat → (List (List Byte) × Nat) × List (List Byte)
  | [], _ => (([], 0), [])
  | m :: ms, off =>
    if n + off < m.length then ((m :: ms, n + off), [])
    else
      let r := SendQ.after (n + off - m.length) ms 0
      (r.1, m :: r.2)

/-- A flit leaves: it takes the flow's next number and is on its way if the receiver listens (R387, R388, R394). -/
def State.launchFlit (s : State) (pkg dst l kind used : Nat) (first : Option Nat) (payload : List Byte) : State :=
  match (s.pkg pkg).key with
  | none => s
  | some key =>
    let n := ((s.pkg pkg).flow dst).next
    let bytes := flitBytes key pkg dst n (flitHeader kind used first n) payload
    let s := s.modPkg pkg fun p => { p with flows := ins p.flows dst { p.flow dst with next := n + 1 } }
    match s.listener dst l (s.lane pkg l).tx.ch with
    | some m => s.modPkg dst fun p => { p with air := p.air ++ [⟨pkg, m, bytes⟩] }
    | none => s

/-- A data flit of a queue leaves on a lane (R392). -/
def State.sendData (s : State) (pkg dst l : Nat) : State :=
  let p := s.pkg pkg
  let q := s.queue pkg dst
  let (bs, first) := q.cut (min 128 (p.roomIn (p.lane l)))
  if bs.isEmpty then s
  else
    let s := s.launchFlit pkg dst l 0 bs.length first bs
    let (rest, gone) := SendQ.after bs.length q.msgs q.off
    let s := s.modPkg pkg fun p => { p with queues := ins p.queues dst ⟨rest.1, rest.2, l⟩ }
    gone.foldl State.left (s.modLane pkg l fun x => { x with sent := x.sent + bs.length })

/-- FLIT_SEND (R392, R394): a data flit of the queue whose turn the lane has, a control flit, or a fill flit; a lane in its
fill window carries fill flits alone (R398). -/
def execFlitSend (pkg lane kind : Nat) (s : State) : Host.Outcome State Fault Refusal :=
  let p := s.pkg pkg
  let x := p.lane lane
  match s.laneReaches pkg lane with
  | none => .next s
  | some dst =>
    if !p.carries s.time then .next s
    else if kind = 0 then
      if x.sends && s.nextLane pkg dst (s.queue pkg dst).last == some lane then .next (s.sendData pkg dst lane) else .next s
    else if kind = 1 then
      match p.ctrl.find? fun c => c.1 == dst with
      | some c =>
        if x.sends then
          .next ((s.launchFlit pkg dst lane 1 0 none (bytesOfNat 1 c.2)).modPkg pkg fun p => { p with ctrl := p.ctrl.erase c })
        else .next s
      | none => .next s
    else
      let filling := (s.pkg dst).lanes.any fun e => e.2.stage == 4 && e.2.mate == pkg && e.2.feed == some lane
      if filling || (x.sends && (s.queue pkg dst).msgs.isEmpty) then .next (s.launchFlit pkg dst lane 2 0 none []) else .next s

/-! ### Rebuilding the byte streams (R395, R397) -/

/-- The number of a flit: 16 bits of it, nearest to the highest accepted, the larger on a tie (R397). -/
def flitNumber (high seq : Nat) : Nat :=
  let lo := high / 2 ^ 16 * 2 ^ 16 + seq
  let dist (n : Nat) : Nat := max n high - min n high
  let cs := (if lo ≥ 2 ^ 16 then [lo - 2 ^ 16] else []) ++ [lo, lo + 2 ^ 16]
  cs.foldl (fun b n => if dist n ≤ dist b then n else b) (cs.headD lo)

/-- A byte of the stream with the flit and offset where it lies. -/
abbrev Placed := (Nat × Nat) × Byte

/-- The used bytes of the flits from a number on, as far as they have arrived. -/
def runFrom (got : Tab (List Byte × Option Nat × Nat)) : Nat → Nat → List Placed
  | 0, _ => []
  | k + 1, n =>
    match look got n with
    | none => []
    | some (bs, _, _) => ((List.range bs.length).zip bs).map (fun p => ((n, p.1), p.2)) ++ runFrom got k (n + 1)

/-- Cut messages off a run that begins at a message: the complete ones, and what is left (R395). -/
def cutMessages : Nat → List Placed → List (List Placed) × List Placed
  | 0, bs => ([], bs)
  | k + 1, bs =>
    let n := (fld (bs.map (·.2)) 16 4 / 2 ^ 25 % 64 + 1) * 4
    if bs.length < 20 ∨ bs.length < n then ([], bs)
    else
      let r := cutMessages k (bs.drop n)
      (bs.take n :: r.1, r.2)

/-- Where a message begins. -/
def startOf (m : List Placed) : Nat × Nat := (m.headD ((0, 0), 0)).1

/-- The messages that a flow can deliver, from the byte that follows what has been placed and from every `FIRST` (R397). -/
def Flow.complete (f : Flow) : List (List Placed) :=
  let n := f.got.length
  let base := match f.part with
    | some pre => (cutMessages (33 * n + 8) (pre.map (fun b => ((f.base, 2 ^ 16), b)) ++ runFrom f.got n f.base)).1
    | none => []
  base ++ (f.got.map fun e => match e.2.2.1 with
    | some o => (cutMessages (33 * n + 8) ((runFrom f.got n e.1).drop o)).1
    | none => []).flatten

/-- Messages not delivered before, each once. -/
def newMessages : List (Nat × Nat) → List (List Placed) → List (List Placed)
  | _, [] => []
  | given, m :: ms => if given.contains (startOf m) then newMessages given ms else m :: newMessages (startOf m :: given) ms

/-- The flow's bytes up to the first missing number are done with; the message begun there is kept (R397). -/
def Flow.advance (f : Flow) : Flow :=
  let n := f.got.length
  let run := runFrom f.got n f.base
  let k := ((List.range (n + 1)).find? fun i => (look f.got (f.base + i)).isNone).getD n
  let rest : Option (List Byte) := match f.part with
    | some pre => some ((cutMessages (33 * n + 8) (pre.map (fun b => ((f.base, 2 ^ 16), b)) ++ run)).2.map (·.2))
    | none =>
      match (List.range k).findSome? fun i => (match look f.got (f.base + i) with
        | some (_, some o, _) => some (f.base + i, o)
        | _ => none) with
      | some (m, o) => some ((cutMessages (33 * n + 8) ((runFrom f.got n m).drop o)).2.map (·.2))
      | none => none
  { f with
    base := f.base + k
    got := f.got.filter fun e => decide (f.base + k ≤ e.1)
    part := rest
    given := f.given.filter fun g => decide (f.base + k ≤ g.1) }

/-- A flow delivers what is complete, then advances. -/
def State.flowDeliver (s : State) (pkg src : Nat) : State :=
  let f := (s.pkg pkg).flow src
  let ms := newMessages f.given f.complete
  let f := Flow.advance { f with given := f.given ++ ms.map startOf }
  ms.foldl (fun s m => s.deliver (m.map (·.2))) (s.modPkg pkg fun p => { p with flows := ins p.flows src f })

/-- A flit with a good tag takes its number; data is placed, a hand-over request noted (R394, R397, R398). -/
def State.acceptFlit (s : State) (pkg src n : Nat) (hdr : Nat) (payload : List Byte) : State :=
  let kind := hdr / 2 ^ 30
  if kind = 3 then s
  else
    let used := if kind = 0 then hdr / 2 ^ 23 % 128 + 1 else 0
    let first := if kind = 0 ∧ hdr / 2 ^ 22 % 2 = 1 then some (4 * (hdr / 2 ^ 17 % 32)) else none
    let s := s.modPkg pkg fun p =>
      let f := p.flow src
      { p with flows := ins p.flows src { f with
          high := max f.high n
          got := if n < f.base then f.got else ins f.got n (payload.take used, first, s.time) } }
    let s := if kind = 1 then s.modPkg pkg fun p => { p with asks := p.asks ++ [(fld payload 0 1, src)] } else s
    s.flowDeliver pkg src

/-- What a receive lane counts of a code word (R396, R406): nothing while it retrains, but the window of step 4. -/
def Lane.counted (x : Lane) (symbols : Nat) (bad : Bool) : Lane :=
  let win := x.win + if bad then 0 else symbols
  if x.stage = 4 then { x with win := win, words := x.words + 1 }
  else if x.rx.st = 1 ∨ x.rx.st = 4 then
    if bad then { x with unc := (x.unc + 1) % 2 ^ 64, words := x.words + 1 }
    else { x with cor := (x.cor + if symbols = 0 then 0 else 1) % 2 ^ 64, win := win, words := x.words + 1 }
  else x

/-- The bits of a flit (R394) and the message bits of a code word (R396). -/
def flitBits : Nat := 1152
def codeBits : Nat := 5140

/-- Whether a code word begins in the next flit of a lane's line: the flits follow one another through the code words (L43). -/
def Lane.begins (x : Lane) : Bool := x.bits == 0 || decide (codeBits < x.bits + flitBits)

/-- A receive lane takes the next flit of its line: whether a code word that the flit touches is uncorrectable, and the lane after.
`symbols` and `bad` are of the code word that begins in the flit, if one does; each is counted once (R396). -/
def Lane.lined (x : Lane) (symbols : Nat) (bad : Bool) : Bool × Lane :=
  let y := { x with bits := (x.bits + flitBits) % codeBits, uncor := if x.begins then bad else x.uncor }
  ((x.bits != 0 && x.uncor) || (x.begins && bad), if x.begins then y.counted symbols bad else y)

/-- FLIT_RECEIVED (R394-R397, R401, R402): the k-th flit on its way to a package. In the code word that begins in it `symbols` were
corrected (at most 15), or that code word is `bad`; `noise` is what the code did not see. With no key no tag holds. A window of
code words ends before the next one begins. -/
def execFlitReceived (pkg lane k symbols : Nat) (bad : Bool) (noise : Nat) (s : State) : Host.Outcome State Fault Refusal :=
  match (s.pkg pkg).air[k]? with
  | none => .next s
  | some f =>
    if f.lane != lane || ((s.lane pkg lane).begins && decide (windowWords ≤ (s.lane pkg lane).words)) then .next s
    else
      let bytes := noised f.bytes noise
      let s := s.modPkg pkg fun p => { p with air := p.air.eraseIdx k }
      let live := (s.lane pkg lane).rx.st == 1 || (s.lane pkg lane).rx.st == 4
      let (lost, after) := (s.lane pkg lane).lined (symbols % 16) bad
      let s := s.modLane pkg lane fun _ => after
      if lost then .next s
      else
        let hdr := fld bytes 0 4
        let n := flitNumber ((s.pkg pkg).flow f.src).high (hdr % 2 ^ 16)
        match (s.pkg pkg).key.bind fun key => flitOpen key f.src pkg n bytes with
        | none => .next (if live then s.modLane pkg lane fun x => { x with auth := (x.auth + 1) % 2 ^ 64 } else s)
        | some payload =>
          let s := if live then s.modLane pkg lane fun x => { x with flits := (x.flits + 1) % 2 ^ 64 } else s
          .next (s.acceptFlit pkg f.src n hdr payload)

/-- FLOW_GAP (R397): the lowest missing number of a flow is given up, 10 ms after a higher one was accepted. -/
def execFlowGap (pkg src : Nat) (s : State) : Host.Outcome State Fault Refusal :=
  let f := (s.pkg pkg).flow src
  if (look f.got f.base).isNone && f.got.any fun e => decide (f.base < e.1) && decide (e.2.2.2 + 10000000 ≤ s.time) then
    .next ((s.modPkg pkg fun p => { p with flows := ins p.flows src { f with base := f.base + 1, part := none } }).flowDeliver pkg src)
  else .next s

end Sys2Proof.Machine
end

