-- ==== Sys2Proof/Machine/Grd.lean ====
section
/-! DEFINITION. The GRD group (13): corners and weights, grid loads, scatters, and the grid unit's queue. -/

namespace Sys2Proof.Machine

/-! ### Corners (R313, R314) -/

/-- Whether a level is dense (R313). -/
def GridRec.dense (g : GridRec) (l : Nat) : Bool := decide ((g.res.getD l 0 + 1) ^ g.dim ≤ 2 ^ g.logT.getD l 0)

/-- The multipliers of the hash (R314). -/
def hashMul (i : Nat) : Nat :=
  match i with
  | 0 => 1
  | 1 => 0x8DA6B343
  | 2 => 0xD8163841
  | 3 => 0xCB1AB31F
  | 4 => 0x9F5A2C6B
  | 5 => 0xE3C10A97
  | 6 => 0xB7D45E29
  | _ => 0xF14A9C35

def one32 : Num := .fin false 1 0

/-- The cell and the fraction of a coordinate at a resolution (R314). -/
def cellOf (res : Nat) (x : Num) : Nat × Num :=
  match x with
  | .nan _ => (0, .fin false 0 0)
  | .inf n => if n then (0, .fin false 0 0) else (res - 1, one32)
  | .fin n m e =>
    if n || m == 0 then (0, .fin false 0 0)
    else if 0 ≤ e || m / 2 ^ (-e).toNat ≥ 1 then (res - 1, one32)
    else
      let q := 2 ^ (-e).toNat
      (m * res / q, (roundTo f32.fmt .rne false false (m * res % q) e false).1)

/-- A rounding to f32, nearest even, that raises nothing. -/
def quiet32 (x : Num) : Num := (roundNum f32.fmt .rne false x).1

/-- The corners of a lane's cell at a level: index and weight, in ascending corner number (R314). -/
def GridRec.corners (g : GridRec) (l : Nat) (xs : List Num) : List (Nat × Num) :=
  let res := g.res.getD l 0
  let cells := xs.map fun x => cellOf res x
  let gs := cells.map fun c => (fpSub f32.fmt .rne false one32 c.2).1
  (List.range (2 ^ g.dim)).map fun m =>
    let w := (List.range g.dim).foldl (fun w i =>
      quiet32 (mulNum w (if m.testBit i then (cells.getD i (0, one32)).2 else gs.getD i one32)).1) one32
    let k (i : Nat) : Nat := (cells.getD i (0, one32)).1 + (if m.testBit i then 1 else 0)
    let idx := if g.dense l then ((List.range g.dim).map fun i => k i * (res + 1) ^ i).sum
      else (List.range g.dim).foldl (fun h i => h ^^^ (k i * hashMul i % 2 ^ 32)) 0 % 2 ^ g.logT.getD l 0
    (idx, w)

/-! ### Regions (R312) -/

def GridRec.levels (g : GridRec) : Nat := g.res.length

/-- The address of feature k of entry j of a level. -/
def GridRec.featAt (g : GridRec) (l j k : Nat) : Nat := g.table + (g.before l * g.feats + j * g.feats + k) * featSize g.ft

/-- The address of its gradient half-line. -/
def GridRec.gradAt (g : GridRec) (l j k : Nat) : Nat := g.grad + (g.before l * g.feats + j * g.feats + k) * 64

/-- The type of a feature. -/
def featIeee (ft : Nat) : Ieee := if ft = 0 then f32 else if ft = 1 then f16 else bf16

/-! ### What the three instructions check (R325) -/

/-- The coordinates of a lane. -/
def Ix.coords (x : Ix) (g : GridRec) (b : Opnd) (l : Nat) : List Num :=
  (List.range g.dim).map fun i => f32.decode (x.w.vget (b.idx + i) l).toNat

/-- Whether a run of v registers waits for an engine (R84). -/
def Ix.awaits (x : Ix) (v n : Nat) : Bool := x.w.await.any fun a => spansMeet a.v a.n v n

/-- Steps 1 and 2 of R325, and the scoreboard on ranges that the descriptor tells. -/
def Ix.gridStart (x : Ix) (a : Opnd) (ranges : GridRec → List (Nat × Nat)) : Except Eff GridRec :=
  match x.handle (x.u32 a) 2 with
  | .error c => .error (.trap (Trap.addr c x.c.bundle (x.u32 a)))
  | .ok bs =>
    let g := gridOf bs
    let rs := ranges g
    if rs.any fun r => decide (r.1 + r.2 > 256) || decide (r.1 + r.2 > x.w.held x.kr.rc) then
      .error (.trap (Trap.addr cREG_RANGE x.c.bundle 0))
    else if rs.any fun r => x.awaits r.1 r.2 then .error .stall
    else .ok g

/-- Step 4 for a feature that is read. -/
def Ix.featCause (x : Ix) (va : Nat) (tr : Tr) : Ranked :=
  match tr.cause false false, tr with
  | some c, _ => some c
  | none, .page p =>
    if !(p.cls == 0 && !p.hmem && !x.s.hostBiased (p.pa va)) then some (4, cPAGE_CLASS)
    else if paDie (p.pa va) != dieOf x.g.core then some (5, cREMOTE_PLAIN)
    else none
  | none, _ => none

/-- Whether a superstep operation's home lies outside the scope's instance (R413). -/
def Ix.beyond (x : Ix) (pa : Nat) : Bool :=
  x.kr.rc.superstep && !(paDie pa == dieOf x.g.core && decide (x.kr.rc.sscope ≥ 4)) &&
    !inScope x.kr.rc.sscope (dieOf x.g.core) (paDie pa)

/-- Step 4 for a half-line that is contributed to, and R413. -/
def Ix.gradCause (x : Ix) (va : Nat) (tr : Tr) : Ranked :=
  match tr.cause false true, tr with
  | some c, _ => some c
  | none, .page p =>
    let pa := p.pa va
    if !(p.cls == 1 && !p.hmem && !x.s.hostBiased pa) then some (4, cPAGE_CLASS)
    else if !x.s.reachable pa then some (5, cREMOTE_UNREACH)
    else if x.beyond pa then some (6, cPHASE_STATE)
    else none
  | none, _ => none

/-- The physical address that an access found. -/
def paOf (ps : List (Acc1 × Page)) (l va : Nat) : Nat :=
  match ps.find? fun p => p.1.1 == l && p.1.2.1 == va with
  | some p => p.2.pa va
  | none => 0

/-- A grid instruction joins the queue (R321). -/
def Ix.gridPost (x : Ix) (outs : List (Nat × Nat × Word)) (sums : List (Nat × Nat × List (Word × Nat))) (ft : Nat)
    (sends : List (Nat × Word)) (gen : BitVec 8) (flags : Cond) (v n : Nat) : Eff :=
  let (id, s) := x.s.postNo
  let j : GridJob := ⟨id, x.c.wid, x.c.warp, x.i, outs, sums, ft, sends, gen, x.parity, 0, x.w.rseq, flags.setWidth 5⟩
  x.to ((x.inWarp s fun w => { w with await := w.await ++ [⟨id, v, n, true, true⟩], rseq := w.rseq + 1 }).modCore x.g.core fun c =>
    { c with gridq := c.gridq ++ [j] })

def nan32 : Word := BitVec.ofNat 32 f32.nan

/-- IV when some lane has a NaN coordinate (R317, R318, R328). -/
def nanFlag (bad : List Nat) : Cond := if bad.isEmpty then cNone else cIV

/-! ### The instructions -/

/-- `GLD` (R316, R317, R326). -/
def execGld (h : Hd) (sat : Bool) (d a b : Opnd) (s : State) : Host.Outcome State Fault Refusal :=
  issue (.gld h sat d a b) s fun x =>
    if x.idle then x.pass
    else
      match x.gridStart a fun g => [(b.idx, g.dim), (d.idx, g.levels * g.feats)] with
      | .error e => e
      | .ok g =>
        let bad := x.lanes.filter fun l => (x.coords g b l).any Num.isNan
        let good := x.lanes.filter fun l => !bad.contains l
        let terms := (good.map fun l => ((List.range g.levels).map fun lv =>
          let cs := g.corners lv (x.coords g b l)
          (List.range g.feats).map fun k =>
            (d.idx + lv * g.feats + k, l, cs.map fun c => (BitVec.ofNat 32 (f32.encode c.2), g.featAt lv c.1 k))).flatten).flatten
        let as := (terms.map fun t => t.2.2.map fun c => ((t.2.1, c.2, featSize g.ft) : Acc1)).flatten
        match x.access as x.featCause with
        | .error e => e
        | .ok ps =>
          match poisonTrap x.s ps with
          | some t => .trap t
          | none =>
            x.gridPost ((bad.map fun l => (List.range (g.levels * g.feats)).map fun r => (d.idx + r, l, nan32)).flatten)
              (terms.map fun t => (t.1, t.2.1, t.2.2.map fun c => (c.1, paOf ps t.2.1 c.2))) g.ft [] 0 (nanFlag bad)
              d.idx (g.levels * g.feats)

/-- `GSC` (R318-R320, R327). -/
def execGsc (h : Hd) (gen : BitVec 8) (sat : Bool) (a b c : Opnd) (s : State) : Host.Outcome State Fault Refusal :=
  issue (.gsc h gen sat a b c) s fun x =>
    if x.idle then x.pass
    else
      match x.gridStart a fun g => [(b.idx, g.dim), (c.idx, g.levels * g.feats)] with
      | .error e => e
      | .ok g =>
        if g.grad = 0 then .trap (Trap.addr cGRID_BAD x.c.bundle 0)
        else
          let bad := x.lanes.filter fun l => (x.coords g b l).any Num.isNan
          let good := x.lanes.filter fun l => !bad.contains l
          let terms := (good.map fun l => ((List.range g.levels).map fun lv =>
            ((g.corners lv (x.coords g b l)).map fun m => (List.range g.feats).map fun k =>
              (l, g.gradAt lv m.1 k,
                fpMul f32.fmt .rne sat m.2 (f32.decode (x.w.vget (c.idx + lv * g.feats + k) l).toNat))).flatten).flatten).flatten
          match x.access (terms.map fun t => ((t.1, t.2.1, 64) : Acc1)) x.gradCause with
          | .error e => e
          | .ok ps =>
            x.gridPost [] [] 0 (terms.map fun t => (paOf ps t.1 t.2.1, BitVec.ofNat 32 (f32.encode t.2.2.1))) gen
              (terms.foldl (fun f t => f ||| t.2.2.2) (nanFlag bad)) 0 0

/-- `GIDX` (R328). -/
def execGidx (h : Hd) (w : Bool) (d a b : Opnd) (lv : BitVec 5) (s : State) : Host.Outcome State Fault Refusal :=
  issue (.gidx h w d a b lv) s fun x =>
    if x.idle then x.pass
    else
      match x.gridStart a fun g => [(b.idx, g.dim), (d.idx, 2 ^ g.dim)] with
      | .error e => e
      | .ok g =>
        if lv.toNat ≥ g.levels then .trap (Trap.addr cGRID_BAD x.c.bundle 0)
        else
          let bad := x.lanes.filter fun l => (x.coords g b l).any Num.isNan
          let res (l : Nat) : List Word :=
            if bad.contains l then List.replicate (2 ^ g.dim) (if w then nan32 else 0xFFFFFFFF#32)
            else (g.corners lv.toNat (x.coords g b l)).map fun c => BitVec.ofNat 32 (if w then f32.encode c.2 else c.1)
          x.gridPost ((x.lanes.map fun l => ((List.range (2 ^ g.dim)).zip (res l)).map fun p => (d.idx + p.1, l, p.2)).flatten) [] 0
            [] 0 (nanFlag bad) d.idx (2 ^ g.dim)

/-- `GQRY` (R329). -/
def execGqry (h : Hd) (d a : Opnd) (sel : BitVec 6) (s : State) : Host.Outcome State Fault Refusal :=
  issue (.gqry h d a sel) s fun x =>
    if x.idle then x.pass
    else
      match x.handle (x.u32 a) 2 with
      | .error c => .trap (Trap.addr c x.c.bundle (x.u32 a))
      | .ok bs =>
        let g := gridOf bs
        let n := sel.toNat
        let l := n - 2
        x.give d false (x.once (
          if n = 0 then fld bs 0x10 4 % 2 ^ 14
          else if n = 1 then g.levels * g.feats + 2 ^ g.dim * 2 ^ 16
          else if n < 34 ∧ l < g.levels then
            (if g.dense l then 2 ^ 30 else 0) + g.logT.getD l 0 * 2 ^ 25 + g.res.getD l 0
          else 0))

/-! ### The queue (R321, R323) -/

/-- The interpolation of one result (R316). -/
def gridSum (s : State) (ft : Nat) (sat : Bool) (cs : List (Word × Nat)) : Num × Cond :=
  cs.foldl (fun r c =>
    let phi := (featIeee ft).decode (natOfBytes (s.gread false c.2 (featSize ft)))
    let (x, q) := fpFma f32.fmt .rne sat (f32.decode c.1.toNat) phi r.1
    (x, r.2 ||| q)) (.fin false 0 0, cNone)

/-- Whether a grid instruction saturates. -/
def gridSat : Instr → Bool
  | .gld _ sat _ _ _ => sat
  | _ => false

/-- GRID_COMPLETE (R321): the head of the queue; a `GSC` when its last contribution has entered its stream (R320), a `GLD` while no page
that it reads is in flip (R350). -/
def execGridComplete (core : Nat) (s : State) : Host.Outcome State Fault Refusal :=
  match (s.core core).gridq with
  | [] => .next s
  | j :: rest =>
    if decide (j.sent < j.sends.length) || j.sums.any fun t => t.2.2.any fun c => s.inFlip c.2 then .next s
    else
      let rs := j.sums.map fun t => (t.1, t.2.1, gridSum s j.ftype (gridSat j.instr) t.2.2)
      let s := j.sums.foldl (fun s t => t.2.2.foldl (fun s c => s.domeRead core false c.2 (featSize j.ftype)) s) s
      let s := s.modCore core fun c => { c with gridq := rest }
      .next (s.modWarp j.wid j.warp fun w =>
        let w := j.outs.foldl (fun w o => w.vset o.1 o.2.1 o.2.2) w
        let w := rs.foldl (fun w r => w.vset r.1 r.2.1 (BitVec.ofNat 32 (f32.encode r.2.2.1))) w
        ((w.raise (rs.map fun r => (r.2.1, r.2.2.2))).raise [(0, j.flags.setWidth 6)]).paid j.id s.past.length)

/-- The message of a scatter's contribution (R319). -/
def GridJob.send (j : GridJob) : Option Send :=
  j.sends[j.sent]?.map fun c =>
    ⟨c.1, 1, Ty.f32.bits.toNat, 0, false, false, j.parity, bytesOfNat 8 c.2.toNat ++ bytesOfNat 4 j.gen.toNat, none⟩

/-- GSC_SEND (R320): the next contribution of the scatter at the head of the queue enters its stream, if there is room. -/
def execGscSend (core : Nat) (s : State) : Host.Outcome State Fault Refusal :=
  match (s.core core).gridq with
  | [] => .next s
  | j :: rest =>
    match j.send with
    | none => .next s
    | some x =>
      let agent := coresAgent (dieOf core)
      if !s.roomFor agent true [x] then .next s
      else
        let s := (s.enter agent (.warp j.wid j.warp j.ord core) false none x).2
        .next (s.modCore core fun c => { c with gridq := { j with sent := j.sent + 1 } :: rest })

end Sys2Proof.Machine
end

