-- ==== Sys2Proof/Machine/Ord.lean ====
section
/-! DEFINITION. The ORD group (14 R342, R348-R351) and bias flips: fences, flips of a page's bias, the state of a page. -/

namespace Sys2Proof.Machine

/-! ### Fences (R342, R349) -/

/-- A scope's code. -/
def scopeCode (sc : Scope) : Nat := sc.bits.toNat

/-- Whether an operation of a warp that was issued before `ord` is not yet acknowledged, or a contribution not yet sent. -/
def State.owesBefore (s : State) (die wid warp ord : Nat) : Bool :=
  let mine (j : GridJob) : Bool := j.wid == wid && j.warp == warp && decide (j.ord < ord) && decide (j.sent < j.sends.length)
  ((s.warpOps die wid warp).any fun o => decide (o.2.ord < ord)) ||
    match look s.wgs wid with
    | some g => (s.core g.core).gridq.any mine || g.savedGrid.any mine
    | none => false

/-- Whether every remote operation of the warp has been acknowledged (R410, R376). -/
def Ix.allAcked (x : Ix) : Bool := !x.s.owesBefore (dieOf x.g.core) x.c.wid x.c.warp x.w.rseq

/-- Whether a fence is a release whose kinds include remote operations; no kind means all. -/
def fenceRemote (mm : Mm) (kr kg kl : Bool) : Bool := (mm.ord == .rel || mm.ord == .ar) && (kr || (!kg && !kl))

/-- Whether a home lies in the scope instance that a release fence covers: at `.die` the die's own spires, at `.pkg` the
package, at `.pod` or `.sys` any home. -/
def fenceCovers (scope die home : Nat) : Bool := inScope scope die home

/-- Whether every remote operation of the warp that a fence covers has been acknowledged. -/
def Ix.fenceMet (x : Ix) (mm : Mm) (kr kg kl : Bool) : Bool :=
  !fenceRemote mm kr kg kl ||
    (x.s.warpOps (dieOf x.g.core) x.c.wid x.c.warp).all fun o =>
      !fenceCovers (scopeCode mm.scope) (dieOf x.g.core) (paDie (msgPa o.2.msg))

/-- A fence whose conditions hold. -/
def Ix.fenced (x : Ix) (mm : Mm) : Eff := x.to (x.s.acquired x.g.core mm)

/-- `FENCE` (R349): earlier accesses of the warp have been made when it issues; it waits for remote acknowledgements. -/
def execFence (h : Hd) (mm : Mm) (kr kg kl : Bool) (s : State) : Host.Outcome State Fault Refusal :=
  issue (.fence h mm kr kg kl) s fun x =>
    if x.idle then x.pass
    else if x.fenceMet mm kr kg kl then x.fenced mm
    else .hold (.fence true) x.s

/-! ### Bias (R350, R357, R460) -/

/-- The blocks of 64 KiB of a page. -/
def pageBlocks (base size : Nat) : List Nat := (List.range (size / 65536)).map fun i => base / 65536 + i

/-- The bias bits of a page set or cleared. -/
def State.setBias (s : State) (base size : Nat) (host : Bool) : State :=
  let bs := pageBlocks base size
  { s with bias := if host then s.bias.filter (fun b => !bs.contains b) ++ bs else s.bias.filter fun b => !bs.contains b }

/-- Lines of the L1s of a die's cores outside a page. -/
def State.dropL1Page (s : State) (die base size : Nat) : State :=
  { s with cores := s.cores.map fun p => (p.1, if dieOf p.1 = die then
      { p.2 with l1 := p.2.l1.filter fun l => !(decide (base ≤ 128 * l.1) && decide (128 * l.1 < base + size)) } else p.2) }

/-- The checks of `BFLIP` after translation, in order (R350). -/
def Ix.flipCause (x : Ix) (va : Nat) (tr : Tr) : Ranked :=
  match tr.cause false true, tr with
  | some c, _ => some c
  | none, .page p =>
    if p.cls != 0 || p.hmem then some (4, cPAGE_CLASS)
    else if paDie (p.pa va) != dieOf x.g.core then some (5, cREMOTE_PLAIN)
    else none
  | none, _ => none

/-- The end of a `BFLIP`: its status, and an acquire at `.sys` (R350). -/
def Ix.flipped (x : Ix) (d : Opnd) (r : Nat) : Eff := x.giveIn (x.s.modCore x.g.core Core.dropL1) d false (x.once r)

/-- `BFLIP` (R350): a release, which waits for the acknowledgements of the warp's remote operations, then the flip. -/
def execBflip (h : Hd) (host : Bool) (d a : Opnd) (s : State) : Host.Outcome State Fault Refusal :=
  issue (.bflip h host d a) s fun x =>
    if x.idle then x.pass
    else
      match x.access [(firstOf x.lanes, x.u64 a, 1)] x.flipCause with
      | .error e => x.all e
      | .ok [] => .stall
      | .ok (p :: _) =>
        if !x.allAcked then .stall
        else if x.s.hostBiased (p.2.pa (x.u64 a)) == host then x.flipped d 1
        else .hold .flip { x.s with
          flips := x.s.flips ++ [⟨p.2.frame, p.2.size, host, some (x.c.wid, x.c.warp), dieOf x.g.core⟩] }

/-- The number of a page size (R351). -/
def sizeCode (size : Nat) : Nat := if size = 2 ^ 30 then 2 else if size = 2 ^ 21 then 1 else 0

/-- The state of a page as `BQRY` reports it (R351). -/
def State.pageState (s : State) (p : Page) (pa : Nat) : Nat :=
  if p.hmem then 32 + sizeCode p.size * 4 + 1
  else p.cls * 64 + sizeCode p.size * 4 + (if s.inFlip pa then 2 else 0) + (if s.hostBiased pa then 1 else 0)

/-- The causes of `BQRY` (R351). -/
def Ix.queryCause (x : Ix) (va : Nat) (tr : Tr) : Ranked :=
  match tr.cause false false, tr with
  | some c, _ => some c
  | none, .page p => if !p.hmem && paDie (p.pa va) != dieOf x.g.core then some (5, cREMOTE_PLAIN) else none
  | none, _ => none

/-- `BQRY` (R351). -/
def execBqry (h : Hd) (d a : Opnd) (s : State) : Host.Outcome State Fault Refusal :=
  issue (.bqry h d a) s fun x =>
    match x.checkAll ((x.computing d).map fun l => (l, x.rd64 a l, 1)) x.queryCause with
    | .error e => x.onceLanes d e
    | .ok ps => x.give d false (ps.map fun p => (p.1.1, BitVec.ofNat 64 (x.s.pageState p.2 (p.2.pa p.1.2.1))))

/-- The page of a flip has the bias it asks for. -/
def State.flipMet (s : State) (f : Flip) : Bool := s.hostBiased f.base == f.host

/-- A flip's effect: copies of the page are given up and its bias changes (R350). -/
def State.flipPage (s : State) (f : Flip) : State :=
  let s := if f.host then
    { s with wgs := dropLines f.base f.size none s.wgs }.dropL1Page (f.base / 2 ^ 44) f.base f.size else s
  s.setBias f.base f.size f.host

/-- FLIP_COMPLETE (R350, R460): flips of one page are applied in order, and a later one sees the bias an earlier one left. -/
def execFlipComplete (k : Nat) (s : State) : Host.Outcome State Fault Refusal :=
  match s.flips[k]? with
  | none => .next s
  | some f =>
    if (s.flips.take k).any fun e => decide (e.base < f.base + f.size) && decide (f.base < e.base + e.size) then .next s
    else
      let met := s.flipMet f
      let s1 := { s with flips := s.flips.eraseIdx k }
      let s2 := if met then s1 else s1.flipPage f
      match f.warp with
      | none => .next (s2.modDie f.die fun d => { d with biasBusy := false, biasRes := met })
      | some (wid, warp) =>
        s2.endHold wid warp fun h x =>
          match h.wait, h.instr with
          | .flip, .bflip _ _ d _ => some (x.flipped d (if met then 1 else 0))
          | _, _ => none

end Sys2Proof.Machine
end

