-- ==== Sys2Proof/Machine/Key.lean ====
section
/-! DEFINITION. The KEY group (12): the canonical layout, spills and the overflow list, the keyed queue and its instructions. -/

namespace Sys2Proof

/-- The identity of a value kind (R293). -/
def KeyKind.identity : KeyKind → BitVec 64
  | .min => 0x7FFFFFFFFFFFFFFF#64
  | .max => 0x8000000000000000#64
  | _ => 0#64

/-- Combining a value with a contribution (R293). -/
def KeyKind.combine (k : KeyKind) (v x : BitVec 64) : BitVec 64 :=
  match k with
  | .add | .fix => v + x
  | .min => if x.toInt < v.toInt then x else v
  | .max => if v.toInt < x.toInt then x else v
  | .or => v ||| x

end Sys2Proof

namespace Sys2Proof.Machine

/-! ### The table (R294-R297) -/

/-- The key of an empty slot, which names no entry (R294). -/
def noKey : BitVec 64 := BitVec.allOnes 64

/-- A key and its value. -/
abbrev KeyVal := BitVec 64 × BitVec 64

/-- The home bucket of a key in a claim of n buckets (R295). -/
def homeBucket (n : Nat) (k : BitVec 64) : Nat := (k * 0xB5A391E74C2D6F83#64).toNat / 2 ^ (64 - n.log2)

/-- The distance of a key in bucket j (R295). -/
def keyDist (n j : Nat) (k : BitVec 64) : Nat := (j + n - homeBucket n k) % n

/-- The entries of a bucket. -/
def bucketOf (t : Tab KeyVal) (j : Nat) : List KeyVal := (List.range 4).filterMap fun i => look t (4 * j + i)

/-- A bucket with entries in ascending order of key, empty slots last (R296). -/
def bucketPut (t : Tab KeyVal) (j : Nat) (es : List KeyVal) : Tab KeyVal :=
  let t := (List.range 4).foldl (fun t i => del t (4 * j + i)) t
  ((List.range 4).zip (sortOn (fun e => e.1.toNat) es)).foldl (fun t p => ins t (4 * j + p.1) p.2) t

/-- The entry of bucket j with the smallest distance, ties to the largest key (R296). -/
def nearest (n j : Nat) : List KeyVal → Option KeyVal
  | [] => none
  | e :: es =>
    match nearest n j es with
    | none => some e
    | some r =>
      let a := keyDist n j e.1
      let b := keyDist n j r.1
      if a < b || (a == b && decide (r.1 < e.1)) then some e else some r

/-- The loop of R296, carrying c at bucket j and distance d: the table, and the entry that reaches distance 32. Each turn raises the
sum of the distances of the table's entries and the one carried by 1, and all of them stay below 32, so 124n + 32 turns end it. -/
def carry (n : Nat) : Nat → Nat → Nat → KeyVal → Tab KeyVal → Tab KeyVal × Option KeyVal
  | 0, _, _, c, t => (t, some c)
  | k + 1, j, d, c, t =>
    let es := bucketOf t j
    if d ≥ 32 then (t, some c)
    else if es.length < 4 then (bucketPut t j (c :: es), none)
    else
      match nearest n j es with
      | none => (t, some c)
      | some r =>
        let dr := keyDist n j r.1
        if dr < d || (dr == d && decide (c.1 < r.1)) then
          carry n k ((j + 1) % n) (dr + 1) r (bucketPut t j (c :: es.filter fun e => e.1 != r.1))
        else carry n k ((j + 1) % n) (d + 1) c t

/-- Insert an absent key (R297). -/
def keyInsert (n : Nat) (t : Tab KeyVal) (c : KeyVal) : Tab KeyVal × Option KeyVal := carry n (124 * n + 64) (homeBucket n c.1) 0 c t

/-- The canonical layout of some entries (R296). -/
def canonical (n : Nat) (es : List KeyVal) : Tab KeyVal :=
  (sortOn (fun e => e.1.toNat) es).foldl (fun t e => (keyInsert n t e).1) []

/-- The place of a key in the table. -/
def keyFind (t : Tab KeyVal) (k : BitVec 64) : Option Nat := (t.find? fun p => p.2.1 == k).map (·.1)

/-! ### Values (R293, R305) -/

/-- A floating-point contribution in units of 2^W; none when it is rejected (R305). -/
def fixContribution (w : Int) (x : Num) : Option (BitVec 64) × Cond :=
  match x with
  | .fin n m e =>
    let (k, lost) := inUnits w m e
    if k ≥ 2 ^ 63 then (none, cIV) else (some (BitVec.ofInt 64 (sgn n k)), if lost then cIX else cNone)
  | _ => (none, cIV)

/-! ### The overflow list (R298, R299) -/

/-- A cause that the keyed unit meets, with its rank (R359, R202), and the address concerned. -/
abbrev KeyBad := (Nat × BitVec 7) × Nat

/-- Where the keyed unit finds an address of the list or its count word: normal, device-biased, on the die. -/
def State.keyPa (s : State) (core ctx va : Nat) : Except KeyBad Nat × State :=
  let (tr, s) := s.engXlate core ctx va
  match plainCause s core .atomic va tr, tr with
  | some c, _ => (.error (c, va), s)
  | none, .page p => (.ok (p.pa va), s)
  | none, _ => (.error ((1, cPAGE_ABSENT), va), s)

/-- A number read there, if it can be. -/
def State.keyRead (s : State) (core ctx va n : Nat) : Except KeyBad Nat × State :=
  match s.keyPa core ctx va with
  | (.ok pa, s) =>
    if s.poisoned pa n then (.error ((6, cMEM_UNCORR), va), s)
    else (.ok (natOfBytes (s.gread false pa n)), s.domeRead core false pa n)
  | (.error c, s) => (.error c, s)

/-- Write bytes there for a warp: through the dome, and the L1's copy (R197, R335). -/
def State.keyWrite (s : State) (core ctx : Nat) (who : Nat × Nat) (va : Nat) (bs : List Byte) : State :=
  match s.keyPa core ctx va with
  | (.ok pa, s) => ((s.gwrite none false pa bs).mine who).modCore core fun c => c.l1Store pa bs
  | (.error _, s) => s

/-- The record that holds a key among the first n, in ascending index. -/
def State.listFind (s : State) (core ctx base : Nat) (k : BitVec 64) : Nat → Nat → Except KeyBad (Option Nat) × State
  | 0, _ => (.ok none, s)
  | n + 1, i =>
    match s.keyRead core ctx (base + 16 * i) 8 with
    | (.error c, s) => (.error c, s)
    | (.ok v, s) => if v = k.toNat then (.ok (some i), s) else s.listFind core ctx base k n (i + 1)

/-- A keyed instruction under way: the machine, the claim, results, what failed. -/
structure KeyRun where
  s : State
  /-- its workgroup and warp -/
  who : Nat × Nat
  cl : Claim
  /-- lane, found or made, value -/
  out : List (Nat × Bool × BitVec 64)
  conds : Cond
  spills : List Nat
  /-- lanes that meet a cause at the list or its word: lane, address, cause -/
  bad : List (Nat × Nat × Ranked)
  /-- lanes whose spill would pass the capacity -/
  full : List Nat
  deriving Repr, Inhabited

/-- A lane meets a cause. -/
def KeyRun.fail (r : KeyRun) (s : State) (l : Nat) (b : KeyBad) : KeyRun := { r with s := s, bad := r.bad ++ [(l, b.2, some b.1)] }

/-- A carried entry spills (R298). -/
def KeyRun.spill (r : KeyRun) (core ctx l : Nat) (e : KeyVal) : KeyRun :=
  match r.cl.ov with
  | none => { r with full := r.full ++ [l] }
  | some o =>
    match r.s.keyRead core ctx o.word 8 with
    | (.error c, s) => r.fail s l c
    | (.ok i, s) =>
      if i ≥ o.cap then { r with s := s, full := r.full ++ [l] }
      else
        match s.keyPa core ctx (o.list + 16 * i) with
        | (.error c, s) => r.fail s l c
        | (.ok _, s) =>
          let s := s.keyWrite core ctx r.who o.word (bytesOfNat 8 (i + 1))
          let s := s.keyWrite core ctx r.who (o.list + 16 * i) (bytesOfNat 8 e.1.toNat ++ bytesOfNat 8 e.2.toNat)
          { r with s := s, spills := r.spills ++ [i], cl := { r.cl with ovfn := r.cl.ovfn + 1 } }

/-- Where a key is: in the table, in the list, nowhere. -/
inductive KeyAt
  | slot (n : Nat) (v : BitVec 64) | listed (i : Nat) (v : BitVec 64) | absent
  deriving DecidableEq, Repr, Inhabited

def KeyRun.find (r : KeyRun) (core ctx l : Nat) (k : BitVec 64) : KeyAt × KeyRun :=
  match keyFind r.cl.slots k with
  | some n => (.slot n (lookD r.cl.slots n (0, 0)).2, r)
  | none =>
    match r.cl.ov with
    | none => (.absent, r)
    | some o =>
      match r.s.listFind core ctx o.list k r.cl.ovfn 0 with
      | (.error c, s) => (.absent, r.fail s l c)
      | (.ok none, s) => (.absent, { r with s := s })
      | (.ok (some i), s) =>
        match s.keyRead core ctx (o.list + 16 * i + 8) 8 with
        | (.ok v, s) => (.listed i (BitVec.ofNat 64 v), { r with s := s })
        | (.error c, s) => (.absent, r.fail s l c)

/-- Insert an absent key; after a spill the keys that remain lie in their canonical layout (R297). -/
def KeyRun.add (r : KeyRun) (core ctx l : Nat) (e : KeyVal) : KeyRun :=
  match keyInsert r.cl.n r.cl.slots e with
  | (t, none) => { r with cl := { r.cl with slots := t } }
  | (t, some c) => ({ r with cl := { r.cl with slots := canonical r.cl.n (vals t) } } : KeyRun).spill core ctx l c

/-- Set the value of a key found. -/
def KeyRun.set (r : KeyRun) (core ctx : Nat) (k v : BitVec 64) : KeyAt → KeyRun
  | .slot n _ => { r with cl := { r.cl with slots := ins r.cl.slots n (k, v) } }
  | .listed i _ =>
    match r.cl.ov with
    | some o => { r with s := r.s.keyWrite core ctx r.who (o.list + 16 * i + 8) (bytesOfNat 8 v.toNat) }
    | none => r
  | .absent => r

/-- Delete a key found (R297, R299). -/
def KeyRun.remove (r : KeyRun) (core ctx : Nat) (k : BitVec 64) : KeyAt → KeyRun
  | .slot _ _ => { r with cl := { r.cl with slots := canonical r.cl.n ((vals r.cl.slots).filter fun e => e.1 != k) } }
  | .listed i _ =>
    match r.cl.ov with
    | some o => { r with s := r.s.keyWrite core ctx r.who (o.list + 16 * i) (bytesOfNat 8 noKey.toNat) }
    | none => r
  | .absent => r

def KeyAt.found : KeyAt → Bool
  | .absent => false
  | _ => true

def KeyAt.value : KeyAt → BitVec 64
  | .slot _ v => v
  | .listed _ v => v
  | .absent => 0

def KeyRun.result (r : KeyRun) (l : Nat) (b : Bool) (v : BitVec 64) : KeyRun := { r with out := r.out ++ [(l, b, v)] }

/-! ### One lane of each instruction (R306) -/

def Ix.keyOf (x : Ix) (a : Opnd) (l : Nat) : BitVec 64 := BitVec.ofNat 64 (x.rd64 a l)

def Ix.kinsLane (x : Ix) (a b : Opnd) (r : KeyRun) (l : Nat) : KeyRun :=
  let k := x.keyOf a l
  if k = noKey then r.result l false 0
  else
    let (e, r) := r.find x.g.core x.kr.ctx l k
    if e.found then r.result l false 0 else (r.add x.g.core x.kr.ctx l (k, x.keyOf b l)).result l true 0

def Ix.kprbLane (x : Ix) (a : Opnd) (r : KeyRun) (l : Nat) : KeyRun :=
  let k := x.keyOf a l
  if k = noKey then r.result l false 0
  else
    let (e, r) := r.find x.g.core x.kr.ctx l k
    r.result l e.found e.value

def Ix.kdelLane (x : Ix) (a : Opnd) (r : KeyRun) (l : Nat) : KeyRun :=
  let k := x.keyOf a l
  if k = noKey then r.result l false 0
  else
    let (e, r) := r.find x.g.core x.kr.ctx l k
    (r.remove x.g.core x.kr.ctx k e).result l e.found 0

/-- The contribution of a lane of `KACC`; none when it is rejected (R305). -/
def Ix.kaccValue (x : Ix) (ty : Ty) (b : Opnd) (w : Int) (l : Nat) : Option (BitVec 64) × Cond :=
  match ty with
  | .f32 | .f64 => fixContribution w (ty.ieee.decode (x.rd ty b l))
  | _ => (some (BitVec.ofNat 64 (x.rd64 b l)), cNone)

def Ix.kaccLane (x : Ix) (ty : Ty) (a b : Opnd) (r : KeyRun) (l : Nat) : KeyRun :=
  let k := x.keyOf a l
  if k = noKey then r
  else
    let core := x.g.core
    let (v, c) := x.kaccValue ty b r.cl.w l
    let r := { r with conds := r.conds ||| c, cl := { r.cl with rej := r.cl.rej || v.isNone } }
    let (e, r) := r.find core x.kr.ctx l k
    let (e, r) := if e.found then (e, r)
      else
        let r := r.add core x.kr.ctx l (k, r.cl.kind.identity)
        r.find core x.kr.ctx l k
    match v with
    | some v => r.set core x.kr.ctx k (r.cl.kind.combine e.value v) e
    | none => r

/-- A keyed instruction on all its lanes, in ascending order (R300); `s` and the claim as they stand. -/
def Ix.keyRun (x : Ix) (cl : Claim) : KeyRun :=
  let r0 : KeyRun := ⟨x.s, (x.c.wid, x.c.warp), cl, [], cNone, [], [], []⟩
  match x.i with
  | .kins _ _ a b => x.lanes.foldl (x.kinsLane a b) r0
  | .kprb _ _ a _ => x.lanes.foldl (x.kprbLane a) r0
  | .kdel _ _ a => x.lanes.foldl (x.kdelLane a) r0
  | .kacc _ ty a b => x.lanes.foldl (x.kaccLane ty a b) r0
  | _ => r0

/-- What fails a keyed instruction before any lane acts (R306, R311): the first cause that a lane meets at the list, else a full
list, with the lanes whose inserts would make the failing spills. -/
def KeyRun.trap (r : KeyRun) : Option Trap :=
  match firstCause r.bad with
  | some t => some t
  | none => if r.full.isEmpty then none else some (Trap.plain cKEY_FULL (maskOf r.full))

/-- The results of a keyed instruction in its warp (R306). -/
def Ix.keyed (x : Ix) (r : KeyRun) (w : Warp) : Warp :=
  let hits : List LaneVal := r.out.map fun o => (o.1, if o.2.1 then 1 else 0)
  let pred (d : Opnd) (w : Warp) : Warp :=
    match d with
    | .p n => w.writeD (.p n) false hits
    | _ => w
  match x.i with
  | .kins _ d _ _ => pred d w
  | .kprb _ d _ c => pred c (w.writeD d true (r.out.map fun o => (o.1, o.2.2)))
  | .kdel _ d _ => pred d w
  | _ => w.raise [(0, r.conds)]

/-- The end of a keyed instruction that nothing fails: it leaves the queue. -/
def Ix.keyEnd (x : Ix) (r : KeyRun) (s : State) : Eff :=
  x.to ((x.inWarp (s.modWg x.c.wid fun g => { g with claim := some r.cl }) (x.keyed r)).modCore x.g.core fun k =>
    k.keyOut x.c.wid x.c.warp)

/-- Whether an instruction returns a value that D2 logs (R301, R426). -/
def keyedReturns : Instr → Bool
  | .kins _ _ _ _ | .kprb _ _ _ _ | .kdel _ _ _ => true
  | _ => false

/-- A keyed instruction goes on when one of its `all` acts or logged events is made: the last applies it whole (R301; L80). -/
def Ix.keyStep (x : Ix) (all : Nat) (r : KeyRun) (wait : Wait) : Eff :=
  if x.w.keyMade + 1 < all then .hold wait (x.inWarp x.s fun w => { w with keyMade := w.keyMade + 1 })
  else x.keyEnd r r.s

/-- A keyed instruction whose act on a channel is granted: each of its spills is an act of its own (R421, R422). -/
def Ix.keyGranted (x : Ix) (ch : Nat) : Eff :=
  match x.g.claim with
  | none => .trap (Trap.plain cKEY_STATE x.c.bundle)
  | some cl =>
    let r := x.keyRun cl
    match r.trap with
    | some t => .trap t
    | none => x.keyStep r.spills.length r (.act ch)

/-- Whether a page of the claim's overflow list is in flip. -/
def Ix.listFlips (x : Ix) (cl : Claim) : Bool :=
  match cl.ov with
  | none => false
  | some o => [o.word, o.list, o.list + 16 * o.cap - 16].any fun va =>
    match (x.s.engXlate x.g.core x.kr.ctx va).1 with
    | .page p => !p.hmem && x.s.inFlip (p.pa va)
    | _ => false

/-- The keyed unit comes to the head of its queue: the instruction is applied, or waits there for its acts or for its turns in the
log (R298, R301). One whose acts had all been made before a pre-emption is applied. -/
def Ix.keyTurn (x : Ix) : Option Eff :=
  match x.g.claim with
  | none => some (.trap (Trap.plain cKEY_STATE x.c.bundle))
  | some cl =>
    if x.listFlips cl then none
    else
      let r := x.keyRun cl
      match r.trap with
      | some t => some (.trap t)
      | none =>
        let spills := !r.spills.isEmpty
        if x.logs && (keyedReturns x.i || spills) then some (.hold (.logged none) x.s)
        else if x.orders && decide (x.w.keyMade < r.spills.length) then some (x.askAct cl.ch)
        else some (x.keyEnd r r.s)

/-! ### Claims (R292, R307, R308) -/

/-- The claim of a workgroup. -/
def Wg.claimed (g : Wg) : Bool := g.claim.isSome

/-- The buckets of a core that a run meets. -/
def State.runFree (s : State) (core base n : Nat) : Bool :=
  s.wgs.all fun p => match p.2.claim with
    | some c => p.2.core != core || p.2.off || !(decide (base < c.base + c.n) && decide (c.base < base + n))
    | none => true

/-- The lowest run of n free buckets at a multiple of n (R292). -/
def State.findRun (s : State) (core n : Nat) : Option Nat :=
  let all := (s.core core).carve.key * 1024
  (List.range (all / n)).findSome? fun i => if s.runFree core (n * i) n then some (n * i) else none

/-- Whether a keyed instruction of a workgroup is in the queue. -/
def Core.keyBusy (c : Core) (wid : Nat) : Bool := c.keyq.any fun j => j.wid == wid

/-- The `KEY_STATE` conditions of `KCLAIM` (R308). -/
def Ix.claimBad (x : Ix) (kind : KeyKind) (ch : BitVec 3) (w : BitVec 12) (n : Nat) : Bool :=
  x.g.claim.isSome || !(decide (64 ≤ n) && decide (n ≤ 4096) && 2 ^ n.log2 == n) ||
    decide (n > (x.s.core x.g.core).carve.key * 1024) || (kind != .fix && w != 0) ||
    decide (w.toInt < -1074) || decide (w.toInt > 1023) || (ch != 0 && x.kr.rc.det != 1)

def Ix.claim (x : Ix) (kind : KeyKind) (ch : BitVec 3) (d : Opnd) (w : BitVec 12) (n : Nat) (ov : Option Overflow) (s : State) : Eff :=
  match x.s.findRun x.g.core n with
  | none => x.give d false (x.once 1)
  | some base =>
    x.giveIn (s.modWg x.c.wid fun g => { g with claim := some ⟨base, n, kind, w.toInt, ov, ch.toNat, [], 0, false⟩ }) d false (x.once 0)

/-- `KCLAIM` (R308). -/
def execKclaim (h : Hd) (kind : KeyKind) (ch : BitVec 3) (d a b : Opnd) (w : BitVec 12) (s : State) :
    Host.Outcome State Fault Refusal :=
  issue (.kclaim h kind ch d a b w) s fun x =>
    if x.idle then x.pass
    else
      let n := x.u32 a
      let go (ov : Option Overflow) : Eff :=
        if x.claimBad kind ch w n then .trap (Trap.plain cKEY_STATE x.c.bundle)
        else
          match ov with
          | none => x.claim kind ch d w n none x.s
          | some o =>
            match x.access [(firstOf x.lanes, o.word, 8)] fun va tr => plainCause x.s x.g.core .atomic va tr with
            | .error e => x.all e
            | .ok [] => .stall
            | .ok (p :: _) => x.claim kind ch d w n ov (x.gstore x.s o.word p.2 (zeros 8))
      if x.u32 b = 0 then go none
      else
        match x.handle (x.u32 b) 5 with
        | .error c => .trap (Trap.plain c x.on)
        | .ok bs => go (some ⟨fld bs 0 8, fld bs 8 8, fld bs 0x10 2⟩)

/-- `KFREE` (R308): after every earlier keyed instruction of the workgroup. -/
def execKfree (h : Hd) (s : State) : Host.Outcome State Fault Refusal :=
  issue (.kfree h) s fun x =>
    if x.idle || x.g.claim.isNone then x.pass
    else if (x.s.core x.g.core).keyBusy x.c.wid then .stall
    else x.to (x.s.modWg x.c.wid fun g => { g with claim := none })

/-- Keyed status (R307). -/
def Claim.status (c : Claim) : Nat :=
  let maxd := c.slots.foldl (fun m p => max m (keyDist c.n (p.1 / 4) p.2.1)) 0
  1 + c.n.log2 * 2 ^ 16 + c.kind.bits.toNat * 2 ^ 20 + (if c.rej then 2 ^ 23 else 0) + maxd * 2 ^ 27 + c.slots.length * 2 ^ 32 +
    c.ovfn * 2 ^ 48

/-- `KSTAT` (R307). -/
def execKstat (h : Hd) (clr : Bool) (d : Opnd) (s : State) : Host.Outcome State Fault Refusal :=
  issue (.kstat h clr d) s fun x =>
    if x.idle then x.pass
    else if (x.s.core x.g.core).keyq.any fun j => j.wid == x.c.wid && j.warp == x.c.warp then .stall
    else
      let v := match x.g.claim with
        | some c => c.status
        | none => 0
      x.giveIn (if clr then x.s.modWg x.c.wid fun g => { g with claim := g.claim.map fun c => { c with rej := false } } else x.s)
        d true (x.once v)

/-! ### The queue (R301, R306) -/

/-- A keyed instruction that a trap stopped issues again: its acts and logged events that were made stay made (R422, R428; L80). -/
def Warp.keyAgain (w : Warp) (c : Cur) : Warp :=
  match w.keyKept with
  | some (pc, m, n) => if !w.hmode && pc == c.pc && m == c.bundle then { w with keyMade := n } else w
  | none => w

/-- A keyed instruction joins the queue, and its warp waits until it has been applied. -/
def Ix.keyPost (x : Ix) (bad : Claim → Bool) : Eff :=
  if x.idle then x.pass
  else
    match x.g.claim with
    | none => .trap (Trap.plain cKEY_STATE x.c.bundle)
    | some c =>
      if bad c then .trap (Trap.plain cKEY_STATE x.c.bundle)
      else
        let (n, s) := x.s.postNo
        .hold .keyed ((x.inWarp s fun w => w.keyAgain x.c).modCore x.g.core fun k =>
          { k with keyq := k.keyq ++ [⟨n, x.c.wid, x.c.warp, x.i, []⟩] })

/-- `KINS`, `KPRB`, `KDEL`, `KACC` (R306). -/
def execKins (h : Hd) (d a b : Opnd) (s : State) : Host.Outcome State Fault Refusal :=
  issue (.kins h d a b) s fun x => x.keyPost fun _ => false

def execKprb (h : Hd) (d a c : Opnd) (s : State) : Host.Outcome State Fault Refusal :=
  issue (.kprb h d a c) s fun x => x.keyPost fun _ => false

def execKdel (h : Hd) (d a : Opnd) (s : State) : Host.Outcome State Fault Refusal :=
  issue (.kdel h d a) s fun x => x.keyPost fun _ => false

def execKacc (h : Hd) (ty : Ty) (a b : Opnd) (s : State) : Host.Outcome State Fault Refusal :=
  issue (.kacc h ty a b) s fun x => x.keyPost fun c => (ty == .f32 || ty == .f64) && c.kind != .fix

/-- `KDRN` (R309): checked, then posted; its stores are ones of its warp. -/
def execKdrn (h : Hd) (z : Bool) (d a b : Opnd) (s : State) : Host.Outcome State Fault Refusal :=
  issue (.kdrn h z d a b) s fun x =>
    match x.ownBar d with
    | .error e => e
    | .ok (bar, _) =>
      let at_ := x.u32 a
      let cap := x.u32 b
      if x.g.claim.isNone || decide (cap > 65535) then .trap (Trap.plain cKEY_STATE x.c.bundle)
      else if at_ % 16 != 0 then .trap (Trap.addr cMISALIGNED x.c.bundle at_)
      else
        match x.localRange at_ (16 + 16 * cap) with
        | some e => e
        | none =>
          let (n, s) := x.s.postNo
          x.to ((x.inWarp s fun w => { w with await := w.await ++ [⟨n, 0, 0, true, false⟩] }).modCore x.g.core fun k =>
            { k with keyq := k.keyq ++ [⟨n, x.c.wid, x.c.warp, x.i, [bar, at_, cap]⟩] })

/-- The list's records that are not deleted, in order, and whether one of them could not be read (R359, R360). -/
def State.listRecords (s : State) (core ctx : Nat) (o : Overflow) (n : Nat) : (List KeyVal × Bool) × State :=
  (List.range n).foldl (fun r i =>
    match r.2.keyRead core ctx (o.list + 16 * i) 16 with
    | (.ok v, s) =>
      let e : KeyVal := (BitVec.ofNat 64 v, BitVec.ofNat 64 (v / 2 ^ 64))
      ((if e.1 = noKey then r.1.1 else r.1.1 ++ [e], r.1.2), s)
    | (.error _, s) => ((r.1.1, true), s)) (([], false), s)

/-- A drain (R309): the entries by home bucket and key, then the list; the barrier and source 9. A list that cannot be read whole
makes it end with a fault: the barrier's `F`, and nothing cleared (R359; L19). -/
def State.keyDrain (s : State) (core : Nat) (j : KeyJob) (z : Bool) : State :=
  match look s.wgs j.wid, look s.kernels (j.wid / 2 ^ 48) with
  | some g, some k =>
    match g.claim with
    | none => s
    | some c =>
      let table := sortOn (fun e => homeBucket c.n e.1 * 2 ^ 64 + e.1.toNat) (vals c.slots)
      let ((listed, failed), s) := match c.ov with
        | some o => s.listRecords core k.ctx o c.ovfn
        | none => (([], false), s)
      let es := table ++ listed
      let cap := j.prm.getD 2 0
      let out := es.take cap
      let at_ := j.prm.getD 1 0
      let s := s.areaPut (some (j.wid, j.warp)) j.wid at_ (bytesOfNat 4 es.length ++ bytesOfNat 4 out.length ++ zeros 8 ++
        (out.map fun e => bytesOfNat 8 e.1.toNat ++ bytesOfNat 8 e.2.toNat).flatten)
      let s := if z && !failed && decide (es.length ≤ cap) then
          let s := match c.ov with
            | some o => s.keyWrite core k.ctx (j.wid, j.warp) o.word (zeros 8)
            | none => s
          s.modWg j.wid fun g => { g with claim := some { c with slots := [], ovfn := 0, rej := false } }
        else s
      let s := s.modWarp j.wid j.warp fun w => w.paid j.seq s.past.length
      (if failed then s.barFault j.wid (j.prm.getD 0 0) 1 0 else s.barArrive j.wid (j.prm.getD 0 0) 1 0).pulse core j.wid 9
  | _, _ => s

/-- The keyed instruction behind the head of the queue that a replayed log makes first (R301, R427): the entry at `IDX` names its warp and
`SEQ`, the head waits for its own turn with nothing of it made, and nothing of its own warp stands before it. -/
def State.keyNamed (s : State) (core : Nat) (h : Hold) (x : Ix) (rest : List KeyJob) : Option KeyJob :=
  let die := dieOf core
  let l := (s.die die).log
  match h.wait, s.logShareOf die x.g.inst with
  | .logged _, some g =>
    if !l.rpl || l.rend || x.w.keyMade != 0 then none
    else
      let e := (s.logAt die g (memNat s.mem g.idx 4)).1
      match rest.find? fun j => j.warp == e / 2 ^ 55 % 32 && j.wid / 2 ^ 48 == x.g.inst && j.wid % 2 ^ 32 == e % 2 ^ 32 with
      | some j =>
        (match s.warp? j.wid j.warp with
        | some w => if j.prm.isEmpty && w.logSeq % 2 ^ 23 == e / 2 ^ 32 % 2 ^ 23 then some j else none
        | none => none)
      | none => none
  | _, _ => none

/-- The keyed unit takes up the instruction of a warp that waits in its queue. -/
def State.keyTake (s : State) (j : KeyJob) : Host.Outcome State Fault Refusal :=
  s.endHold j.wid j.warp fun h x => if h.wait == .keyed then x.keyTurn else none

/-- KEYED_APPLY (R301): the head of a core's keyed queue, which leaves it when it has been applied; while it waits for its acts or
its turns in the log no later one is, but one that a replayed log names before it (R427). -/
def execKeyedApply (core : Nat) (s : State) : Host.Outcome State Fault Refusal :=
  match (s.core core).keyq with
  | [] => .next s
  | j :: rest =>
    let s1 := s.modCore core fun k => { k with keyq := rest }
    match j.instr with
    | .kdrn _ z _ _ _ => .next (s1.keyDrain core j z)
    | _ =>
      match s.held j.wid j.warp with
      | none => .next s1
      | some (h, x) =>
        if h.wait == .keyed then s.keyTake j
        else
          match s.keyNamed core h x rest with
          | some o => s.keyTake o
          | none => .next s

end Sys2Proof.Machine
end

