-- ==== Sys2Proof/Machine/Mov.lean ====
section
/-! DEFINITION. The MOV group (05 R141-R149): moves, shuffles, votes, special registers, extended blocks and rejoin masks
as values. -/

namespace Sys2Proof.Machine

def execMov (h : Hd) (ty : Ty) (d a : Opnd) (s : State) : Host.Outcome State Fault Refusal :=
  issue (.mov h ty d a) s fun x => x.give d ty.wide (x.each d fun l => x.rd ty a l)

def execMovi (h : Hd) (ty : Ty) (d : Opnd) (imm : BitVec 24) (s : State) : Host.Outcome State Fault Refusal :=
  issue (.movi h ty d imm) s fun x => x.give d ty.wide (x.each d fun _ => wrapNat ty.ew imm.toInt)

/-- A with one half-word replaced (R142). -/
def putHalf (n : Nat) (a imm : Nat) : Nat := a % 2 ^ (16 * n) + imm * 2 ^ (16 * n) + a / 2 ^ (16 * n + 16) * 2 ^ (16 * n + 16)

def execMovh (h : Hd) (n : BitVec 2) (ty : Ty) (d a : Opnd) (imm : BitVec 16) (s : State) : Host.Outcome State Fault Refusal :=
  issue (.movh h n ty d a imm) s fun x => x.give d ty.wide (x.each d fun l => putHalf n.toNat (x.rd ty a l) imm.toNat)

/-- The source lane of a shuffle (R143). -/
def shflLane (mode : ShflMode) (S l n : Nat) : Nat :=
  let i := l % S
  let j := match mode with
    | .from => n % S
    | .rotl => (i + n) % S
    | .xor => (i ^^^ (n % S)) % S
    | .rev => (S - 1 - i + n) % S
  l - i + j

def execShfl (h : Hd) (mode : ShflMode) (seg : BitVec 3) (ty : Ty) (d a b : Opnd) (s : State) : Host.Outcome State Fault Refusal :=
  issue (.shfl h mode seg ty d a b) s fun x =>
    let S := if seg = 0 then x.w.width else 2 ^ seg.toNat
    x.give d ty.wide (x.each d fun l => x.rd ty a (shflLane mode S l (x.rd32 b l)))

/-- The 32-bit words of a mask (R144, R149). -/
def maskWord (m : Mask) (j : Nat) : Word := m.extractLsb' (32 * j) 32

/-- `VOTE` (R144). Of a ballot's registers the first is captured (L82). -/
def execVote (h : Hd) (mode : VoteMode) (d a : Opnd) (s : State) : Host.Outcome State Fault Refusal :=
  issue (.vote h mode d a) s fun x =>
    let t := x.on &&& x.w.pget a.idx
    let all (b : Bool) : Eff := x.give d false (x.each d fun _ => if b then 1 else 0)
    match mode with
    | .all => all (t == x.on)
    | .any => all (t != 0)
    | .uni => all (t == 0 || t == x.on)
    | .first => x.give d false (x.each d fun l => if l = firstOf x.lanes then 1 else 0)
    | .ballot =>
      let w := if x.idle || x.f.hd.nwb then x.w else
        (List.range (x.w.width / 32)).foldl (fun w j => w.sset (d.idx + j) (maskWord t j)) x.w
      .regs w (x.capture d false (x.once (maskWord t 0).toNat)) x.c.advance

/-- `BCAST` (R145). -/
def execBcast (h : Hd) (elect : Bool) (ty : Ty) (d a b : Opnd) (s : State) : Host.Outcome State Fault Refusal :=
  issue (.bcast h elect ty d a b) s fun x =>
    let j := if elect then firstOf x.lanes else x.u32 b % x.w.width
    x.give d ty.wide (x.once (x.rd ty a j))

/-! ### Special registers (R116, R146, R151) -/

/-- The context of a lane and its core as `HWID` gives them (R15). -/
def hwid (core ctx : Nat) : Nat := core / 192 / 4 * 2 ^ 26 + core / 192 % 4 * 2 ^ 24 + core % 192 / 4 * 2 ^ 18 + core % 4 * 2 ^ 16 + ctx % 2048 * 32

/-- The coordinates of workgroup g (R94). -/
def LaunchRec.coord (r : LaunchRec) (g : Nat) : Nat × Nat × Nat := (g % r.gx, g / r.gx % r.gy, g / r.gx / r.gy)

/-- The value of a special register for a lane; none for a number that the table does not hold (R116). -/
def Ix.special (x : Ix) (n l : Nat) : Option Nat :=
  let r := x.kr.rc
  let (cx, cy, cz) := r.coord x.g.g
  let k := (x.s.core x.g.core).carve
  match n with
  | 0x000 => some (hwid x.g.core (x.w.ctx0 + l))
  | 0x001 => some l
  | 0x002 => some x.c.warp
  | 0x003 => some (x.g.g % 2 ^ 32)
  | 0x004 => some (cy * 65536 + cx)
  | 0x005 => some cz
  | 0x006 => some (r.gy * 65536 + r.gx)
  | 0x007 => some r.gz
  | 0x008 => some (r.arg.toNat % 2 ^ 32)
  | 0x009 => some (r.arg.toNat / 2 ^ 32)
  | 0x00A => some x.w.frm.toNat
  | 0x00B => some x.w.flg.toNat
  | 0x00C => some x.w.fte.toNat
  | 0x00D => some (x.s.clocksAt x.g.core % 2 ^ 32)
  | 0x00E => some x.w.clkHi.toNat
  | 0x00F => some (x.w.x * 256 + r.regs)
  | 0x010 => some (k.reg * 4096 + k.loc * 256 + k.l1 * 16 + k.key)
  | 0x011 => some (r.sscope * 256 + r.prio * 16 + r.det * 4 + r.wcode)
  | 0x012 => some (if x.w.hmode then 1 else 0)
  | 0x013 => some x.w.tfaddr.toNat
  | 0x014 => some (x.g.g / 2 ^ 32 % 65536)
  | _ => none

/-- A special register that is not there (R151): the frame gives its number. -/
def Ix.srTrap (x : Ix) (sr : BitVec 12) : Trap := ⟨cSR_INDEX, x.on, some (sr.setWidth 64), some (sr.setWidth 32), none⟩

/-- `RDSR` (R146): reading `CLKLO` captures the high half of the count. -/
def execRdsr (h : Hd) (d : Opnd) (sr : BitVec 12) (s : State) : Host.Outcome State Fault Refusal :=
  issue (.rdsr h d sr) s fun x =>
    if x.idle then x.give d false []
    else if (x.special sr.toNat 0).isNone then .trap (x.srTrap sr)
    else
      let w := if sr = 0x00D then { x.w with clkHi := BitVec.ofNat 32 (x.s.clocksAt x.g.core / 2 ^ 32) } else x.w
      let rs := x.each d fun l => (x.special sr.toNat l).getD 0
      .regs (x.written w d false rs) (x.capture d false rs) x.c.advance

/-- A warp after a write of a special register under its access code (R5, R116). -/
def Warp.setSpecial (w : Warp) (n : Nat) (v : Word) : Warp :=
  match n with
  | 0x00A => { w with frm := v.setWidth 2 }
  | 0x00B => { w with flg := w.flg &&& ~~~v.setWidth 5 }
  | 0x00C => { w with fte := v.setWidth 6 }
  | _ => w

/-- `WRSR` (R146). -/
def execWrsr (h : Hd) (a : Opnd) (sr : BitVec 12) (s : State) : Host.Outcome State Fault Refusal :=
  issue (.wrsr h a sr) s fun x =>
    if x.idle then x.pass
    else if (x.special sr.toNat 0).isNone then .trap (x.srTrap sr)
    else x.warpTo (x.w.setSpecial sr.toNat (BitVec.ofNat 32 (x.u32 a)))

/-! ### Extended blocks (R119-R122, R147) -/

/-- Whether a workgroup holds reservations on a core. -/
def Wg.on (g : Wg) (core : Nat) : Bool :=
  g.core == core && !g.off

/-- The REG units in use on a core: base blocks of its workgroups, extended blocks of their live warps (R117, R118, R121). -/
def State.regUsed (s : State) (core : Nat) : Nat :=
  (s.wgs.map fun (_, g) =>
    if g.on core then
      match look s.kernels g.inst with
      | some k => k.rc.warps * k.rc.units k.rc.regs + (g.warps.map fun (_, w) => if w.live = 0 then 0 else k.rc.units w.x).sum
      | none => 0
    else 0).sum

/-- The free REG units of a core. -/
def State.regFree (s : State) (core : Nat) : Nat := 64 * (s.core core).carve.reg - s.regUsed core

/-- A warp that is granted an extended block: it reads 0 in every lane (R120). -/
def Warp.extend (w : Warp) (base n : Nat) : Warp := { w with x := n, v := w.v.filter fun e => decide (e.1 < 128 * base) }

/-- The XBLOCK causes of `XACQ` and `XTRY` (R122). -/
def Ix.xbad (x : Ix) (n : Nat) : Bool := x.w.x != 0 || n == 0 || !xregsSize n || decide (n > x.kr.rc.xregs)
where
  xregsSize (n : Nat) : Bool := n == 32 || n == 64 || n == 96 || n == 128

/-- Whether a block can be granted at once: nobody queues and it fits (R120). -/
def Ix.xfits (x : Ix) (n : Nat) : Bool := (x.s.core x.g.core).xq.isEmpty && decide (x.kr.rc.units n ≤ x.s.regFree x.g.core)

/-- `XACQ` (R147). -/
def execXacq (h : Hd) (n : BitVec 24) (s : State) : Host.Outcome State Fault Refusal :=
  issue (.xacq h n) s fun x =>
    if x.idle then x.pass
    else if x.xbad n.toNat then .trap (Trap.plain cXBLOCK x.on)
    else if x.xfits n.toNat then x.warpTo (x.w.extend x.kr.rc.regs n.toNat)
    else .hold (.xacq n.toNat) (x.s.modCore x.g.core fun c => { c with xq := c.xq ++ [(x.c.wid, x.c.warp, n.toNat)] })

/-- `XREL` (R147, R121). -/
def execXrel (h : Hd) (s : State) : Host.Outcome State Fault Refusal :=
  issue (.xrel h) s fun x => if x.idle then x.pass else x.warpTo (x.w.extend x.kr.rc.regs 0)

/-- `XTRY` (R147). -/
def execXtry (h : Hd) (d : Opnd) (n : BitVec 24) (s : State) : Host.Outcome State Fault Refusal :=
  issue (.xtry h d n) s fun x =>
    if x.idle then x.give d false []
    else if x.xbad n.toNat then .trap (Trap.plain cXBLOCK x.on)
    else
      let ok := x.xfits n.toNat
      let rs := x.each d fun _ => if ok then 1 else 0
      let w := if ok then x.w.extend x.kr.rc.regs n.toNat else x.w
      .regs (x.written w d false rs) (x.capture d false rs) x.c.advance

/-- `XACQ_GRANT` (R120): the head of a core's queue is granted when it fits. -/
def execXacqGrant (core : Nat) (s : State) : Host.Outcome State Fault Refusal :=
  match (s.core core).xq with
  | [] => .next s
  | (wid, i, n) :: q =>
    s.endHold wid i fun h x =>
      match h.wait with
      | .xacq _ =>
        if x.kr.rc.units n ≤ x.s.regFree core then
          some (x.to ((x.inWarp x.s fun w => w.extend x.kr.rc.regs n).modCore core fun c => { c with xq := q }))
        else none
      | _ => none

/-- `PMOV` (R148). -/
def execPmov (h : Hd) (unpack : Bool) (m : BitVec 7) (d a : Opnd) (s : State) : Host.Outcome State Fault Refusal :=
  issue (.pmov h unpack m d a) s fun x =>
    let is := (List.range 7).filter fun i => m.getLsbD i
    if unpack then
      x.warpTo (is.foldl (fun w i => w.pset i x.on (maskOf (x.lanes.filter fun l => (x.rd32 a l).testBit i))) x.w)
    else x.give d false (x.each d fun l => (is.map fun i => if (x.w.pget i).getLsbD l then 2 ^ i else 0).sum)

/-- `KMOV` (R149, R89): a write into a mask keeps the threads blocked on it. Of several s registers the first is captured (L82). -/
def execKmov (h : Hd) (d a : Opnd) (s : State) : Host.Outcome State Fault Refusal :=
  issue (.kmov h d a) s fun x =>
    let v : Mask := match a with
      | .k n => x.w.kget n.toNat
      | _ => BitVec.ofNat 128 (packEls 32 ((List.range 4).map fun j => (x.w.sget (a.idx + j)).toNat))
    match d with
    | .k n => if x.idle then x.pass else x.warpTo (x.w.kset n.toNat (v ||| x.w.blockedOn n.toNat))
    | _ =>
      let w := if x.idle || x.f.hd.nwb then x.w else
        (List.range 4).foldl (fun w j => w.sset (d.idx + j) (maskWord v j)) x.w
      .regs w (x.capture d false (x.once (maskWord v 0).toNat)) x.c.advance

end Sys2Proof.Machine
end

