-- ==== Sys2Proof/Machine/Rmt.lean ====
section
/-! DEFINITION. The RMT group (15 R376-R384): the checks of a remote operation, what each instruction sends, waiting for room,
counted arrivals that wait, and `WAITC`. -/

namespace Sys2Proof.Machine

/-! ### Checks (R378, R380, R413) -/

/-- What a remote operation asks of the page of an address: its class, if any, and whether it must be writable. -/
structure Aim where
  cls : Option Nat
  write : Bool
  /-- a value out of its limits (R380) -/
  range : Bool
  deriving DecidableEq, Repr, Inhabited

/-- The checks of R378 after alignment, in order, then FXA_RANGE (R380) and PHASE_STATE (R413). -/
def Ix.rmtCause (x : Ix) (t : Aim) (va : Nat) (tr : Tr) : Ranked :=
  match tr.cause false t.write, tr with
  | some c, _ => some c
  | none, .page p =>
    let pa := p.pa va
    if p.hmem || (match t.cls with
      | some c => p.cls != c
      | none => false) then some (4, cPAGE_CLASS)
    else if !x.s.reachable pa then some (5, cREMOTE_UNREACH)
    else if t.range then some (6, cFXA_RANGE)
    else if x.beyond pa then some (7, cPHASE_STATE)
    else none
  | none, _ => none

/-! ### Sending (R364, R371, R376) -/

/-- The lanes whose contribution is a signalling NaN (R380). -/
def Ix.snans (x : Ix) : List Nat :=
  match x.i with
  | .rfxa _ _ init _ fmt ty d _ _ _ =>
    if init then [] else x.lanes.filter fun l => snOf (engineNum ty fmt (x.rd ty d l % 2 ^ ty.ew)) != cNone
  | _ => []

/-- The instruction completes: its operations are in their streams, and a flag is raised (R378, R380). -/
def Ix.shipped (x : Ix) (xs : List Send) (arrival : Bool) : Eff :=
  x.to (x.inWarp (x.sent xs arrival) fun w => w.raise (x.snans.map fun l => (l, cIV)))

/-- The instruction's operations enter their streams, or it waits for room (R364, R378). -/
def Ix.ship (x : Ix) (xs : List Send) (arrival : Bool) : Eff :=
  if x.mayEnter xs arrival then x.shipped xs arrival else .hold (.room xs arrival) x.s

/-- The end of a remote instruction after its checks: its floating-point cause, its watch, its operations (R436). -/
def Ix.shipAll (x : Ix) (as : List Acc1) (xs : List Send) (arrival : Bool) : Eff :=
  match fpTrap x.w.enables (x.snans.map fun l => (l, cSN)) with
  | some t => .trap t
  | none =>
    match x.watched as with
    | some t => .trap t
    | none => x.ship xs arrival

/-- A remote instruction with one address for each lane: its size, its page, what each lane sends to its home address. -/
def Ix.remote (x : Ix) (addr : Nat → Nat) (size align : Nat) (t : Aim) (arrival : Bool)
    (sends : List (Nat × Nat) → List Send) : Eff :=
  if x.idle then x.pass
  else
    match x.checkAll (x.lanes.map fun l => (l, addr l, align)) (x.rmtCause t) with
    | .error e => e
    | .ok ps => x.shipAll (x.lanes.map fun l => (l, addr l, size)) (sends (ps.map fun p => (p.1.1, p.2.pa p.1.2.1))) arrival

/-- A 32-bit value extended to 64 bits by its type (R379, R381). -/
def extended (ty : Ty) (v : Nat) : Nat :=
  match ty with
  | .i32 => wrapNat 64 (asSigned 32 v)
  | _ => v

/-! ### Updates (R379) -/

/-- One operation for each lane, its value extended by type. -/
def Ix.update (x : Ix) (idx : Nat) (ty : Ty) (d a b : Opnd) (off : BitVec 24) : Eff :=
  x.remote (x.gaddr a b off) ty.access ty.access ⟨some 0, true, false⟩ false fun ls => ls.map fun l =>
    ⟨l.2, idx, ty.bits.toNat, 0, false, false, x.parity, bytesOfNat 8 (extended ty (x.rd ty d l.1)), none⟩

/-- `RADD` (R379). -/
def execRadd (h : Hd) (comm : Bool) (ty : Ty) (d a b : Opnd) (off : BitVec 24) (s : State) : Host.Outcome State Fault Refusal :=
  issue (.radd h comm ty d a b off) s fun x => x.update 0 ty d a b off

/-- `RMIN` (R379). -/
def execRmin (h : Hd) (comm : Bool) (ty : Ty) (d a b : Opnd) (off : BitVec 24) (s : State) : Host.Outcome State Fault Refusal :=
  issue (.rmin h comm ty d a b off) s fun x => x.update 2 ty d a b off

/-- `RMAX` (R379). -/
def execRmax (h : Hd) (comm : Bool) (ty : Ty) (d a b : Opnd) (off : BitVec 24) (s : State) : Host.Outcome State Fault Refusal :=
  issue (.rmax h comm ty d a b off) s fun x => x.update 3 ty d a b off

/-- `ROR` (R379). -/
def execRor (h : Hd) (comm : Bool) (ty : Ty) (d a b : Opnd) (off : BitVec 24) (s : State) : Host.Outcome State Fault Refusal :=
  issue (.ror h comm ty d a b off) s fun x => x.update 4 ty d a b off

/-! ### Contributions (R380) -/

/-- Whether the parameters of an `RFXA` are outside their limits (R380). -/
def fxaBad (init line : Bool) (c : Nat) : Bool :=
  let weighted := init && line
  let w := asSigned 12 (c / 2 ^ 16 % 4096)
  c / 256 % 256 != 0 || c / (if weighted then 2 ^ 28 else 2 ^ 8) != 0 || (weighted && !(decide (-1074 ≤ w) && decide (w ≤ 98)))

/-- The value that a lane of `RFXA` sends: a signalling NaN as the canonical NaN (R380). -/
def Ix.contributed (x : Ix) (ty : Ty) (d : Opnd) (l : Nat) : Nat := if x.snans.contains l then ty.ieee.nan else x.rd ty d l % 2 ^ ty.ew

/-- `RFXA` (R380). -/
def execRfxa (h : Hd) (comm init line : Bool) (fmt : BitVec 5) (ty : Ty) (d a b c : Opnd) (s : State) :
    Host.Outcome State Fault Refusal :=
  issue (.rfxa h comm init line fmt ty d a b c) s fun x =>
    x.remote (x.gaddr a b 0) (lineSize line) (lineSize line) ⟨some 1, true, fxaBad init line (x.u32 c)⟩ false fun ls =>
      ls.map fun l =>
        ⟨l.2, 1, if init then 0 else ty.bits.toNat, fmt.toNat, line, init, x.parity,
          bytesOfNat 8 (if init then 0 else x.contributed ty d l.1) ++ bytesOfNat 4 (x.u32 c), none⟩

/-! ### Write-once writes (R381) -/

/-- The first lane of each word, with every lane of the word. -/
def wordGroups : List (Nat × Nat) → List (Nat × List Nat)
  | [] => []
  | (l, pa) :: rest =>
    let gs := wordGroups rest
    match gs.find? fun g => g.1 == pa with
    | some g => (pa, l :: g.2) :: gs.filter fun g => g.1 != pa
    | none => (pa, [l]) :: gs

/-- `RWO` (R381): the lowest lane's value, and the conflict mark when another lane's differs. -/
def execRwo (h : Hd) (comm : Bool) (ty : Ty) (d a b : Opnd) (off : BitVec 24) (s : State) : Host.Outcome State Fault Refusal :=
  issue (.rwo h comm ty d a b off) s fun x =>
    x.remote (x.gaddr a b off) 8 8 ⟨some 2, true, false⟩ false fun ls => (wordGroups ls).map fun g =>
      let v (l : Nat) : Nat := extended ty (x.rd ty d l)
      let v0 := v (firstOf g.2)
      ⟨g.1, 5, ty.bits.toNat, 0, g.1 % 128 != 0 && g.2.any fun l => v l != v0, false, x.parity, bytesOfNat 8 v0, none⟩

/-! ### Counted arrivals (R376, R382) -/

/-- `RARV` (R382): lanes of one word make one arrival. -/
def execRarv (h : Hd) (ty : Ty) (d a b : Opnd) (off : BitVec 24) (s : State) : Host.Outcome State Fault Refusal :=
  issue (.rarv h ty d a b off) s fun x =>
    x.remote (x.gaddr a b off) 8 8 ⟨some 3, true, false⟩ true fun ls => (wordGroups ls).map fun g =>
      ⟨g.1, 6, ty.bits.toNat, 0, false, false, x.parity, bytesOfNat 8 ((g.2.map fun l => x.rd ty d l).sum % 2 ^ 64), none⟩

/-! ### Read requests (R383) -/

/-- The checks of one address of `RREQ`: lane, address, what R383 calls misaligned, what its page must be. -/
abbrev ReqAddr := Nat × Nat × Bool × Aim

/-- The bytes of a read request's source run. -/
def reqSize (w32 : Bool) (n : Nat) : Nat := if w32 then 4 else 8 * n

/-- Where a run crosses a multiple of 64 KiB, and so perhaps into another page. -/
def crossing (va n : Nat) : Option Nat :=
  if va / 65536 = (va + n - 1) / 65536 then none else some ((va + n - 1) / 65536 * 65536)

/-- The source, with the page that its words may cross into, the reply word and the counter of a lane (R383). None of the pages
need be writable (L78). -/
def Ix.reqAddrs (x : Ix) (w32 : Bool) (n : Nat) (d a b : Opnd) (l : Nat) : List ReqAddr :=
  let src := x.rd64 a l
  let rep := x.rd64 d l
  let cnt := x.rd64 b l
  (l, src, src % (if w32 then 4 else 8) != 0, ⟨none, false, false⟩) ::
  ((crossing src (reqSize w32 n)).map fun va => (l, va, false, (⟨none, false, false⟩ : Aim))).toList ++
  [(l, rep, rep % 8 != 0 || decide (rep % 128 < 8) || decide (rep % 128 + 8 * n > 128), ⟨some 2, false, false⟩),
   (l, cnt, cnt % 8 != 0, ⟨some 3, false, false⟩)]

/-- `RREQ` (R383): one request for each lane. -/
def execRreq (h : Hd) (w32 : Bool) (n : BitVec 4) (d a b : Opnd) (s : State) : Host.Outcome State Fault Refusal :=
  issue (.rreq h w32 n d a b) s fun x =>
    if x.idle then x.pass
    else
      let all := (x.lanes.map (x.reqAddrs w32 n.toNat d a b)).flatten
      match firstCause (all.map fun q => (q.1, q.2.1, if q.2.2.1 then some (0, cMISALIGNED) else none)) with
      | some t => .trap t
      | none =>
        let misses := (all.filter fun q => (x.xlate q.2.1).isMiss).map (·.2.1)
        if !misses.isEmpty then x.walkFor misses
        else
          match firstCause (all.map fun q => (q.1, q.2.1, x.rmtCause q.2.2.2 q.2.1 (x.xlate q.2.1))) with
          | some t => .trap t
          | none =>
            let pa (va : Nat) : Nat := match x.xlate va with
              | .page p => p.pa va
              | _ => 0
            let size := reqSize w32 n.toNat
            x.shipAll (x.lanes.map fun l => (l, x.rd64 a l, size))
              (x.lanes.map fun l =>
                let src := x.rd64 a l
                ⟨pa src, 7, 0, 0, false, false, x.parity,
                bytesOfNat 8 (pa (x.rd64 d l)) ++ bytesOfNat 8 (pa (x.rd64 b l)) ++ bytesOfNat 1 (n.toNat + (if w32 then 16 else 0)),
                (crossing src size).bind fun va => if pa va = pa src + (va - src) then none else some (pa va)⟩) false

/-! ### WAITC (R362, R384) -/

/-- Take or give up a watch entry of the spire of a counter word. -/
def State.watchOn (s : State) (pa wid warp : Nat) : State :=
  s.modSpire (paSpire pa) fun p => { p with watches := p.watches ++ [(wid, warp)] }

def State.watchOff (s : State) (pa wid warp : Nat) : State :=
  s.modSpire (paSpire pa) fun p => { p with watches := p.watches.filter fun e => e != (wid, warp) }

/-- `WAITC` (R384): `due` is the deadline of one that pre-emption stopped. -/
def execWaitc (h : Hd) (d a b c : Opnd) (s : State) : Host.Outcome State Fault Refusal :=
  issue (.waitc h d a b c) s fun x =>
    if x.idle then x.pass
    else
      let va := x.u64 a
      match x.counterWord va with
      | .error e => e
      | .ok pa =>
        let y : Ix := { x with s := x.inWarp x.s fun w => { w with due := none } }
        let deadline := match x.w.due with
          | some t => some t
          | none => if x.u32 c = 0 then none else some (x.s.time + 1000 * x.u32 c)
        let passed := match deadline with
          | some t => decide (t ≤ x.s.time)
          | none => false
        if decide (x.s.counter pa % 2 ^ 32 ≥ x.u32 b) || passed then y.counted d va pa
        else
          let watched := decide ((x.s.spire (paSpire pa)).watches.length < 1024)
          .hold (.waitc va pa (x.u32 b) deadline watched) (if watched then y.s.watchOn pa x.c.wid x.c.warp else y.s)

/-- The destination of a wait on a counter. -/
def waitDest : Instr → Opnd
  | .waitk _ d _ _ => d
  | .waitc _ d _ _ _ => d
  | _ => .p 7

/-- A `WAITC` ends. -/
def Ix.waitEnd (x : Ix) (va pa : Nat) : Eff :=
  let y : Ix := { x with s := x.s.watchOff pa x.c.wid x.c.warp }
  y.counted (waitDest x.i) va pa

/-- WATCH_FIRE (R362): the word of a watch meets its target; a watch that nothing waits on is given up. -/
def execWatchFire (sp k : Nat) (s : State) : Host.Outcome State Fault Refusal :=
  match (s.spire sp).watches[k]? with
  | none => .next s
  | some (wid, warp) =>
    match s.held wid warp with
    | some (h, _) =>
      match h.wait with
      | .waitc _ _ _ _ _ =>
        s.endHold wid warp fun h x =>
          match h.wait with
          | .waitc va pa target _ _ =>
            if decide (s.counter pa % 2 ^ 32 ≥ target) && !s.inFlip pa then some (x.waitEnd va pa) else none
          | _ => none
      | _ => .next (s.modSpire sp fun p => { p with watches := p.watches.eraseIdx k })
    | none => .next (s.modSpire sp fun p => { p with watches := p.watches.eraseIdx k })

/-- WATCH_POLL (R362): a `WAITC` that found no watch entry reads its word, a microsecond after it last did. -/
def execWatchPoll (wid warp : Nat) (s : State) : Host.Outcome State Fault Refusal :=
  match s.held wid warp with
  | some (h, x) =>
    match h.wait with
    | .waitc va pa target _ false =>
      if decide (s.time < h.since + 1000) || s.inFlip pa then .next s
      else if s.counter pa % 2 ^ 32 ≥ target then .next (x.settleHeld (x.waitEnd va pa))
      else .next (s.modWarp wid warp fun w => { w with hold := some { h with since := s.time } })
    | _ => .next s
  | none => .next s

/-- WAITC_DEADLINE (R384). -/
def execWaitcDeadline (wid warp : Nat) (s : State) : Host.Outcome State Fault Refusal :=
  s.endHold wid warp fun h x =>
    match h.wait with
    | .waitc va pa _ (some t) _ => if decide (t ≤ s.time) && !s.inFlip pa then some (x.waitEnd va pa) else none
    | _ => none

/-- WAITK_WAKE (R111). -/
def execWaitkWake (wid warp : Nat) (s : State) : Host.Outcome State Fault Refusal :=
  s.endHold wid warp fun h x =>
    match h.wait with
    | .waitk va pa target =>
      if decide (s.counter pa % 2 ^ 32 ≥ target) && !s.inFlip pa then some (x.counted (waitDest x.i) va pa) else none
    | _ => none

/-! ### Waiting for room and for acknowledgements (R364, R371, R376) -/

/-- STREAM_ENTRY (R364): operations of a warp, of a copy command or of a spire base find room. -/
def execStreamEntry (who : Sender) (s : State) : Host.Outcome State Fault Refusal :=
  match who with
  | .warp wid warp =>
    s.endHold wid warp fun h x =>
      match h.wait with
      | .room xs arrival => if x.mayEnter xs arrival then some (x.shipped xs arrival) else none
      | _ => none
  | .cmd wid cmd => .next (s.cmdEntry wid cmd)
  | .spire sp =>
    match (s.spire sp).owed with
    | [] => .next s
    | (x, owes) :: rest =>
      if s.roomFor (spireAgent sp) true [x] then
        .next ((s.modSpire sp fun p => { p with owed := rest }).enter (spireAgent sp) (.spire sp) false owes x).2
      else .next s

/-- Ten milliseconds, in nanoseconds (R371). -/
def stallTime : Nat := 10000000

/-- STREAM_STALL (R371): a warp has waited 10 ms for room, for the acknowledgements of a release fence, or for those
before its `HBAR` arrival; not for room in a network that comes after them. -/
def execStreamStall (wid warp : Nat) (s : State) : Host.Outcome State Fault Refusal :=
  s.endHold wid warp fun h x =>
    let waits := match h.wait with
      | .room _ _ => true
      | .fence _ => (match h.instr with
        | .fence _ mm kr kg kl => !x.fenceMet mm kr kg kl
        | _ => false)
      | .acks => !x.allAcked
      | _ => false
    if waits && decide (h.since + stallTime ≤ s.time) then some (.trap (Trap.plain cSTREAM_STALL x.on)) else none

/-- The messages of a waiting arrival's operations: stream, number, message. -/
def State.arrivalMessages (s : State) (die : Nat) (a : WaitingArrival) : List (Nat × Nat × List Byte) :=
  a.ops.filterMap fun k => ((s.stream (coresAgent die) k.1).ops.find? fun o => o.seq == k.2).map fun o => (k.1, k.2, o.msg)

/-- Whether a warp's oldest waiting arrival may leave (R376, R389). -/
def State.mayDepart (s : State) (die : Nat) (a : WaitingArrival) : Bool :=
  let ms := s.arrivalMessages die a
  !s.owesBefore die a.wid a.warp a.ord &&
    ms.all fun m => s.mayLeave (pkgOfDie die) (msgPkg m.2.2) ((ms.filter fun n => msgPkg n.2.2 == msgPkg m.2.2).map fun n => n.2.2.length).sum

/-- RARV_DEPART (R376). -/
def execRarvDepart (die wid warp : Nat) (s : State) : Host.Outcome State Fault Refusal :=
  match (s.die die).arrivals.find? fun a => a.wid == wid && a.warp == warp with
  | none => .next s
  | some a =>
    if s.mayDepart die a then
      let s1 := s.modDie die fun d => { d with arrivals := d.arrivals.erase a }
      .next ((s.arrivalMessages die a).foldl (fun s m => s.departOp (coresAgent die) m.1 m.2.1 m.2.2) s1)
    else .next s

/-- Whether a workgroup is saved. -/
def State.isSaved (s : State) (wid : Nat) : Bool :=
  match look s.wgs wid with
  | some g => g.st == .saved
  | none => false

/-- ARRIVAL_STALL (R371): a waiting arrival of a resident warp has waited 10 ms; once for each arrival. -/
def execArrivalStall (die wid warp : Nat) (s : State) : Host.Outcome State Fault Refusal :=
  match (s.die die).arrivals.find? fun a => a.wid == wid && a.warp == warp && !a.raised with
  | none => .next s
  | some a =>
    if s.isSaved wid || decide (s.time < a.since + stallTime) then .next s
    else
      let s1 := s.modDie die fun d => { d with arrivals := d.arrivals.map fun b => if b = a then { b with raised := true } else b }
      .next ((s.arrivalMessages die a).foldl (fun s m =>
        s.defer wid warp ⟨cSTREAM_STALL, BitVec.ofNat 64 (msgTag m.2.2), msgPa m.2.2⟩) s1)

end Sys2Proof.Machine
end

