-- ==== Sys2Proof/Machine/Phs.lean ====
section
/-! DEFINITION. The PHS group (17): barrier networks, superstep phases and their sweeps, ordered-append acts, the order log. -/

namespace Sys2Proof.Machine

/-! ### Barrier networks (R407-R410, R430) -/

/-- The channel of `PHASE`. -/
def phaseChannel : Nat := 16

/-- The instance of a scope code for a thread of a core (R333). -/
def scopeInst (scope core : Nat) : Nat :=
  if scope = 2 then core
  else if scope = 3 then core / 4
  else if scope = 4 then dieOf core
  else if scope = 5 then pkgOfDie (dieOf core)
  else 0

/-- Whether an arrival names a context. -/
def Net.named (n : Net) (a : NetArrival) : Bool := n.ctx == a.ctx && n.ch == a.ch && n.scope == a.scope && n.inst == a.inst

/-- A context's name: its program's context, channel, scope and instance (R407). -/
abbrev NetName := Nat × Nat × Nat × Nat

/-- The contexts that live at the node of a level's instance: those that arrivals of its cores have passed through (R407). -/
def liveAt (nets : List Net) (lvl inst : Nat) : List NetName :=
  (nets.filter fun n => decide (lvl ≤ n.scope) && n.cores.any fun c => scopeInst lvl c == inst).map fun n => (n.ctx, n.ch, n.scope, n.inst)

/-- Those that arrivals on their way will make live there. -/
def State.nodeNames (s : State) (lvl inst : Nat) : List NetName :=
  (liveAt s.nets lvl inst ++ (s.netMail.filter fun a => decide (lvl ≤ a.scope) && scopeInst lvl a.core == inst).map fun a =>
    (a.ctx, a.ch, a.scope, a.inst)).eraseDups

/-- The levels that an arrival at a scope passes: core, quad, die, package, pod. -/
def levelsTo (scope : Nat) : List Nat := [2, 3, 4, 5, 6].filter fun l => decide (l ≤ scope)

/-- Whether every node that an arrival of a core passes has room for its context: at most 64 live at each (R407). -/
def State.nodeRoom (s : State) (scope core ctx ch : Nat) : Bool :=
  (levelsTo scope).all fun lvl =>
    let ns := s.nodeNames lvl (scopeInst lvl core)
    ns.contains (ctx, ch, scope, scopeInst scope core) || decide (ns.length < 64)

/-- What a released wait does to its warp (R430): the phase number to D, the warp's count, the threads. -/
def Warp.netDone (w : Warp) (b : Blocked) (n : NetWait) : Warp :=
  let k := n.k + 1
  let w := w.sset n.d (BitVec.ofNat 32 k)
  let w := if n.phase then { w with ph := w.ph + 1 } else { w with hcnt := ins w.hcnt n.ch (BitVec.ofNat 32 k) }
  w.rejoin [⟨b.prio, b.pc + 12, b.mask⟩]

/-- Whether blocked threads wait for the answer to an arrival. -/
def Blocked.waitsFor (b : Blocked) (id : Nat) : Bool :=
  match b.why with
  | .net n => n.id == id && n.ans.isNone
  | _ => false

/-- The network's answer, noted in blocked threads (R430). -/
def Blocked.answer (b : Blocked) (id : Nat) : Blocked :=
  if b.waitsFor id then
    match b.why with
    | .net n => { b with why := .net { n with ans := some true } }
    | _ => b
  else b

/-- Judge one set of blocked threads of a warp outside its handler: a wait that was answered ends. -/
def Warp.judgeNet (w : Warp) (b : Blocked) : Warp :=
  match b.why with
  | .net n => if n.ans = some true then w.netDone b n else { w with blocked := w.blocked ++ [b] }
  | _ => { w with blocked := w.blocked ++ [b] }

/-- Judge the network waits of a warp (R430); held back in handler mode (R438). -/
def Warp.judgeNets (w : Warp) : Warp := if w.hmode then w else w.blocked.foldl Warp.judgeNet { w with blocked := [] }

/-- Whether some wait of the warp was answered at a scope that makes its acquire discard the L1 (R410). -/
def Warp.netAcquires (w : Warp) : Bool :=
  !w.hmode && w.blocked.any fun b => match b.why with
    | .net n => n.ans == some true && decide (n.scope ≥ 3)
    | _ => false

/-- Judge a warp's network waits, with the acquire (R198, R410). -/
def State.judgeNets (s : State) (wid warp : Nat) : State :=
  match look s.wgs wid, s.warp? wid warp with
  | some g, some w =>
    if g.st == .saved then s
    else
      let s := if w.netAcquires then s.modCore g.core Core.dropL1 else s
      s.modWarp wid warp Warp.judgeNets
  | _, _ => s

/-- The release of an arrival's threads (R408): at once, or noted while their warp is in its handler or saved (R430, R438). -/
def State.netRelease (s : State) (e : Nat × Nat × Nat) : State :=
  (s.modWarp e.1 e.2.1 fun w =>
    { w with blocked := w.blocked.map fun b => b.answer e.2.2, kept := w.kept.map fun b => b.answer e.2.2 }).judgeNets e.1 e.2.1

/-- A phase completes: its waiters are released; the context is freed unless arrivals of the next phase are in (R407, R408). -/
def State.netComplete (s : State) (k : Nat) : State :=
  match s.nets[k]? with
  | none => s
  | some n =>
    let s1 := { s with nets := if n.late.isEmpty then s.nets.eraseIdx k else s.nets.set k { n with
      waits := n.late.map fun e => (e.1, e.2.1, e.2.2.1)
      cores := n.late.map fun e => e.2.2.2.2
      parity := match n.late.getLast? with
        | some e => e.2.2.2.1
        | none => n.parity
      late := [], sums := none } }
    n.waits.foldl (fun s e => s.netRelease e) s1

/-- What answers a refused arrival: whether its threads can take the trap now. -/
def State.mayRefuse (s : State) (wid warp : Nat) : Bool :=
  match look s.wgs wid, s.warp? wid warp with
  | some g, some w => g.st == .running && !w.hmode && w.hold.isNone && !s.storing g.core wid warp
  | _, _ => true

/-- A refused arrival (R408): its threads take PHASE_STATE at their instruction, which has had no effect. -/
def State.netRefuse (s : State) (wid warp id : Nat) : State :=
  match s.warp? wid warp with
  | none => s
  | some w =>
    match w.blocked.find? fun b => b.waitsFor id with
    | none => s
    | some b =>
      match b.why with
      | .net n =>
        (s.modWarp wid warp fun w =>
          ({ w with blocked := w.blocked.filter fun o => !o.waitsFor id } : Warp).rejoin [⟨b.prio, b.pc, b.mask⟩]).takeTrap n.cur
            (Trap.plain cPHASE_STATE n.cur.bundle)
      | _ => s

/-- NETWORK_ARRIVAL (R408, R410): an arrival is counted, makes its context, or is refused. -/
def execNetworkArrival (k : Nat) (s : State) : Host.Outcome State Fault Refusal :=
  match s.netMail[k]? with
  | none => .next s
  | some a =>
    let s1 := { s with netMail := s.netMail.eraseIdx k }
    match s.nets.findIdx? fun n => n.named a with
    | none =>
      if (levelsTo a.scope).any fun lvl => decide (64 ≤ (liveAt s.nets lvl (scopeInst lvl a.core)).length) then .next s
      else
        let s2 := { s1 with nets := s1.nets ++ [⟨a.ctx, a.ch, a.scope, a.inst, a.n, a.parity, [(a.wid, a.warp, a.id)], [], [a.core], none⟩] }
        .next (if a.n = 1 && a.ch != phaseChannel then s2.netComplete s1.nets.length else s2)
    | some i =>
      match s.nets[i]? with
      | none => .next s
      | some n =>
        if n.n != a.n then (if s.mayRefuse a.wid a.warp then .next (s1.netRefuse a.wid a.warp a.id) else .next s)
        else if n.waits.length ≥ n.n then
          .next { s1 with nets := s1.nets.set i { n with late := n.late ++ [(a.wid, a.warp, a.id, a.parity, a.core)] } }
        else
          let n' : Net := { n with waits := n.waits ++ [(a.wid, a.warp, a.id)], cores := n.cores ++ [a.core], parity := a.parity }
          let s2 := { s1 with nets := s1.nets.set i n' }
          .next (if n'.waits.length ≥ n.n && a.ch != phaseChannel then s2.netComplete i else s2)

/-- An arrival leaves and the threads of E block (R430). -/
def Ix.arrive (x : Ix) (phase : Bool) (scope ch n k : Nat) (d : Opnd) : Eff :=
  let inst := scopeInst scope x.g.core
  if !x.s.nodeRoom scope x.g.core x.kr.ctx ch then .stall
  else
    let (id, s) := x.s.postNo
    let w : NetWait := ⟨id, phase, scope, ch, n, k, d.idx, x.c, none⟩
    let s := x.inWarp s fun v => v.block x.c x.on (.net w)
    .mach { s with netMail := s.netMail ++ [⟨x.kr.ctx, ch, scope, inst, n, k % 2 == 1, x.c.wid, x.c.warp, id, x.g.core⟩] } none [x.others]

/-- A participant count outside its range (R430). -/
def badCount (n : Nat) : Bool := n == 0 || decide (n > 2 ^ 24)

/-- The arrival of an `HBAR`. -/
def Ix.hbarArrive (x : Ix) (mm : Mm) (d a : Opnd) (ch : BitVec 4) : Eff :=
  x.arrive false (scopeCode mm.scope) ch.toNat (x.u32 a) (lookD x.w.hcnt ch.toNat 0).toNat d

/-- `HBAR` (R410, R430). -/
def execHbar (h : Hd) (mm : Mm) (d a : Opnd) (ch : BitVec 4) (s : State) : Host.Outcome State Fault Refusal :=
  issue (.hbar h mm d a ch) s fun x =>
    if x.idle then x.pass
    else if badCount (x.u32 a) then .trap (Trap.plain cPHASE_STATE x.c.bundle)
    else if x.allAcked then x.hbarArrive mm d a ch
    else .hold .acks x.s

/-- `PHASE` (R415, R416, R430). -/
def execPhase (h : Hd) (d a : Opnd) (s : State) : Host.Outcome State Fault Refusal :=
  issue (.phase h d a) s fun x =>
    if x.idle then x.pass
    else if badCount (x.u32 a) || !x.kr.rc.superstep then .trap (Trap.plain cPHASE_STATE x.c.bundle)
    else x.arrive true x.kr.rc.sscope phaseChannel (x.u32 a) x.w.ph.toNat d

/-- FENCE_COMPLETE (R349, R410): what a fence, or an `HBAR` before its arrival, waits for has come. -/
def execFenceComplete (wid warp : Nat) (s : State) : Host.Outcome State Fault Refusal :=
  s.endHold wid warp fun h x =>
    match h.wait, h.instr with
    | .fence _, .fence _ mm kr kg kl => if x.fenceMet mm kr kg kl then some (x.fenced mm) else none
    | .acks, .hbar _ mm d a ch => if x.allAcked then some (x.hbarArrive mm d a ch) else none
    | _, _ => none

/-! ### Sweeps (R412, R414) -/

/-- The counters of a parity in an instance, summed (R414): sent and applied. -/
def State.sweep (s : State) (scope inst : Nat) (parity : Bool) : Nat × Nat :=
  let cores := (s.cores.filter fun c => scopeInst scope c.1 == inst).map fun c => c.2.cnt
  let spires := if scope < 4 then [] else (s.spires.filter fun p => scopeInst scope (192 * (p.1 / 2)) == inst).map fun p => p.2.cnt
  let all := cores ++ spires
  ((all.map fun c => (if parity then c.sent1 else c.sent0).toNat).sum, (all.map fun c => (if parity then c.appl1 else c.appl0).toNat).sum)

/-- BALANCE_SWEEP (R414): the phase completes when two sweeps in a row agree and balance. -/
def execBalanceSweep (k : Nat) (s : State) : Host.Outcome State Fault Refusal :=
  match s.nets[k]? with
  | none => .next s
  | some n =>
    if n.ch != phaseChannel || decide (n.waits.length < n.n) then .next s
    else
      let r := s.sweep n.scope n.inst n.parity
      if n.sums = some r && r.1 == r.2 then .next (s.netComplete k)
      else .next { s with nets := s.nets.set k { n with sums := some r } }

/-! ### Queries (R432, R433) -/

/-- `PHQRY` (R432). -/
def execPhqry (h : Hd) (d : Opnd) (sel : BitVec 4) (s : State) : Host.Outcome State Fault Refusal :=
  issue (.phqry h d sel) s fun x =>
    let c := (x.s.core x.g.core).cnt
    x.give d false (x.once (match sel.toNat with
      | 0 => x.w.ph.toNat % 2 ^ 32
      | 1 => x.w.ph.toNat % 2 * 8 + x.kr.rc.sscope
      | 2 => c.sent0.toNat % 2 ^ 32
      | 3 => c.sent1.toNat % 2 ^ 32
      | 4 => c.appl0.toNat % 2 ^ 32
      | 5 => c.appl1.toNat % 2 ^ 32
      | _ => 0))

/-- `DMQRY` (R433). -/
def execDmqry (h : Hd) (d : Opnd) (s : State) : Host.Outcome State Fault Refusal :=
  issue (.dmqry h d) s fun x =>
    let die := dieOf x.g.core
    let l := (x.s.die die).log
    let mine := x.kr.rc.det == 2 && l.bound == some x.g.inst
    let idx := match x.s.logIndex die with
      | some pa => memNat x.s.mem pa 4
      | none => 0
    let bit (b : Bool) (n : Nat) : Nat := if mine && b then 2 ^ n else 0
    x.give d true (x.once ((if mine then idx * 2 ^ 32 else 0) + bit l.div 7 + bit l.rend 6 + bit l.stall 5 + bit l.rpl 4 + x.kr.rc.det * 4))

/-! ### Ordered acts (R421-R424, R431) -/

/-- `OAPP` (R431): with no lane's guard true it takes its round all the same. -/
def execOapp (h : Hd) (d a : Opnd) (ch : BitVec 3) (s : State) : Host.Outcome State Fault Refusal :=
  issue (.oapp h d a ch) s fun x => x.askAct ch.toNat

/-- `ODECL` (R431). -/
def execOdecl (h : Hd) (ch : BitVec 3) (s : State) : Host.Outcome State Fault Refusal :=
  issue (.odecl h ch) s fun x => if x.idle then x.pass else x.askAct ch.toNat

/-- The machine of an effect, or of one that the instruction goes on waiting after, changed. -/
def Eff.andThen (f : State → State) : Eff → Eff
  | .mach s cap go => .mach (f s) cap go
  | .hold k s => .hold k (f s)
  | e => e

/-- What a granted act does, and what it adds to the total (R422). -/
def Ix.act (x : Ix) (ch : Nat) : Eff × BitVec 64 :=
  match x.i with
  | .atg _ mm op nr ty d a b c => (x.atomEnd nr ty d (x.atgRun mm op ty a b c), 0)
  | .oapp _ d a _ =>
    if x.idle then (x.to x.s, 0)
    else (x.giveIn x.s d true (x.once ((x.s.die (dieOf x.g.core)).chan ch).total.toNat), BitVec.ofNat 64 (x.u32 a))
  | .odecl _ _ => (x.to x.s, 0)
  | _ => (x.keyGranted ch, 0)

/-- A grant: the act, its round, and the acquire of R424. -/
def Ix.granted (x : Ix) (ch : Nat) : Eff :=
  let (e, add) := x.act ch
  e.andThen fun s => (s.actMade (dieOf x.g.core) ch x.g.g x.c.warp add).modCore x.g.core Core.dropL1

/-- The warps of a die that wait for an act on a channel. -/
def State.actWaiters (s : State) (die ch : Nat) : List (Nat × Nat) :=
  (s.wgs.map fun p => if dieOf p.2.core = die then
    (p.2.warps.filter fun w => match w.2.hold with
      | some h => h.wait == .act ch
      | none => false).map fun w => (p.1, w.1) else []).flatten

/-- ACT_GRANT (R422): the next act in grant order, if its warp asks for it. -/
def execActGrant (die ch : Nat) (s : State) : Host.Outcome State Fault Refusal :=
  match (s.actWaiters die ch).find? fun p => s.mayAct die ch (p.1 / 2 ^ 48) (p.1 % 2 ^ 48) p.2 with
  | none => .next s
  | some (wid, warp) => s.endHold wid warp fun _ x => some (x.granted ch)

/-! ### The order log (R426-R428) -/

/-- The entries that an instruction makes: kind and value (R426). `old` are the values that it returns, lowest lane first. -/
def logEntries (i : Instr) (old : List LaneVal) (spills : List Nat) : List (Nat × Nat) :=
  let first : Nat := match old with
    | r :: _ => r.2.toNat
    | [] => 0
  match i with
  | .atg _ mm _ _ _ _ _ _ _ => [(if readOnly mm then 5 else 1, first)]
  | .atl _ mm _ _ _ _ _ _ _ => [(if readOnly mm then 5 else 2, first)]
  | i => (if keyedReturns i then [(3, 0)] else []) ++ spills.map fun n => (4, n)

/-- A logged instruction as it would be made: its effect and its entries. -/
def Ix.loggedEffect (x : Ix) : Eff × List (Nat × Nat) :=
  match x.i with
  | .atg _ mm op nr ty d a b c =>
    let r := x.atgRun mm op ty a b c
    (x.atomEnd nr ty d r, match r with
      | .ok p => logEntries x.i p.2 []
      | .error _ => [])
  | .atl _ mm op nr ty d a b c =>
    let r := x.atlRun mm op ty a b c
    (x.atomEnd nr ty d r, match r with
      | .ok p => logEntries x.i p.2 []
      | .error _ => [])
  | _ =>
    match x.g.claim with
    | none => (.trap (Trap.plain cKEY_STATE x.c.bundle), [])
    | some cl =>
      let r := x.keyRun cl
      match r.trap with
      | some t => (.trap t, [])
      | none => (x.keyEnd r r.s, logEntries x.i [] r.spills)

/-- The 16 bytes of an entry (R426). -/
def logEntry (kind warp seq g v : Nat) : List Byte :=
  bytesOfNat 8 (g % 2 ^ 32 + seq % 2 ^ 23 * 2 ^ 32 + warp * 2 ^ 55 + kind * 2 ^ 60) ++ bytesOfNat 8 v

def State.modLog (s : State) (die : Nat) (f : OrderLog → OrderLog) : State := s.modDie die fun d => { d with log := f d.log }

/-- The index has reached the share: logged events stall, and the host is notified (R428). -/
def State.logStalled (s : State) (die : Nat) : State :=
  if (s.die die).log.stall then s else (s.note (pkgOfDie die) 1).modLog die fun l => { l with stall := true }

/-- The index word moves on from entry n. -/
def State.logIdx (s : State) (g : LogShare) (n : Nat) : State := s.gwrite none false g.idx (bytesOfNat 4 (n + 1))

/-- The unit writes entry n and the index after it. -/
def State.logPut (s : State) (die : Nat) (g : LogShare) (n : Nat) (e : List Byte) : State :=
  let s := match s.logPa die g.ctx (g.base + 16 * n) with
    | some pa => s.gwrite none false pa e
    | none => s
  s.logIdx g n

/-- The same for the die's own log, which stalls when it is full (R428). -/
def State.logWrite (s : State) (die : Nat) (g : LogShare) (n : Nat) (e : List Byte) : State :=
  let s := s.logPut die g n e
  if n + 1 ≥ g.share then s.logStalled die else s

/-- Replay goes past the entries of warps that are over, and comes to its end (R427). -/
def State.replayOn (s : State) (die inst : Nat) (g : LogShare) : Nat → State
  | 0 => s
  | k + 1 =>
    let n := memNat s.mem g.idx 4
    if s.logEnds die g n then s.modLog die fun l => { l with rend := true }
    else if s.logDead die inst g n then ((s.logIdx g n).modLog die fun l => { l with div := true }).replayOn die inst g k
    else s

/-- What a replaying die's unit does without an event: entries of warps that are over are skipped, the end is noted (R427). -/
def State.logSettle (s : State) (die : Nat) : State :=
  let l := (s.die die).log
  match l.bound with
  | none => s
  | some inst =>
    if !l.rpl || l.rend then s
    else
      match s.logShareOf die inst with
      | some g => s.replayOn die inst g (g.share + 1)
      | none => s

/-- An event made, counted in its warp, with the machine change that the log's unit makes after it. -/
def Ix.logMade (x : Ix) (f : State → State) (e : Eff) : Eff :=
  e.andThen fun s => f (x.inWarp s fun w => { w with logSeq := (w.logSeq + 1) % 2 ^ 23 })

/-- An event that no log holds is ordered as in D1 (R427): a keyed instruction asks for the acts of the spills still to come. -/
def Ix.unlogged (x : Ix) (e : Eff) (es : List (Nat × Nat)) : Eff :=
  match x.i with
  | .atg _ _ _ _ _ _ _ _ _ => x.askAct 7
  | .atl _ _ _ _ _ _ _ _ _ => e
  | _ =>
    let made := ((es.take x.w.keyMade).filter fun q => q.1 == 4).length
    if made < (es.filter fun q => q.1 == 4).length then
      (x.askAct ((x.g.claim.map Claim.ch).getD 0)).andThen fun s => x.inWarp s fun w => { w with keyMade := made }
    else e

/-- The turn of an event while recording: it stalls on a full log (R427, R428). -/
def Ix.recordTurn (x : Ix) (full : Option Nat) (g : LogShare) (n : Nat) (go : Eff) (e : Nat × Nat) : Eff :=
  let die := dieOf x.g.core
  if (x.s.die die).log.stall || decide (g.share ≤ n) then .hold (.logged (some (full.getD x.s.time))) (x.s.logStalled die)
  else x.logMade (fun s => s.logWrite die g n (logEntry e.1 x.c.warp x.w.logSeq x.g.g e.2)) go

/-- The turn of an event in replay (R427): made when the entry names its warp and `SEQ`; a value that differs sets `DIV`. -/
def Ix.replayTurn (x : Ix) (g : LogShare) (n : Nat) (go : Eff) (e : Nat × Nat) : Option Eff :=
  let die := dieOf x.g.core
  let w := x.s.logAt die g n
  if x.s.logEnds die g n || x.s.logDead die x.g.inst g n then some (.hold (.logged none) (x.s.logSettle die))
  else if w.1 % 2 ^ 60 = x.g.g % 2 ^ 32 + x.w.logSeq % 2 ^ 23 * 2 ^ 32 + x.c.warp * 2 ^ 55 then
    some (x.logMade (fun s =>
      ((if w.2 = e.2 then s else s.modLog die fun l => { l with div := true }).logIdx g n).logSettle die) go)
  else none

/-- The next of an instruction's logged events, and what it does: the last makes the instruction's effect whole (R301; L80). -/
def Ix.nextEvent (x : Ix) (e : Eff) (es : List (Nat × Nat)) : Eff × Option (Nat × Nat) :=
  (if x.w.keyMade + 1 < es.length then .hold (.logged none) (x.inWarp x.s fun w => { w with keyMade := w.keyMade + 1 }) else e,
    es[x.w.keyMade]?)

/-- The turn of a logged event of a warp, as the die's log stands (R427). -/
def Ix.loggedTurn (x : Ix) (full : Option Nat) : Option Eff :=
  let die := dieOf x.g.core
  let (e, es) := x.loggedEffect
  let (go, next) := x.nextEvent e es
  match e with
  | .mach _ _ _ =>
    (match x.s.logShareOf die x.g.inst, next with
    | some g, some q =>
      let n := memNat x.s.mem g.idx 4
      if (x.s.die die).log.rend then some (x.unlogged e es)
      else if (x.s.die die).log.rpl then x.replayTurn g n go q
      else some (x.recordTurn full g n go q)
    | none, some _ => some (x.unlogged e es)
    | _, none => some e)
  | _ => some e

/-- LOGGED_EVENT (R427): the turn of a warp's event; for a warp that waits for none, what the die's log does without an event. -/
def execLoggedEvent (wid warp : Nat) (s : State) : Host.Outcome State Fault Refusal :=
  match s.held wid warp with
  | some (h, x) =>
    (match h.wait with
    | .logged full => (match x.loggedTurn full with
      | some e => .next (x.settleHeld e)
      | none => .next s)
    | _ => .next (s.logSettle (dieOf x.g.core)))
  | none =>
    match look s.wgs wid with
    | some g => .next (s.logSettle (dieOf g.core))
    | none => .next s

/-- LOG_FULL (R428): a warp that has stalled 10 ms on a full log traps. -/
def execLogFull (wid warp : Nat) (s : State) : Host.Outcome State Fault Refusal :=
  s.endHold wid warp fun h x =>
    match h.wait with
    | .logged (some t) =>
      if (s.die (dieOf x.g.core)).log.stall && decide (t + stallTime ≤ s.time) then
        some (.trap (Trap.plain cLOG_FULL x.c.bundle))
      else none
    | _ => none

end Sys2Proof.Machine
end

