-- ==== Sys2Proof/Machine/Port.lean ====
section
/-! DEFINITION. Kernels from outside and their completion (04 R92, R95, R100; 19 R461): the launch port of a package, and the
arrival on a completion word. -/

namespace Sys2Proof.Machine

/-! ### The completion arrival (R100) -/

/-- The home address of a completion word, or the cause that it meets; checked as `RARV` checks its address (R100, R378). -/
def State.completionPa (s : State) (die ctx va : Nat) : Except (BitVec 7) Nat :=
  let t : Tr := match s.walk die ctx va with
    | .page p => .page p
    | .absent => .absent
    | .poison => .poison
  match t.cause false true, t with
  | some c, _ => .error c.2
  | none, .page p =>
    if p.hmem || p.cls != 3 then .error cPAGE_CLASS
    else if !s.reachable (p.pa va) then .error cREMOTE_UNREACH
    else .ok (p.pa va)
  | none, _ => .error cPAGE_ABSENT

/-- The operation that a completion arrival is. -/
def completionSend (pa : Nat) (fault : Bool) : Send :=
  ⟨pa, 6, 3, 0, false, false, none, bytesOfNat 8 (if fault then 0x100000001 else 1), none⟩

/-- A launch unit makes a completion arrival; none while its stream has no room. -/
def State.completionSent (s : State) (inst die pa : Nat) (fault : Bool) : Option State :=
  let x := completionSend pa fault
  if s.roomFor (coresAgent die) true [x] then
    some (s.enter (coresAgent die) (.engine (widOf inst 0) (192 * die)) false none x).2
  else none

/-! ### The launch port (R92, R95, R100, R461) -/

/-- The dies that a record written to a package's port names (R93). -/
def portDies (pkg : Nat) (rc : LaunchRec) : List Nat := namedDies pkg rc.dies ((List.range 4).map fun d => 4 * pkg + d)

/-- A refused record is counted, and makes a faulted arrival if its completion word can take one (R100, R461). -/
def State.refuseRecord (s : State) (pkg ctx home : Nat) (rc : LaunchRec) (bad : BitVec 7 × Nat) : Option State :=
  let s1 := s.modPkg pkg fun p =>
    { p with ref := min (p.ref + 1) 65535, lcode := bad.1.setWidth 8, loff := BitVec.ofNat 8 bad.2 }
  if rc.compl = 0 ∨ rc.compl % 8 ≠ 0 then some s1
  else
    match s.completionPa home ctx rc.compl with
    | .ok pa => s1.completionSent 0 home pa true
    | .error _ => some s1

/-- The next write of a port is checked and handled; none while it must wait (R92, R95, R461). One that is no record, which waits
as no bytes, is discarded and counted. -/
def State.portRecord (s : State) (pkg ctx : Nat) (bs : List Byte) : Option State :=
  if bs.isEmpty then some (s.modPkg pkg fun p => { p with bad := min (p.bad + 1) 65535 }) else
  let rc := launchOf bs
  let dies := portDies pkg rc
  let home := dies.headD (4 * pkg)
  match s.recBad home ctx 4 bs with
  | some bad => s.refuseRecord pkg ctx home rc bad
  | none => if dies.any s.pendFull then none else some (s.accept rc ctx home dies)

/-- Whether a record waits for a place in a named die's pending table, which is what withholds credit (R461). -/
def State.portFull (s : State) (pkg ctx : Nat) (bs : List Byte) : Bool :=
  let dies := portDies pkg (launchOf bs)
  (s.recBad (dies.headD (4 * pkg)) ctx 4 bs).isNone && dies.any s.pendFull

/-- The records that wait at a port, in arrival order, as far as they can be handled; `HOLD` while a full table makes one wait
(R461). -/
def State.drainPort (s : State) (pkg : Nat) : List (Nat × List Byte) → State
  | [] => s.modPkg pkg fun p => { p with lpq := [], holdc := false }
  | r :: rs =>
    match s.portRecord pkg r.1 r.2 with
    | some t => t.drainPort pkg rs
    | none => s.modPkg pkg fun p => { p with lpq := r :: rs, holdc := s.portFull pkg r.1 r.2 }

/-- A port looks at what waits. -/
def State.portTurn (s : State) (pkg : Nat) : State := s.drainPort pkg (s.pkg pkg).lpq

/-- LAUNCH_PORT_WRITE (R461): 64 aligned bytes are a record; any other write is discarded and counted. A write waits behind those
that wait. -/
def execLaunchPortWrite (pkg ctx off : Nat) (bytes : List (BitVec 8)) (s : State) : Host.Outcome State Fault Refusal :=
  let good := bytes.length == 64 && off % 64 == 0 && decide (off < 4096)
  .next ((s.modPkg pkg fun p => { p with lpq := p.lpq ++ [(ctx, if good then bytes else [])] }).portTurn pkg)

end Sys2Proof.Machine
end

