-- ==== Sys2Proof/Machine/Sys.lean ====
section
/-! DEFINITION. The SYS group (18 R451-R457): traps, the return from a trap, deferred causes, holds against pre-emption,
translation buffers, debug. -/

namespace Sys2Proof.Machine

/-- `TRAP` (R452). -/
def execTrap (h : Hd) (n : BitVec 4) (s : State) : Host.Outcome State Fault Refusal :=
  issue (.trap h n) s fun x =>
    if x.idle then x.pass else .trap (Trap.addr (0x70#7 + n.setWidth 7) x.on 0)

/-! ### The return from a trap (R453) -/

/-- The machine after a `TRET` whose frame is accepted: the port's latches are clear, no entry ages, the waits are judged. -/
def Ix.returned (x : Ix) : State :=
  let now := x.s.clocksAt x.g.core
  let s := x.s.modCore x.g.core fun k => k.setPort x.w.port { x.portAfter none with latch := [] }
  let s := x.inWarp s fun w =>
    let w := (w.afterHandler x.g.mem).judgeBars x.g.bar
    { w with
      hold := none, walked := [], latched := none, tpnd := false, stUntil := now + x.f.hd.st.toNat, passOver := x.f.hd.yl
      readySince := none }
  { s.judgeNets x.c.wid x.c.warp with cur := none }

/-- What `TRET` comes to: the frame that it refuses is a cause met in handler mode (R441). -/
def Ix.tretEff (x : Ix) : Eff :=
  match x.idle, x.w.refusedLanes x.g.mem with
  | false, l :: ls => .trap (Trap.plain cTRET_FRAME (maskOf (l :: ls)))
  | _, _ => x.pass

/-- `TRET` (R453). -/
def Ix.tret (x : Ix) : State :=
  match x.entering (x.checked x.tretEff) with
  | .regs w cap go => if x.idle then x.settle (.regs w cap go) else x.returned
  | e => x.settle e

def execTret (h : Hd) (s : State) : Host.Outcome State Fault Refusal :=
  match Ix.of s (.tret h) with
  | none => .next s
  | some x => .next x.tret

/-! ### Deferred causes and pre-emption -/

/-- `TRDC` (R454). -/
def execTrdc (h : Hd) (clr : Bool) (d : Opnd) (s : State) : Host.Outcome State Fault Refusal :=
  issue (.trdc h clr d) s fun x =>
    if x.idle then x.pass
    else
      let w := if clr then { x.w with dfr := [], lost := 0 } else x.w
      .regs (x.written w d false (x.once (x.w.dfr.length + min x.w.lost 255 * 256))) none x.c.advance

/-- `PPT` (R455). -/
def execPpt (h : Hd) (mode : PptMode) (n : BitVec 24) (s : State) : Host.Outcome State Fault Refusal :=
  issue (.ppt h mode n) s fun x =>
    if x.idle then x.pass
    else
      match mode with
      | .pt => x.warpTo { x.w with ppt := none, yielded := x.g.stopAt.isSome }
      | .hold =>
        if n = 0 ∨ n.toNat > 65536 then .trap (Trap.plain cPPT_STATE x.on)
        else x.warpTo { x.w with ppt := some (x.s.clocksAt x.g.core + n.toNat) }
      | .rel => x.warpTo { x.w with ppt := none }

/-- PPT_HOLD_EXPIRY (R455): a warp's hold has run out, by its own limit or the request's. -/
def execPptHoldExpiry (wid warp : Nat) (s : State) : Host.Outcome State Fault Refusal :=
  match look s.wgs wid, s.warp? wid warp with
  | some g, some w =>
    let now := s.clocksAt g.core
    let ends := match w.ppt, g.stopAt with
      | some t, some r => decide (t ≤ now) || decide (r + 65536 ≤ now)
      | some t, none => decide (t ≤ now)
      | none, _ => false
    .next (if ends then s.modWarp wid warp fun w => { w with ppt := none } else s)
  | _, _ => .next s

/-! ### Translation buffers (R456) -/

/-- A buffer without the issuing context's translations, all or those of one page. -/
def tlbDrop (ctx : Nat) (at_ : Option Nat) (t : List TlbEntry) : List TlbEntry :=
  t.filter fun e => !(e.ctx == ctx && match at_ with
    | some va => decide (e.va ≤ va) && decide (va < e.va + e.page.size)
    | none => true)

/-- The dies of an invalidation's scope. -/
def tlbDies (die : Nat) (scope : BitVec 3) (d : Nat) : Bool := if scope = 4#3 then d == die else pkgOfDie d == pkgOfDie die

/-- Every buffer of the scope acts; walks in flight there are not installed (R456). -/
def State.tlbInv (s : State) (die ctx : Nat) (scope : BitVec 3) (at_ : Option Nat) : State :=
  { s with
    cores := s.cores.map fun p => (p.1, if tlbDies die scope (dieOf p.1) then { p.2 with tlb := tlbDrop ctx at_ p.2.tlb } else p.2)
    dies := s.dies.map fun p => (p.1, if tlbDies die scope p.1 then { p.2 with
      tlb := tlbDrop ctx at_ p.2.tlb, walks := p.2.walks.map fun w => { w with install := false } } else p.2) }

/-- `TLBINV` (R456). -/
def execTlbinv (h : Hd) (scope : BitVec 3) (all : Bool) (a : Opnd) (s : State) : Host.Outcome State Fault Refusal :=
  issue (.tlbinv h scope all a) s fun x =>
    if x.idle then x.pass
    else x.to (x.s.tlbInv (dieOf x.g.core) x.kr.ctx scope (if all then none else some (x.u64 a)))

/-! ### Debug (R457) -/

/-- `DBG` (R457). -/
def execDbg (h : Hd) (mode : DbgMode) (a b : Opnd) (code : BitVec 16) (s : State) : Host.Outcome State Fault Refusal :=
  issue (.dbg h mode a b code) s fun x =>
    if x.idle then x.pass
    else
      match mode with
      | .brk => .trap { Trap.plain cDBG_BREAK x.on with info := some (code.setWidth 32) }
      | .step => x.warpTo { x.w with step := true }
      | .nostep => x.warpTo { x.w with step := false }
      | .watch => x.warpTo { x.w with watchBase := BitVec.ofNat 64 (x.u64 a), watchLen := BitVec.ofNat 32 (x.u32 b) }

end Sys2Proof.Machine
end

