-- ==== Sys2Proof/Machine/Launch.lean ====
section
/-! DEFINITION. The launch unit of a die (04 R92-R100; 07 R182-R185; 17 R423, R425): what a core has free, where a workgroup
goes, carve changes, whom it pre-empts, placement, retirement, kernel completion. -/

namespace Sys2Proof.Machine

/-! ### What a core has free (R96, R77, R117, R186) -/

/-- What a workgroup needs of a core: its record's counts, and what a saved one held (R446). -/
structure Need where
  rc : LaunchRec
  xunits : Nat
  matrix : Bool
  claim : Option Nat
  deriving DecidableEq, Repr, Inhabited

def LaunchRec.need (r : LaunchRec) : Need := ⟨r, 0, false, none⟩

/-- The workgroups on a core, with their kernels' records. -/
def State.onCore (s : State) (core : Nat) : List (Nat × Wg × LaunchRec) :=
  s.wgs.filterMap fun p => if p.2.on core then (look s.kernels p.2.inst).map fun k => (p.1, p.2, k.rc) else none

/-- The same with some of them gone. -/
def without (ws : List (Nat × Wg × LaunchRec)) (out : List Nat) : List (Nat × Wg × LaunchRec) := ws.filter fun w => !out.contains w.1

/-- The warp slots in use. -/
def usedSlots (ws : List (Nat × Wg × LaunchRec)) : List Nat :=
  (ws.map fun w => (w.2.1.warps.map fun p => (List.range w.2.2.slots).map fun i => p.2.ctx0 / 32 + i).flatten).flatten

/-- First slots for n warps: each the lowest aligned run of free slots (R77). -/
def takeSlots (width : Nat) : Nat → List Nat → Option (List Nat)
  | 0, _ => some []
  | n + 1, used =>
    match (List.range (64 / width)).find? fun i => (List.range width).all fun j => !used.contains (width * i + j) with
    | none => none
    | some i => (takeSlots width n (used ++ (List.range width).map fun j => width * i + j)).map fun r => width * i :: r

/-- A sum over the workgroups on a core. -/
def total (ws : List (Nat × Wg × LaunchRec)) (f : LaunchRec → Nat) : Nat := (ws.map fun w => f w.2.2).sum

/-- REG units in use. -/
def regUnits (ws : List (Nat × Wg × LaunchRec)) : Nat :=
  (ws.map fun w => w.2.2.warps * w.2.2.units w.2.2.regs +
    (w.2.1.warps.map fun p => if p.2.live = 0 then 0 else w.2.2.units p.2.x).sum).sum

/-- Whether a core with these workgroups has what is needed: the first slots of the warps (R96, R446). -/
def State.holdsWith (s : State) (core : Nat) (ws : List (Nat × Wg × LaunchRec)) (n : Need) : Option (List Nat) :=
  let r := n.rc
  let c := s.core core
  if c.carve = r.carve && c.drain.isNone && c.change.isNone &&
      decide (regUnits ws + r.warps * r.units r.regs + n.xunits ≤ 64 * c.carve.reg) &&
      decide (total ws LaunchRec.locUnits + r.locUnits ≤ 64 * c.carve.loc) &&
      decide (total ws (·.accs) + r.accs ≤ 16) && decide (total ws (·.tiles) + r.tiles ≤ 16) &&
      decide (total ws (·.bars) + r.bars ≤ 256) && decide (total ws (·.copies) + r.copies ≤ 128) &&
      (!n.matrix || c.mx.holder.isNone || (match c.mx.holder with
        | some h => !(ws.any fun w => w.1 == h)
        | none => true)) &&
      (match n.claim with
        | none => true
        | some b => (List.range (1024 * c.carve.key / b)).any fun i => ws.all fun w => match w.2.1.claim with
          | some k => !(decide (b * i < k.base + k.n) && decide (k.base < b * i + b))
          | none => true) then
    takeSlots r.slots r.warps (usedSlots ws)
  else none

/-- Whether a core can hold it now. -/
def State.holds (s : State) (core : Nat) (n : Need) : Option (List Nat) := s.holdsWith core (s.onCore core) n

/-- Free warp slots of a core. -/
def State.freeSlots (s : State) (core : Nat) : Nat := 64 - (usedSlots (s.onCore core)).length

/-- The cores of some dies, in ascending order. -/
def coresOf (dies : List Nat) : List Nat := (dies.map fun d => (List.range 192).map fun c => 192 * d + c).flatten

/-- Of some cores the one with the largest number, the first on a tie. -/
def bestBy (f : Nat → Nat) : List Nat → Option Nat
  | [] => none
  | c :: cs =>
    match bestBy f cs with
    | none => some c
    | some b => if f b ≤ f c then some c else some b

/-! ### Carve changes (R98, R182-R184) -/

/-- A core with no workgroup (R182): one leaves only when its stash lines are written back and acknowledged and its claim is
released (R193, R444). -/
def State.quiescent (s : State) (core : Nat) : Bool := (s.onCore core).isEmpty

/-- Whether a core has been given to a waiting workgroup of free mode: quiescent, its change to the carve under way or about to
begin (R98, L69). -/
def State.givenTo (s : State) (core wid : Nat) (v : Carve) : Bool :=
  let c := s.core core
  c.asker == some wid && match c.change with
    | some (w, _) => w == v
    | none => c.drain == some v && s.quiescent core

/-- The quiescent core of another carve that free mode gives the carve (R98, R184). -/
def State.quietCore (s : State) (cores : List Nat) (v : Carve) : Option Nat :=
  cores.find? fun c => (s.core c).drain.isNone && (s.core c).change.isNone && s.quiescent c && (s.core c).carve != v

/-- The core that becomes draining in free mode: the one with the fewest resident warps, and none of a die on which a core drains
toward the carve already (R184). -/
def State.drainee (s : State) (cores : List Nat) (v : Carve) : Option Nat :=
  let dies := (cores.filter fun c => (s.core c).drain == some v).map dieOf
  bestBy (fun c => 10000 - ((s.onCore c).map fun w => (w.2.1.warps.filter fun p => p.2.live != 0).length).sum)
    (cores.filter fun c => (s.core c).drain.isNone && (s.core c).change.isNone && !dies.contains (dieOf c))

/-- A core becomes draining; in free mode for a waiting workgroup. -/
def State.drainCore (s : State) (core : Nat) (v : Carve) (asker : Option Nat) : State :=
  s.modCore core fun c => { c with drain := some v, asker := asker }

/-- CARVE_CHANGE (R183): the change of a draining core begins when it is quiescent. -/
def execCarveChange (core : Nat) (s : State) : Host.Outcome State Fault Refusal :=
  match (s.core core).drain with
  | none => .next s
  | some v =>
    if s.quiescent core then
      .next (s.modCore core fun c => { c with drain := none, change := some (v, s.clocksAt core + 512) })
    else .next s

/-- CARVE_CHANGE_DONE (R183). -/
def execCarveChangeDone (core : Nat) (s : State) : Host.Outcome State Fault Refusal :=
  match (s.core core).change with
  | none => .next s
  | some (v, t) =>
    if t ≤ s.clocksAt core then .next (s.modCore core fun c => { c with carve := v, l1 := [], change := none }) else .next s

/-! ### Candidates (R97, R98) -/

/-- The lowest number that a list leaves out. -/
def lowestOut (xs : List Nat) : Nat := ((List.range (xs.length + 1)).find? fun n => !xs.contains n).getD 0

/-- The next workgroup of a logical core: the core starts its workgroups in ascending order (R98). -/
def Kernel.nextOn (k : Kernel) (lc : Nat) : Option Nat :=
  let c := 192 * k.dies.length
  let g := lc + c * (k.started.filter fun g => g % c == lc).length
  if g < k.rc.total then some g else none

/-- The logical core of a core of the pod. -/
def Kernel.logicalOf (k : Kernel) (core : Nat) : Nat := 192 * (k.dies.filter fun d => decide (d < dieOf core)).length + core % 192

/-- Whether a D2 kernel may use a die's log (R425). -/
def State.logFree (s : State) (die inst : Nat) (rc : LaunchRec) : Bool :=
  rc.det != 2 || match (s.die die).log.bound with
    | some i => i == inst
    | none => true

/-- The named core that a new workgroup of a kernel in free mode goes to now (R98). -/
def State.freeCore (s : State) (k : Kernel) : Option Nat :=
  bestBy s.freeSlots ((coresOf k.dies).filter fun c => (s.die (dieOf c)).up && (s.holds c k.rc.need).isSome)

/-- The workgroups that a kernel could start on a die now, with their cores and slots, in ascending number (R97, R98). -/
def State.candidates (s : State) (die inst : Nat) (k : Kernel) : List (Nat × Nat × List Nat) :=
  let n := k.rc.need
  if !s.logFree die inst k.rc then []
  else if k.rc.det = 0 then
    let g := lowestOut k.started
    if g ≥ k.rc.total then []
    else
      match s.freeCore k with
      | some c => if dieOf c = die then ((s.holds c n).map fun sl => (g, c, sl)).toList else []
      | none => []
  else
    let cs := (coresOf [die]).filterMap fun c => match k.nextOn (k.logicalOf c), s.holds c n with
      | some g, some sl => some (g, c, sl)
      | _, _ => none
    sortOn (·.1) cs

/-- The workgroups of a kernel that are saved on a die. -/
def State.savedOf (s : State) (die inst : Nat) : List (Nat × Wg) :=
  s.wgs.filter fun p => p.2.inst == inst && p.2.st == .saved && dieOf p.2.core == die

/-- What a saved workgroup needs (R446). -/
def Wg.need (g : Wg) (rc : LaunchRec) : Need :=
  ⟨rc, (g.warps.map fun p => if p.2.live = 0 then 0 else rc.units p.2.x).sum, g.heldMatrix.isSome, g.claim.map (·.n)⟩

/-- Where a saved workgroup can resume now (R99, R446). -/
def State.resumeAt (s : State) (k : Kernel) (g : Wg) : Option (Nat × List Nat) :=
  let die := dieOf g.core
  let n := g.need k.rc
  if k.rc.det = 0 then
    match bestBy s.freeSlots ((coresOf [die]).filter fun c => (s.holds c n).isSome) with
    | some c => (s.holds c n).map fun sl => (c, sl)
    | none => none
  else (s.holds (k.logical g.g) n).map fun sl => (k.logical g.g, sl)

/-! ### Whose act is next (R422, R423) -/

/-- The unplaced workgroups of an instance on a die whose warps' acts are next on some channel (R423). -/
def State.actOwed (s : State) (die inst : Nat) (k : Kernel) : List Nat :=
  (List.range 8).filterMap fun ch =>
    if ((s.die die).chan ch).bound = some inst then
      match s.nextActor die ch inst k with
      | some (g, _) => if k.started.contains g then none else some g
      | none => none
    else none

/-- Whether every live warp of a workgroup is stalled in an act (R423). -/
def Wg.allInActs (g : Wg) : Bool :=
  g.warps.all fun p => p.2.live == 0 || match p.2.hold with
    | some h => (match h.wait with
      | .act _ => true
      | _ => false)
    | none => false

/-! ### Pre-emption by the launch unit (R99, R423) -/

/-- Ask a workgroup to stop (R444). -/
def State.askStop (s : State) (wid : Nat) : State :=
  s.modWg wid fun g => if g.st == .running && g.stopAt.isNone then { g with stopAt := some (s.clocksAt g.core) } else g

/-- The shortest run of victims with which a core can hold the need, those already asked to stop being gone. -/
def State.victims (s : State) (core : Nat) (n : Need) (order : List Nat) : Option (List Nat) :=
  let ws := s.onCore core
  let going := (ws.filter fun w => w.2.1.stopAt.isSome).map (·.1)
  (List.range (order.length + 1)).findSome? fun m =>
    if (s.holdsWith core (without ws (going ++ order.take m)) n).isSome then some (order.take m) else none

/-- Workgroups of lower levels on a core: the lowest level first, the latest start first (R99); one whose image has found no place
in the pool is no candidate while the pool stays as it is (R445). -/
def State.lowerFirst (s : State) (core prio : Nat) : List Nat :=
  let ws := (s.onCore core).filter fun w =>
    decide (w.2.2.prio < prio) && w.2.1.st == .running && w.2.1.stopAt.isNone && !w.2.1.unfit
  (sortOn (fun w => w.2.2.prio) (sortOn (fun w => s.count - w.2.1.order) ws)).map (·.1)

/-- The first core, in R98's order, that could hold a need once lower levels had left it, and the workgroups to leave (R99). -/
def State.preemptCore (s : State) (cores : List Nat) (n : Need) : Option (Nat × List Nat) :=
  (sortOn (fun c => 64 - s.freeSlots c) cores).findSome? fun c => (s.victims c n (s.lowerFirst c n.rc.prio)).map fun vs => (c, vs)

/-- A die's launch unit asks workgroups to leave that core, if it is the die's (R99). -/
def State.preemptFor (s : State) (die : Nat) (cores : List Nat) (n : Need) : State :=
  match s.preemptCore cores n with
  | some (c, vs) => if dieOf c = die then vs.foldl State.askStop s else s
  | none => s

/-- Room for a workgroup whose act is next: workgroups of the instance stalled in acts leave, the highest first (R423). -/
def State.preemptForAct (s : State) (inst : Nat) (k : Kernel) (g : Nat) : State :=
  let core := k.logical g
  let ws := (s.onCore core).filter fun w => w.2.1.inst == inst && w.2.1.st == .running && w.2.1.stopAt.isNone && w.2.1.allInActs
  let order := ((sortOn (fun w => w.2.1.g) ws).map (·.1)).reverse
  match s.victims core k.rc.need order with
  | some vs => vs.foldl State.askStop s
  | none => s

/-- What a die's launch unit does for a workgroup that cannot be placed: a carve change, or pre-emption (R98, R99, R184). `cores`
are all those that the workgroup may go to, whichever die's; a core is changed or cleared by the launch unit of its own die. In free
mode a workgroup that has been given a core waits for it; else it is given a quiescent one; else, where a core has its carve, lower
levels leave that; else one core drains, if none does for it (L69). -/
def State.makeRoom (s : State) (die : Nat) (ordered : Bool) (wid : Nat) (cores : List Nat) (n : Need) : State :=
  let v := n.rc.carve
  if ordered then
    match cores with
    | c :: _ =>
      if (s.core c).carve != v then
        (if (s.core c).drain.isNone && (s.core c).change.isNone then s.drainCore c v none else s)
      else s.preemptFor die cores n
    | [] => s
  else if cores.any fun c => s.givenTo c wid v then s
  else
    let start (c : Option Nat) : State := match c with
      | some c => if dieOf c = die then s.drainCore c v (some wid) else s
      | none => s
    match s.quietCore cores v with
    | some c => start (some c)
    | none =>
      if cores.any fun c => (s.core c).carve = v then s.preemptFor die cores n
      else if cores.any fun c => (s.core c).asker == some wid && (s.core c).drain == some v then s
      else start (s.drainee cores v)

/-! ### Placement (R79, R96, R97, R115) -/

/-- A warp at its start (R79, R115, R116). -/
def Warp.start (rc : LaunchRec) (slot : Nat) : Warp where
  width := rc.width
  ctx0 := 32 * slot
  live := lowLanes rc.width
  front := [⟨0, rc.entry, lowLanes rc.width, 0, 0⟩]
  parked := []
  blocked := []
  issues := 0
  v := []
  s := []
  p := []
  k := []
  x := 0
  frm := 0
  flg := 0
  fte := 0
  rkey := 0
  rctr := 0
  ph := 0
  hcnt := []
  hmode := false
  tfaddr := 0
  clkHi := 0
  tpnd := false
  step := false
  stepDue := false
  watchBase := 0
  watchLen := 0
  dfr := []
  lost := 0
  hold := none
  walked := []
  latched := none
  await := []
  seqFlags := []
  stUntil := 0
  sleepUntil := 0
  readySince := none
  passOver := false
  ppt := none
  yielded := false
  due := none
  entry := []
  kept := []
  rseq := 0
  keyMade := 0
  keyKept := none
  logSeq := 0
  floor := 0

/-- A workgroup at its start (R187, R225, R245, R248). -/
def Wg.start (rc : LaunchRec) (inst g core order : Nat) (slots : List Nat) : Wg where
  inst := inst
  g := g
  core := core
  st := .running
  order := order
  off := false
  warps := ((List.range slots.length).zip slots).map fun p => (p.1, Warp.start rc p.2)
  mem := []
  locUnits := rc.locUnits
  stash := []
  tiles := []
  accs := []
  bars := []
  cmds := []
  grps := []
  posted := 0
  done := 0
  flt := false
  claim := none
  aqIssued := 0
  aqs := []
  stopAt := none
  unfit := false
  killed := false
  faulted := false
  image := none
  heldMatrix := none
  savedSeq := []
  savedGrid := []
  savedKey := []

/-- A D2 kernel's log is bound to its die as its first workgroup starts there (R425). -/
def State.bindLog (s : State) (die inst : Nat) (k : Kernel) : State :=
  if k.rc.det != 2 || (s.die die).log.bound = some inst then s
  else
    let rpl := match k.logShare die with
      | some (_, _, idx) => (match s.logPa die k.ctx idx with
        | some pa => memNat s.mem pa 8 / 2 ^ 63 == 1
        | none => false)
      | none => false
    (s.modLog die fun _ => ⟨some inst, rpl, false, false, false⟩).logSettle die

/-- A kernel leaves the pending tables when its last workgroup has started (R95). -/
def State.unpend (s : State) (inst : Nat) : State :=
  match look s.kernels inst with
  | none => s
  | some k =>
    if k.started.length ≥ k.rc.total then
      k.dies.foldl (fun s d => s.modDie d fun x => { x with pend := x.pend.filter fun i => i != inst }) s
    else s

/-- A turn has been made for a kernel. -/
def State.turnMade (s : State) (die inst : Nat) (k : Kernel) : State :=
  s.modDie die fun d => { d with lastKernel := ins d.lastKernel k.rc.prio inst, turnAt := d.clocks + 8 }

/-- A workgroup whose warps read nothing older than what `now` writes have left: its start acquires the launch's release (R101,
R339). -/
def Wg.bornAt (g : Wg) (now : Nat) : Wg := { g with warps := g.warps.map fun p => (p.1, { p.2 with floor := now }) }

/-- Place a workgroup. -/
def State.place (s : State) (die inst : Nat) (k : Kernel) (g core : Nat) (slots : List Nat) : State :=
  let w := (Wg.start k.rc inst g core s.count slots).bornAt s.past.length
  let s := s.bindLog die inst k
  let s := { s with
    wgs := ins s.wgs (widOf inst g) w, count := s.count + 1
    kernels := upd s.kernels inst fun k => { k with started := k.started ++ [g] } }
  (s.turnMade die inst k).unpend inst

/-- The kernels of a level with workgroups to place or to resume on a die, in round robin after the one placed last (R97). -/
def State.levelKernels (s : State) (die level : Nat) : List (Nat × Kernel) :=
  let d := s.die die
  let ks := s.kernels.filter fun p => p.2.rc.prio == level && (d.pend.contains p.1 || !(s.savedOf die p.1).isEmpty)
  let last := lookD d.lastKernel level 0
  (ks.filter fun p => decide (last < p.1)) ++ ks.filter fun p => decide (p.1 ≤ last)

/-- Whether a core is owed to a workgroup of the kernel whose act is next and that is not placed (R423). -/
def State.coreOwed (s : State) (die inst : Nat) (k : Kernel) (g : Nat) : Bool :=
  k.rc.det != 0 && (s.actOwed die inst k).any fun h => k.logical h == k.logical g

/-- What a turn of a launch unit does: a workgroup placed, or a saved one resumed. -/
inductive Pick
  | place (inst : Nat) (k : Kernel) (g core : Nat) (slots : List Nat)
  | resume (inst : Nat) (k : Kernel) (wid core : Nat) (slots : List Nat)
  deriving DecidableEq, Repr, Inhabited

/-- The saved workgroup of a kernel that a die resumes next, with its core and slots, if it can resume now: the lowest (R446). -/
def State.resumable (s : State) (die inst : Nat) (k : Kernel) : Option Pick :=
  match s.savedOf die inst with
  | (wid, w) :: _ =>
    if s.coreOwed die inst k w.g then none else (s.resumeAt k w).map fun r => .resume inst k wid r.1 r.2
  | [] => none

/-- What a turn would do for a kernel: its saved workgroups go before its unplaced ones (R446), but one whose act is next does
not wait (R423). -/
def State.kernelPick (s : State) (die inst : Nat) (k : Kernel) : Option Pick :=
  let cs := if (s.die die).pend.contains inst then s.candidates die inst k else []
  if (s.savedOf die inst).isEmpty then cs.head?.map fun c => .place inst k c.1 c.2.1 c.2.2
  else
    match cs.find? fun c => (s.actOwed die inst k).contains c.1 with
    | some c => some (.place inst k c.1 c.2.1 c.2.2)
    | none => s.resumable die inst k

/-- What a turn does: the highest level first, kernels in turn (R97, R446). -/
def State.turnPick (s : State) (die : Nat) : Option Pick :=
  (List.range 16).findSome? fun l => (s.levelKernels die (15 - l)).findSome? fun p => s.kernelPick die p.1 p.2

/-- Whether a launch unit may make a turn now (R97, R464). -/
def State.turnDue (s : State) (die : Nat) : Bool := (s.die die).up && decide ((s.die die).turnAt ≤ (s.die die).clocks)

/-- What the launch unit does for a kernel's unplaced workgroups that cannot be placed now; they wait for its saved ones, but
for those whose acts are next. -/
def State.kernelRoom (s : State) (die inst : Nat) (k : Kernel) : State :=
  let waits := !(s.die die).pend.contains inst || !(s.savedOf die inst).isEmpty
  if k.rc.det = 0 then
    if waits || decide (k.started.length ≥ k.rc.total) || (s.freeCore k).isSome then s
    else s.makeRoom die false (widOf inst (lowestOut k.started)) ((coresOf k.dies).filter fun c => (s.die (dieOf c)).up) k.rc.need
  else
    let s := if waits then s else (coresOf [die]).foldl (fun s c =>
      if (k.nextOn (k.logicalOf c)).isSome && (s.holds c k.rc.need).isNone then s.makeRoom die true 0 [c] k.rc.need else s) s
    ((s.actOwed die inst k).filter fun g => (s.holds (k.logical g) k.rc.need).isNone).foldl (fun s g => s.preemptForAct inst k g) s

/-- PLACE_WORKGROUP (R97-R99, R184, R423): at most one workgroup every 8 clocks; room is made for what cannot be placed; a
record that waited at the package's port may go on (R461). -/
def execPlaceWorkgroup (die : Nat) (s : State) : Host.Outcome State Fault Refusal :=
  if !s.turnDue die then .next (s.portTurn (pkgOfDie die))
  else
    let s := match s.turnPick die with
      | some (.place inst k g c sl) => s.place die inst k g c sl
      | _ => s
    let s := s.portTurn (pkgOfDie die)
    .next ((List.range 16).foldl (fun s l => (s.levelKernels die (15 - l)).foldl (fun s p => s.kernelRoom die p.1 p.2) s) s)

end Sys2Proof.Machine
end

