-- ==== Sys2Proof/Machine/Image.lean ====
section
/-! DEFINITION. The save image of a workgroup (18 R447, R448, R479; 22 R476): its sections as a save writes them and as a resume reads
them. -/

namespace Sys2Proof.Machine

/-! ### The save image (R447, R476, R479) -/

/-- n bytes that hold a content whose layout the spec does not give (L22). -/
def laidOut {α : Type} (j n : Nat) (x : α) : List Byte := (List.range n).map (Config.imageLayout j x)

/-- Where blocked threads go when they are released (R88, R229, R430). -/
def Blocked.onward (b : Blocked) : Move :=
  match b.why with
  | .rejoin _ pr => ⟨pr, b.pc + 12, b.mask⟩
  | _ => ⟨b.prio, b.pc + 12, b.mask⟩

/-- The address at which a warp resumes issue (R476): that of the entry it would issue; where every live thread is blocked, of the
highest-ranked of the pairs to which their releases bring them (L93). -/
def Warp.resumePc (w : Warp) : Nat :=
  match w.choice, ((w.blocked.map Blocked.onward).foldl joinMove []).head? with
  | some e, _ => e.pc.toNat
  | none, some e => e.pc.toNat
  | none, none => 0

/-- The first 128 bytes of a warp's frame image (R476, R479). -/
def Warp.imageHead (w : Warp) (mem : Mem) : List Byte :=
  if w.hmode || w.tpnd then memRead mem w.tfaddr.toNat 128 else frameHead 0 0 w.resumePc 0 0 0 0 w.live 0

/-- The registers of a warp in its control section: bytes 2,048 to 3,007 (R447). -/
def Warp.imageRegs (w : Warp) : List Byte :=
  ((List.range 64).map fun n => bytesOfNat 4 (w.sget n).toNat).flatten ++
  ((List.range 8).map fun n => bytesOfNat 16 (w.kget n).toNat).flatten ++
  ((List.range 128).map fun l => bytesOfNat 1 ((List.range 7).map fun n => if (w.pget n).getLsbD l then 2 ^ n else 0).sum).flatten ++
  bytesOfNat 4 w.frm.toNat ++ bytesOfNat 4 w.flg.toNat ++ bytesOfNat 4 w.fte.toNat ++
  bytesOfNat 1 (bbit w.hmode).toNat ++ bytesOfNat 1 (bbit w.tpnd).toNat ++ bytesOfNat 2 (bbit w.step).toNat ++
  bytesOfNat 8 w.rkey.toNat ++ bytesOfNat 8 w.rctr.toNat ++ bytesOfNat 8 w.ph.toNat ++
  bytesOfNat 8 w.watchBase.toNat ++ bytesOfNat 4 w.watchLen.toNat ++ zeros 12 ++
  ((w.dfr.map Deferred.bytes).flatten ++ zeros 384).take 384

/-- The rest of a warp's control section: what it waits for with its release mark, the progress of its `GSC`s, X, its phase counts, its
hold (R447). -/
def Warp.imageWaits (w : Warp) (grids : List GridJob) : List Byte :=
  laidOut 1 1088 (w.blocked, w.kept, w.entry, w.await, w.due, grids, w.x, w.hcnt, w.ppt)

/-- The control section of a warp: 4,096 bytes (R447). -/
def Warp.imageControl (w : Warp) (mem : Mem) (grids : List GridJob) : List Byte :=
  w.imageHead mem ++ w.laneTable ++ zeros 384 ++ w.imageRegs ++ w.imageWaits grids

/-- The vector registers of a warp: v0 lanes ascending, then v1, and so on (R447). -/
def Warp.imageVector (w : Warp) (n : Nat) : List Byte :=
  ((List.range n).map fun r => ((List.range w.width).map fun l => bytesOfNat 4 (w.vget r l).toNat).flatten).flatten

/-- The tiles section (R447). -/
def Wg.imageTiles (g : Wg) (n : Nat) : List Byte :=
  ((List.range n).map fun i => memRead (g.tile i).bytes 0 8192).flatten ++
  (((List.range n).map fun i => bytesOfNat 4 (g.tile i).cfg.toNat).flatten ++ zeros 128).take 128

/-- The accumulators section (R447, R270). -/
def Wg.imageAccs (g : Wg) (n : Nat) : List Byte :=
  ((List.range n).map fun i => ((List.range 4096).map fun e => bytesOfNat 4 (lookD (g.acc i).els e 0).toNat).flatten).flatten ++
  (((List.range n).map fun i => bytesOfNat 1 (g.acc i).kind.code ++ bytesOfNat 1 (g.acc i).layout.code).flatten ++ zeros 128).take 128

/-- The barriers section: images, then redirect records, all zero at the save (R447, R448). -/
def Wg.imageBars (g : Wg) (n : Nat) : List Byte :=
  padTo 128 ((List.range n).map fun i => bytesOfNat 16 (g.bar i).image).flatten ++ padTo 128 (zeros (16 * n))

/-- The buckets of a claim, in canonical order (R447, R294; 22 R476). -/
def Claim.imageBuckets (c : Claim) : List Byte :=
  ((List.range (4 * c.n)).map fun i => match look c.slots i with
    | some e => bytesOfNat 8 e.1.toNat ++ bytesOfNat 8 e.2.toNat
    | none => bytesOfNat 8 (2 ^ 64 - 1) ++ zeros 8).flatten

/-- The header: 256 bytes (R447). -/
def Wg.imageHeader (g : Wg) (rc : LaunchRec) (matrix : Bool) (sizes : List Nat) : List Byte :=
  let offs := (List.range 9).map fun j => 256 + (sizes.take j).sum
  bytesOfNat 8 (256 + sizes.sum) ++ bytesOfNat 4 g.g ++ bytesOfNat 4 g.inst ++
  bytesOfNat 8 (rc.warps + rc.wcode * 2 ^ 8 + (if matrix then 2 ^ 16 else 0) + (if g.claim.isSome then 2 ^ 17 else 0) + g.g / 2 ^ 32 * 2 ^ 32) ++
  (offs.map (bytesOfNat 8)).flatten ++ zeros 160

/-- The engines section: the sequencer's jobs, the event matrix, commands, barriers' records, window descriptors (R447). -/
def State.imageEngines (s : State) (wid : Nat) (g : Wg) : List Byte :=
  let c := s.core g.core
  laidOut 8 16384 (c.seqq.filter fun j => j.wid == wid, g.posted, g.done, g.flt, if c.mx.holder = some wid then some c.mx else none, g.cmds, g.grps, g.aqs,
    g.stash.map fun p => (p.1, p.2.g, p.2.l, p.2.n))

/-- A claim: its status, its parameters and overflow list, its buckets in canonical order (R447). -/
def Claim.imageOf (c : Claim) : List Byte := bytesOfNat 8 c.status ++ laidOut 7 120 (c.w, c.ov, c.ch) ++ c.imageBuckets

/-- A line of a reply buffer in an image. -/
def State.imageReply (s : State) (l : Nat) : List Byte :=
  match (look (s.core (l / 1024)).reply (l % 1024)).bind (·.words) with
  | some ws => (ws ++ zeros 128).take 128
  | none => zeros 128

/-- The nine sections of a workgroup's image (R447). -/
def State.imageSections (s : State) (wid : Nat) (g : Wg) (rc : LaunchRec) : List (List Byte) :=
  let grids (i : Nat) : List GridJob := (s.core g.core).gridq.filter fun j => j.wid == wid && j.warp == i
  [(g.warps.map fun p => p.2.imageControl g.mem (grids p.1)).flatten,
    (g.warps.map fun p => p.2.imageVector (rc.regs + p.2.x)).flatten,
    memRead g.mem 0 (1024 * g.locUnits), g.imageTiles rc.tiles, g.imageAccs rc.accs, g.imageBars rc.bars,
    (match g.claim with
      | some c => c.imageOf
      | none => []),
    s.imageEngines wid g,
    ((s.replyLines wid).map s.imageReply).flatten]

/-- The bytes of a workgroup's image. -/
def State.imageOf (s : State) (wid : Nat) (g : Wg) (rc : LaunchRec) : List Byte :=
  let secs := s.imageSections wid g rc
  g.imageHeader rc ((s.core g.core).mx.holder == some wid) (secs.map List.length) ++ secs.flatten

/-! ### Reading an image back (R446, R447, R479)

What R447 gives a place in the image is read from there; what it names without a layout is as the save kept it (L29). -/

/-- A part of a memory, from address a up to n bytes on, as a memory of its own. -/
def memWindow (m : Mem) (a n : Nat) : Mem :=
  (m.filter fun c => decide (a ≤ c.1) && decide (c.1 < a + n)).map fun c => (c.1 - a, c.2)

/-- A table whose entries at some keys are as f says. -/
def reload {α : Type} [DecidableEq α] (d : α) (f : Nat → α) (ks : List Nat) (t : Tab α) : Tab α :=
  ks.foldl (fun t i => if lookD t i d = f i then t else ins t i (f i)) t

/-- The queue of deferred causes in a control section (R447). -/
def loadedCauses (b : Mem) : List Deferred :=
  (((List.range 16).map fun i => 2624 + 24 * i).filter fun a => memNat b a 8 != 0).map fun a =>
    ⟨BitVec.ofNat 7 (memNat b a 8), BitVec.ofNat 64 (memNat b (a + 8) 8), memNat b (a + 16) 8⟩

/-- The registers of a warp, from its control section. -/
def Warp.loadRegs (w : Warp) (b : Mem) : Warp :=
  let bits (n : Nat) : Mask := maskOf ((List.range 128).filter fun l => (memGet b (2432 + l)).getLsbD n)
  { w with
    s := reload 0 (fun n => BitVec.ofNat 32 (memNat b (2048 + 4 * n) 4)) (List.range 64) w.s
    k := reload 0 (fun n => BitVec.ofNat 128 (memNat b (2304 + 16 * n) 16)) (List.range 8) w.k
    p := reload 0 bits (List.range 7) w.p
    frm := BitVec.ofNat 2 (memNat b 2560 4)
    flg := BitVec.ofNat 5 (memNat b 2564 4)
    fte := BitVec.ofNat 6 (memNat b 2568 4)
    hmode := (memGet b 2572).getLsbD 0
    tpnd := (memGet b 2573).getLsbD 0
    step := (memGet b 2574).getLsbD 0
    rkey := BitVec.ofNat 64 (memNat b 2576 8)
    rctr := BitVec.ofNat 64 (memNat b 2584 8)
    ph := BitVec.ofNat 64 (memNat b 2592 8)
    watchBase := BitVec.ofNat 64 (memNat b 2600 8)
    watchLen := BitVec.ofNat 32 (memNat b 2608 4)
    dfr := loadedCauses b }

/-- The lane records of a control section. -/
def Warp.lanesIn (w : Warp) (b : Mem) : List (Nat × LaneRec) := (List.range w.width).map fun l => (l, frameLane b 0 l)

/-- Whether the lane table of a control section is as a save writes it. -/
def Warp.tableAsSaved (w : Warp) (b : Mem) : Bool :=
  (List.range 128).all fun l =>
    memNat b (0x80 + 8 * l) 8 == (w.laneRec l).link % 2 ^ 64 && memNat b (0x480 + 4 * l) 4 == (w.laneRec l).word % 2 ^ 32

/-- The frontier of a warp, from the lane table of its control section (R476, R479): threads that wait keep the waits that the save kept;
a table that is as the save wrote it leaves the order in which entries filled and threads parked. -/
def Warp.loadLanes (w : Warp) (b : Mem) : Warp :=
  if w.tableAsSaved b then w
  else
    let rs := w.lanesIn b
    let waits := maskOf ((rs.filter fun r => decide (3 ≤ r.2.st)).map (·.1))
    { w.laned rs with
      live := maskOf ((rs.filter fun r => r.2.st != 0).map (·.1))
      blocked := (w.blocked.map fun x => ({ x with mask := x.mask &&& waits } : Blocked)).filter fun x => x.mask != 0 }

/-- The vector registers of a warp, from their part of the section. -/
def Warp.loadVector (w : Warp) (n : Nat) (b : Mem) : Warp :=
  let keys := (List.range n).flatMap fun r => (List.range w.width).map fun l => 128 * r + l
  { w with v := reload 0 (fun i => BitVec.ofNat 32 (memNat b (4 * (w.width * (i / 128) + i % 128)) 4)) keys w.v }

/-- The bytes of a warp's vector registers (R447). -/
def Warp.vectorBytes (rc : LaunchRec) (w : Warp) : Nat := 4 * w.width * (rc.regs + w.x)

/-- A tile, from the tiles section. -/
def Tile.load (b : Mem) (n i : Nat) (_ : Tile) : Tile := ⟨BitVec.ofNat 32 (memNat b (8192 * n + 4 * i) 4), memWindow b (8192 * i) 8192⟩

/-- An accumulator tile, from the accumulators section. -/
def Acc.load (b : Mem) (n i : Nat) (a : Acc) : Acc :=
  { kind := AccKind.ofCode (memGet b (16384 * n + 2 * i)).toNat
    layout := AccLayout.ofCode (memGet b (16384 * n + 2 * i + 1)).toNat
    els := reload 0 (fun e => BitVec.ofNat 32 (memNat b (16384 * i + 4 * e) 4)) (List.range 4096) a.els }

/-- A barrier from its image (R225). -/
def Bar.ofImage (x : Nat) : Bar :=
  { exp := x % 2 ^ 16, arr := x / 2 ^ 16 % 2 ^ 16, pend := x / 2 ^ 32 % 2 ^ 48, phase := BitVec.ofNat 16 (x / 2 ^ 80)
    f := x.testBit 96, pf := x.testBit 97, u := x.testBit 98 }

/-- A claim, from its section: its kind, its status bits, its buckets. -/
def Claim.load (b : Mem) (c : Claim) : Claim :=
  let st := memNat b 0 8
  let key (i : Nat) : Nat := memNat b (128 + 16 * i) 8
  { c with
    kind := (KeyKind.ofBits (BitVec.ofNat 3 (st / 2 ^ 20))).getD c.kind
    rej := st.testBit 23
    ovfn := st / 2 ^ 48
    slots := ((List.range (4 * c.n)).filter fun i => key i != 2 ^ 64 - 1).map fun i =>
      (i, (BitVec.ofNat 64 (key i), BitVec.ofNat 64 (memNat b (136 + 16 * i) 8))) }

/-- Where the redirect record of barrier i of n lies in the barriers section (R447, R448). -/
def recordAt (n i : Nat) : Nat := (16 * n + 127) / 128 * 128 + 16 * i

/-- The redirect records that are not zero, from the barriers section (R448). -/
def loadedRecords (b : Mem) (n : Nat) : List (Nat × Nat × Nat) :=
  ((List.range n).map fun i => (i, memNat b (recordAt n i) 8, memNat b (recordAt n i + 8) 8)).filter fun r => r.2.1 != 0 || r.2.2 != 0

/-- A section of a workgroup's image, up to the next. -/
def State.sectionMem (s : State) (g : Wg) (m : Image) (j : Nat) : Mem :=
  let lo := (s.section g j).getD 0
  memWindow s.mem lo ((if j < 9 then (s.section g (j + 1)).getD 0 else m.off + m.size) - lo)

/-- A workgroup as its image holds it (R446, R447). -/
def State.loaded (s : State) (g : Wg) (m : Image) (rc : LaunchRec) : Wg :=
  let sec (j : Nat) : Mem := s.sectionMem g m j
  let ctl := sec 1
  let vec := sec 2
  let nth (i : Nat) : Nat := ((g.warps.take i).map fun p => p.2.vectorBytes rc).sum
  let warp (i : Nat) (w : Warp) : Warp :=
    let b := memWindow ctl (4096 * i) 4096
    ((w.loadLanes b).loadRegs b).loadVector (rc.regs + w.x) (memWindow vec (nth i) (w.vectorBytes rc))
  let bars := sec 6
  { g with
    warps := ((List.range g.warps.length).zip g.warps).map fun p => (p.2.1, warp p.1 p.2.2)
    mem := memWindow (sec 3) 0 (1024 * g.locUnits)
    tiles := reload ⟨0, []⟩ (fun i => (g.tile i).load (sec 4) rc.tiles i) (List.range rc.tiles) g.tiles
    accs := reload Acc.reset (fun i => (g.acc i).load (sec 5) rc.accs i) (List.range rc.accs) g.accs
    bars := reload Bar.reset (fun i => Bar.ofImage (memNat bars (16 * i) 16)) (List.range rc.bars) g.bars
    claim := g.claim.map (Claim.load (sec 7)) }

/-- The replies of a workgroup's suspended rows, as its image holds them (R448); lines that have gone to another one stay as they are. -/
def State.loadReplies (s : State) (g : Wg) (m : Image) : State :=
  let b := s.sectionMem g m 9
  let load (i : Nat) (r : ReplyLine) : ReplyLine :=
    if r.wid == widOf g.inst g.g then { r with words := r.words.map fun ws => memRead b (128 * i) ws.length } else r
  ((List.range m.lines.length).zip m.lines).foldl (fun s p =>
    s.modCore (p.2 / 1024) fun c => { c with reply := upd c.reply (p.2 % 1024) (load p.1) }) s

end Sys2Proof.Machine
end

