-- ==== Sys2Proof/Machine/Preempt.lean ====
section
/-! DEFINITION. Pre-emption (18 R443-R450, R479): stopping, draining, the save, the resume. -/

namespace Sys2Proof.Machine

/-! ### Stopping and draining (R444) -/

/-- Whether an instruction in progress stops in place, and issues again on resume (R444 step 1). A keyed one does so once its queue
has drained. -/
def Wait.stops : Wait → Bool
  | .flip | .wb => false
  | _ => true

/-- Whether a workgroup has stopped (R444, R455). -/
def Wg.stopped (g : Wg) (now : Nat) : Bool :=
  g.st == .running && g.stopAt.isSome && !g.pptHeld now && (g.warps.any fun p => p.2.live != 0) &&
    g.warps.all fun p => match p.2.hold with
      | some h => h.wait.stops
      | none => true

/-- Whether a command needs nothing of the core any more: one that has not started, or a gather whose rows still to come are
all homed elsewhere (R444 step 2, R238). -/
def State.cmdDrained (s : State) (core ctx : Nat) (c : Cmd) : Bool :=
  !c.running ||
    match c.job with
    | .rows true _ _ _ t idx _ _ =>
      !(c.todo.isEmpty && c.asks.isEmpty && c.far.isEmpty) &&
        c.todo.all fun row =>
          let r := (idx.getD row none).getD 0
          decide (r < t.size.getD 1 0) && match (s.rowHome core ctx (t.rowAt r) t.rowBytes).1 with
            | .away _ => true
            | _ => false
    | _ => false

/-- Whether a workgroup's keyed instruction at the head of its core's queue waits for an act that only its pre-emption lets come: the
act next in grant order belongs to a workgroup that is not placed and that has this core for its logical core (R423; L79). -/
def State.keyStuck (s : State) (core wid : Nat) : Bool :=
  match (s.core core).keyq with
  | [] => false
  | j :: _ =>
    let inst := wid / 2 ^ 48
    j.wid == wid && match (s.warp? wid j.warp).bind (·.hold), look s.kernels inst with
    | some h, some k =>
      (match h.wait with
      | .act ch =>
        (match s.nextActor (dieOf core) ch inst k with
        | some (g, _) => !k.started.contains g && k.logical g == core
        | none => false)
      | _ => false)
    | _, _ => false

/-- Whether every queued operation of a workgroup has completed or stopped at a boundary (R444 step 2); keyed instructions complete,
but for one whose act waits for the workgroup to leave (R303, R423; L79). -/
def State.drained (s : State) (wid : Nat) (g : Wg) (ctx : Nat) : Bool :=
  let c := s.core g.core
  !(c.engq.any fun j => j.wid == wid) && (!(c.keyq.any fun j => j.wid == wid) || s.keyStuck g.core wid) &&
    (c.gridq.all fun j => j.wid != wid || decide (j.sent < j.sends.length)) && (vals g.cmds).all (s.cmdDrained g.core ctx)

/-- The first place of the save pool that an image fits (R445). -/
def Die.firstFit (d : Die) (size : Nat) : Option Nat :=
  let lo := d.poolBase.toNat
  let hi := lo + d.poolLen.toNat
  let free (o : Nat) : Bool := decide (lo ≤ o) && decide (o + size ≤ hi) && d.images.all fun m => decide (o + size ≤ m.1) || decide (m.1 + m.2.1 ≤ o)
  (sortOn id (lo :: d.images.map fun m => (m.1 + m.2.1 + 127) / 128 * 128)).find? free

/-- The status of a host's pre-emption request for a workgroup (R459, R463). -/
def State.requestDone (s : State) (die wid code : Nat) : State :=
  s.modDie die fun d =>
    if d.preqst.extractLsb' 0 2 == 3#2 && widOf (d.preq.extractLsb' 16 32).toNat (d.preq.extractLsb' 0 16).toNat == wid then
      { d with preqst := (d.preqst &&& 4#3) ||| BitVec.ofNat 3 code }
    else d

/-! ### Save and release (R444 steps 3 and 4) -/

/-- A warp as it stands in the image: what it waited in stops, its sleep ends (R444, R112); a keyed instruction that waits for an act
will not make again what it has made (R422, L80). -/
def Warp.saved (w : Warp) : Warp :=
  { w with
    due := match w.hold with
      | some h => (match h.wait with
        | .waitc _ _ _ t _ => t
        | _ => w.due)
      | none => w.due
    keyKept := match w.hold with
      | some h => if w.keyMade = 0 ∨ w.hmode then w.keyKept else some (h.cur.pc, h.cur.bundle, w.keyMade)
      | none => w.keyKept
    keyMade := 0
    hold := none
    walked := []
    latched := none
    sleepUntil := 0
    yielded := false }

/-- A command as it stands in the image: a row's time stops (R238). -/
def Cmd.saved (c : Cmd) (now : Nat) : Cmd :=
  { c with far := c.far.map fun p => (p.1, if p.2.since = 0 then p.2 else { p.2 with elapsed := p.2.elapsed + (now + 1 - p.2.since), since := 0 }) }

/-- The workgroup as it stands in the image. -/
def Wg.saved (g : Wg) (now : Nat) (m : Image) (mx : Option Matrix) (seqs : List SeqJob) (grids : List GridJob) (keys : List KeyJob) :
    Wg :=
  { g with
    st := .saved
    off := true
    stopAt := none
    image := some m
    warps := g.warps.map fun p => (p.1, p.2.saved)
    cmds := g.cmds.map fun p => (p.1, p.2.saved now)
    stash := g.stash.map fun p => (p.1, { p.2 with lines := [] })
    heldMatrix := mx
    savedSeq := seqs
    savedGrid := grids
    savedKey := keys }

/-- A core without a workgroup: its queues, its matrix, the latches that it filled. -/
def Core.without (c : Core) (wid : Nat) (ports : List Nat) : Core :=
  let port (i : Nat) (p : Port) : Port :=
    let named : Bool := match p.last with
      | some (w, _, _) => w == wid
      | none => false
    if named then { p with last := none, latch := [] } else if ports.contains i then { p with latch := [] } else p
  { c with
    port0 := port 0 c.port0
    port1 := port 1 c.port1
    xq := c.xq.filter fun q => q.1 != wid
    mx := if c.mx.holder = some wid then Matrix.free else c.mx
    seqq := c.seqq.filter fun j => j.wid != wid
    keyq := c.keyq.filter fun j => j.wid != wid
    gridq := c.gridq.filter fun j => j.wid != wid }

/-- Write a workgroup's image and free what it held (R444 steps 3 and 4, R445). -/
def State.saveTo (s : State) (wid : Nat) (g : Wg) (bytes : List Byte) (off : Nat) : State :=
  let c := s.core g.core
  let die := dieOf g.core
  let m : Image := ⟨die, off, bytes.length, s.replyLines wid⟩
  let mx := if c.mx.holder = some wid then some c.mx else none
  let s := s.gwrite none false off bytes
  let s := s.modWg wid fun g => g.saved s.time m mx (c.seqq.filter fun j => j.wid == wid) (c.gridq.filter fun j => j.wid == wid)
    (c.keyq.filter fun j => j.wid == wid && !j.prm.isEmpty)
  let s := (s.modCore g.core fun c => c.without wid (g.warps.map fun p => p.2.port)).dropWatches wid
  (s.modDie die fun d => { d with images := d.images ++ [(off, bytes.length, wid)] }).requestDone die wid 0

/-- The pool of a die is no longer as it was: workgroups whose images found no place in it are candidates again (R445). -/
def State.poolChanged (s : State) (die : Nat) : State :=
  { s with wgs := s.wgs.map fun p => (p.1, if dieOf p.2.core = die then { p.2 with unfit := false } else p.2) }

/-- A freed image leaves the pool. -/
def State.freeImage (s : State) (wid : Nat) : State :=
  match (look s.wgs wid).bind (·.image) with
  | some m =>
    ((s.modDie m.die fun d => { d with images := d.images.filter fun i => i.2.2 != wid }).modWg wid fun g =>
      { g with image := none }).poolChanged m.die
  | none => s

/-- A host's request to end a workgroup that came while it was being saved takes effect (R463). -/
def State.killSaved (s : State) (wid : Nat) : State :=
  match look s.wgs wid with
  | some g => if g.killed then (s.terminate wid 0 cHOST_KILL none 0).freeImage wid else s
  | none => s

/-- Whether a stash line is to be written back, or its write-back is not acknowledged. -/
def Wg.stashDirty (g : Wg) : Bool := g.stash.any fun p => p.2.lines.any fun l => l.2.dirty

/-- The write-backs of every window begin (R193). -/
def Wg.flushAll (g : Wg) : Wg := { g with stash := g.stash.map fun p => (p.1, p.2.flush false) }

/-- PREEMPT_SAVE (R444, R445): a stopped and drained workgroup writes back its windows, then is saved; when no image fits it
stays. -/
def execPreemptSave (wid : Nat) (s : State) : Host.Outcome State Fault Refusal :=
  match look s.wgs wid with
  | none => .next s
  | some g =>
    match look s.kernels g.inst with
    | none => .next s
    | some k =>
      if !g.stopped (s.clocksAt g.core) || !s.drained wid g k.ctx then .next s
      else if g.stashDirty then .next (s.modWg wid Wg.flushAll)
      else if g.writingBack true 0 then .next s
      else
        let bytes := s.imageOf wid g k.rc
        match (s.die (dieOf g.core)).firstFit bytes.length with
        | some off => .next ((s.saveTo wid g bytes off).killSaved wid)
        | none =>
          .next (((s.modWg wid fun g =>
            { g with stopAt := none, unfit := true, warps := g.warps.map fun p => (p.1, { p.2 with yielded := false }) }).requestDone (dieOf g.core) wid 1).killSaved wid)

/-! ### Resume (R446, R448) -/

/-- A command back on a core: the time of the rows whose first request has left goes on (R238). -/
def Cmd.resumed (c : Cmd) (time : Nat) : Cmd :=
  { c with far := c.far.map fun r =>
      (r.1, if (c.asks.filter fun a => a.1 == r.1).length < r.2.lines.length then { r.2 with since := time + 1 } else r.2) }

/-- The workgroup back on a core. -/
def Wg.resumed (g : Wg) (core base : Nat) (slots : List Nat) (time : Nat) : Wg :=
  { g with
    core := core
    st := .running
    off := false
    image := none
    warps := (g.warps.zip slots).map fun p => (p.1.1, { p.1.2 with ctx0 := 32 * p.2, readySince := none })
    cmds := g.cmds.map fun p => (p.1, p.2.resumed time)
    claim := g.claim.map fun c => { c with base := base }
    heldMatrix := none
    savedSeq := []
    savedGrid := []
    savedKey := [] }

/-- A saved workgroup is written back to a core from its image; the core's L1 copies, which may be older than what the workgroup has
seen, are discarded (L29); its `MMSEQ`s come before all others (L99); redirected arrivals are applied in index order and their records zeroed; its waits are judged (R446, R448). -/
def State.restore (s : State) (wid : Nat) (g0 : Wg) (m : Image) (rc : LaunchRec) (core : Nat) (slots : List Nat) : State :=
  let g := s.loaded g0 m rc
  let records := loadedRecords (s.sectionMem g0 m 6) rc.bars
  let sec := (s.section g0 6).getD 0
  let s := s.loadReplies g0 m
  let base := match g.claim with
    | some c => (s.findRun core c.n).getD 0
    | none => 0
  let s := s.freeImage wid
  let s := s.modWg wid fun g1 => { g.resumed core base slots s.time with unfit := g1.unfit }
  let s := s.modCore core fun c => { c with
    mx := match g.heldMatrix with
      | some m => m
      | none => c.mx
    seqq := g.savedSeq ++ c.seqq
    gridq := c.gridq ++ g.savedGrid
    keyq := c.keyq ++ g.savedKey
    l1 := [] }
  let s := s.modDie (dieOf core) fun d => { d with arrivals := d.arrivals.map fun a => if a.wid = wid then { a with since := s.time } else a }
  let s := records.foldl (fun s r =>
    (s.barArrive wid r.1 (min r.2.1 0xFFFF) r.2.2).gwrite none false (sec + recordAt rc.bars r.1) (zeros 16)) s
  (g.warps.map (·.1)).foldl (fun s i => s.judgeNets wid i) (s.modWg wid Wg.judgeBars)

/-- A saved workgroup whose image cannot be read ends (R445, R360). -/
def State.restoreFault (s : State) (wid : Nat) (m : Image) : State :=
  let blk := ((List.range ((m.size + 63) / 64)).find? fun i => s.poisoned (m.off + 64 * i) 64).getD 0
  (s.freeImage wid).terminate wid 0 cRESTORE_FAULT (some (Trap.addr cMEM_UNCORR 0 (m.off + 64 * blk))) 0

/-- Room for a kernel's first saved workgroup on a die, if it cannot resume now (R99, R446). -/
def State.resumeRoom (s : State) (die inst : Nat) (k : Kernel) : State :=
  match s.savedOf die inst with
  | (wid, w) :: _ =>
    if (s.resumeAt k w).isSome || s.coreOwed die inst k w.g then s
    else if k.rc.det = 0 then s.makeRoom die false wid (coresOf [die]) (w.need k.rc)
    else s.makeRoom die true wid [k.logical w.g] (w.need k.rc)
  | [] => s

/-- RESUME_WORKGROUP (R446, R99): a turn of the launch unit that resumes a saved workgroup; room is made for those that cannot. -/
def execResumeWorkgroup (die : Nat) (s : State) : Host.Outcome State Fault Refusal :=
  if !s.turnDue die then .next s
  else
    let s := match s.turnPick die with
      | some (.resume inst k wid core slots) =>
        (match look s.wgs wid with
          | some g =>
            match g.image with
            | some m => (if s.poisoned m.off m.size then s.restoreFault wid m else s.restore wid g m k.rc core slots).turnMade die inst k
            | none => s
          | none => s)
      | _ => s
    .next ((List.range 16).foldl (fun s l => (s.levelKernels die (15 - l)).foldl (fun s p => s.resumeRoom die p.1 p.2) s) s)

/-- SLEEP_END (R112). -/
def execSleepEnd (wid warp : Nat) (s : State) : Host.Outcome State Fault Refusal :=
  match look s.wgs wid, s.warp? wid warp with
  | some g, some w =>
    .next (if w.sleepUntil != 0 && decide (w.sleepUntil ≤ s.clocksAt g.core) then s.modWarp wid warp fun w => { w with sleepUntil := 0 } else s)
  | _, _ => .next s

end Sys2Proof.Machine
end

