-- ==== Sys2Proof/Machine/Retire.lean ====
section
/-! DEFINITION. The end of workgroups and kernels (04 R100; 17 R421, R425, R427; 18 R441), and the host's requests about
workgroups (19 R463). -/

namespace Sys2Proof.Machine

/-! ### What must be over (R100, R441) -/

/-- Whether an operation was issued by a workgroup or by the copy engine for it. -/
def OutOp.ofWg (o : OutOp) (wid : Nat) : Bool :=
  match o.who with
  | .warp w _ _ _ => w == wid
  | .engine w _ => w == wid
  | .spire _ => false

/-- Whether remote operations of a workgroup are unacknowledged, or counted arrivals of it wait (R100). -/
def State.owes (s : State) (die wid : Nat) : Bool :=
  ((s.die die).streams.any fun st => st.2.ops.any fun o => o.ofWg wid) || (s.die die).arrivals.any fun a => a.wid == wid

/-- Whether queued work of a workgroup has still to complete: all of it for one that ran to its exit, what R444 lets complete
for one that was ended (R100, R441). -/
def State.working (s : State) (wid : Nat) (g : Wg) (ctx : Nat) : Bool :=
  let c := s.core g.core
  !g.off &&
    ((c.engq.any fun j => j.wid == wid) || (c.keyq.any fun j => j.wid == wid) ||
      (if g.st == .ending then
        (c.gridq.any fun j => j.wid == wid && j.sends.isEmpty) || !(vals g.cmds).all (s.cmdDrained g.core ctx)
      else (c.gridq.any fun j => j.wid == wid) || (c.seqq.any fun j => j.wid == wid) || !g.cmds.isEmpty || !g.aqs.isEmpty))

/-- Whether a workgroup may retire (R100), but for the write-backs of its stash windows. -/
def State.mayRetire (s : State) (wid : Nat) (g : Wg) (ctx : Nat) : Bool :=
  (g.st == .ending || (g.st == .running && g.warps.all fun p => p.2.live == 0)) && !s.working wid g ctx && !s.owes (dieOf g.core) wid

/-! ### Retirement -/

/-- Whether an instance has no workgroup left for a die: none there, and none to come (R421, R425). -/
def State.leftDie (s : State) (k : Kernel) (inst die : Nat) : Bool :=
  !(s.wgs.any fun p => p.2.inst == inst && dieOf p.2.core == die) &&
    if k.rc.det = 0 then decide (k.rc.total ≤ k.started.length)
    else (List.range k.rc.total).all fun g => dieOf (k.logical g) != die || k.started.contains g

/-- A die's channels and log that an instance held are free once its last workgroup there has retired (R421, R425). -/
def State.unbind (s : State) (k : Kernel) (inst die : Nat) : State :=
  if s.leftDie k inst die then
    s.modDie die fun d => { d with
      chans := d.chans.filter fun c => c.2.bound != some inst
      log := if d.log.bound = some inst then { d.log with bound := none } else d.log }
  else s

/-- The end entry of a recording die (R427); none where the share is full. One that fills the share sets nothing in the log of another
instance, to which the die may be bound by then (R425, R428). -/
def State.logEnd (s : State) (inst die : Nat) : State :=
  match s.logShareOf die inst with
  | some g =>
    let n := memNat s.mem g.idx 4
    let e := logEntry 15 0 0 0 0
    let other := match (s.die die).log.bound with
      | some i => i != inst
      | none => false
    if memNat s.mem g.idx 8 / 2 ^ 63 = 1 ∨ n ≥ g.share then s else if other then s.logPut die g n e else s.logWrite die g n e
  | none => s

/-- The last retirement completes a kernel: end entries, then the completion arrival, or the record of its loss (R100, R427);
none while the arrival finds no room. -/
def State.completed (s : State) (inst : Nat) (k : Kernel) : Option State :=
  if k.gone.length < k.rc.total || k.complete || k.lost then some s
  else
    let s := if k.rc.det = 2 then k.dies.foldl (fun s d => s.logEnd inst d) s else s
    let s := { s with kernels := upd s.kernels inst fun k => { k with complete := true } }
    if k.rc.compl = 0 then some s
    else
      match s.completionPa k.home k.ctx k.rc.compl with
      | .ok pa => s.completionSent inst k.home pa k.faulted
      | .error c =>
        some (s.record k.home (termRecord inst 0 0 cCOMPLETION_LOST (some (Trap.addr c 0 k.rc.compl)) 0 (BitVec.ofNat 64 k.rc.compl)))

/-- A core, and its reply buffer, without a workgroup: lines whose arrival is still to come stay until then (R224). -/
def State.leaveCore (s : State) (wid : Nat) (g : Wg) : State :=
  let s := { s with cores := s.cores.map fun c => (c.1, { c.2 with
    reply := c.2.reply.filter fun p => p.2.wid != wid || !p.2.done }) }
  if g.off then s else s.modCore g.core fun c => c.without wid []

/-- A workgroup is gone (R100). -/
def State.retire (s : State) (wid : Nat) (g : Wg) : Option State :=
  let bad := g.faulted || g.st == .ending || g.warps.any fun p => !p.2.dfr.isEmpty
  let s := ((s.freeImage wid).leaveCore wid g).dropWatches wid
  let s := s.requestDone (dieOf g.core) wid 2
  let s := { s with
    wgs := del s.wgs wid
    kernels := upd s.kernels g.inst fun k => { k with gone := k.gone ++ [g.g], faulted := k.faulted || bad } }
  match look s.kernels g.inst with
  | some k => ((s.logSettle (dieOf g.core)).unbind k g.inst (dieOf g.core)).completed g.inst k
  | none => some s

/-- WORKGROUP_RETIRE (R100): a workgroup that has finished begins to write back its stash windows' dirty lines, and retires once
every write-back is acknowledged (R193). -/
def execWorkgroupRetire (wid : Nat) (s : State) : Host.Outcome State Fault Refusal :=
  match look s.wgs wid with
  | none => .next s
  | some g =>
    match look s.kernels g.inst with
    | none => .next s
    | some k =>
      if !s.mayRetire wid g k.ctx then .next s
      else if g.stashDirty then .next (s.modWg wid Wg.flushAll)
      else if g.writingBack true 0 then .next s
      else
        match s.retire wid g with
        | some t => .next t
        | none => .next s

/-! ### The host's requests (R459, R463) -/

/-- The workgroup that a request names. -/
def requestWid (value : BitVec 64) : Nat := widOf (value.extractLsb' 16 32).toNat (value.extractLsb' 0 16).toNat

/-- A request's status; one with code 0 or 1 clears bit 2 (R463). -/
def State.requestStatus (s : State) (die : Nat) (value : BitVec 64) (code : BitVec 3) : State :=
  s.modDie die fun d => { d with preq := value, preqst := code }

/-- The workgroup that a request finds on its die. -/
def State.requested (s : State) (die : Nat) (value : BitVec 64) : Option Wg :=
  match look s.wgs (requestWid value) with
  | some g => if dieOf g.core = die then some g else none
  | none => none

/-- PREQ_PREEMPT (R463): a resident workgroup is asked to stop; one that is being saved completes the request with its save. -/
def execPreqPreempt (die : Nat) (value : BitVec 64) (s : State) : Host.Outcome State Fault Refusal :=
  match s.requested die value with
  | some g =>
    if g.st == .running then .next ((s.requestStatus die value 3).askStop (requestWid value))
    else .next (s.requestStatus die value 2)
  | none => .next (s.requestStatus die value 2)

/-- PREQ_TERMINATE (R463): the workgroup ends with HOST_KILL, one that is being saved once its save is done; a saved one's
image is freed. -/
def execPreqTerminate (die : Nat) (value : BitVec 64) (s : State) : Host.Outcome State Fault Refusal :=
  let wid := requestWid value
  match s.requested die value with
  | some g =>
    if g.st == .ending then .next (s.requestStatus die value 2)
    else if g.st == .running && g.stopAt.isSome then
      .next ((s.requestStatus die value 3).modWg wid fun g => { g with killed := true })
    else .next (((s.requestStatus die value 0).terminate wid 0 cHOST_KILL none 0).freeImage wid)
  | none => .next (s.requestStatus die value 2)

/-- PREQ_RESERVED (R463): codes 2 and 3 start nothing and set bit 2. -/
def execPreqReserved (die : Nat) (_value : BitVec 64) (s : State) : Host.Outcome State Fault Refusal :=
  .next (s.modDie die fun d => { d with preqst := d.preqst ||| 4 })

end Sys2Proof.Machine
end

