-- ==== Sys2Proof/Machine/Sha.lean ====
section
/-! DEFINITION. SHA-512, which 19 R464 and R465 name: FIPS 180-4, its constants computed from their definition (L6). -/

namespace Sys2Proof.Machine

/-- The primes below a bound. -/
def primesBelow (n : Nat) : List Nat :=
  (List.range n).filter fun p => decide (2 ≤ p) && (List.range p).all fun d => decide (d < 2) || p % d != 0

/-- The largest r below 2^72 whose k-th power is at most n. -/
def rootOf (k n : Nat) : Nat :=
  (List.range 72).foldl (fun r i => if (r + 2 ^ (71 - i)) ^ k ≤ n then r + 2 ^ (71 - i) else r) 0

/-- Constants of the standard: 64 bits of the fractions of the roots of the first primes. -/
def shaInit : List (BitVec 64) := (primesBelow 20).map fun p => BitVec.ofNat 64 (rootOf 2 (p * 2 ^ 128))

def shaRound : List (BitVec 64) := (primesBelow 410).map fun p => BitVec.ofNat 64 (rootOf 3 (p * 2 ^ 192))

/-- The functions of the standard. -/
def shaBig0 (x : BitVec 64) : BitVec 64 := x.rotateRight 28 ^^^ x.rotateRight 34 ^^^ x.rotateRight 39
def shaBig1 (x : BitVec 64) : BitVec 64 := x.rotateRight 14 ^^^ x.rotateRight 18 ^^^ x.rotateRight 41
def shaSmall0 (x : BitVec 64) : BitVec 64 := x.rotateRight 1 ^^^ x.rotateRight 8 ^^^ x >>> 7
def shaSmall1 (x : BitVec 64) : BitVec 64 := x.rotateRight 19 ^^^ x.rotateRight 61 ^^^ x >>> 6

/-- A number from bytes, the highest first. -/
def bigEndian (bs : List Byte) : Nat := natOfBytes bs.reverse

/-- The message schedule, the latest word first. -/
def shaSchedule : Nat → List (BitVec 64) → List (BitVec 64)
  | 0, w => w
  | k + 1, w => shaSchedule k ((shaSmall1 (w.getD 1 0) + w.getD 6 0 + shaSmall0 (w.getD 14 0) + w.getD 15 0) :: w)

/-- One round on the eight working words. -/
def shaStep (v : List (BitVec 64)) (kw : BitVec 64 × BitVec 64) : List (BitVec 64) :=
  match v with
  | [a, b, c, d, e, f, g, h] =>
    let t := h + shaBig1 e + ((e &&& f) ^^^ (~~~e &&& g)) + kw.1 + kw.2
    [t + (shaBig0 a + ((a &&& b) ^^^ (a &&& c) ^^^ (b &&& c))), a, b, c, d + t, e, f, g]
  | v => v

/-- A block of 128 bytes. -/
def shaBlock (h : List (BitVec 64)) (block : List Byte) : List (BitVec 64) :=
  let w := (List.range 16).map fun i => BitVec.ofNat 64 (bigEndian ((block.drop (8 * i)).take 8))
  ((shaRound.zip (shaSchedule 64 w.reverse).reverse).foldl shaStep h).zipWith (· + ·) h

/-- A message with its padding. -/
def shaPadded (m : List Byte) : List Byte :=
  m ++ 0x80#8 :: List.replicate ((239 - m.length % 128) % 128) 0#8 ++ (bytesOfNat 16 (8 * m.length)).reverse

/-- SHA-512 of a byte string, its first byte in bits 7 to 0 (R464). -/
def sha512 (m : List Byte) : BitVec 512 :=
  let p := shaPadded m
  let h := (List.range (p.length / 128)).foldl (fun h i => shaBlock h ((p.drop (128 * i)).take 128)) shaInit
  BitVec.ofNat 512 (natOfBytes (h.map fun x => (bytesOfNat 8 x.toNat).reverse).flatten)

end Sys2Proof.Machine
end

