-- ==== Sys2Proof/Machine/HostEv.lean ====
section
/-! DEFINITION. The host attachment, measured start and power (19 R458-R466), the host's accesses (14 R332, R347), forming a
partition (01 R18, 15 R363, 17 R412), DRAM errors (15 R360). -/

namespace Sys2Proof.Machine

/-! ### Bias (R460) -/

/-- The page that `BIASREQ` names, and its direction. -/
def biasPage (v : BitVec 64) : Nat := (v.extractLsb' 16 36).toNat * 65536
def biasDir (v : BitVec 64) : Bool := v.getLsbD 0

/-- BIAS_FLIP_REQUEST (R460): a flip like `BFLIP`'s; ignored while one is under way. All 64 bits of an accepted write read back
(L76). -/
def execBiasFlipRequest (die : Nat) (value : BitVec 64) (s : State) : Host.Outcome State Fault Refusal :=
  if (s.die die).biasBusy then .next s
  else
    let page := biasPage value
    let s := s.modDie die fun d => { d with biasReq := value }
    if s.hostBiased page == biasDir value && !s.inFlip page then .next (s.modDie die fun d => { d with biasRes := true })
    else .next { s.modDie die (fun d => { d with biasBusy := true }) with
      flips := s.flips ++ [⟨page, 65536, biasDir value, none, die⟩] }

/-- BIAS_FORCE (R460): the bias bit alone. -/
def execBiasForce (die : Nat) (value : BitVec 64) (s : State) : Host.Outcome State Fault Refusal :=
  if (s.die die).biasBusy then .next s
  else .next ((s.setBias (biasPage value) 65536 (biasDir value)).modDie die fun d => { d with biasReq := value, biasRes := false })

/-! ### Measured start and reports (R464, R465) -/

/-- Bytes of a measurement register. -/
def measBytes (x : BitVec 512) : List Byte := bytesOfNat 64 x.toNat

/-- `MEASi` := SHA-512(`MEASi` ‖ digest). -/
def extend (t : Tab (BitVec 512)) (e : Nat × List Byte) : Tab (BitVec 512) :=
  ins t e.1 (sha512 (measBytes (lookD t e.1 0) ++ e.2))

/-- The registers and the pieces of firmware extended into them, in the order of the spec's table: 0 the manifest, 1 to 4 the
launch units of four dies, 5 to 12 the spire bases, 13 to 16 the control processors, 17 the optical-port image for twelve
ports, 18 the host link, 19 the power controller, 20 to 23 the power tables of four dies. -/
def measured : List (Nat × Nat) :=
  [(0, 0)] ++ ((List.range 4).map fun i => (1, 1 + i)) ++ ((List.range 8).map fun i => (2, 5 + i)) ++
  ((List.range 4).map fun i => (3, 13 + i)) ++ ((List.range 12).map fun _ => (4, 17)) ++ [(5, 18), (6, 19)] ++
  ((List.range 4).map fun i => (6, 20 + i))

/-- The digest of a piece of firmware as 64 bytes. -/
def digestOf (fw : List (List Byte)) (i : Nat) : List Byte := measBytes (sha512 (fw.getD i []))

/-- Whether a piece of firmware passes its check: the manifest, its signature; an image that is there, the digest that the
manifest lists for it, at 64 bytes a digest in the order above (L77). -/
def firmwarePasses (fw : List (List Byte)) (i : Nat) : Bool :=
  decide (i < fw.length) &&
    if i = 0 then Config.manifestSigned (sha512 (fw.headD []))
    else digestOf fw i == ((fw.headD []).drop (64 * (i - 1))).take 64

/-- Whether all firmware passes. -/
def firmwareOk (fw : List (List Byte)) : Bool := (List.range 24).all (firmwarePasses fw)

/-- The measurement registers after a start: what passes is extended, in order, up to what fails; after all of it the fuse
record (L77). -/
def measure (pkg : Nat) (fw : List (List Byte)) : Tab (BitVec 512) :=
  let t := ((measured.takeWhile fun e => firmwarePasses fw e.2).map fun e => (e.1, digestOf fw e.2)).foldl extend []
  if firmwareOk fw then
    extend t (7, measBytes (sha512 (bytesOfNat 256 (Config.fuseRecord pkg (Config.stepping pkg) (Config.serial pkg)).toNat)))
  else t

/-- The boot ROM of a package: measured start, or out of service (R464). -/
def State.measuredStart (s : State) (die : Nat) (d : List (List Byte)) : State :=
  let pkg := pkgOfDie die
  let s := s.modPkg pkg fun p => { p with meas := measure pkg d }
  if firmwareOk d then { s.modDie die (fun x => { x with up := true }) with retired := s.retired.filter fun q => q != pkg }
  else
    { (List.range 4).foldl (fun s i => s.modDie (4 * pkg + i) fun x => { x with up := false }) s with
      retired := if s.retired.contains pkg then s.retired else s.retired ++ [pkg] }

/-- The identity of a package (R464, R465). -/
def identity (pkg : Nat) : List Byte :=
  let b := bytesOfNat 8 (Config.serial pkg).toNat ++ bytesOfNat 2 4 ++ bytesOfNat 1 (Config.stepping pkg).toNat ++ bytesOfNat 1 0
  b ++ bytesOfNat 4 (crc32c b).toNat

/-- REPORT_REQUEST (R465): `REPCTL` is written; ignored while a report is made. -/
def execReportRequest (pkg : Nat) (value : BitVec 64) (s : State) : Host.Outcome State Fault Refusal :=
  if value.getLsbD 0 && !(s.pkg pkg).repBusy then
    .next (s.modPkg pkg fun p => { p with repBusy := true, repNonce := p.nonce })
  else .next s

/-- REPORT_READY (R462, R465). -/
def execReportReady (pkg : Nat) (s : State) : Host.Outcome State Fault Refusal :=
  let p := s.pkg pkg
  if p.repBusy then
    let body := bytesOfNat 32 p.repNonce.toNat ++ ((List.range 8).map fun i => measBytes (lookD p.meas i 0)).flatten ++ identity pkg
    .next ((s.modPkg pkg fun p =>
      { p with repBusy := false, repOut := body ++ (Config.signReport pkg body ++ zeros 512).take 512 }).note pkg 3)
  else .next s

/-! ### Power (R466) -/

/-- The frequency of a mode, in units of 5 MHz (R466). -/
def modeFreq (eff : Bool) : Nat := if eff then 120 else 170

/-- POWER_MODE_WRITE (R466). -/
def execPowerModeWrite (die : Nat) (eff : Bool) (s : State) : Host.Outcome State Fault Refusal :=
  .next (s.modDie die fun d => { d with eff := eff })

/-- MODE_SWITCH (R466): the mode written takes effect; a clock that a cap has lowered further stays lowered. -/
def execModeSwitch (die : Nat) (s : State) : Host.Outcome State Fault Refusal :=
  .next (s.modDie die fun d =>
    let m := modeFreq d.eff
    let f := if d.capd then min d.fnow m else m
    { d with effNow := d.eff, fnow := f, capd := decide (f < m) })

/-- POWER_CAP_WRITE (R466). -/
def execPowerCapWrite (die : Nat) (cap : BitVec 11) (s : State) : Host.Outcome State Fault Refusal :=
  .next (s.modDie die fun d => { d with cap := if 150 ≤ cap.toNat ∧ cap.toNat ≤ 600 then cap else 0 })

/-- CAP_CLOCK_STEP (R466): the average draw over 100 us, judged against the cap and counted in `ENERGY`; steps of 50 MHz. A draw
of the cap itself is neither above nor below it. -/
def execCapClockStep (die watts : Nat) (s : State) : Host.Outcome State Fault Refusal :=
  let d := s.die die
  let m := modeFreq d.effNow
  let above := d.cap != 0 && decide (d.cap.toNat < watts)
  let f := if above then max 60 (d.fnow - 10) else if d.cap != 0 && d.cap.toNat == watts then d.fnow else min m (d.fnow + 10)
  let s := s.modDie die fun d => { d with fnow := f, capd := decide (f < m), energy := d.energy + BitVec.ofNat 64 (100 * watts) }
  .next (if above && !d.capd then s.note (pkgOfDie die) 4 else s)

/-! ### Registers (R459, R462) -/

/-- The die and offset of a block of BAR0 (R459). -/
def dieBlock (pkg off : Nat) : Option (Nat × Nat) :=
  if 0x400000 ≤ off ∧ off < 0x800000 then some (4 * pkg + (off - 0x400000) / 0x100000, off % 0x100000) else none

/-- A register of a die's block that is plain storage. -/
def Die.write (d : Die) (off : Nat) (v : BitVec 64) : Die :=
  if off = 0x10 then { d with poolBase := v &&& ~~~0x7F#64 }
  else if off = 0x18 then { d with poolLen := v &&& ~~~0x7F#64 }
  else d

/-- A register of a die's block as it reads. -/
def State.dieReg (s : State) (die off : Nat) : Nat :=
  let d := s.die die
  if off = 0 then (if d.eff then 1 else 0) + 2 * d.cap.toNat + (if d.capd then 2 ^ 15 else 0) + 2 ^ 16 * d.fnow
  else if off = 0x8 then d.energy.toNat
  else if off = 0x10 then d.poolBase.toNat
  else if off = 0x18 then d.poolLen.toNat
  else if off = 0x20 then d.biasReq.toNat
  else if off = 0x28 then (if d.biasRes then 1 else 0) + (if d.biasBusy then 2 else 0)
  else if off = 0x30 then d.preq.toNat
  else if off = 0x38 then d.preqst.toNat
  else if off = 0x100 ∨ off = 0x108 then
    let p := s.spire (2 * die + (off - 0x100) / 8)
    p.corrected % 2 ^ 32 + 2 ^ 32 * (p.poisoned % 2 ^ 32)
  else if 0x200 ≤ off ∧ off < 0x600 then fld (lookD d.term ((off - 0x200) / 64) []) (off % 64) 8
  else if off = 0x600 then d.termIdx % 2 ^ 64
  else 0

/-- `LPSTAT` (R461). -/
def Pkg.lpstat (p : Pkg) : Nat :=
  (if p.holdc then 1 else 0) + 2 ^ 16 * p.loff.toNat + 2 ^ 24 * p.lcode.toNat + 2 ^ 32 * p.ref + 2 ^ 48 * p.bad

/-- What a 64-bit register of BAR0 reads (R403, R459); an unlisted offset reads zero. -/
def State.register (s : State) (pkg off : Nat) : Nat :=
  let p := s.pkg pkg
  match dieBlock pkg off with
  | some (d, o) => s.dieReg d o
  | none =>
    if off = 0 then p.lpstat
    else if 0x100 ≤ off ∧ off < 0x300 then fld (measBytes (lookD p.meas ((off - 0x100) / 64) 0)) (off % 64) 8
    else if off = 0x400 then (if p.repBusy then 1 else 0)
    else if 0x440 ≤ off ∧ off < 0x460 then p.nonce.toNat / 2 ^ (8 * (off - 0x440)) % 2 ^ 64
    else if 0x1000 ≤ off ∧ off < 0x1430 then fld p.repOut (off - 0x1000) 8
    else if off = 0x2000 then p.note.toNat
    else if 0x100000 ≤ off ∧ off < 0x400000 then p.opticalReg (off - 0x100000)
    else 0

/-- The nonce with 64 bits written at an offset (R459). -/
def putNonce (n : BitVec 256) (i : Nat) (v : BitVec 64) : BitVec 256 :=
  (n &&& ~~~(BitVec.ofNat 256 ((2 ^ 64 - 1) * 2 ^ (8 * i)))) ||| BitVec.ofNat 256 (v.toNat * 2 ^ (8 * i))

/-- A write to `PWRCTL`: the mode and the cap (R466). -/
def State.writePower (s : State) (die : Nat) (v : BitVec 64) : Host.Outcome State Fault Refusal :=
  match execPowerModeWrite die (v.getLsbD 0) s with
  | .next t => execPowerCapWrite die (v.extractLsb' 1 11) t
  | r => r

/-- A write to `PREQ` (R463). -/
def State.writePreq (s : State) (die : Nat) (v : BitVec 64) : Host.Outcome State Fault Refusal :=
  match (v.extractLsb' 48 2).toNat with
  | 0 => execPreqPreempt die v s
  | 1 => execPreqTerminate die v s
  | _ => execPreqReserved die v s

/-- A write to `KEYCTL` (R402, R403): zeroising comes first. -/
def State.writeKey (s : State) (pkg : Nat) (v : BitVec 64) : Host.Outcome State Fault Refusal :=
  if v.getLsbD 1 then
    match execKeyZero pkg s with
    | .next t => if v.getLsbD 0 then execKeyLoad pkg t else .next t
    | r => r
  else if v.getLsbD 0 then execKeyLoad pkg s
  else .next s

/-- REGISTER_WRITE (R403, R459, R462): a write to a register of BAR0; one that starts something does what its own step does;
a read-only or unlisted one is ignored. -/
def execRegisterWrite (pkg off : Nat) (value : BitVec 64) (s : State) : Host.Outcome State Fault Refusal :=
  match dieBlock pkg off with
  | some (d, o) =>
    if o = 0 then s.writePower d value
    else if o = 0x20 then (if value.getLsbD 1 then execBiasForce d value s else execBiasFlipRequest d value s)
    else if o = 0x30 then s.writePreq d value
    else
      let t := s.modDie d fun x => x.write o value
      .next (if o = 0x10 || o = 0x18 then t.poolChanged d else t)
  | none =>
    if off = 0x400 then execReportRequest pkg value s
    else if 0x440 ≤ off ∧ off < 0x460 ∧ off % 8 = 0 then .next (s.modPkg pkg fun p => { p with nonce := putNonce p.nonce (off - 0x440) value })
    else if off = 0x2000 then .next (s.modPkg pkg fun p => { p with note := p.note &&& ~~~(value.setWidth 5) })
    else if off = 0x100000 then execLaneEnable pkg value s
    else if off = 0x100010 then execArmSwap pkg value s
    else if off = 0x100300 then s.writeKey pkg value
    else if 0x100000 ≤ off ∧ off < 0x400000 ∧ off % 8 = 0 then .next (s.modPkg pkg fun p => p.opticalWrite (off - 0x100000) value)
    else .next s

/-! ### Memory from outside (R332, R347, R360) -/

/-- Whether every byte of a run is one of the device's: in a die of a package of the pod, with bits [43:37] zero (R18, R353). -/
def State.homed (s : State) (pa n : Nat) : Bool :=
  n != 0 && decide (pa + n ≤ 2 ^ 52) && decide (pa / 2 ^ 37 = (pa + n - 1) / 2 ^ 37) && pa / 2 ^ 37 % 2 ^ 7 == 0 && s.reachable pa

/-- HOST_ACCESS (R332, R192, R428): the dome serves the host, a page in flip waiting; the host writes its own memory. -/
def execHostAccess (op : HostOp) (s : State) : Host.Outcome State Fault Refusal :=
  match op with
  | .read pa n =>
    if s.homed pa n && !s.inFlip pa && !s.inFlip (pa + n - 1) then
      let s := s.recall none false pa n
      .next { s with hostRead := s.gread false pa n }
    else .next s
  | .write pa bytes =>
    let n := bytes.length
    if s.homed pa n && !s.inFlip pa && !s.inFlip (pa + n - 1) then
      .next (((s.recall none false pa n).gwrite none false pa bytes).logReleased (paDie pa) pa n)
    else .next s
  | .writeHost pa bytes => .next (s.gwrite none true pa bytes)

/-- Whether a stash window holds a block's line dirty: its write-back comes before anyone else's read of the block (R192). -/
def State.heldDirty (s : State) (pa : Nat) : Bool :=
  s.wgs.any fun (_, g) => g.stash.any fun (_, w) => w.lines.any fun (_, l) => l.dirty && l.pa / 128 == pa / 128

/-- DRAM_ERROR (R360): a corrected error is counted; another poisons its 64-byte block, unless a dirty stash line is still to
overwrite it whole. -/
def execDramError (pa : Nat) (bad : Bool) (s : State) : Host.Outcome State Fault Refusal :=
  if !s.homed pa 1 then .next s
  else if bad then
    .next { s.modSpire (paSpire pa) (fun p => { p with poisoned := p.poisoned + 1 }) with
      poison := if s.poison.contains (pa / 64) || s.heldDirty pa then s.poison else s.poison ++ [pa / 64] }
  else .next (s.modSpire (paSpire pa) fun p => { p with corrected := p.corrected + 1 })

/-! ### Partitions and resets (R18, R363, R407, R412, R464) -/

/-- The roots of a die's contexts. -/
def rootsOf (die : Nat) (roots : List (Nat × Nat × Nat)) : Tab Nat :=
  roots.foldl (fun t r => if r.1 = die then ins t r.2.1 r.2.2 else t) []

/-- The flows of a package in a new partition: a key that stays loaded keeps the numbers of its flits (R394, R401); what was
being rebuilt is gone, and the next flit of each peer begins a message (L23). -/
def State.formedFlows (s : State) (pkg : Nat) (p : Pkg) : Tab Flow :=
  p.flows.map fun f => (f.1, { Flow.reset with next := f.2.next, high := f.2.high, base := (lookD (s.pkg f.1).flows pkg Flow.reset).next })

/-- PARTITION_FORMED (R18, R210, R211, R363, R412): streams restart at 0, windows and counters are reset, no message of another
partition is left (L23), so that nothing more comes to the reply lines; each die's walker has its contexts' roots, and these contexts'
handle tables are empty. A package whose measured start failed stays out of service (R464). -/
def execPartitionFormed (n : Nat) (roots : List (Nat × Nat × Nat)) (s : State) : Host.Outcome State Fault Refusal :=
  .next { s with
    nPkg := max 1 (min n 48)
    nets := []
    netMail := []
    cores := s.cores.map fun c => (c.1, { c.2 with
      cnt := Counts.reset, tlb := []
      reply := (c.2.reply.filter fun p => s.rowWanted p.2).map fun p => (p.1, { p.2 with done := true }) })
    dies := (List.range (4 * max 1 (min n 48))).map fun d => (d, { s.die d with
      roots := rootsOf d roots, handles := [], tlb := [], walks := [], streams := [], arrivals := [], acks := [], ackOf := [], replies := [], wins := [] })
    spires := s.spires.map fun p => (p.1, { p.2 with wins := [], inbox := [], streams := [], owed := [], cnt := Counts.reset })
    pkgs := s.pkgs.map fun p => (p.1, { p.2 with queues := [], flows := s.formedFlows p.1 p.2, air := [], asks := [], ctrl := [] }) }

/-- A workgroup that a die reset ends: recorded, its kernel never completes (R100, R441). -/
def State.resetWg (s : State) (die : Nat) (p : Nat × Wg) : State :=
  let g := p.2
  let s := (s.dropWatches p.1).record die (termRecord g.inst g.g 0 cDIE_RESET none 0 0)
  { s with
    wgs := del s.wgs p.1
    kernels := upd s.kernels g.inst fun k => { k with gone := k.gone ++ [g.g], lost := true, faulted := true } }

/-- A die as its reset leaves it: the walker's roots, its contexts' handle tables, and the streams and the windows of its
partition stay (L23). -/
def Die.restarted (d : Die) : Die :=
  { Die.reset with
    roots := d.roots, handles := d.handles, streams := d.streams, arrivals := d.arrivals, acks := d.acks, ackOf := d.ackOf, replies := d.replies, wins := d.wins }

/-- DIE_RESET (R181, R441, R464, R466): work ends with DIE_RESET, carves are the default, then measured start from the manifest
and the 23 images of `fw`; records that waited at the port for the die's pending table may go on (R461). -/
def execDieReset (die : Nat) (fw : List (List (BitVec 8))) (s : State) : Host.Outcome State Fault Refusal :=
  let mine := s.wgs.filter fun p => dieOf p.2.core == die
  let s1 := s.modDie die Die.restarted
  let s : State := { s1 with
    cores := s1.cores.map fun c => (c.1, if dieOf c.1 = die then { Core.reset with cnt := c.2.cnt } else c.2)
    flips := s1.flips.filter fun f => f.die != die }
  .next (((mine.foldl (fun s p => s.resetWg die p) s).measuredStart die fw).portTurn (pkgOfDie die))

end Sys2Proof.Machine
end

