-- ==== Sys2Proof/Machine/Int.lean ====
section
/-! DEFINITION. The INT group (05 R133-R140): exact integer values, narrowed at the end. -/

namespace Sys2Proof.Machine

/-- The smallest and largest value of an element of a type. -/
def tyMin (ty : Ty) : Int := if ty.signed then -(2 ^ (ty.ew - 1) : Nat) else 0

def tyMax (ty : Ty) : Int := if ty.signed then (2 ^ (ty.ew - 1) : Nat) - 1 else (2 ^ ty.ew : Nat) - 1

/-- clamp or wrap an exact value into an element (R134). -/
def narrow (ty : Ty) (sat : Bool) (v : Int) : Nat :=
  if sat then wrapNat ty.ew (if v < tyMin ty then tyMin ty else if v > tyMax ty then tyMax ty else v) else wrapNat ty.ew v

/-- An operation on elements (R134): two operands, each element on its own. -/
def elems2 (ty : Ty) (sat : Bool) (f : Int → Int → Int) (a b : Nat) : Nat :=
  packEls ty.ew ((List.range ty.elems).map fun e => narrow ty sat (f (ty.elemInt a e) (ty.elemInt b e)))

/-- A result of two typed sources in each lane. -/
def Ix.int2 (x : Ix) (ty : Ty) (d a b : Opnd) (f : Nat → Nat → Nat) : Eff :=
  x.give d ty.wide (x.each d fun l => f (x.rd ty a l) (x.rd ty b l))

def Ix.int1 (x : Ix) (ty : Ty) (d a : Opnd) (f : Nat → Nat) : Eff :=
  x.give d ty.wide (x.each d fun l => f (x.rd ty a l))

def Ix.int3 (x : Ix) (ty : Ty) (d a b c : Opnd) (f : Nat → Nat → Nat → Nat) : Eff :=
  x.give d ty.wide (x.each d fun l => f (x.rd ty a l) (x.rd ty b l) (x.rd ty c l))

def minInt (a b : Int) : Int := if b < a then b else a

def maxInt (a b : Int) : Int := if a < b then b else a

def execIadd (h : Hd) (ty : Ty) (sat : Bool) (d a b : Opnd) (s : State) : Host.Outcome State Fault Refusal :=
  issue (.iadd h ty sat d a b) s fun x => x.int2 ty d a b (elems2 ty sat (· + ·))

def execIsub (h : Hd) (ty : Ty) (sat : Bool) (d a b : Opnd) (s : State) : Host.Outcome State Fault Refusal :=
  issue (.isub h ty sat d a b) s fun x => x.int2 ty d a b (elems2 ty sat (· - ·))

def execImul (h : Hd) (ty : Ty) (sat : Bool) (d a b : Opnd) (s : State) : Host.Outcome State Fault Refusal :=
  issue (.imul h ty sat d a b) s fun x => x.int2 ty d a b (elems2 ty sat (· * ·))

/-- The exact high half of a product (R134). -/
def mulHigh (ty : Ty) (a b : Nat) : Nat := wrapNat ty.ew (ty.elemInt a 0 * ty.elemInt b 0 / (2 ^ ty.ew : Nat))

def execImulh (h : Hd) (ty : Ty) (d a b : Opnd) (s : State) : Host.Outcome State Fault Refusal :=
  issue (.imulh h ty d a b) s fun x => x.int2 ty d a b (mulHigh ty)

/-- a * b + c, exact and narrowed (R134). -/
def mulAdd (ty : Ty) (sat : Bool) (a b c : Nat) : Nat := narrow ty sat (ty.elemInt a 0 * ty.elemInt b 0 + ty.elemInt c 0)

def execImad (h : Hd) (ty : Ty) (sat : Bool) (d a b c : Opnd) (s : State) : Host.Outcome State Fault Refusal :=
  issue (.imad h ty sat d a b c) s fun x => x.int3 ty d a b c (mulAdd ty sat)

/-- a * b + c with a 64-bit c and result (R134): a b latch or short immediate for C is a 64-bit operand. -/
def mulAddWide (ty : Ty) (a b c : Nat) : Nat :=
  wrapNat 64 (ty.elemInt a 0 * ty.elemInt b 0 + (if ty.signed then asSigned 64 c else (c : Int)))

def execImadw (h : Hd) (ty : Ty) (d a b c : Opnd) (s : State) : Host.Outcome State Fault Refusal :=
  issue (.imadw h ty d a b c) s fun x =>
    x.give d true (x.each d fun l => mulAddWide ty (x.rd ty a l) (x.rd ty b l) (x.rd64 c l))

/-- Quotient of division toward zero, with the corners of R135. -/
def quot (ty : Ty) (sat : Bool) (a b : Nat) : Nat :=
  let i := ty.elemInt a 0
  let j := ty.elemInt b 0
  if j = 0 then 2 ^ ty.ew - 1
  else if ty.signed && i == tyMin ty && j == -1 then (if sat then 2 ^ (ty.ew - 1) - 1 else 2 ^ (ty.ew - 1))
  else wrapNat ty.ew (Int.tdiv i j)

/-- Remainder of division toward zero (R135). -/
def rem (ty : Ty) (a b : Nat) : Nat :=
  let i := ty.elemInt a 0
  let j := ty.elemInt b 0
  if j = 0 then elemOf ty.ew a 0
  else if ty.signed && i == tyMin ty && j == -1 then 0
  else wrapNat ty.ew (Int.tmod i j)

def execIdiv (h : Hd) (ty : Ty) (sat : Bool) (d a b : Opnd) (s : State) : Host.Outcome State Fault Refusal :=
  issue (.idiv h ty sat d a b) s fun x => x.int2 ty d a b (quot ty sat)

def execIrem (h : Hd) (ty : Ty) (d a b : Opnd) (s : State) : Host.Outcome State Fault Refusal :=
  issue (.irem h ty d a b) s fun x => x.int2 ty d a b (rem ty)

def execImin (h : Hd) (ty : Ty) (d a b : Opnd) (s : State) : Host.Outcome State Fault Refusal :=
  issue (.imin h ty d a b) s fun x => x.int2 ty d a b (elems2 ty false minInt)

def execImax (h : Hd) (ty : Ty) (d a b : Opnd) (s : State) : Host.Outcome State Fault Refusal :=
  issue (.imax h ty d a b) s fun x => x.int2 ty d a b (elems2 ty false maxInt)

def execIabs (h : Hd) (ty : Ty) (sat : Bool) (d a : Opnd) (s : State) : Host.Outcome State Fault Refusal :=
  issue (.iabs h ty sat d a) s fun x => x.int1 ty d a fun v => elems2 ty sat (fun i _ => (i.natAbs : Int)) v 0

def execIneg (h : Hd) (ty : Ty) (sat : Bool) (d a : Opnd) (s : State) : Host.Outcome State Fault Refusal :=
  issue (.ineg h ty sat d a) s fun x => x.int1 ty d a fun v => elems2 ty sat (fun i _ => -i) v 0

def execAnd (h : Hd) (ty : Ty) (d a b : Opnd) (s : State) : Host.Outcome State Fault Refusal :=
  issue (.and h ty d a b) s fun x => x.int2 ty d a b (· &&& ·)

def execOr (h : Hd) (ty : Ty) (d a b : Opnd) (s : State) : Host.Outcome State Fault Refusal :=
  issue (.or h ty d a b) s fun x => x.int2 ty d a b (· ||| ·)

def execXor (h : Hd) (ty : Ty) (d a b : Opnd) (s : State) : Host.Outcome State Fault Refusal :=
  issue (.xor h ty d a b) s fun x => x.int2 ty d a b (· ^^^ ·)

/-- The complement in w bits. -/
def notBits (w v : Nat) : Nat := 2 ^ w - 1 - v % 2 ^ w

def execNot (h : Hd) (ty : Ty) (d a : Opnd) (s : State) : Host.Outcome State Fault Refusal :=
  issue (.not h ty d a) s fun x => x.int1 ty d a (notBits ty.ew)

/-- A truth table of three inputs, bit by bit (R136). -/
def table3 (w : Nat) (tt : BitVec 8) (a b c : Nat) : Nat :=
  ((List.range w).map fun i =>
    let n := (if a.testBit i then 1 else 0) + (if b.testBit i then 2 else 0) + (if c.testBit i then 4 else 0)
    if tt.getLsbD n then 2 ^ i else 0).sum

def execBool3 (h : Hd) (tt : BitVec 8) (ty : Ty) (d a b c : Opnd) (s : State) : Host.Outcome State Fault Refusal :=
  issue (.bool3 h tt ty d a b c) s fun x => x.int3 ty d a b c (table3 ty.ew tt)

/-- A result from a typed A and a 32-bit B (R137, R138). -/
def Ix.intBy32 (x : Ix) (ty : Ty) (d a b : Opnd) (f : Nat → Nat → Nat) : Eff :=
  x.give d ty.wide (x.each d fun l => f (x.rd ty a l) (x.rd32 b l))

def shlBits (w a n : Nat) : Nat := if n ≥ w then 0 else a * 2 ^ n % 2 ^ w

def shrBits (w a n : Nat) : Nat := if n ≥ w then 0 else a / 2 ^ n

def sarBits (w a n : Nat) : Nat :=
  let i := asSigned w a
  if n ≥ w then (if i < 0 then 2 ^ w - 1 else 0) else wrapNat w (i / (2 ^ n : Nat))

def rotBits (w a n : Nat) : Nat :=
  let k := n % w
  (a * 2 ^ k % 2 ^ w) ||| (a / 2 ^ (w - k))

def execShl (h : Hd) (ty : Ty) (d a b : Opnd) (s : State) : Host.Outcome State Fault Refusal :=
  issue (.shl h ty d a b) s fun x => x.intBy32 ty d a b (shlBits ty.ew)

def execShr (h : Hd) (ty : Ty) (d a b : Opnd) (s : State) : Host.Outcome State Fault Refusal :=
  issue (.shr h ty d a b) s fun x => x.intBy32 ty d a b (shrBits ty.ew)

def execSar (h : Hd) (ty : Ty) (d a b : Opnd) (s : State) : Host.Outcome State Fault Refusal :=
  issue (.sar h ty d a b) s fun x => x.intBy32 ty d a b (sarBits ty.ew)

def execRot (h : Hd) (ty : Ty) (d a b : Opnd) (s : State) : Host.Outcome State Fault Refusal :=
  issue (.rot h ty d a b) s fun x => x.intBy32 ty d a b (rotBits ty.ew)

/-- A 32-bit result from a typed A (R133: POPC, CLZ, CTZ). -/
def Ix.count1 (x : Ix) (ty : Ty) (d a : Opnd) (f : Nat → Nat) : Eff := x.give d false (x.each d fun l => f (x.rd ty a l))

def popcount (w a : Nat) : Nat := ((List.range w).filter a.testBit).length

def clzBits (w a : Nat) : Nat := if a = 0 then w else w - 1 - a.log2

/-- The number of 0 bits below the lowest 1, counted from bit i up with fuel. -/
def ctzFrom (a : Nat) : Nat → Nat → Nat
  | 0, i => i
  | k + 1, i => if a.testBit i then i else ctzFrom a k (i + 1)

def ctzBits (w a : Nat) : Nat := ctzFrom a w 0

def brevBits (w a : Nat) : Nat := ((List.range w).map fun i => if a.testBit (w - 1 - i) then 2 ^ i else 0).sum

def execPopc (h : Hd) (ty : Ty) (d a : Opnd) (s : State) : Host.Outcome State Fault Refusal :=
  issue (.popc h ty d a) s fun x => x.count1 ty d a (popcount ty.ew)

def execClz (h : Hd) (ty : Ty) (d a : Opnd) (s : State) : Host.Outcome State Fault Refusal :=
  issue (.clz h ty d a) s fun x => x.count1 ty d a (clzBits ty.ew)

def execCtz (h : Hd) (ty : Ty) (d a : Opnd) (s : State) : Host.Outcome State Fault Refusal :=
  issue (.ctz h ty d a) s fun x => x.count1 ty d a (ctzBits ty.ew)

def execBrev (h : Hd) (ty : Ty) (d a : Opnd) (s : State) : Host.Outcome State Fault Refusal :=
  issue (.brev h ty d a) s fun x => x.int1 ty d a (brevBits ty.ew)

/-- Bit-field extract (R138). -/
def bfeBits (ty : Ty) (a b : Nat) : Nat :=
  let w := ty.ew
  let pos := b % 256
  let len := b / 256 % 256
  if len = 0 || pos ≥ w then 0
  else
    let len := if len < w - pos then len else w - pos
    let f := a / 2 ^ pos % 2 ^ len
    if ty.signed then wrapNat w (asSigned len f) else f

/-- Bit-field insert (R138). -/
def bfiBits (w a b c : Nat) : Nat :=
  let pos := b % 256
  let len := b / 256 % 256
  if len = 0 || pos ≥ w then c
  else
    let len := if len < w - pos then len else w - pos
    c % 2 ^ pos + a % 2 ^ len * 2 ^ pos + c / 2 ^ (pos + len) * 2 ^ (pos + len)

def execBfe (h : Hd) (ty : Ty) (d a b : Opnd) (s : State) : Host.Outcome State Fault Refusal :=
  issue (.bfe h ty d a b) s fun x => x.intBy32 ty d a b (bfeBits ty)

def execBfi (h : Hd) (ty : Ty) (d a b c : Opnd) (s : State) : Host.Outcome State Fault Refusal :=
  issue (.bfi h ty d a b c) s fun x =>
    x.give d ty.wide (x.each d fun l => bfiBits ty.ew (x.rd ty a l) (x.rd32 b l) (x.rd ty c l))

/-- An integer comparison (R139). -/
def icmpHolds (c : ICmp) (i j : Int) : Bool :=
  match c with
  | .eq => i == j | .ne => i != j | .lt => decide (i < j) | .le => decide (i ≤ j) | .gt => decide (i > j) | .ge => decide (i ≥ j)

def execIset (h : Hd) (cmp : ICmp) (ty : Ty) (d a b : Opnd) (s : State) : Host.Outcome State Fault Refusal :=
  issue (.iset h cmp ty d a b) s fun x =>
    x.give d false (x.each d fun l => if icmpHolds cmp (ty.elemInt (x.rd ty a l) 0) (ty.elemInt (x.rd ty b l) 0) then 1 else 0)

/-- `ISEL` (R139): C chooses by lane, for an s destination in the lowest lane of E (L83). -/
def execIsel (h : Hd) (ty : Ty) (d a b c : Opnd) (s : State) : Host.Outcome State Fault Refusal :=
  issue (.isel h ty d a b c) s fun x =>
    x.give d ty.wide (x.each d fun l => if x.pred c l then x.rd ty a l else x.rd ty b l)

/-- Address arithmetic (R139). -/
def leaBits (ty : Ty) (sh : Nat) (a b : Nat) : Nat :=
  wrapNat 64 ((a : Int) + (if ty.signed then asSigned 32 b else (b : Int)) * (2 ^ sh : Nat))

def execLea (h : Hd) (sh : BitVec 3) (ty : Ty) (d a b : Opnd) (s : State) : Host.Outcome State Fault Refusal :=
  issue (.lea h sh ty d a b) s fun x => x.give d true (x.each d fun l => leaBits ty sh.toNat (x.rd64 a l) (x.rd32 b l))

/-- A sum or difference with carry: D written, then the carry predicate in every computing lane (R140). -/
def Ix.carry (x : Ix) (ty : Ty) (cp : BitVec 3) (d : Opnd) (v : Nat → Int) (out : Int → Bool) : Eff :=
  let rs := x.each d fun l => wrapNat ty.ew (v l)
  let w := x.written x.w d ty.wide rs
  let bits := if d.isS then (if (x.computing d).any fun l => out (v l) then x.on else 0)
    else maskOf ((x.computing d).filter fun l => out (v l))
  .regs (if cp = 0 then w else w.pset (cp.toNat - 1) x.on bits) (x.capture d ty.wide rs) x.c.advance

/-- The predicate C of a lane as 1 or 0; for an s destination that of the lowest lane of E (R140). -/
def Ix.carryIn (x : Ix) (c : Opnd) (l : Nat) : Int := if x.pred c l then 1 else 0

def execAddc (h : Hd) (cp : BitVec 3) (ty : Ty) (d a b c : Opnd) (s : State) : Host.Outcome State Fault Refusal :=
  issue (.addc h cp ty d a b c) s fun x =>
    x.carry ty cp d (fun l => (x.rd ty a l : Int) + (x.rd ty b l : Int) + x.carryIn c l) fun v => decide (v ≥ (2 ^ ty.ew : Nat))

def execSubb (h : Hd) (cp : BitVec 3) (ty : Ty) (d a b c : Opnd) (s : State) : Host.Outcome State Fault Refusal :=
  issue (.subb h cp ty d a b c) s fun x =>
    x.carry ty cp d (fun l => (x.rd ty a l : Int) - (x.rd ty b l : Int) - x.carryIn c l) fun v => decide (v < 0)

/-- Predicate logic by a truth table (R136). -/
def execPlop (h : Hd) (tt : BitVec 8) (d a b c : Opnd) (s : State) : Host.Outcome State Fault Refusal :=
  issue (.plop h tt d a b c) s fun x =>
    x.give d false (x.each d fun l => table3 1 tt (x.rd32 a l) (x.rd32 b l) (x.rd32 c l))

end Sys2Proof.Machine
end

