-- ==== Sys2Proof/Machine/Dispatch.lean ====
section
/-! DEFINITION. The dispatcher: one arm for each constructor of `Instr`, each a call of its meaning. -/

namespace Sys2Proof.Machine

/-- The meaning of an instruction, or of a step of another agent. -/
def exec (i : Instr) (s : State) : Host.Outcome State Fault Refusal :=
  match i with
  | .nop h => Sys2Proof.Machine.execNop h s
  | .bra h pr off => Sys2Proof.Machine.execBra h pr off s
  | .brx h a => Sys2Proof.Machine.execBrx h a s
  | .call h pr d off => Sys2Proof.Machine.execCall h pr d off s
  | .ret h a => Sys2Proof.Machine.execRet h a s
  | .rjset h d => Sys2Proof.Machine.execRjset h d s
  | .rjwait h pr a => Sys2Proof.Machine.execRjwait h pr a s
  | .rjdrop h d => Sys2Proof.Machine.execRjdrop h d s
  | .exit h => Sys2Proof.Machine.execExit h s
  | .yield h => Sys2Proof.Machine.execYield h s
  | .prio h pr => Sys2Proof.Machine.execPrio h pr s
  | .bkt h pr a b => Sys2Proof.Machine.execBkt h pr a b s
  | .launch h d a => Sys2Proof.Machine.execLaunch h d a s
  | .waitk h d a b => Sys2Proof.Machine.execWaitk h d a b s
  | .sleep h n => Sys2Proof.Machine.execSleep h n s
  | .iadd h ty sat d a b => Sys2Proof.Machine.execIadd h ty sat d a b s
  | .isub h ty sat d a b => Sys2Proof.Machine.execIsub h ty sat d a b s
  | .imul h ty sat d a b => Sys2Proof.Machine.execImul h ty sat d a b s
  | .imulh h ty d a b => Sys2Proof.Machine.execImulh h ty d a b s
  | .imad h ty sat d a b c => Sys2Proof.Machine.execImad h ty sat d a b c s
  | .imadw h ty d a b c => Sys2Proof.Machine.execImadw h ty d a b c s
  | .idiv h ty sat d a b => Sys2Proof.Machine.execIdiv h ty sat d a b s
  | .irem h ty d a b => Sys2Proof.Machine.execIrem h ty d a b s
  | .imin h ty d a b => Sys2Proof.Machine.execImin h ty d a b s
  | .imax h ty d a b => Sys2Proof.Machine.execImax h ty d a b s
  | .iabs h ty sat d a => Sys2Proof.Machine.execIabs h ty sat d a s
  | .ineg h ty sat d a => Sys2Proof.Machine.execIneg h ty sat d a s
  | .and h ty d a b => Sys2Proof.Machine.execAnd h ty d a b s
  | .or h ty d a b => Sys2Proof.Machine.execOr h ty d a b s
  | .xor h ty d a b => Sys2Proof.Machine.execXor h ty d a b s
  | .not h ty d a => Sys2Proof.Machine.execNot h ty d a s
  | .bool3 h tt ty d a b c => Sys2Proof.Machine.execBool3 h tt ty d a b c s
  | .shl h ty d a b => Sys2Proof.Machine.execShl h ty d a b s
  | .shr h ty d a b => Sys2Proof.Machine.execShr h ty d a b s
  | .sar h ty d a b => Sys2Proof.Machine.execSar h ty d a b s
  | .rot h ty d a b => Sys2Proof.Machine.execRot h ty d a b s
  | .popc h ty d a => Sys2Proof.Machine.execPopc h ty d a s
  | .clz h ty d a => Sys2Proof.Machine.execClz h ty d a s
  | .ctz h ty d a => Sys2Proof.Machine.execCtz h ty d a s
  | .brev h ty d a => Sys2Proof.Machine.execBrev h ty d a s
  | .bfe h ty d a b => Sys2Proof.Machine.execBfe h ty d a b s
  | .bfi h ty d a b c => Sys2Proof.Machine.execBfi h ty d a b c s
  | .iset h cmp ty d a b => Sys2Proof.Machine.execIset h cmp ty d a b s
  | .isel h ty d a b c => Sys2Proof.Machine.execIsel h ty d a b c s
  | .lea h sh ty d a b => Sys2Proof.Machine.execLea h sh ty d a b s
  | .addc h cp ty d a b c => Sys2Proof.Machine.execAddc h cp ty d a b c s
  | .subb h cp ty d a b c => Sys2Proof.Machine.execSubb h cp ty d a b c s
  | .plop h tt d a b c => Sys2Proof.Machine.execPlop h tt d a b c s
  | .mov h ty d a => Sys2Proof.Machine.execMov h ty d a s
  | .movi h ty d imm => Sys2Proof.Machine.execMovi h ty d imm s
  | .movh h n ty d a imm => Sys2Proof.Machine.execMovh h n ty d a imm s
  | .shfl h mode seg ty d a b => Sys2Proof.Machine.execShfl h mode seg ty d a b s
  | .vote h mode d a => Sys2Proof.Machine.execVote h mode d a s
  | .bcast h elect ty d a b => Sys2Proof.Machine.execBcast h elect ty d a b s
  | .rdsr h d sr => Sys2Proof.Machine.execRdsr h d sr s
  | .wrsr h a sr => Sys2Proof.Machine.execWrsr h a sr s
  | .xacq h n => Sys2Proof.Machine.execXacq h n s
  | .xrel h => Sys2Proof.Machine.execXrel h s
  | .xtry h d n => Sys2Proof.Machine.execXtry h d n s
  | .pmov h unpack m d a => Sys2Proof.Machine.execPmov h unpack m d a s
  | .kmov h d a => Sys2Proof.Machine.execKmov h d a s
  | .fadd h rnd ty sat d a b => Sys2Proof.Machine.execFadd h rnd ty sat d a b s
  | .fsub h rnd ty sat d a b => Sys2Proof.Machine.execFsub h rnd ty sat d a b s
  | .fmul h rnd ty sat d a b => Sys2Proof.Machine.execFmul h rnd ty sat d a b s
  | .ffma h rnd ty sat d a b c => Sys2Proof.Machine.execFfma h rnd ty sat d a b c s
  | .fmin h num ty d a b => Sys2Proof.Machine.execFmin h num ty d a b s
  | .fmax h num ty d a b => Sys2Proof.Machine.execFmax h num ty d a b s
  | .fabs h ty d a => Sys2Proof.Machine.execFabs h ty d a s
  | .fneg h ty d a => Sys2Proof.Machine.execFneg h ty d a s
  | .fcpys h ty d a b => Sys2Proof.Machine.execFcpys h ty d a b s
  | .fdiv h rnd ty sat d a b => Sys2Proof.Machine.execFdiv h rnd ty sat d a b s
  | .fsqrt h rnd ty d a => Sys2Proof.Machine.execFsqrt h rnd ty d a s
  | .frcp h ty sat d a => Sys2Proof.Machine.execFrcp h ty sat d a s
  | .frsq h ty d a => Sys2Proof.Machine.execFrsq h ty d a s
  | .fexp2 h ty sat d a => Sys2Proof.Machine.execFexp2 h ty sat d a s
  | .flog2 h ty d a => Sys2Proof.Machine.execFlog2 h ty d a s
  | .fsin h ty d a => Sys2Proof.Machine.execFsin h ty d a s
  | .fcos h ty d a => Sys2Proof.Machine.execFcos h ty d a s
  | .fset h cmp ty d a b => Sys2Proof.Machine.execFset h cmp ty d a b s
  | .fclass h ty d a => Sys2Proof.Machine.execFclass h ty d a s
  | .fscale h rnd ty sat d a b => Sys2Proof.Machine.execFscale h rnd ty sat d a b s
  | .frnd h x rnd ty d a => Sys2Proof.Machine.execFrnd h x rnd ty d a s
  | .fdot2 h rnd ty sat d a b c => Sys2Proof.Machine.execFdot2 h rnd ty sat d a b c s
  | .cvt h src rnd ty sat d a => Sys2Proof.Machine.execCvt h src rnd ty sat d a s
  | .cvtb8 h dec hi sr wide fmt rnd sat d a b => Sys2Proof.Machine.execCvtb8 h dec hi sr wide fmt rnd sat d a b s
  | .mxq h sr src fmt rnd d a => Sys2Proof.Machine.execMxq h sr src fmt rnd d a s
  | .mxd h out fmt rnd sat d a b => Sys2Proof.Machine.execMxd h out fmt rnd sat d a b s
  | .amax h ty d a b => Sys2Proof.Machine.execAmax h ty d a b s
  | .rng h ty d => Sys2Proof.Machine.execRng h ty d s
  | .rngkey h rd d a b => Sys2Proof.Machine.execRngkey h rd d a b s
  | .flgrd h clr d => Sys2Proof.Machine.execFlgrd h clr d s
  | .flgclr h a => Sys2Proof.Machine.execFlgclr h a s
  | .flgen h mode a => Sys2Proof.Machine.execFlgen h mode a s
  | .frmset h d a => Sys2Proof.Machine.execFrmset h d a s
  | .fxcvt h line ty sat d a b off => Sys2Proof.Machine.execFxcvt h line ty sat d a b off s
  | .ldl h mm ty d a b off => Sys2Proof.Machine.execLdl h mm ty d a b off s
  | .stl h mm ty d a b off => Sys2Proof.Machine.execStl h mm ty d a b off s
  | .ldg h mm ty d a b off => Sys2Proof.Machine.execLdg h mm ty d a b off s
  | .stg h mm ty d a b off => Sys2Proof.Machine.execStg h mm ty d a b off s
  | .atl h mm op nr ty d a b c => Sys2Proof.Machine.execAtl h mm op nr ty d a b c s
  | .atg h mm op nr ty d a b c => Sys2Proof.Machine.execAtg h mm op nr ty d a b c s
  | .stash h win a b c => Sys2Proof.Machine.execStash h win a b c s
  | .stfl h all win => Sys2Proof.Machine.execStfl h all win s
  | .stinv h all win => Sys2Proof.Machine.execStinv h all win s
  | .l1inv h => Sys2Proof.Machine.execL1inv h s
  | .pref h a b off => Sys2Proof.Machine.execPref h a b off s
  | .seal h kind d a b off => Sys2Proof.Machine.execSeal h kind d a b off s
  | .unseal h a => Sys2Proof.Machine.execUnseal h a s
  | .hqry h rc d a n => Sys2Proof.Machine.execHqry h rc d a n s
  | .cpy h dir grp on d a b c => Sys2Proof.Machine.execCpy h dir grp on d a b c s
  | .gath h list rows grp on d a b c => Sys2Proof.Machine.execGath h list rows grp on d a b c s
  | .scat h list rows grp on d a b c => Sys2Proof.Machine.execScat h list rows grp on d a b c s
  | .binit h a b => Sys2Proof.Machine.execBinit h a b s
  | .barv h lanes d a b c => Sys2Proof.Machine.execBarv h lanes d a b c s
  | .bexp h d a b => Sys2Proof.Machine.execBexp h d a b s
  | .bwait h d a b c => Sys2Proof.Machine.execBwait h d a b c s
  | .btest h img d a b => Sys2Proof.Machine.execBtest h img d a b s
  | .evmset h mode d a b => Sys2Proof.Machine.execEvmset h mode d a b s
  | .evmclr h mode a b => Sys2Proof.Machine.execEvmclr h mode a b s
  | .cpyq h clr d a => Sys2Proof.Machine.execCpyq h clr d a s
  | .cpyk h d a => Sys2Proof.Machine.execCpyk h d a s
  | .tcfg h d a => Sys2Proof.Machine.execTcfg h d a s
  | .tld h tr d a b off => Sys2Proof.Machine.execTld h tr d a b off s
  | .tst h d a b off => Sys2Proof.Machine.execTst h d a b off s
  | .tzero h d => Sys2Proof.Machine.execTzero h d s
  | .mma h sw fb fa ty d a b => Sys2Proof.Machine.execMma h sw fb fa ty d a b s
  | .mmasp h sw pat fb fa ty d a b c => Sys2Proof.Machine.execMmasp h sw pat fb fa ty d a b c s
  | .mmseq h sw on fb fa ty d a b => Sys2Proof.Machine.execMmseq h sw on fb fa ty d a b s
  | .seqst h wait clr d => Sys2Proof.Machine.execSeqst h wait clr d s
  | .tmov h dir d a b => Sys2Proof.Machine.execTmov h dir d a b s
  | .tqry h n d a => Sys2Proof.Machine.execTqry h n d a s
  | .ald h ln d a b => Sys2Proof.Machine.execAld h ln d a b s
  | .ast h ln ty d a b => Sys2Proof.Machine.execAst h ln ty d a b s
  | .azero h d => Sys2Proof.Machine.execAzero h d s
  | .adrn h z fmt rnd ty sat a b => Sys2Proof.Machine.execAdrn h z fmt rnd ty sat a b s
  | .adru h rule z mbf ty sat a b c => Sys2Proof.Machine.execAdru h rule z mbf ty sat a b c s
  | .asca h fsc d a b => Sys2Proof.Machine.execAsca h fsc d a b s
  | .aqred h z int fmt rnd ty sat a b c => Sys2Proof.Machine.execAqred h z int fmt rnd ty sat a b c s
  | .split h n ex d a b => Sys2Proof.Machine.execSplit h n ex d a b s
  | .recomb h lv ln d a b => Sys2Proof.Machine.execRecomb h lv ln d a b s
  | .acqry h d a => Sys2Proof.Machine.execAcqry h d a s
  | .kclaim h kind ch d a b w => Sys2Proof.Machine.execKclaim h kind ch d a b w s
  | .kfree h => Sys2Proof.Machine.execKfree h s
  | .kins h d a b => Sys2Proof.Machine.execKins h d a b s
  | .kprb h d a c => Sys2Proof.Machine.execKprb h d a c s
  | .kdel h d a => Sys2Proof.Machine.execKdel h d a s
  | .kacc h ty a b => Sys2Proof.Machine.execKacc h ty a b s
  | .kdrn h z d a b => Sys2Proof.Machine.execKdrn h z d a b s
  | .kstat h clr d => Sys2Proof.Machine.execKstat h clr d s
  | .gld h sat d a b => Sys2Proof.Machine.execGld h sat d a b s
  | .gsc h gen sat a b c => Sys2Proof.Machine.execGsc h gen sat a b c s
  | .gidx h w d a b lv => Sys2Proof.Machine.execGidx h w d a b lv s
  | .gqry h d a sel => Sys2Proof.Machine.execGqry h d a sel s
  | .fence h mm kr kg kl => Sys2Proof.Machine.execFence h mm kr kg kl s
  | .bflip h host d a => Sys2Proof.Machine.execBflip h host d a s
  | .bqry h d a => Sys2Proof.Machine.execBqry h d a s
  | .radd h comm ty d a b off => Sys2Proof.Machine.execRadd h comm ty d a b off s
  | .rfxa h comm init line fmt ty d a b c => Sys2Proof.Machine.execRfxa h comm init line fmt ty d a b c s
  | .rmin h comm ty d a b off => Sys2Proof.Machine.execRmin h comm ty d a b off s
  | .rmax h comm ty d a b off => Sys2Proof.Machine.execRmax h comm ty d a b off s
  | .ror h comm ty d a b off => Sys2Proof.Machine.execRor h comm ty d a b off s
  | .rwo h comm ty d a b off => Sys2Proof.Machine.execRwo h comm ty d a b off s
  | .rarv h ty d a b off => Sys2Proof.Machine.execRarv h ty d a b off s
  | .rreq h w32 n d a b => Sys2Proof.Machine.execRreq h w32 n d a b s
  | .waitc h d a b c => Sys2Proof.Machine.execWaitc h d a b c s
  | .hbar h mm d a ch => Sys2Proof.Machine.execHbar h mm d a ch s
  | .phase h d a => Sys2Proof.Machine.execPhase h d a s
  | .phqry h d sel => Sys2Proof.Machine.execPhqry h d sel s
  | .oapp h d a ch => Sys2Proof.Machine.execOapp h d a ch s
  | .odecl h ch => Sys2Proof.Machine.execOdecl h ch s
  | .dmqry h d => Sys2Proof.Machine.execDmqry h d s
  | .trap h n => Sys2Proof.Machine.execTrap h n s
  | .tret h => Sys2Proof.Machine.execTret h s
  | .trdc h clr d => Sys2Proof.Machine.execTrdc h clr d s
  | .ppt h mode n => Sys2Proof.Machine.execPpt h mode n s
  | .tlbinv h scope all a => Sys2Proof.Machine.execTlbinv h scope all a s
  | .dbg h mode a b code => Sys2Proof.Machine.execDbg h mode a b code s
  | .unassignedOpcode bits => Sys2Proof.Machine.execUnassignedOpcode bits s
  | .placeWorkgroup die => Sys2Proof.Machine.execPlaceWorkgroup die s
  | .carveChange core => Sys2Proof.Machine.execCarveChange core s
  | .carveChangeDone core => Sys2Proof.Machine.execCarveChangeDone core s
  | .preemptSave wid => Sys2Proof.Machine.execPreemptSave wid s
  | .resumeWorkgroup die => Sys2Proof.Machine.execResumeWorkgroup die s
  | .workgroupRetire wid => Sys2Proof.Machine.execWorkgroupRetire wid s
  | .xacqGrant core => Sys2Proof.Machine.execXacqGrant core s
  | .sleepEnd wid warp => Sys2Proof.Machine.execSleepEnd wid warp s
  | .waitkWake wid warp => Sys2Proof.Machine.execWaitkWake wid warp s
  | .commandStart core => Sys2Proof.Machine.execCommandStart core s
  | .pieceLanded wid cmd piece => Sys2Proof.Machine.execPieceLanded wid cmd piece s
  | .rowLanded wid cmd row => Sys2Proof.Machine.execRowLanded wid cmd row s
  | .gatherRowTimeout wid cmd row => Sys2Proof.Machine.execGatherRowTimeout wid cmd row s
  | .commandComplete wid cmd => Sys2Proof.Machine.execCommandComplete wid cmd s
  | .replyBufferWrite die k noise => Sys2Proof.Machine.execReplyBufferWrite die k noise s
  | .engineComplete core => Sys2Proof.Machine.execEngineComplete core s
  | .sequencerStep core => Sys2Proof.Machine.execSequencerStep core s
  | .seqstWaitReturn wid warp => Sys2Proof.Machine.execSeqstWaitReturn wid warp s
  | .aqredStep wid => Sys2Proof.Machine.execAqredStep wid s
  | .keyedApply core => Sys2Proof.Machine.execKeyedApply core s
  | .gridComplete core => Sys2Proof.Machine.execGridComplete core s
  | .gscSend core => Sys2Proof.Machine.execGscSend core s
  | .walkComplete die k => Sys2Proof.Machine.execWalkComplete die k s
  | .streamEntry who => Sys2Proof.Machine.execStreamEntry who s
  | .retransmit src dst seq => Sys2Proof.Machine.execRetransmit src dst seq s
  | .rarvDepart die wid warp => Sys2Proof.Machine.execRarvDepart die wid warp s
  | .streamStall wid warp => Sys2Proof.Machine.execStreamStall wid warp s
  | .arrivalStall die wid warp => Sys2Proof.Machine.execArrivalStall die wid warp s
  | .applyRadd sp k noise => Sys2Proof.Machine.execApplyRadd sp k noise s
  | .applyRmin sp k noise => Sys2Proof.Machine.execApplyRmin sp k noise s
  | .applyRmax sp k noise => Sys2Proof.Machine.execApplyRmax sp k noise s
  | .applyRor sp k noise => Sys2Proof.Machine.execApplyRor sp k noise s
  | .applyContribution sp k noise => Sys2Proof.Machine.execApplyContribution sp k noise s
  | .applyLineInit sp k noise => Sys2Proof.Machine.execApplyLineInit sp k noise s
  | .applyWriteOnce sp k noise => Sys2Proof.Machine.execApplyWriteOnce sp k noise s
  | .applyArrival sp k noise => Sys2Proof.Machine.execApplyArrival sp k noise s
  | .serveReadRequest sp k noise => Sys2Proof.Machine.execServeReadRequest sp k noise s
  | .applyReply sp k noise => Sys2Proof.Machine.execApplyReply sp k noise s
  | .ackGroupReceived die k noise => Sys2Proof.Machine.execAckGroupReceived die k noise s
  | .watchFire sp k => Sys2Proof.Machine.execWatchFire sp k s
  | .watchPoll wid warp => Sys2Proof.Machine.execWatchPoll wid warp s
  | .waitcDeadline wid warp => Sys2Proof.Machine.execWaitcDeadline wid warp s
  | .fenceComplete wid warp => Sys2Proof.Machine.execFenceComplete wid warp s
  | .networkArrival k => Sys2Proof.Machine.execNetworkArrival k s
  | .balanceSweep k => Sys2Proof.Machine.execBalanceSweep k s
  | .actGrant die ch => Sys2Proof.Machine.execActGrant die ch s
  | .loggedEvent wid warp => Sys2Proof.Machine.execLoggedEvent wid warp s
  | .logFull wid warp => Sys2Proof.Machine.execLogFull wid warp s
  | .pptHoldExpiry wid warp => Sys2Proof.Machine.execPptHoldExpiry wid warp s
  | .launchPortWrite pkg ctx off bytes => Sys2Proof.Machine.execLaunchPortWrite pkg ctx off bytes s
  | .preqPreempt die value => Sys2Proof.Machine.execPreqPreempt die value s
  | .preqTerminate die value => Sys2Proof.Machine.execPreqTerminate die value s
  | .preqReserved die value => Sys2Proof.Machine.execPreqReserved die value s
  | .biasFlipRequest die value => Sys2Proof.Machine.execBiasFlipRequest die value s
  | .biasForce die value => Sys2Proof.Machine.execBiasForce die value s
  | .reportRequest pkg value => Sys2Proof.Machine.execReportRequest pkg value s
  | .reportReady pkg => Sys2Proof.Machine.execReportReady pkg s
  | .powerModeWrite die eff => Sys2Proof.Machine.execPowerModeWrite die eff s
  | .modeSwitch die => Sys2Proof.Machine.execModeSwitch die s
  | .powerCapWrite die cap => Sys2Proof.Machine.execPowerCapWrite die cap s
  | .capClockStep die watts => Sys2Proof.Machine.execCapClockStep die watts s
  | .armSwap pkg n => Sys2Proof.Machine.execArmSwap pkg n s
  | .tableSwap pkg => Sys2Proof.Machine.execTableSwap pkg s
  | .keyLoad pkg => Sys2Proof.Machine.execKeyLoad pkg s
  | .keyZero pkg => Sys2Proof.Machine.execKeyZero pkg s
  | .laneEnable pkg value => Sys2Proof.Machine.execLaneEnable pkg value s
  | .registerWrite pkg off value => Sys2Proof.Machine.execRegisterWrite pkg off value s
  | .slotStart pkg => Sys2Proof.Machine.execSlotStart pkg s
  | .flitReceived pkg lane k symbols bad noise => Sys2Proof.Machine.execFlitReceived pkg lane k symbols bad noise s
  | .flowGap pkg src => Sys2Proof.Machine.execFlowGap pkg src s
  | .fecWindowEnd pkg lane => Sys2Proof.Machine.execFecWindowEnd pkg lane s
  | .handoverRequest pkg lane => Sys2Proof.Machine.execHandoverRequest pkg lane s
  | .spareReady pkg lane => Sys2Proof.Machine.execSpareReady pkg lane s
  | .retrainDone pkg lane => Sys2Proof.Machine.execRetrainDone pkg lane s
  | .hostAccess op => Sys2Proof.Machine.execHostAccess op s
  | .partitionFormed n roots => Sys2Proof.Machine.execPartitionFormed n roots s
  | .dieReset die fw => Sys2Proof.Machine.execDieReset die fw s
  | .packageReset pkg => Sys2Proof.Machine.execPackageReset pkg s
  | .dramError pa bad => Sys2Proof.Machine.execDramError pa bad s
  | .flipComplete k => Sys2Proof.Machine.execFlipComplete k s
  | .writeBackComplete wid win line => Sys2Proof.Machine.execWriteBackComplete wid win line s
  | .rotationStart pkg => Sys2Proof.Machine.execRotationStart pkg s
  | .flitSend pkg lane kind => Sys2Proof.Machine.execFlitSend pkg lane kind s

end Sys2Proof.Machine
end

