-- ==== Sys2Proof/Machine/Fetch.lean ====
section
/-! DEFINITION. What an issue port does before an instruction acts: which warps are ready and in which order the port takes them
(04 R84, R86), fetching and checking the word (03 R56, R68), and the passing of time. -/

namespace Sys2Proof.Machine

/-! ### Ready warps (R84, R86) -/

/-- A warp that a port might choose: workgroup, number, first slot, and how long it has been ready. -/
structure Cand where
  wid : Nat
  warp : Nat
  slot : Nat
  waited : Nat
  skip : Bool
  deriving DecidableEq, Repr, Inhabited

/-- Whether a warp may issue, as far as can be told before its word is read (R84, R444); a deferred trap ends a sleep (R112). -/
def Warp.maybeReady (w : Warp) (now : Nat) : Bool :=
  w.live != 0 && !w.yielded && !w.front.isEmpty && w.hold.isNone && decide (w.stUntil ≤ now) &&
    (decide (w.sleepUntil ≤ now) || (!w.hmode && !w.dfr.isEmpty))

/-- Whether a warp's scatter waits for room in its stream, which leaves the warp not ready (R320). -/
def State.scatterStalled (s : State) (core wid warp : Nat) : Bool :=
  match (s.core core).gridq with
  | j :: _ => j.wid == wid && j.warp == warp && match j.send with
    | some x => !s.roomFor (coresAgent (dieOf core)) true [x]
    | none => false
  | [] => false

/-- The warps of a port that may be ready. -/
def State.cands (s : State) (core p : Nat) : List Cand :=
  let now := s.clocksAt core
  (s.wgs.map fun g =>
    if g.2.on core && g.2.issues now then
      (g.2.warps.filter fun w => w.2.port == p && w.2.maybeReady now && !s.scatterStalled core g.1 w.1).map fun w =>
        ⟨g.1, w.1, w.2.ctx0 / 32, now - w.2.readySince.getD now, w.2.passOver⟩
    else []).flatten

/-- The order in which a port takes warps (R86): those ready for 64 cycles, the longest first; then by slot after the last;
those to be passed over come last. -/
def orderCands (last : Nat) (cs : List Cand) : List Cand :=
  let turn := sortOn (fun c => (c.slot + 63 - last) % 64) cs
  let by64 := sortOn (fun c => 2 ^ 64 - c.waited) (sortOn (·.slot) (cs.filter fun c => decide (64 ≤ c.waited)))
  let all := by64 ++ turn.filter fun c => decide (c.waited < 64)
  (all.filter fun c => !c.skip) ++ all.filter (·.skip)

/-- A choice uses up the other warps' turn to be passed over (R86). -/
def State.clearOver (s : State) (core p wid i : Nat) : State :=
  { s with wgs := s.wgs.map fun g => (g.1, if g.2.on core then
      { g.2 with warps := g.2.warps.map fun w => (w.1, if w.2.port == p && !(g.1 == wid && w.1 == i) then { w.2 with passOver := false } else w.2) }
    else g.2) }

/-- After a cycle of the port: the warps that it found ready and did not choose have been ready since then or longer, the others
have not (R86). -/
def State.markReady (s : State) (core p : Nat) (ok : List Cand) : State :=
  { s with wgs := s.wgs.map fun g => (g.1, if g.2.on core then
      { g.2 with warps := g.2.warps.map fun w => (w.1, if w.2.port == p then { w.2 with
          readySince := if ok.any fun c => c.wid == g.1 && c.warp == w.1 then some (w.2.readySince.getD (s.clocksAt core)) else none }
        else w.2) }
    else g.2) }

/-! ### Fetch (R56) -/

/-- What the fetch of a word gives. -/
inductive Word96
  | word (w : BitVec 96) | cause (c : BitVec 7) | miss | wait
  deriving DecidableEq, Repr, Inhabited

/-- The twelve bytes at a program counter. -/
def State.fetchBytes (s : State) (p q : Page) (pc : Nat) : BitVec 96 :=
  let n := min 12 (65536 - pc % 65536)
  wordOfBytes (s.gread p.hmem (p.pa pc) n ++ s.gread q.hmem (q.pa (pc + n)) (12 - n))

/-- Fetch a word for a warp of a core (R56, R352, R359, R360): alignment, translation, the page's class, poison. The bytes of a word that
begins in the last 8 below 2^56 go on at address 0 (L92). -/
def State.fetchWord (s : State) (core ctx : Nat) (walked : Tab Walked) (pc : Pc) : Word96 :=
  let a := pc.toNat
  if a % 4 != 0 then .cause cMISALIGNED
  else
    let t := s.xlate core walked ctx a
    let u := s.xlate core walked ctx ((a + 11) % 2 ^ 56)
    if t.isMiss || u.isMiss then .miss
    else
      match t.cause true false, u.cause true false, t, u with
      | some c, _, _, _ => .cause c.2
      | none, some c, _, _ => .cause c.2
      | none, none, .page p, .page q =>
        if p.cls != 0 || q.cls != 0 then .cause cPAGE_CLASS
        else
          let n := min 12 (65536 - a % 65536)
          let runs := [(p, p.pa a, n), (q, q.pa (a + n), 12 - n)]
          if runs.any fun r => !r.1.hmem && decide (0 < r.2.2) && s.inFlip r.2.1 then .wait
          else if runs.any fun r => !r.1.hmem && s.poisoned r.2.1 r.2.2 then .cause cMEM_UNCORR
          else .word (s.fetchBytes p q a)
      | _, _, _, _ => .miss

/-- What a port finds for a warp: an instruction to run, a state the warp has come to, or that it is not ready. -/
inductive Found
  | run (i : Instr) (s : State) | done (s : State) | notReady

/-- The bits that stand for an instruction that cannot be fetched: free values (L5). -/
def State.freeWord (s : State) : BitVec 96 × State :=
  let (a, s) := s.free
  let (b, s) := s.free
  ((b.setWidth 32) ++ a, s)

/-- A port takes a warp's entry (R84): the walks of its fetch, then what comes before the checks of the word (R436), the
causes of the fetch, the checks of the word (R68), the instruction. -/
def State.take (s : State) (core ctx wid i : Nat) (w : Warp) (e : Entry) : Found :=
  let c : Cur := ⟨wid, i, e.pc, e.prio, e.mask, 0, true⟩
  let trap (s : State) (c : Cur) (t : Trap) : Found := if s.storing core wid i then .notReady else .done (s.takeTrap c t)
  let failed (t : Trap) : Found :=
    let (x, s) := s.freeWord
    trap s { c with insn := x } t
  match s.fetchWord core ctx w.walked e.pc with
  | .miss =>
    .done ((s.askWalks (dieOf core) ctx (wid, i) [e.pc.toNat, (e.pc.toNat + 11) % 2 ^ 56]).modWarp wid i fun w =>
      { w with hold := some ⟨c, .nop default, s.time, .walk, []⟩ })
  | .wait => .notReady
  | .cause k =>
    match earlyTrap w e.mask with
    | some t => failed t
    | none => failed (Trap.addr k e.mask e.pc.toNat)
  | .word x =>
    let c := { c with insn := x }
    match earlyTrap w e.mask with
    | some t => trap s c t
    | none =>
      match decode w.wcode x with
      | .error k => trap s c (Trap.plain (illCause k) e.mask)
      | .ok i => .run i { s with cur := some c }

/-- What a port finds for a candidate. -/
def State.look (s : State) (core : Nat) (c : Cand) : Found :=
  match s.warp? c.wid c.warp, Machine.look s.kernels (c.wid / 2 ^ 48) with
  | some w, some k =>
    match w.choice with
    | some e => (s.clearOver core (w.port) c.wid c.warp).take core k.ctx c.wid c.warp w e
    | none => .notReady
  | _, _ => .notReady

/-! ### Time -/

/-- Time passes: the clocks of each die that is up run at its frequency, counted in 200ths of a clock (R12, R466). -/
def State.elapse (s : State) (dt : Nat) : State :=
  if dt = 0 then s
  else
    { (List.range (4 * s.nPkg)).foldl (fun s d => s.modDie d fun x => { x with clkAcc := x.clkAcc + x.fnow * dt }) s with
      time := s.time + dt }

end Sys2Proof.Machine
end

