-- ==== Sys2Proof/Machine/Cycle.lean ====
section
/-! DEFINITION. What a turn of the machine does: the cycle of an issue port (04 R78, R84, R86) or another agent's event; and the
kernel that carries one word for the host's question. -/

namespace Sys2Proof.Machine

/-- What comes of a port's taking a warp: nothing when the warp turns out not to be ready (R84). -/
def State.tried (s : State) (core : Nat) (c : Cand) : Option (Host.Outcome State Fault Refusal) :=
  match s.look core c with
  | .notReady => none
  | .done t => some (.next { t with cur := none })
  | .run i t =>
    match exec i t with
    | .next u =>
      match u.cur with
      | some k => if k.ready then some (.next u) else none
      | none => some (.next u)
    | r => some r

/-- A port's cycle (R84, R86): the first warp that turns out to be ready issues; the ready ones after it go on waiting. -/
def portTry (core p : Nat) : List Cand → State → Host.Outcome State Fault Refusal
  | [], s => .next ({ s with cur := none }.markReady core p [])
  | c :: cs, s =>
    match s.tried core c with
    | none => portTry core p cs s
    | some (.next u) => .next (u.markReady core p (cs.filter fun d => (s.tried core d).isSome))
    | some r => r

/-- A turn of an issue port: idle while it is busy with the passes of a bundle (R78), and port 0 in a clock in which port 1 has
issued: of two issues in one clock port 0's comes first (R249, R301, R321). -/
def portStep (core p : Nat) (s : State) : Host.Outcome State Fault Refusal :=
  let k := s.core core
  if core ≥ 768 * s.nPkg then .fault .noSuchPort
  else if s.clocksAt core < (k.port p).busy || (p == 0 && k.port1.after == s.clocksAt core + 1) || !(s.die (dieOf core)).up then
    .next s
  else portTry core p (orderCands (k.port p).slot (s.cands core p)) s

/-- What a turn does. -/
def act (a : Act) (s : State) : Host.Outcome State Fault Refusal :=
  match a with
  | .port core p => portStep core (p % 2) s
  | .event i => exec i s

/-- The next turn: the queue's first, else the one that the implementation's schedule names (L1). -/
def State.nextTurn (s : State) : Turn × State :=
  match s.turns with
  | t :: ts => (t, { s with turns := ts, tick := s.tick + 1, cur := none })
  | [] => (Config.schedule s.tick, { s with tick := s.tick + 1, cur := none })

/-! ### A kernel of one word -/

/-- The launch record of the one-warp kernel that carries a word. -/
def wordRecord : LaunchRec where
  entry := 0x10000
  arg := 0
  prio := 0
  det := 0
  wcode := 0
  warps := 1
  gx := 1
  gy := 1
  gz := 1
  carve := Carve.reset
  xregs := 0
  regs := 256
  copies := 16
  bars := 16
  tiles := 4
  accs := 4
  sscope := 0
  loc := 16384
  handler := 0
  compl := 0
  olog := 0
  dies := 0

/-- The page of that kernel's code. -/
def wordPage : Page := ⟨0x10000, 65536, false, false, 0, true, true⟩

end Sys2Proof.Machine
end

