-- ==== Sys2Proof/Machine/Step.lean ====
section
/-! DEFINITION. One step of the machine: the next turn of the schedule, an issue port's cycle or another agent's event; and
the host's way to place one word where the next step fetches it. -/

namespace Sys2Proof.Machine

/-- One step. -/
def step (s : State) : Host.Outcome State Fault Refusal :=
  let (t, s) := s.nextTurn
  match act t.act s with
  | .next u => .next (u.elapse t.dt)
  | .fault f => .fault f
  | .refused r => .refused r

/-- The machine with a word where the next step fetches it: a kernel with one resident warp on core 0 whose program counter,
page and bytes are the word's, alone on the core, and the core's port given the next turn. -/
def State.withFetchWord (s : State) (_nbits w : Nat) : State :=
  let k : Kernel := ⟨wordRecord, 0, [0], 0, none, [0], [], false, false, false⟩
  let g := Wg.start wordRecord s.nextInst 0 0 s.count [0]
  { s with
    kernels := ins s.kernels s.nextInst k
    wgs := ins (s.wgs.filter fun p => !p.2.on 0) (widOf s.nextInst 0) g
    nextInst := s.nextInst + 1
    count := s.count + 1
    mem := memWrite s.mem 0x10000 (bytesOfNat 12 w)
    poison := []
    flips := []
    nPkg := max s.nPkg 1
    cores := ins s.cores 0 { s.core 0 with tlb := [⟨0, 0x10000, wordPage⟩], port0 := Port.reset, port1 := Port.reset }
    dies := ins s.dies 0 { s.die 0 with up := true }
    turns := [⟨0, .port 0 0⟩] }

end Sys2Proof.Machine
end

