-- ==== Sys2Proof/Laws/Word.lean ====
section
/-! SUPPORT. Fields of a word: reading a part of two bit vectors side by side, and the map between the fields and the word. -/

namespace Sys2Proof.Laws

theorem extract_low {v w : Nat} (x : BitVec v) (y : BitVec w) (s n : Nat) (h : s + n ≤ w) :
    (x ++ y).extractLsb' s n = y.extractLsb' s n := by
  apply BitVec.eq_of_getLsbD_eq
  intro i hi
  simp only [BitVec.getLsbD_extractLsb', BitVec.getLsbD_append]
  rw [if_pos (by omega)]

theorem extract_high {v w : Nat} (x : BitVec v) (y : BitVec w) (s n : Nat) (h : w ≤ s) :
    (x ++ y).extractLsb' s n = x.extractLsb' (s - w) n := by
  apply BitVec.eq_of_getLsbD_eq
  intro i hi
  simp only [BitVec.getLsbD_extractLsb', BitVec.getLsbD_append]
  rw [if_neg (by omega), show s + i - w = s - w + i by omega]

theorem extract_all {w : Nat} (x : BitVec w) : x.extractLsb' 0 w = x := by
  apply BitVec.eq_of_getLsbD_eq
  intro i hi
  simp [hi]

theorem bit_low {v w : Nat} (x : BitVec v) (y : BitVec w) (i : Nat) (h : i < w) : (x ++ y).getLsbD i = y.getLsbD i := by
  rw [BitVec.getLsbD_append, if_pos h]

theorem bit_high {v w : Nat} (x : BitVec v) (y : BitVec w) (i : Nat) (h : w ≤ i) :
    (x ++ y).getLsbD i = x.getLsbD (i - w) := by
  rw [BitVec.getLsbD_append, if_neg (by omega)]

@[simp] theorem bbit_bit (b : Bool) : (bbit b).getLsbD 0 = b := by cases b <;> rfl

theorem bbit_bit_of (b : Bool) (n : Nat) (h : n = 0) : (bbit b).getLsbD n = b := by subst h; exact bbit_bit b

@[simp] theorem bbit_extract (b : Bool) : (bbit b).extractLsb' 0 1 = bbit b := extract_all _

/-- The opcode of a packed word is that of its fields. -/
theorem opcode_pack (f : Fields) : opcodeOf f.pack = f.op.code := by
  simp only [opcodeOf, Fields.pack, BitVec.append_eq]
  repeat rw [extract_low _ _ _ _ (by decide)]
  exact extract_all _

/-- Each opcode names its instruction. -/
theorem ofCode_code (o : Op) : Op.ofCode o.code = some o := by cases o <;> decide +kernel

/-- The fields of a packed word are those that were packed. -/
theorem unpack_pack (f : Fields) : Fields.unpack f.op f.pack = f := by
  obtain ⟨op, ⟨neg, gp, nwb, cap, latch, yl, st⟩, d, a, b, ty, rnd, dyn, sat, opx, ext⟩ := f
  simp only [Fields.unpack, Fields.pack, BitVec.append_eq, Fields.mk.injEq, Hd.mk.injEq, true_and]
  refine ⟨⟨?_, ?_, ?_, ?_, ?_, ?_, ?_⟩, ?_, ?_, ?_, ?_, ?_, ?_, ?_, ?_, ?_⟩ <;>
    (repeat first
      | rw [extract_low _ _ _ _ (by decide)]
      | rw [bit_low _ _ _ (by decide)]) <;>
    first
      | rw [extract_high _ _ _ _ (by decide)]; exact extract_all _
      | rw [bit_high _ _ _ (by decide)]; exact bbit_bit _

theorem extract_right {v w : Nat} (x : BitVec v) (y : BitVec w) : (x ++ y).extractLsb' 0 w = y := by
  rw [extract_low _ _ _ _ (by omega), extract_all]

theorem extract_left {v w : Nat} (x : BitVec v) (y : BitVec w) : (x ++ y).extractLsb' w v = x := by
  rw [extract_high _ _ _ _ (Nat.le_refl w), Nat.sub_self, extract_all]

@[simp] theorem opnd_ofBits_bits (o : Opnd) : Opnd.ofBits o.bits = o := by
  cases o <;> simp only [Opnd.ofBits, Opnd.bits, extract_right, extract_left] <;> rfl

@[simp] theorem rnd_ofBits_bits (r : Rnd) : Rnd.ofBits r.isDyn r.rbits = r := by cases r <;> rfl

end Sys2Proof.Laws
end

