-- ==== Sys2Proof/Laws/PerInstr.lean ====
section
/-! SUPPORT. Per-instruction laws. The family `Encoding`: an instruction that has fields is rebuilt from them whole. -/

set_option linter.unusedSimpArgs false

namespace Sys2Proof.Laws

/-- An instruction is the one that its fields build: no operand and no modifier is dropped or moved. -/
def Encoding.Statement (i : Instr) : Prop := ∀ f, i.fields = some f → f.build = some i

theorem start_ofBits_bits (o : Start) : Start.ofBits o.bits = o := by
  cases o with
  | none => rfl
  | some c =>
    have h : (1#1 ++ c).getLsbD 4 = true := bit_high _ _ _ (by decide)
    exact (if_pos h).trans (congrArg some (extract_right _ _))

/-- An instruction whose fields are known and build it. -/
theorem built {i : Instr} {f : Fields} (h : i.fields = some f) (hb : f.build = some i) : Encoding.Statement i := by
  intro g hg
  rw [h] at hg
  cases hg
  exact hb

/-- An instruction without fields. -/
theorem unbuilt {i : Instr} (h : i.fields = none) : Encoding.Statement i := by
  intro f hf
  rw [h] at hf
  cases hf

theorem Encoding.nop (h : Hd) : Encoding.Statement (.nop h) := built rfl rfl
theorem Encoding.bra (h : Hd) (pr : BitVec 8) (off : BitVec 24) : Encoding.Statement (.bra h pr off) := built rfl rfl
theorem Encoding.brx (h : Hd) (a : Opnd) : Encoding.Statement (.brx h a) :=
  built rfl (by simp (disch := decide) only [Fields.build, Fields.zero, opnd_ofBits_bits])
theorem Encoding.call (h : Hd) (pr : BitVec 8) (d : Opnd) (off : BitVec 24) : Encoding.Statement (.call h pr d off) :=
  built rfl (by simp (disch := decide) only [Fields.build, Fields.zero, opnd_ofBits_bits])
theorem Encoding.ret (h : Hd) (a : Opnd) : Encoding.Statement (.ret h a) :=
  built rfl (by simp (disch := decide) only [Fields.build, Fields.zero, opnd_ofBits_bits])
theorem Encoding.rjset (h : Hd) (d : Opnd) : Encoding.Statement (.rjset h d) :=
  built rfl (by simp (disch := decide) only [Fields.build, Fields.zero, opnd_ofBits_bits])
theorem Encoding.rjwait (h : Hd) (pr : BitVec 8) (a : Opnd) : Encoding.Statement (.rjwait h pr a) :=
  built rfl (by simp (disch := decide) only [Fields.build, Fields.zero, opnd_ofBits_bits])
theorem Encoding.rjdrop (h : Hd) (d : Opnd) : Encoding.Statement (.rjdrop h d) :=
  built rfl (by simp (disch := decide) only [Fields.build, Fields.zero, opnd_ofBits_bits])
theorem Encoding.exit (h : Hd) : Encoding.Statement (.exit h) := built rfl rfl
theorem Encoding.yield (h : Hd) : Encoding.Statement (.yield h) := built rfl rfl
theorem Encoding.prio (h : Hd) (pr : BitVec 8) : Encoding.Statement (.prio h pr) := built rfl rfl
theorem Encoding.bkt (h : Hd) (pr : BitVec 8) (a : Opnd) (b : Opnd) : Encoding.Statement (.bkt h pr a b) :=
  built rfl (by simp (disch := decide) only [Fields.build, Fields.zero, opnd_ofBits_bits])
theorem Encoding.launch (h : Hd) (d : Opnd) (a : Opnd) : Encoding.Statement (.launch h d a) :=
  built rfl (by simp (disch := decide) only [Fields.build, Fields.zero, opnd_ofBits_bits])
theorem Encoding.waitk (h : Hd) (d : Opnd) (a : Opnd) (b : Opnd) : Encoding.Statement (.waitk h d a b) :=
  built rfl (by simp (disch := decide) only [Fields.build, Fields.zero, opnd_ofBits_bits])
theorem Encoding.sleep (h : Hd) (n : BitVec 24) : Encoding.Statement (.sleep h n) := built rfl rfl
theorem Encoding.iadd (h : Hd) (ty : Ty) (sat : Bool) (d : Opnd) (a : Opnd) (b : Opnd) : Encoding.Statement (.iadd h ty sat d a b) :=
  built rfl (by simp (disch := decide) only [Fields.build, Fields.zero, opnd_ofBits_bits, Ty.ofBits_bits, Option.bind_some])
theorem Encoding.isub (h : Hd) (ty : Ty) (sat : Bool) (d : Opnd) (a : Opnd) (b : Opnd) : Encoding.Statement (.isub h ty sat d a b) :=
  built rfl (by simp (disch := decide) only [Fields.build, Fields.zero, opnd_ofBits_bits, Ty.ofBits_bits, Option.bind_some])
theorem Encoding.imul (h : Hd) (ty : Ty) (sat : Bool) (d : Opnd) (a : Opnd) (b : Opnd) : Encoding.Statement (.imul h ty sat d a b) :=
  built rfl (by simp (disch := decide) only [Fields.build, Fields.zero, opnd_ofBits_bits, Ty.ofBits_bits, Option.bind_some])
theorem Encoding.imulh (h : Hd) (ty : Ty) (d : Opnd) (a : Opnd) (b : Opnd) : Encoding.Statement (.imulh h ty d a b) :=
  built rfl (by simp (disch := decide) only [Fields.build, Fields.zero, opnd_ofBits_bits, Ty.ofBits_bits, Option.bind_some])
theorem Encoding.imad (h : Hd) (ty : Ty) (sat : Bool) (d : Opnd) (a : Opnd) (b : Opnd) (c : Opnd) : Encoding.Statement (.imad h ty sat d a b c) :=
  built rfl (by simp (disch := decide) only [Fields.build, Fields.zero, opnd_ofBits_bits, Ty.ofBits_bits, Option.bind_some, extract_left, extract_right, extract_low, extract_high, extract_all])
theorem Encoding.imadw (h : Hd) (ty : Ty) (d : Opnd) (a : Opnd) (b : Opnd) (c : Opnd) : Encoding.Statement (.imadw h ty d a b c) :=
  built rfl (by simp (disch := decide) only [Fields.build, Fields.zero, opnd_ofBits_bits, Ty.ofBits_bits, Option.bind_some, extract_left, extract_right, extract_low, extract_high, extract_all])
theorem Encoding.idiv (h : Hd) (ty : Ty) (sat : Bool) (d : Opnd) (a : Opnd) (b : Opnd) : Encoding.Statement (.idiv h ty sat d a b) :=
  built rfl (by simp (disch := decide) only [Fields.build, Fields.zero, opnd_ofBits_bits, Ty.ofBits_bits, Option.bind_some])
theorem Encoding.irem (h : Hd) (ty : Ty) (d : Opnd) (a : Opnd) (b : Opnd) : Encoding.Statement (.irem h ty d a b) :=
  built rfl (by simp (disch := decide) only [Fields.build, Fields.zero, opnd_ofBits_bits, Ty.ofBits_bits, Option.bind_some])
theorem Encoding.imin (h : Hd) (ty : Ty) (d : Opnd) (a : Opnd) (b : Opnd) : Encoding.Statement (.imin h ty d a b) :=
  built rfl (by simp (disch := decide) only [Fields.build, Fields.zero, opnd_ofBits_bits, Ty.ofBits_bits, Option.bind_some])
theorem Encoding.imax (h : Hd) (ty : Ty) (d : Opnd) (a : Opnd) (b : Opnd) : Encoding.Statement (.imax h ty d a b) :=
  built rfl (by simp (disch := decide) only [Fields.build, Fields.zero, opnd_ofBits_bits, Ty.ofBits_bits, Option.bind_some])
theorem Encoding.iabs (h : Hd) (ty : Ty) (sat : Bool) (d : Opnd) (a : Opnd) : Encoding.Statement (.iabs h ty sat d a) :=
  built rfl (by simp (disch := decide) only [Fields.build, Fields.zero, opnd_ofBits_bits, Ty.ofBits_bits, Option.bind_some])
theorem Encoding.ineg (h : Hd) (ty : Ty) (sat : Bool) (d : Opnd) (a : Opnd) : Encoding.Statement (.ineg h ty sat d a) :=
  built rfl (by simp (disch := decide) only [Fields.build, Fields.zero, opnd_ofBits_bits, Ty.ofBits_bits, Option.bind_some])
theorem Encoding.and (h : Hd) (ty : Ty) (d : Opnd) (a : Opnd) (b : Opnd) : Encoding.Statement (.and h ty d a b) :=
  built rfl (by simp (disch := decide) only [Fields.build, Fields.zero, opnd_ofBits_bits, Ty.ofBits_bits, Option.bind_some])
theorem Encoding.or (h : Hd) (ty : Ty) (d : Opnd) (a : Opnd) (b : Opnd) : Encoding.Statement (.or h ty d a b) :=
  built rfl (by simp (disch := decide) only [Fields.build, Fields.zero, opnd_ofBits_bits, Ty.ofBits_bits, Option.bind_some])
theorem Encoding.xor (h : Hd) (ty : Ty) (d : Opnd) (a : Opnd) (b : Opnd) : Encoding.Statement (.xor h ty d a b) :=
  built rfl (by simp (disch := decide) only [Fields.build, Fields.zero, opnd_ofBits_bits, Ty.ofBits_bits, Option.bind_some])
theorem Encoding.not (h : Hd) (ty : Ty) (d : Opnd) (a : Opnd) : Encoding.Statement (.not h ty d a) :=
  built rfl (by simp (disch := decide) only [Fields.build, Fields.zero, opnd_ofBits_bits, Ty.ofBits_bits, Option.bind_some])
theorem Encoding.bool3 (h : Hd) (tt : BitVec 8) (ty : Ty) (d : Opnd) (a : Opnd) (b : Opnd) (c : Opnd) : Encoding.Statement (.bool3 h tt ty d a b c) :=
  built rfl (by simp (disch := decide) only [Fields.build, Fields.zero, opnd_ofBits_bits, Ty.ofBits_bits, Option.bind_some, extract_left, extract_right, extract_low, extract_high, extract_all])
theorem Encoding.shl (h : Hd) (ty : Ty) (d : Opnd) (a : Opnd) (b : Opnd) : Encoding.Statement (.shl h ty d a b) :=
  built rfl (by simp (disch := decide) only [Fields.build, Fields.zero, opnd_ofBits_bits, Ty.ofBits_bits, Option.bind_some])
theorem Encoding.shr (h : Hd) (ty : Ty) (d : Opnd) (a : Opnd) (b : Opnd) : Encoding.Statement (.shr h ty d a b) :=
  built rfl (by simp (disch := decide) only [Fields.build, Fields.zero, opnd_ofBits_bits, Ty.ofBits_bits, Option.bind_some])
theorem Encoding.sar (h : Hd) (ty : Ty) (d : Opnd) (a : Opnd) (b : Opnd) : Encoding.Statement (.sar h ty d a b) :=
  built rfl (by simp (disch := decide) only [Fields.build, Fields.zero, opnd_ofBits_bits, Ty.ofBits_bits, Option.bind_some])
theorem Encoding.rot (h : Hd) (ty : Ty) (d : Opnd) (a : Opnd) (b : Opnd) : Encoding.Statement (.rot h ty d a b) :=
  built rfl (by simp (disch := decide) only [Fields.build, Fields.zero, opnd_ofBits_bits, Ty.ofBits_bits, Option.bind_some])
theorem Encoding.popc (h : Hd) (ty : Ty) (d : Opnd) (a : Opnd) : Encoding.Statement (.popc h ty d a) :=
  built rfl (by simp (disch := decide) only [Fields.build, Fields.zero, opnd_ofBits_bits, Ty.ofBits_bits, Option.bind_some])
theorem Encoding.clz (h : Hd) (ty : Ty) (d : Opnd) (a : Opnd) : Encoding.Statement (.clz h ty d a) :=
  built rfl (by simp (disch := decide) only [Fields.build, Fields.zero, opnd_ofBits_bits, Ty.ofBits_bits, Option.bind_some])
theorem Encoding.ctz (h : Hd) (ty : Ty) (d : Opnd) (a : Opnd) : Encoding.Statement (.ctz h ty d a) :=
  built rfl (by simp (disch := decide) only [Fields.build, Fields.zero, opnd_ofBits_bits, Ty.ofBits_bits, Option.bind_some])
theorem Encoding.brev (h : Hd) (ty : Ty) (d : Opnd) (a : Opnd) : Encoding.Statement (.brev h ty d a) :=
  built rfl (by simp (disch := decide) only [Fields.build, Fields.zero, opnd_ofBits_bits, Ty.ofBits_bits, Option.bind_some])
theorem Encoding.bfe (h : Hd) (ty : Ty) (d : Opnd) (a : Opnd) (b : Opnd) : Encoding.Statement (.bfe h ty d a b) :=
  built rfl (by simp (disch := decide) only [Fields.build, Fields.zero, opnd_ofBits_bits, Ty.ofBits_bits, Option.bind_some])
theorem Encoding.bfi (h : Hd) (ty : Ty) (d : Opnd) (a : Opnd) (b : Opnd) (c : Opnd) : Encoding.Statement (.bfi h ty d a b c) :=
  built rfl (by simp (disch := decide) only [Fields.build, Fields.zero, opnd_ofBits_bits, Ty.ofBits_bits, Option.bind_some, extract_left, extract_right, extract_low, extract_high, extract_all])
theorem Encoding.iset (h : Hd) (cmp : ICmp) (ty : Ty) (d : Opnd) (a : Opnd) (b : Opnd) : Encoding.Statement (.iset h cmp ty d a b) :=
  built rfl (by simp (disch := decide) only [Fields.build, Fields.zero, opnd_ofBits_bits, Ty.ofBits_bits, ICmp.ofBits_bits, Option.bind_some, extract_left, extract_right, extract_low, extract_high, extract_all])
theorem Encoding.isel (h : Hd) (ty : Ty) (d : Opnd) (a : Opnd) (b : Opnd) (c : Opnd) : Encoding.Statement (.isel h ty d a b c) :=
  built rfl (by simp (disch := decide) only [Fields.build, Fields.zero, opnd_ofBits_bits, Ty.ofBits_bits, Option.bind_some, extract_left, extract_right, extract_low, extract_high, extract_all])
theorem Encoding.lea (h : Hd) (sh : BitVec 3) (ty : Ty) (d : Opnd) (a : Opnd) (b : Opnd) : Encoding.Statement (.lea h sh ty d a b) :=
  built rfl (by simp (disch := decide) only [Fields.build, Fields.zero, opnd_ofBits_bits, Ty.ofBits_bits, Option.bind_some, extract_left, extract_right, extract_low, extract_high, extract_all])
theorem Encoding.addc (h : Hd) (cp : BitVec 3) (ty : Ty) (d : Opnd) (a : Opnd) (b : Opnd) (c : Opnd) : Encoding.Statement (.addc h cp ty d a b c) :=
  built rfl (by simp (disch := decide) only [Fields.build, Fields.zero, opnd_ofBits_bits, Ty.ofBits_bits, Option.bind_some, extract_left, extract_right, extract_low, extract_high, extract_all])
theorem Encoding.subb (h : Hd) (cp : BitVec 3) (ty : Ty) (d : Opnd) (a : Opnd) (b : Opnd) (c : Opnd) : Encoding.Statement (.subb h cp ty d a b c) :=
  built rfl (by simp (disch := decide) only [Fields.build, Fields.zero, opnd_ofBits_bits, Ty.ofBits_bits, Option.bind_some, extract_left, extract_right, extract_low, extract_high, extract_all])
theorem Encoding.plop (h : Hd) (tt : BitVec 8) (d : Opnd) (a : Opnd) (b : Opnd) (c : Opnd) : Encoding.Statement (.plop h tt d a b c) :=
  built rfl (by simp (disch := decide) only [Fields.build, Fields.zero, opnd_ofBits_bits, extract_left, extract_right, extract_low, extract_high, extract_all])
theorem Encoding.mov (h : Hd) (ty : Ty) (d : Opnd) (a : Opnd) : Encoding.Statement (.mov h ty d a) :=
  built rfl (by simp (disch := decide) only [Fields.build, Fields.zero, opnd_ofBits_bits, Ty.ofBits_bits, Option.bind_some])
theorem Encoding.movi (h : Hd) (ty : Ty) (d : Opnd) (imm : BitVec 24) : Encoding.Statement (.movi h ty d imm) :=
  built rfl (by simp (disch := decide) only [Fields.build, Fields.zero, opnd_ofBits_bits, Ty.ofBits_bits, Option.bind_some])
theorem Encoding.movh (h : Hd) (n : BitVec 2) (ty : Ty) (d : Opnd) (a : Opnd) (imm : BitVec 16) : Encoding.Statement (.movh h n ty d a imm) :=
  built rfl (by simp (disch := decide) only [Fields.build, Fields.zero, opnd_ofBits_bits, Ty.ofBits_bits, Option.bind_some, extract_left, extract_right, extract_low, extract_high, extract_all])
theorem Encoding.shfl (h : Hd) (mode : ShflMode) (seg : BitVec 3) (ty : Ty) (d : Opnd) (a : Opnd) (b : Opnd) : Encoding.Statement (.shfl h mode seg ty d a b) :=
  built rfl (by simp (disch := decide) only [Fields.build, Fields.zero, opnd_ofBits_bits, Ty.ofBits_bits, ShflMode.ofBits_bits, Option.bind_some, extract_left, extract_right, extract_low, extract_high, extract_all])
theorem Encoding.vote (h : Hd) (mode : VoteMode) (d : Opnd) (a : Opnd) : Encoding.Statement (.vote h mode d a) :=
  built rfl (by simp (disch := decide) only [Fields.build, Fields.zero, opnd_ofBits_bits, VoteMode.ofBits_bits, Option.bind_some, extract_left, extract_right, extract_low, extract_high, extract_all])
theorem Encoding.bcast (h : Hd) (elect : Bool) (ty : Ty) (d : Opnd) (a : Opnd) (b : Opnd) : Encoding.Statement (.bcast h elect ty d a b) :=
  built rfl (by simp (disch := decide) only [Fields.build, Fields.zero, opnd_ofBits_bits, Ty.ofBits_bits, Option.bind_some, bit_low, bit_high, bbit_bit_of])
theorem Encoding.rdsr (h : Hd) (d : Opnd) (sr : BitVec 12) : Encoding.Statement (.rdsr h d sr) :=
  built rfl (by simp (disch := decide) only [Fields.build, Fields.zero, opnd_ofBits_bits, extract_left, extract_right, extract_low, extract_high, extract_all])
theorem Encoding.wrsr (h : Hd) (a : Opnd) (sr : BitVec 12) : Encoding.Statement (.wrsr h a sr) :=
  built rfl (by simp (disch := decide) only [Fields.build, Fields.zero, opnd_ofBits_bits, extract_left, extract_right, extract_low, extract_high, extract_all])
theorem Encoding.xacq (h : Hd) (n : BitVec 24) : Encoding.Statement (.xacq h n) := built rfl rfl
theorem Encoding.xrel (h : Hd) : Encoding.Statement (.xrel h) := built rfl rfl
theorem Encoding.xtry (h : Hd) (d : Opnd) (n : BitVec 24) : Encoding.Statement (.xtry h d n) :=
  built rfl (by simp (disch := decide) only [Fields.build, Fields.zero, opnd_ofBits_bits])
theorem Encoding.pmov (h : Hd) (unpack : Bool) (m : BitVec 7) (d : Opnd) (a : Opnd) : Encoding.Statement (.pmov h unpack m d a) :=
  built rfl (by simp (disch := decide) only [Fields.build, Fields.zero, opnd_ofBits_bits, extract_left, extract_right, extract_low, extract_high, extract_all, bit_low, bit_high, bbit_bit_of])
theorem Encoding.kmov (h : Hd) (d : Opnd) (a : Opnd) : Encoding.Statement (.kmov h d a) :=
  built rfl (by simp (disch := decide) only [Fields.build, Fields.zero, opnd_ofBits_bits])
theorem Encoding.fadd (h : Hd) (rnd : Rnd) (ty : Ty) (sat : Bool) (d : Opnd) (a : Opnd) (b : Opnd) : Encoding.Statement (.fadd h rnd ty sat d a b) :=
  built rfl (by simp (disch := decide) only [Fields.build, Fields.zero, opnd_ofBits_bits, Ty.ofBits_bits, Option.bind_some, rnd_ofBits_bits])
theorem Encoding.fsub (h : Hd) (rnd : Rnd) (ty : Ty) (sat : Bool) (d : Opnd) (a : Opnd) (b : Opnd) : Encoding.Statement (.fsub h rnd ty sat d a b) :=
  built rfl (by simp (disch := decide) only [Fields.build, Fields.zero, opnd_ofBits_bits, Ty.ofBits_bits, Option.bind_some, rnd_ofBits_bits])
theorem Encoding.fmul (h : Hd) (rnd : Rnd) (ty : Ty) (sat : Bool) (d : Opnd) (a : Opnd) (b : Opnd) : Encoding.Statement (.fmul h rnd ty sat d a b) :=
  built rfl (by simp (disch := decide) only [Fields.build, Fields.zero, opnd_ofBits_bits, Ty.ofBits_bits, Option.bind_some, rnd_ofBits_bits])
theorem Encoding.ffma (h : Hd) (rnd : Rnd) (ty : Ty) (sat : Bool) (d : Opnd) (a : Opnd) (b : Opnd) (c : Opnd) : Encoding.Statement (.ffma h rnd ty sat d a b c) :=
  built rfl (by simp (disch := decide) only [Fields.build, Fields.zero, opnd_ofBits_bits, Ty.ofBits_bits, Option.bind_some, rnd_ofBits_bits, extract_left, extract_right, extract_low, extract_high, extract_all])
theorem Encoding.fmin (h : Hd) (num : Bool) (ty : Ty) (d : Opnd) (a : Opnd) (b : Opnd) : Encoding.Statement (.fmin h num ty d a b) :=
  built rfl (by simp (disch := decide) only [Fields.build, Fields.zero, opnd_ofBits_bits, Ty.ofBits_bits, Option.bind_some, bit_low, bit_high, bbit_bit_of])
theorem Encoding.fmax (h : Hd) (num : Bool) (ty : Ty) (d : Opnd) (a : Opnd) (b : Opnd) : Encoding.Statement (.fmax h num ty d a b) :=
  built rfl (by simp (disch := decide) only [Fields.build, Fields.zero, opnd_ofBits_bits, Ty.ofBits_bits, Option.bind_some, bit_low, bit_high, bbit_bit_of])
theorem Encoding.fabs (h : Hd) (ty : Ty) (d : Opnd) (a : Opnd) : Encoding.Statement (.fabs h ty d a) :=
  built rfl (by simp (disch := decide) only [Fields.build, Fields.zero, opnd_ofBits_bits, Ty.ofBits_bits, Option.bind_some])
theorem Encoding.fneg (h : Hd) (ty : Ty) (d : Opnd) (a : Opnd) : Encoding.Statement (.fneg h ty d a) :=
  built rfl (by simp (disch := decide) only [Fields.build, Fields.zero, opnd_ofBits_bits, Ty.ofBits_bits, Option.bind_some])
theorem Encoding.fcpys (h : Hd) (ty : Ty) (d : Opnd) (a : Opnd) (b : Opnd) : Encoding.Statement (.fcpys h ty d a b) :=
  built rfl (by simp (disch := decide) only [Fields.build, Fields.zero, opnd_ofBits_bits, Ty.ofBits_bits, Option.bind_some])
theorem Encoding.fdiv (h : Hd) (rnd : Rnd) (ty : Ty) (sat : Bool) (d : Opnd) (a : Opnd) (b : Opnd) : Encoding.Statement (.fdiv h rnd ty sat d a b) :=
  built rfl (by simp (disch := decide) only [Fields.build, Fields.zero, opnd_ofBits_bits, Ty.ofBits_bits, Option.bind_some, rnd_ofBits_bits])
theorem Encoding.fsqrt (h : Hd) (rnd : Rnd) (ty : Ty) (d : Opnd) (a : Opnd) : Encoding.Statement (.fsqrt h rnd ty d a) :=
  built rfl (by simp (disch := decide) only [Fields.build, Fields.zero, opnd_ofBits_bits, Ty.ofBits_bits, Option.bind_some, rnd_ofBits_bits])
theorem Encoding.frcp (h : Hd) (ty : Ty) (sat : Bool) (d : Opnd) (a : Opnd) : Encoding.Statement (.frcp h ty sat d a) :=
  built rfl (by simp (disch := decide) only [Fields.build, Fields.zero, opnd_ofBits_bits, Ty.ofBits_bits, Option.bind_some])
theorem Encoding.frsq (h : Hd) (ty : Ty) (d : Opnd) (a : Opnd) : Encoding.Statement (.frsq h ty d a) :=
  built rfl (by simp (disch := decide) only [Fields.build, Fields.zero, opnd_ofBits_bits, Ty.ofBits_bits, Option.bind_some])
theorem Encoding.fexp2 (h : Hd) (ty : Ty) (sat : Bool) (d : Opnd) (a : Opnd) : Encoding.Statement (.fexp2 h ty sat d a) :=
  built rfl (by simp (disch := decide) only [Fields.build, Fields.zero, opnd_ofBits_bits, Ty.ofBits_bits, Option.bind_some])
theorem Encoding.flog2 (h : Hd) (ty : Ty) (d : Opnd) (a : Opnd) : Encoding.Statement (.flog2 h ty d a) :=
  built rfl (by simp (disch := decide) only [Fields.build, Fields.zero, opnd_ofBits_bits, Ty.ofBits_bits, Option.bind_some])
theorem Encoding.fsin (h : Hd) (ty : Ty) (d : Opnd) (a : Opnd) : Encoding.Statement (.fsin h ty d a) :=
  built rfl (by simp (disch := decide) only [Fields.build, Fields.zero, opnd_ofBits_bits, Ty.ofBits_bits, Option.bind_some])
theorem Encoding.fcos (h : Hd) (ty : Ty) (d : Opnd) (a : Opnd) : Encoding.Statement (.fcos h ty d a) :=
  built rfl (by simp (disch := decide) only [Fields.build, Fields.zero, opnd_ofBits_bits, Ty.ofBits_bits, Option.bind_some])
theorem Encoding.fset (h : Hd) (cmp : FCmp) (ty : Ty) (d : Opnd) (a : Opnd) (b : Opnd) : Encoding.Statement (.fset h cmp ty d a b) :=
  built rfl (by simp (disch := decide) only [Fields.build, Fields.zero, opnd_ofBits_bits, Ty.ofBits_bits, FCmp.ofBits_bits, Option.bind_some, extract_left, extract_right, extract_low, extract_high, extract_all])
theorem Encoding.fclass (h : Hd) (ty : Ty) (d : Opnd) (a : Opnd) : Encoding.Statement (.fclass h ty d a) :=
  built rfl (by simp (disch := decide) only [Fields.build, Fields.zero, opnd_ofBits_bits, Ty.ofBits_bits, Option.bind_some])
theorem Encoding.fscale (h : Hd) (rnd : Rnd) (ty : Ty) (sat : Bool) (d : Opnd) (a : Opnd) (b : Opnd) : Encoding.Statement (.fscale h rnd ty sat d a b) :=
  built rfl (by simp (disch := decide) only [Fields.build, Fields.zero, opnd_ofBits_bits, Ty.ofBits_bits, Option.bind_some, rnd_ofBits_bits])
theorem Encoding.frnd (h : Hd) (x : Bool) (rnd : Rnd) (ty : Ty) (d : Opnd) (a : Opnd) : Encoding.Statement (.frnd h x rnd ty d a) :=
  built rfl (by simp (disch := decide) only [Fields.build, Fields.zero, opnd_ofBits_bits, Ty.ofBits_bits, Option.bind_some, rnd_ofBits_bits, bit_low, bit_high, bbit_bit_of])
theorem Encoding.fdot2 (h : Hd) (rnd : Rnd) (ty : Ty) (sat : Bool) (d : Opnd) (a : Opnd) (b : Opnd) (c : Opnd) : Encoding.Statement (.fdot2 h rnd ty sat d a b c) :=
  built rfl (by simp (disch := decide) only [Fields.build, Fields.zero, opnd_ofBits_bits, Ty.ofBits_bits, Option.bind_some, rnd_ofBits_bits, extract_left, extract_right, extract_low, extract_high, extract_all])
theorem Encoding.cvt (h : Hd) (src : Ty) (rnd : Rnd) (ty : Ty) (sat : Bool) (d : Opnd) (a : Opnd) : Encoding.Statement (.cvt h src rnd ty sat d a) :=
  built rfl (by simp (disch := decide) only [Fields.build, Fields.zero, opnd_ofBits_bits, Ty.ofBits_bits, Option.bind_some, rnd_ofBits_bits, extract_left, extract_right, extract_low, extract_high, extract_all])
theorem Encoding.cvtb8 (h : Hd) (dec : Bool) (hi : Bool) (sr : Bool) (wide : Ty) (fmt : BitVec 5) (rnd : Rnd) (sat : Bool) (d : Opnd) (a : Opnd) (b : Opnd) : Encoding.Statement (.cvtb8 h dec hi sr wide fmt rnd sat d a b) :=
  built rfl (by simp (disch := decide) only [Fields.build, Fields.zero, opnd_ofBits_bits, Ty.ofBits_bits, Option.bind_some, rnd_ofBits_bits, extract_left, extract_right, extract_low, extract_high, extract_all, bit_low, bit_high, bbit_bit_of])
theorem Encoding.mxq (h : Hd) (sr : Bool) (src : Ty) (fmt : BitVec 5) (rnd : Rnd) (d : Opnd) (a : Opnd) : Encoding.Statement (.mxq h sr src fmt rnd d a) :=
  built rfl (by simp (disch := decide) only [Fields.build, Fields.zero, opnd_ofBits_bits, Ty.ofBits_bits, Option.bind_some, rnd_ofBits_bits, extract_left, extract_right, extract_low, extract_high, extract_all, bit_low, bit_high, bbit_bit_of])
theorem Encoding.mxd (h : Hd) (out : Ty) (fmt : BitVec 5) (rnd : Rnd) (sat : Bool) (d : Opnd) (a : Opnd) (b : Opnd) : Encoding.Statement (.mxd h out fmt rnd sat d a b) :=
  built rfl (by simp (disch := decide) only [Fields.build, Fields.zero, opnd_ofBits_bits, Ty.ofBits_bits, Option.bind_some, rnd_ofBits_bits, extract_left, extract_right, extract_low, extract_high, extract_all])
theorem Encoding.amax (h : Hd) (ty : Ty) (d : Opnd) (a : Opnd) (b : Opnd) : Encoding.Statement (.amax h ty d a b) :=
  built rfl (by simp (disch := decide) only [Fields.build, Fields.zero, opnd_ofBits_bits, Ty.ofBits_bits, Option.bind_some])
theorem Encoding.rng (h : Hd) (ty : Ty) (d : Opnd) : Encoding.Statement (.rng h ty d) :=
  built rfl (by simp (disch := decide) only [Fields.build, Fields.zero, opnd_ofBits_bits, Ty.ofBits_bits, Option.bind_some])
theorem Encoding.rngkey (h : Hd) (rd : Bool) (d : Opnd) (a : Opnd) (b : Opnd) : Encoding.Statement (.rngkey h rd d a b) :=
  built rfl (by simp (disch := decide) only [Fields.build, Fields.zero, opnd_ofBits_bits, bit_low, bit_high, bbit_bit_of])
theorem Encoding.flgrd (h : Hd) (clr : Bool) (d : Opnd) : Encoding.Statement (.flgrd h clr d) :=
  built rfl (by simp (disch := decide) only [Fields.build, Fields.zero, opnd_ofBits_bits, bit_low, bit_high, bbit_bit_of])
theorem Encoding.flgclr (h : Hd) (a : Opnd) : Encoding.Statement (.flgclr h a) :=
  built rfl (by simp (disch := decide) only [Fields.build, Fields.zero, opnd_ofBits_bits])
theorem Encoding.flgen (h : Hd) (mode : FlgMode) (a : Opnd) : Encoding.Statement (.flgen h mode a) :=
  built rfl (by simp (disch := decide) only [Fields.build, Fields.zero, opnd_ofBits_bits, FlgMode.ofBits_bits, Option.bind_some, extract_left, extract_right, extract_low, extract_high, extract_all])
theorem Encoding.frmset (h : Hd) (d : Opnd) (a : Opnd) : Encoding.Statement (.frmset h d a) :=
  built rfl (by simp (disch := decide) only [Fields.build, Fields.zero, opnd_ofBits_bits])
theorem Encoding.fxcvt (h : Hd) (line : Bool) (ty : Ty) (sat : Bool) (d : Opnd) (a : Opnd) (b : Opnd) (off : BitVec 24) : Encoding.Statement (.fxcvt h line ty sat d a b off) :=
  built rfl (by simp (disch := decide) only [Fields.build, Fields.zero, opnd_ofBits_bits, Ty.ofBits_bits, Option.bind_some, bit_low, bit_high, bbit_bit_of])
theorem Encoding.ldl (h : Hd) (mm : Mm) (ty : Ty) (d : Opnd) (a : Opnd) (b : Opnd) (off : BitVec 24) : Encoding.Statement (.ldl h mm ty d a b off) :=
  built rfl (by simp (disch := decide) only [Fields.build, Fields.zero, opnd_ofBits_bits, Ty.ofBits_bits, Mm.ofBits_bits, Option.bind_some])
theorem Encoding.stl (h : Hd) (mm : Mm) (ty : Ty) (d : Opnd) (a : Opnd) (b : Opnd) (off : BitVec 24) : Encoding.Statement (.stl h mm ty d a b off) :=
  built rfl (by simp (disch := decide) only [Fields.build, Fields.zero, opnd_ofBits_bits, Ty.ofBits_bits, Mm.ofBits_bits, Option.bind_some])
theorem Encoding.ldg (h : Hd) (mm : Mm) (ty : Ty) (d : Opnd) (a : Opnd) (b : Opnd) (off : BitVec 24) : Encoding.Statement (.ldg h mm ty d a b off) :=
  built rfl (by simp (disch := decide) only [Fields.build, Fields.zero, opnd_ofBits_bits, Ty.ofBits_bits, Mm.ofBits_bits, Option.bind_some])
theorem Encoding.stg (h : Hd) (mm : Mm) (ty : Ty) (d : Opnd) (a : Opnd) (b : Opnd) (off : BitVec 24) : Encoding.Statement (.stg h mm ty d a b off) :=
  built rfl (by simp (disch := decide) only [Fields.build, Fields.zero, opnd_ofBits_bits, Ty.ofBits_bits, Mm.ofBits_bits, Option.bind_some])
theorem Encoding.atl (h : Hd) (mm : Mm) (op : AtomOp) (nr : Bool) (ty : Ty) (d : Opnd) (a : Opnd) (b : Opnd) (c : Opnd) : Encoding.Statement (.atl h mm op nr ty d a b c) :=
  built rfl (by simp (disch := decide) only [Fields.build, Fields.zero, opnd_ofBits_bits, Ty.ofBits_bits, AtomOp.ofBits_bits, Mm.ofBits_bits, Option.bind_some, extract_left, extract_right, extract_low, extract_high, extract_all, bit_low, bit_high, bbit_bit_of])
theorem Encoding.atg (h : Hd) (mm : Mm) (op : AtomOp) (nr : Bool) (ty : Ty) (d : Opnd) (a : Opnd) (b : Opnd) (c : Opnd) : Encoding.Statement (.atg h mm op nr ty d a b c) :=
  built rfl (by simp (disch := decide) only [Fields.build, Fields.zero, opnd_ofBits_bits, Ty.ofBits_bits, AtomOp.ofBits_bits, Mm.ofBits_bits, Option.bind_some, extract_left, extract_right, extract_low, extract_high, extract_all, bit_low, bit_high, bbit_bit_of])
theorem Encoding.stash (h : Hd) (win : BitVec 2) (a : Opnd) (b : Opnd) (c : Opnd) : Encoding.Statement (.stash h win a b c) :=
  built rfl (by simp (disch := decide) only [Fields.build, Fields.zero, opnd_ofBits_bits, extract_left, extract_right, extract_low, extract_high, extract_all])
theorem Encoding.stfl (h : Hd) (all : Bool) (win : BitVec 2) : Encoding.Statement (.stfl h all win) :=
  built rfl (by simp (disch := decide) only [Fields.build, Fields.zero, extract_left, extract_right, extract_low, extract_high, extract_all, bit_low, bit_high, bbit_bit_of])
theorem Encoding.stinv (h : Hd) (all : Bool) (win : BitVec 2) : Encoding.Statement (.stinv h all win) :=
  built rfl (by simp (disch := decide) only [Fields.build, Fields.zero, extract_left, extract_right, extract_low, extract_high, extract_all, bit_low, bit_high, bbit_bit_of])
theorem Encoding.l1inv (h : Hd) : Encoding.Statement (.l1inv h) := built rfl rfl
theorem Encoding.pref (h : Hd) (a : Opnd) (b : Opnd) (off : BitVec 24) : Encoding.Statement (.pref h a b off) :=
  built rfl (by simp (disch := decide) only [Fields.build, Fields.zero, opnd_ofBits_bits])
theorem Encoding.seal (h : Hd) (kind : RecKind) (d : Opnd) (a : Opnd) (b : Opnd) (off : BitVec 24) : Encoding.Statement (.seal h kind d a b off) :=
  built rfl (by simp (disch := decide) only [Fields.build, Fields.zero, opnd_ofBits_bits, RecKind.ofBits_bits, Option.bind_some, extract_left, extract_right, extract_low, extract_high, extract_all])
theorem Encoding.unseal (h : Hd) (a : Opnd) : Encoding.Statement (.unseal h a) :=
  built rfl (by simp (disch := decide) only [Fields.build, Fields.zero, opnd_ofBits_bits])
theorem Encoding.hqry (h : Hd) (rc : Bool) (d : Opnd) (a : Opnd) (n : BitVec 6) : Encoding.Statement (.hqry h rc d a n) :=
  built rfl (by simp (disch := decide) only [Fields.build, Fields.zero, opnd_ofBits_bits, extract_left, extract_right, extract_low, extract_high, extract_all, bit_low, bit_high, bbit_bit_of])
theorem Encoding.cpy (h : Hd) (dir : CpyDir) (grp : BitVec 3) (on : Start) (d : Opnd) (a : Opnd) (b : Opnd) (c : Opnd) : Encoding.Statement (.cpy h dir grp on d a b c) :=
  built rfl (by simp (disch := decide) only [Fields.build, Fields.zero, opnd_ofBits_bits, CpyDir.ofBits_bits, Option.bind_some, start_ofBits_bits, extract_left, extract_right, extract_low, extract_high, extract_all])
theorem Encoding.gath (h : Hd) (list : Bool) (rows : Bool) (grp : BitVec 3) (on : Start) (d : Opnd) (a : Opnd) (b : Opnd) (c : Opnd) : Encoding.Statement (.gath h list rows grp on d a b c) :=
  built rfl (by simp (disch := decide) only [Fields.build, Fields.zero, opnd_ofBits_bits, start_ofBits_bits, extract_left, extract_right, extract_low, extract_high, extract_all, bit_low, bit_high, bbit_bit_of])
theorem Encoding.scat (h : Hd) (list : Bool) (rows : Bool) (grp : BitVec 3) (on : Start) (d : Opnd) (a : Opnd) (b : Opnd) (c : Opnd) : Encoding.Statement (.scat h list rows grp on d a b c) :=
  built rfl (by simp (disch := decide) only [Fields.build, Fields.zero, opnd_ofBits_bits, start_ofBits_bits, extract_left, extract_right, extract_low, extract_high, extract_all, bit_low, bit_high, bbit_bit_of])
theorem Encoding.binit (h : Hd) (a : Opnd) (b : Opnd) : Encoding.Statement (.binit h a b) :=
  built rfl (by simp (disch := decide) only [Fields.build, Fields.zero, opnd_ofBits_bits])
theorem Encoding.barv (h : Hd) (lanes : Bool) (d : Opnd) (a : Opnd) (b : Opnd) (c : Opnd) : Encoding.Statement (.barv h lanes d a b c) :=
  built rfl (by simp (disch := decide) only [Fields.build, Fields.zero, opnd_ofBits_bits, extract_left, extract_right, extract_low, extract_high, extract_all, bit_low, bit_high, bbit_bit_of])
theorem Encoding.bexp (h : Hd) (d : Opnd) (a : Opnd) (b : Opnd) : Encoding.Statement (.bexp h d a b) :=
  built rfl (by simp (disch := decide) only [Fields.build, Fields.zero, opnd_ofBits_bits])
theorem Encoding.bwait (h : Hd) (d : Opnd) (a : Opnd) (b : Opnd) (c : Opnd) : Encoding.Statement (.bwait h d a b c) :=
  built rfl (by simp (disch := decide) only [Fields.build, Fields.zero, opnd_ofBits_bits, extract_left, extract_right, extract_low, extract_high, extract_all])
theorem Encoding.btest (h : Hd) (img : Bool) (d : Opnd) (a : Opnd) (b : Opnd) : Encoding.Statement (.btest h img d a b) :=
  built rfl (by simp (disch := decide) only [Fields.build, Fields.zero, opnd_ofBits_bits, bit_low, bit_high, bbit_bit_of])
theorem Encoding.evmset (h : Hd) (mode : EvSet) (d : Opnd) (a : Opnd) (b : Opnd) : Encoding.Statement (.evmset h mode d a b) :=
  built rfl (by simp (disch := decide) only [Fields.build, Fields.zero, opnd_ofBits_bits, EvSet.ofBits_bits, Option.bind_some, extract_left, extract_right, extract_low, extract_high, extract_all])
theorem Encoding.evmclr (h : Hd) (mode : EvClr) (a : Opnd) (b : Opnd) : Encoding.Statement (.evmclr h mode a b) :=
  built rfl (by simp (disch := decide) only [Fields.build, Fields.zero, opnd_ofBits_bits, EvClr.ofBits_bits, Option.bind_some, extract_left, extract_right, extract_low, extract_high, extract_all])
theorem Encoding.cpyq (h : Hd) (clr : Bool) (d : Opnd) (a : Opnd) : Encoding.Statement (.cpyq h clr d a) :=
  built rfl (by simp (disch := decide) only [Fields.build, Fields.zero, opnd_ofBits_bits, bit_low, bit_high, bbit_bit_of])
theorem Encoding.cpyk (h : Hd) (d : Opnd) (a : Opnd) : Encoding.Statement (.cpyk h d a) :=
  built rfl (by simp (disch := decide) only [Fields.build, Fields.zero, opnd_ofBits_bits])
theorem Encoding.tcfg (h : Hd) (d : Opnd) (a : Opnd) : Encoding.Statement (.tcfg h d a) :=
  built rfl (by simp (disch := decide) only [Fields.build, Fields.zero, opnd_ofBits_bits])
theorem Encoding.tld (h : Hd) (tr : TrMode) (d : Opnd) (a : Opnd) (b : Opnd) (off : BitVec 24) : Encoding.Statement (.tld h tr d a b off) :=
  built rfl (by simp (disch := decide) only [Fields.build, Fields.zero, opnd_ofBits_bits, TrMode.ofBits_bits, Option.bind_some, extract_left, extract_right, extract_low, extract_high, extract_all])
theorem Encoding.tst (h : Hd) (d : Opnd) (a : Opnd) (b : Opnd) (off : BitVec 24) : Encoding.Statement (.tst h d a b off) :=
  built rfl (by simp (disch := decide) only [Fields.build, Fields.zero, opnd_ofBits_bits])
theorem Encoding.tzero (h : Hd) (d : Opnd) : Encoding.Statement (.tzero h d) :=
  built rfl (by simp (disch := decide) only [Fields.build, Fields.zero, opnd_ofBits_bits])
theorem Encoding.mma (h : Hd) (sw : Bool) (fb : BitVec 5) (fa : BitVec 5) (ty : Ty) (d : Opnd) (a : Opnd) (b : Opnd) : Encoding.Statement (.mma h sw fb fa ty d a b) :=
  built rfl (by simp (disch := decide) only [Fields.build, Fields.zero, opnd_ofBits_bits, Ty.ofBits_bits, Option.bind_some, extract_left, extract_right, extract_low, extract_high, extract_all, bit_low, bit_high, bbit_bit_of])
theorem Encoding.mmasp (h : Hd) (sw : Bool) (pat : SpPat) (fb : BitVec 5) (fa : BitVec 5) (ty : Ty) (d : Opnd) (a : Opnd) (b : Opnd) (c : Opnd) : Encoding.Statement (.mmasp h sw pat fb fa ty d a b c) :=
  built rfl (by simp (disch := decide) only [Fields.build, Fields.zero, opnd_ofBits_bits, Ty.ofBits_bits, SpPat.ofBits_bits, Option.bind_some, extract_left, extract_right, extract_low, extract_high, extract_all, bit_low, bit_high, bbit_bit_of])
theorem Encoding.mmseq (h : Hd) (sw : Bool) (on : Start) (fb : BitVec 5) (fa : BitVec 5) (ty : Ty) (d : Opnd) (a : Opnd) (b : Opnd) : Encoding.Statement (.mmseq h sw on fb fa ty d a b) :=
  built rfl (by simp (disch := decide) only [Fields.build, Fields.zero, opnd_ofBits_bits, Ty.ofBits_bits, Option.bind_some, start_ofBits_bits, extract_left, extract_right, extract_low, extract_high, extract_all, bit_low, bit_high, bbit_bit_of])
theorem Encoding.seqst (h : Hd) (wait : Bool) (clr : Bool) (d : Opnd) : Encoding.Statement (.seqst h wait clr d) :=
  built rfl (by simp (disch := decide) only [Fields.build, Fields.zero, opnd_ofBits_bits, bit_low, bit_high, bbit_bit_of])
theorem Encoding.tmov (h : Hd) (dir : TmDir) (d : Opnd) (a : Opnd) (b : Opnd) : Encoding.Statement (.tmov h dir d a b) :=
  built rfl (by simp (disch := decide) only [Fields.build, Fields.zero, opnd_ofBits_bits, TmDir.ofBits_bits, Option.bind_some, extract_left, extract_right, extract_low, extract_high, extract_all])
theorem Encoding.tqry (h : Hd) (n : Bool) (d : Opnd) (a : Opnd) : Encoding.Statement (.tqry h n d a) :=
  built rfl (by simp (disch := decide) only [Fields.build, Fields.zero, opnd_ofBits_bits, bit_low, bit_high, bbit_bit_of])
theorem Encoding.ald (h : Hd) (ln : BitVec 3) (d : Opnd) (a : Opnd) (b : Opnd) : Encoding.Statement (.ald h ln d a b) :=
  built rfl (by simp (disch := decide) only [Fields.build, Fields.zero, opnd_ofBits_bits, extract_left, extract_right, extract_low, extract_high, extract_all])
theorem Encoding.ast (h : Hd) (ln : BitVec 3) (ty : Ty) (d : Opnd) (a : Opnd) (b : Opnd) : Encoding.Statement (.ast h ln ty d a b) :=
  built rfl (by simp (disch := decide) only [Fields.build, Fields.zero, opnd_ofBits_bits, Ty.ofBits_bits, Option.bind_some, extract_left, extract_right, extract_low, extract_high, extract_all])
theorem Encoding.azero (h : Hd) (d : Opnd) : Encoding.Statement (.azero h d) :=
  built rfl (by simp (disch := decide) only [Fields.build, Fields.zero, opnd_ofBits_bits])
theorem Encoding.adrn (h : Hd) (z : Bool) (fmt : BitVec 5) (rnd : Rnd) (ty : Ty) (sat : Bool) (a : Opnd) (b : Opnd) : Encoding.Statement (.adrn h z fmt rnd ty sat a b) :=
  built rfl (by simp (disch := decide) only [Fields.build, Fields.zero, opnd_ofBits_bits, Ty.ofBits_bits, Option.bind_some, rnd_ofBits_bits, extract_left, extract_right, extract_low, extract_high, extract_all, bit_low, bit_high, bbit_bit_of])
theorem Encoding.adru (h : Hd) (rule : UpdRule) (z : Bool) (mbf : Bool) (ty : Ty) (sat : Bool) (a : Opnd) (b : Opnd) (c : Opnd) : Encoding.Statement (.adru h rule z mbf ty sat a b c) :=
  built rfl (by simp (disch := decide) only [Fields.build, Fields.zero, opnd_ofBits_bits, Ty.ofBits_bits, UpdRule.ofBits_bits, Option.bind_some, extract_left, extract_right, extract_low, extract_high, extract_all, bit_low, bit_high, bbit_bit_of])
theorem Encoding.asca (h : Hd) (fsc : Bool) (d : Opnd) (a : Opnd) (b : Opnd) : Encoding.Statement (.asca h fsc d a b) :=
  built rfl (by simp (disch := decide) only [Fields.build, Fields.zero, opnd_ofBits_bits, bit_low, bit_high, bbit_bit_of])
theorem Encoding.aqred (h : Hd) (z : Bool) (int : Bool) (fmt : BitVec 5) (rnd : Rnd) (ty : Ty) (sat : Bool) (a : Opnd) (b : Opnd) (c : Opnd) : Encoding.Statement (.aqred h z int fmt rnd ty sat a b c) :=
  built rfl (by simp (disch := decide) only [Fields.build, Fields.zero, opnd_ofBits_bits, Ty.ofBits_bits, Option.bind_some, rnd_ofBits_bits, extract_left, extract_right, extract_low, extract_high, extract_all, bit_low, bit_high, bbit_bit_of])
theorem Encoding.split (h : Hd) (n : BitVec 4) (ex : Bool) (d : Opnd) (a : Opnd) (b : Opnd) : Encoding.Statement (.split h n ex d a b) :=
  built rfl (by simp (disch := decide) only [Fields.build, Fields.zero, opnd_ofBits_bits, extract_left, extract_right, extract_low, extract_high, extract_all, bit_low, bit_high, bbit_bit_of])
theorem Encoding.recomb (h : Hd) (lv : BitVec 4) (ln : BitVec 3) (d : Opnd) (a : Opnd) (b : Opnd) : Encoding.Statement (.recomb h lv ln d a b) :=
  built rfl (by simp (disch := decide) only [Fields.build, Fields.zero, opnd_ofBits_bits, extract_left, extract_right, extract_low, extract_high, extract_all])
theorem Encoding.acqry (h : Hd) (d : Opnd) (a : Opnd) : Encoding.Statement (.acqry h d a) :=
  built rfl (by simp (disch := decide) only [Fields.build, Fields.zero, opnd_ofBits_bits])
theorem Encoding.kclaim (h : Hd) (kind : KeyKind) (ch : BitVec 3) (d : Opnd) (a : Opnd) (b : Opnd) (w : BitVec 12) : Encoding.Statement (.kclaim h kind ch d a b w) :=
  built rfl (by simp (disch := decide) only [Fields.build, Fields.zero, opnd_ofBits_bits, KeyKind.ofBits_bits, Option.bind_some, extract_left, extract_right, extract_low, extract_high, extract_all])
theorem Encoding.kfree (h : Hd) : Encoding.Statement (.kfree h) := built rfl rfl
theorem Encoding.kins (h : Hd) (d : Opnd) (a : Opnd) (b : Opnd) : Encoding.Statement (.kins h d a b) :=
  built rfl (by simp (disch := decide) only [Fields.build, Fields.zero, opnd_ofBits_bits])
theorem Encoding.kprb (h : Hd) (d : Opnd) (a : Opnd) (c : Opnd) : Encoding.Statement (.kprb h d a c) :=
  built rfl (by simp (disch := decide) only [Fields.build, Fields.zero, opnd_ofBits_bits, extract_left, extract_right, extract_low, extract_high, extract_all])
theorem Encoding.kdel (h : Hd) (d : Opnd) (a : Opnd) : Encoding.Statement (.kdel h d a) :=
  built rfl (by simp (disch := decide) only [Fields.build, Fields.zero, opnd_ofBits_bits])
theorem Encoding.kacc (h : Hd) (ty : Ty) (a : Opnd) (b : Opnd) : Encoding.Statement (.kacc h ty a b) :=
  built rfl (by simp (disch := decide) only [Fields.build, Fields.zero, opnd_ofBits_bits, Ty.ofBits_bits, Option.bind_some])
theorem Encoding.kdrn (h : Hd) (z : Bool) (d : Opnd) (a : Opnd) (b : Opnd) : Encoding.Statement (.kdrn h z d a b) :=
  built rfl (by simp (disch := decide) only [Fields.build, Fields.zero, opnd_ofBits_bits, bit_low, bit_high, bbit_bit_of])
theorem Encoding.kstat (h : Hd) (clr : Bool) (d : Opnd) : Encoding.Statement (.kstat h clr d) :=
  built rfl (by simp (disch := decide) only [Fields.build, Fields.zero, opnd_ofBits_bits, bit_low, bit_high, bbit_bit_of])
theorem Encoding.gld (h : Hd) (sat : Bool) (d : Opnd) (a : Opnd) (b : Opnd) : Encoding.Statement (.gld h sat d a b) :=
  built rfl (by simp (disch := decide) only [Fields.build, Fields.zero, opnd_ofBits_bits])
theorem Encoding.gsc (h : Hd) (gen : BitVec 8) (sat : Bool) (a : Opnd) (b : Opnd) (c : Opnd) : Encoding.Statement (.gsc h gen sat a b c) :=
  built rfl (by simp (disch := decide) only [Fields.build, Fields.zero, opnd_ofBits_bits, extract_left, extract_right, extract_low, extract_high, extract_all])
theorem Encoding.gidx (h : Hd) (w : Bool) (d : Opnd) (a : Opnd) (b : Opnd) (lv : BitVec 5) : Encoding.Statement (.gidx h w d a b lv) :=
  built rfl (by simp (disch := decide) only [Fields.build, Fields.zero, opnd_ofBits_bits, extract_left, extract_right, extract_low, extract_high, extract_all, bit_low, bit_high, bbit_bit_of])
theorem Encoding.gqry (h : Hd) (d : Opnd) (a : Opnd) (sel : BitVec 6) : Encoding.Statement (.gqry h d a sel) :=
  built rfl (by simp (disch := decide) only [Fields.build, Fields.zero, opnd_ofBits_bits, extract_left, extract_right, extract_low, extract_high, extract_all])
theorem Encoding.fence (h : Hd) (mm : Mm) (kr : Bool) (kg : Bool) (kl : Bool) : Encoding.Statement (.fence h mm kr kg kl) :=
  built rfl (by simp (disch := decide) only [Fields.build, Fields.zero, Mm.ofBits_bits, Option.bind_some, bit_low, bit_high, bbit_bit_of])
theorem Encoding.bflip (h : Hd) (host : Bool) (d : Opnd) (a : Opnd) : Encoding.Statement (.bflip h host d a) :=
  built rfl (by simp (disch := decide) only [Fields.build, Fields.zero, opnd_ofBits_bits, bit_low, bit_high, bbit_bit_of])
theorem Encoding.bqry (h : Hd) (d : Opnd) (a : Opnd) : Encoding.Statement (.bqry h d a) :=
  built rfl (by simp (disch := decide) only [Fields.build, Fields.zero, opnd_ofBits_bits])
theorem Encoding.radd (h : Hd) (comm : Bool) (ty : Ty) (d : Opnd) (a : Opnd) (b : Opnd) (off : BitVec 24) : Encoding.Statement (.radd h comm ty d a b off) :=
  built rfl (by simp (disch := decide) only [Fields.build, Fields.zero, opnd_ofBits_bits, Ty.ofBits_bits, Option.bind_some, bit_low, bit_high, bbit_bit_of])
theorem Encoding.rfxa (h : Hd) (comm : Bool) (init : Bool) (line : Bool) (fmt : BitVec 5) (ty : Ty) (d : Opnd) (a : Opnd) (b : Opnd) (c : Opnd) : Encoding.Statement (.rfxa h comm init line fmt ty d a b c) :=
  built rfl (by simp (disch := decide) only [Fields.build, Fields.zero, opnd_ofBits_bits, Ty.ofBits_bits, Option.bind_some, extract_left, extract_right, extract_low, extract_high, extract_all, bit_low, bit_high, bbit_bit_of])
theorem Encoding.rmin (h : Hd) (comm : Bool) (ty : Ty) (d : Opnd) (a : Opnd) (b : Opnd) (off : BitVec 24) : Encoding.Statement (.rmin h comm ty d a b off) :=
  built rfl (by simp (disch := decide) only [Fields.build, Fields.zero, opnd_ofBits_bits, Ty.ofBits_bits, Option.bind_some, bit_low, bit_high, bbit_bit_of])
theorem Encoding.rmax (h : Hd) (comm : Bool) (ty : Ty) (d : Opnd) (a : Opnd) (b : Opnd) (off : BitVec 24) : Encoding.Statement (.rmax h comm ty d a b off) :=
  built rfl (by simp (disch := decide) only [Fields.build, Fields.zero, opnd_ofBits_bits, Ty.ofBits_bits, Option.bind_some, bit_low, bit_high, bbit_bit_of])
theorem Encoding.ror (h : Hd) (comm : Bool) (ty : Ty) (d : Opnd) (a : Opnd) (b : Opnd) (off : BitVec 24) : Encoding.Statement (.ror h comm ty d a b off) :=
  built rfl (by simp (disch := decide) only [Fields.build, Fields.zero, opnd_ofBits_bits, Ty.ofBits_bits, Option.bind_some, bit_low, bit_high, bbit_bit_of])
theorem Encoding.rwo (h : Hd) (comm : Bool) (ty : Ty) (d : Opnd) (a : Opnd) (b : Opnd) (off : BitVec 24) : Encoding.Statement (.rwo h comm ty d a b off) :=
  built rfl (by simp (disch := decide) only [Fields.build, Fields.zero, opnd_ofBits_bits, Ty.ofBits_bits, Option.bind_some, bit_low, bit_high, bbit_bit_of])
theorem Encoding.rarv (h : Hd) (ty : Ty) (d : Opnd) (a : Opnd) (b : Opnd) (off : BitVec 24) : Encoding.Statement (.rarv h ty d a b off) :=
  built rfl (by simp (disch := decide) only [Fields.build, Fields.zero, opnd_ofBits_bits, Ty.ofBits_bits, Option.bind_some])
theorem Encoding.rreq (h : Hd) (w32 : Bool) (n : BitVec 4) (d : Opnd) (a : Opnd) (b : Opnd) : Encoding.Statement (.rreq h w32 n d a b) :=
  built rfl (by simp (disch := decide) only [Fields.build, Fields.zero, opnd_ofBits_bits, extract_left, extract_right, extract_low, extract_high, extract_all, bit_low, bit_high, bbit_bit_of])
theorem Encoding.waitc (h : Hd) (d : Opnd) (a : Opnd) (b : Opnd) (c : Opnd) : Encoding.Statement (.waitc h d a b c) :=
  built rfl (by simp (disch := decide) only [Fields.build, Fields.zero, opnd_ofBits_bits, extract_left, extract_right, extract_low, extract_high, extract_all])
theorem Encoding.hbar (h : Hd) (mm : Mm) (d : Opnd) (a : Opnd) (ch : BitVec 4) : Encoding.Statement (.hbar h mm d a ch) :=
  built rfl (by simp (disch := decide) only [Fields.build, Fields.zero, opnd_ofBits_bits, Mm.ofBits_bits, Option.bind_some, extract_left, extract_right, extract_low, extract_high, extract_all])
theorem Encoding.phase (h : Hd) (d : Opnd) (a : Opnd) : Encoding.Statement (.phase h d a) :=
  built rfl (by simp (disch := decide) only [Fields.build, Fields.zero, opnd_ofBits_bits])
theorem Encoding.phqry (h : Hd) (d : Opnd) (sel : BitVec 4) : Encoding.Statement (.phqry h d sel) :=
  built rfl (by simp (disch := decide) only [Fields.build, Fields.zero, opnd_ofBits_bits, extract_left, extract_right, extract_low, extract_high, extract_all])
theorem Encoding.oapp (h : Hd) (d : Opnd) (a : Opnd) (ch : BitVec 3) : Encoding.Statement (.oapp h d a ch) :=
  built rfl (by simp (disch := decide) only [Fields.build, Fields.zero, opnd_ofBits_bits, extract_left, extract_right, extract_low, extract_high, extract_all])
theorem Encoding.odecl (h : Hd) (ch : BitVec 3) : Encoding.Statement (.odecl h ch) :=
  built rfl (by simp (disch := decide) only [Fields.build, Fields.zero, extract_left, extract_right, extract_low, extract_high, extract_all])
theorem Encoding.dmqry (h : Hd) (d : Opnd) : Encoding.Statement (.dmqry h d) :=
  built rfl (by simp (disch := decide) only [Fields.build, Fields.zero, opnd_ofBits_bits])
theorem Encoding.trap (h : Hd) (n : BitVec 4) : Encoding.Statement (.trap h n) :=
  built rfl (by simp (disch := decide) only [Fields.build, Fields.zero, extract_left, extract_right, extract_low, extract_high, extract_all])
theorem Encoding.tret (h : Hd) : Encoding.Statement (.tret h) := built rfl rfl
theorem Encoding.trdc (h : Hd) (clr : Bool) (d : Opnd) : Encoding.Statement (.trdc h clr d) :=
  built rfl (by simp (disch := decide) only [Fields.build, Fields.zero, opnd_ofBits_bits, bit_low, bit_high, bbit_bit_of])
theorem Encoding.ppt (h : Hd) (mode : PptMode) (n : BitVec 24) : Encoding.Statement (.ppt h mode n) :=
  built rfl (by simp (disch := decide) only [Fields.build, Fields.zero, PptMode.ofBits_bits, Option.bind_some, extract_left, extract_right, extract_low, extract_high, extract_all])
theorem Encoding.tlbinv (h : Hd) (scope : BitVec 3) (all : Bool) (a : Opnd) : Encoding.Statement (.tlbinv h scope all a) :=
  built rfl (by simp (disch := decide) only [Fields.build, Fields.zero, opnd_ofBits_bits, extract_left, extract_right, extract_low, extract_high, extract_all, bit_low, bit_high, bbit_bit_of])
theorem Encoding.dbg (h : Hd) (mode : DbgMode) (a : Opnd) (b : Opnd) (code : BitVec 16) : Encoding.Statement (.dbg h mode a b code) :=
  built rfl (by simp (disch := decide) only [Fields.build, Fields.zero, opnd_ofBits_bits, DbgMode.ofBits_bits, Option.bind_some, extract_left, extract_right, extract_low, extract_high, extract_all])
theorem Encoding.unassignedOpcode (bits : BitVec 96) : Encoding.Statement (.unassignedOpcode bits) := unbuilt rfl
theorem Encoding.placeWorkgroup (die : Nat) : Encoding.Statement (.placeWorkgroup die) := unbuilt rfl
theorem Encoding.carveChange (core : Nat) : Encoding.Statement (.carveChange core) := unbuilt rfl
theorem Encoding.carveChangeDone (core : Nat) : Encoding.Statement (.carveChangeDone core) := unbuilt rfl
theorem Encoding.preemptSave (wid : Nat) : Encoding.Statement (.preemptSave wid) := unbuilt rfl
theorem Encoding.resumeWorkgroup (die : Nat) : Encoding.Statement (.resumeWorkgroup die) := unbuilt rfl
theorem Encoding.workgroupRetire (wid : Nat) : Encoding.Statement (.workgroupRetire wid) := unbuilt rfl
theorem Encoding.xacqGrant (core : Nat) : Encoding.Statement (.xacqGrant core) := unbuilt rfl
theorem Encoding.sleepEnd (wid : Nat) (warp : Nat) : Encoding.Statement (.sleepEnd wid warp) := unbuilt rfl
theorem Encoding.waitkWake (wid : Nat) (warp : Nat) : Encoding.Statement (.waitkWake wid warp) := unbuilt rfl
theorem Encoding.commandStart (core : Nat) : Encoding.Statement (.commandStart core) := unbuilt rfl
theorem Encoding.pieceLanded (wid : Nat) (cmd : Nat) (piece : Nat) : Encoding.Statement (.pieceLanded wid cmd piece) := unbuilt rfl
theorem Encoding.rowLanded (wid : Nat) (cmd : Nat) (row : Nat) : Encoding.Statement (.rowLanded wid cmd row) := unbuilt rfl
theorem Encoding.gatherRowTimeout (wid : Nat) (cmd : Nat) (row : Nat) : Encoding.Statement (.gatherRowTimeout wid cmd row) := unbuilt rfl
theorem Encoding.commandComplete (wid : Nat) (cmd : Nat) : Encoding.Statement (.commandComplete wid cmd) := unbuilt rfl
theorem Encoding.replyBufferWrite (die : Nat) (k : Nat) (noise : Nat) : Encoding.Statement (.replyBufferWrite die k noise) := unbuilt rfl
theorem Encoding.engineComplete (core : Nat) : Encoding.Statement (.engineComplete core) := unbuilt rfl
theorem Encoding.sequencerStep (core : Nat) : Encoding.Statement (.sequencerStep core) := unbuilt rfl
theorem Encoding.seqstWaitReturn (wid : Nat) (warp : Nat) : Encoding.Statement (.seqstWaitReturn wid warp) := unbuilt rfl
theorem Encoding.aqredStep (wid : Nat) : Encoding.Statement (.aqredStep wid) := unbuilt rfl
theorem Encoding.keyedApply (core : Nat) : Encoding.Statement (.keyedApply core) := unbuilt rfl
theorem Encoding.gridComplete (core : Nat) : Encoding.Statement (.gridComplete core) := unbuilt rfl
theorem Encoding.gscSend (core : Nat) : Encoding.Statement (.gscSend core) := unbuilt rfl
theorem Encoding.walkComplete (die : Nat) (k : Nat) : Encoding.Statement (.walkComplete die k) := unbuilt rfl
theorem Encoding.streamEntry (who : Sender) : Encoding.Statement (.streamEntry who) := unbuilt rfl
theorem Encoding.retransmit (src : Nat) (dst : Nat) (seq : Nat) : Encoding.Statement (.retransmit src dst seq) := unbuilt rfl
theorem Encoding.rarvDepart (die : Nat) (wid : Nat) (warp : Nat) : Encoding.Statement (.rarvDepart die wid warp) := unbuilt rfl
theorem Encoding.streamStall (wid : Nat) (warp : Nat) : Encoding.Statement (.streamStall wid warp) := unbuilt rfl
theorem Encoding.arrivalStall (die : Nat) (wid : Nat) (warp : Nat) : Encoding.Statement (.arrivalStall die wid warp) := unbuilt rfl
theorem Encoding.applyRadd (sp : Nat) (k : Nat) (noise : Nat) : Encoding.Statement (.applyRadd sp k noise) := unbuilt rfl
theorem Encoding.applyRmin (sp : Nat) (k : Nat) (noise : Nat) : Encoding.Statement (.applyRmin sp k noise) := unbuilt rfl
theorem Encoding.applyRmax (sp : Nat) (k : Nat) (noise : Nat) : Encoding.Statement (.applyRmax sp k noise) := unbuilt rfl
theorem Encoding.applyRor (sp : Nat) (k : Nat) (noise : Nat) : Encoding.Statement (.applyRor sp k noise) := unbuilt rfl
theorem Encoding.applyContribution (sp : Nat) (k : Nat) (noise : Nat) : Encoding.Statement (.applyContribution sp k noise) := unbuilt rfl
theorem Encoding.applyLineInit (sp : Nat) (k : Nat) (noise : Nat) : Encoding.Statement (.applyLineInit sp k noise) := unbuilt rfl
theorem Encoding.applyWriteOnce (sp : Nat) (k : Nat) (noise : Nat) : Encoding.Statement (.applyWriteOnce sp k noise) := unbuilt rfl
theorem Encoding.applyArrival (sp : Nat) (k : Nat) (noise : Nat) : Encoding.Statement (.applyArrival sp k noise) := unbuilt rfl
theorem Encoding.serveReadRequest (sp : Nat) (k : Nat) (noise : Nat) : Encoding.Statement (.serveReadRequest sp k noise) := unbuilt rfl
theorem Encoding.applyReply (sp : Nat) (k : Nat) (noise : Nat) : Encoding.Statement (.applyReply sp k noise) := unbuilt rfl
theorem Encoding.ackGroupReceived (die : Nat) (k : Nat) (noise : Nat) : Encoding.Statement (.ackGroupReceived die k noise) := unbuilt rfl
theorem Encoding.watchFire (sp : Nat) (k : Nat) : Encoding.Statement (.watchFire sp k) := unbuilt rfl
theorem Encoding.watchPoll (wid : Nat) (warp : Nat) : Encoding.Statement (.watchPoll wid warp) := unbuilt rfl
theorem Encoding.waitcDeadline (wid : Nat) (warp : Nat) : Encoding.Statement (.waitcDeadline wid warp) := unbuilt rfl
theorem Encoding.fenceComplete (wid : Nat) (warp : Nat) : Encoding.Statement (.fenceComplete wid warp) := unbuilt rfl
theorem Encoding.networkArrival (k : Nat) : Encoding.Statement (.networkArrival k) := unbuilt rfl
theorem Encoding.balanceSweep (k : Nat) : Encoding.Statement (.balanceSweep k) := unbuilt rfl
theorem Encoding.actGrant (die : Nat) (ch : Nat) : Encoding.Statement (.actGrant die ch) := unbuilt rfl
theorem Encoding.loggedEvent (wid : Nat) (warp : Nat) : Encoding.Statement (.loggedEvent wid warp) := unbuilt rfl
theorem Encoding.logFull (wid : Nat) (warp : Nat) : Encoding.Statement (.logFull wid warp) := unbuilt rfl
theorem Encoding.pptHoldExpiry (wid : Nat) (warp : Nat) : Encoding.Statement (.pptHoldExpiry wid warp) := unbuilt rfl
theorem Encoding.launchPortWrite (pkg : Nat) (ctx : Nat) (off : Nat) (bytes : List (BitVec 8)) : Encoding.Statement (.launchPortWrite pkg ctx off bytes) := unbuilt rfl
theorem Encoding.preqPreempt (die : Nat) (value : BitVec 64) : Encoding.Statement (.preqPreempt die value) := unbuilt rfl
theorem Encoding.preqTerminate (die : Nat) (value : BitVec 64) : Encoding.Statement (.preqTerminate die value) := unbuilt rfl
theorem Encoding.preqReserved (die : Nat) (value : BitVec 64) : Encoding.Statement (.preqReserved die value) := unbuilt rfl
theorem Encoding.biasFlipRequest (die : Nat) (value : BitVec 64) : Encoding.Statement (.biasFlipRequest die value) := unbuilt rfl
theorem Encoding.biasForce (die : Nat) (value : BitVec 64) : Encoding.Statement (.biasForce die value) := unbuilt rfl
theorem Encoding.reportRequest (pkg : Nat) (value : BitVec 64) : Encoding.Statement (.reportRequest pkg value) := unbuilt rfl
theorem Encoding.reportReady (pkg : Nat) : Encoding.Statement (.reportReady pkg) := unbuilt rfl
theorem Encoding.powerModeWrite (die : Nat) (eff : Bool) : Encoding.Statement (.powerModeWrite die eff) := unbuilt rfl
theorem Encoding.modeSwitch (die : Nat) : Encoding.Statement (.modeSwitch die) := unbuilt rfl
theorem Encoding.powerCapWrite (die : Nat) (cap : BitVec 11) : Encoding.Statement (.powerCapWrite die cap) := unbuilt rfl
theorem Encoding.capClockStep (die : Nat) (watts : Nat) : Encoding.Statement (.capClockStep die watts) := unbuilt rfl
theorem Encoding.armSwap (pkg : Nat) (n : BitVec 64) : Encoding.Statement (.armSwap pkg n) := unbuilt rfl
theorem Encoding.tableSwap (pkg : Nat) : Encoding.Statement (.tableSwap pkg) := unbuilt rfl
theorem Encoding.keyLoad (pkg : Nat) : Encoding.Statement (.keyLoad pkg) := unbuilt rfl
theorem Encoding.keyZero (pkg : Nat) : Encoding.Statement (.keyZero pkg) := unbuilt rfl
theorem Encoding.laneEnable (pkg : Nat) (value : BitVec 64) : Encoding.Statement (.laneEnable pkg value) := unbuilt rfl
theorem Encoding.registerWrite (pkg : Nat) (off : Nat) (value : BitVec 64) : Encoding.Statement (.registerWrite pkg off value) := unbuilt rfl
theorem Encoding.slotStart (pkg : Nat) : Encoding.Statement (.slotStart pkg) := unbuilt rfl
theorem Encoding.flitReceived (pkg : Nat) (lane : Nat) (k : Nat) (symbols : Nat) (bad : Bool) (noise : Nat) : Encoding.Statement (.flitReceived pkg lane k symbols bad noise) := unbuilt rfl
theorem Encoding.flowGap (pkg : Nat) (src : Nat) : Encoding.Statement (.flowGap pkg src) := unbuilt rfl
theorem Encoding.fecWindowEnd (pkg : Nat) (lane : Nat) : Encoding.Statement (.fecWindowEnd pkg lane) := unbuilt rfl
theorem Encoding.handoverRequest (pkg : Nat) (lane : Nat) : Encoding.Statement (.handoverRequest pkg lane) := unbuilt rfl
theorem Encoding.spareReady (pkg : Nat) (lane : Nat) : Encoding.Statement (.spareReady pkg lane) := unbuilt rfl
theorem Encoding.retrainDone (pkg : Nat) (lane : Nat) : Encoding.Statement (.retrainDone pkg lane) := unbuilt rfl
theorem Encoding.hostAccess (op : HostOp) : Encoding.Statement (.hostAccess op) := unbuilt rfl
theorem Encoding.partitionFormed (n : Nat) (roots : List (Nat × Nat × Nat)) : Encoding.Statement (.partitionFormed n roots) := unbuilt rfl
theorem Encoding.dieReset (die : Nat) (fw : List (List (BitVec 8))) : Encoding.Statement (.dieReset die fw) := unbuilt rfl
theorem Encoding.packageReset (pkg : Nat) : Encoding.Statement (.packageReset pkg) := unbuilt rfl
theorem Encoding.dramError (pa : Nat) (bad : Bool) : Encoding.Statement (.dramError pa bad) := unbuilt rfl
theorem Encoding.flipComplete (k : Nat) : Encoding.Statement (.flipComplete k) := unbuilt rfl
theorem Encoding.writeBackComplete (wid : Nat) (win : Nat) (line : Nat) : Encoding.Statement (.writeBackComplete wid win line) := unbuilt rfl
theorem Encoding.rotationStart (pkg : Nat) : Encoding.Statement (.rotationStart pkg) := unbuilt rfl
theorem Encoding.flitSend (pkg : Nat) (lane : Nat) (kind : Nat) : Encoding.Statement (.flitSend pkg lane kind) := unbuilt rfl

end Sys2Proof.Laws
end

