-- ==== Sys2Proof/Safety.lean ====
section
/-! DEFINITION. What claims call a safe run, the forms of the state that every step keeps, and the words in which claims say
what an issue leaves behind: its result in the registers, its frame, where its threads stand. -/

namespace Sys2Proof.Machine

/-! ### The state -/

/-- Every memory is in canonical form: the device's, the host's, the local area and the tiles of each workgroup. -/
def State.memWf (s : State) : Bool :=
  Memory.wf s.mem && Memory.wf s.hostMem &&
    s.wgs.all fun p => Memory.wf p.2.mem && p.2.tiles.all fun q => Memory.wf q.2.bytes

/-- The length of every open stash window is whole lines (R190). -/
def State.stashOk (s : State) : Bool := s.wgs.all fun p => p.2.stash.all fun q => q.2.n % 128 == 0

/-- The pod has from 1 to 48 packages (R18). -/
def State.podOk (s : State) : Bool := decide (1 ≤ s.nPkg) && decide (s.nPkg ≤ 48)

/-- A run of the machine that no fault and no refusal ends. -/
def runs : Nat → State → Prop
  | 0, _ => True
  | n + 1, s => ∃ t, step s = .next t ∧ runs n t

/-- The head of a word with no guard, write-back and no hints (R57, R66, R67). -/
def bareHd : Hd := ⟨false, 7, false, false, 0, false, 0⟩

/-! ### An issue that comes to its own effect -/

/-- The issue in progress, when no deferred cause and no single step (R436), no check of R68 after the word's own, and no
result of an engine that is still owed (R84) comes before the instruction's own effect. -/
def issuing (s : State) (i : Instr) : Option Ix :=
  match Ix.of s i with
  | none => none
  | some x =>
    if (earlyTrap x.w x.c.bundle).isSome || (dynTrap x).isSome || scoreHeld x then none else some x

/-- A thread stands at a pair: in the frontier or parked (R82, R83). -/
def Warp.stands (w : Warp) (l : Nat) (pr : BitVec 8) (pc : Pc) : Prop :=
  (∃ e ∈ w.front, e.mask.getLsbD l = true ∧ e.prio = pr ∧ e.pc = pc) ∨
  (∃ p ∈ w.parked, p.mask.getLsbD l = true ∧ p.prio = pr ∧ p.pc = pc)

/-- Every thread of some lanes stands at a pair. -/
def Warp.standAt (w : Warp) (m : Mask) (pr : BitVec 8) (pc : Pc) : Prop := ∀ l, m.getLsbD l = true → w.stands l pr pc

/-- Every thread of the bundle stands after the instruction, at the priority it had. -/
def Ix.advanced (x : Ix) (w : Warp) : Prop := w.standAt x.c.bundle x.c.prio (x.c.pc + 12)

/-- A warp without what says where its threads are and what it is at, and without its v, s and p registers and masks. -/
def Warp.rest (w : Warp) : Warp :=
  { w with
    front := [], parked := [], blocked := [], issues := 0, v := [], s := [], p := [], k := [], hold := none, walked := []
    stepDue := false, tpnd := false, stUntil := 0, passOver := false, readySince := none, latched := none, keyMade := 0, keyKept := none, floor := 0 }

/-- A warp `w` that completed an issue has, but for its v, s and p registers, the registers of `u`; it has no instruction in
progress and no pending trap; and its rejoin masks and the threads blocked on anything are those of `u` unless a mask of `u`
is to be released (R88). -/
structure Settles (u w : Warp) : Prop where
  rest : w.rest = u.rest
  hold : w.hold = none
  tpnd : w.tpnd = false
  masks : (∀ k, k < 8 → u.rejoinMet k = false) → w.blocked = u.blocked ∧ ∀ k, w.kget k = u.kget k

/-- The v, s and p registers of two warps read alike. -/
structure SameRegs (u w : Warp) : Prop where
  v : ∀ m l, l < 128 → w.vget m l = u.vget m l
  s : ∀ m, w.sget m = u.sget m
  p : ∀ m, w.pget m = u.pget m

/-- The lanes of a result are those with a true guard; with an s destination the lowest of them computes it (R57, R130).
What v register m of lane l reads after `f` is written to `d`, over a warp `u`. -/
def Ix.vWant (x : Ix) (u : Warp) (d : Opnd) (wide : Bool) (f : Nat → Nat) (m l : Nat) : Word :=
  match d with
  | .v n =>
    if x.f.hd.nwb || !x.on.getLsbD l then u.vget m l
    else if m = n.toNat then BitVec.ofNat 32 (f l)
    else if wide && m == n.toNat + 1 then BitVec.ofNat 32 (f l / 2 ^ 32)
    else u.vget m l
  | _ => u.vget m l

/-- What s register m reads after `f` is written to `d`. -/
def Ix.sWant (x : Ix) (u : Warp) (d : Opnd) (wide : Bool) (f : Nat → Nat) (m : Nat) : Word :=
  match d with
  | .s n =>
    if x.f.hd.nwb || x.on == 0 then u.sget m
    else if m = n.toNat then BitVec.ofNat 32 (f (firstOf x.lanes))
    else if wide && m == n.toNat + 1 then BitVec.ofNat 32 (f (firstOf x.lanes) / 2 ^ 32)
    else u.sget m
  | _ => u.sget m

/-- What predicate m of lane l reads after `f` is written to `d`; p7 reads true whatever is written (R57, R59). -/
def Ix.pWant (x : Ix) (u : Warp) (d : Opnd) (f : Nat → Nat) (m l : Nat) : Bool :=
  match d with
  | .p n =>
    if x.f.hd.nwb || !x.on.getLsbD l || m == 7 || m != n.toNat then (u.pget m).getLsbD l
    else f l % 2 ^ 64 != 0
  | _ => (u.pget m).getLsbD l

/-- The v, s and p registers of a warp read as those of `u` with `f` written to `d` (R57, R67, R130, R132). -/
structure Wrote (x : Ix) (u : Warp) (d : Opnd) (wide : Bool) (f : Nat → Nat) (w : Warp) : Prop where
  v : ∀ m l, l < 128 → w.vget m l = x.vWant u d wide f m l
  s : ∀ m, w.sget m = x.sWant u d wide f m
  p : ∀ m l, l < 128 → (w.pget m).getLsbD l = x.pWant u d f m l

/-- A machine `t` after an issue differs from `u` in the issuing warp, which is `w`, and in the port that issued, and in
nothing else: no byte of any memory, no register of another warp, nothing of another agent. -/
structure OnlyWarp (x : Ix) (u t : State) (w : Warp) : Prop where
  issued : t.cur = none
  warp : t.warp? x.c.wid x.c.warp = some w
  machine : { t with wgs := u.wgs, cores := u.cores, cur := u.cur } = u
  groups : ∀ n, n ≠ x.c.wid → look t.wgs n = look u.wgs n
  group : ∀ g, look u.wgs x.c.wid = some g →
    ∃ h, look t.wgs x.c.wid = some h ∧ { h with warps := g.warps } = g ∧
      ∀ j, j ≠ x.c.warp → look h.warps j = look g.warps j
  cores : ∀ n, n ≠ x.g.core → t.core n = u.core n
  core : ∀ p, (t.core x.g.core).setPort x.w.port p = (u.core x.g.core).setPort x.w.port p
  memory : ∀ a, memGet t.mem a = memGet u.mem a ∧ memGet t.hostMem a = memGet u.hostMem a

/-- The port that issued: its last bundle and slot, its latches, busy for the bundle's passes (R78, R86, R87, R128, R152). -/
def Ix.portIs (x : Ix) (t : State) (latch : Tab Latch) : Prop :=
  (t.core x.g.core).port x.w.port =
    { last := some (x.c.wid, x.c.warp, x.c.bundle)
      slot := x.w.ctx0 / 32
      latch := latch
      busy := x.s.clocksAt x.g.core + passes x.c.bundle * clocksPerPass x.f
      after := x.s.clocksAt x.g.core + 1 }

/-- The latches after a result `f` of `d` (R128): with `SCH.CAP` the named latch holds the value of each lane that computed,
or an s register's value in every lane, and 0 in the others. -/
def Ix.latches (x : Ix) (d : Opnd) (wide : Bool) (f : Nat → Nat) (t : State) : Prop :=
  ∃ ls, x.portIs t ls ∧
    (x.f.hd.cap = false → ls = x.kept) ∧
    (x.f.hd.cap = true →
      (∀ n, n ≠ x.f.hd.latch.toNat → look ls n = look x.kept n) ∧
      ∃ q, look ls x.f.hd.latch.toNat = some q ∧ q.wide = wide ∧
        ∀ l, l < x.w.width → lookD q.x l 0 =
          if d.isS then (if x.on == 0 then 0 else BitVec.ofNat 64 (f (firstOf x.lanes)))
          else if x.on.getLsbD l then BitVec.ofNat 64 (f l) else 0)

/-- An instruction that is not kept from its effect writes `f` to `d` and advances; `u` is its warp but for that. The machine
is otherwise as it was. -/
def Writes (i : Instr) (x : Ix) (u : Warp) (d : Opnd) (wide : Bool) (f : Nat → Nat) : Prop :=
  ∃ t w, exec i x.s = .next t ∧ OnlyWarp x x.s t w ∧ Settles u w ∧ Wrote x u d wide f w ∧ x.advanced w ∧
    x.latches d wide f t

/-- Whenever an instruction comes to its own effect, it writes `f` to `d` and changes no other register of its warp. -/
def Gives (i : Instr) (d : Opnd) (wide : Bool) (f : Ix → Nat → Nat) : Prop :=
  ∀ s x, issuing s i = some x → Writes i x x.w d wide (f x)

/-- The lanes of a list that meet the cause at a place of R49's ranking under the enables in force. -/
def Ix.meeting (x : Ix) (ls : List Nat) (c : Nat → Cond) (r : Nat) : List Nat := ls.filter fun l => meets x.w.enables (c l) r

/-- The lanes that a cause names: those of the list that meet it; where the lowest lane computes for all, with an s destination, every
lane with a true guard (R49, R130, R154). -/
def Ix.blamed (x : Ix) (d : Opnd) (ls : List Nat) (c : Nat → Cond) (r : Nat) : List Nat :=
  if d.isS && ls == x.lanes.take 1 then (if x.meeting ls c r = [] then [] else x.lanes) else x.meeting ls c r

/-- A cause that an instruction meets is taken once the warp's older engine stores have been made; until then it waits (R437). -/
def Traps (i : Instr) (x : Ix) (t : Trap) : Prop :=
  (x.storing = false → exec i x.s = .next (x.s.takeTrap x.c t)) ∧
  (x.storing = true → exec i x.s = .next { x.s with cur := some { x.c with ready := false } })

/-- An instruction meets a cause on some lanes, with or without a faulting address, and has no effect but the trap. -/
def Meets (i : Instr) (x : Ix) (c : BitVec 7) (m : Mask) (a : Option (BitVec 64)) : Prop := Traps i x ⟨c, m, a, none, none⟩

/-- A floating-point result `f` with conditions `c` in some lanes (R48, R49, R154, R438): with no enabled condition met it is
written to `d`, every lane's conditions are or-ed into `FLG`, and the warp is otherwise as `u`; else the highest-ranked enabled
condition traps on the lanes that it names, and nothing is written. -/
def WritesFp (i : Instr) (x : Ix) (u : Warp) (ls : List Nat) (d : Opnd) (wide : Bool) (f : Nat → Nat) (c : Nat → Cond) : Prop :=
  ((∀ r, r < 6 → x.meeting ls c r = []) →
    ∃ flg : BitVec 5,
      (∀ b, b < 5 → (flg.getLsbD b = true ↔ x.w.flg.getLsbD b = true ∨ ∃ l ∈ ls, (c l).getLsbD b = true)) ∧
      Writes i x { u with flg := flg } d wide f) ∧
  (∀ r, r < 6 → x.meeting ls c r ≠ [] → (∀ q, q < r → x.meeting ls c q = []) →
    Meets i x (fpCause r) (maskOf (x.blamed d ls c r)) none)

/-- Whenever a floating-point instruction comes to its own effect, its result is `f`. -/
def GivesFp (i : Instr) (d : Opnd) (wide : Bool) (f : Ix → Nat → Nat × Cond) : Prop :=
  ∀ s x, issuing s i = some x → WritesFp i x x.w (x.computing d) d wide (fun l => (f x l).1) (fun l => (f x l).2)

/-- An instruction leaves its warp as `u`, its threads advanced, and the machine otherwise as it was. -/
def Leaves (i : Instr) (x : Ix) (u : Warp) : Prop :=
  ∃ t w, exec i x.s = .next t ∧ OnlyWarp x x.s t w ∧ Settles u w ∧ SameRegs u w ∧ x.advanced w ∧ x.portIs t x.kept

/-- An instruction leaves its warp as `u`, each move's threads where it sends them, and the machine otherwise as it was. -/
def Flows (i : Instr) (x : Ix) (u : Warp) (go : List Move) : Prop :=
  ∃ t w, exec i x.s = .next t ∧ OnlyWarp x x.s t w ∧ Settles u w ∧ SameRegs u w ∧
    (∀ m ∈ go, w.standAt m.mask m.prio m.pc) ∧ x.portIs t x.kept

/-- An instruction makes the machine `u`, but that each move's threads are where it sends them. -/
def FlowsIn (i : Instr) (x : Ix) (u : State) (go : List Move) : Prop :=
  ∃ t w v, exec i x.s = .next t ∧ u.warp? x.c.wid x.c.warp = some v ∧ OnlyWarp x u t w ∧ Settles v w ∧ SameRegs v w ∧
    (∀ m ∈ go, w.standAt m.mask m.prio m.pc) ∧ x.portIs t x.kept

/-- An instruction makes the machine `u`, but for its own warp's advance. -/
def Makes (i : Instr) (x : Ix) (u : State) : Prop :=
  ∃ t w v, exec i x.s = .next t ∧ u.warp? x.c.wid x.c.warp = some v ∧ OnlyWarp x u t w ∧ Settles v w ∧ SameRegs v w ∧
    x.advanced w ∧ x.portIs t x.kept

/-- An instruction makes the machine `u`, but for its result `f` in `d` and its own warp's advance. -/
def MakesGives (i : Instr) (x : Ix) (u : State) (d : Opnd) (wide : Bool) (f : Nat → Nat) : Prop :=
  ∃ t w v, exec i x.s = .next t ∧ u.warp? x.c.wid x.c.warp = some v ∧ OnlyWarp x u t w ∧ Settles v w ∧
    Wrote x v d wide f w ∧ x.advanced w ∧ x.latches d wide f t

/-- The instruction stays in progress, waiting for `k`, in the machine `u`: nothing else of the warp changes (R444). -/
def Waits (i : Instr) (x : Ix) (u : State) (k : Wait) : Prop :=
  ∃ t w v, exec i x.s = .next t ∧ u.warp? x.c.wid x.c.warp = some v ∧ OnlyWarp x u t w ∧
    w = { v with hold := some ⟨x.c, i, u.time, k, x.latch⟩ }

/-- Whenever an instruction comes to its own effect and some condition on what it reads holds, it stays in progress. -/
def Holds (i : Instr) (p : Ix → Prop) (k : Wait) : Prop := ∀ s x, issuing s i = some x → p x → Waits i x x.s k

/-- A step `e` of another agent ends the instruction in progress `x` of a warp, in the machine `u`: the warp goes on after it,
its registers those that `u` gives it. -/
def Resumes (e : Instr) (s : State) (x : Ix) (u : State) : Prop :=
  ∃ t w v, exec e s = .next t ∧ u.warp? x.c.wid x.c.warp = some v ∧ OnlyWarp x u t w ∧ Settles v w ∧ SameRegs v w ∧ x.advanced w

/-- The same, with the instruction's result `f` written to `d`. -/
def ResumesGives (e : Instr) (s : State) (x : Ix) (u : State) (d : Opnd) (wide : Bool) (f : Nat → Nat) : Prop :=
  ∃ t w v, exec e s = .next t ∧ u.warp? x.c.wid x.c.warp = some v ∧ OnlyWarp x u t w ∧ Settles v w ∧
    Wrote x v d wide f w ∧ x.advanced w

/-! ### Numbers -/

/-- Some finite numbers have the exact sum s * 2^q: so it is at every power of two below all of them. -/
def IsSum (xs : List Num) (s q : Int) : Prop :=
  ∀ k, k ≤ q → (∀ n m e, Num.fin n m e ∈ xs → k ≤ e) →
    s * (pow2 (q - k) : Int) = (xs.map fun v => match v with
      | .fin n m e => sgn n (m * pow2 (e - k))
      | _ => 0).sum

/-- A result is the exact sum of finite numbers, rounded once: a zero sum has the sign `z`, and raises nothing (R31, R157). -/
def RoundsSum (f : Fmt) (mode : Mode) (sat : Bool) (xs : List Num) (z : Bool) (r : Num × Cond) : Prop :=
  ∃ s q, IsSum xs s q ∧ (s = 0 → r = (.fin z 0 0, cNone)) ∧ (s ≠ 0 → r = roundTo f mode sat (decide (s < 0)) s.natAbs q false)

/-! ### Accesses that go through -/

/-- The lanes that a cause of accesses names: those that meet it; every lane with a true guard where one access stands for them
all (R130, R154). -/
def Ix.named (x : Ix) (d : Opnd) (ls : List Nat) : Mask := if d.isS then x.on else maskOf ls

/-- What addresses that are multiples of n for some lanes meet (R202, R359, R378): MISALIGNED; a wait for the walks they need; the
first cause in order, on the lanes that meet it, with the lowest one's address. -/
def ChecksPages (i : Instr) (x : Ix) (d : Opnd) (ls : List Nat) (ea : Nat → Nat) (n : Nat) (cause : Nat → Tr → Ranked) : Prop :=
  let bad : List Nat := ls.filter fun l => ea l % n ≠ 0
  let far : List Nat := ls.filter fun l => x.xlate (ea l) = .miss
  let met (l : Nat) : Ranked := cause (ea l) (x.xlate (ea l))
  (∀ l rest, bad = l :: rest → Meets i x 0x33 (x.named d bad) (some (BitVec.ofNat 64 (ea l)))) ∧
  (bad = [] → far ≠ [] → Waits i x (x.s.askWalks (dieOf x.g.core) x.kr.ctx (x.c.wid, x.c.warp) (far.map ea)) .walk) ∧
  (bad = [] → far = [] → ∀ r c l rest, (ls.filter fun l => met l = some (r, c)) = l :: rest →
    (∀ m ∈ ls, ∀ q e, met m = some (q, e) → r < q ∨ (r = q ∧ c = e)) →
    Meets i x c (x.named d (l :: rest)) (some (BitVec.ofNat 64 (ea l))))

/-- What accesses of n bytes for some lanes meet before they are made (R179, R202, R350, R359): those checks, then a page in flip, for
which they wait. -/
def ChecksAccess (i : Instr) (x : Ix) (d : Opnd) (ls : List Nat) (ea : Nat → Nat) (n : Nat) (cause : Nat → Tr → Ranked) : Prop :=
  ChecksPages i x d ls ea n cause ∧
  ((∀ l ∈ ls, ea l % n = 0 ∧ x.xlate (ea l) ≠ .miss ∧ cause (ea l) (x.xlate (ea l)) = none) →
    (∃ l ∈ ls, ∃ p, x.xlate (ea l) = .page p ∧ p.hmem = false ∧ x.s.inFlip (p.pa (ea l)) = true) →
    exec i x.s = .next { x.s with cur := some { x.c with ready := false } })

/-- Accesses (lane, virtual address, size) that go through: each is aligned, its page is translated without a walk, `chk` finds no
cause, and the page is not in flip (R202, R350, R359). -/
def Ix.clear (x : Ix) (as : List Acc1) (chk : Nat → Tr → Ranked) : Prop :=
  ∀ a ∈ as, a.2.1 % a.2.2 = 0 ∧ ∃ p, x.xlate a.2.1 = .page p ∧ chk a.2.1 (.page p) = none ∧
    (p.hmem = false → x.s.inFlip (p.pa a.2.1) = false)

/-- None of the accesses reads poison (R360). -/
def Ix.sound (x : Ix) (as : List Acc1) : Prop :=
  ∀ a ∈ as, ∀ p, x.xlate a.2.1 = .page p → p.hmem = false → x.s.poisoned (p.pa a.2.1) a.2.2 = false

/-- The page of a virtual address of the warp; of an address that has none, none of the machine's. -/
def Ix.pageAt (x : Ix) (va : Nat) : Page :=
  match x.xlate va with
  | .page p => p
  | _ => ⟨0, 1, true, false, 0, false, false⟩

/-- The physical address of a virtual one. -/
def Ix.paAt (x : Ix) (va : Nat) : Nat := (x.pageAt va).pa va

/-- Accesses that pass those checks, some of which read poison, trap MEM_UNCORR on their lanes (R360). -/
def ChecksPoison (i : Instr) (x : Ix) (d : Opnd) (ls : List Nat) (ea : Nat → Nat) (n : Nat) (reads : Nat → Bool) : Prop :=
  ∀ l rest, (ls.filter fun l => reads l && !(x.pageAt (ea l)).hmem && x.s.poisoned (x.paAt (ea l)) n) = l :: rest →
    Meets i x 0x38 (x.named d (l :: rest)) (some (BitVec.ofNat 64 (ea l)))

/-- The bytes that a virtual address of the warp reads as, through its page. -/
def Ix.bytesAt (x : Ix) (va n : Nat) : List Byte := x.s.gread (x.pageAt va).hmem (x.paAt va) n

/-- Two machines have the same workgroups, alike but for the lines of their stash windows and their local areas. -/
def GroupsKeep (s u : State) : Prop :=
  ∀ n, (look s.wgs n = none → look u.wgs n = none) ∧
    ∀ g, look s.wgs n = some g → ∃ h, look u.wgs n = some h ∧ { h with stash := g.stash, mem := g.mem } = g

/-- Two machines have the same cores, alike but for the L1 of one. -/
def CoresKeep (c : Nat) (s u : State) : Prop :=
  ∀ n, (n ≠ c → u.core n = s.core n) ∧ { u.core n with l1 := (s.core n).l1 } = s.core n

/-- Byte b of the local area of a workgroup. -/
def State.lbyte (s : State) (wid b : Nat) : List Byte := s.lread wid b 1

/-- The area and the offset in it that n bytes at a local address reach. -/
def Ix.areaAt (x : Ix) (ea n : Nat) : Nat × Nat :=
  match x.reach ea n with
  | .area wid off => (wid, off)
  | _ => (0, 0)

/-- Local accesses that go through: each is aligned and reaches an area (R188, R189, R201). -/
def Ix.reaches (x : Ix) (as : List Acc1) : Prop :=
  ∀ a ∈ as, a.2.1 % a.2.2 = 0 ∧ ∃ wid off, x.reach a.2.1 a.2.2 = .area wid off

/-! ### The matrix engine's queue (R249, R251) -/

/-- The machine `u` after an instruction took its place in the queue, with what it read at issue and what its warp waits for. -/
def Ix.inQueue (x : Ix) (u : State) (prm : List Nat) (ten : List Tensor) (vs : Tab Word) (v n : Nat) (mem flags : Bool) : State :=
  { (u.modWarp x.c.wid x.c.warp fun w => { w with await := w.await ++ [⟨u.count, v, n, mem, flags⟩] }).modCore x.g.core fun k =>
      { k with engq := k.engq ++
          [⟨u.count, x.c.wid, x.c.warp, x.i, x.w.live, prm.map (BitVec.ofNat 64), ten, vs, x.w.frm⟩] } with count := u.count + 1 }

/-- An instruction that the engine of a core executes next: no sequencer step and no step of an `AQRED` before it (R249, R285). -/
def State.atHead (s : State) (core : Nat) (j : EngJob) : Prop :=
  (s.core core).engq.head? = some j ∧ ((s.core core).engTurn = false ∨ s.seqHead core = none) ∧ s.aqReady core = false

/-- The engine executes an instruction, which makes the machine `u`; it leaves the queue and its warp waits for it no more. Where it
accessed memory, no later spec read of the warp comes before it (R340, R344). -/
def Executes (s : State) (core : Nat) (j : EngJob) (u : State) : Prop :=
  exec (.engineComplete core) s =
    .next ((u.modCore core fun k => { k with engq := (s.core core).engq.tail, engTurn := true }).modWarp j.wid j.warp fun w =>
      { w with
        await := w.await.filter fun a => a.id != j.id
        floor := if w.await.any fun a => a.id == j.id && a.mem then u.past.length else w.floor })

end Sys2Proof.Machine
end

