-- ==== Sys2Proof/Certificates/Slice0/Obligations.lean ====
section
/-! DEFINITION. What is claimed of the model: for each family of the opcode table what its instructions and events do and leave
alone, and the rules that hold of every instruction. `Gives`, `Leaves`, `Makes`, `Waits` and `issuing` are in Safety.lean. -/

open Sys2Proof Sys2Proof.Machine

/-! ### The machine as a whole -/

/-- O: 07 R181 (the default carve), 19 R466 (FNOW 170, performance mode, no cap), 19 R459 (`ENERGY` and the termination index
0), 16 R403, R405, R406 (`THR` 891, `RTEN` 1, lanes dark); a core, die, spire base or package that nothing has touched reads
so, and nothing is resident. That `NOTE` is 0 is the model's choice (log entry 3), as is every field of reset that is not
named here. Every byte of every memory reads 0 (log entry 2: the model's choice for the device's and the host's memory). -/
def Obligations.ResetLeaves : Prop :=
  ((∀ c, (State.reset.core c).carve = ⟨4, 8, 4, 0⟩ ∧ (State.reset.core c).l1 = [] ∧
    ∀ p, ((State.reset.core c).port p).latch = []) ∧
  (∀ d, (State.reset.die d).fnow = 170 ∧ (State.reset.die d).eff = false ∧ (State.reset.die d).cap = 0 ∧
    (State.reset.die d).energy = 0 ∧ (State.reset.die d).termIdx = 0 ∧ (State.reset.die d).clocks = 0 ∧
    (State.reset.die d).pend = []) ∧
  (∀ p, (State.reset.pkg p).thr = 891 ∧ (State.reset.pkg p).en = false ∧ (State.reset.pkg p).rten = true ∧
    (State.reset.pkg p).err = 0 ∧ (State.reset.pkg p).key = none ∧ (State.reset.pkg p).note = 0) ∧
  State.reset.wgs = [] ∧ State.reset.cur = none ∧ State.reset.memWf = true ∧ State.reset.podOk = true ∧
  State.reset.stashOk = true) ∧
  (∀ a, memGet State.reset.mem a = 0 ∧ memGet State.reset.hostMem a = 0)

/-- O: 04 R84, R86, R78, 03 R56, R68, 95: when the first turn is a port's, the port is free, the warp it takes first has an
entry whose word is fetched and nothing comes before the word's checks, the step runs the instruction that the word decodes
to, with the entry as the issue in progress; what `exec` answers is the step's answer, once the warps that were ready too are
marked so and the turn's time has passed. When the first turn is another agent's, the step is that event. The queue of turns
is the model's choice (log entry 1); that a turn carries the time that passes after it is log entry 8, how ready warps are
marked log entry 26, the precedence of port 0 log entry 91. -/
def Obligations.StepRunsDecoded : Prop :=
  (∀ (s u : State) (dt core p : Nat) (ts : List Turn) (c : Cand) (cs : List Cand) (w : Warp) (k : Kernel) (e : Entry)
    (x : BitVec 96) (i : Instr),
    s.turns = ⟨dt, .port core p⟩ :: ts →
    core < 768 * s.nPkg →
    ((s.core core).port (p % 2)).busy ≤ s.clocksAt core →
    ¬(p % 2 = 0 ∧ (s.core core).port1.after = s.clocksAt core + 1) →
    (s.die (dieOf core)).up = true →
    let s1 : State := { s with turns := ts, tick := s.tick + 1, cur := none }
    orderCands ((s1.core core).port (p % 2)).slot (s1.cands core (p % 2)) = c :: cs →
    s1.warp? c.wid c.warp = some w →
    look s1.kernels (c.wid / 2 ^ 48) = some k →
    w.choice = some e →
    let s2 := s1.clearOver core w.port c.wid c.warp
    s2.fetchWord core k.ctx w.walked e.pc = .word x →
    earlyTrap w e.mask = none →
    decode w.wcode x = .ok i →
    exec i { s2 with cur := some ⟨c.wid, c.warp, e.pc, e.prio, e.mask, x, true⟩ } = .next u →
    u.cur = none →
    step s = .next ((u.markReady core (p % 2) (cs.filter fun d => (s1.tried core d).isSome)).elapse dt)) ∧
  (∀ (s u : State) (dt : Nat) (ts : List Turn) (i : Instr),
    s.turns = ⟨dt, .event i⟩ :: ts →
    exec i { s with turns := ts, tick := s.tick + 1, cur := none } = .next u →
    step s = .next (u.elapse dt))

/-- O: 03 R56, R3, R352: the word at an aligned address whose twelve bytes lie on one page (of 64 KiB or a multiple, R354) of
code that may be executed, in device memory, not in flip and not poisoned, is the number of those bytes, the first lowest; a
program counter that is not a multiple of 4 traps MISALIGNED, before anything is read. The page may be homed on another die
(log entry 21). -/
def Obligations.FetchOfAWord : Prop :=
  (∀ (s : State) (core ctx : Nat) (walked : Tab Walked) (pc : Pc) (pg : Page),
    pc.toNat % 4 = 0 →
    pc.toNat % 65536 + 12 ≤ 65536 →
    pg.frame % 65536 = 0 → pg.size % 65536 = 0 →
    s.xlate core walked ctx pc.toNat = .page pg →
    s.xlate core walked ctx (pc.toNat + 11) = .page pg →
    pg.x = true → pg.cls = 0 → pg.hmem = false →
    s.inFlip (pg.pa pc.toNat) = false →
    s.poisoned (pg.pa pc.toNat) 12 = false →
    s.fetchWord core ctx walked pc = .word (wordOfBytes (memRead s.mem (pg.pa pc.toNat) 12))) ∧
  (∀ (s : State) (core ctx : Nat) (walked : Tab Walked) (pc : Pc),
    pc.toNat % 4 ≠ 0 → s.fetchWord core ctx walked pc = .cause 0x33)

/-- O: 01 R18, 07 R190: the form that the model gives its memories (log entry 2), the pod's size and the whole lines of every
stash window: every step keeps them. -/
def Obligations.StepKeepsForm : Prop :=
  ∀ s t, s.memWf = true → s.podOk = true → s.stashOk = true → step s = .next t →
    t.memWf = true ∧ t.podOk = true ∧ t.stashOk = true

/-! ### Words -/

/-- O: words written out bit by bit in the spec's own examples (03, 04, 07, 09, 10, 12, 15, 17) decode to the instructions
that they stand for: `@!p2 FADD.cap1 v10, v4, v5`, `@p1 BRA`, `LDG.die.acq`, `STL.quad.rel`, `MMA.bf16`, `GATH`, `KACC`,
`RADD`, `HBAR` and `TRAP #3`. -/
def Obligations.ExampleWords : Prop :=
  decodeTableWord 96 0x00000062000400A0100528C0 =
    some (.fadd ⟨true, 2, false, true, 1, false, 2⟩ .rne .f32 false (.v 10) (.v 4) (.v 5)) ∧
  decodeTableWord 96 0x000002002800000000000401 = some (.bra { bareHd with gp := 1 } 0x28 2) ∧
  decodeTableWord 96 0x000040000C0000C410041D42 =
    some (.ldg bareHd ⟨.die, .acq, .ord⟩ .i32 (.v 8) (.s 4) (.v 6) 0x40) ∧
  decodeTableWord 96 0x000080001300E00008049D41 =
    some (.stl bareHd ⟨.quad, .rel, .ord⟩ .i32 (.v 9) (.v 2) (.imm 0) 0x80) ∧
  decodeTableWord 96 0x000000000007803002811E04 = some (.mma bareHd false 0 0 .bf16 (.a 2) (.t 0) (.t 1)) ∧
  decodeTableWord 96 0x005109000000008423819DC1 =
    some (.gath bareHd false true 2 none (.imm 3) (.s 8) (.v 4) (.s 9)) ∧
  decodeTableWord 96 0x00000000000000C010001E85 = some (.kacc bareHd .i32 (.v 4) (.v 6)) ∧
  decodeTableWord 96 0x000040000002E00410031F40 = some (.radd bareHd false .i64 (.v 6) (.s 4) (.imm 0) 0x40) ∧
  decodeTableWord 96 0x000003000400000418829F80 = some (.hbar bareHd ⟨.die, .rlx, .ord⟩ (.s 5) (.s 6) 3) ∧
  decodeTableWord 96 0x000003000000000000001FC0 = some (.trap bareHd 3)

/-- O: 03 R55, R59, R63-R67, R69: the word of every well-formed instruction decodes, in a warp of its width, to that
instruction with every operand and modifier as it was. -/
def Obligations.DecodeOfEncode : Prop :=
  ∀ (wc : Nat) (i : Instr), WellFormed wc i = true → ∃ w, encode i = some w ∧ decode wc w = .ok i

/-- O: 03 R68: a word of an assigned opcode is refused with the first of the checks of steps 2 to 6 that it fails, whatever
else is wrong with it. -/
def Obligations.DecodeRefusesInOrder : Prop :=
  ∀ wc w o, Op.ofCode (opcodeOf w) = some o →
    let f := Fields.unpack o w
    let sh := shape f
    (rsvBad f sh = true → decode wc w = .error .rsv) ∧
    (rsvBad f sh = false → guardBad f sh = true → decode wc w = .error .guard) ∧
    (rsvBad f sh = false → guardBad f sh = false → clsBad f sh = true → decode wc w = .error .cls) ∧
    (rsvBad f sh = false → guardBad f sh = false → clsBad f sh = false → typeBad wc f sh = true → decode wc w = .error .type) ∧
    (rsvBad f sh = false → guardBad f sh = false → clsBad f sh = false → typeBad wc f sh = false → modBad wc f sh = true →
      decode wc w = .error .mod) ∧
    (∀ i, decode wc w = .ok i → checkWord wc f = none)

/-- O: 03 R70: exactly 847 of the 1,024 opcode values are not assigned, those after the end of each group's list; a word of
one of them is no other instruction, and it traps with ILL_OP on the bundle's lanes when nothing comes before it (R436). -/
def Obligations.UnassignedOpcodesTrap : Prop :=
  ((List.range 1024).filter fun n => (Op.ofCode (BitVec.ofNat 10 n)).isNone).length = 847 ∧
  (∀ g < 16, ∃ n ≤ 64, ∀ i < 64, (Op.ofCode (BitVec.ofNat 10 (64 * g + i))).isSome = decide (i < n)) ∧
  (∀ wc w, Op.ofCode (opcodeOf w) = none → decode wc w = .ok (.unassignedOpcode w)) ∧
  (∀ (w : BitVec 96) (s : State) (c : Cur) (p : Warp),
    s.cur = some c → s.warp? c.wid c.warp = some p → earlyTrap p c.bundle = none →
    (s.storingOf c.wid c.warp = false → exec (.unassignedOpcode w) s = .next (s.takeTrap c ⟨0x00, c.bundle, none, none, none⟩)) ∧
    (s.storingOf c.wid c.warp = true → exec (.unassignedOpcode w) s = .next { s with cur := some { c with ready := false } }))

/-! ### Threads and issue -/

/-- O: 04 R82-R84, R88: the frontier of a warp is ranked by strictly falling pair (higher priority first, then lower program
counter), so no two entries hold one pair, over every issue, and has at most 32 entries after it; an issue moves no thread
but its bundle's and those that a mask releases. With no entry of counter 255 the warp issues its highest-ranked entry; else
one of counter 255, of which no other reached 255 earlier. An issue adds 1 to the counter, saturating at 255, of every entry
that it takes no thread from, and leaves it where it is, when no thread joins it and none need park. -/
def Obligations.FrontierIsKept : Prop :=
  (∀ (w : Warp) (bundle : Mask) (ms : List Move),
    (w.front.Pairwise fun a b => pairBefore a.prio a.pc b.prio b.pc = true) →
    (w.afterIssue bundle ms).front.length ≤ 32 ∧
    (w.afterIssue bundle ms).front.Pairwise fun a b => pairBefore a.prio a.pc b.prio b.pc = true) ∧
  (∀ (w : Warp) (bundle : Mask) (ms : List Move) (l : Nat) (pr : BitVec 8) (pc : Pc),
    bundle.getLsbD l = false → w.stands l pr pc → (w.afterIssue bundle ms).stands l pr pc) ∧
  ((∀ (w : Warp),
    ((∀ e ∈ w.front, e.age < 255) → w.choice = w.front.head?) ∧
    (∀ e, e ∈ w.front → 255 ≤ e.age →
      ∃ f ∈ w.front, w.choice = some f ∧ 255 ≤ f.age ∧ ∀ g ∈ w.front, 255 ≤ g.age → f.full ≤ g.full)) ∧
  (∀ (w : Warp) (bundle : Mask) (ms : List Move) (e : Entry), w.blocked = [] → w.parked = [] →
    w.front.length + ms.length ≤ 32 → (∀ m ∈ ms, ¬(m.prio = e.prio ∧ m.pc = e.pc)) →
    e ∈ w.front → e.mask &&& bundle = 0 → e.mask ≠ 0 →
    ∃ f ∈ (w.afterIssue bundle ms).front,
      f.prio = e.prio ∧ f.pc = e.pc ∧ f.mask = e.mask ∧ f.age = (if 255 ≤ e.age then e.age else e.age + 1)))

/-! ### Causes that come first (18 R436, 03 R68) -/

/-- O: 18 R436, 03 R68, 04 R84: what comes before an instruction's own effect. Outside handler mode a pending deferred cause,
with its physical address and tag, then DBG_STEP of a single-stepped warp; then steps 7 to 10 of R68: PRIV (`TRET` and `TRDC`
outside handler mode), PARTIAL_MASK (a warp-wide instruction whose bundle is not every live thread, R58), REG_RANGE (R119),
STALE_LATCH (R129), naming the bundle; then an instruction that an engine still owes a register, an access or flags is not
ready, and nothing happens but that the port finds it so. A cause is taken once the warp's older engine stores are made
(R437, R251): until then the instruction is not ready. -/
def Obligations.IssueChecksInOrder : Prop :=
  (∀ (i : Instr) (s : State) (x : Ix), Ix.of s i = some x → x.w.hmode = false →
    (∀ d ds, x.w.dfr = d :: ds → Traps i x ⟨d.cause, x.c.bundle, some (BitVec.ofNat 64 d.pa), none, some d.tag⟩) ∧
    (x.w.dfr = [] → x.w.step = true → x.w.stepDue = true → Traps i x ⟨0x0B, x.c.bundle, none, none, none⟩)) ∧
  (∀ (i : Instr) (s : State) (x : Ix), Ix.of s i = some x → earlyTrap x.w x.c.bundle = none →
    let taken (c : BitVec 7) : Prop := Traps i x ⟨c, x.c.bundle, none, none, none⟩
    let sh := shape x.f
    let priv := (x.f.op = .tret ∨ x.f.op = .trdc) ∧ x.w.hmode = false
    let part := sh.warpWide = true ∧ x.c.bundle ≠ x.w.live
    let range := ∃ p ∈ vSpans x.f sh, x.kr.rc.regs + x.w.x < p.1 + p.2
    let stale := latchBad x.latch (sh.pair.getLsbD 1) x.f.a = true ∨ latchBad x.latch (sh.pair.getLsbD 2) x.f.b = true ∨
      (usesC sh = true ∧ latchBad x.latch (sh.pair.getLsbD 3) x.f.c = true)
    (priv → taken 0x08) ∧ (¬priv → part → taken 0x07) ∧ (¬priv → ¬part → range → taken 0x10) ∧
      (¬priv → ¬part → ¬range → stale → taken 0x06)) ∧
  (∀ (i : Instr) (s : State) (x : Ix), Ix.of s i = some x → earlyTrap x.w x.c.bundle = none → dynTrap x = none →
    scoreHeld x = true → exec i s = .next { s with cur := some { x.c with ready := false } })

/-! ### Taking a trap and returning (18 R437-R441, R453) -/

/-- O: 18 R438, R439, R440: outside handler mode, with a handler, a trap enters it. The warp is in handler mode with `TFADDR`
its frame's address; every live thread stands in one entry at the handler address with priority 0 and counter 0, none is
parked or blocked, and what it waited in or slept for is over (R112); v, s and p registers, masks, `FRM`, `FLG`, `FTE`, the
random stream and the live threads are as they were, and no other warp's anything. The frame holds `CAUSE` and `DEF`, `INFO`,
`PC`, `FADDR`, `TAG`, `LANES`, `BNDL`, `LIVE` and `INSN`, the pair and state of every lane, and zeros in the handler's
scratch; no other byte of the local area changes. That it waits for the engine is log entry 67, as is
that the frame is written at once, and that the acts and logged events which a keyed instruction has made stay made log entry
80. -/
def Obligations.TrapEntersHandler : Prop :=
  (∀ (s : State) (c : Cur) (t : Trap) (g : Wg) (w : Warp) (k : Kernel),
    look s.wgs c.wid = some g → look g.warps c.warp = some w → look s.kernels (c.wid / 2 ^ 48) = some k →
    g.st ≠ .ending → w.hmode = false → k.rc.handler ≠ 0 →
    ∃ v h, (s.takeTrap c t).warp? c.wid c.warp = some v ∧
      v.hmode = true ∧ v.tfaddr = BitVec.ofNat 32 ((k.rc.loc + 1023) / 1024 * 1024 + 2048 * c.warp) ∧
      v.front = [⟨0, k.rc.handler, w.live, 0, 0⟩] ∧ v.parked = [] ∧ v.blocked = [] ∧
      v.v = w.v ∧ v.s = w.s ∧ v.p = w.p ∧ v.k = w.k ∧ v.frm = w.frm ∧ v.flg = w.flg ∧ v.fte = w.fte ∧
      v.rkey = w.rkey ∧ v.rctr = w.rctr ∧ v.live = w.live ∧ v.hold = none ∧ v.sleepUntil = 0 ∧
      v.dfr = (if t.tag.isSome then w.dfr.drop 1 else w.dfr) ∧
      v.keyKept = (if w.keyMade = 0 then w.keyKept else some (c.pc, c.bundle, w.keyMade)) ∧
      (s.takeTrap c t).cur = none ∧
      look (s.takeTrap c t).wgs c.wid = some h ∧
      (∀ j, j ≠ c.warp → look h.warps j = look g.warps j) ∧
      (∀ n, n ≠ c.wid → look (s.takeTrap c t).wgs n = look s.wgs n) ∧
      ((s.takeTrap c t).core g.core).port w.port = { (s.core g.core).port w.port with
        last := some (c.wid, c.warp, c.bundle), slot := w.ctx0 / 32, latch := [], after := s.clocksAt g.core + 1 } ∧
      (∀ a, memGet (s.takeTrap c t).mem a = memGet s.mem a ∧ memGet (s.takeTrap c t).hostMem a = memGet s.hostMem a)) ∧
  (∀ (s : State) (c : Cur) (t : Trap) (g : Wg) (w : Warp) (k : Kernel) (fa : BitVec 64),
    look s.wgs c.wid = some g → look g.warps c.warp = some w → look s.kernels (c.wid / 2 ^ 48) = some k →
    g.st ≠ .ending → w.hmode = false → k.rc.handler ≠ 0 → Memory.wf g.mem = true → t.faddr = some fa →
    let at_ := (k.rc.loc + 1023) / 1024 * 1024 + 2048 * c.warp
    ∃ h, look (s.takeTrap c t).wgs c.wid = some h ∧
      memNat h.mem at_ 4 = t.cause.toNat + (if t.tag.isSome then 2 ^ 31 else 0) ∧
      (t.info = none → w.lost < 2 ^ 32 → memNat h.mem (at_ + 4) 4 = w.lost) ∧
      (∀ n, t.info = some n → memNat h.mem (at_ + 4) 4 = n.toNat) ∧
      memNat h.mem (at_ + 8) 8 = c.pc.toNat ∧
      memNat h.mem (at_ + 0x10) 8 = fa.toNat ∧
      memNat h.mem (at_ + 0x18) 8 = (t.tag.getD 0).toNat ∧
      memNat h.mem (at_ + 0x20) 16 = t.lanes.toNat ∧
      memNat h.mem (at_ + 0x30) 16 = c.bundle.toNat ∧
      memNat h.mem (at_ + 0x40) 16 = w.live.toNat ∧
      memNat h.mem (at_ + 0x50) 12 = c.insn.toNat ∧
      (∀ l, l < 128 →
        memNat h.mem (at_ + 0x80 + 8 * l) 8 = (w.laneRec l).prio.toNat * 2 ^ 56 + (w.laneRec l).pc.toNat ∧
        memNat h.mem (at_ + 0x480 + 4 * l) 1 = (w.laneRec l).st) ∧
      (∀ a, 0x680 ≤ a → a < 0x800 → memGet h.mem (at_ + a) = 0) ∧
      (∀ a, a < at_ ∨ at_ + 0x800 ≤ a → memGet h.mem a = memGet g.mem a))

/-- O: 18 R441, R480, 19 R462: a cause met in handler mode, or without a handler, ends the workgroup: its warps stop, the
kernel is marked, the die keeps a record with the code (NESTED, NO_HANDLER) and the cause met, and the host is notified.
Nothing that the workgroup stored is undone. -/
def Obligations.TrapEndsWorkgroup : Prop :=
  ∀ (s : State) (c : Cur) (t : Trap) (g : Wg) (w : Warp) (k : Kernel) (fa : BitVec 64),
    look s.wgs c.wid = some g → look g.warps c.warp = some w → look s.kernels (c.wid / 2 ^ 48) = some k →
    look s.kernels g.inst = some k → g.st ≠ .ending → w.hmode = true ∨ k.rc.handler = 0 → t.faddr = some fa →
    let u := s.takeTrap c t
    let d := dieOf g.core
    let code : BitVec 7 := if w.hmode then 0x0E else 0x0F
    ∃ h, look u.wgs c.wid = some h ∧ h.st = .ending ∧ h.killed = true ∧ h.mem = g.mem ∧
      u.mem = s.mem ∧ u.hostMem = s.hostMem ∧
      (∃ q, look u.kernels g.inst = some q ∧ q.faulted = true) ∧
      (u.die d).termIdx = (s.die d).termIdx + 1 ∧
      look (u.die d).term ((s.die d).termIdx % 16) = some (termRecord g.inst g.g c.warp code (some t) c.pc fa) ∧
      (u.pkg (pkgOfDie d)).note.getLsbD 0 = true

/-- O: 18 R452, R453, 05 R129: `TRAP #n` meets its cause, code 0x70 + n, on the lanes with a true guard, with faulting
address 0; with none it only advances. In handler mode, with no lane's record refused, `TRET` completes: the warp leaves
handler mode, `TFADDR` is zero, memory is as it was, and so are its v, s and p registers but for the results of waits that
ended meanwhile; the port's latches are clear, and every live lane whose record in the frame is of state 1 or 2 stands at the
pair that the record gives. With a lane refused, the workgroup meets TRET_FRAME on those lanes. -/
def Obligations.TrapAndReturn : Prop :=
  (∀ (h : Hd) (n : BitVec 4) (s : State) (x : Ix), issuing s (.trap h n) = some x →
    (x.on ≠ 0 → Traps (.trap h n) x ⟨0x70 + n.setWidth 7, x.on, some 0, none, none⟩) ∧
    (x.on = 0 → Leaves (.trap h n) x x.w)) ∧
  (∀ (h : Hd) (s : State) (x : Ix), issuing s (.tret h) = some x → x.w.hmode = true → x.on ≠ 0 →
    (x.w.refusedLanes x.g.mem = [] →
      ∃ t v g, exec (.tret h) s = .next t ∧ t.cur = none ∧ t.warp? x.c.wid x.c.warp = some v ∧
        look t.wgs x.c.wid = some g ∧ g.mem = x.g.mem ∧ t.mem = s.mem ∧ t.hostMem = s.hostMem ∧
        v.hmode = false ∧ v.tfaddr = 0 ∧ v.hold = none ∧ v.live = x.w.live ∧
        (x.w.kept = [] → v.v = x.w.v ∧ v.s = x.w.s ∧ v.p = x.w.p) ∧ v.frm = x.w.frm ∧ v.flg = x.w.flg ∧ v.fte = x.w.fte ∧
        ((t.core x.g.core).port x.w.port).latch = [] ∧
        (∀ l, l ∈ lanesOf x.w.live → (look x.w.entry l).isSome = true →
          (frameLane x.g.mem x.w.tfaddr.toNat l).st = 1 ∨ (frameLane x.g.mem x.w.tfaddr.toNat l).st = 2 →
          v.stands l (frameLane x.g.mem x.w.tfaddr.toNat l).prio (frameLane x.g.mem x.w.tfaddr.toNat l).pc)) ∧
    (∀ l ls, x.w.refusedLanes x.g.mem = l :: ls →
      Traps (.tret h) x ⟨0x0D, maskOf (l :: ls), none, none, none⟩))

/-! ### The INT group (05 R133-R140) -/

/-- O: 05 R134-R140: sums, differences, products, minima, maxima, absolute values, negations and quotients of each element,
exact and then wrapped or clamped, bitwise operations, truth tables, shifts, rotations, counts, bit fields, comparisons,
selection and address arithmetic go to the destination in the lanes with a true guard; no flag, no memory and no other
register changes. ADDC and SUBB write the wrapped sum or difference, and a named carry predicate whether it leaves the range
(with an s destination that of the one value computed, log entry 24; which lane's predicate serves `ISEL` there, log entry 83:
the model's choices). -/
def Obligations.IntInstructionsWrite : Prop :=
  (∀ (h : Hd) (ty : Ty) (sat : Bool) (d a b c : Opnd),
    Gives (.iadd h ty sat d a b) d ty.wide (fun x l => elems2 ty sat (· + ·) (x.rd ty a l) (x.rd ty b l)) ∧
    Gives (.isub h ty sat d a b) d ty.wide (fun x l => elems2 ty sat (· - ·) (x.rd ty a l) (x.rd ty b l)) ∧
    Gives (.imul h ty sat d a b) d ty.wide (fun x l => elems2 ty sat (· * ·) (x.rd ty a l) (x.rd ty b l)) ∧
    Gives (.imulh h ty d a b) d ty.wide (fun x l => mulHigh ty (x.rd ty a l) (x.rd ty b l)) ∧
    Gives (.imad h ty sat d a b c) d ty.wide (fun x l => mulAdd ty sat (x.rd ty a l) (x.rd ty b l) (x.rd ty c l)) ∧
    Gives (.imadw h ty d a b c) d true (fun x l => mulAddWide ty (x.rd ty a l) (x.rd ty b l) (x.rd64 c l)) ∧
    Gives (.idiv h ty sat d a b) d ty.wide (fun x l => quot ty sat (x.rd ty a l) (x.rd ty b l)) ∧
    Gives (.irem h ty d a b) d ty.wide (fun x l => Sys2Proof.Machine.rem ty (x.rd ty a l) (x.rd ty b l)) ∧
    Gives (.imin h ty d a b) d ty.wide (fun x l => elems2 ty false min (x.rd ty a l) (x.rd ty b l)) ∧
    Gives (.imax h ty d a b) d ty.wide (fun x l => elems2 ty false max (x.rd ty a l) (x.rd ty b l)) ∧
    Gives (.iabs h ty sat d a) d ty.wide (fun x l => elems2 ty sat (fun i _ => (i.natAbs : Int)) (x.rd ty a l) 0) ∧
    Gives (.ineg h ty sat d a) d ty.wide (fun x l => elems2 ty sat (fun i _ => -i) (x.rd ty a l) 0)) ∧
  (∀ (h : Hd) (tt : BitVec 8) (cmp : ICmp) (sh : BitVec 3) (ty : Ty) (d a b c : Opnd),
    Gives (.and h ty d a b) d ty.wide (fun x l => x.rd ty a l &&& x.rd ty b l) ∧
    Gives (.or h ty d a b) d ty.wide (fun x l => x.rd ty a l ||| x.rd ty b l) ∧
    Gives (.xor h ty d a b) d ty.wide (fun x l => x.rd ty a l ^^^ x.rd ty b l) ∧
    Gives (.not h ty d a) d ty.wide (fun x l => notBits ty.ew (x.rd ty a l)) ∧
    Gives (.bool3 h tt ty d a b c) d ty.wide (fun x l => table3 ty.ew tt (x.rd ty a l) (x.rd ty b l) (x.rd ty c l)) ∧
    Gives (.plop h tt d a b c) d false (fun x l => table3 1 tt (x.rd32 a l) (x.rd32 b l) (x.rd32 c l)) ∧
    Gives (.shl h ty d a b) d ty.wide (fun x l => shlBits ty.ew (x.rd ty a l) (x.rd32 b l)) ∧
    Gives (.shr h ty d a b) d ty.wide (fun x l => shrBits ty.ew (x.rd ty a l) (x.rd32 b l)) ∧
    Gives (.sar h ty d a b) d ty.wide (fun x l => sarBits ty.ew (x.rd ty a l) (x.rd32 b l)) ∧
    Gives (.rot h ty d a b) d ty.wide (fun x l => rotBits ty.ew (x.rd ty a l) (x.rd32 b l)) ∧
    Gives (.popc h ty d a) d false (fun x l => popcount ty.ew (x.rd ty a l)) ∧
    Gives (.clz h ty d a) d false (fun x l => clzBits ty.ew (x.rd ty a l)) ∧
    Gives (.ctz h ty d a) d false (fun x l => ctzBits ty.ew (x.rd ty a l)) ∧
    Gives (.brev h ty d a) d ty.wide (fun x l => brevBits ty.ew (x.rd ty a l)) ∧
    Gives (.bfe h ty d a b) d ty.wide (fun x l => bfeBits ty (x.rd ty a l) (x.rd32 b l)) ∧
    Gives (.bfi h ty d a b c) d ty.wide (fun x l => bfiBits ty.ew (x.rd ty a l) (x.rd32 b l) (x.rd ty c l)) ∧
    Gives (.iset h cmp ty d a b) d false
      (fun x l => if icmpHolds cmp (ty.elemInt (x.rd ty a l) 0) (ty.elemInt (x.rd ty b l) 0) then 1 else 0) ∧
    Gives (.isel h ty d a b c) d ty.wide (fun x l => if x.pred c l then x.rd ty a l else x.rd ty b l) ∧
    Gives (.lea h sh ty d a b) d true (fun x l => leaBits ty sh.toNat (x.rd64 a l) (x.rd32 b l))) ∧
  (∀ (h : Hd) (cp : BitVec 3) (ty : Ty) (d a b c : Opnd) (s : State) (x : Ix), (∀ n, d ≠ .p n) →
    let sum (l : Nat) : Nat := x.rd ty a l + x.rd ty b l + (if x.pred c l then 1 else 0)
    let diff (l : Nat) : Int := (x.rd ty a l : Int) - x.rd ty b l - (if x.pred c l then 1 else 0)
    let at_ (l : Nat) : Nat := if d.isS then firstOf x.lanes else l
    (issuing s (.addc h cp ty d a b c) = some x →
      ∃ q : Mask, (∀ l, x.on.getLsbD l = true → (q.getLsbD l = true ↔ 2 ^ ty.ew ≤ sum (at_ l))) ∧
        Writes (.addc h cp ty d a b c) x (if cp = 0 then x.w else x.w.pset (cp.toNat - 1) x.on q) d ty.wide
          (fun l => sum l % 2 ^ ty.ew)) ∧
    (issuing s (.subb h cp ty d a b c) = some x →
      ∃ q : Mask, (∀ l, x.on.getLsbD l = true → (q.getLsbD l = true ↔ diff (at_ l) < 0)) ∧
        Writes (.subb h cp ty d a b c) x (if cp = 0 then x.w else x.w.pset (cp.toNat - 1) x.on q) d ty.wide
          (fun l => (diff l % (2 ^ ty.ew : Nat)).toNat)))

/-- O: 02 R26-R28, 05 R134-R139: on 32-bit and 64-bit types results are those of two's complement, wrapped or clamped;
packed elements are computed each on its own; division is toward zero, by zero all ones and the dividend, the most negative
number by -1 itself, or the largest with `.sat`, and remainder 0. A product and sum is exact before it is narrowed, or added
to 64 bits. Shifts by less than the width and by the width or more, rotation, counts and reversal agree with those of 32-bit
words; a three-input truth table takes its bit for each position; a bit field is taken, with its top bit extended in a signed
type, or put in place, bit by bit; the comparisons are those of the integers; LEA adds the shifted index to the 64-bit base.
-/
def Obligations.IntValues : Prop :=
  (((∀ (a b : BitVec 32),
    elems2 .n32 false (· + ·) a.toNat b.toNat = (a + b).toNat ∧ elems2 .i32 false (· + ·) a.toNat b.toNat = (a + b).toNat ∧
    elems2 .n32 false (· - ·) a.toNat b.toNat = (a - b).toNat ∧ elems2 .i32 false (· - ·) a.toNat b.toNat = (a - b).toNat ∧
    elems2 .n32 false (· * ·) a.toNat b.toNat = (a * b).toNat ∧ elems2 .i32 false (· * ·) a.toNat b.toNat = (a * b).toNat ∧
    elems2 .i32 true (· + ·) a.toNat b.toNat =
      (BitVec.ofInt 32 (max (-2147483648) (min 2147483647 (a.toInt + b.toInt)))).toNat ∧
    elems2 .n32 true (· - ·) a.toNat b.toNat = a.toNat - b.toNat ∧
    elems2 .n32 true (· + ·) a.toNat b.toNat = min 4294967295 (a.toNat + b.toNat) ∧
    mulHigh .n32 a.toNat b.toNat = a.toNat * b.toNat / 2 ^ 32 ∧
    mulHigh .i32 a.toNat b.toNat = (BitVec.ofInt 32 (a.toInt * b.toInt / 2 ^ 32)).toNat) ∧
  (∀ (a b : BitVec 64),
    elems2 .n64 false (· + ·) a.toNat b.toNat = (a + b).toNat ∧ elems2 .i64 false (· - ·) a.toNat b.toNat = (a - b).toNat ∧
    elems2 .i64 false (· * ·) a.toNat b.toNat = (a * b).toNat)) ∧
  (∀ (ty : Ty) (sat : Bool) (f : Int → Int → Int) (a b e : Nat), e < ty.elems →
    elemOf ty.ew (elems2 ty sat f a b) e = narrow ty sat (f (ty.elemInt a e) (ty.elemInt b e))) ∧
  (∀ (a b : BitVec 32) (sat : Bool),
    (b = 0 → quot .i32 sat a.toNat b.toNat = 0xFFFFFFFF ∧ Sys2Proof.Machine.rem .i32 a.toNat b.toNat = a.toNat ∧
      quot .n32 sat a.toNat b.toNat = 0xFFFFFFFF ∧ Sys2Proof.Machine.rem .n32 a.toNat b.toNat = a.toNat) ∧
    (b ≠ 0 → quot .n32 sat a.toNat b.toNat = a.toNat / b.toNat ∧
      Sys2Proof.Machine.rem .n32 a.toNat b.toNat = a.toNat % b.toNat) ∧
    (b ≠ 0 → ¬(a.toInt = -2147483648 ∧ b.toInt = -1) →
      quot .i32 sat a.toNat b.toNat = (BitVec.ofInt 32 (a.toInt.tdiv b.toInt)).toNat ∧
      Sys2Proof.Machine.rem .i32 a.toNat b.toNat = (BitVec.ofInt 32 (a.toInt.tmod b.toInt)).toNat) ∧
    (a.toInt = -2147483648 → b.toInt = -1 →
      quot .i32 sat a.toNat b.toNat = (if sat then 0x7FFFFFFF else 0x80000000) ∧
      Sys2Proof.Machine.rem .i32 a.toNat b.toNat = 0))) ∧
  (∀ (a b c : BitVec 32) (n : Nat),
    shlBits 32 a.toNat n = (a <<< n).toNat ∧ shrBits 32 a.toNat n = (a >>> n).toNat ∧
    sarBits 32 a.toNat n = (a.sshiftRight n).toNat ∧ rotBits 32 a.toNat n = (a.rotateLeft n).toNat ∧
    notBits 32 a.toNat = (~~~a).toNat ∧
    popcount 32 a.toNat = ((List.range 32).filter fun i => a.getLsbD i).length ∧
    (∀ i, clzBits 32 a.toNat = i → i < 32 → a.getLsbD (31 - i) = true ∧ ∀ j, 31 - i < j → a.getLsbD j = false) ∧
    (∀ i, ctzBits 32 a.toNat = i → i < 32 → a.getLsbD i = true ∧ ∀ j, j < i → a.getLsbD j = false) ∧
    (a = 0 → clzBits 32 a.toNat = 32 ∧ ctzBits 32 a.toNat = 32) ∧
    (∀ i, i < 32 → (brevBits 32 a.toNat).testBit i = a.getLsbD (31 - i)) ∧
    (∀ (tt : BitVec 8) i, i < 32 → (table3 32 tt a.toNat b.toNat c.toNat).testBit i =
      tt.getLsbD ((if a.getLsbD i then 1 else 0) + (if b.getLsbD i then 2 else 0) + (if c.getLsbD i then 4 else 0)))) ∧
  ((∀ (a b c : BitVec 32),
    mulAdd .n32 false a.toNat b.toNat c.toNat = (a * b + c).toNat ∧ mulAdd .i32 false a.toNat b.toNat c.toNat = (a * b + c).toNat ∧
    mulAdd .n32 true a.toNat b.toNat c.toNat = min 4294967295 (a.toNat * b.toNat + c.toNat) ∧
    mulAdd .i32 true a.toNat b.toNat c.toNat =
      (BitVec.ofInt 32 (max (-2147483648) (min 2147483647 (a.toInt * b.toInt + c.toInt)))).toNat) ∧
  (∀ (a b c : BitVec 64), mulAdd .n64 false a.toNat b.toNat c.toNat = (a * b + c).toNat ∧
    mulAdd .i64 false a.toNat b.toNat c.toNat = (a * b + c).toNat) ∧
  (∀ (a b : BitVec 32) (c : BitVec 64),
    mulAddWide .n32 a.toNat b.toNat c.toNat = (a.setWidth 64 * b.setWidth 64 + c).toNat ∧
    mulAddWide .i32 a.toNat b.toNat c.toNat = (a.signExtend 64 * b.signExtend 64 + c).toNat ∧
    (∀ sh, leaBits .n32 sh c.toNat b.toNat = (c + b.setWidth 64 <<< sh).toNat ∧
      leaBits .i32 sh c.toNat b.toNat = (c + b.signExtend 64 <<< sh).toNat)) ∧
  (∀ (a b c : BitVec 32),
    let pos := (b.extractLsb' 0 8).toNat
    let len := (b.extractLsb' 8 8).toNat
    bfeBits .n32 a.toNat b.toNat < 2 ^ 32 ∧ bfeBits .i32 a.toNat b.toNat < 2 ^ 32 ∧ bfiBits 32 a.toNat b.toNat c.toNat < 2 ^ 32 ∧
    (∀ i, (bfeBits .n32 a.toNat b.toNat).testBit i = (decide (i < len) && a.getLsbD (pos + i))) ∧
    (∀ i, i < 32 → (bfeBits .i32 a.toNat b.toNat).testBit i =
      (decide (0 < len) && a.getLsbD (pos + min i (min len (32 - pos) - 1)))) ∧
    (∀ i, i < 32 → (bfiBits 32 a.toNat b.toNat c.toNat).testBit i =
      if pos ≤ i ∧ i < pos + len then a.getLsbD (i - pos) else c.getLsbD i)) ∧
  (∀ (i j : Int), (icmpHolds .eq i j = true ↔ i = j) ∧ (icmpHolds .ne i j = true ↔ i ≠ j) ∧ (icmpHolds .lt i j = true ↔ i < j) ∧
    (icmpHolds .le i j = true ↔ i ≤ j) ∧ (icmpHolds .gt i j = true ↔ j < i) ∧ (icmpHolds .ge i j = true ↔ j ≤ i)))

/-! ### Operands and the MOV group (03 R57-R61, 05 R116-R151) -/

/-- O: 02 R26, 03 R59, R60, 05 R128: what an operand gives a lane: a v register its own lane, an s register the same in every
lane, a pair its two registers, the even one low; a short immediate its sign-extended value in integer types, an exact number
in floating-point types; a predicate 1 where it is true, p7 always; a latch the value captured for the lane. -/
def Obligations.OperandForms : Prop :=
  ∀ (x : Ix) (n : BitVec 8) (l : Nat),
    x.rd .n32 (.v n) l = (x.w.vget n.toNat l).toNat ∧ x.rd .n32 (.s n) l = (x.w.sget n.toNat).toNat ∧
    x.rd .n64 (.v n) l = (x.w.vget n.toNat l).toNat + 2 ^ 32 * (x.w.vget (n.toNat + 1) l).toNat ∧
    x.rd .n64 (.s n) l = (x.w.sget n.toNat).toNat + 2 ^ 32 * (x.w.sget (n.toNat + 1)).toNat ∧
    x.rd .i32 (.imm n) l = (n.signExtend 32).toNat ∧ x.rd .n64 (.imm n) l = (n.signExtend 64).toNat ∧
    x.rd .i16x2 (.imm n) l = (n.signExtend 16 ++ n.signExtend 16).toNat ∧
    x.rd .f32 (.imm n) l = (cvtVal .f32 .i32 .rne false (n.signExtend 32).toNat).1 ∧
    (x.pred (.p n) l = (x.w.pget n.toNat).getLsbD l) ∧ (l < 128 → (x.w.pget 7).getLsbD l = true) ∧
    (∀ q, look x.latch n.toNat = some q → x.rd .n32 (.b n) l = (lookD q.x l 0).toNat)

/-- O: 05 R142, R143, R145, R148: moves, immediates, half-word replacement, shuffles, broadcasts and packed predicates write
their results in the lanes with a true guard and change nothing else. -/
def Obligations.MovesWrite : Prop :=
  ∀ (h : Hd) (ty : Ty) (d a b : Opnd) (i24 : BitVec 24) (n : BitVec 2) (i16 : BitVec 16) (mode : ShflMode) (seg : BitVec 3)
    (elect : Bool) (k : BitVec 8) (m : BitVec 7),
    Gives (.mov h ty d a) d ty.wide (fun x l => x.rd ty a l) ∧
    Gives (.movi h ty d i24) d ty.wide (fun _ _ => wrapNat ty.ew i24.toInt) ∧
    Gives (.movh h n ty d a i16) d ty.wide (fun x l =>
      x.rd ty a l % 2 ^ (16 * n.toNat) + i16.toNat * 2 ^ (16 * n.toNat) +
        x.rd ty a l / 2 ^ (16 * n.toNat + 16) * 2 ^ (16 * n.toNat + 16)) ∧
    Gives (.shfl h mode seg ty d a b) d ty.wide (fun x l =>
      let S := if seg = 0 then x.w.width else 2 ^ seg.toNat
      let i := l % S
      let c := x.rd32 b l
      x.rd ty a (l - i + (match mode with
        | .from => c % S
        | .rotl => (i + c) % S
        | .xor => (i ^^^ c % S) % S
        | .rev => (S - 1 - i + c) % S))) ∧
    Gives (.bcast h elect ty (.s k) a b) (.s k) ty.wide (fun x _ =>
      x.rd ty a (if elect then firstOf x.lanes else x.u32 b % x.w.width)) ∧
    Gives (.pmov h false m d a) d false (fun x l =>
      (((List.range 7).filter fun i => m.getLsbD i).map fun i => if (x.w.pget i).getLsbD l then 2 ^ i else 0).sum) ∧
    (∀ s x, issuing s (.pmov h true m d a) = some x →
      ∃ u : Warp, u = { x.w with p := u.p } ∧ Leaves (.pmov h true m d a) x u ∧
        ∀ i l, i < 7 → (u.pget i).getLsbD l =
          if m.getLsbD i && x.on.getLsbD l then (x.rd32 a l).testBit i else (x.w.pget i).getLsbD l)

/-- O: 05 R144: votes over the lanes with a true guard: `.all`, `.any` and `.uni` give every such lane the same answer,
`.first` only the lowest of them 1, and `.ballot` writes the mask of those whose predicate is true into the s registers from
d on; with `NWB`, or no lane on, it writes none. A latch that captures a ballot holds its lowest word (log entry 82: the
model's choice). -/
def Obligations.VotesWrite : Prop :=
  ∀ (h : Hd) (d a : Opnd) (n : BitVec 8),
    Gives (.vote h .all d a) d false (fun x _ => if x.on &&& x.w.pget a.idx = x.on then 1 else 0) ∧
    Gives (.vote h .any d a) d false (fun x _ => if x.on &&& x.w.pget a.idx = 0 then 0 else 1) ∧
    Gives (.vote h .uni d a) d false (fun x _ =>
      if x.on &&& x.w.pget a.idx = 0 ∨ x.on &&& x.w.pget a.idx = x.on then 1 else 0) ∧
    Gives (.vote h .first d a) d false (fun x l => if l = firstOf x.lanes then 1 else 0) ∧
    (∀ s x, issuing s (.vote h .ballot (.s n) a) = some x →
      ∃ t w, exec (.vote h .ballot (.s n) a) s = .next t ∧ OnlyWarp x s t w ∧ Settles x.w w ∧ x.advanced w ∧
        w.v = x.w.v ∧ w.p = x.w.p ∧ x.latches (.s n) false (fun _ => ((x.on &&& x.w.pget a.idx).setWidth 32).toNat) t ∧
        ∀ m, w.sget m = if x.f.hd.nwb = false ∧ x.on ≠ 0 ∧ n.toNat ≤ m ∧ m < n.toNat + x.w.width / 32 then
            (x.on &&& x.w.pget a.idx).extractLsb' (32 * (m - n.toNat)) 32 else x.w.sget m)

/-- O: 05 R116, R146, R151, 01 R15, 04 R94: with a lane on, `RDSR` of a number that the table holds writes its value, and
reading `CLKLO` captures the high half of the clock count; of any other number, and `WRSR` of it, traps SR_INDEX with the
number in the frame; with none, neither has an effect. `WRSR` replaces `FRM` and `FTE`, clears the `FLG` bits written as
ones, and changes no read-only register. The table's 21 registers have the values that it gives, `HWID` those of its fields.
-/
def Obligations.SpecialRegisters : Prop :=
  ∀ (h : Hd) (d a : Opnd) (sr : BitVec 12) (s : State) (x : Ix),
    (issuing s (.rdsr h d sr) = some x → x.on ≠ 0 → sr.toNat ≤ 0x14 →
      ∃ f : Nat → Nat, (∀ l, x.special sr.toNat l = some (f l)) ∧
        Writes (.rdsr h d sr) x
          (if sr = 0x00D then { x.w with clkHi := BitVec.ofNat 32 ((s.die (dieOf x.g.core)).clocks / 2 ^ 32) } else x.w) d false f) ∧
    (issuing s (.rdsr h d sr) = some x → x.on ≠ 0 → 0x14 < sr.toNat →
      Traps (.rdsr h d sr) x ⟨0x14, x.on, some (sr.setWidth 64), some (sr.setWidth 32), none⟩) ∧
    (issuing s (.rdsr h d sr) = some x → x.on = 0 → Writes (.rdsr h d sr) x x.w d false (fun _ => 0)) ∧
    (issuing s (.wrsr h a sr) = some x → x.on = 0 → Leaves (.wrsr h a sr) x x.w) ∧
    (issuing s (.wrsr h a sr) = some x → x.on ≠ 0 → sr.toNat ≤ 0x14 →
      Leaves (.wrsr h a sr) x { x.w with
        frm := if sr = 0x00A then BitVec.ofNat 2 (x.u32 a) else x.w.frm
        flg := if sr = 0x00B then x.w.flg &&& ~~~BitVec.ofNat 5 (x.u32 a) else x.w.flg
        fte := if sr = 0x00C then BitVec.ofNat 6 (x.u32 a) else x.w.fte }) ∧
    (issuing s (.wrsr h a sr) = some x → x.on ≠ 0 → 0x14 < sr.toNat →
      Traps (.wrsr h a sr) x ⟨0x14, x.on, some (sr.setWidth 64), some (sr.setWidth 32), none⟩) ∧
    (∀ l,
      x.special 0x000 l = some (pkgOfDie (dieOf x.g.core) * 2 ^ 26 + dieOf x.g.core % 4 * 2 ^ 24 + x.g.core % 192 / 4 * 2 ^ 18 +
        x.g.core % 4 * 2 ^ 16 + (x.w.ctx0 + l) % 2048 * 32) ∧
      x.special 0x003 l = some (x.g.g % 2 ^ 32) ∧ x.special 0x014 l = some (x.g.g / 2 ^ 32 % 2 ^ 16) ∧
      x.special 0x006 l = some (x.kr.rc.gy * 2 ^ 16 + x.kr.rc.gx) ∧ x.special 0x007 l = some x.kr.rc.gz ∧
      x.special 0x008 l = some (x.kr.rc.arg.setWidth 32).toNat ∧ x.special 0x009 l = some (x.kr.rc.arg.toNat / 2 ^ 32) ∧
      x.special 0x00F l = some (x.w.x * 2 ^ 8 + x.kr.rc.regs) ∧
      (let k := (x.s.core x.g.core).carve;
        x.special 0x010 l = some (k.reg * 2 ^ 12 + k.loc * 2 ^ 8 + k.l1 * 2 ^ 4 + k.key)) ∧
      x.special 0x011 l = some (x.kr.rc.sscope * 2 ^ 8 + x.kr.rc.prio * 2 ^ 4 + x.kr.rc.det * 2 ^ 2 + x.kr.rc.wcode) ∧
      x.special 0x001 l = some l ∧ x.special 0x002 l = some x.c.warp ∧
      x.special 0x004 l = some (x.g.g / x.kr.rc.gx % x.kr.rc.gy * 65536 + x.g.g % x.kr.rc.gx) ∧
      x.special 0x005 l = some (x.g.g / x.kr.rc.gx / x.kr.rc.gy) ∧
      x.special 0x00A l = some x.w.frm.toNat ∧ x.special 0x00B l = some x.w.flg.toNat ∧ x.special 0x00C l = some x.w.fte.toNat ∧
      x.special 0x00D l = some ((x.s.die (dieOf x.g.core)).clocks % 2 ^ 32) ∧ x.special 0x00E l = some x.w.clkHi.toNat ∧
      x.special 0x012 l = some (if x.w.hmode then 1 else 0) ∧ x.special 0x013 l = some x.w.tfaddr.toNat)

/-- O: 05 R119-R122, R147: `XACQ` of a size that the kernel declared, by a warp without a block, takes it at once when nobody
queues and it fits, else the warp waits in the core's queue; the head of the queue is granted when it fits. A block granted
reads 0 in every lane and the base registers stay; `XREL` gives it back; `XTRY` writes whether it was granted. -/
def Obligations.ExtendedBlocks : Prop :=
  ∀ (h : Hd) (n : BitVec 24) (d : Opnd) (s : State) (x : Ix),
    let fits := (x.s.core x.g.core).xq = [] ∧ x.kr.rc.units n.toNat ≤ x.s.regFree x.g.core
    let granted (u : Warp) (k : Nat) : Prop := u = { x.w with x := k, v := u.v } ∧
      ∀ m l, l < 128 → u.vget m l = if m < x.kr.rc.regs then x.w.vget m l else 0
    (issuing s (.xacq h n) = some x → x.on ≠ 0 → x.xbad n.toNat = true →
      Traps (.xacq h n) x ⟨0x11, x.on, none, none, none⟩) ∧
    (issuing s (.xacq h n) = some x → x.on ≠ 0 → x.xbad n.toNat = false → fits →
      ∃ u, granted u n.toNat ∧ Leaves (.xacq h n) x u) ∧
    (issuing s (.xacq h n) = some x → x.on ≠ 0 → x.xbad n.toNat = false → ¬fits →
      Waits (.xacq h n) x (s.modCore x.g.core fun c => { c with xq := c.xq ++ [(x.c.wid, x.c.warp, n.toNat)] }) (.xacq n.toNat)) ∧
    (issuing s (.xacq h n) = some x → x.on = 0 → Leaves (.xacq h n) x x.w) ∧
    (issuing s (.xtry h d n) = some x → x.on ≠ 0 → x.xbad n.toNat = true → Traps (.xtry h d n) x ⟨0x11, x.on, none, none, none⟩) ∧
    (issuing s (.xrel h) = some x → x.on ≠ 0 → ∃ u, granted u 0 ∧ Leaves (.xrel h) x u) ∧
    (issuing s (.xtry h d n) = some x → x.on ≠ 0 → x.xbad n.toNat = false →
      (fits → ∃ u, granted u n.toNat ∧ Writes (.xtry h d n) x u d false (fun _ => 1)) ∧
      (¬fits → Writes (.xtry h d n) x x.w d false (fun _ => 0))) ∧
    (∀ core q k m hold, (s.core core).xq = (x.c.wid, x.c.warp, k) :: q → s.held x.c.wid x.c.warp = some (hold, x) →
      hold.wait = .xacq m → x.kr.rc.units k ≤ s.regFree core →
      ∃ u v, granted v k ∧ u.warp? x.c.wid x.c.warp = some v ∧ (u.core core).xq = q ∧
        { u with wgs := x.s.wgs, cores := x.s.cores } = x.s ∧ Resumes (.xacqGrant core) s x u)



/-! ### The FPA and CVT groups (02 R24-R46, 06 R152-R179) -/

/-- O: 06 R157-R159, R163-R166, R48, R49, R154: floating-point results, element by element, in the lanes with a true guard:
flags are or-ed into `FLG`, an enabled condition traps and writes nothing. Sums, differences, products, FFMA and FDOT2 are
the exact result rounded once (by the rounding of `OneRounding`); a quotient, a root, FRCP and FRSQ that of an integer
quotient or root with what is left noted; zeros, infinities and NaNs are as the rules list them; minima rank -0 below +0;
FSCALE and FRND round a * 2^n and to an integer. FEXP2, FLOG2, FSIN and FCOS give their special operands' results, and exact
powers; that their other results are correctly rounded is not claimed. -/
def Obligations.FpArithmeticWrites : Prop :=
  (∀ (h : Hd) (rnd : Rnd) (num ex sat : Bool) (ty : Ty) (d a b c : Opnd),
    let e (x : Ix) (o : Opnd) (l k : Nat) : Machine.Num := fpElem ty (x.rd ty o l) k
    let F : Fmt := ty.ieee.fmt
    GivesFp (.fadd h rnd ty sat d a b) d ty.wide (fun x l => fpEls ty fun k => fpAdd F (x.mode rnd) sat (e x a l k) (e x b l k)) ∧
    GivesFp (.fsub h rnd ty sat d a b) d ty.wide
      (fun x l => fpEls ty fun k => fpSub F (x.mode rnd) sat (e x a l k) (e x b l k)) ∧
    GivesFp (.fmul h rnd ty sat d a b) d ty.wide (fun x l => fpEls ty fun k => fpMul F (x.mode rnd) sat (e x a l k) (e x b l k)) ∧
    GivesFp (.ffma h rnd ty sat d a b c) d ty.wide
      (fun x l => fpEls ty fun k => fpFma F (x.mode rnd) sat (e x a l k) (e x b l k) (e x c l k)) ∧
    GivesFp (.fdiv h rnd ty sat d a b) d ty.wide (fun x l => fpEls ty fun k => fpDiv F (x.mode rnd) sat (e x a l k) (e x b l k)) ∧
    GivesFp (.fsqrt h rnd ty d a) d ty.wide (fun x l => fpEls ty fun k => fpSqrt F (x.mode rnd) (e x a l k)) ∧
    GivesFp (.fmin h num ty d a b) d ty.wide (fun x l => fpEls ty fun k => fpMinMax false num (e x a l k) (e x b l k)) ∧
    GivesFp (.fmax h num ty d a b) d ty.wide (fun x l => fpEls ty fun k => fpMinMax true num (e x a l k) (e x b l k)) ∧
    GivesFp (.frcp h ty sat d a) d ty.wide (fun x l => fpEls ty fun k => fpRcp F sat (e x a l k)) ∧
    GivesFp (.frsq h ty d a) d ty.wide (fun x l => fpEls ty fun k => fpRsq F (e x a l k)) ∧
    GivesFp (.fexp2 h ty sat d a) d ty.wide (fun x l => fpEls ty fun k => fpExp2 F sat (e x a l k)) ∧
    GivesFp (.flog2 h ty d a) d ty.wide (fun x l => fpEls ty fun k => fpLog2 F (e x a l k)) ∧
    GivesFp (.fsin h ty d a) d ty.wide (fun x l => fpEls ty fun k => fpTrig F false (e x a l k)) ∧
    GivesFp (.fcos h ty d a) d ty.wide (fun x l => fpEls ty fun k => fpTrig F true (e x a l k)) ∧
    GivesFp (.fscale h rnd ty sat d a b) d ty.wide
      (fun x l => fpEls ty fun k => fpScale F (x.mode rnd) sat (e x a l k) (asSigned 32 (x.rd32 b l))) ∧
    GivesFp (.frnd h ex rnd ty d a) d ty.wide (fun x l => fpEls ty fun k => fpRnd (x.mode rnd) ex (e x a l k)) ∧
    GivesFp (.fdot2 h rnd ty sat d a b c) d false
      (fun x l => dot2 ty (x.mode rnd) sat (x.rd ty a l) (x.rd ty b l) (x.rd .f32 c l))) ∧
  (∀ (ty : Ty) (f : Nat → Machine.Num × Cond), (∀ k, k < ty.elems → elemOf ty.ew (fpEls ty f).1 k = ty.ieee.encode (f k).1 % 2 ^ ty.ew) ∧
    ∀ b, (fpEls ty f).2.getLsbD b = true ↔ ∃ k, k < ty.elems ∧ (f k).2.getLsbD b = true) ∧
  (∀ (f : Ieee) (mode : Mode) (sat n1 n2 n3 : Bool) (m1 m2 m3 : Nat) (e1 e2 e3 : Int),
    let F := f.fmt
    let a : Machine.Num := .fin n1 m1 e1
    let b : Machine.Num := .fin n2 m2 e2
    let c : Machine.Num := .fin n3 m3 e3
    let n := n1 != n2
    let rm := mode == .rm
    RoundsSum F mode sat [a, b] (if n1 = n2 then n1 else rm) (fpAdd F mode sat a b) ∧
    RoundsSum F mode sat [a, .fin (!n2) m2 e2] rm (fpSub F mode sat a b) ∧
    fpMul F mode sat a b = (if m1 * m2 = 0 then (.fin n 0 0, cNone) else roundTo F mode sat n (m1 * m2) (e1 + e2) false) ∧
    RoundsSum F mode sat [.fin n (m1 * m2) (e1 + e2), c] (if n = n3 then n else rm) (fpFma F mode sat a b c) ∧
    (m1 ≠ 0 → m2 ≠ 0 → ∃ sh : Nat, 2 ^ (f.p + 1) ≤ m1 * 2 ^ sh / m2 ∧
      fpDiv F mode sat a b = roundTo F mode sat n (m1 * 2 ^ sh / m2) (e1 - e2 - sh) (decide (m1 * 2 ^ sh % m2 ≠ 0))) ∧
    (m1 ≠ 0 → m2 = 0 → fpDiv F mode sat a b = (.inf n, cDZ)) ∧ (m1 = 0 → m2 = 0 → fpDiv F mode sat a b = (.nan false, cIV)) ∧
    (m1 = 0 → m2 ≠ 0 → fpDiv F mode sat a b = (.fin n 0 0, cNone)) ∧
    (m1 ≠ 0 → ∃ r sh : Nat, (e1 - sh) % 2 = 0 ∧ r * r ≤ m1 * 2 ^ sh ∧ m1 * 2 ^ sh < (r + 1) * (r + 1) ∧ 2 ^ (f.p + 1) ≤ r ∧
      fpSqrt F mode (.fin false m1 e1) = roundTo F mode false false r ((e1 - sh) / 2) (decide (r * r ≠ m1 * 2 ^ sh))) ∧
    (m1 ≠ 0 → fpSqrt F mode (.fin true m1 e1) = (.nan false, cIV) ∧ fpRsq F (.fin true m1 e1) = (.nan false, cIV)) ∧
    fpSqrt F mode (.fin n1 0 e1) = (.fin n1 0 0, cNone) ∧ fpRsq F (.fin n1 0 e1) = (.inf n1, cDZ) ∧
    fpRcp F sat a = judged F (fpDiv F .rne sat (.fin false 1 0) a) ∧
    (m1 ≠ 0 → ∃ (r : Nat) (q : Int), 2 ^ (f.p + 1) ≤ r ∧
      r * r * m1 * pow2 (2 * q + e1) ≤ pow2 (-(2 * q + e1)) ∧ pow2 (-(2 * q + e1)) < (r + 1) * (r + 1) * m1 * pow2 (2 * q + e1) ∧
      fpRsq F (.fin false m1 e1) = judged F (roundTo F .rne false false r q
        (decide (r * r * m1 * pow2 (2 * q + e1) ≠ pow2 (-(2 * q + e1)))))) ∧
    (let x (k : Int) (n : Bool) (m : Nat) (e : Int) : Int := sgn n (m * pow2 (e - k))
      let k := min e1 e2
      (ranksBelow a b = true ↔ x k n1 m1 e1 < x k n2 m2 e2 ∨ (x k n1 m1 e1 = x k n2 m2 e2 ∧ n1 = true ∧ n2 = false)) ∧
      (∀ num mx, fpMinMax mx num a b = (if ranksBelow a b != mx then a else b, cNone))) ∧
    (∀ i : Int, i ≤ 5000 → -5000 ≤ i →
      fpScale F mode sat a i = if m1 = 0 then (a, cNone) else roundTo F mode sat n1 m1 (e1 + i) false) ∧
    (∀ i : Int, (5000 < i → fpScale F mode sat a i = fpScale F mode sat a 5000) ∧
      (i < -5000 → fpScale F mode sat a i = fpScale F mode sat a (-5000))) ∧
    (∀ w, (0 ≤ e1 → fpRnd mode w a = (.fin n1 (m1 * pow2 e1) 0, cNone)) ∧
      (e1 < 0 → fpRnd mode w a = (.fin n1 (roundAt mode n1 m1 e1 false 0).1 0,
        if w = true ∧ (roundAt mode n1 m1 e1 false 0).2 = true then cIX else cNone)))) ∧
  (∀ (ty : Ty) (mode : Mode) (sat : Bool) (a b c : Nat) (n1 n2 n3 n4 n5 : Bool) (m1 m2 m3 m4 m5 : Nat) (e1 e2 e3 e4 e5 : Int),
    fpElem ty a 0 = .fin n1 m1 e1 → fpElem ty b 0 = .fin n2 m2 e2 → fpElem ty a 1 = .fin n3 m3 e3 → fpElem ty b 1 = .fin n4 m4 e4 →
    f32.decode c = .fin n5 m5 e5 →
    let ts : List Machine.Num := [.fin (n1 != n2) (m1 * m2) (e1 + e2), .fin (n3 != n4) (m3 * m4) (e3 + e4), .fin n5 m5 e5]
    let neg := fun t : Machine.Num => t.isZero && t.neg?
    ∃ r, RoundsSum f32.fmt mode sat ts (ts.all neg || (mode == .rm && ts.all Machine.Num.isZero && ts.any neg)) r ∧
      dot2 ty mode sat a b c = (f32.encode r.1, r.2)) ∧
  (∀ (f : Ieee) (mode : Mode) (sat n p : Bool) (a b c : Machine.Num) (m : Nat) (e i : Int),
    let F := f.fmt
    let nan (o : Machine.Num) : Machine.Num × Cond := (.nan false, snOf o)
    (a.isNan = true ∨ b.isNan = true →
      fpAdd F mode sat a b = (.nan false, snOf a ||| snOf b) ∧ fpSub F mode sat a b = (.nan false, snOf a ||| snOf b) ∧
      fpMul F mode sat a b = (.nan false, snOf a ||| snOf b) ∧ fpDiv F mode sat a b = (.nan false, snOf a ||| snOf b) ∧
      fpFma F mode sat a b c = (.nan false, snOf a ||| snOf b ||| snOf c)) ∧
    (∀ mx, (a.isNan = true → b.isNan = true → (fpMinMax mx p a b) = (.nan false, snOf a ||| snOf b)) ∧
      (a.isNan = true → b.isNan = false → (fpMinMax mx p a b) = (if p then b else .nan false, snOf a)) ∧
      (a.isNan = false → b.isNan = true → (fpMinMax mx p a b) = (if p then a else .nan false, snOf b))) ∧
    (a.isNan = true → fpSqrt F mode a = nan a ∧ fpRcp F sat a = nan a ∧ fpRsq F a = nan a ∧ fpExp2 F sat a = nan a ∧
      fpLog2 F a = nan a ∧ fpTrig F p a = nan a ∧ fpRnd mode p a = nan a ∧ fpScale F mode sat a i = nan a) ∧
    fpAdd F mode sat (.inf n) (.inf n) = (.inf n, cNone) ∧ fpAdd F mode sat (.inf n) (.inf (!n)) = (.nan false, cIV) ∧
    fpSub F mode sat (.inf n) (.inf n) = (.nan false, cIV) ∧ fpSub F mode sat (.inf n) (.inf (!n)) = (.inf n, cNone) ∧
    fpAdd F mode sat (.inf n) (.fin p m e) = (.inf n, cNone) ∧ fpAdd F mode sat (.fin p m e) (.inf n) = (.inf n, cNone) ∧
    fpSub F mode sat (.inf n) (.fin p m e) = (.inf n, cNone) ∧ fpSub F mode sat (.fin p m e) (.inf n) = (.inf !n, cNone) ∧
    fpMul F mode sat (.inf n) (.inf p) = (.inf (n != p), cNone) ∧
    (let r : Machine.Num × Cond := if m = 0 then (.nan false, cIV) else (.inf (n != p), cNone);
      fpMul F mode sat (.inf n) (.fin p m e) = r ∧ fpMul F mode sat (.fin p m e) (.inf n) = r) ∧
    (c.isNan = true → ∀ k j i, fpFma F mode sat (.fin n k j) (.fin p m i) c = nan c) ∧
    (c = .nan false → fpFma F mode sat (.inf n) (.fin p 0 e) c = (.nan false, cIV) ∧ fpFma F mode sat (.fin p 0 e) (.inf n) c = (.nan false, cIV)) ∧
    fpFma F mode sat (.inf n) (.inf p) (.inf (n == p)) = (.nan false, cIV) ∧
    fpDiv F mode sat (.inf n) (.inf p) = (.nan false, cIV) ∧ fpDiv F mode sat (.inf n) (.fin p m e) = (.inf (n != p), cNone) ∧
    fpDiv F mode sat (.fin p m e) (.inf n) = (.fin (p != n) 0 0, cNone) ∧
    fpSqrt F mode (.inf false) = (.inf false, cNone) ∧ fpSqrt F mode (.inf true) = (.nan false, cIV) ∧
    fpScale F mode sat (.inf n) i = (.inf n, cNone) ∧ fpRnd mode p (.inf n) = (.inf n, cNone) ∧
    ranksBelow (.inf true) (.fin p m e) = true ∧ ranksBelow (.fin p m e) (.inf true) = false ∧
    ranksBelow (.inf false) (.fin p m e) = false ∧ ranksBelow (.fin p m e) (.inf false) = true ∧
    fpRcp F sat (.fin n 0 e) = (.inf n, cDZ) ∧ fpRcp F sat (.inf n) = (.fin n 0 0, cNone) ∧
    fpRsq F (.inf false) = (.fin false 0 0, cNone) ∧ fpRsq F (.inf true) = (.nan false, cIV) ∧
    fpExp2 F sat (.fin n 0 e) = (.fin false 1 0, cNone) ∧ fpExp2 F sat (.inf n) = (if n then .fin false 0 0 else .inf false, cNone) ∧
    (m ≠ 0 → 0 ≤ e → e + (m.log2 : Int) < 14 → fpExp2 F sat (.fin n m e) = judged F (roundTo F .rne sat false 1 (sgn n (m * pow2 e)) false)) ∧
    fpLog2 F (.fin n 0 e) = (.inf true, cDZ) ∧ (m ≠ 0 → fpLog2 F (.fin true m e) = (.nan false, cIV)) ∧
    fpLog2 F (.inf false) = (.inf false, cNone) ∧ fpLog2 F (.inf true) = (.nan false, cIV) ∧
    fpLog2 F (.fin false (2 ^ m) e) = roundTo F .rne false (decide (e + m < 0)) (e + m).natAbs 0 false ∧
    fpTrig F p (.inf n) = (.nan false, cIV) ∧ fpTrig F false (.fin n 0 e) = (.fin n 0 0, cNone) ∧
    fpTrig F true (.fin n 0 e) = (.fin false 1 0, cNone) ∧
    (∀ k u, (judged F (.fin n k e, u)).1 = .fin n k e ∧ (u &&& cIX ≠ 0 →
      ((judged F (.fin n k e, u)).2.getLsbD 3 = true ↔ k = 0 ∨ e + (k.log2 : Int) < F.emin))))

/-- O: 06 R160-R162: `FABS` clears, `FNEG` inverts and `FCPYS` replaces with B's the sign bit of each element, of every type,
and keeps every other bit, NaNs too, and they raise nothing; `FCLASS` writes the one bit of the class of a, and raises
nothing; `FSET` writes its comparison, true or false to a predicate, else 1 or 0: zeros are equal, infinities lie beyond
every finite number, with a NaN only `.ne` and `.un` hold, and it raises IV with a signalling NaN, and with a quiet one under
`.lt` to `.ge` alone. -/
def Obligations.FpSignsAndComparisons : Prop :=
  (∀ (h : Hd) (cmp : FCmp) (ty : Ty) (d a b : Opnd),
    Gives (.fabs h ty d a) d ty.wide (fun x l => signEls ty (fun _ _ => 0) (x.rd ty a l) 0) ∧
    Gives (.fneg h ty d a) d ty.wide (fun x l => signEls ty (fun p _ => 1 - p) (x.rd ty a l) 0) ∧
    Gives (.fcpys h ty d a b) d ty.wide (fun x l => signEls ty (fun _ q => q) (x.rd ty a l) (x.rd ty b l)) ∧
    Gives (.fclass h ty d a) d false (fun x l => 2 ^ fclassBit ty.ieee (elemOf ty.ew (x.rd ty a l) 0)) ∧
    GivesFp (.fset h cmp ty d a b) d false (fun x l =>
      let r := fcmp cmp (fpElem ty (x.rd ty a l) 0) (fpElem ty (x.rd ty b l) 0)
      (if r.1 then 1 else 0, r.2))) ∧
  (∀ (ty : Ty) (a b e k : Nat), ty.isFp = true → e < ty.elems → k < ty.ew →
    let at_ := ty.ew * e + k
    let top : Prop := k = ty.ew - 1
    (signEls ty (fun _ _ => 0) a 0).testBit at_ = (if top then false else a.testBit at_) ∧
    (signEls ty (fun p _ => 1 - p) a 0).testBit at_ = (if top then !a.testBit at_ else a.testBit at_) ∧
    (signEls ty (fun _ q => q) a b).testBit at_ = if top then b.testBit at_ else a.testBit at_) ∧
  (∀ (cmp : FCmp) (a b : Machine.Num),
    let loud : Prop := cmp = .lt ∨ cmp = .le ∨ cmp = .gt ∨ cmp = .ge
    let signalling : Prop := a = .nan true ∨ b = .nan true
    let unordered : Prop := a.isNan = true ∨ b.isNan = true
    (unordered → (fcmp cmp a b).1 = (cmp == .ne || cmp == .un)) ∧
    ((fcmp cmp a b).2.getLsbD 0 = true ↔ signalling ∨ (unordered ∧ loud)) ∧
    ((fcmp cmp a b).2.getLsbD 5 = true ↔ signalling) ∧ (∀ q, q ≠ 0 → q ≠ 5 → (fcmp cmp a b).2.getLsbD q = false) ∧
    (¬unordered → (∃ n, a = .inf n ∨ b = .inf n) →
      let less : Prop := (a = .inf true ∧ b ≠ .inf true) ∨ (b = .inf false ∧ a ≠ .inf false)
      ((fcmp cmp a b).1 = true ↔ match cmp with
        | .eq => a = b | .ne => a ≠ b | .lt => less | .le => less ∨ a = b | .gt => ¬(less ∨ a = b) | .ge => ¬less
        | .un => False | .ord => True))) ∧
  (∀ (f : Ieee) (v : Nat), f ∈ [f16, bf16, f32, f64] → v < 2 ^ (f.p + f.w) →
    let t := f.p - 1
    let neg : Prop := 2 ^ (t + f.w) ≤ v
    let e := v / 2 ^ t % 2 ^ f.w
    let m := v % 2 ^ t
    fclassBit f v =
      if e = 2 ^ f.w - 1 then (if m = 0 then (if neg then 2 else 9) else if m < 2 ^ (t - 1) then 0 else 1)
      else if e = 0 then (if m = 0 then (if neg then 5 else 6) else if neg then 4 else 7)
      else if neg then 3 else 8) ∧
  (∀ (cmp : FCmp) (n1 n2 : Bool) (m1 m2 : Nat) (e1 e2 : Int),
    let i := sgn n1 (m1 * pow2 (e1 - min e1 e2))
    let j := sgn n2 (m2 * pow2 (e2 - min e1 e2))
    fcmp cmp (.fin n1 m1 e1) (.fin n2 m2 e2) = (match cmp with
      | .eq => decide (i = j) | .ne => decide (i ≠ j) | .lt => decide (i < j) | .le => decide (i ≤ j) | .gt => decide (j < i)
      | .ge => decide (j ≤ i) | .un => false | .ord => true, cNone))

/-- O: 02 R32-R34, R40: rounding to a multiple of 2^q: toward zero the multiple below; upward and downward the neighbour on
that side; to nearest within half a unit, ties to even; stochastic by the dropped fraction's first 16 bits against the random
value; inexact just when something is dropped; with something below the magnitude noted, always, and then a tie counts as
more than half. A nonzero magnitude is rounded to the format's precision, or to its subnormal grid; IX is raised just when it
is inexact, UF just when it is inexact and tiny: below 2^emin once rounded to the precision with no bound on the exponent;
beyond the largest finite value the result is an infinity or that value, by mode and `SAT`, with IX, and OF unless `SAT`. -/
def Obligations.OneRounding : Prop :=
  (∀ (mode : Mode) (neg : Bool) (m : Nat) (e q : Int), e < q →
    let u := 2 ^ (q - e).toNat
    let r := (roundAt mode neg m e false q).1
    let down := r * u ≤ m ∧ m < (r + 1) * u
    let up := m ≤ r * u ∧ r * u < m + u
    ((roundAt mode neg m e false q).2 = true ↔ m % u ≠ 0) ∧
    (mode = .rz → down) ∧ (mode = .rp → if neg then down else up) ∧ (mode = .rm → if neg then up else down) ∧
    (mode = .rne → 2 * (r * u) ≤ 2 * m + u ∧ 2 * m ≤ 2 * (r * u) + u ∧
      (2 * m = 2 * (r * u) + u ∨ 2 * (r * u) = 2 * m + u → r % 2 = 0)) ∧
    (∀ n, mode = .sr n → r = if m % u * 65536 / u ≤ n then m / u else m / u + 1)) ∧
  (∀ (mode : Mode) (neg : Bool) (m : Nat) (e q : Int), e < q →
    let u := 2 ^ (q - e).toNat
    let r := (roundAt mode neg m e true q).1
    (roundAt mode neg m e true q).2 = true ∧ (mode = .rz → r = m / u) ∧ (mode = .rp → r = if neg then m / u else m / u + 1) ∧
    (mode = .rm → r = if neg then m / u + 1 else m / u) ∧ (mode = .rne → r = if u ≤ 2 * (m % u) then m / u + 1 else m / u)) ∧
  (∀ (mode : Mode) (neg st : Bool) (m : Nat) (e q : Int), q ≤ e → roundAt mode neg m e st q = (m * pow2 (e - q), st)) ∧
  (∀ (f : Ieee) (mode : Mode) (sat neg st : Bool) (m : Nat) (e : Int), f ∈ [f16, bf16, f32, f64] → m ≠ 0 →
    (st = true → 2 ^ f.p ≤ m) →
    let r := roundTo f.fmt mode sat neg m e st
    let q := e + (m.log2 : Int) - ((f.p : Int) - 1)
    let g := if e + (m.log2 : Int) < f.fmt.emin then f.fmt.emin - ((f.p : Int) - 1) else q
    let past := dyGt (roundAt mode neg m e st q).1 q f.fmt.maxM f.fmt.maxE
    let tiny := dyGt 1 f.fmt.emin (roundAt mode neg m e st q).1 q
    (past = false → r.1 = .fin neg (roundAt mode neg m e st g).1 g ∧
      r.2 = if (roundAt mode neg m e st g).2 then (if tiny then cIX ||| cUF else cIX) else cNone) ∧
    (past = true → sat = true → r = (.fin neg f.fmt.maxM f.fmt.maxE, cIX)) ∧
    (past = true → sat = false → r.2 = cOF ||| cIX ∧
      r.1 = if mode = .rz ∨ (mode = .rp ∧ neg = true) ∨ (mode = .rm ∧ neg = false) then .fin neg f.fmt.maxM f.fmt.maxE
        else .inf neg))

/-- O: 02 R24, R29, R36, R43-R45: every IEEE encoding but a NaN is the encoding of the number it means; of a NaN the
canonical one comes back; so it is for every byte of every binary8 format; and the bytes of an accumulator line mean the line
they were made of, for every value that its fields hold. -/
def Obligations.EncodingsRoundTrip : Prop :=
  ((∀ f ∈ [f16, bf16, f32, f64], ∀ v, v < 2 ^ (f.p + f.w) →
    f.encode (f.decode v) = if (f.decode v).isNan then f.nan else v) ∧
  (∀ c : BitVec 5, fmtOk c = true → ∀ b, b < 256 → (B8.ofCode c).encode ((B8.ofCode c).decode b) = b)) ∧
  (∀ (full : Bool) (l : Line), l.count < 2 ^ 32 → l.gen < 256 →
    (if full then -2048 ≤ l.weight ∧ l.weight < 2048 else l.weight = -149 ∧ l.inx = false) →
    -(2 ^ (8 * lineBytes full - 1) : Int) ≤ l.a → l.a < (2 ^ (8 * lineBytes full - 1) : Int) →
    Line.ofBytes full (l.bytes full) = l ∧ (l.bytes full).length = lineSize full)

/-- O: 06 R168-R172, 02 R38-R42: conversions, binary8 and MX quantisation and their inverses write their results with the
conditions of each lane. `CVT` rounds once to a floating-point type; to an integer type it rounds to an integral value, gives
the nearest end of the range beyond it, with IV unless `SAT`, and 0 with IV for a NaN; integers wrap, or are clamped under
`SAT`. A binary8 conversion rounds once to the format's grid; a NaN, an infinity, a negative number to an unsigned format and
an overflow give what R38 and R39 say, by `SAT`, mode and format. A block's scale is that of its largest finite element, and
its elements are converted saturating. `.sr` forms take 16 bits of the lane's draw for each element and advance the stream;
`AMAX` writes one maximum. With an s destination the draw and the block are the lowest lane's (log entry 83), and a lane of a
block without a scale meets the condition of its own value (log entry 84): the model's choices. -/
def Obligations.ConversionsWrite : Prop :=
  (∀ (h : Hd) (hi sr sat : Bool) (src ty : Ty) (fmt : BitVec 5) (rnd : Rnd) (d a b : Opnd) (s : State) (x : Ix),
    let f := B8.ofCode fmt
    let md (l i : Nat) : Mode := if sr then .sr (x.w.draw l / 2 ^ (16 * i) % 65536) else x.mode rnd
    let half (l : Nat) : Nat := x.rd32 a l / (if hi then 2 ^ 16 else 1) % 2 ^ 16
    let byte (l i : Nat) : Machine.Num := f.decode (half l / 2 ^ (8 * i) % 256)
    let wide (l i : Nat) : Machine.Num := if src = .f32 then f32.decode (x.rd .f32 (if i = 0 then a else b) l) else fpElem src (x.rd src a l) i
    let enc (l i : Nat) : Nat × Cond := f.convert (md l i) sat (wide l i)
    let dec (l i : Nat) : Machine.Num × Cond := roundNum src.ieee.fmt (md l i) sat (byte l i)
    let elem (l : Nat) : Machine.Num := if x.on.getLsbD l then fpElem src (x.rd src a l) 0 else .fin false 0 0
    let block (l : Nat) : List Machine.Num := (List.range 32).map fun i => elem (l / 32 * 32 + i)
    GivesFp (.cvt h src rnd ty sat d a) d ty.wide (fun x l => cvtVal ty src (x.mode rnd) sat (x.rd src a l)) ∧
    (issuing s (.cvtb8 h false hi sr src fmt rnd sat d a b) = some x →
      WritesFp (.cvtb8 h false hi sr src fmt rnd sat d a b) x (if sr then x.w.drawn else x.w) (x.computing d) d false
        (fun l => let n := (enc l 0).1 + 256 * (enc l 1).1
          if hi then x.rd32 d l % 2 ^ 16 + 2 ^ 16 * n else x.rd32 d l / 2 ^ 16 * 2 ^ 16 + n)
        (fun l => (enc l 0).2 ||| (enc l 1).2)) ∧
    (issuing s (.cvtb8 h true hi sr src fmt rnd sat d a b) = some x →
      WritesFp (.cvtb8 h true hi sr src fmt rnd sat d a b) x (if sr then x.w.drawn else x.w) (x.computing d) d (src == .f32)
        (fun l => if src = .f32 then f32.encode (byte l 0) + 2 ^ 32 * f32.encode (byte l 1)
          else src.ieee.encode (dec l 0).1 + 2 ^ 16 * src.ieee.encode (dec l 1).1)
        (fun l => if src = .f32 then cNone else (dec l 0).2 ||| (dec l 1).2)) ∧
    (issuing s (.mxq h sr src fmt rnd d a) = some x →
      WritesFp (.mxq h sr src fmt rnd d a) x (if sr then x.w.drawn else x.w) (x.computing d) d false
        (fun l => match mxScale f (block l) with
          | none => 0xFF00 + f.nanByte
          | some (code, e) => code * 256 + (mxElem f (md l 0) e (elem l)).1)
        (fun l => match mxScale f (block l) with
          | none => snOf (elem l) ||| (if f.i = false ∧ (elem l = .inf false ∨ elem l = .inf true) then cIV else cNone)
          | some (_, e) => (mxElem f (md l 0) e (elem l)).2)) ∧
    GivesFp (.mxd h ty fmt rnd sat d a b) d false (fun x l =>
      let v := f.decode (x.rd32 a l % 256)
      let k := x.rd32 b l % 256
      let r := if k = 255 ∨ v.isNan then (Machine.Num.nan false, cNone)
        else roundNum ty.ieee.fmt (x.mode rnd) sat (scaleBy ((k : Int) - 127) v)
      (ty.ieee.encode r.1, r.2)) ∧
    (∀ n, issuing s (.amax h ty (.s n) a b) = some x →
      let bn := fpElem ty (x.rd ty b 0) 0
      let v (l : Nat) : Machine.Num := fpElem ty (x.rd ty a l) 0
      ∃ r : Machine.Num, WritesFp (.amax h ty (.s n) a b) x x.w x.lanes (.s n) ty.wide (fun _ => ty.ieee.encode r)
          (fun l => snOf (v l) ||| snOf bn) ∧
        (bn.isNan = true ∨ (∃ l ∈ x.lanes, (v l).isNan = true) → r = .nan false) ∧
        (bn.isNan = false → (∀ l ∈ x.lanes, (v l).isNan = false) →
          (r = bn ∨ ∃ l ∈ x.lanes, r = absNum (v l)) ∧ ranksBelow r bn = false ∧
            ∀ l ∈ x.lanes, ranksBelow r (absNum (v l)) = false))) ∧
  (∀ (dst src : Ty) (mode : Mode) (sat : Bool) (v : Nat), src ∈ [Ty.i32, .n32, .i64, .n64, .f32, .f64, .f16, .bf16] → v < 2 ^ src.ew →
    let r := cvtVal dst src mode sat v
    let out (q : Machine.Num × Cond) : Prop := r = (dst.ieee.encode q.1, q.2)
    let real : Prop := dst ∈ [Ty.f32, .f64, .f16, .bf16]
    let whole : Prop := dst ∈ [Ty.i32, .n32, .i64, .n64]
    let lo : Int := if dst = .i32 then -(2 ^ 31) else if dst = .i64 then -(2 ^ 63) else 0
    let hi : Int := if dst = .i32 then 2 ^ 31 - 1 else if dst = .i64 then 2 ^ 63 - 1 else if dst = .n32 then 2 ^ 32 - 1 else 2 ^ 64 - 1
    let narrow (i : Int) : Nat := (i % (2 ^ dst.ew : Nat)).toNat
    let i : Int := if (src = .i32 ∨ src = .i64) ∧ 2 ^ (src.ew - 1) ≤ v then (v : Int) - (2 ^ src.ew : Nat) else v
    (src.isFp = false → real → out (if i = 0 then (.fin false 0 0, cNone) else roundTo dst.ieee.fmt mode sat (decide (i < 0)) i.natAbs 0 false)) ∧
    (src.isFp = false → whole → r = (narrow (if sat then max lo (min hi i) else i), cNone)) ∧
    (∀ s, src.isFp = true → src.ieee.decode v = .nan s →
      (real → out (.nan false, if s then cSN else cNone)) ∧ (whole → r = (0, if s then cSN else cIV))) ∧
    (∀ n, src.isFp = true → src.ieee.decode v = .inf n →
      (real → out (.inf n, cNone)) ∧ (whole → r = (narrow (if n then lo else hi), if sat then cNone else cIV))) ∧
    (∀ n m e, src.isFp = true → src.ieee.decode v = .fin n m e →
      (real → out (if m = 0 then (.fin n 0 0, cNone) else roundTo dst.ieee.fmt mode sat n m e false)) ∧
      (whole →
        let k := roundAt mode n m e false 0
        let j : Int := sgn n k.1
        (lo ≤ j → j ≤ hi → r = (narrow j, if k.2 then cIX else cNone)) ∧
        (j < lo → r = (narrow lo, if sat then cNone else cIV)) ∧ (hi < j → r = (narrow hi, if sat then cNone else cIV))))) ∧
  (∀ (c : BitVec 5) (mode : Mode) (sat : Bool) (mx : Nat) (ex : Int), fmtOk c = true →
    let f := B8.ofCode c
    let top := (if f.u then 0xFE else 0x7F) - if f.i then 1 else 0
    let nan := if f.u then 0xFF else 0x80
    let inf (n : Bool) : Nat := if f.u then 0xFE else if n then 0xFF else 0x7F
    let least : Int := 1 - (2 ^ ((if f.u then 9 else 8) - f.k - 1) : Nat)
    f.decode top = .fin false mx ex →
    (∀ s, f.convert mode sat (.nan s) = (nan, if s then cSN else cNone)) ∧
    (∀ n, f.convert mode sat (.inf n) = if f.u ∧ n then (0, cIV) else if f.i then (inf n, cNone)
      else if sat then (top + (if n then 128 else 0), cNone) else (nan, cIV)) ∧
    (∀ n e, f.convert mode sat (.fin n 0 e) = (0, cNone)) ∧
    (∀ n m e, m ≠ 0 →
      let r := f.convert mode sat (.fin n m e)
      let q := e + (m.log2 : Int) - ((f.k : Int) - 1)
      let g := if e + (m.log2 : Int) < least then least - ((f.k : Int) - 1) else q
      let u := (roundAt mode n m e false q).1
      let k := roundAt mode n m e false g
      let past : Prop := mx * pow2 (ex - q) < u * pow2 (q - ex)
      let tiny : Prop := u * pow2 (q - least) < pow2 (least - q)
      let beyond : Prop := mode = .rz ∨ (mode = .rp ∧ n = true) ∨ (mode = .rm ∧ n = false)
      (f.u = true → n = true → r = if past ∨ k.1 ≠ 0 then (0, cIV) else (0, cUF ||| cIX)) ∧
      ((f.u = false ∨ n = false) → ¬past → r.1 < 256 ∧
        (∃ n1 m1 e1, f.decode r.1 = .fin n1 m1 e1 ∧ m1 * pow2 (e1 - g) = k.1 * pow2 (g - e1) ∧ (k.1 ≠ 0 → n1 = n)) ∧
        r.2 = if k.2 then (if tiny then cIX ||| cUF else cIX) else cNone) ∧
      ((f.u = false ∨ n = false) → past →
        (sat = true → r = (top + (if n then 128 else 0), cIX)) ∧
        (sat = false → r = (if beyond then top + (if n then 128 else 0) else if f.i then inf n else nan, cOF ||| cIX)))) ∧
    (∀ vs : List Machine.Num,
      let bad : Prop := (∃ s, Machine.Num.nan s ∈ vs) ∨ (f.i = false ∧ ∃ n, Machine.Num.inf n ∈ vs)
      (bad → mxScale f vs = none) ∧
      (¬bad → (∀ n m e, Machine.Num.fin n m e ∈ vs → m = 0) → mxScale f vs = some (0, -127)) ∧
      (¬bad → ∀ n m e, Machine.Num.fin n m e ∈ vs → m ≠ 0 →
        (∀ n1 m1 e1, Machine.Num.fin n1 m1 e1 ∈ vs → m1 ≠ 0 → e1 + (m1.log2 : Int) ≤ e + (m.log2 : Int)) →
        let X := max (-127) (min 127 (e + (m.log2 : Int) - (ex + (mx.log2 : Int))))
        mxScale f vs = some ((X + 127).toNat, X))) ∧
    (∀ (X : Int) (n : Bool) (m : Nat) (e : Int), mxElem f mode X (.inf n) = f.convert mode false (.inf n) ∧
      mxElem f mode X (.fin n m e) = f.convert mode true (.fin n m (e - X))))

/-- O: 06 R173-R177, 02 R48: `RNG` writes each lane's draw, or its high 24 bits as a fraction of one, and the counter
advances by the warp's width whatever the guards; `RNGKEY`, `FLGRD`, `FLGCLR`, `FLGEN` and `FRMSET` act once, with a lane on,
on the stream, `FLG`, `FTE` and `FRM` as they say, after the old value has been read (with D among the operands, log entry
85: the model's choice). -/
def Obligations.StreamAndFlags : Prop :=
  ∀ (h : Hd) (b1 : Bool) (ty : Ty) (mode : FlgMode) (n : BitVec 8) (d a b : Opnd) (s : State) (x : Ix),
    let v5 : BitVec 5 := BitVec.ofNat 5 (x.u32 a)
    let v6 : BitVec 6 := BitVec.ofNat 6 (x.u32 a)
    let z (l : Nat) : BitVec 64 := x.w.rctr + BitVec.ofNat 64 l
    (∀ l, x.w.draw l = mix x.w.rkey (z l) ∧ x.w.draw l < 2 ^ 32) ∧
    (∀ w : Warp, w.drawn = { w with rctr := w.rctr + BitVec.ofNat 64 w.width }) ∧
    (issuing s (.rng h ty d) = some x → Writes (.rng h ty d) x x.w.drawn d false
      (fun l => if ty = .f32 then f32.encode (.fin false (x.w.draw l / 256) (-24)) else x.w.draw l)) ∧
    (issuing s (.rngkey h b1 (.s n) a b) = some x → Writes (.rngkey h b1 (.s n) a b) x
      (if b1 ∨ x.on = 0 then x.w else { x.w with rkey := BitVec.ofNat 64 (x.u64 a), rctr := BitVec.ofNat 64 (x.u64 b) })
      (.s n) true (fun _ => x.w.rctr.toNat)) ∧
    (issuing s (.flgrd h b1 d) = some x →
      Writes (.flgrd h b1 d) x (if b1 ∧ x.on ≠ 0 then { x.w with flg := 0 } else x.w) d false (fun _ => x.w.flg.toNat)) ∧
    (issuing s (.flgclr h a) = some x →
      Leaves (.flgclr h a) x (if x.on = 0 then x.w else { x.w with flg := x.w.flg &&& ~~~v5 })) ∧
    (issuing s (.flgen h mode a) = some x →
      Leaves (.flgen h mode a) x (if x.on = 0 then x.w else { x.w with
        fte := match mode with
          | .set => v6
          | .or => x.w.fte ||| v6
          | .andn => x.w.fte &&& ~~~v6 })) ∧
    (issuing s (.frmset h (.s n) a) = some x →
      Writes (.frmset h (.s n) a) x (if x.on = 0 then x.w else { x.w with frm := BitVec.ofNat 2 (x.u32 a) }) (.s n) false
        (fun _ => x.w.frm.toNat))

/-- O: 06 R178, R179, 02 R46: `FXCVT` with every line aligned, on a page of accumulator lines of its own die, writes the
read-out of the line's bytes, with its conditions, and changes no line. Else it traps with the first cause of R179 that a
lane meets, on the lanes that meet it, all with a true guard for an s destination: MISALIGNED; of the translation (the walk
it needs is waited for), PAGE_CLASS for another class of page, host memory or host bias, REMOTE_PLAIN; then poison,
MEM_UNCORR. -/
def Obligations.LinesAreRead : Prop :=
  ∀ (h : Hd) (line : Bool) (ty : Ty) (sat : Bool) (d a b : Opnd) (off : BitVec 24) (s : State) (x : Ix),
    let i : Instr := .fxcvt h line ty sat d a b off
    let n := if line then 128 else 64
    let as : List Acc1 := (x.computing d).map fun l => (l, x.gaddr a b off l, n)
    let out (l : Nat) : Machine.Num × Cond := (Line.ofBytes line (x.bytesAt (x.gaddr a b off l) n)).read ty.ieee.fmt sat
    (issuing s i = some x → x.clear as (lineCause s x.g.core) → x.sound as →
      WritesFp i x x.w (x.computing d) d ty.wide (fun l => ty.ieee.encode (out l).1) (fun l => (out l).2)) ∧
    (issuing s i = some x → ChecksAccess i x d (x.computing d) (fun l => x.gaddr a b off l) n (lineCause s x.g.core)) ∧
    (issuing s i = some x → x.clear as (lineCause s x.g.core) →
      ChecksPoison i x d (x.computing d) (fun l => x.gaddr a b off l) n (fun _ => true)) ∧
    (∀ va p, lineCause s x.g.core va (.page p) = none ↔
      p.cls = 1 ∧ p.hmem = false ∧ s.hostBiased (p.pa va) = false ∧ paDie (p.pa va) = dieOf x.g.core) ∧
    (∀ va p, p.cls ≠ 1 ∨ p.hmem = true ∨ s.hostBiased (p.pa va) = true → lineCause s x.g.core va (.page p) = some (4, cPAGE_CLASS)) ∧
    (∀ va p, p.cls = 1 → p.hmem = false → s.hostBiased (p.pa va) = false → paDie (p.pa va) ≠ dieOf x.g.core →
      lineCause s x.g.core va (.page p) = some (5, cREMOTE_PLAIN)) ∧
    (∀ va, lineCause s x.g.core va .absent = some (1, cPAGE_ABSENT) ∧ lineCause s x.g.core va .poison = some (1, cMEM_UNCORR))

/-- O: 02 R43-R46: what a line reads as does not depend on the order in which its contributions arrived. -/
def Obligations.SumsDoNotDependOnOrder : Prop :=
  ∀ (full : Bool) (l : Line) (xs ys : List Machine.Num) (f : Fmt) (sat : Bool), xs.Perm ys →
    (xs.foldl (Line.add full) l).read f sat = (ys.foldl (Line.add full) l).read f sat


/-! ### The CTL group (04 R80-R112) -/

/-- O: 04 R80, R81, R86, R102, R104, R105, R107-R109, R112: where threads go. A lane whose guard is false, and every lane of
an instruction that is no branch, goes on at the next word with its priority. `BRA` and `CALL` send their lanes to the target
in words from the next one, modulo 2^56 (log entry 92: the model's choice), at the priority they carry; `CALL` leaves a link
value; `BRX` and `RET` follow one, unless it is misaligned; `PRIO` changes the priority; `EXIT` ends its lanes; `BKT` sends
each lane to its entry of the table, unless in this order its handle fails, an index is out of range, a read of the table
traps, or an entry is misaligned (the table is read as by a load at the dome: log entry 12, the model's choice); `SLEEP` sets
until when the warp is held; `YIELD` makes the port pass the warp over. -/
def Obligations.ThreadsMove : Prop :=
  ∀ (h : Hd) (pr : BitVec 8) (off n : BitVec 24) (d a b : Opnd) (s : State) (x : Ix),
    let next : Pc := x.c.pc + 12
    let goal : Pc := next + 12 * off.signExtend 56
    let rest : Move := ⟨x.c.prio, next, x.c.bundle &&& ~~~x.on⟩
    let link (l : Nat) : Nat := x.rd64 a l
    let wild : List Nat := x.lanes.filter fun l => link l % 4 ≠ 0
    let follows (i : Instr) : Prop := issuing s i = some x →
      (wild = [] → Flows i x x.w
        (x.lanes.map (fun l => ⟨BitVec.ofNat 8 (link l / 2 ^ 56), BitVec.ofNat 56 (link l), laneBit l⟩) ++ [rest])) ∧
      (∀ l ls, wild = l :: ls → Meets i x 0x33 (maskOf wild) (some (BitVec.ofNat 64 (link l % 2 ^ 56))))
    (issuing s (.nop h) = some x → Leaves (.nop h) x x.w) ∧
    (issuing s (.yield h) = some x → Leaves (.yield h) x x.w ∧
      ∃ t w, exec (.yield h) s = .next t ∧ t.warp? x.c.wid x.c.warp = some w ∧ w.passOver = true) ∧
    (issuing s (.bra h pr off) = some x → Flows (.bra h pr off) x x.w [⟨pr, goal, x.on⟩, rest]) ∧
    (issuing s (.call h pr d off) = some x → h.nwb = false →
      ∃ t w, exec (.call h pr d off) s = .next t ∧ OnlyWarp x s t w ∧ Settles x.w w ∧
        Wrote x x.w d true (fun _ => x.c.prio.toNat * 2 ^ 56 + next.toNat) w ∧
        w.standAt x.on pr goal ∧ w.standAt rest.mask rest.prio rest.pc) ∧
    follows (.brx h a) ∧ follows (.ret h a) ∧
    (issuing s (.prio h pr) = some x → Flows (.prio h pr) x x.w [⟨pr, next, x.on⟩, rest]) ∧
    (issuing s (.sleep h n) = some x → Leaves (.sleep h n) x (if x.on = 0 then x.w else { x.w with
      sleepUntil := s.clocksAt x.g.core + max 1 n.toNat })) ∧
    (issuing s (.exit h) = some x →
      let u : Warp := { x.w with live := x.w.live &&& ~~~x.on }
      (u.deadlocked = true → Meets (.exit h) x 0x64 x.c.bundle none) ∧
      (u.deadlocked = false → Flows (.exit h) x u [rest]) ∧
      (u.deadlocked = false → ∀ t w l, exec (.exit h) s = .next t → t.warp? x.c.wid x.c.warp = some w → x.on.getLsbD l = true →
        (∀ p ∈ x.w.parked, p.mask.getLsbD l = false) → (∀ p ∈ x.w.blocked, p.mask.getLsbD l = false) →
        ∀ p q, ¬w.stands l p q)) ∧
    (issuing s (.bkt h pr a b) = some x →
      let i : Instr := .bkt h pr a b
      (∀ c, x.handle (x.u32 a) 3 = .error c → Meets i x c x.on none) ∧
      ∀ bs, x.handle (x.u32 a) 3 = .ok bs →
        let past : List Nat := x.lanes.filter fun l => fld bs 8 4 ≤ x.rd32 b l
        let ea (l : Nat) : Nat := fld bs 0 8 + 8 * x.rd32 b l
        let entry (l : Nat) : Nat := natOfBytes (x.bytesAt (ea l) 8)
        let as : List Acc1 := x.lanes.map fun l => (l, ea l, 8)
        let odd : List Nat := x.lanes.filter fun l => entry l % 4 ≠ 0
        let through : Prop := x.clear as (plainCause s x.g.core .load) ∧ x.sound as
        (past ≠ [] → Meets i x 0x09 (maskOf past) none) ∧
        (past = [] → ChecksAccess i x (.v 0) x.lanes ea 8 (plainCause s x.g.core .load)) ∧
        (past = [] → x.clear as (plainCause s x.g.core .load) → ChecksPoison i x (.v 0) x.lanes ea 8 fun _ => true) ∧
        (past = [] → through → ∀ l ls, odd = l :: ls → Meets i x 0x33 (maskOf odd) (some (BitVec.ofNat 64 (entry l % 2 ^ 56)))) ∧
        (past = [] → through → odd = [] →
          FlowsIn i x (x.lanes.foldl (fun u l => u.domeRead x.g.core (x.pageAt (ea l)).hmem (x.paAt (ea l)) 8) s)
            (x.lanes.map (fun l => ⟨pr, BitVec.ofNat 56 (entry l), laneBit l⟩) ++ [rest])))

/-- O: 04 R88-R90, R106, 05 R149: rejoin masks. `RJSET` makes its mask the executing threads and those blocked on it;
`RJDROP` takes the executing ones out; `RJWAIT` blocks the members among them, the rest going on at its priority; `KMOV`
reads a mask as four words (a latch that captures them holds the first: log entry 82, the model's choice), and a write of one
keeps the threads blocked on it as members. A mask is met when some thread is blocked on it and every member is blocked on it
or has exited; then, after the issue, all its threads stand after their `RJWAIT` at its priority, the mask is zero and
nothing is blocked on it. When every live thread would be blocked at an `RJWAIT` with no mask met, `RJWAIT` traps and has no
effect. -/
def Obligations.RejoinMasks : Prop :=
  (∀ (h : Hd) (pr : BitVec 8) (k m : BitVec 8) (s : State) (x : Ix),
    let rest : Move := ⟨x.c.prio, x.c.pc + 12, x.c.bundle &&& ~~~x.on⟩
    let K := x.w.kget k.toNat
    let B := x.w.blockedOn k.toNat
    let v : Mask := x.w.sget (m.toNat + 3) ++ x.w.sget (m.toNat + 2) ++ x.w.sget (m.toNat + 1) ++ x.w.sget m.toNat
    (issuing s (.rjset h (.k k)) = some x →
      Leaves (.rjset h (.k k)) x (if x.on = 0 then x.w else x.w.kset k.toNat (x.on ||| B))) ∧
    (issuing s (.rjdrop h (.k k)) = some x →
      Leaves (.rjdrop h (.k k)) x (if x.on = 0 then x.w else x.w.kset k.toNat (K &&& ~~~x.on))) ∧
    (issuing s (.rjwait h pr (.k k)) = some x →
      let u : Warp := if x.on &&& K = 0 then x.w else
        { x.w with blocked := x.w.blocked ++ [⟨x.c.prio, x.c.pc, x.on &&& K, .rejoin k.toNat pr⟩] }
      (u.deadlocked = true → Meets (.rjwait h pr (.k k)) x 0x64 x.c.bundle none) ∧
      (u.deadlocked = false → Flows (.rjwait h pr (.k k)) x u [⟨pr, x.c.pc + 12, x.on &&& ~~~K⟩, rest])) ∧
    (issuing s (.kmov h (.k k) (.k m)) = some x → x.on ≠ 0 →
      Leaves (.kmov h (.k k) (.k m)) x (x.w.kset k.toNat (x.w.kget m.toNat ||| B))) ∧
    (issuing s (.kmov h (.k k) (.s m)) = some x → x.on ≠ 0 → Leaves (.kmov h (.k k) (.s m)) x (x.w.kset k.toNat (v ||| B))) ∧
    (issuing s (.kmov h (.s m) (.k k)) = some x →
      ∃ t w, exec (.kmov h (.s m) (.k k)) s = .next t ∧ OnlyWarp x s t w ∧ Settles x.w w ∧ x.advanced w ∧ w.v = x.w.v ∧
        w.p = x.w.p ∧ x.latches (.s m) false (fun _ => (K.setWidth 32).toNat) t ∧
        ∀ j, w.sget j = if x.f.hd.nwb = false ∧ x.on ≠ 0 ∧ m.toNat ≤ j ∧ j < m.toNat + 4 then
          K.extractLsb' (32 * (j - m.toNat)) 32 else x.w.sget j)) ∧
  (∀ (w : Warp) (k : Nat), w.rejoinMet k = true ↔
    (∃ l, (w.blockedOn k).getLsbD l = true) ∧
      ∀ l, (w.kget k).getLsbD l = true → w.live.getLsbD l = true → (w.blockedOn k).getLsbD l = true) ∧
  (∀ (w : Warp) (bundle : Mask) (ms : List Move) (k : Nat), w.hmode = false → k < 8 →
    let v := w.afterIssue bundle ms
    (w.rejoinMet k = true → v.kget k = 0 ∧ v.blockedOn k = 0 ∧
      ∀ b ∈ w.blocked, ∀ pr, b.why = .rejoin k pr → v.standAt b.mask pr (b.pc + 12)) ∧
    (w.rejoinMet k = false → v.kget k = w.kget k ∧ v.blockedOn k = w.blockedOn k))

/-- O: 04 R92, R93, R95, R110, R111, 08 R212: `LAUNCH` of a sealed record, whose order log's handle, in D2, is live, answers
2 when no named die is up, 1 when a named die's table is full, else 0, and then a new instance of the record's kernel stands
in the table of each named die and no other; with a log's handle that is not, it traps with the handle's cause. `WAITK` traps
on a record with no completion word; else it writes the whole word once its low half is at least the target, as an acquire,
and waits until then. -/
def Obligations.LaunchAndWait : Prop :=
  ∀ (h : Hd) (n : BitVec 8) (a b : Opnd) (s : State) (x : Ix) (bs : List Byte), x.handle (x.u32 a) 4 = .ok bs → x.on ≠ 0 →
    let i : Instr := .launch h (.s n) a
    let rc := launchOf bs
    let own := dieOf x.g.core
    let dies := if rc.dies = 0 then [own] else ((List.range 4).filter fun d => rc.dies.getLsbD d).map fun d => 4 * pkgOfDie own + d
    let lit := ∃ d ∈ dies, (s.die d).up = true
    let full := ∃ d ∈ dies, 256 ≤ (s.die d).pend.length
    let k : Instr := .waitk h (.s n) a b
    let as : List Acc1 := [(firstOf x.lanes, rc.compl, 8)]
    let pa := x.paAt rc.compl
    let word := natOfBytes (x.bytesAt rc.compl 8)
    let chk (va : Nat) (tr : Tr) : Ranked :=
      match tr with
      | .page p => if p.cls ≠ 3 ∨ p.hmem = true then some (4, 0x32)
        else if paDie (p.pa va) ≠ own then some (5, 0x35) else none
      | _ => none
    let held := rc.det = 2 → ∃ ls, x.handle rc.olog.toNat 6 = .ok ls
    (issuing s i = some x → rc.det = 2 → ∀ e, x.handle rc.olog.toNat 6 = .error e → Meets i x e x.on none) ∧
    (issuing s i = some x → held → ¬lit → Writes i x x.w (.s n) false (fun _ => 2)) ∧
    (issuing s i = some x → held → lit → full → Writes i x x.w (.s n) false (fun _ => 1)) ∧
    (issuing s i = some x → held → lit → ¬full → ∃ u, MakesGives i x u (.s n) false (fun _ => 0) ∧
      u.nextInst = s.nextInst + 1 ∧ (∀ j, j ≠ s.nextInst → look u.kernels j = look s.kernels j) ∧
      (∃ q, look u.kernels s.nextInst = some q ∧ q.rc = rc ∧ q.ctx = x.kr.ctx ∧ q.dies = dies ∧ q.started = [] ∧ q.gone = []) ∧
      (∀ d, (u.die d).pend = if d ∈ dies then (s.die d).pend ++ [s.nextInst] else (s.die d).pend) ∧
      u.wgs = s.wgs ∧ u.mem = s.mem ∧ u.hostMem = s.hostMem ∧ u.cores = s.cores) ∧
    (issuing s k = some x → rc.compl = 0 → Meets k x 0x32 x.on (some 0)) ∧
    (issuing s k = some x → rc.compl ≠ 0 → x.clear as chk → x.sound as → x.u32 b ≤ word % 2 ^ 32 →
      MakesGives k x ((s.recall none false pa 8).modCore x.g.core fun c => { c with l1 := [] }) (.s n) true (fun _ => word)) ∧
    (issuing s k = some x → rc.compl ≠ 0 → x.clear as chk → x.sound as → word % 2 ^ 32 < x.u32 b →
      Waits k x s (.waitk rc.compl pa (x.u32 b)))

/-! ### The LOC group (07 R186-R207) -/

/-- O: 07 R188, R189, R200, R201: with every address aligned and within an area, `LDL` writes each lane's bytes, extended by
type, and changes nothing else; `STL` stores the low bytes of each lane's data, the highest lane's where lanes meet, at the
area and offset that `reach` gives its address, and every other byte of every area, and all else, is as before. A misaligned
address traps MISALIGNED, and else one that reaches nothing LOCAL_RANGE, on the lanes concerned (every lane with a true
guard, when one load is made for them all), with the lowest one's address. What the writes replaced joins the history that
quantum and spec reads see (log entries 9, 66: the model's choice). -/
def Obligations.LocalAccesses : Prop :=
  ∀ (h : Hd) (mm : Mm) (ty : Ty) (d a b : Opnd) (off : BitVec 24) (s : State) (x : Ix), s.memWf = true →
    let n := ty.access
    let ea : Nat → Nat := x.laddr a b off
    let at_ (l : Nat) : Nat × Nat := x.areaAt (ea l) n
    let hits (l wid q : Nat) : Prop := (at_ l).1 = wid ∧ (at_ l).2 ≤ q ∧ q < (at_ l).2 + n
    let ld : Instr := .ldl h mm ty d a b off
    let st : Instr := .stl h mm ty d a b off
    let bad (ls : List Nat) : List Nat := ls.filter fun l => ea l % n ≠ 0
    let none_ (ls : List Nat) : List Nat := ls.filter fun l => x.reach (ea l) n = .nothing
    (issuing s ld = some x → x.reaches ((x.computing d).map fun l => (l, ea l, n)) →
      ∃ ps, MakesGives ld x { s.acquired x.g.core mm with past := ps } d ty.wide
        (fun l => ty.loaded (natOfBytes (s.lread (at_ l).1 (at_ l).2 n)))) ∧
    (issuing s st = some x → x.reaches (x.lanes.map fun l => (l, ea l, n)) →
      ∃ u, Makes st x u ∧ { u with wgs := s.wgs, past := s.past } = s ∧
        (∀ k g, look s.wgs k = some g → ∃ h, look u.wgs k = some h ∧ { h with mem := g.mem } = g) ∧
        (∀ wid q, (∀ l ∈ x.lanes, ¬hits l wid q) → u.lbyte wid q = s.lbyte wid q) ∧
        (∀ l ∈ x.lanes, ∀ k, k < n → (∀ m ∈ x.lanes, l < m → ¬hits m (at_ l).1 ((at_ l).2 + k)) →
          u.lbyte (at_ l).1 ((at_ l).2 + k) = [BitVec.ofNat 8 (x.rd ty d l / 2 ^ (8 * k))])) ∧
    (issuing s st = some x → ∀ l ls, bad x.lanes = l :: ls → Meets st x 0x33 (maskOf (l :: ls)) (some (BitVec.ofNat 64 (ea l)))) ∧
    (issuing s st = some x → bad x.lanes = [] → ∀ l ls, none_ x.lanes = l :: ls →
      Meets st x 0x34 (maskOf (l :: ls)) (some (BitVec.ofNat 64 (ea l)))) ∧
    (issuing s ld = some x → ∀ l ls, bad (x.computing d) = l :: ls →
      Meets ld x 0x33 (x.named d (l :: ls)) (some (BitVec.ofNat 64 (ea l)))) ∧
    (issuing s ld = some x → bad (x.computing d) = [] → ∀ l ls, none_ (x.computing d) = l :: ls →
      Meets ld x 0x34 (x.named d (l :: ls)) (some (BitVec.ofNat 64 (ea l)))) ∧
    (issuing s ld = some x → bad (x.computing d) = [] → none_ (x.computing d) = [] → (∃ l ∈ x.computing d, x.reach (ea l) n = .wait) →
      exec ld s = .next { s with cur := some { x.c with ready := false } }) ∧
    (issuing s st = some x → bad x.lanes = [] → none_ x.lanes = [] → (∃ l ∈ x.lanes, x.reach (ea l) n = .wait) →
      exec st s = .next { s with cur := some { x.c with ready := false } }) ∧
    (∀ q, q < 2 ^ 20 → 0 < n → x.w.hmode = false → x.g.stash = [] →
      (x.reach q n = if q + n ≤ x.kr.rc.loc then .area x.c.wid q else .nothing)) ∧
    (∀ q, 2 ^ 31 ≤ q → q < 2 ^ 32 → x.reach q n = .nothing)

/-- O: 07 R191, R197, R198, R200-R202: with every address aligned, translated and allowed, none poisoned or watched, `LDG`
writes each lane's bytes, of memory or, for a load that is no acquire, of the L1's copy of a line outside every window; `STG`
stores the low bytes of each lane's data at the physical address of its virtual one, the highest lane's where lanes meet, and
every other byte of the device's and the host's memory is as before; of a workgroup only window lines change, and of a core
its L1. That a store is made in memory at once is log entry 9 (the model's choice), that a load takes the L1's copy or not by
a free choice log entry 62. -/
def Obligations.GlobalAccesses : Prop :=
  ∀ (h : Hd) (mm : Mm) (ty : Ty) (d a b : Opnd) (off : BitVec 24) (s : State) (x : Ix), s.memWf = true →
    s.stashOk = true →
    let n := ty.access
    let ea : Nat → Nat := x.gaddr a b off
    let pa (l : Nat) : Nat := x.paAt (ea l)
    let host (l : Nat) : Bool := (x.pageAt (ea l)).hmem
    let hits (l : Nat) (m : Bool) (q : Nat) : Prop := host l = m ∧ pa l ≤ q ∧ q < pa l + n
    let as (ls : List Nat) : List Acc1 := ls.map fun l => (l, ea l, n)
    let ld : Instr := .ldg h mm ty d a b off
    let st : Instr := .stg h mm ty d a b off
    let areas (u : State) : Prop := ∀ k g q, look s.wgs k = some g →
      (k ≠ x.c.wid ∨ ∀ w ∈ vals g.stash, q < w.l ∨ w.l + w.n ≤ q) → u.lbyte k q = s.lbyte k q
    (issuing s ld = some x → x.clear (as (x.computing d)) (x.globCause .load) →
      x.sound ((as (x.computing d)).filter fun e => !x.g.present e.2.1 n) →
      x.watched (as (x.computing d)) = none →
      ∃ (u : State) (f : Nat → Nat), MakesGives ld x u d ty.wide (fun l => ty.loaded (f l)) ∧
        (∀ l ∈ x.computing d, f l = natOfBytes (x.bytesAt (ea l) n) ∨
          (mm.acquires = false ∧ x.g.windowOf (ea l) n = none ∧ s.cacheable (x.pageAt (ea l)) (pa l) = true ∧
            ∃ bs, look (s.core x.g.core).l1 (pa l / 128) = some bs ∧ f l = natOfBytes ((bs.drop (pa l % 128)).take n))) ∧
        { u with wgs := s.wgs, cores := s.cores, fresh := s.fresh, past := s.past } = s ∧ GroupsKeep s u ∧ areas u ∧
        CoresKeep x.g.core s u ∧
        (mm.acquires = true → (u.core x.g.core).l1 = [])) ∧
    (issuing s st = some x → x.clear (as x.lanes) (x.globCause .store) → x.watched (as x.lanes) = none →
      ∃ u, Makes st x u ∧
        (∀ m q, (∀ l ∈ x.lanes, ¬hits l m q) →
          memGet (if m then u.hostMem else u.mem) q = memGet (if m then s.hostMem else s.mem) q) ∧
        (∀ l ∈ x.lanes, ∀ k, k < n → (∀ j ∈ x.lanes, l < j → ¬hits j (host l) (pa l + k)) →
          memGet (if host l then u.hostMem else u.mem) (pa l + k) = BitVec.ofNat 8 (x.rd ty d l / 2 ^ (8 * k))) ∧
        { u with mem := s.mem, hostMem := s.hostMem, poison := s.poison, wgs := s.wgs, cores := s.cores, dies := s.dies, past := s.past } = s ∧
        (mm.scope ≠ .sys → u.dies = s.dies) ∧ GroupsKeep s u ∧ areas u ∧ CoresKeep x.g.core s u)

/-- O: 07 R202, 15 R359, R360, 18 R436: the checks of global loads, stores and atomics, in order: MISALIGNED; a walk that it
needs is asked for and waited for (log entry 25); then the first cause in order, on the lanes that meet it (every lane with a
true guard, when one load is made for them all), with the lowest one's address; a page in flip is waited for; poison that a
load or an atomic reads, but in a line that a window holds, or that the L1 gives a load that is no acquire; last the watch
range. What a page lets a plain access do: a store or an atomic needs it writable, a load any class but that of accumulator
lines, a store the normal class, an atomic also device memory with device bias; device memory must be homed on the own die.
-/
def Obligations.GlobalChecksInOrder : Prop :=
  (∀ (h : Hd) (mm : Mm) (op : AtomOp) (nr : Bool) (ty : Ty) (d a b c : Opnd) (off : BitVec 24) (s : State) (x : Ix),
    let n := ty.access
    let ea : Nat → Nat := x.gaddr a b off
    let ld : Instr := .ldg h mm ty d a b off
    let st : Instr := .stg h mm ty d a b off
    let at_ : Instr := .atg h mm op nr ty d a b c
    let z : Nat → Nat := x.gaddr a b 0
    let as (ls : List Nat) (f : Nat → Nat) : List Acc1 := ls.map fun l => (l, f l, n)
    let reads (f : Nat → Nat) (l : Nat) : Bool := !x.g.present (f l) n
    let ended (i : Instr) (o : Opnd) (es : List Acc1) : Prop :=
      ∀ t, x.watched es = some t → Traps i x { t with lanes := if o.isS then x.on else t.lanes }
    let none_ : Opnd := .p 7
    (issuing s ld = some x → ChecksAccess ld x d (x.computing d) ea n (x.globCause .load)) ∧
    (issuing s st = some x → ChecksAccess st x none_ x.lanes ea n (x.globCause .store)) ∧
    (issuing s at_ = some x → x.on ≠ 0 → ChecksAccess at_ x none_ x.lanes z n (x.globCause .atomic)) ∧
    (issuing s ld = some x → x.clear (as (x.computing d) ea) (x.globCause .load) →
      (mm.acquires = true ∨ ∀ l ∈ x.computing d, look (s.core x.g.core).l1 (x.paAt (ea l) / 128) = none) →
      ChecksPoison ld x d (x.computing d) ea n (reads ea)) ∧
    (issuing s at_ = some x → x.on ≠ 0 → x.clear (as x.lanes z) (x.globCause .atomic) →
      ChecksPoison at_ x none_ x.lanes z n (reads z)) ∧
    (issuing s ld = some x → x.clear (as (x.computing d) ea) (x.globCause .load) →
      x.sound ((as (x.computing d) ea).filter fun e => !x.g.present e.2.1 n) → ended ld d (as (x.computing d) ea)) ∧
    (issuing s st = some x → x.clear (as x.lanes ea) (x.globCause .store) → ended st none_ (as x.lanes ea)) ∧
    (issuing s at_ = some x → x.on ≠ 0 → x.clear (as x.lanes z) (x.globCause .atomic) →
      x.sound ((as x.lanes z).filter fun e => !x.g.present e.2.1 n) → ended at_ none_ (as x.lanes z))) ∧
  (∀ (x : Ix) (es : List Acc1) (t : Trap), x.watched es = some t →
    t.cause = 0x0C ∧ ∃ e ∈ es, t.faddr = some (BitVec.ofNat 64 e.2.1) ∧ x.w.watchBase.toNat < e.2.1 + e.2.2 ∧
      e.2.1 < x.w.watchBase.toNat + x.w.watchLen.toNat) ∧
  (∀ (s : State) (core : Nat) (k : Plain) (va : Nat) (p : Page),
    (k ≠ .load → p.w = false → plainCause s core k va (.page p) = some (3, 0x31)) ∧
    (k = .load ∨ p.w = true →
      let fits := match k with
        | .load => p.cls ≠ 1
        | .store => p.cls = 0
        | .atomic => p.cls = 0 ∧ p.hmem = false ∧ s.hostBiased (p.pa va) = false
      (¬fits → plainCause s core k va (.page p) = some (4, 0x32)) ∧
      (fits → p.hmem = false → paDie (p.pa va) ≠ dieOf core → plainCause s core k va (.page p) = some (5, 0x35)) ∧
      (fits → p.hmem = true ∨ paDie (p.pa va) = dieOf core → plainCause s core k va (.page p) = none)) ∧
    plainCause s core k va .absent = some (1, 0x30) ∧ plainCause s core k va .poison = some (1, 0x38))

/-- O: 07 R203, R191, R197, 14 R340, 17 R421, R427: atomics, in ascending lane order: each lane reads the old value where its
address leads, then writes the new one there; the old values go to the destination unless `.nr`. A quantum or spec use writes
nothing, and reads what its location held at some instant of the machine's history that R340 allows, by a free choice (log
entries 9, 66: the model's choice). A value-returning atomic waits for its turn in the order log of a D2 kernel, and `ATG`
for its act on channel 7 in D1. With no lane on it only advances, and captures zeros. The destination is a v register, the
only class that the encoding gives it. -/
def Obligations.AtomicsAct : Prop :=
  (∀ (h : Hd) (mm : Mm) (op : AtomOp) (nr : Bool) (ty : Ty) (k : BitVec 8) (a b c : Opnd) (s : State) (x : Ix),
    let d : Opnd := .v k
    let n := ty.access
    let l (j : Nat) : Nat := x.lanes.getD j 0
    let newOf (j old : Nat) : Nat := atomNew op ty.signed ty.ew old (x.rd ty c (l j)) (x.rd ty (nextOpnd ty c) (l j))
    let still := mm.use = .quant ∨ mm.use = .spec
    let ends (i : Instr) (u : State) (f : Nat → Nat) : Prop :=
      if nr then Makes i x u else MakesGives i x u d ty.wide f
    let loc : Instr := .atl h mm op nr ty d a b c
    let glob : Instr := .atg h mm op nr ty d a b c
    let at_ (j : Nat) : Nat × Nat := x.areaAt (x.laddr a b 0 (l j)) n
    let pa (j : Nat) : Nat := x.paAt (x.gaddr a b 0 (l j))
    let las : List Acc1 := x.lanes.map fun l => (l, x.laddr a b 0 l, n)
    let gas : List Acc1 := x.lanes.map fun l => (l, x.gaddr a b 0 l, n)
    let fine := gas.filter fun e => !x.g.present e.2.1 n
    let once (u : State) (area : Option Nat) (q : Nat) (bs : List Byte) (v : Nat) : Prop :=
      ∃ rs, rs <+: u.past ∧ v = natOfBytes (before rs area q bs) ∧ (mm.use = .spec → rs.length ≤ u.past.length - x.w.floor) ∧
        ∀ r ∈ rs, r.who = some (x.c.wid, x.c.warp) → mm.use = .spec ∨ r.seen = false → r.meets area q n = false
    (x.on = 0 → (issuing s loc = some x → if nr then Leaves loc x x.w else Writes loc x x.w d ty.wide (fun _ => 0)) ∧
      (issuing s glob = some x → if nr then Leaves glob x x.w else Writes glob x x.w d ty.wide (fun _ => 0))) ∧
    (x.on ≠ 0 →
    (issuing s loc = some x → x.reaches las → (nr = true ∨ x.logs = false) →
      ∃ (st : Nat → State) (f : Nat → Nat), ends loc (st x.lanes.length) f ∧ st 0 = s.acquired x.g.core mm ∧
        ∀ j, j < x.lanes.length →
          let now := (st j).lread (at_ j).1 (at_ j).2 n
          (still → once (st j) (some (at_ j).1) (at_ j).2 now (f (l j)) ∧ { st (j + 1) with fresh := s.fresh } = { st j with fresh := s.fresh }) ∧
          (¬still → f (l j) = natOfBytes now ∧ { st (j + 1) with past := s.past } =
            { (st j).lwrite (at_ j).1 (at_ j).2 (bytesOfNat n (newOf j (f (l j)))) with past := s.past })) ∧
    (issuing s loc = some x → x.reaches las → nr = false → x.logs = true → Waits loc x s (.logged none)) ∧
    (issuing s glob = some x → x.clear gas (x.globCause .atomic) → x.sound fine → x.watched gas = none →
      (nr = true ∨ (x.logs = false ∧ x.orders = false)) →
      ∃ (st : Nat → State) (f : Nat → Nat), ends glob (st x.lanes.length) f ∧ GroupsKeep s (st x.lanes.length) ∧
        (st 0).mem = s.mem ∧ (∀ j, (st j).hostMem = s.hostMem) ∧
        ∀ j, j < x.lanes.length →
          let now := memRead (st j).mem (pa j) n
          (still → once (st j) none (pa j) now (f (l j)) ∧ (st (j + 1)).mem = (st j).mem) ∧
          (¬still → f (l j) = natOfBytes now ∧
            (st (j + 1)).mem = memWrite (st j).mem (pa j) (bytesOfNat n (newOf j (f (l j)))))) ∧
    (issuing s glob = some x → x.clear gas (x.globCause .atomic) → x.sound fine → x.watched gas = none → nr = false →
      (x.logs = true → Waits glob x s (.logged none)) ∧
      (x.logs = false → x.orders = true →
        let taken := x.kr.rc.det = 0 ∨ s.chanTaken (dieOf x.g.core) 7 x.g.inst = true
        (taken → Meets glob x 0x62 x.c.bundle none) ∧
        (¬taken → Waits glob x (s.bindChan (dieOf x.g.core) 7 x.g.inst) (.act 7)))))) ∧
  (∀ (rs : List Past) (r : Past) (area : Option Nat) (q i : Nat) (bs : List Byte), i < bs.length →
    before [] area q bs = bs ∧
    (before (rs ++ [r]) area q bs).getD i 0 = if r.area = area ∧ r.at_ ≤ q + i ∧ q + i < r.at_ + r.old.length then r.old.getD (q + i - r.at_) 0
      else (before rs area q bs).getD i 0) ∧
  (∀ (w : Nat) (sg : Bool) (old c next : BitVec w), 0 < w →
    let new (op : AtomOp) : Nat := atomNew op sg w old.toNat c.toNat next.toNat
    let less : Bool := if sg then old.slt c else old.ult c
    new .add = (old + c).toNat ∧ new .min = (if less then old else c).toNat ∧ new .max = (if less then c else old).toNat ∧
    new .and = (old &&& c).toNat ∧ new .or = (old ||| c).toNat ∧ new .xor = (old ^^^ c).toNat ∧ new .xchg = c.toNat ∧
    new .cas = (if old = c then next else old).toNat ∧ new .inc = if c.toNat ≤ old.toNat then 0 else old.toNat + 1)

/-- O: 07 R190, R192, R195, R204-R207: opening and closing a stash window, and what refuses one, in the order of R204; `STFL`
and `STINV` clean lines, empty them under `STINV`, and hold the whole warp until every write-back of their windows, whoever
began it, is acknowledged, while `STASH` with N = 0 gives its window's lines up at once (log entry 50: the model's choices);
`L1INV` empties the core's L1; `PREF` changes no memory and no register, and waits for the walks it needs; with no lane on,
all but `PREF` only advance.
WRITE_BACK_COMPLETE, of any workgroup and line: an acknowledged line stays, shared, unless an `STINV` that covers its window
waits, when it goes, as does a line that no write-back was made for (it is evicted); no other line changes; then every warp
in an `STFL` or `STINV` none of whose windows still has a write-back under way goes on, and every other warp stays as it was.
-/
def Obligations.StashAndL1 : Prop :=
  (∀ (h : Hd) (win : BitVec 2) (all : Bool) (a b c : Opnd) (off : BitVec 24) (s : State) (x : Ix),
    let i : Instr := .stash h win a b c
    let g := x.u64 a
    let l := x.u32 b
    let n := x.u32 c
    let set (f : Tab Stash → Tab Stash) : State := s.modWg x.c.wid fun y => { y with stash := f y.stash }
    let isOpen := ∃ w, look x.g.stash win.toNat = some w
    let odd := g % 128 ≠ 0 ∨ l % 128 ≠ 0 ∨ n % 128 ≠ 0
    let meets := 2 ^ 56 < g + n ∨ ∃ o ∈ vals x.g.stash, (g < o.g + o.n ∧ o.g < g + n) ∨ (l < o.l + o.n ∧ o.l < l + n)
    let on (k : Nat) : Bool := all || k == win.toNat
    let dirty := ∃ p ∈ x.g.stash, on p.1 = true ∧ ∃ q ∈ p.2.lines, q.2.dirty = true ∨ q.2.wb = true
    let flushed (inv : Bool) : State := set fun t => t.map fun p => (p.1, if on p.1 then p.2.flush inv else p.2)
    (x.on ≠ 0 → issuing s i = some x →
      (n = 0 → Makes i x (set fun t => del t win.toNat)) ∧
      (n ≠ 0 → isOpen → Meets i x 0x36 x.on (some (BitVec.ofNat 64 g))) ∧
      (n ≠ 0 → ¬isOpen → odd → Meets i x 0x33 x.on (some (BitVec.ofNat 64 g))) ∧
      (n ≠ 0 → ¬isOpen → ¬odd → x.kr.rc.loc < l + n → Meets i x 0x34 x.on (some (BitVec.ofNat 64 g))) ∧
      (n ≠ 0 → ¬isOpen → ¬odd → l + n ≤ x.kr.rc.loc → meets → Meets i x 0x36 x.on (some (BitVec.ofNat 64 g))) ∧
      (n ≠ 0 → ¬isOpen → ¬odd → l + n ≤ x.kr.rc.loc → ¬meets → Makes i x (set fun t => ins t win.toNat ⟨g, l, n, []⟩))) ∧
    (x.on ≠ 0 → issuing s (.stfl h all win) = some x →
      (¬dirty → Makes (.stfl h all win) x (flushed false)) ∧ (dirty → Waits (.stfl h all win) x (flushed false) .wb)) ∧
    (x.on ≠ 0 → issuing s (.stinv h all win) = some x →
      (¬dirty → Makes (.stinv h all win) x (flushed true)) ∧ (dirty → Waits (.stinv h all win) x (flushed true) .wb)) ∧
    (x.on ≠ 0 → issuing s (.l1inv h) = some x → Makes (.l1inv h) x (s.modCore x.g.core fun k => { k with l1 := [] })) ∧
    (issuing s (.pref h a b off) = some x → (∀ l ∈ x.lanes, x.xlate (x.gaddr a b off l) ≠ .miss) →
      ∃ u, Makes (.pref h a b off) x u ∧ { u with wgs := s.wgs, cores := s.cores, fresh := s.fresh } = s ∧ GroupsKeep s u ∧
        CoresKeep x.g.core s u) ∧
    (let far := (x.lanes.map (x.gaddr a b off)).filter fun va => x.xlate va = .miss;
      issuing s (.pref h a b off) = some x → far ≠ [] →
      Waits (.pref h a b off) x (s.askWalks (dieOf x.g.core) x.kr.ctx (x.c.wid, x.c.warp) far) .walk) ∧
    (x.on = 0 → (issuing s i = some x → Leaves i x x.w) ∧ (issuing s (.stfl h all win) = some x → Leaves (.stfl h all win) x x.w) ∧
      (issuing s (.stinv h all win) = some x → Leaves (.stinv h all win) x x.w) ∧
      (issuing s (.l1inv h) = some x → Leaves (.l1inv h) x x.w))) ∧
  (∀ (s : State) (wid k line : Nat) (g : Wg), look s.wgs wid = some g →
    let cleans (w : Warp) (j : Nat) (inv : Bool) : Prop := ∃ h hd all win, w.hold = some h ∧ h.wait = .wb ∧
      (all = true ∨ j = win.toNat) ∧ ((h.instr = .stfl hd all win ∧ inv = false) ∨ (h.instr = .stinv hd all win ∧ inv = true))
    let emptied := ∃ p ∈ g.warps, cleans p.2 k true
    ∃ t y, exec (.writeBackComplete wid k line) s = .next t ∧ look t.wgs wid = some y ∧
      { y with warps := g.warps, stash := g.stash } = g ∧ (∀ n, n ≠ wid → look t.wgs n = look s.wgs n) ∧
      (∀ n, t.core n = s.core n) ∧
      { t with wgs := s.wgs, cores := s.cores, poison := s.poison, cur := s.cur } = s ∧
      (∀ j, j ≠ k → look y.stash j = look g.stash j) ∧ (look g.stash k = none → look y.stash k = none ∧ t.poison = s.poison) ∧
      (∀ w, look g.stash k = some w → look w.lines line = none → look y.stash k = some w ∧ t.poison = s.poison) ∧
      (∀ w q, look g.stash k = some w → look w.lines line = some q →
        (q.wb = true → ¬emptied → look y.stash k = some { w with lines := ins w.lines line { q with wb := false } }) ∧
        (q.wb = false ∨ emptied → look y.stash k = some { w with lines := del w.lines line }) ∧
        t.poison = if q.wb ∨ q.dirty then unpoison q.pa 128 s.poison else s.poison) ∧
      (∀ i hold x, s.held wid i = some (hold, x) → (∃ j inv, cleans x.w j inv) →
        let busy := ∃ p ∈ y.stash, ∃ inv, cleans x.w p.1 inv ∧ ∃ q ∈ p.2.lines, q.2.wb = true
        (busy → look y.warps i = look g.warps i) ∧
        (¬busy → ∃ w, look y.warps i = some w ∧ Settles x.w w ∧ SameRegs x.w w ∧ x.advanced w)) ∧
      (∀ i w, look g.warps i = some w → (¬∃ j inv, cleans w j inv) → look y.warps i = some w))
/-! ### Handles and the CPY group (08 R209-R219, 09 R220-R243) -/

/-- O: 08 R211, R212, R217-R219: a handle is live when it names a slot other than 0 that is live in its generation; consuming
one that is not gives HANDLE_STALE, one of another kind HANDLE_KIND. `SEAL` of a record that passes its checks takes the
lowest slot that is neither live nor retired and answers slot and generation, or 0 when there is none; a failing field traps
SEAL_BAD at its address. The record is read as by one load at the dome. `UNSEAL` frees the slot and raises its generation,
retiring one at 0xFFFF. `HQRY` never traps. -/
def Obligations.SealedRecords : Prop :=
  (∀ (s : State) (die ctx kind : Nat) (v : Word),
    let e := s.slotOf die ctx (v.toNat / 65536)
    let live := v.toNat / 65536 ≠ 0 ∧ e.live = true ∧ e.gen = v.setWidth 16
    (¬live → s.handle die ctx v kind = .error 0x40) ∧
    (live → e.kind ≠ kind → s.handle die ctx v kind = .error 0x41) ∧
    (live → e.kind = kind → s.handle die ctx v kind = .ok e.copy)) ∧
  (∀ (h : Hd) (kind : RecKind) (n : BitVec 8) (a b : Opnd) (off : BitVec 24) (s : State) (x : Ix) (z : Nat),
    let i : Instr := .seal h kind (.s n) a b off
    let ea := x.gaddr a b off (firstOf x.lanes)
    let size := recSize kind.bits.toNat
    let bs := memRead s.mem (x.paAt ea) size
    let die := dieOf x.g.core
    let slot (m : Nat) : Slot := s.slotOf die x.kr.ctx m
    let taken (m : Nat) : Prop := (slot m).live = true ∨ (slot m).retired = true
    let read : State := s.domeRead x.g.core false (x.paAt ea) size
    issuing s i = some x → x.on ≠ 0 → x.clear [(firstOf x.lanes, ea, 32)] (x.recordCause size) →
    s.poisoned (x.paAt ea) size = false →
    (∀ c o, s.recBad die x.kr.ctx kind.bits.toNat bs = some (c, o) →
      Meets i x 0x42 x.on (some (BitVec.ofNat 64 (ea + o)))) ∧
    (s.recBad die x.kr.ctx kind.bits.toNat bs = none → 1 ≤ z → z ≤ 65535 → ¬taken z → (∀ m, 1 ≤ m → m < z → taken m) →
      MakesGives i x (read.setSlot die x.kr.ctx z ⟨(slot z).gen, true, false, kind.bits.toNat, bs⟩) (.s n) false
        (fun _ => z * 65536 + (slot z).gen.toNat)) ∧
    (s.recBad die x.kr.ctx kind.bits.toNat bs = none → (∀ m, 1 ≤ m → m ≤ 65535 → taken m) →
      MakesGives i x read (.s n) false (fun _ => 0))) ∧
  (∀ (h : Hd) (rc : Bool) (n : BitVec 8) (a : Opnd) (k : BitVec 6) (s : State) (x : Ix),
    let v : Word := BitVec.ofNat 32 (x.u32 a)
    let die := dieOf x.g.core
    let e := s.slotOf die x.kr.ctx (v.toNat / 65536)
    let live := v.toNat / 65536 ≠ 0 ∧ e.live = true ∧ e.gen = v.setWidth 16
    (issuing s (.unseal h a) = some x → x.on ≠ 0 →
      (¬live → Meets (.unseal h a) x 0x40 x.on none) ∧
      (live → Makes (.unseal h a) x (s.setSlot die x.kr.ctx (v.toNat / 65536)
        (if e.gen = 0xFFFF then ⟨e.gen, false, true, 0, []⟩ else ⟨e.gen + 1, false, false, 0, []⟩)))) ∧
    (issuing s (.hqry h rc (.s n) a k) = some x →
      Writes (.hqry h rc (.s n) a k) x x.w (.s n) false (fun _ =>
        if rc then (if live ∧ 4 * k.toNat < recSize e.kind then fld e.copy (4 * k.toNat) 4 else 0)
        else if v.toNat / 65536 = 0 then 0
        else e.gen.toNat * 65536 + (if live then e.kind else 0))))

/-- O: 09 R225, R227-R229, R239-R241: barriers. An arrival and bytes done; a phase completes, once, when enough have arrived,
nothing is pending and nothing has under- or overflowed; bytes owed; initialisation advances the phase by 2. `BARV` and
`BEXP` answer the phase before them (an arrival at a saved partner's barrier is added to its redirect record). `BWAIT` on a
phase in progress blocks its threads, and else says whether the token is stale and whether the phase just completed counted a
fault; threads blocked in it are released alike when the phase is over. -/
def Obligations.LandingBarriers : Prop :=
  (∀ (b : Bar) (n y : Nat),
    let arr := min (b.arr + n) 0xFFFF
    let under := b.pend < y
    let full := b.u = false ∧ ¬under ∧ b.exp ≤ arr ∧ b.pend = y
    (full → Bar.arrive n y b = (⟨b.exp, 0, 0, b.phase + 1, false, b.f, false⟩, true)) ∧
    (¬full → Bar.arrive n y b = (⟨b.exp, arr, b.pend - y, b.phase, b.f, b.pf, b.u || decide under⟩, false)) ∧
    (b.pend + y ≤ 2 ^ 48 - 1 → Bar.owe y b = ({ b with pend := b.pend + y }, false)) ∧
    (2 ^ 48 - 1 < b.pend + y → Bar.owe y b = ({ b with u := true, pend := 2 ^ 48 - 1 }, false)) ∧
    Bar.init n b = (⟨n, 0, 0, b.phase + 2, false, false, false⟩, false) ∧
    (b.exp < 2 ^ 16 → b.arr < 2 ^ 16 → b.pend < 2 ^ 48 → b.image % 2 ^ 16 = b.exp ∧ b.image / 2 ^ 16 % 2 ^ 16 = b.arr ∧
      b.image / 2 ^ 32 % 2 ^ 48 = b.pend ∧ b.image / 2 ^ 80 % 2 ^ 16 = b.phase.toNat ∧ b.image.testBit 96 = b.f ∧
      b.image.testBit 97 = b.pf ∧ b.image.testBit 98 = b.u)) ∧
  (∀ (h : Hd) (lanes : Bool) (n : BitVec 8) (d a b c : Opnd) (s : State) (x : Ix), x.on ≠ 0 →
    let v := x.u32 a
    let q := v % 256
    let bar := x.g.bar q
    let own := v < 1024 ∧ q < x.kr.rc.bars
    let bad (i : Instr) : Prop := issuing s i = some x → v / 1024 % 2 = 0 → v / 2048 ≠ 0 ∨ x.kr.rc.bars ≤ q →
      Meets i x 0x60 x.on (some (BitVec.ofNat 64 v))
    let cnt := if lanes then x.lanes.length else x.u32 b % 65536
    (own → issuing s (.binit h a b) = some x →
      Makes (.binit h a b) x (s.barUpdate x.c.wid q (Bar.init (x.u32 b % 65536)))) ∧
    (own → x.g.st ≠ .saved → issuing s (.barv h lanes (.s n) a b c) = some x →
      MakesGives (.barv h lanes (.s n) a b c) x (s.barUpdate x.c.wid q (Bar.arrive cnt (x.u32 c))) (.s n) false
        (fun _ => bar.phase.toNat)) ∧
    (∀ wid g, 1024 ≤ v → v < 2048 → q < x.kr.rc.bars → x.partnerOf (v / 256 % 4) = .here wid → look s.wgs wid = some g →
      g.st ≠ .saved → issuing s (.barv h lanes (.s n) a b c) = some x →
      MakesGives (.barv h lanes (.s n) a b c) x (s.barUpdate wid q (Bar.arrive cnt (x.u32 c))) (.s n) false
        (fun _ => (g.bar q).phase.toNat)) ∧
    (∀ wid g, 1024 ≤ v → v < 2048 → q < x.kr.rc.bars → x.partnerOf (v / 256 % 4) = .saved wid → look s.wgs wid = some g →
      g.st = .saved → issuing s (.barv h lanes (.s n) a b c) = some x →
      MakesGives (.barv h lanes (.s n) a b c) x (s.redirect g q cnt (x.u32 c)) (.s n) false (fun _ => (g.bar q).phase.toNat)) ∧
    (own → issuing s (.bexp h (.s n) a b) = some x →
      MakesGives (.bexp h (.s n) a b) x (s.barUpdate x.c.wid q (Bar.owe (x.u32 b))) (.s n) false (fun _ => bar.phase.toNat)) ∧
    (own → issuing s (.bwait h d a b c) = some x →
      let away := (bar.phase - BitVec.ofNat 16 (x.u32 b)).toNat
      let i : Instr := .bwait h d a b c
      (bar.u = true → Meets i x 0x61 x.on (some (BitVec.ofNat 64 v))) ∧
      (bar.u = false → away = 0 → Flows i x { x.w with
          blocked := x.w.blocked ++ [⟨x.c.prio, x.c.pc, x.on, .bar q (BitVec.ofNat 16 (x.u32 b)) d.idx c.idx⟩] }
        [⟨x.c.prio, x.c.pc + 12, x.c.bundle &&& ~~~x.on⟩]) ∧
      (bar.u = false → away ≠ 0 → Leaves i x ((x.w.pset d.idx x.on (if away = 1 then 0 else x.on)).pset c.idx x.on
        (if away = 1 ∧ bar.pf = true then x.on else 0)))) ∧
    (own → issuing s (.btest h false d a b) = some x →
      (bar.u = true → Meets (.btest h false d a b) x 0x61 x.on (some (BitVec.ofNat 64 v))) ∧
      (bar.u = false → Writes (.btest h false d a b) x x.w d false
        (fun _ => if (bar.phase - BitVec.ofNat 16 (x.u32 b)).toNat = 1 then 1 else 0))) ∧
    (own → issuing s (.btest h true (.s n) a b) = some x →
      ∃ u, Leaves (.btest h true (.s n) a b) x u ∧ u = { x.w with s := u.s } ∧ ∀ m, u.sget m =
        if n.toNat ≤ m ∧ m < n.toNat + 4 then BitVec.ofNat 32 (bar.image / 2 ^ (32 * (m - n.toNat))) else x.w.sget m) ∧
    bad (.binit h a b) ∧ bad (.barv h lanes d a b c) ∧ bad (.bexp h d a b) ∧ bad (.bwait h d a b c) ∧ bad (.btest h lanes d a b)) ∧
  (∀ (s : State) (wid n : Nat) (g : Wg) (f : Bar → Bar × Bool), look s.wgs wid = some g → (f (g.bar n)).2 = false →
    ∃ k, look (s.barUpdate wid n f).wgs wid = some k ∧ k.bar n = (f (g.bar n)).1 ∧ (∀ m, m ≠ n → k.bar m = g.bar m) ∧
      (∀ m, m ≠ wid → look (s.barUpdate wid n f).wgs m = look s.wgs m) ∧ (s.barUpdate wid n f).mem = s.mem ∧
      (s.barUpdate wid n f).cores = s.cores) ∧
  (∀ (w : Warp) (bars : Nat → Bar) (b : Blocked) (n d c : Nat) (t : BitVec 16), w.hmode = false → w.blocked = [b] →
    b.why = .bar n t d c → d ≠ c → d < 7 → c < 7 →
    let v := w.judgeBars bars
    let away := ((bars n).phase - t).toNat
    ((bars n).u = true → v.blocked = [] ∧ v.standAt b.mask b.prio b.pc) ∧
    ((bars n).u = false → away = 0 → v.blocked = [b] ∧ v.front = w.front) ∧
    ((bars n).u = false → away ≠ 0 → v.blocked = [] ∧ v.standAt b.mask b.prio (b.pc + 12) ∧
      ∀ l, b.mask.getLsbD l = true → (v.pget d).getLsbD l = decide (away ≠ 1) ∧
        (v.pget c).getLsbD l = (decide (away = 1) && (bars n).pf)))

/-- O: 09 R230-R233, R242: the event matrix. `EVMSET` answers 1 and changes nothing while another workgroup holds the matrix;
else it takes it and sets route bits, a watch point, or sends a pulse, which adds 1 to the counter of every column whose bit
its source's row has, by a workgroup that holds nothing on them. `EVMCLR` acts only for the holder: it clears route bits,
counters, a watch point, or, with no held command, releases the matrix, zero. Points that the spec leaves open here are the
model's own choices: log entries 14 and 94. -/
def Obligations.EventMatrixActs : Prop :=
  (∀ (h : Hd) (n : BitVec 8) (a b : Opnd) (s : State) (x : Ix), x.on ≠ 0 →
    let av := x.u32 a
    let bv := x.u32 b
    let mx := (s.core x.g.core).mx
    let mine : Matrix := { mx with holder := some x.c.wid }
    let set (m : Matrix) : State := s.modCore x.g.core fun k => { k with mx := m }
    let hold (i : Instr) : Prop := issuing s i = some x ∧ (mx.holder = none ∨ mx.holder = some x.c.wid)
    let own (i : Instr) : Prop := issuing s i = some x ∧ mx.holder = some x.c.wid
    let held := (∃ c ∈ vals x.g.cmds, c.on ≠ none) ∨ ∃ q ∈ (s.core x.g.core).seqq, q.wid = x.c.wid ∧ q.on ≠ none
    let gives (i : Instr) (m : Matrix) : Prop := MakesGives i x (set m) (.s n) false (fun _ => 0)
    let fails (i : Instr) : Prop := Meets i x 0x43 (lowLanes x.w.width) (some 0)
    (∀ mode k, mx.holder = some k → k ≠ x.c.wid → issuing s (.evmset h mode (.s n) a b) = some x →
      Writes (.evmset h mode (.s n) a b) x x.w (.s n) false (fun _ => 1)) ∧
    (hold (.evmset h .route (.s n) a b) → (15 < bv → fails (.evmset h .route (.s n) a b)) ∧
      (bv ≤ 15 → gives (.evmset h .route (.s n) a b)
        { mine with rows := ins mx.rows bv (lookD mx.rows bv 0 ||| BitVec.ofNat 16 av) })) ∧
    (hold (.evmset h .watch (.s n) a b) → (3 < bv → fails (.evmset h .watch (.s n) a b)) ∧
      (bv ≤ 3 → av < 1024 → av % 256 < x.kr.rc.bars →
        gives (.evmset h .watch (.s n) a b) { mine with watch := ins mx.watch bv (av % 256) })) ∧
    (hold (.evmset h .pulse (.s n) a b) → (bv ≠ 14 → bv ≠ 15 → fails (.evmset h .pulse (.s n) a b)) ∧
      (bv = 14 ∨ bv = 15 → av ≠ 0 → Meets (.evmset h .pulse (.s n) a b) x 0x01 x.c.bundle none) ∧
      (bv = 14 ∨ bv = 15 → av = 0 →
        MakesGives (.evmset h .pulse (.s n) a b) x ((set mine).pulse x.g.core x.c.wid bv) (.s n) false (fun _ => 0))) ∧
    (∀ mode, mx.holder ≠ some x.c.wid → issuing s (.evmclr h mode a b) = some x → Leaves (.evmclr h mode a b) x x.w) ∧
    (own (.evmclr h .route a b) →
      Makes (.evmclr h .route a b) x (set { mx with rows := upd mx.rows bv fun r => r &&& ~~~(BitVec.ofNat 16 av) })) ∧
    (own (.evmclr h .cnt a b) → bv = 0 →
      Makes (.evmclr h .cnt a b) x (set { mx with cnt := mx.cnt.filter fun p => !av.testBit p.1 })) ∧
    (own (.evmclr h .watch a b) → Makes (.evmclr h .watch a b) x (set { mx with watch := del mx.watch bv })) ∧
    (own (.evmclr h .rel a b) → av = 0 → bv = 0 → held → fails (.evmclr h .rel a b)) ∧
    (own (.evmclr h .rel a b) → av = 0 → bv = 0 → ¬held → Makes (.evmclr h .rel a b) x (set ⟨none, [], [], []⟩))) ∧
  (∀ (s : State) (core wid src c : Nat), (s.core core).mx.holder = some wid → (∀ k, s.column core wid k = []) → c < 16 →
    lookD ((s.pulse core wid src).core core).mx.cnt c 0 =
      (if (lookD (s.core core).mx.rows src 0).getLsbD c then min (lookD (s.core core).mx.cnt c 0 + 1) 0xFFFF
       else lookD (s.core core).mx.cnt c 0)) ∧
  (∀ (s : State) (core wid src : Nat), (s.core core).mx.holder ≠ some wid → s.pulse core wid src = s)

/-- O: 09 R220, R221, R226, R235-R238, R243, 17 R411, R413: `CPY`, `GATH` and `SCAT` whose checks pass post a command under
the next post number, with its group, barrier, start column and superstep parity, and do nothing else: memory is moved by the
engine; with every slot of the workgroup taken they wait. A gather in superstep mode with a row some page of which is homed
outside the scope's instance traps PHASE_STATE, on the lanes of such rows (a list's: the bundle). `CPYQ` reports a group;
`CPYK` cancels its held commands and counts them. Points that the spec leaves open here are the model's own choices: log
entries 97 and 98. -/
def Obligations.CopyCommandsPost : Prop :=
  ∀ (h : Hd) (dir : CpyDir) (list rows clr : Bool) (grp : BitVec 3) (on : Start) (n : BitVec 8) (d a b c : Opnd) (s : State)
    (x : Ix),
    let bar := x.u32 d
    let col : Option Nat := on.map (·.toNat)
    let ready := bar < 1024 ∧ bar % 256 < x.kr.rc.bars ∧ x.kr.rc.copies ≠ 0 ∧
      (on ≠ none → (s.core x.g.core).mx.holder = some x.c.wid)
    let free := x.g.cmds.length < x.kr.rc.copies
    let quiet := ∀ k, col = some k → lookD (s.core x.g.core).mx.cnt k 0 = 0
    let posts (i : Instr) (j : Job) : Prop :=
      (¬free → exec i s = .next { s with cur := some { x.c with ready := false } }) ∧
      (free → quiet → ∃ u, Makes i x u ∧ u.count = s.count + 1 ∧
        (∃ y, look u.wgs x.c.wid = some y ∧ { y with cmds := x.g.cmds } = x.g ∧
          y.cmds = ins x.g.cmds s.count ⟨s.count, x.c.warp, j, grp.toNat, col, false, (x.c.wid, bar % 256), [], [], [], 0, 0, none,
            if x.kr.rc.sscope = 0 then none else some (x.w.ph.getLsbD 0)⟩) ∧
        (∀ k, k ≠ x.c.wid → look u.wgs k = look s.wgs k) ∧
        { u with wgs := s.wgs, cores := s.cores, count := s.count } = s ∧ (on = none → u.cores = s.cores))
    let reach (ea len : Nat) : Prop := ∃ w o, x.reach ea len = .area w o
    let len := x.u32 c
    let ga := dir = .l2g ∨ dir = .g2g
    let gb := dir = .g2l ∨ dir = .g2g
    let dst := if ga then x.u64 a else x.u32 a
    let src := if gb then x.u64 b else x.u32 b
    let apart := dir = .l2l → ∀ w p q, areaOf x.c.wid dst = some (w, p) → areaOf x.c.wid src = some (w, q) →
      p + len ≤ q ∨ q + len ≤ p
    let loc := x.u32 a
    let idx : List (Option Nat) := (List.range x.w.width).map fun l =>
      if x.w.live.getLsbD l ∧ x.rd32 b l ≠ 0xFFFFFFFF then some (x.rd32 b l) else none
    let grps := x.g.group (x.u32 a)
    let mine := (vals x.g.cmds).filter fun k => k.grp == x.u32 a
    let held := mine.filter fun k => k.on.isSome
    (issuing s (.cpy h dir grp on d a b c) = some x → ready → len % 4 = 0 → 4 ≤ len → len ≤ 2 ^ 24 → apart →
      dst % 4 = 0 → src % 4 = 0 → (¬ga → reach dst len) → (¬gb → reach src len) →
      posts (.cpy h dir grp on d a b c) (.copy dir dst src len)) ∧
    (issuing s (.cpy h dir grp on d a b c) = some x → bar < 1024 → bar % 256 < x.kr.rc.bars →
      x.kr.rc.copies = 0 ∨ len % 4 ≠ 0 ∨ len < 4 ∨ 2 ^ 24 < len →
      Meets (.cpy h dir grp on d a b c) x 0x43 (lowLanes x.w.width) (some 0)) ∧
    (∀ (gather : Bool) bs, let i : Instr := if gather then .gath h list rows grp on d a b c else .scat h list rows grp on d a b c
      let t := tensorOf bs
      let R := t.rowBytes
      let la := x.u32 b
      let strays (r : Nat) : Prop := gather = true ∧ x.kr.rc.sscope ≠ 0 ∧ r < t.size.getD 1 0 ∧
        ∃ g ∈ segs (spanOf (t.rowAt r) R).1 (spanOf (t.rowAt r) R).2, ∃ p, (s.engXlate x.g.core x.kr.ctx g.2.1).1 = .page p ∧
          p.hmem = false ∧ paDie (p.pa g.2.1) ≠ dieOf x.g.core ∧ inScope x.kr.rc.sscope (dieOf x.g.core) (paDie (p.pa g.2.1)) = false
      issuing s i = some x → x.handle (x.u32 c) 1 = .ok bs → ready → t.rowsOk = true →
      (list = false → loc % 4 = 0 →
        (∀ l, l < x.w.width → x.w.live.getLsbD l = true → x.rd32 b l ≠ 0xFFFFFFFF → reach ((loc + l * R) % 2 ^ 32) R) →
        ((∀ l r, l < x.w.width → idx[l]? = some (some r) → ¬strays r) → posts i (.rows gather rows false loc t idx 0 x.w.width)) ∧
        (∀ m : Mask, m ≠ 0 → (∀ l, m.getLsbD l = true ↔ l < x.w.width ∧ ∃ r, idx[l]? = some (some r) ∧ strays r) →
          Meets i x 0x65 m none)) ∧
      (list = true → la % 4 = 0 → ∀ w o, areaOf x.c.wid la = some (w, o) → reach la 4 →
        let k := natOfBytes (s.lread w o 4)
        let word (j : Nat) : Nat := natOfBytes (s.lread w (o + 4 + 4 * j) 4)
        let far := ∃ j, j < k ∧ word j ≠ 0xFFFFFFFF ∧ strays (word j)
        (65535 < k → Meets i x 0x43 (lowLanes x.w.width) (some 0)) ∧
        (k ≤ 65535 → loc % 4 = 0 → (k ≠ 0 → reach la (4 + 4 * k) ∧ reach loc (k * R)) →
          (¬far → posts i (.rows gather rows true loc t [] la k)) ∧ (far → Meets i x 0x65 x.c.bundle none)))) ∧
    (issuing s (.cpyq h clr (.s n) a) = some x → x.on ≠ 0 →
      (7 < x.u32 a → Meets (.cpyq h clr (.s n) a) x 0x43 (lowLanes x.w.width) (some 0)) ∧
      (x.u32 a ≤ 7 → MakesGives (.cpyq h clr (.s n) a) x
        (if clr then s.modWg x.c.wid fun g => { g with grps := del g.grps (x.u32 a) } else s) (.s n) false
        (fun _ => grps.cause * 2 ^ 17 + (if grps.failed then 2 ^ 16 else 0) + held.length * 256 + mine.length))) ∧
    (issuing s (.cpyk h (.s n) a) = some x → x.on ≠ 0 →
      (7 < x.u32 a → Meets (.cpyk h (.s n) a) x 0x43 (lowLanes x.w.width) (some 0)) ∧
      (x.u32 a ≤ 7 → MakesGives (.cpyk h (.s n) a) x (held.foldl (fun s c => s.cancel x.c.wid c) s) (.s n) false
        (fun _ => held.length)))

/-- O: 09 R221-R224, R231, R237, R238: the copy engine. The oldest command that is not held starts, its pieces listed; the
pieces of a copy are consecutive runs of its destination, each within one 128-byte line, the whole of it and no more. A piece
or row whose bytes can be read and written moves and is counted on the barrier in one step; one that meets a cause is missing
and moves nothing. A far row is asked for, lands once all its replies are there, and is given up 64 us after its first
request. A command with nothing left completes: its fault update and its group's record if it met a cause, then one pulse.
Points that the spec leaves open here are the model's own choices: log entries 15, 52, 60 and 61. -/
def Obligations.CopyEngineWorks : Prop :=
  (∀ (s : State) (core wid : Nat) (g : Wg) (c : Cmd), (wid, g) ∈ s.wgs → c ∈ vals g.cmds → g.core = core → g.off = false →
    g.stopAt = none → c.running = false → c.on = none →
    (∀ w y k, (w, y) ∈ s.wgs → k ∈ vals y.cmds → y.core = core → k.running = false → k.on = none →
      c.seq < k.seq ∨ (k = c ∧ w = wid)) →
    (exec (.commandStart core) s = .next (s.modCmd wid c.seq fun _ => s.begun wid c) ∧ (s.begun wid c).running = true ∧
      (∀ dir dst src len, c.job = .copy dir dst src len → (s.begun wid c).todo = copyPieces dst len) ∧
      (∀ gather count loc t idx n, c.job = .rows gather count false loc t idx 0 n →
        ∀ i, i ∈ (s.begun wid c).todo ↔ ∃ r, idx[i]? = some (some r)))) ∧
  (∀ dst len, 0 < len →
    (copyPiece dst len 0).1 = 0 ∧
    (∀ q, q + 1 ∈ copyPieces dst len → (copyPiece dst len (q + 1)).1 = (copyPiece dst len q).1 + (copyPiece dst len q).2) ∧
    (∀ q, q ∈ copyPieces dst len → 0 < (copyPiece dst len q).2 ∧
      (dst + (copyPiece dst len q).1) / 128 = (dst + (copyPiece dst len q).1 + (copyPiece dst len q).2 - 1) / 128 ∧
      (q + 1 ∉ copyPieces dst len → (copyPiece dst len q).1 + (copyPiece dst len q).2 = len))) ∧
  (∀ (s : State) (wid cmd u : Nat) (g : Wg) (c : Cmd) (k : Kernel), s.cmd? wid cmd = some (g, c, k) → c.seq = cmd → c.running = true →
    let done (c : Cmd) : Cmd := { c with todo := c.todo.filter fun v => v != u }
    (∀ dir dst src len, c.job = .copy dir dst src len → u ∈ c.todo →
      let o := (copyPiece dst len u).1
      let n := (copyPiece dst len u).2
      let r := s.cmdRead g k.ctx wid (dir == .g2l || dir == .g2g) (src + o) n
      let w := r.2.cmdMayWrite g k.ctx wid (dir == .l2g || dir == .g2g) (dst + o) n
      (∀ bs zs, r.1 = .ok bs → w.1 = .ok zs → exec (.pieceLanded wid cmd u) s =
        .next (((w.2.cmdWrite g k.ctx wid (dir == .l2g || dir == .g2g) (dst + o) bs).modCmd wid cmd done).barArrive
          c.bar.1 c.bar.2 0 n)) ∧
      (∀ e zs, r.1 = .bad e → w.1 = .ok zs → exec (.pieceLanded wid cmd u) s =
        .next (w.2.modCmd wid cmd fun c => done (c.miss e 0 n)) ∧
          (w.2.modCmd wid cmd fun c => done (c.miss e 0 n)).mem = w.2.mem)) ∧
    (∀ gather count list loc t idx la m, c.job = .rows gather count list loc t idx la m →
      let R := t.rowBytes
      let rows := if count then 1 else 0
      let i := (idx.getD u none).getD 0
      let entry := (loc + u * R) % 2 ^ 32
      let turn := if gather then u ∈ c.todo else c.todo.head? = some u
      (look c.far u = none → turn → t.size.getD 1 0 ≤ i → exec (.rowLanded wid cmd u) s =
        .next (s.modCmd wid cmd fun c => done (c.miss 0x43 rows R))) ∧
      (∀ bs s1 zs s2, gather = true → look c.far u = none → turn → i < t.size.getD 1 0 →
        s.rowHome g.core k.ctx (t.rowAt i) R = (.here, s1) → s1.engRead g.core k.ctx (t.rowAt i) R = (.ok bs, s2) →
        s2.cmdMayWrite g k.ctx wid false entry R = (.ok zs, s2) → exec (.rowLanded wid cmd u) s =
        .next (((s2.areaPut none wid entry bs).modCmd wid cmd done).barArrive c.bar.1 c.bar.2 rows R)) ∧
      (∀ bs zs s2, gather = false → look c.far u = none → turn → i < t.size.getD 1 0 → s.areaRead wid entry R = some bs →
        s.engMayWrite g.core k.ctx (t.rowAt i) R = (.ok zs, s2) → exec (.rowLanded wid cmd u) s =
        .next (((s2.engWrite g.core k.ctx (t.rowAt i) bs).modCmd wid cmd done).barArrive c.bar.1 c.bar.2 rows R)) ∧
      (∀ runs s1, gather = true → look c.far u = none → turn → i < t.size.getD 1 0 →
        s.rowHome g.core k.ctx (t.rowAt i) R = (.away runs, s1) → exec (.rowLanded wid cmd u) s =
        .next (s1.askRow g wid c u i runs)) ∧
      (∀ f bs, look c.far u = some f → s.rowReplies f = some bs → f.late s.time = false → (∀ a ∈ c.asks, a.1 ≠ u) → s.areaThere wid entry = true →
        exec (.rowLanded wid cmd u) s = .next (((s.areaPut none wid entry ((bs.drop (t.rowAt f.row % 8)).take R)).rowOver wid c u f).barArrive
          c.bar.1 c.bar.2 rows R)) ∧
      (∀ f, look c.far u = some f → (∀ a ∈ c.asks, a.1 ≠ u) → f.since ≠ 0 →
        (f.elapsed + (s.time + 1 - f.since) < 64000 → exec (.gatherRowTimeout wid cmd u) s = .next s) ∧
        (64000 ≤ f.elapsed + (s.time + 1 - f.since) → exec (.gatherRowTimeout wid cmd u) s =
          .next ((s.rowOver wid c u f).modCmd wid cmd fun c =>
            { c.miss 0x50 rows R with asks := c.asks.filter fun a => a.1 != u })))) ∧
    (c.todo = [] → c.asks = [] → c.far = [] →
      let freed := s.modWg wid fun g => { g with cmds := del g.cmds cmd }
      (c.cause = none → exec (.commandComplete wid cmd) s = .next (freed.pulse g.core wid c.grp)) ∧
      (∀ e, c.cause = some e → exec (.commandComplete wid cmd) s =
        .next (((freed.modWg wid fun g => { g with grps := ins g.grps c.grp ⟨lessCause (g.group c.grp).cause e.toNat, true⟩ }).barFault
          c.bar.1 c.bar.2 c.missRows c.missing).pulse g.core wid c.grp))))

/-! ### The TIL group (10 R245-R268) -/

/-- O: 10 R246, R248, R257-R262: `TCFG` takes a valid value; `TLD`, `TST`, `TZERO`, `TMOV`, `MMA` and `MMASP` whose checks
pass take their place in the core's engine queue, with what they read at issue, and their warp owes what R251 says; a product
and `TMOV.tt` set the tile's layout or configuration. Undeclared tiles and bad values trap TILE_CFG, undeclared accumulators
ACC_RANGE, bad addresses MISALIGNED and LOCAL_RANGE with the first offending address, in that order, naming every lane, and
change nothing else. Points that the spec leaves open here are the model's own choices: log entry 16. -/
def Obligations.TileInstructionsQueue : Prop :=
  ∀ (h : Hd) (tr : TrMode) (d a b c : Opnd) (off : BitVec 24) (sw : Bool) (pat : SpPat) (fa fb : BitVec 5) (ty : Ty) (n : BitVec 8)
    (s : State) (x : Ix),
    let own (o : Opnd) : Prop := o.idx < x.kr.rc.tiles
    let cfg (o : Opnd) : Nat := (x.g.tile o.idx).cfg.toNat
    let ew (o : Opnd) : Nat := cfg o / 2 ^ 14 % 4
    let fails (i : Instr) (cause : BitVec 7) (at_ : Nat) : Prop := Meets i x cause (lowLanes x.w.width) (some (BitVec.ofNat 64 at_))
    let v := x.u32 a
    let valid := v < 2 ^ 16 ∧ v / 2 ^ 14 ≠ 3 ∧ v % 256 ≠ 0 ∧ v % 256 * 2 ^ (v / 2 ^ 14) ≤ 128
    let p := x.u32 b
    let ea := laddr32 (x.u32 a) off.toInt
    let moves (i : Instr) (tr : TrMode) : Prop :=
      let runs := tileRuns tr (edgeOf (cfg d)) ea p
      let named := own d ∧ 1 ≤ p ∧ p ≤ 65536
      let even := ea % 4 = 0 ∧ p % 4 = 0 ∧ (tr = .tr8 → ew d = 0) ∧ (tr = .tr16 → ew d = 1)
      (¬named → fails i 0x12 0) ∧
      (named → ea % 4 ≠ 0 → fails i 0x33 ea) ∧
      (named → ea % 4 = 0 → p % 4 ≠ 0 → fails i 0x33 (laddr32 ea (p : Int))) ∧
      (named → ea % 4 = 0 → p % 4 = 0 → ¬even → fails i 0x33 ea) ∧
      (named → even → ∀ r rs, (runs.filter fun r => x.reach r.1 r.2 == .nothing) = r :: rs → fails i 0x34 (x.firstLost r.1 r.2)) ∧
      (named → even → (∀ r ∈ runs, ∃ w o, x.reach r.1 r.2 = .area w o) →
        Makes i x (x.inQueue s [cfg d, ea, p] [] [] 0 0 true false))
    let kind : AccKind := if ty = .i8 then .i32 else .f32
    let lay : AccLayout := if sw then .turned else .plain
    let fits := ((x.g.acc d.idx).kind = .none ∨ (x.g.acc d.idx).kind = kind) ∧
      ((x.g.acc d.idx).layout = .unset ∨ (x.g.acc d.idx).layout = lay)
    let wide := if ty = .f16 ∨ ty = .bf16 then 1 else 0
    let given := s.modWg x.c.wid fun g => g.modAcc d.idx fun y => { y with kind := kind, layout := lay }
    let mma : Instr := .mma h sw fb fa ty d a b
    let mmasp : Instr := .mmasp h sw pat fb fa ty d a b c
    let near := p + x.w.width / 32 ≤ 64
    (issuing s (.tcfg h d a) = some x →
      (own d ∧ valid → Makes (.tcfg h d a) x (s.modWg x.c.wid fun g => g.setCfg d.idx v)) ∧
      (¬(own d ∧ valid) → fails (.tcfg h d a) 0x12 0)) ∧
    (issuing s (.tld h tr d a b off) = some x → moves (.tld h tr d a b off) tr) ∧
    (issuing s (.tst h d a b off) = some x → moves (.tst h d a b off) .none) ∧
    (issuing s (.tzero h d) = some x →
      (¬own d → fails (.tzero h d) 0x12 0) ∧ (own d → Makes (.tzero h d) x (x.inQueue s [] [] [] 0 0 false false))) ∧
    (issuing s mma = some x →
      (x.kr.rc.accs ≤ d.idx → fails mma 0x13 0) ∧
      (d.idx < x.kr.rc.accs → ¬(own a ∧ own b ∧ ew a = wide ∧ ew b = wide ∧ fits) → fails mma 0x12 0) ∧
      (d.idx < x.kr.rc.accs → own a → own b → ew a = wide → ew b = wide → fits →
        Makes mma x (x.inQueue given [cfg a, cfg b] [] [] 0 0 false true))) ∧
    (issuing s mmasp = some x →
      (x.kr.rc.accs ≤ d.idx → fails mmasp 0x13 0) ∧
      (d.idx < x.kr.rc.accs → ¬(own a ∧ own b ∧ own c ∧ ew a = wide ∧ ew b = wide ∧ ew c = 0 ∧ fits) → fails mmasp 0x12 0) ∧
      (d.idx < x.kr.rc.accs → own a → own b → own c → ew a = wide → ew b = wide → ew c = 0 → fits →
        Makes mmasp x (x.inQueue given [cfg a, cfg b, cfg c] [] [] 0 0 false true))) ∧
    (issuing s (.tmov h .tt d a b) = some x → own d → own a →
      Makes (.tmov h .tt d a b) x (x.inQueue (s.modWg x.c.wid fun g => g.setCfg d.idx (cfg a)) [] [] [] 0 0 false false)) ∧
    (issuing s (.tmov h .t2v d a b) = some x → own a → near →
      Makes (.tmov h .t2v d a b) x (x.inQueue s [cfg a, p] [] [] d.idx 1 false false)) ∧
    (issuing s (.tmov h .v2t d a b) = some x → own d → near →
      Makes (.tmov h .v2t d a b) x (x.inQueue s [cfg d, p] [] ((List.range x.w.width).map fun l =>
        (l, if x.w.live.getLsbD l then x.w.vget a.idx l else 0)) 0 0 false false)) ∧
    (issuing s (.tmov h .tt d a b) = some x → ¬(own d ∧ own a) → fails (.tmov h .tt d a b) 0x12 0) ∧
    (issuing s (.tmov h .t2v d a b) = some x → ¬(own a ∧ near) → fails (.tmov h .t2v d a b) 0x12 0) ∧
    (issuing s (.tmov h .v2t d a b) = some x → ¬(own d ∧ near) → fails (.tmov h .v2t d a b) 0x12 0) ∧
    (issuing s (.tqry h true (.s n) a) = some x →
      Writes (.tqry h true (.s n) a) x x.w (.s n) false fun _ => x.kr.rc.tiles + 256 * x.kr.rc.accs) ∧
    (issuing s (.tqry h false (.s n) a) = some x → x.on ≠ 0 →
      (own a → Writes (.tqry h false (.s n) a) x x.w (.s n) false fun _ => cfg a) ∧
      (¬own a → fails (.tqry h false (.s n) a) 0x12 0))

/-- O: 10 R247, R251, R253, R254, R259, R260, 02 R51, R53: what the engine does with the tile instruction at the head of its
queue. `TLD` puts the runs' bytes into the rows, or with `.tr8` and `.tr16` into the columns, of the edge, and touches no
other byte of the tile; `TST` stores the edge's rows in ascending order; `TZERO` and `TMOV` write theirs. `MMA` and `MMASP`
give each element of the edges the group sums of its products on top of its old value and or the conditions into `FLG`; no
other element changes. A group's sum is exact and rounded once; a NaN product, zero times infinity or opposite infinities
make it NaN and raise IV; groups are added in ascending order, each sum rounded. Points that the spec leaves open here are
the model's own choices: log entries 15 and 48. -/
def Obligations.EngineMovesAndMultiplies : Prop :=
  (∀ (s : State) (core : Nat) (j : EngJob) (g : Wg) (w : Warp) (h : Hd) (d a b c : Opnd) (off : BitVec 24), s.memWf = true →
    s.atHead core j → look s.wgs j.wid = some g → look g.warps j.warp = some w →
    let e := edgeOf (j.p 0)
    let valid := e.cols * e.e ≤ 128
    let run (tr : TrMode) (k : Nat) : List Byte :=
      s.engLocal j.wid (laddr32 (j.p 1) ((k * j.p 2 : Nat) : Int)) (if tr = .none then e.cols * e.e else e.rows * e.e)
    let inEdge (q : Nat) : Bool := decide (q / 128 < e.rows ∧ q % 128 < e.cols * e.e)
    let bytesOf (o : Opnd) (q : Nat) : Byte := memGet (g.tile o.idx).bytes q
    let tile (f : Nat → Byte) : Prop := ∃ m : Mem, (∀ q, memGet m q = f q) ∧
      Executes s core j (s.modWg j.wid fun g => g.modTile d.idx fun t => { t with bytes := m })
    let adds (acc : Opnd) (sw : Bool) (m n : Nat) (sum : Nat → Nat → Nat × Cond) : Prop := ∃ (y : Acc) (flg : BitVec 5),
      Executes s core j ((s.modWg j.wid fun g => g.modAcc acc.idx fun _ => y).modWarp j.wid j.warp fun w => { w with flg := flg }) ∧
      { y with els := (g.acc acc.idx).els } = g.acc acc.idx ∧
      (∀ i k, i < 64 → k < 64 →
        y.get sw i k = if i < m ∧ k < n then BitVec.ofNat 32 (sum i k).1 else (g.acc acc.idx).get sw i k) ∧
      ∀ q, q < 5 → (flg.getLsbD q = true ↔ w.flg.getLsbD q = true ∨ ∃ i k, i < m ∧ k < n ∧ (sum i k).2.getLsbD q = true)
    (j.instr = .tld h .none d a b off → valid →
      tile fun q => if inEdge q then (run .none (q / 128)).getD (q % 128) 0 else bytesOf d q) ∧
    (∀ tr, tr ≠ .none → j.instr = .tld h tr d a b off → valid →
      tile fun q => if inEdge q then (run tr (q % 128 / e.e)).getD (e.e * (q / 128) + q % 128 % e.e) 0 else bytesOf d q) ∧
    (j.instr = .tst h d a b off → Executes s core j ((List.range e.rows).foldl (fun s i =>
      s.areaPut (some (j.wid, j.warp)) j.wid (laddr32 (j.p 1) ((i * j.p 2 : Nat) : Int)) (memRead (g.tile d.idx).bytes (128 * i) (e.cols * e.e))) s)) ∧
    (j.instr = .tzero h d → tile fun _ => 0) ∧
    (j.instr = .tmov h .tt d a b → tile (bytesOf a)) ∧
    (j.instr = .tmov h .v2t d a b → valid → (∀ v ∈ j.vals, v.1 < 128) →
      j.vals.Pairwise (fun u v => u.1 < v.1) →
      tile fun q => if inEdge q ∧ j.p 1 ≤ q / 128 ∧ (look j.vals (32 * (q / 128 - j.p 1) + q % 128 / 4)).isSome
        then (lookD j.vals (32 * (q / 128 - j.p 1) + q % 128 / 4) 0).extractLsb' (8 * (q % 4)) 8 else bytesOf d q) ∧
    (j.instr = .tmov h .t2v d a b → ∃ r : Warp, Executes s core j (s.modWarp j.wid j.warp fun _ => r) ∧ { r with v := w.v } = w ∧
      ∀ m l, l < 128 → r.vget m l = if m = d.idx ∧ j.live.getLsbD l then BitVec.ofNat 32 (natOfBytes ((List.range 4).map fun k =>
          let r := j.p 1 + l / 32
          let q := 4 * (l % 32) + k
          if r < e.rows ∧ q < e.cols * e.e then bytesOf a (128 * r + q) else 0))
        else w.vget m l) ∧
    (∀ sw fb fa ty, j.instr = .mma h sw fb fa ty d a b →
      let f := edgeOf (j.p 1)
      let k := max e.cols f.cols
      adds d sw e.rows f.rows fun i n => engineSum ty fa fb k true ((g.acc d.idx).get sw i n).toNat
        ((List.range k).map fun q => (q, tileGet (g.tile a.idx).bytes e i q, tileGet (g.tile b.idx).bytes f n q))) ∧
    (∀ sw pat fb fa ty, j.instr = .mmasp h sw pat fb fa ty d a b c →
      let f := edgeOf (j.p 1)
      let mt := edgeOf (j.p 2)
      let sz : Nat × Nat := match pat with
        | .s24 => (2, 4)
        | .s14 => (1, 4)
        | .s48 => (4, 8)
      let place (i q : Nat) : Nat :=
        (if i < mt.rows ∧ q / 2 < mt.cols * mt.e then (bytesOf c (128 * i + q / 2)).toNat else 0) / 16 ^ (q % 2) % 16
      adds d sw e.rows f.rows fun i n => engineSum ty fa fb f.cols false ((g.acc d.idx).get sw i n).toNat
        ((List.range e.cols).filterMap fun q =>
          let k := q / sz.1 * sz.2 + place i q
          if place i q < sz.2 ∧ k < f.cols then some (k, tileGet (g.tile a.idx).bytes e i q, tileGet (g.tile b.idx).bytes f n k)
          else none))) ∧
  (∀ (fa fb : BitVec 5) (n acc : Nat) (pad : Bool) (ts : List (Nat × Nat × Nat)),
    engineSum .i8 fa fb n pad acc ts =
      (wrapNat 32 ((acc : Int) + (ts.map fun t => asSigned 8 t.2.1 * asSigned 8 t.2.2).sum), cNone)) ∧
  (∀ (ty : Ty) (fa fb : BitVec 5) (n acc : Nat) (pad : Bool) (ts : List (Nat × Nat × Nat)), ty ≠ .i8 →
    let size := if ty = .b8 then 32 else 16
    let inside (q : Nat) : List (Machine.Num × Machine.Num) :=
      (ts.filter fun t => t.1 / size == q).map fun t => (engineNum ty fa t.2.1, engineNum ty fb t.2.2)
    let terms (q : Nat) : List (Machine.Num × Machine.Num) := inside q ++
      (if pad then List.replicate (size - (inside q).length) (.fin false 0 0, .fin false 0 0) else [])
    ∃ group : Nat → Machine.Num × Cond,
      (∀ q, let ps := (terms q).map fun t => (mulNum t.1 t.2).1
        let nan := (∃ p ∈ ps, p.isNan = true) ∨ (.inf false ∈ ps ∧ .inf true ∈ ps)
        (nan → (group q).1 = .nan false) ∧
        (¬nan → ∀ u, .inf u ∈ ps → group q = (.inf u, cNone)) ∧
        (¬nan → (∀ u, .inf u ∉ ps) → RoundsSum f32.fmt .rne false ps
          (!ps.isEmpty && ps.all fun p => p.isZero && p.neg?) (group q)) ∧
        (nan → (group q).2.getLsbD 0 = true ∧ ∀ b, 0 < b → b < 5 → (group q).2.getLsbD b = false)) ∧
      (let add (r : Nat × Cond) (q : Nat) : Nat × Cond :=
          let y := fpAdd f32.fmt .rne false (f32.decode r.1) (group q).1
          (f32.encode y.1, r.2 ||| (group q).2 ||| y.2)
       let all := (List.range ((n + size - 1) / size)).foldl add (acc, cNone)
       (engineSum ty fa fb n pad acc ts).1 = all.1 ∧
       ∀ b, b < 5 → ((engineSum ty fa fb n pad acc ts).2.getLsbD b = true ↔ all.2.getLsbD b = true)))

/-- O: 10 R263-R267: `MMSEQ` whose handles, accumulator, geometry and ranges pass joins the core's sequencer, or waits on its
column, busying its accumulator; a full queue keeps it. Each SEQUENCER_STEP adds the product of the next 64 or 128 columns,
as `MMA` would; the last one, or a step that would meet an open window, completes it: counted in `DONE`, `FLT` set by a
fault, source 8 pulsed, its flags kept with the columns of that pulse until the warp joins it there or by `SEQST.wait`.
`SEQST` reads the counts, the running job's step and `FLT`, and `.clr` clears that; `.wait` waits for the warp's own. Points
that the spec leaves open here are the model's own choices: log entries 15 and 99. -/
def Obligations.SequencerRuns : Prop :=
  (∀ (h : Hd) (sw : Bool) (on : Start) (fb fa : BitVec 5) (ty : Ty) (d a b : Opnd) (ra rb : List Byte) (s : State) (x : Ix),
    let i : Instr := .mmseq h sw on fb fa ty d a b
    let ta := tensorOf ra
    let tb := tensorOf rb
    let fails (cause : BitVec 7) (at_ : Nat) : Prop := Meets i x cause (lowLanes x.w.width) (some (BitVec.ofNat 64 at_))
    let kind : AccKind := if ty = .i8 then .i32 else .f32
    let lay : AccLayout := if sw then .turned else .plain
    let acc := x.g.acc d.idx
    let fits := (acc.kind = .none ∨ acc.kind = kind) ∧ (acc.layout = .unset ∨ acc.layout = lay)
    let ok (t : Tensor) (code : BitVec 5) : Prop := t.rank = 2 ∧ t.ty = ty.bits.toNat ∧ (ty = .b8 → t.fmt = code) ∧
      t.stride.getD 0 0 = tySize t.ty ∧ t.stride.getD 1 0 % 4 = 0 ∧ 4 ≤ t.stride.getD 1 0 ∧ t.stride.getD 1 0 ≤ 65536 ∧
      t.base % 4 = 0 ∧ t.base < 2 ^ 20 ∧ t.size.getD 1 0 ≤ 64 ∧ t.size.getD 0 0 ≤ 1048576
    let same := ta.size.getD 0 0 = tb.size.getD 0 0
    let core := s.core x.g.core
    let held := on = none ∨ core.mx.holder = some x.c.wid
    let span (t : Tensor) : Nat := t.last + 1 - t.base
    let reach (t : Tensor) : Prop := t.base + span t ≤ x.kr.rc.loc ∧ x.g.inStash t.base (span t) = false
    let lost (t : Tensor) : Option Nat := x.declaredBad t.base (span t)
    let room := on ≠ none ∨ (core.seqq.filter fun q => q.on.isNone).length < 8
    let quiet := ∀ k : BitVec 4, on = some k → lookD core.mx.cnt k.toNat 0 = 0
    let job : SeqJob := ⟨s.count, x.c.wid, x.c.warp, d.idx, ty, fa, fb, sw, ta, tb, on.map (·.toNat), false, 0, 0⟩
    issuing s i = some x →
      (∀ e, x.handle (x.u32 a) 1 = .error e → fails e 0) ∧
      (x.handle (x.u32 a) 1 = .ok ra → x.handle (x.u32 b) 1 = .ok rb →
        (x.kr.rc.accs ≤ d.idx → fails 0x13 0) ∧
        (d.idx < x.kr.rc.accs → ¬fits → fails 0x12 0) ∧
        (d.idx < x.kr.rc.accs → fits → ¬ok ta fa → fails 0x44 (x.u32 a)) ∧
        (d.idx < x.kr.rc.accs → fits → ok ta fa → ¬(ok tb fb ∧ same) → fails 0x44 (x.u32 b)) ∧
        (d.idx < x.kr.rc.accs → fits → ok ta fa → ok tb fb → same → ¬held → fails 0x43 0) ∧
        (d.idx < x.kr.rc.accs → fits → ok ta fa → ok tb fb → same → held → ∀ e, lost ta = some e → fails 0x34 e) ∧
        (d.idx < x.kr.rc.accs → fits → ok ta fa → ok tb fb → same → held → lost ta = none → ∀ e, lost tb = some e → fails 0x34 e) ∧
        (d.idx < x.kr.rc.accs → fits → ok ta fa → ok tb fb → same → held → reach ta → reach tb →
          (¬room → exec i s = .next { s with cur := some { x.c with ready := false } }) ∧
          (room → quiet → ∃ u, Makes i x u ∧ { u with wgs := s.wgs, cores := s.cores, count := s.count } = s ∧
            u.count = s.count + 1 ∧
            (∃ y, look u.wgs x.c.wid = some y ∧ y.posted = (x.g.posted + 1) % 65536 ∧
              { y with posted := x.g.posted, accs := x.g.accs } = x.g ∧
              ∀ n, y.acc n = if n = d.idx then { acc with kind := kind, layout := lay } else x.g.acc n) ∧
            (∀ k, k ≠ x.c.wid → look u.wgs k = look s.wgs k) ∧ (∀ k, k ≠ x.g.core → u.core k = s.core k) ∧
            { u.core x.g.core with mx := core.mx } = { core with seqq := core.seqq ++ [job] } ∧
            (on = none → (u.core x.g.core).mx = core.mx))))) ∧
  (∀ (h : Hd) (wait clr : Bool) (n : BitVec 8) (s : State) (x : Ix), issuing s (.seqst h wait clr (.s n)) = some x → x.on = 0 →
    Leaves (.seqst h wait clr (.s n)) x x.w) ∧
  (∀ (h : Hd) (wait clr : Bool) (n : BitVec 8) (s : State) (x : Ix), x.on ≠ 0 → h.nwb = false → h.cap = false →
    issuing s (.seqst h wait clr (.s n)) = some x →
    let q := (s.core x.g.core).seqq
    let cleared := if clr then s.modWg x.c.wid fun g => { g with flt := false } else s
    let joined := if wait then cleared.modWarp x.c.wid x.c.warp fun w =>
      { w with flg := w.seqFlags.foldl (fun f p => f ||| p.2) w.flg, seqFlags := [] } else cleared
    let own := q.filter fun j => j.wid == x.c.wid && j.run
    let state := x.g.posted * 2 ^ 48 + x.g.done * 2 ^ 32 + (if x.g.flt then 2 ^ 30 else 0)
    ((wait = false ∨ ∀ j ∈ q, ¬(j.wid = x.c.wid ∧ j.warp = x.c.warp)) →
      (own = [] → MakesGives (.seqst h wait clr (.s n)) x joined (.s n) true fun _ => state) ∧
      (∀ j, own = [j] → MakesGives (.seqst h wait clr (.s n)) x joined (.s n) true
        fun _ => state + 2 ^ 31 + j.step * 2 ^ 15 + j.steps)) ∧
    (wait = true → (∃ j ∈ q, j.wid = x.c.wid ∧ j.warp = x.c.warp) → Waits (.seqst h wait clr (.s n)) x s .seqst)) ∧
  (∀ (s : State) (wid warp : Nat) (hold : Hold) (x : Ix) (h : Hd) (clr : Bool) (n : BitVec 8), s.held wid warp = some (hold, x) →
    hold.wait = .seqst → hold.instr = .seqst h true clr (.s n) → x.on ≠ 0 → h.nwb = false →
    let q := (x.s.core x.g.core).seqq
    let cleared := if clr then x.s.modWg x.c.wid fun g => { g with flt := false } else x.s
    let joined := cleared.modWarp x.c.wid x.c.warp fun w =>
      { w with flg := w.seqFlags.foldl (fun f p => f ||| p.2) w.flg, seqFlags := [] }
    ((∃ j ∈ q, j.wid = x.c.wid ∧ j.warp = x.c.warp) → exec (.seqstWaitReturn wid warp) s = .next s) ∧
    ((∀ j ∈ q, j.wid ≠ x.c.wid) → ResumesGives (.seqstWaitReturn wid warp) s x joined (.s n) true
      fun _ => x.g.posted * 2 ^ 48 + x.g.done * 2 ^ 32 + (if x.g.flt then 2 ^ 30 else 0))) ∧
  (∀ (s : State) (core : Nat) (j : SeqJob) (g : Wg), s.seqHead core = some j → look s.wgs j.wid = some g →
    (s.core core).engq = [] ∨ (s.core core).engTurn = true → s.aqReady core = false →
    let kk := if j.ty = .f16 ∨ j.ty = .bf16 then 64 else 128
    let k0 := j.step * kk
    let kb := min kk (j.ta.size.getD 0 0 - k0)
    let row (t : Tensor) (i k : Nat) : Nat := memNat g.mem (t.base + i * t.stride.getD 1 0 + (k0 + k) * tySize t.ty) (tySize t.ty)
    let m := j.ta.size.getD 1 0
    let n := j.tb.size.getD 1 0
    let blocked := g.stepBlocked j.ta k0 kb = true ∨ g.stepBlocked j.tb k0 kb = true
    let sum (i k : Nat) : Nat × Cond := engineSum j.ty j.fa j.fb kb true ((g.acc j.acc).get j.sw i k).toNat
      ((List.range kb).map fun q => (q, row j.ta i q, row j.tb k q))
    let columns : BitVec 16 := if (s.core core).mx.holder = some j.wid then lookD (s.core core).mx.rows 8 0 else 0
    let ends (u : State) (fault : Bool) (flags : BitVec 5) : State :=
      (((u.modCore core fun c => { c with seqq := c.seqq.filter fun q => q.seq != j.seq }).modWg j.wid fun g =>
        { g with done := (g.done + 1) % 65536, flt := g.flt || fault }).modWarp j.wid j.warp fun w =>
          { w with seqFlags := w.seqFlags ++ [(columns, flags)] }).pulse core j.wid 8
    let answers (u : State) : Prop := exec (.sequencerStep core) s = .next (u.modCore core fun k => { k with engTurn := false })
    (blocked → answers (ends s true j.flags)) ∧
    (¬blocked → m ≤ 64 → n ≤ 64 → ∃ (y : Acc) (flags : BitVec 5),
      let u := s.modWg j.wid fun g => g.modAcc j.acc fun _ => y
      { y with els := (g.acc j.acc).els } = g.acc j.acc ∧
      (∀ i k, i < 64 → k < 64 → y.get j.sw i k = if i < m ∧ k < n then BitVec.ofNat 32 (sum i k).1 else (g.acc j.acc).get j.sw i k) ∧
      (∀ q, q < 5 → (flags.getLsbD q = true ↔ j.flags.getLsbD q = true ∨ ∃ i k, i < m ∧ k < n ∧ (sum i k).2.getLsbD q = true)) ∧
      ((j.ta.size.getD 0 0 + kk - 1) / kk ≤ j.step + 1 → answers (ends u false flags)) ∧
      (j.step + 1 < (j.ta.size.getD 0 0 + kk - 1) / kk →
        answers (u.modCore core fun c => { c with seqq := c.seqq.map fun q =>
          if q.seq == j.seq then { j with run := true, step := j.step + 1, flags := flags } else q }))))
/-! ### The ACC group (11 R270-R288) -/

/-- O: 11 R271, R273, R276-R283, R286, R288: the instructions on accumulator tiles whose checks pass take their place in the
engine queue, with what they read at issue, and their warp owes what R272 says; `AST`, `ASCA`, `AZERO` and `.z` set the
tile's kind and layout, `SPLIT` its tiles' configurations, `AQRED` its workgroup's count. An undeclared tile or row traps
ACC_RANGE, a kind or record that does not suit TILE_CFG, naming every lane. `ACQRY` reads kind and layout. Points that the
spec leaves open here are the model's own choices: log entry 16. -/
def Obligations.AccumulatorInstructionsQueue : Prop :=
  (∀ (h : Hd) (ln : BitVec 3) (ty : Ty) (d a b c : Opnd) (z sat ex fsc int mbf : Bool) (fmt : BitVec 5) (rnd : Rnd) (rule : UpdRule)
    (sl lv : BitVec 4) (k : BitVec 8) (ra rb : List Byte) (s : State) (x : Ix),
    let own (o : Opnd) : Prop := o.idx < x.kr.rc.accs
    let acc (o : Opnd) : Acc := x.g.acc o.idx
    let fails (i : Instr) (cause : BitVec 7) : Prop := Meets i x cause (lowLanes x.w.width) (some 0)
    let set (o : Opnd) (f : Acc → Acc) : State := s.modWg x.c.wid fun g => g.modAcc o.idx f
    let emptied : State := if z then set a fun y => { y with kind := .none, layout := .unset } else s
    let n := 2 ^ ln.toNat
    let p := x.u32 b
    let rows (p : Nat) : Prop := p + x.w.width / 32 * (n / 2) ≤ 64
    let kind : AccKind := if ty = .i32 then .i32 else .f32
    let like (kd : AccKind) (y : Acc) : Acc := { y with kind := kd, layout := if y.layout = .unset then .plain else y.layout }
    let pair (kd : AccKind) : Prop := kd = .none ∨ (kd = .i32 ∧ (ty = .i32 ∨ ty = .i8 ∨ ty = .f32)) ∨
      (kd = .f32 ∧ (ty = .f32 ∨ ty = .f16 ∨ ty = .bf16 ∨ ty = .b8))
    let record (t : Tensor) (ty : Ty) (fmt : BitVec 5) (al m n : Nat) : Prop := t.rank = 2 ∧ t.ty = ty.bits.toNat ∧
      (ty = .b8 → t.fmt = fmt) ∧ t.stride.getD 0 0 = tySize t.ty ∧ t.stride.getD 1 0 % al = 0 ∧ 4 ≤ t.stride.getD 1 0 ∧
      t.stride.getD 1 0 ≤ 65536 ∧ t.base < 2 ^ 20 ∧ t.size.getD 0 0 ≤ n ∧ t.size.getD 1 0 ≤ m
    let at_ (va len : Nat) : Prop := ∃ w o, x.reach va len = .area w o
    let reaches (t : Tensor) : Prop := ∀ i, i < t.size.getD 1 0 → at_ (t.base + i * t.stride.getD 1 0) (t.size.getD 0 0 * tySize t.ty)
    let par (o : Opnd) (k : Nat) : Nat := (x.w.sget (o.idx + k)).toNat
    let ta := tensorOf ra
    let tb := tensorOf rb
    (issuing s (.ald h ln d a b) = some x →
      (¬(own a ∧ rows p) → fails (.ald h ln d a b) 0x13) ∧
      (own a → rows p → Makes (.ald h ln d a b) x (x.inQueue s [(acc a).tag, p] [] [] d.idx n false false))) ∧
    (issuing s (.ast h ln ty d a b) = some x →
      (¬(own d ∧ rows p) → fails (.ast h ln ty d a b) 0x13) ∧
      (own d → rows p → (acc d).kind ≠ .none → (acc d).kind ≠ kind → fails (.ast h ln ty d a b) 0x12) ∧
      (own d → rows p → (acc d).kind = .none ∨ (acc d).kind = kind →
        Makes (.ast h ln ty d a b) x (x.inQueue (set d (like kind)) [(like kind (acc d)).tag, p] []
          ((List.range n).map fun q => (List.range x.w.width).map fun l =>
            (128 * q + l, if x.w.live.getLsbD l then x.w.vget (a.idx + q) l else 0)).flatten 0 0 false false))) ∧
    (issuing s (.azero h d) = some x →
      (¬own d → fails (.azero h d) 0x13) ∧
      (own d → Makes (.azero h d) x (x.inQueue (set d fun y => { y with kind := .none, layout := .unset }) [] [] [] 0 0 false false))) ∧
    (issuing s (.acqry h (.s k) a) = some x → x.on ≠ 0 →
      (¬own a → fails (.acqry h (.s k) a) 0x13) ∧
      (own a → Writes (.acqry h (.s k) a) x x.w (.s k) false fun _ => (acc a).tag)) ∧
    (issuing s (.adrn h z fmt rnd ty sat a b) = some x → x.handle p 1 = .ok ra →
      (¬own a → fails (.adrn h z fmt rnd ty sat a b) 0x13) ∧
      (own a → ¬(pair (acc a).kind ∧ record ta ty fmt 4 64 64) → fails (.adrn h z fmt rnd ty sat a b) 0x12) ∧
      (own a → pair (acc a).kind → record ta ty fmt 4 64 64 → ta.base % 4 = 0 → reaches ta →
        Makes (.adrn h z fmt rnd ty sat a b) x (x.inQueue emptied [(acc a).tag] [ta] [] 0 0 true true))) ∧
    (issuing s (.adru h rule z mbf ty sat a b c) = some x → x.handle p 1 = .ok ra → own a → (acc a).kind ≠ .i32 →
      record ta ty 0 4 64 64 → ta.base % 4 = 0 → reaches ta →
      (rule ≠ .mom → par c 2 ≠ 0 → fails (.adru h rule z mbf ty sat a b c) 0x12) ∧
      (rule ≠ .mom → par c 2 = 0 → Makes (.adru h rule z mbf ty sat a b c) x
        (x.inQueue emptied [(acc a).tag, par c 0, par c 1] [ta] [] 0 0 true true)) ∧
      (rule = .mom → x.handle (par c 2) 1 = .ok rb → record tb (if mbf then .bf16 else .f32) 0 4 64 64 → tb.base % 4 = 0 →
        reaches tb → tb.size.getD 0 0 = ta.size.getD 0 0 → tb.size.getD 1 0 = ta.size.getD 1 0 → ta.meets tb = false →
        Makes (.adru h rule z mbf ty sat a b c) x
          (x.inQueue emptied [(acc a).tag, par c 0, par c 1] [ta, tb] [] 0 0 true true))) ∧
    (issuing s (.asca h fsc d a b) = some x →
      (¬(own d ∧ own a) → fails (.asca h fsc d a b) 0x13) ∧
      (own d → own a → (acc d).kind = .i32 → fails (.asca h fsc d a b) 0x12) ∧
      (own d → own a → (acc d).kind ≠ .i32 → par b 0 % 4 = 0 → par b 1 % 4 = 0 → at_ (par b 0) (if fsc then 256 else 64) →
        at_ (par b 1) (if fsc then 256 else 64) →
        Makes (.asca h fsc d a b) x (x.inQueue (set d (like .f32)) [(like .f32 (acc d)).tag, (acc a).tag, par b 0, par b 1]
          [] [] 0 0 true true))) ∧
    (issuing s (.aqred h z int fmt rnd ty sat a b c) = some x →
      let i : Instr := .aqred h z int fmt rnd ty sat a b c
      let kd : AccKind := if int then .i32 else .f32
      let counted := emptied.modWg x.c.wid fun g => { g with aqIssued := g.aqIssued + 1 }
      let staged := p % 128 = 0 ∧ x.kr.rc.det ≠ 0 ∧ p + 16384 ≤ x.kr.rc.loc ∧ at_ p 16384
      (x.g.g % 4 ≠ 0 → ¬own a → fails i 0x13) ∧
      (own a → (acc a).kind = .none ∨ (acc a).kind = kd → pair kd → staged →
        (x.g.g % 4 ≠ 0 → Makes i x (x.inQueue counted [(acc a).tag, p, x.g.aqIssued + 1] [] [] 0 0 true true)) ∧
        (x.g.g % 4 = 0 → x.handle (x.u32 c) 1 = .ok ra → record ta ty fmt 4 64 64 → ta.base % 4 = 0 → reaches ta →
          Makes i x (x.inQueue counted [(acc a).tag, p, x.g.aqIssued + 1] [ta] [] 0 0 true true)))) ∧
    (issuing s (.split h sl ex d a b) = some x → x.handle (x.u32 a) 1 = .ok ra →
      (¬(d.idx + sl.toNat ≤ x.kr.rc.tiles ∧ record ta .f64 0 8 64 128) → fails (.split h sl ex d a b) 0x12) ∧
      (d.idx + sl.toNat ≤ x.kr.rc.tiles → record ta .f64 0 8 64 128 → ta.base % 8 = 0 → p % 4 = 0 → reaches ta →
        at_ p (4 * ta.size.getD 1 0) → Makes (.split h sl ex d a b) x (x.inQueue
          (s.modWg x.c.wid fun g => (List.range sl.toNat).foldl (fun g i => g.setCfg (d.idx + i)
            ((ta.size.getD 1 0 - 1) * 2 ^ 8 + ta.size.getD 0 0)) g) [p] [ta] [] 0 0 true true))) ∧
    (issuing s (.recomb h lv ln d a b) = some x →
      (¬(own a ∧ rows (par b 0)) → fails (.recomb h lv ln d a b) 0x13) ∧
      (own a → rows (par b 0) → (acc a).kind = .f32 → fails (.recomb h lv ln d a b) 0x12) ∧
      (own a → rows (par b 0) → (acc a).kind ≠ .f32 → par b 1 % 4 = 0 → par b 2 % 4 = 0 →
        (∀ q l, q < n → x.w.live.getLsbD l = true → let e := accPlace x.w.width (par b 0) q l;
          at_ (laddr32 (par b 1) ((4 * e.1 : Nat) : Int)) 4 ∧ at_ (laddr32 (par b 2) ((4 * e.2 : Nat) : Int)) 4) →
        Makes (.recomb h lv ln d a b) x
          (x.inQueue s [(acc a).tag, par b 0, par b 1, par b 2] [] [] d.idx (2 * n) true true)))) ∧
  (∀ y : Acc, y.tag = (match y.kind with | .none => 0 | .f32 => 1 | .i32 => 2) +
    4 * (match y.layout with | .unset => 0 | .plain => 1 | .turned => 2)) ∧
  (∀ width row0 q l, accPlace width row0 q l = (row0 + width / 32 * (q / 2) + l / 32, 32 * (q % 2) + l % 32))

/-- O: 11 R271, R272, R276, R277, R280-R286, R288: what the engine does with the accumulator instruction at the head of its
queue: `ALD` and `AST` copy, `ADRN` drains converted elements by rows, `ADRU` writes updated weights and momentum, `ASCA`
adds scaled elements, `SPLIT` writes slices and exponents, `RECOMB` adds to pairs, each with its flags. The digits that
`SPLIT` makes are those of the magnitude, base 128. A step of a waiting `AQRED` adds the partner's staged words to its own,
elementwise, when the partner has them, and completes the partner's; position 0's last step writes the output; a reduction's
flags enter `FLG` when it completes. Points that the spec leaves open here are the model's own choices: log entries 15, 64 and
89. -/
def Obligations.EngineDrainsAndReduces : Prop :=
  (∀ (s : State) (core : Nat) (j : EngJob) (g : Wg) (w : Warp) (h : Hd) (ln : BitVec 3) (d a b : Opnd), s.atHead core j →
    look s.wgs j.wid = some g → look g.warps j.warp = some w →
    let turned (k : Nat) : Bool := j.p k / 4 == 2
    let kindOf (k : Nat) : AccKind := if j.p k % 4 = 1 then .f32 else if j.p k % 4 = 2 then .i32 else .none
    let el (o : Opnd) (k i n : Nat) : Word := (g.acc o.idx).get (turned k) i n
    let flags (r : BitVec 5) (c : Nat → Nat → Cond) (m n : Nat) : Prop :=
      ∀ q, q < 5 → (r.getLsbD q = true ↔ w.flg.getLsbD q = true ∨ ∃ i k, i < m ∧ k < n ∧ (c i k).getLsbD q = true)
    let place (q l : Nat) : Nat × Nat := accPlace w.width (j.p 1) q l
    let word (va i : Nat) : Nat := natOfBytes (s.engLocal j.wid (laddr32 va ((4 * i : Nat) : Int)) 4)
    let n := 2 ^ ln.toNat
    let puts (s : State) (t : Tensor) (f : Nat → Nat → Nat) : State := (List.range (t.size.getD 1 0)).foldl (fun s i =>
      s.areaPut (some (j.wid, j.warp)) j.wid (t.base + i * t.stride.getD 1 0)
        ((List.range (t.size.getD 0 0)).map fun k => bytesOfNat (tySize t.ty) (f i k)).flatten) s
    let emptied (s : State) (o : Opnd) : State := s.modWg j.wid fun g => g.modAcc o.idx fun y => { y with els := [] }
    (j.instr = .ald h ln d a b → ∃ r : Warp, Executes s core j (s.modWarp j.wid j.warp fun _ => r) ∧ { r with v := w.v } = w ∧
      ∀ m l, l < 128 → r.vget m l = if d.idx ≤ m ∧ m < d.idx + n ∧ j.live.getLsbD l
        then el a 0 (place (m - d.idx) l).1 (place (m - d.idx) l).2 else w.vget m l) ∧
    (∀ ty, j.instr = .ast h ln ty d a b → w.width % 32 = 0 → j.vals.Pairwise (fun u v => u.1 < v.1) →
      (∀ v ∈ j.vals, v.1 % 128 < w.width ∧ (place (v.1 / 128) (v.1 % 128)).1 < 64) →
      ∃ y : Acc, Executes s core j (s.modWg j.wid fun g => g.modAcc d.idx fun _ => y) ∧
        { y with els := (g.acc d.idx).els } = g.acc d.idx ∧
        (∀ v ∈ j.vals, let e := place (v.1 / 128) (v.1 % 128); y.get (turned 0) e.1 e.2 = v.2) ∧
        (∀ i k, i < 64 → k < 64 → (∀ v ∈ j.vals, place (v.1 / 128) (v.1 % 128) ≠ (i, k)) → y.get (turned 0) i k = el d 0 i k)) ∧
    (j.instr = .azero h d →
      Executes s core j (s.modWg j.wid fun g => g.modAcc d.idx fun y => { y with els := [] }) ∧
        ∀ y : Acc, ∀ t i k, ({ y with els := [] } : Acc).get t i k = 0) ∧
    (∀ z fmt rnd ty sat t ts, j.instr = .adrn h z fmt rnd ty sat a b → j.ten = t :: ts →
      let m := t.size.getD 1 0
      let n := t.size.getD 0 0
      let out (i k : Nat) : Nat × Cond := drainEl (kindOf 0) ty fmt (engineMode j.frm rnd) sat (el a 0 i k)
      let stored := puts s t fun i k => (out i k).1
      ∃ r, Executes s core j ((if z then emptied stored a else stored).modWarp j.wid j.warp fun w => { w with flg := r }) ∧
        flags r (fun i k => (out i k).2) m n) ∧
    (∀ rule z mbf ty sat c t us, j.instr = .adru h rule z mbf ty sat a b c → j.ten = t :: us →
      let fm := if mbf then bf16 else f32
      let mo := us.headD t
      let old (t : Tensor) (i k : Nat) : Nat :=
        memNat g.mem (t.base + i * t.stride.getD 1 0 + k * tySize t.ty) (tySize t.ty)
      let one (i k : Nat) : (Machine.Num × Machine.Num) × Cond :=
        updateEl rule ty.ieee fm sat (f32.decode (j.p 1)) (f32.decode (j.p 2)) (f32.decode (el a 0 i k).toNat)
          (ty.ieee.decode (old t i k)) (fm.decode (old mo i k))
      let weights := puts s t fun i k => ty.ieee.encode (one i k).1.1
      let both := if us = [] then weights else puts weights mo fun i k => fm.encode (one i k).1.2
      ∃ r, Executes s core j ((if z then emptied both a else both).modWarp j.wid j.warp fun w => { w with flg := r }) ∧
        flags r (fun i k => (one i k).2) (t.size.getD 1 0) (t.size.getD 0 0)) ∧
    (∀ sl ex t ts, j.instr = .split h sl ex d a b → j.ten = t :: ts → s.memWf = true → t.size.getD 1 0 ≤ 64 → t.size.getD 0 0 ≤ 128 →
      let m := t.size.getD 1 0
      let n := t.size.getD 0 0
      let at_ (i : Nat) : Nat := laddr32 (j.p 0) ((4 * i : Nat) : Int)
      let row (i : Nat) := splitRow sl.toNat (if ex then some (natOfBytes (s.engLocal j.wid (at_ i) 4)) else none)
        ((List.range n).map fun k => f64.decode (memNat g.mem (t.base + i * t.stride.getD 1 0 + k * tySize t.ty) (tySize t.ty)))
      let told := (List.range m).foldl (fun s i => s.areaPut (some (j.wid, j.warp)) j.wid (at_ i) (bytesOfNat 4 (row i).1)) s
      ∃ (tiles : Tab Tile) (r : BitVec 5),
        Executes s core j ((told.modWg j.wid fun g => { g with tiles := tiles }).modWarp j.wid j.warp fun w => { w with flg := r }) ∧
        flags r (fun i _ => (row i).2.2) m 1 ∧
        ∀ o q, let tile := lookD tiles o Tile.reset
          tile.cfg = (g.tile o).cfg ∧ memGet tile.bytes q =
            if d.idx ≤ o ∧ o < d.idx + sl.toNat ∧ q / 128 < m ∧ q % 128 < n
            then BitVec.ofNat 8 ((row (q / 128)).2.1 (o - d.idx + 1) (q % 128)) else memGet (g.tile o).bytes q) ∧
    (∀ fsc, j.instr = .asca h fsc d a b →
      let rs := s.engLocal j.wid (j.p 2) (if fsc then 256 else 64)
      let cs := s.engLocal j.wid (j.p 3) (if fsc then 256 else 64)
      let x (i k : Nat) : Machine.Num := accNum (kindOf 1) (el a 1 i k)
      let p1 (i k : Nat) := mulNum (x i k) (scaleNum fsc rs i)
      let p2 (i k : Nat) := mulNum (p1 i k).1 (scaleNum fsc cs k)
      let y (i k : Nat) := roundNum f32.fmt .rne false (p2 i k).1
      let out (i k : Nat) := fpAdd f32.fmt .rne false (f32.decode (el d 0 i k).toNat) (y i k).1
      let met (i k : Nat) : Cond := snOf (x i k) ||| snOf (scaleNum fsc rs i) ||| snOf (scaleNum fsc cs k) |||
        (p1 i k).2 ||| (p2 i k).2 ||| (y i k).2 ||| (out i k).2
      ∃ (y : Acc) (r : BitVec 5),
        Executes s core j ((s.modWg j.wid fun g => g.modAcc d.idx fun _ => y).modWarp j.wid j.warp fun w => { w with flg := r }) ∧
        { y with els := (g.acc d.idx).els } = g.acc d.idx ∧
        flags r met 64 64 ∧
        ∀ i k, i < 64 → k < 64 → y.get (turned 0) i k = BitVec.ofNat 32 (f32.encode (out i k).1)) ∧
    (∀ lv, j.instr = .recomb h lv ln d a b → ∃ (r : Warp), Executes s core j (s.modWarp j.wid j.warp fun _ => r) ∧
      let out (q l : Nat) := recombEl lv.toNat (word (j.p 2) (place q l).1) (word (j.p 3) (place q l).2)
        (el a 0 (place q l).1 (place q l).2) (w.vpair (d.idx + 2 * q) l).toNat
      { r with v := w.v, flg := w.flg } = w ∧
      (∀ b, b < 5 → (r.flg.getLsbD b = true ↔ w.flg.getLsbD b = true ∨
        ∃ q l, q < n ∧ l < 128 ∧ j.live.getLsbD l = true ∧ (out q l).2.getLsbD b = true)) ∧
      (∀ q l, q < n → l < 128 → j.live.getLsbD l = true → r.vpair (d.idx + 2 * q) l = BitVec.ofNat 64 (out q l).1) ∧
      ∀ m l, l < 128 → (j.live.getLsbD l = false ∨ m < d.idx ∨ d.idx + 2 * n ≤ m) → r.vget m l = w.vget m l)) ∧
  (∀ (ty : Ty) (fmt : BitVec 5) (m : Mode) (sat : Bool) (v : Word),
    drainEl .none ty fmt m sat v = (0, 0) ∧ drainEl .i32 .i32 fmt m sat v = (v.toNat, 0) ∧
    drainEl .i32 .i8 fmt m true v = (wrapNat 8 (max (-128) (min 127 v.toInt)), 0) ∧
    drainEl .i32 .i8 fmt m false v = (v.toNat % 256, 0) ∧
    (∀ u, f32.decode v.toNat ≠ .nan u → drainEl .f32 .f32 fmt m sat v = (v.toNat, 0)) ∧
    ((drainEl .i32 .f32 fmt m sat v).1 = f32.encode (roundNum f32.fmt m sat (.fin (decide (v.toInt < 0)) v.toInt.natAbs 0)).1) ∧
    (ty = .f16 ∨ ty = .bf16 → (drainEl .f32 ty fmt m sat v).1 = ty.ieee.encode (roundNum ty.ieee.fmt m sat (f32.decode v.toNat)).1)) ∧
  (∀ (fw fm : Ieee) (sat : Bool) (eta par g w mo : Machine.Num),
    let mul (u v : Machine.Num) : Machine.Num := (fpMul f32.fmt .rne sat u v).1
    let add (f : Fmt) (u v : Machine.Num) : Machine.Num := (fpAdd f .rne sat u v).1
    let sub (f : Fmt) (u v : Machine.Num) : Machine.Num := (fpSub f .rne sat u v).1
    let m := add fm.fmt (mul par mo) g
    (updateEl .axpy fw fm sat eta par g w mo).1 = (add fw.fmt w (mul eta g), mo) ∧
    (updateEl .wd fw fm sat eta par g w mo).1 = (sub fw.fmt w (mul eta (add f32.fmt g (mul par w))), mo) ∧
    (updateEl .mom fw fm sat eta par g w mo).1 = (sub fw.fmt w (mul eta m), m)) ∧
  (∀ (t e f : Nat) (v : Word) (acc : Nat),
    (e = 0x7FFFFFFF ∨ f = 0x7FFFFFFF → recombEl t e f v acc = (f64.nan, cIV)) ∧
    (let k := asSigned 32 e + asSigned 32 f - 7 * (t : Int);
      e ≠ 0x7FFFFFFF → f ≠ 0x7FFFFFFF → -5000 ≤ k → k ≤ 5000 → (recombEl t e f v acc).1 =
        f64.encode (fpAdd f64.fmt .rne false (.fin (decide (v.toInt < 0)) v.toInt.natAbs k) (f64.decode acc)).1)) ∧
  (∀ (sl : Nat) (given : Option Nat) (xs : List Machine.Num) (e : Int) (k : Nat) (neg : Bool) (m : Nat) (ex : Int),
    (∀ v ∈ xs, ∃ p q r, v = .fin p q r) → (∀ u, given = some u → u ≠ 0x7FFFFFFF ∧ e = asSigned 32 u) →
    (given = none → maxExp xs = some (e - 1)) → xs[k]? = some (.fin neg m ex) →
    let p := ex + 7 * (sl : Int) - e
    let mag := if m = 0 then 0 else if 7 * (sl : Int) ≤ p + (m.log2 : Int) then 2 ^ (7 * sl) - 1
      else if 0 ≤ p then m * 2 ^ p.toNat else m / 2 ^ (-p).toNat
    (splitRow sl given xs).1 = wrapNat 32 e ∧
    ((List.range sl).map fun q => asSigned 8 ((splitRow sl given xs).2.1 (q + 1) k) * 128 ^ (sl - 1 - q)).sum =
      if neg then -(mag : Int) else mag) ∧
  (∀ (sl : Nat) (given : Option Nat) (xs : List Machine.Num),
    ((∃ v ∈ xs, ∀ p q r, v ≠ .fin p q r) ∨ given = some 0x7FFFFFFF →
      (splitRow sl given xs).1 = 0x7FFFFFFF ∧ ∀ q k, (splitRow sl given xs).2.1 q k = 0) ∧
    ((∀ v ∈ xs, ∃ p r, v = .fin p 0 r) → given = none → (splitRow sl given xs).1 = 0)) ∧
  (∀ (s : State) (wid : Nat) (g : Wg) (q : Aq) (p need : Nat), s.memWf = true → look s.wgs wid = some g → g.st ≠ .saved →
    g.aqs = [q] → (g.g % 4 = 0 ∧ q.steps = 0 ∧ p = 1 ∧ need = 0) ∨ (g.g % 4 = 0 ∧ q.steps = 1 ∧ p = 2 ∧ need = 1) ∨
      (g.g % 4 = 2 ∧ q.steps = 0 ∧ p = 3 ∧ need = 0) →
    let own (s : State) (i k : Nat) : Nat := natOfBytes (s.lread wid (q.stage + 256 * i + 4 * k) 4)
    let sum (u v : Nat) : Nat × Cond := if (aqFields q.instr).1 then ((u + v) % 2 ^ 32, cNone)
      else (f32.encode (fpAdd f32.fmt .rne false (f32.decode u) (f32.decode v)).1,
        (fpAdd f32.fmt .rne false (f32.decode u) (f32.decode v)).2)
    let adds (u : State) (v : Nat → Nat → Nat) : Prop :=
      exec (.aqredStep wid) s = .next u ∧ u.mem = s.mem ∧
      (∀ i k, i < 64 → k < 64 → own u i k = (sum (own s i k) (v i k)).1) ∧
      ∃ y r, look u.wgs wid = some y ∧ y.aqs = [{ q with steps := q.steps + 1, flags := r }] ∧
        ∀ b, b < 6 → (r.getLsbD b = true ↔
          q.flags.getLsbD b = true ∨ ∃ i k, i < 64 ∧ k < 64 ∧ (sum (own s i k) (v i k)).2.getLsbD b = true)
    let from_ := s.partSum g p q.k need
    (from_ = .wait → exec (.aqredStep wid) s = .next s) ∧
    (from_ = .zeros → ∃ u, adds u fun _ _ => 0) ∧
    (∀ v st, from_ = .words v st → v ≠ wid →
      ∃ u, adds u (fun i k => natOfBytes (s.lread v (st + 256 * i + 4 * k) 4)) ∧
        ∀ h r w, look s.wgs v = some h → h.aqs = [r] → r.k = q.k → look h.warps r.warp = some w →
          ∃ y z, look u.wgs v = some y ∧ y.aqs = [] ∧ look y.warps r.warp = some z ∧
            { z with flg := w.flg, await := w.await, floor := w.floor } = w ∧ (z.await = w.await.filter fun a => a.id != r.id) ∧
            (z.floor = if w.await.any fun a => a.id == r.id && a.mem then u.past.length else w.floor) ∧
            ∀ b, b < 5 → (z.flg.getLsbD b = true ↔ w.flg.getLsbD b = true ∨ r.flags.getLsbD b = true))) ∧
  (∀ (s : State) (wid : Nat) (g : Wg) (w : Warp) (q : Aq) (t : Tensor), look s.wgs wid = some g → g.st ≠ .saved →
    g.aqs = [q] → g.g % 4 = 0 → 2 ≤ q.steps → q.out = some t → look g.warps q.warp = some w →
    let int := (aqFields q.instr).1
    let out (i k : Nat) : Nat × Cond := drainEl (if int then .i32 else .f32) (aqFields q.instr).2.2.2.1 (aqFields q.instr).2.1
      (engineMode q.frm (aqFields q.instr).2.2.1) (aqFields q.instr).2.2.2.2
      (BitVec.ofNat 32 (memNat g.mem (q.stage + 256 * i + 4 * k) 4))
    let m := t.size.getD 1 0
    let n := t.size.getD 0 0
    let stored := (List.range m).foldl (fun s i => s.areaPut (some (wid, q.warp)) wid (t.base + i * t.stride.getD 1 0)
      ((List.range n).map fun k => bytesOfNat (tySize t.ty) (out i k).1).flatten) s
    ∃ r, exec (.aqredStep wid) s = .next ((stored.modWg wid fun g => { g with aqs := [] }).modWarp wid q.warp fun w =>
        { w with
          flg := r
          await := w.await.filter fun a => a.id != q.id
          floor := if w.await.any fun a => a.id == q.id && a.mem then stored.past.length else w.floor }) ∧
      ∀ b, b < 5 → (r.getLsbD b = true ↔ w.flg.getLsbD b = true ∨ q.flags.getLsbD b = true ∨
        ∃ i k, i < m ∧ k < n ∧ (out i k).2.getLsbD b = true)) ∧
  (∀ (s : State) (core : Nat), ((s.core core).engq = [] → exec (.engineComplete core) s = .next s) ∧
    ∀ j rest, (s.core core).engq = j :: rest →
      (¬s.atHead core j → exec (.engineComplete core) s = .next s) ∧
      (s.atHead core j → ∃ u : State,
        exec (.engineComplete core) s = .next (u.modCore core fun k => { k with engq := rest, engTurn := true }))) ∧
  (∀ (s : State) (core : Nat) (j : EngJob) (g : Wg) (w : Warp) (h : Hd) (z int sat : Bool) (fmt : BitVec 5) (rnd : Rnd) (ty : Ty)
      (a b c : Opnd), s.memWf = true → s.atHead core j → look s.wgs j.wid = some g → look g.warps j.warp = some w →
    j.instr = .aqred h z int fmt rnd ty sat a b c →
    let word (i k : Nat) : Word := (g.acc a.idx).get (j.p 0 / 4 == 2) i k
    ∃ u y, exec (.engineComplete core) s = .next u ∧ look u.wgs j.wid = some y ∧ look y.warps j.warp = some w ∧
      y.aqs = g.aqs ++ [⟨j.p 2, j.id, j.warp, j.instr, j.p 1, j.ten.head?, j.frm, 0, 0⟩] ∧
      (∀ i k, i < 64 → k < 64 → natOfBytes (u.lread j.wid (j.p 1 + 256 * i + 4 * k) 4) = (word i k).toNat) ∧
      (∀ o t i k, (y.acc o).get t i k = if z ∧ o = a.idx then 0 else (g.acc o).get t i k) ∧
      (u.core core).engq = (s.core core).engq.tail)
/-! ### The KEY group (12 R292-R309) -/

/-- O: 12 R292-R301, R305-R309: `KCLAIM` takes the lowest free run of buckets; `KFREE`, `KSTAT`; `KINS`, `KPRB`, `KDEL` and
`KACC` join the core's keyed queue and wait, and one that a trap stopped goes on with the acts and logged events that it had
made (log 80); KEYED_APPLY applies the head, which leaves the queue: its lanes in ascending order, each on the table as the
one before left it, none of the lanes whose key is all ones; a lane that fills the table traps KEY_FULL, or its entry spills
to the overflow list, whose count word gives the index; a key in the list is found, deleted or combined there (how a list
read goes is the model's `keyRead`; these clauses are of records whose reads change nothing: walked already, and in no window
and no L1). `KDRN` queues, and then stores a header and the entries by home and key, and counts on its barrier, with `F` when
a record cannot be read (log 19). No entry comes to lie 32 buckets or more from home. Points that the spec leaves open here
are the model's own choices: log entries 79 and 80. -/
def Obligations.KeyedAreasAct : Prop :=
  (∀ (hd : Hd) (kind : KeyKind) (ch : BitVec 3) (w : BitVec 12) (z clr : Bool) (ty : Ty) (n : BitVec 8) (d a b c : Opnd) (ov : List Byte)
    (s : State) (x : Ix), x.on ≠ 0 →
    let i : Instr := .kclaim hd kind ch (.s n) a b w
    let k := x.u32 a
    let all := (s.core x.g.core).carve.key * 1024
    let bad := x.g.claim ≠ none ∨ k < 64 ∨ 4096 < k ∨ 2 ^ k.log2 ≠ k ∨ all < k ∨ (kind ≠ .fix ∧ w ≠ 0) ∨ w.toInt < -1074 ∨ 1023 < w.toInt ∨
      (ch ≠ 0 ∧ x.kr.rc.det ≠ 1)
    let free (base : Nat) : Prop := base % k = 0 ∧ base + k ≤ all ∧ ∀ p ∈ s.wgs, ∀ o, p.2.claim = some o → p.2.core = x.g.core →
      p.2.off = false → base + k ≤ o.base ∨ o.base + o.n ≤ base
    let fresh (base : Nat) (ov : Option Overflow) : Claim := ⟨base, k, kind, w.toInt, ov, ch.toNat, [], 0, false⟩
    let set (s : State) (o : Option Claim) : State := s.modWg x.c.wid fun g => { g with claim := o }
    let q := (s.core x.g.core).keyq
    let made (w : Warp) : Nat :=
      match w.keyKept with
      | some (pc, m, r) => if w.hmode = false ∧ pc = x.c.pc ∧ m = x.c.bundle then r else w.keyMade
      | none => w.keyMade
    let joins (i : Instr) : Prop :=
      (x.g.claim = none → Meets i x 0x47 x.c.bundle none) ∧
      (∀ o, x.g.claim = some o → (∀ h ty a b, i = .kacc h ty a b → ty = .f32 ∨ ty = .f64 → o.kind = .fix) →
        Waits i x ((({ s with count := s.count + 1 } : State).modWarp x.c.wid x.c.warp fun w =>
          { w with keyMade := made w }).modCore x.g.core fun k =>
            { k with keyq := k.keyq ++ [⟨s.count, x.c.wid, x.c.warp, i, []⟩] }) .keyed)
    let o : Overflow := ⟨fld ov 0 8, fld ov 8 8, fld ov 0x10 2⟩
    (issuing s i = some x → x.u32 b = 0 →
      (bad → Meets i x 0x47 x.c.bundle none) ∧
      (¬bad → (∀ base, ¬free base) → Writes i x x.w (.s n) false fun _ => 1) ∧
      (¬bad → ∀ base, free base → (∀ r, r < base → ¬free r) →
        MakesGives i x (set s (some (fresh base none))) (.s n) false fun _ => 0)) ∧
    (issuing s i = some x → x.u32 b ≠ 0 → (∀ e, x.handle (x.u32 b) 5 = .error e → Meets i x e x.on none)) ∧
    (issuing s i = some x → x.u32 b ≠ 0 → x.handle (x.u32 b) 5 = .ok ov → ¬bad →
      x.clear [(firstOf x.lanes, o.word, 8)] (fun va tr => plainCause s x.g.core .atomic va tr) →
      ∀ base, free base → (∀ r, r < base → ¬free r) →
        MakesGives i x (set (x.gstore s o.word (x.pageAt o.word) (zeros 8)) (some (fresh base (some o)))) (.s n) false fun _ => 0) ∧
    (issuing s (.kfree hd) = some x →
      (x.g.claim = none → Leaves (.kfree hd) x x.w) ∧
      (x.g.claim ≠ none → (∃ j ∈ q, j.wid = x.c.wid) → exec (.kfree hd) s = .next { s with cur := some { x.c with ready := false } }) ∧
      (x.g.claim ≠ none → (∀ j ∈ q, j.wid ≠ x.c.wid) → Makes (.kfree hd) x (set s none))) ∧
    (issuing s (.kstat hd clr (.s n)) = some x → (∀ j ∈ q, ¬(j.wid = x.c.wid ∧ j.warp = x.c.warp)) →
      (x.g.claim = none → Writes (.kstat hd clr (.s n)) x x.w (.s n) true fun _ => 0) ∧
      (∀ o, x.g.claim = some o → ∃ far, (∀ p ∈ o.slots, keyDist o.n (p.1 / 4) p.2.1 ≤ far) ∧
        (far = 0 ∨ ∃ p ∈ o.slots, keyDist o.n (p.1 / 4) p.2.1 = far) ∧
        MakesGives (.kstat hd clr (.s n)) x (if clr then set s (some { o with rej := false }) else s) (.s n) true fun _ =>
          1 + 2 ^ 16 * o.n.log2 + 2 ^ 20 * o.kind.bits.toNat + (if o.rej then 2 ^ 23 else 0) + 2 ^ 27 * far + 2 ^ 32 * o.slots.length +
            2 ^ 48 * o.ovfn)) ∧
    (issuing s (.kins hd d a b) = some x → joins (.kins hd d a b)) ∧
    (issuing s (.kprb hd d a c) = some x → joins (.kprb hd d a c)) ∧
    (issuing s (.kdel hd d a) = some x → joins (.kdel hd d a)) ∧
    (issuing s (.kacc hd ty a b) = some x → joins (.kacc hd ty a b)) ∧
    (issuing s (.kdrn hd z d a b) = some x → x.u32 d < 1024 → x.u32 d % 256 < x.kr.rc.bars →
      (x.g.claim = none ∨ 65535 < x.u32 b → Meets (.kdrn hd z d a b) x 0x47 x.c.bundle none) ∧
      (x.g.claim ≠ none → x.u32 b ≤ 65535 → k % 16 ≠ 0 → Meets (.kdrn hd z d a b) x 0x33 x.c.bundle (some (BitVec.ofNat 64 k))) ∧
      (x.g.claim ≠ none → x.u32 b ≤ 65535 → k % 16 = 0 → ∀ v p, x.reach k (16 + 16 * x.u32 b) = .area v p →
        Makes (.kdrn hd z d a b) x ((({ s with count := s.count + 1 } : State).modWarp x.c.wid x.c.warp fun w =>
          { w with await := w.await ++ [⟨s.count, 0, 0, true, false⟩] }).modCore x.g.core fun k =>
            { k with keyq := k.keyq ++ [⟨s.count, x.c.wid, x.c.warp, .kdrn hd z d a b, [x.u32 d % 256, x.u32 a, x.u32 b]⟩] })))) ∧
  (∀ (s : State) (core : Nat) (j : KeyJob) (rest : List KeyJob) (hold : Hold) (x : Ix) (cl : Claim) (h : Hd) (ty : Ty) (d a b : Opnd)
    (n m : BitVec 8), (s.core core).keyq = j :: rest →
    s.held j.wid j.warp = some (hold, x) → x.g.core = core → hold.wait = .keyed →
    hold.instr = j.instr → x.g.claim = some cl → cl.ov = none → h.nwb = false →
    let e : Instr := .keyedApply core
    let key (l : Nat) : BitVec 64 := BitVec.ofNat 64 (x.rd64 a l)
    let put (t : Tab KeyVal) (l : Nat) (v : BitVec 64) : Tab KeyVal × Option KeyVal :=
      if key l = noKey ∨ (keyFind t (key l)).isSome = true then (t, none) else keyInsert cl.n t (key l, v)
    let before (f : Tab KeyVal → Nat → Tab KeyVal) (l : Nat) : Tab KeyVal := (x.lanes.takeWhile fun m => m != l).foldl f cl.slots
    let out (u : State) : State := u.modCore core fun k =>
      { k with keyq := k.keyq.filter fun q => !(q.wid == j.wid && q.warp == j.warp && q.prm.isEmpty) }
    let traps (c : BitVec 7) (ls : List Nat) : Prop :=
      (x.storing = false → exec e s = .next ((out x.s).takeTrap x.c ⟨c, maskOf ls, none, none, none⟩)) ∧
      (x.storing = true → exec e s = .next { x.s with cur := none })
    let set (t : Tab KeyVal) : State := out (x.s.modWg x.c.wid fun g => { g with claim := some { cl with slots := t } })
    let left (r : Tab KeyVal × Option KeyVal) : Tab KeyVal := if r.2 = none then r.1 else canonical cl.n (vals r.1)
    let insert (t : Tab KeyVal) (l : Nat) : Tab KeyVal := left (put t l (BitVec.ofNat 64 (x.rd64 b l)))
    let delete (t : Tab KeyVal) (l : Nat) : Tab KeyVal :=
      if key l = noKey ∨ (keyFind t (key l)).isSome = false then t
      else canonical cl.n ((vals t).filter fun e => e.1 != key l)
    let part (l : Nat) : Option (BitVec 64) × Cond :=
      if ty = .f32 ∨ ty = .f64 then fixContribution cl.w (ty.ieee.decode (x.rd ty b l)) else (some (BitVec.ofNat 64 (x.rd64 b l)), 0)
    let combine (t : Tab KeyVal) (l : Nat) : Tab KeyVal :=
      if key l = noKey then t
      else
        let u := left (put t l cl.kind.identity)
        match (part l).1, keyFind u (key l) with
        | some v, some p => ins u p (key l, cl.kind.combine (lookD u p (0, 0)).2 v)
        | _, _ => u
    let fullOf (f : Tab KeyVal → Nat → Tab KeyVal) (v : Nat → BitVec 64) : List Nat :=
      x.lanes.filter fun l => (put (before f l) l (v l)).2.isSome
    let insFull := fullOf insert fun l => BitVec.ofNat 64 (x.rd64 b l)
    let accFull := fullOf combine fun _ => cl.kind.identity
    let named := x.lanes.filter fun l => key l != noKey
    (j.instr = .kins h (.p n) a b → x.logs = false → insFull = [] →
      ResumesGives e s x (set (x.lanes.foldl insert cl.slots)) (.p n) false
        fun l => if key l = noKey ∨ (keyFind (before insert l) (key l)).isSome then 0 else 1) ∧
    (j.instr = .kins h d a b → (∀ n, d ≠ .p n) → x.logs = false → insFull = [] →
      Resumes e s x (set (x.lanes.foldl insert cl.slots))) ∧
    (j.instr = .kins h d a b → insFull ≠ [] → traps 0x45 insFull) ∧
    (j.instr = .kacc h ty a b → accFull ≠ [] → traps 0x45 accFull) ∧
    (j.instr = .kprb h (.v n) a (.p m) →
      (x.logs = false → ResumesGives e s x (out (x.s.modWarp x.c.wid x.c.warp fun w =>
          w.pset m.toNat (maskOf x.lanes) (maskOf (x.lanes.filter fun l => key l != noKey && (keyFind cl.slots (key l)).isSome))))
        (.v n) true fun l => if key l = noKey then 0 else
          match keyFind cl.slots (key l) with
          | some p => (lookD cl.slots p (0, 0)).2.toNat
          | none => 0) ∧
      (x.logs = true → exec e s = .next { x.s.modWarp x.c.wid x.c.warp fun w =>
        { w with hold := some { hold with wait := .logged none } } with cur := none })) ∧
    (j.instr = .kdel h (.p n) a → x.logs = false →
      ResumesGives e s x (set (x.lanes.foldl delete cl.slots)) (.p n) false
        fun l => if key l = noKey ∨ (keyFind (before delete l) (key l)).isSome = false then 0 else 1) ∧
    (j.instr = .kacc h ty a b → accFull = [] →
      ∃ flg : BitVec 5, (∀ q, q < 5 → (flg.getLsbD q = true ↔ x.w.flg.getLsbD q = true ∨ ∃ l ∈ named, (part l).2.getLsbD q = true)) ∧
        Resumes e s x (out ((x.s.modWg x.c.wid fun g => { g with claim := some { cl with slots := x.lanes.foldl combine cl.slots, rej := cl.rej || named.any fun l => (part l).1.isNone } }).modWarp x.c.wid x.c.warp
            fun w => { w with flg := flg })))) ∧
  (∀ (s : State) (core : Nat) (j : KeyJob) (rest : List KeyJob) (hold : Hold) (x : Ix) (cl : Claim) (o : Overflow) (l : Nat) (h : Hd)
    (a b : Opnd) (n : BitVec 8), s.memWf = true → (s.core core).keyq = j :: rest → s.held j.wid j.warp = some (hold, x) →
    x.g.core = core → hold.wait = .keyed → hold.instr = j.instr → x.g.claim = some cl → cl.ov = some o → h.nwb = false →
    x.logs = false → x.orders = false → x.listFlips cl = false → x.lanes = [l] →
    let e : Instr := .keyedApply core
    let key : BitVec 64 := BitVec.ofNat 64 (x.rd64 a l)
    let out (u : State) : State := u.modCore core fun k =>
      { k with keyq := k.keyq.filter fun q => !(q.wid == j.wid && q.warp == j.warp && q.prm.isEmpty) }
    let reads (va n v : Nat) : Prop := x.s.keyRead core x.kr.ctx va n = (.ok v, x.s)
    let place (va pa : Nat) : Prop := x.s.keyPa core x.kr.ctx va = (.ok pa, x.s)
    let record (i : Nat) : Nat := o.list + 16 * i
    let notIn (m : Nat) : Prop := ∀ i, i < m → ∃ v, reads (record i) 8 v ∧ v ≠ key.toNat
    let stored (u : State) (pa : Nat) (bs : List Byte) : Prop := ∀ q, (q < pa ∨ pa + bs.length ≤ q → memGet u.mem q = memGet x.s.mem q) ∧
      (q < bs.length → memGet u.mem (pa + q) = bs.getD q 0)
    key ≠ noKey → keyFind cl.slots key = none →
    (j.instr = .kins h (.p n) a b → notIn cl.ovfn → ∀ t c idx pw pr, keyInsert cl.n cl.slots (key, BitVec.ofNat 64 (x.rd64 b l)) = (t, some c) →
      reads o.word 8 idx → place o.word pw →
      (o.cap ≤ idx → x.storing = false → exec e s = .next ((out x.s).takeTrap x.c ⟨0x45, maskOf [l], none, none, none⟩)) ∧
      (idx < o.cap → place (record idx) pr → (pw + 8 ≤ pr ∨ pr + 16 ≤ pw) →
        ∃ u y, ResumesGives e s x u (.p n) false (fun _ => 1) ∧ look u.wgs x.c.wid = some y ∧
          y.claim = some { cl with slots := canonical cl.n (vals t), ovfn := cl.ovfn + 1 } ∧
          (∀ q, q < 8 → memGet u.mem (pw + q) = (bytesOfNat 8 (idx + 1)).getD q 0) ∧
          (∀ q, q < 16 → memGet u.mem (pr + q) = (bytesOfNat 8 c.1.toNat ++ bytesOfNat 8 c.2.toNat).getD q 0) ∧
          ∀ q, (q < pw ∨ pw + 8 ≤ q) → (q < pr ∨ pr + 16 ≤ q) → memGet u.mem q = memGet x.s.mem q)) ∧
    (j.instr = .kins h (.p n) a b → notIn cl.ovfn → ∀ t c r f va u, keyInsert cl.n cl.slots (key, BitVec.ofNat 64 (x.rd64 b l)) = (t, some c) →
      x.s.keyRead core x.kr.ctx o.word 8 = (.error ((r, f), va), u) → x.storing = false →
      exec e s = .next ((out x.s).takeTrap x.c ⟨f, maskOf [l], some (BitVec.ofNat 64 va), none, none⟩)) ∧
    (∀ i v pa, i < cl.ovfn → notIn i → reads (record i) 8 key.toNat → reads (record i + 8) 8 v →
      (j.instr = .kins h (.p n) a b → ResumesGives e s x (out x.s) (.p n) false fun _ => 0) ∧
      (∀ m, j.instr = .kprb h (.v n) a (.p m) →
        ResumesGives e s x (out (x.s.modWarp x.c.wid x.c.warp fun w => w.pset m.toNat (laneBit l) (laneBit l))) (.v n) true fun _ => v % 2 ^ 64) ∧
      (j.instr = .kdel h (.p n) a → place (record i) pa →
        ∃ u, ResumesGives e s x u (.p n) false (fun _ => 1) ∧ stored u pa (bytesOfNat 8 noKey.toNat)) ∧
      (∀ ty, j.instr = .kacc h ty a b → ty ≠ .f32 → ty ≠ .f64 → place (record i + 8) pa →
        ∃ u, Resumes e s x u ∧
          stored u pa (bytesOfNat 8 (cl.kind.combine (BitVec.ofNat 64 v) (BitVec.ofNat 64 (x.rd64 b l))).toNat)))) ∧
  (∀ (s : State) (core : Nat) (j : KeyJob) (rest : List KeyJob) (g : Wg) (k : Kernel) (cl : Claim) (o : Overflow) (h : Hd) (z : Bool)
    (d a b : Opnd) (bar at_ cap : Nat) (c : KeyBad) (u : State), (s.core core).keyq = j :: rest → look s.wgs j.wid = some g →
    look s.kernels (j.wid / 2 ^ 48) = some k → g.claim = some cl → cl.ov = some o → cl.ovfn = 1 → j.instr = .kdrn h z d a b →
    j.prm = [bar, at_, cap] → (s.modCore core fun k => { k with keyq := rest }).keyRead core k.ctx o.list 16 = (.error c, u) →
    ∃ es : List KeyVal, es.Perm (vals cl.slots) ∧
      let stored := u.areaPut (some (j.wid, j.warp)) j.wid at_
        (bytesOfNat 4 es.length ++ bytesOfNat 4 (es.take cap).length ++ zeros 8 ++
          ((es.take cap).map fun e => bytesOfNat 8 e.1.toNat ++ bytesOfNat 8 e.2.toNat).flatten)
      exec (.keyedApply core) s = .next (((stored.modWarp j.wid j.warp fun w =>
        { w with
          await := w.await.filter fun a => a.id != j.seq
          floor := if w.await.any fun a => a.id == j.seq && a.mem then stored.past.length else w.floor }).barFault j.wid bar 1 0).pulse core j.wid 9)) ∧
  (∀ (s : State) (core : Nat) (j : KeyJob) (rest : List KeyJob) (g : Wg) (k : Kernel) (cl : Claim) (h : Hd) (z : Bool) (d a b : Opnd)
    (bar at_ cap : Nat), (s.core core).keyq = j :: rest → look s.wgs j.wid = some g → look s.kernels (j.wid / 2 ^ 48) = some k →
    g.claim = some cl → cl.ov = none → j.instr = .kdrn h z d a b → j.prm = [bar, at_, cap] →
    ∃ es : List KeyVal, es.Perm (vals cl.slots) ∧
      (es.Pairwise fun e f => homeBucket cl.n e.1 < homeBucket cl.n f.1 ∨
        (homeBucket cl.n e.1 = homeBucket cl.n f.1 ∧ e.1.toNat ≤ f.1.toNat)) ∧
      let stored := (s.modCore core fun k => { k with keyq := rest }).areaPut (some (j.wid, j.warp)) j.wid at_
        (bytesOfNat 4 es.length ++ bytesOfNat 4 (es.take cap).length ++ zeros 8 ++
          ((es.take cap).map fun e => bytesOfNat 8 e.1.toNat ++ bytesOfNat 8 e.2.toNat).flatten)
      let cleared := if z ∧ es.length ≤ cap
        then stored.modWg j.wid fun g => { g with claim := some { cl with slots := [], ovfn := 0, rej := false } } else stored
      exec (.keyedApply core) s = .next (((cleared.modWarp j.wid j.warp fun w =>
        { w with
          await := w.await.filter fun a => a.id != j.seq
          floor := if w.await.any fun a => a.id == j.seq && a.mem then stored.past.length else w.floor }).barArrive j.wid bar 1 0).pulse core j.wid 9)) ∧
  (∀ (v x : BitVec 64), KeyKind.combine .add v x = v + x ∧ KeyKind.combine .fix v x = v + x ∧ KeyKind.combine .or v x = v ||| x ∧
    (KeyKind.combine .min v x).toInt = min v.toInt x.toInt ∧ (KeyKind.combine .max v x).toInt = max v.toInt x.toInt) ∧
  (∀ (w : Int) (neg : Bool) (m : Nat) (e : Int),
    let q := if w ≤ e then m * 2 ^ (e - w).toNat else m / 2 ^ (w - e).toNat
    (fixContribution w (.fin neg m e)).1 = if 2 ^ 63 ≤ q then none else some (BitVec.ofInt 64 (if neg then -(q : Int) else q))) ∧
  (∀ (q : Nat) (t : Tab KeyVal) (c : KeyVal), 6 ≤ q → q ≤ 12 →
    let n := 2 ^ q
    (∀ k, homeBucket n k = (k.toNat * 0xB5A391E74C2D6F83 % 2 ^ 64) / 2 ^ (64 - q)) ∧
    ((∀ p ∈ t, keyDist n (p.1 / 4) p.2.1 < 32) → ∀ p ∈ (keyInsert n t c).1, keyDist n (p.1 / 4) p.2.1 < 32))
/-! ### The GRD group (13 R312-R329) -/

/-- O: 13 R312-R321, R325-R329, 14 R350, R337: `GLD`, `GSC` and `GIDX` whose handle, ranges and addresses pass join the
core's grid queue with all that they read at issue; a NaN coordinate gives NaN results, no access, no contribution, and IV.
GRID_COMPLETE writes a `GLD`'s sums, each a chain of fused steps over its corners, and raises its flags. `GSC` sends its
contributions one by one, in order of lane, level, corner and feature, as its stream takes them; a `GLD` waits while a page
that it reads is in flip, and then reads device memory, whatever the page's new bias (log entry 90), at the dome, where the
L1 keeps no copy of what it read. Every corner index lies within its level. `GQRY` reads the descriptor. Points that the spec
leaves open here are the model's own choices: log entries 20 and 90. -/
def Obligations.GridUnitActs : Prop :=
  (∀ (h : Hd) (sat w : Bool) (gen : BitVec 8) (lv : BitVec 5) (sel : BitVec 6) (n : BitVec 8) (d a b c : Opnd) (bs : List Byte) (s : State)
    (x : Ix), x.on ≠ 0 →
    let g := gridOf bs
    let all := g.levels * g.feats
    let held := x.kr.rc.regs + x.w.x
    let fits (v n : Nat) : Prop := v + n ≤ 256 ∧ v + n ≤ held
    let owed (v n : Nat) : Prop := ∃ a ∈ x.w.await, spansMeet a.v a.n v n = true
    let coords (l : Nat) : List Machine.Num := (List.range g.dim).map fun i => f32.decode (x.w.vget (b.idx + i) l).toNat
    let good := x.lanes.filter fun l => !(coords l).any Machine.Num.isNan
    let bad := x.lanes.filter fun l => (coords l).any Machine.Num.isNan
    let quiet : BitVec 5 := if bad = [] then 0 else 1
    let queued (j : GridJob) (v n : Nat) : State :=
      (({ s with count := s.count + 1 } : State).modWarp x.c.wid x.c.warp fun w =>
        { w with await := w.await ++ [⟨s.count, v, n, true, true⟩], rseq := w.rseq + 1 }).modCore x.g.core fun k =>
          { k with gridq := k.gridq ++ [j] }
    let job (i : Instr) (j : GridJob) : Prop := j.id = s.count ∧ j.wid = x.c.wid ∧ j.warp = x.c.warp ∧ j.instr = i ∧ j.sent = 0 ∧
      j.ord = x.w.rseq ∧ j.parity = if x.kr.rc.sscope = 0 then none else some (x.w.ph.getLsbD 0)
    let gld : Instr := .gld h sat d a b
    let gsc : Instr := .gsc h gen sat a b c
    let gidx : Instr := .gidx h w d a b lv
    let e := featSize g.ft
    let reads : List Acc1 := (good.map fun l => ((List.range g.levels).map fun v => ((List.range g.feats).map fun k =>
      (g.corners v (coords l)).map fun c => (l, g.featAt v c.1 k, e)).flatten).flatten).flatten
    let terms : List (Nat × Nat × Machine.Num × Cond) := (good.map fun l => ((List.range g.levels).map fun v =>
      ((g.corners v (coords l)).map fun m => (List.range g.feats).map fun k => (l, g.gradAt v m.1 k,
        fpMul f32.fmt .rne sat m.2 (f32.decode (x.w.vget (c.idx + v * g.feats + k) l).toNat))).flatten).flatten).flatten
    (∀ i, i = gld ∨ i = gsc ∨ i = gidx → issuing s i = some x → ∀ e, x.handle (x.u32 a) 2 = .error e →
      Meets i x e x.c.bundle (some (BitVec.ofNat 64 (x.u32 a)))) ∧
    (issuing s gld = some x → x.handle (x.u32 a) 2 = .ok bs →
      (¬(fits b.idx g.dim ∧ fits d.idx all) → Meets gld x 0x10 x.c.bundle (some 0)) ∧
      (fits b.idx g.dim → fits d.idx all → ¬owed b.idx g.dim → ¬owed d.idx all → x.clear reads x.featCause → x.sound reads →
        ∃ j, Makes gld x (queued j d.idx all) ∧ job gld j ∧ j.ftype = g.ft ∧ j.sends = [] ∧ j.flags = quiet ∧
          (∀ o, o ∈ j.outs ↔ o.2.1 ∈ bad ∧ d.idx ≤ o.1 ∧ o.1 < d.idx + all ∧ o.2.2 = nan32) ∧
          (∀ o, o ∈ j.sums ↔ o.2.1 ∈ good ∧ ∃ v k, v < g.levels ∧ k < g.feats ∧ o.1 = d.idx + v * g.feats + k ∧
            o.2.2 = (g.corners v (coords o.2.1)).map fun c => (BitVec.ofNat 32 (f32.encode c.2), x.paAt (g.featAt v c.1 k))))) ∧
    (issuing s gsc = some x → x.handle (x.u32 a) 2 = .ok bs → fits b.idx g.dim → fits c.idx all → ¬owed b.idx g.dim → ¬owed c.idx all →
      (g.grad = 0 → Meets gsc x 0x46 x.c.bundle (some 0)) ∧
      (g.grad ≠ 0 → x.clear (terms.map fun t => (t.1, t.2.1, 64)) x.gradCause →
        ∃ j, Makes gsc x (queued j 0 0) ∧ job gsc j ∧ j.outs = [] ∧ j.sums = [] ∧ j.gen = gen ∧
          j.sends = (terms.map fun t => (x.paAt t.2.1, BitVec.ofNat 32 (f32.encode t.2.2.1))) ∧
          ∀ q, q < 5 → (j.flags.getLsbD q = true ↔ quiet.getLsbD q = true ∨ ∃ t ∈ terms, t.2.2.2.getLsbD q = true))) ∧
    (issuing s gidx = some x → x.handle (x.u32 a) 2 = .ok bs → fits b.idx g.dim → fits d.idx (2 ^ g.dim) → ¬owed b.idx g.dim →
      ¬owed d.idx (2 ^ g.dim) →
      (g.levels ≤ lv.toNat → Meets gidx x 0x46 x.c.bundle (some 0)) ∧
      (lv.toNat < g.levels → ∃ j, Makes gidx x (queued j d.idx (2 ^ g.dim)) ∧ job gidx j ∧ j.sums = [] ∧ j.sends = [] ∧ j.flags = quiet ∧
        ∀ o, o ∈ j.outs ↔ ∃ m, m < 2 ^ g.dim ∧ o.1 = d.idx + m ∧
          ((o.2.1 ∈ bad ∧ o.2.2 = if w then nan32 else 0xFFFFFFFF#32) ∨
           (o.2.1 ∈ good ∧ ∃ c, (g.corners lv.toNat (coords o.2.1))[m]? = some c ∧
             o.2.2 = BitVec.ofNat 32 (if w then f32.encode c.2 else c.1))))) ∧
    (issuing s (.gqry h (.s n) a sel) = some x → x.handle (x.u32 a) 2 = .ok bs →
      (sel = 0 → Writes (.gqry h (.s n) a sel) x x.w (.s n) false fun _ => fld bs 0x10 4 % 2 ^ 14) ∧
      (sel = 1 → Writes (.gqry h (.s n) a sel) x x.w (.s n) false fun _ => all + 2 ^ g.dim * 2 ^ 16) ∧
      (∀ v, sel.toNat = 2 + v → v < 32 → v < g.levels → Writes (.gqry h (.s n) a sel) x x.w (.s n) false fun _ =>
        (if (g.res.getD v 0 + 1) ^ g.dim ≤ 2 ^ g.logT.getD v 0 then 2 ^ 30 else 0) + g.logT.getD v 0 * 2 ^ 25 + g.res.getD v 0) ∧
      (34 ≤ sel.toNat ∨ g.levels + 2 ≤ sel.toNat → sel ≠ 0 → sel ≠ 1 →
        Writes (.gqry h (.s n) a sel) x x.w (.s n) false fun _ => 0))) ∧
  (∀ (h : Hd) (sat w : Bool) (gen : BitVec 8) (lv : BitVec 5) (d a b c : Opnd) (s : State) (x : Ix) (i : Instr), x.on = 0 →
    i = .gld h sat d a b ∨ i = .gsc h gen sat a b c ∨ i = .gidx h w d a b lv → issuing s i = some x → Leaves i x x.w) ∧
  (∀ (s : State) (core : Nat) (j : GridJob) (rest : List GridJob) (g : Wg) (w : Warp), (s.core core).gridq = j :: rest →
    look s.wgs j.wid = some g → look g.warps j.warp = some w →
    let value (cs : List (Word × Nat)) : Machine.Num × Cond := cs.foldl (fun r c =>
      let q := fpFma f32.fmt .rne (gridSat j.instr) (f32.decode c.1.toNat)
        ((if j.ftype = 0 then f32 else if j.ftype = 1 then f16 else bf16).decode (memNat s.mem c.2 (if j.ftype = 0 then 4 else 2))) r.1
      (q.1, r.2 ||| q.2)) (.fin false 0 0, 0)
    let places := (j.outs.map fun o => (o.1, o.2.1)) ++ j.sums.map fun o => (o.1, o.2.1)
    (j.sent < j.sends.length → exec (.gridComplete core) s = .next s) ∧
    ((∃ o ∈ j.sums, ∃ c ∈ o.2.2, s.inFlip c.2 = true) → exec (.gridComplete core) s = .next s) ∧
    (j.sends.length ≤ j.sent → (∀ o ∈ j.sums, ∀ c ∈ o.2.2, s.inFlip c.2 = false) → places.Nodup → (∀ p ∈ places, p.2 < 128) →
      ∃ t r, exec (.gridComplete core) s = .next t ∧ t.warp? j.wid j.warp = some r ∧
        { r with v := w.v, flg := w.flg, await := w.await, floor := w.floor } = w ∧ r.await = w.await.filter (fun a => a.id != j.id) ∧
        (r.floor = if w.await.any fun a => a.id == j.id && a.mem then s.past.length else w.floor) ∧
        (∀ o ∈ j.outs, r.vget o.1 o.2.1 = o.2.2) ∧
        (∀ o ∈ j.sums, r.vget o.1 o.2.1 = BitVec.ofNat 32 (f32.encode (value o.2.2).1)) ∧
        (∀ m l, l < 128 → (m, l) ∉ places → r.vget m l = w.vget m l) ∧
        (∀ q, q < 5 → (r.flg.getLsbD q = true ↔ w.flg.getLsbD q = true ∨ j.flags.getLsbD q = true ∨
          ∃ o ∈ j.sums, (value o.2.2).2.getLsbD q = true)) ∧
        { t.core core with l1 := (s.core core).l1 } = { s.core core with gridq := rest } ∧ (∀ n, n ≠ core → t.core n = s.core n) ∧
        (∀ p ∈ (t.core core).l1, p ∈ (s.core core).l1 ∧ ∀ o ∈ j.sums, ∀ c ∈ o.2.2,
          128 * p.1 + 128 ≤ c.2 ∨ c.2 + (if j.ftype = 0 then 4 else 2) ≤ 128 * p.1) ∧
        { t with wgs := s.wgs, cores := s.cores } = s) ∧
    (∀ c, j.sends[j.sent]? = some c →
      let m : Send := ⟨c.1, 1, 4, 0, false, false, j.parity, bytesOfNat 8 c.2.toNat ++ bytesOfNat 4 j.gen.toNat, none⟩
      let agent := coresAgent (dieOf core)
      (s.roomFor agent true [m] = false → exec (.gscSend core) s = .next s) ∧
      (s.roomFor agent true [m] = true → exec (.gscSend core) s =
        .next ((s.enter agent (.warp j.wid j.warp j.ord core) false none m).2.modCore core fun k =>
          { k with gridq := { j with sent := j.sent + 1 } :: rest })))) ∧
  (∀ (g : GridRec) (l : Nat) (xs : List Machine.Num), 0 < g.res.getD l 0 → ∀ p ∈ g.corners l xs, p.1 < 2 ^ g.logT.getD l 0) ∧
  (∀ (g : GridRec) (l j k : Nat),
    g.featAt l j k = g.table + ((g.logT.take l).map fun t => 2 ^ t * g.feats * featSize g.ft).sum + (j * g.feats + k) * featSize g.ft ∧
    g.gradAt l j k = g.grad + ((g.logT.take l).map fun t => 2 ^ t * g.feats * 64).sum + (j * g.feats + k) * 64) ∧
  (∀ (res m : Nat) (e : Int),
    (∀ m e, cellOf res (.fin true m e) = (0, .fin false 0 0)) ∧ cellOf res (.inf false) = (res - 1, .fin false 1 0) ∧
    cellOf res (.inf true) = (0, .fin false 0 0) ∧
    (m ≠ 0 → 2 ^ (-e).toNat ≤ m * 2 ^ e.toNat → cellOf res (.fin false m e) = (res - 1, .fin false 1 0)) ∧
    (m * 2 ^ e.toNat < 2 ^ (-e).toNat → m ≠ 0 → cellOf res (.fin false m e) =
      (m * res / 2 ^ (-e).toNat, (roundTo f32.fmt .rne false false (m * res % 2 ^ (-e).toNat) e false).1)))
/-! ### The ORD group (14 R342, R349-R351, 19 R460) -/

/-- O: 14 R342, R349-R351, 19 R460: `FENCE` completes, as an acquire if it is one, when it orders no remote operations of its
warp or all that its scope covers are acknowledged; else it waits for FENCE_COMPLETE. `BFLIP` answers 1 when the page has the
bias asked for, else it puts a flip under way and waits, in both cases only once every remote operation of its warp is
acknowledged, until when it is not issued; FLIP_COMPLETE gives every block of the page, and no other, the new bias, takes the
page's copies from the die when it goes to the host, and the flip answers 0. `BQRY` reads a page's state. The host's
requests. That the hold of `BFLIP` is on its issue is log entry 90; points that the spec leaves open here are the model's own
choices: log entries 9, 40, 56, 76 and 90. -/
def Obligations.FencesAndBias : Prop :=
  (∀ (h : Hd) (mm : Mm) (kr kg kl host : Bool) (d a : Opnd) (n : BitVec 8) (s : State) (x : Ix), x.on ≠ 0 →
    let die := dieOf x.g.core
    let scope := mm.scope.bits.toNat
    let rel := (mm.ord = .rel ∨ mm.ord = .ar) ∧ (kr = true ∨ (kg = false ∧ kl = false))
    let owes (s : State) : Prop := ∃ o ∈ s.warpOps die x.c.wid x.c.warp,
      (scope = 4 ∧ paDie (msgPa o.2.msg) = die) ∨ (scope = 5 ∧ pkgOfDie (paDie (msgPa o.2.msg)) = pkgOfDie die) ∨ 6 ≤ scope
    let acq (s : State) : State := if (mm.ord = .acq ∨ mm.ord = .ar) ∧ 2 < scope then s.modCore x.g.core fun k => { k with l1 := [] } else s
    let va := x.u64 a
    (∀ i, i = .fence h mm kr kg kl ∨ i = .bflip h host (.s n) a → ∀ y, issuing s i = some y → y.on = 0 → Leaves i y y.w) ∧
    (issuing s (.fence h mm kr kg kl) = some x →
      (¬(rel ∧ owes s) → Makes (.fence h mm kr kg kl) x (acq s)) ∧ (rel → owes s → Waits (.fence h mm kr kg kl) x s (.fence true))) ∧
    (∀ t r hold, t.held x.c.wid x.c.warp = some (hold, x) → hold.wait = .fence r → hold.instr = .fence h mm kr kg kl →
      (¬(rel ∧ owes x.s) → Resumes (.fenceComplete x.c.wid x.c.warp) t x (acq x.s)) ∧
      (rel → owes x.s → exec (.fenceComplete x.c.wid x.c.warp) t = .next t)) ∧
    (issuing s (.bflip h host (.s n) a) = some x → x.clear [(firstOf x.lanes, va, 1)] x.flipCause → x.allAcked = false →
      exec (.bflip h host (.s n) a) s = .next { s with cur := some { x.c with ready := false } }) ∧
    (x.allAcked = true ↔ (∀ o ∈ x.s.warpOps die x.c.wid x.c.warp, x.w.rseq ≤ o.2.ord) ∧ ∀ g, look x.s.wgs x.c.wid = some g →
      ∀ j, j ∈ (x.s.core g.core).gridq ∨ j ∈ g.savedGrid → j.wid = x.c.wid → j.warp = x.c.warp → j.ord < x.w.rseq → j.sends.length ≤ j.sent) ∧
    (issuing s (.bflip h host (.s n) a) = some x → x.clear [(firstOf x.lanes, va, 1)] x.flipCause → x.allAcked = true →
      (s.hostBiased (x.paAt va) = host → MakesGives (.bflip h host (.s n) a) x (s.modCore x.g.core fun k => { k with l1 := [] })
        (.s n) false fun _ => 1) ∧
      (s.hostBiased (x.paAt va) ≠ host → Waits (.bflip h host (.s n) a) x { s with flips := s.flips ++
        [⟨(x.pageAt va).frame, (x.pageAt va).size, host, some (x.c.wid, x.c.warp), die⟩] } .flip)) ∧
    (issuing s (.bqry h d a) = some x →
      (∀ l ∈ x.computing d, ∃ p, x.xlate (x.rd64 a l) = .page p ∧ x.queryCause (x.rd64 a l) (.page p) = none) →
      Writes (.bqry h d a) x x.w d false fun l =>
        let p := x.pageAt (x.rd64 a l)
        let pa := x.paAt (x.rd64 a l)
        let sz := if p.size = 2 ^ 30 then 2 else if p.size = 2 ^ 21 then 1 else 0
        if p.hmem then 32 + 4 * sz + 1
        else 64 * p.cls + 4 * sz + (if s.inFlip pa then 2 else 0) + if s.hostBiased pa then 1 else 0) ∧
    (∀ va p, x.queryCause va (.page p) = none ↔ p.hmem = true ∨ paDie (p.pa va) = die)) ∧
  (∀ (s : State) (k : Nat) (f : Flip), s.flips[k]? = some f → f.base % 65536 = 0 → f.size % 65536 = 0 →
    (∀ e ∈ s.flips.take k, e.base + e.size ≤ f.base ∨ f.base + f.size ≤ e.base) →
    ∃ u : State, u.mem = s.mem ∧ u.hostMem = s.hostMem ∧ u.flips = s.flips.eraseIdx k ∧ u.dies = s.dies ∧
      (∀ pa, u.hostBiased pa = if s.hostBiased f.base ≠ f.host ∧ f.base ≤ pa ∧ pa < f.base + f.size then f.host else s.hostBiased pa) ∧
      (s.hostBiased f.base ≠ f.host → f.host = true →
        (∀ c, dieOf c = f.base / 2 ^ 44 → ∀ p ∈ (u.core c).l1, 128 * p.1 < f.base ∨ f.base + f.size ≤ 128 * p.1) ∧
        ∀ p ∈ u.wgs, ∀ q ∈ p.2.stash, ∀ r ∈ q.2.lines, r.2.pa + 128 ≤ f.base ∨ f.base + f.size ≤ r.2.pa) ∧
      (s.hostBiased f.base = f.host → { u with flips := s.flips } = s) ∧
      (f.warp = none → exec (.flipComplete k) s =
        .next (u.modDie f.die fun d => { d with biasBusy := false, biasRes := decide (s.hostBiased f.base = f.host) })) ∧
      (∀ wid warp hold x h dir n a, f.warp = some (wid, warp) → u.held wid warp = some (hold, x) → hold.wait = .flip →
        hold.instr = .bflip h dir (.s n) a →
        ResumesGives (.flipComplete k) s x (x.s.modCore x.g.core fun k => { k with l1 := [] }) (.s n) false
          fun _ => if s.hostBiased f.base = f.host then 1 else 0)) ∧
  (∀ (s : State) (die : Nat) (v : BitVec 64),
    let page := (v.extractLsb' 16 36).toNat * 65536
    let dir := v.getLsbD 0
    let flip (e : Instr) : Prop :=
      ((s.die die).biasBusy = true → exec e s = .next s)
    flip (.biasFlipRequest die v) ∧ flip (.biasForce die v) ∧
    ((s.die die).biasBusy = false →
      (s.hostBiased page = dir → s.inFlip page = false → exec (.biasFlipRequest die v) s =
        .next (s.modDie die fun d => { d with biasReq := v, biasRes := true })) ∧
      (s.hostBiased page ≠ dir ∨ s.inFlip page = true → exec (.biasFlipRequest die v) s =
        .next { s.modDie die fun d => { d with biasReq := v, biasBusy := true } with
          flips := s.flips ++ [⟨page, 65536, dir, none, die⟩] }) ∧
      ∃ u : State, exec (.biasForce die v) s = .next (u.modDie die fun d => { d with biasReq := v, biasRes := false }) ∧
        { u with bias := s.bias } = s ∧
        ∀ pa, u.hostBiased pa = if page ≤ pa ∧ pa < page + 65536 then dir else s.hostBiased pa))
/-! ### The RMT group (15 R362-R384) -/

/-- O: 15 R364, R376-R384, 17 R413: a remote instruction whose checks pass puts one operation for each lane, one for each
word of `RWO` and `RARV`, into the stream of its home, with the payload that its form gives, and completes; without room it
waits for it. It changes no register but, for a signalling NaN of `RFXA`, `FLG`, and no memory: that is the home's. A read
request whose words cross into another page carries that page's address (log 54). Its checks in order are those of R378,
every lane's before any sends: MISALIGNED; the translation's cause, after the walks that it needs; PAGE_CLASS;
REMOTE_UNREACH; then FXA_RANGE of R380 and PHASE_STATE of R413; then a signalling NaN that `FTE` traps, and the watch range.
An operation takes the next number of its stream, and leaves at once unless it is held. Points that the spec leaves open here
are the model's own choices: log entries 65 and 78. -/
def Obligations.RemoteInstructionsSend : Prop :=
  (∀ (h : Hd) (comm init line w32 : Bool) (fmt : BitVec 5) (ty : Ty) (n : BitVec 4) (d a b c : Opnd) (off : BitVec 24) (s : State) (x : Ix),
    x.on ≠ 0 →
    let par : Option Bool := if x.kr.rc.sscope = 0 then none else some (x.w.ph.getLsbD 0)
    let goes (addr : Nat → Nat) (size : Nat) (t : Aim) : Prop := ∀ l ∈ x.lanes, addr l % size = 0 ∧
      ∃ p, x.xlate (addr l) = .page p ∧ x.rmtCause t (addr l) (.page p) = none
    let quiet (addr : Nat → Nat) (size : Nat) : Prop := x.watched (x.lanes.map fun l => (l, addr l, size)) = none
    let sends (i : Instr) (xs : List Send) (arrival : Bool) : Prop :=
      (x.mayEnter xs arrival = true → Makes i x (x.sent xs arrival)) ∧
      (x.mayEnter xs arrival = false → Waits i x s (.room xs arrival))
    let checks (i : Instr) (addr : Nat → Nat) (size : Nat) (t : Aim) : Prop :=
      ChecksPages i x (.p 7) x.lanes addr size (x.rmtCause t)
    let seen (i : Instr) (addr : Nat → Nat) (size : Nat) : Prop :=
      ∀ t, x.watched (x.lanes.map fun l => (l, addr l, size)) = some t → Traps i x t
    let ea : Nat → Nat := x.gaddr a b off
    let v (l : Nat) : Nat := if ty = .i32 then wrapNat 64 (asSigned 32 (x.rd ty d l)) else x.rd ty d l
    let update (i : Instr) (idx : Nat) : Prop := issuing s i = some x →
      checks i ea ty.access ⟨some 0, true, false⟩ ∧ (goes ea ty.access ⟨some 0, true, false⟩ → seen i ea ty.access ∧ (quiet ea ty.access →
      sends i (x.lanes.map fun l => ⟨x.paAt (ea l), idx, ty.bits.toNat, 0, false, false, par, bytesOfNat 8 (v l), none⟩) false))
    let words : List (Nat × List Nat) := wordGroups (x.lanes.map fun l => (l, x.paAt (ea l)))
    let rfxa : Instr := .rfxa h comm init line fmt ty d a b c
    let la : Nat → Nat := x.gaddr a b 0
    let prm := x.u32 c
    let wt := asSigned 12 (prm / 2 ^ 16 % 4096)
    let odd := prm / 256 % 256 ≠ 0 ∨ (init && line) = false ∧ prm / 256 ≠ 0 ∨
      (init && line) = true ∧ (prm / 2 ^ 28 ≠ 0 ∨ wt < -1074 ∨ 98 < wt)
    let req : Instr := .rreq h w32 n d a b
    let src : Nat → Nat := x.rd64 a
    let last (l : Nat) : Nat := (src l + (if w32 then 4 else 8 * n.toNat) - 1) / 65536 * 65536
    let crosses (l : Nat) : Bool := decide (src l < last l)
    let rep : Nat → Nat := x.rd64 d
    let cnt : Nat → Nat := x.rd64 b
    let asked : List (Nat × Nat × Bool × Aim) := (x.lanes.map fun l =>
      (l, src l, src l % (if w32 then 4 else 8) != 0, ⟨none, false, false⟩) ::
        (if crosses l then [(l, last l, false, (⟨none, false, false⟩ : Aim))] else []) ++
        [(l, rep l, rep l % 8 != 0 || decide (rep l % 128 < 8) || decide (128 < rep l % 128 + 8 * n.toNat), ⟨some 2, false, false⟩),
         (l, cnt l, cnt l % 8 != 0, ⟨some 3, false, false⟩)]).flatten
    let odds := asked.filter fun q => q.2.2.1
    let far := (asked.filter fun q => x.xlate q.2.1 = .miss).map (·.2.1)
    let cause (q : Nat × Nat × Bool × Aim) : Ranked := x.rmtCause q.2.2.2 q.2.1 (x.xlate q.2.1)
    let there (va : Nat) (t : Aim) : Prop := ∃ p, x.xlate va = .page p ∧ x.rmtCause t va (.page p) = none
    update (.radd h comm ty d a b off) 0 ∧ update (.rmin h comm ty d a b off) 2 ∧ update (.rmax h comm ty d a b off) 3 ∧
      update (.ror h comm ty d a b off) 4 ∧
    (issuing s (.rwo h comm ty d a b off) = some x → checks (.rwo h comm ty d a b off) ea 8 ⟨some 2, true, false⟩ ∧
      (goes ea 8 ⟨some 2, true, false⟩ → seen (.rwo h comm ty d a b off) ea 8)) ∧
    (issuing s (.rarv h ty d a b off) = some x → checks (.rarv h ty d a b off) ea 8 ⟨some 3, true, false⟩ ∧
      (goes ea 8 ⟨some 3, true, false⟩ → seen (.rarv h ty d a b off) ea 8)) ∧
    (issuing s rfxa = some x → ∀ r : Bool, (r = true ↔ odd) → checks rfxa la (if line then 128 else 64) ⟨some 1, true, r⟩) ∧
    (issuing s (.rwo h comm ty d a b off) = some x → goes ea 8 ⟨some 2, true, false⟩ → quiet ea 8 →
      sends (.rwo h comm ty d a b off) (words.map fun g => ⟨g.1, 5, ty.bits.toNat, 0,
        g.1 % 128 != 0 && g.2.any fun l => v l != v (firstOf g.2), false, par, bytesOfNat 8 (v (firstOf g.2)), none⟩) false) ∧
    (issuing s (.rarv h ty d a b off) = some x → goes ea 8 ⟨some 3, true, false⟩ → quiet ea 8 →
      sends (.rarv h ty d a b off) (words.map fun g => ⟨g.1, 6, ty.bits.toNat, 0, false, false, par,
        bytesOfNat 8 ((g.2.map fun l => x.rd ty d l).sum % 2 ^ 64), none⟩) true) ∧
    (issuing s rfxa = some x → ¬odd → goes la (if line then 128 else 64) ⟨some 1, true, false⟩ →
      let sn (l : Nat) : Bool := !init && (match engineNum ty fmt (x.rd ty d l % 2 ^ ty.ew) with | .nan true => true | _ => false)
      (∀ r, r < 6 → (∃ l ∈ x.lanes, sn l = true) → meets x.w.enables cSN r = true → (∀ q, q < r → meets x.w.enables cSN q = false) →
        Meets rfxa x (fpCause r) (maskOf (x.lanes.filter sn)) none) ∧
      ((∀ l ∈ x.lanes, sn l = false) ∨ (∀ r, r < 6 → meets x.w.enables cSN r = false) → seen rfxa la (if line then 128 else 64))) ∧
    (issuing s rfxa = some x → ¬odd → goes la (if line then 128 else 64) ⟨some 1, true, false⟩ → quiet la (if line then 128 else 64) →
      let sn (l : Nat) : Bool := !init && (match engineNum ty fmt (x.rd ty d l % 2 ^ ty.ew) with | .nan true => true | _ => false)
      let xs : List Send := x.lanes.map fun l => ⟨x.paAt (la l), 1, if init then 0 else ty.bits.toNat, fmt.toNat, line, init, par,
        bytesOfNat 8 (if init then 0 else if sn l then ty.ieee.nan else x.rd ty d l % 2 ^ ty.ew) ++ bytesOfNat 4 prm, none⟩
      ((∀ l ∈ x.lanes, sn l = false) → sends rfxa xs false) ∧
      ((∃ l ∈ x.lanes, sn l = true) → (∀ r, r < 6 → meets x.w.enables cSN r = false) → x.mayEnter xs false = true →
        Makes rfxa x ((x.sent xs false).modWarp x.c.wid x.c.warp fun w => { w with flg := w.flg ||| 1 }))) ∧
    (issuing s req = some x → w32 = true ∨ 0 < n.toNat → quiet src (if w32 then 4 else 8 * n.toNat) →
      (∀ l ∈ x.lanes, src l % (if w32 then 4 else 8) = 0 ∧ rep l % 8 = 0 ∧ 8 ≤ rep l % 128 ∧ rep l % 128 + 8 * n.toNat ≤ 128 ∧ cnt l % 8 = 0 ∧
        there (src l) ⟨none, false, false⟩ ∧ (crosses l = true → there (last l) ⟨none, false, false⟩) ∧ there (rep l) ⟨some 2, false, false⟩ ∧ there (cnt l) ⟨some 3, false, false⟩) →
      sends req (x.lanes.map fun l => ⟨x.paAt (src l), 7, 0, 0, false, false, par, bytesOfNat 8 (x.paAt (rep l)) ++
        bytesOfNat 8 (x.paAt (cnt l)) ++ bytesOfNat 1 (n.toNat + (if w32 then 16 else 0)),
        if crosses l && x.paAt (last l) != x.paAt (src l) + (last l - src l) then some (x.paAt (last l)) else none⟩) false) ∧
    (issuing s req = some x → w32 = true ∨ 0 < n.toNat →
      (∀ q rest, odds = q :: rest → Meets req x 0x33 (maskOf (odds.map (·.1))) (some (BitVec.ofNat 64 q.2.1))) ∧
      (odds = [] → far ≠ [] → Waits req x (s.askWalks (dieOf x.g.core) x.kr.ctx (x.c.wid, x.c.warp) far) .walk) ∧
      (odds = [] → far = [] →
        (∀ r c q rest, (asked.filter fun q => cause q = some (r, c)) = q :: rest →
          (∀ y ∈ asked, ∀ k e, cause y = some (k, e) → r < k ∨ (r = k ∧ c = e)) →
          Meets req x c (maskOf ((q :: rest).map (·.1))) (some (BitVec.ofNat 64 q.2.1))) ∧
        ((∀ y ∈ asked, cause y = none) → seen req src (if w32 then 4 else 8 * n.toNat)))) ∧
    (∀ i, (∃ ty idx, i = .radd h comm ty d a b idx ∨ i = .rmin h comm ty d a b idx ∨ i = .rmax h comm ty d a b idx ∨
        i = .ror h comm ty d a b idx ∨ i = .rwo h comm ty d a b idx ∨ i = .rarv h ty d a b idx) ∨ i = rfxa ∨ i = req →
      ∀ y, issuing s i = some y → y.on = 0 → Leaves i y y.w) ∧
    (∀ (t : Aim) (va : Nat) (p : Page), let pa := p.pa va
      (t.write = true → p.w = false → x.rmtCause t va (.page p) = some (3, 0x31)) ∧
      (t.write = false ∨ p.w = true →
        (p.hmem = true ∨ (∃ k, t.cls = some k ∧ p.cls ≠ k) → x.rmtCause t va (.page p) = some (4, 0x32)) ∧
        (p.hmem = false → (∀ k, t.cls = some k → p.cls = k) →
          (x.s.nPkg ≤ paPkg pa ∨ paPkg pa ∈ x.s.retired → x.rmtCause t va (.page p) = some (5, 0x50)) ∧
          (paPkg pa < x.s.nPkg → paPkg pa ∉ x.s.retired →
            (t.range = true → x.rmtCause t va (.page p) = some (6, 0x53)) ∧
            (t.range = false →
              let S := x.kr.rc.sscope
              let own := dieOf x.g.core
              let inside := S = 0 ∨ (4 ≤ S ∧ paDie pa = own) ∨ (S = 5 ∧ pkgOfDie (paDie pa) = pkgOfDie own) ∨ 6 ≤ S
              (inside → x.rmtCause t va (.page p) = none) ∧ (¬inside → x.rmtCause t va (.page p) = some (7, 0x65))))))) ∧
    (∀ (t : Aim) (va : Nat), x.rmtCause t va .absent = some (1, 0x30) ∧ x.rmtCause t va .poison = some (1, 0x38))) ∧
  (∀ (s : State) (agent : Nat) (who : Issuer) (held : Bool) (x : Send),
    let dst := streamOf x.pa
    let st := s.stream agent dst
    let r := s.enter agent who held none x
    let m := message (agent * 2 ^ 54 + st.next) x.pa x.desc x.payload
    let here := msgPkg m = agent / 16
    (∀ o ∈ st.ops, o.seq ≠ st.next) →
      r.1 = (dst, st.next) ∧ r.2.mem = s.mem ∧ r.2.hostMem = s.hostMem ∧ (r.2.stream agent dst).next = (st.next + 1) % 2 ^ 54 ∧
      (r.2.stream agent dst).ops = st.ops ++ [⟨st.next, m, if ¬held ∧ here then some s.time else none, 0, who, x.parity, none, x.rest⟩] ∧
      (held = true → ∀ p, (r.2.spire p).inbox = (s.spire p).inbox) ∧
      (held = false → here → msgIdx m ≠ 0x3E → isReplyPa (msgPa m) = false →
        (r.2.spire (paSpire (msgPa m))).inbox = (s.spire (paSpire (msgPa m))).inbox ++ [m]) ∧
      (held = false → ¬here → (r.2.queue (agent / 16) (msgPkg m)).msgs = (s.queue (agent / 16) (msgPkg m)).msgs ++ [m])) ∧
  (∀ (tag pa desc : Nat) (payload : List Byte), tag < 2 ^ 64 → pa < 2 ^ 64 → desc < 2 ^ 25 → payload.length ≤ 128 →
    let m := message tag pa desc payload
    msgTag m = tag ∧ msgPa m = pa ∧ msgDesc m % 2 ^ 25 = desc ∧ m.length = 4 * (msgDesc m / 2 ^ 25 + 1) ∧
      (m.drop 20).take payload.length = payload ∧ (payload.length = payloadSize (desc % 64) m.length → msgOk m = true))

/-- O: 15 R361, R365, R368, R372, R374, R375, R379-R383: an operation whose check code holds and whose number its window has
not seen is applied at its home once, in one step that marks the window, and acknowledged with its status: `RADD` and its
like replace the word, a contribution of the line's generation is added to it, an initialisation of another resets it, a
write-once word takes its first value, an arrival adds. A number seen before, a code that fails, host bias or poison changes
no byte of memory, and is acknowledged as such; a copy of an operation that its source has given up goes. A read request that
is served owes its reply, with the arrival after it, and one that is refused the arrival alone: sent at once, or owed until
there is room (log entry 72). Points that the spec leaves open here are the model's own choices: log entries 9, 18, 51, 53,
54, 68 and 72. -/
def Obligations.HomesApplyOnce : Prop :=
  (∀ (s : State) (sp k noise d : Nat) (m0 : List Byte), (s.spire sp).inbox[k]? = some m0 → s.flipping sp m0 = false →
    s.mayAck (sp / 8) (msgTag m0) = true →
    let m := noised m0 noise
    let e (i : Nat) : Instr :=
      if i = 0 then .applyRadd sp k noise else if i = 2 then .applyRmin sp k noise else if i = 3 then .applyRmax sp k noise
      else if i = 4 then .applyRor sp k noise else if i = 1 then .applyContribution sp k noise else if i = 8 then .applyLineInit sp k noise
      else if i = 5 then .applyWriteOnce sp k noise else if i = 6 then .applyArrival sp k noise
      else if i = 7 then .serveReadRequest sp k noise else .applyReply sp k noise
    let isOf (i : Nat) (m : List Byte) : Prop := if i = 1 then msgIdx m = 1 ∧ msgDesc m / 2 ^ 16 % 2 = 0
      else if i = 8 then msgIdx m = 1 ∧ msgDesc m / 2 ^ 16 % 2 = 1 else if i = 9 then msgIdx m = 0x3F else msgIdx m = i
    let w := lookD (s.spire sp).wins (msgTag m / 2 ^ 54) ⟨0, 0⟩
    let seen := w.judge (msgTag m % 2 ^ 54)
    let refused := s.hostBiased (msgPa m) = true ∨ ∃ r ∈ msgTouches m, s.poisoned r.1 r.2 = true
    let pa := msgPa m
    let ty := msgDesc m / 2 ^ 6 % 16
    let n := if ty < 2 then 4 else 8
    let old := memNat s.mem pa n
    let v := fld m 20 8 % 2 ^ (8 * n)
    let full := msgDesc m / 2 ^ 15 % 2 = 1
    let size := if full then 128 else 64
    let line := Line.ofBytes full (memRead s.mem pa size)
    let set (new : Nat) : Mem := memWrite s.mem pa (bytesOfNat n new)
    let word (mem : Mem) (pa v : Nat) (mark : Bool) : Mem :=
      let at_ := pa / 128 * 128
      let i := pa % 128 / 8 - 1
      let h := memNat mem at_ 8
      let hdr := memWrite mem at_ (bytesOfNat 8 ((h ||| 2 ^ i) ||| if h.testBit i ∨ mark then 2 ^ (15 + i) else 0))
      if h.testBit i then hdr else memWrite hdr pa (bytesOfNat 8 v)
    let gone : Prop := msgTag m % 2 ^ 54 ∈ (s.stream (msgTag m / 2 ^ 54) sp).gone
    let acked (u : State) (tag status : Nat) : Prop :=
      (u.die (tag / 2 ^ 56)).ackOf = (s.die (tag / 2 ^ 56)).ackOf ++ [(tag, status, sp)] ∧
      ∃ l : List (List Byte), ackMessage tag status ∈ l ∧
        if tag / 2 ^ 58 = sp / 8 then (u.die (tag / 2 ^ 56)).acks = (s.die (tag / 2 ^ 56)).acks ++ l
        else (u.queue (sp / 8) (tag / 2 ^ 58)).msgs = (s.queue (sp / 8) (tag / 2 ^ 58)).msgs ++ l
    let makes (e : Instr) (mem : Mem) (status : Nat) : Prop := ∃ u, exec e s = .next u ∧ acked u (msgTag m) status ∧ u.mem = mem ∧ u.hostMem = s.hostMem ∧
      lookD (u.spire sp).wins (msgTag m / 2 ^ 54) ⟨0, 0⟩ = w.mark d ∧ (u.spire sp).inbox = (s.spire sp).inbox.eraseIdx k ∧
      (u.spire sp).late = (s.spire sp).late + (if status = 2 then 1 else 0)
    (∀ i, i < 10 → isOf i m0 → msgOk m = false →
      ∃ u, exec (e i) s = .next u ∧ acked u (msgTag m0) 5 ∧ u.mem = s.mem ∧ (u.spire sp).wins = (s.spire sp).wins) ∧
    (∀ i, i < 10 → isOf i m0 → (i = 7 → m = m0) → msgOk m = true → seen = .again →
      ∃ u, exec (e i) s = .next u ∧ acked u (msgTag m) 1 ∧ u.mem = s.mem ∧ (u.spire sp).wins = (s.spire sp).wins) ∧
    (∀ i, i < 10 → i ≠ 7 → isOf i m0 → msgIdx m ≠ 7 → msgOk m = true → seen = .fresh d → ¬gone → refused →
      makes (e i) s.mem (if s.hostBiased pa then 3 else 4)) ∧
    (∀ i, i < 10 → isOf i m0 → (i = 7 → m = m0) → msgOk m = true → seen = .fresh d → gone →
      exec (e i) s = .next (s.modSpire sp fun p => { p with inbox := p.inbox.eraseIdx k })) ∧
    (msgOk m = true → seen = .fresh d → ¬gone → ¬refused →
      (isOf 0 m0 → isOf 0 m → makes (e 0) (set ((old + v) % 2 ^ (8 * n))) 0) ∧
      (isOf 2 m0 → isOf 2 m → makes (e 2) (set (if ty % 2 = 0 then wrapNat (8 * n) (min (asSigned (8 * n) old) (asSigned (8 * n) v)) else min old v)) 0) ∧
      (isOf 3 m0 → isOf 3 m → makes (e 3) (set (if ty % 2 = 0 then wrapNat (8 * n) (max (asSigned (8 * n) old) (asSigned (8 * n) v)) else max old v)) 0) ∧
      (isOf 4 m0 → isOf 4 m → makes (e 4) (set (old ||| v)) 0) ∧
      (isOf 6 m0 → isOf 6 m → makes (e 6) (memWrite s.mem pa (bytesOfNat 8 ((memNat s.mem pa 8 + fld m 20 8) % 2 ^ 64))) 0) ∧
      (isOf 1 m0 → isOf 1 m → line.gen = fld m 28 1 → makes (e 1) (memWrite s.mem pa ((line.add full (contribution m)).bytes full)) 0) ∧
      (isOf 1 m0 → isOf 1 m → line.gen ≠ fld m 28 1 → makes (e 1) s.mem 2) ∧
      (isOf 8 m0 → isOf 8 m →
        makes (e 8) (memWrite s.mem pa ((line.init full (fld m 28 1) (asSigned 12 (fld m 28 4 / 2 ^ 16 % 4096))).bytes full)) 0) ∧
      (isOf 5 m0 → isOf 5 m → pa % 128 = 0 → makes (e 5) (memWrite s.mem pa (zeros 128)) 0) ∧
      (isOf 5 m0 → isOf 5 m → pa % 128 ≠ 0 → makes (e 5) (word s.mem pa (fld m 20 8) (decide full)) 0) ∧
      (isOf 9 m0 → isOf 9 m → makes (e 9) ((List.range ((m.length - 24) / 8)).foldl (fun mem j =>
        word mem (pa + 8 * j) (fld m (20 + 8 * j) 8) false) s.mem) 0)) ∧
    (msgIdx m0 = 7 → msgOk m = true → seen = .fresh d → ¬gone →
      let b := fld m 36 1
      let size := if b / 16 % 2 = 1 then 4 else 8 * (b % 16)
      let parts := s.reqParts sp m
      let refused := s.hostBiased pa = true ∨ parts = [] ∨
        ∃ r ∈ parts, s.hostBiased r.1 = true ∨ s.hostBiased (r.1 + r.2 - 1) = true ∨ s.poisoned r.1 r.2 = true
      let words := padTo 8 (parts.map fun r => memRead s.mem r.1 r.2).flatten
      let reply : Send := ⟨fld m 20 8, 0x3F, 3, 0, false, false, s.parityOf sp m, words, none⟩
      (∃ u, exec (.serveReadRequest sp k noise) s = .next u ∧ u.mem = s.mem ∧ u.hostMem = s.hostMem ∧
        lookD (u.spire sp).wins (msgTag m / 2 ^ 54) ⟨0, 0⟩ = w.mark d) ∧
      (pa / 65536 = (pa + size - 1) / 65536 → parts = [(pa, size)]) ∧
      (m = m0 →
        let ag := spireAgent sp
        let arrival (v : Nat) : Send := ⟨fld m 28 8, 6, 3, 0, false, false, s.parityOf sp m, bytesOfNat 8 v, none⟩
        let sends (u : State) (x : Send) (owes : Option Nat) : Prop :=
          let next := (s.stream ag (streamOf x.pa)).next
          (∃ o ∈ (u.stream ag (streamOf x.pa)).ops, o.seq = next ∧ o.msg = message (ag * 2 ^ 54 + next) x.pa x.desc x.payload ∧
            o.who = .spire sp ∧ o.owes.isSome = owes.isSome ∧
            ∀ v, owes = some v → ∃ y, o.owes = some y ∧ owedArrival y false = arrival v) ∨
          ∃ y, (u.spire sp).owed = (s.spire sp).owed ++ [(x, y)] ∧ y.isSome = owes.isSome ∧
            ∀ v, owes = some v → ∃ z, y = some z ∧ owedArrival z false = arrival v
        (¬refused → ∃ u, exec (.serveReadRequest sp k noise) s = .next u ∧ acked u (msgTag m) 0 ∧ sends u reply (some 1)) ∧
        (refused → ∃ u st, exec (.serveReadRequest sp k noise) s = .next u ∧ acked u (msgTag m) st ∧ (st = 3 ∨ st = 4) ∧
          sends u (arrival 0x100000001) none)) ∧
      (¬refused → m = m0 → (s.spire sp).owed = [] → s.roomFor (spireAgent sp) true [reply] = false →
        ∃ u, exec (.serveReadRequest sp k noise) s = .next u ∧ ∃ arr, (u.spire sp).owed = [(reply, some arr)] ∧ arr.pa = fld m 28 8 ∧
          arr.payload = bytesOfNat 8 1))) ∧
  (∀ (w : Window) (seq d : Nat), w.base < 2 ^ 54 → seq < 2 ^ 54 → w.judge seq = .fresh d →
    (w.mark d).judge seq = .again ∧
    ∀ q, q < 2 ^ 54 → (w.judge q = .again → (q + 2 ^ 54 - w.base) % 2 ^ 54 < 4096 → (w.mark d).judge q = .again)) ∧
  (∀ (full : Bool) (l : Line) (g : Nat) (wt : Int),
    (g = l.gen → l.init full g wt = l) ∧ (g ≠ l.gen → (l.init full g wt).gen = g ∧ (l.init full g wt).count = 0))
/-- O: 15 R362, R364, R368-R371, R376, R383, R384, 04 R111, 09 R238: waits end and acknowledgements act. `WAITC` returns the
word at its target or after its deadline, by WATCH_FIRE, WATCH_POLL or WAITC_DEADLINE; WAITK_WAKE. Operations enter when
there is room; after 10 ms the wait traps STREAM_STALL. An `RARV` leaves once its warp owes nothing earlier. An
acknowledgement releases its operation; a failed check sends it again, and at the third it is given up, and no copy of it is
applied; refusals become deferred causes. A reply fills its line while its row is waited for; the arrival after it ends the
line. Unanswered, it is sent again after 4 us. A group's bytes do not name the stream of an entry: the source's die has it,
in the model, by the home's word (log 18). Points that the spec leaves open here are the model's own choices: log entries 20,
51, 52 and 72. -/
def Obligations.WaitsAndAcknowledgements : Prop :=
  (∀ (h : Hd) (n : BitVec 8) (a b c : Opnd) (s : State) (x : Ix), x.on ≠ 0 → issuing s (.waitc h (.s n) a b c) = some x →
    let i : Instr := .waitc h (.s n) a b c
    let va := x.u64 a
    let pa := x.paAt va
    let chk (va : Nat) (tr : Tr) : Ranked :=
      match tr with
      | .page p => if p.cls ≠ 3 ∨ p.hmem = true then some (4, 0x32)
        else if paDie (p.pa va) ≠ dieOf x.g.core then some (5, 0x35) else none
      | _ => none
    let word := natOfBytes (x.bytesAt va 8)
    let due := match x.w.due with
      | some t => some t
      | none => if x.u32 c = 0 then none else some (s.time + 1000 * x.u32 c)
    let past := ∃ t, due = some t ∧ t ≤ s.time
    let u := s.modWarp x.c.wid x.c.warp fun w => { w with due := none }
    let room := (s.spire (paSpire pa)).watches.length < 1024
    x.clear [(firstOf x.lanes, va, 8)] chk → x.sound [(firstOf x.lanes, va, 8)] →
      (x.u32 b ≤ word % 2 ^ 32 ∨ past →
        MakesGives i x ((u.recall none false pa 8).modCore x.g.core fun k => { k with l1 := [] }) (.s n) true fun _ => word) ∧
      (word % 2 ^ 32 < x.u32 b → ¬past → Waits i x
        (if room then u.modSpire (paSpire pa) fun p => { p with watches := p.watches ++ [(x.c.wid, x.c.warp)] } else u)
        (.waitc va pa (x.u32 b) due (decide room)))) ∧
  (∀ (s : State) (wid warp : Nat) (hold : Hold) (x : Ix) (h : Hd) (n : BitVec 8) (a b c : Opnd) (va pa target : Nat), x.on ≠ 0 →
    s.held wid warp = some (hold, x) → s.inFlip pa = false → s.poisoned pa 8 = false →
    let word := memNat s.mem pa 8
    let met := target ≤ word % 2 ^ 32
    let read (u : State) : State := (u.recall none false pa 8).modCore x.g.core fun k => { k with l1 := [] }
    let freed := x.s.modSpire (paSpire pa) fun p => { p with watches := p.watches.filter fun e => e != (x.c.wid, x.c.warp) }
    let gives (e : Instr) (u : State) : Prop := ResumesGives e s x (read u) (.s n) true fun _ => word
    (∀ due watched, hold.wait = .waitc va pa target due watched → hold.instr = .waitc h (.s n) a b c →
      (∀ sp k, (s.spire sp).watches[k]? = some (wid, warp) → (met → gives (.watchFire sp k) freed) ∧
        (¬met → exec (.watchFire sp k) s = .next s)) ∧
      (watched = false → hold.since + 1000 ≤ s.time →
        (met → gives (.watchPoll wid warp) freed) ∧
        (¬met → exec (.watchPoll wid warp) s = .next (s.modWarp wid warp fun w => { w with hold := some { hold with since := s.time } }))) ∧
      (∀ t, due = some t → (t ≤ s.time → gives (.waitcDeadline wid warp) freed) ∧
        (s.time < t → exec (.waitcDeadline wid warp) s = .next s))) ∧
    (hold.wait = .waitk va pa target → hold.instr = .waitk h (.s n) a b →
      (met → gives (.waitkWake wid warp) x.s) ∧ (¬met → exec (.waitkWake wid warp) s = .next s)) ∧
    (∀ sp k, (s.spire sp).watches[k]? = some (wid, warp) → hold.wait = .flip →
      exec (.watchFire sp k) s = .next (s.modSpire sp fun p => { p with watches := p.watches.eraseIdx k }))) ∧
  (∀ (s : State) (wid warp : Nat) (hold : Hold) (x : Ix), s.held wid warp = some (hold, x) →
    (∀ xs arrival, hold.wait = .room xs arrival →
      (x.mayEnter xs arrival = true → Resumes (.streamEntry (.warp wid warp)) s x ((x.sent xs arrival).modWarp x.c.wid x.c.warp
        fun w => { w with flg := w.flg ||| if x.snans = [] then 0 else 1 })) ∧
      (x.mayEnter xs arrival = false → exec (.streamEntry (.warp wid warp)) s = .next s)) ∧
    ((∃ xs arrival, hold.wait = .room xs arrival) ∨
        (hold.wait = .fence true ∧ ∃ h mm kr kg kl, hold.instr = .fence h mm kr kg kl ∧ x.fenceMet mm kr kg kl = false) ∨
        (hold.wait = .acks ∧ x.allAcked = false) →
      (hold.since + 10000000 ≤ s.time → x.storing = false →
        exec (.streamStall wid warp) s = .next ((x.s.modCore x.g.core fun k => { k with keyq := k.keyq.filter fun j =>
          !(j.wid == x.c.wid && j.warp == x.c.warp && j.prm.isEmpty) }).takeTrap x.c ⟨0x52, x.on, none, none, none⟩)) ∧
      (hold.since + 10000000 ≤ s.time → x.storing = true → exec (.streamStall wid warp) s = .next { x.s with cur := none }) ∧
      (s.time < hold.since + 10000000 → exec (.streamStall wid warp) s = .next s)) ∧
    (hold.wait = .acks → x.allAcked = true → exec (.streamStall wid warp) s = .next s)) ∧
  (∀ (s : State) (sp : Nat) (x : Send) (owes : Option Send) (rest : List (Send × Option Send)), (s.spire sp).owed = (x, owes) :: rest →
    (s.roomFor (spireAgent sp) true [x] = false → exec (.streamEntry (.spire sp)) s = .next s) ∧
    (s.roomFor (spireAgent sp) true [x] = true → exec (.streamEntry (.spire sp)) s =
      .next ((s.modSpire sp fun p => { p with owed := rest }).enter (spireAgent sp) (.spire sp) false owes x).2)) ∧
  (∀ (s : State) (wid cmd e : Nat) (g : Wg) (c : Cmd) (k : Kernel) (x : Send) (rest : List (Nat × Send)), s.cmd? wid cmd = some (g, c, k) →
    c.asks = (e, x) :: rest →
    let agent := coresAgent (dieOf g.core)
    (s.roomFor agent true [x] = false → exec (.streamEntry (.cmd wid cmd)) s = .next s) ∧
    (s.roomFor agent true [x] = true → exec (.streamEntry (.cmd wid cmd)) s =
      .next ((s.enter agent (.engine wid g.core) false none x).2.modCmd wid cmd fun c => { c with
        asks := rest, far := upd c.far e fun w => if w.since = 0 then { w with since := s.time + 1 } else w }))) ∧
  (∀ (s : State) (die wid warp : Nat) (a : WaitingArrival),
    ((s.die die).arrivals.find? fun a => a.wid == wid && a.warp == warp) = some a →
    ((∃ o ∈ s.warpOps die wid warp, o.2.ord < a.ord) → exec (.rarvDepart die wid warp) s = .next s) ∧
    (∀ dst seq o, (∀ o ∈ s.warpOps die wid warp, a.ord ≤ o.2.ord) → look s.wgs wid = none → a.ops = [(dst, seq)] →
      ((s.stream (coresAgent die) dst).ops.find? fun o => o.seq == seq) = some o →
      s.mayLeave (pkgOfDie die) (msgPkg o.msg) o.msg.length = true → exec (.rarvDepart die wid warp) s =
        .next ((s.modDie die fun d => { d with arrivals := d.arrivals.erase a }).departOp (coresAgent die) dst seq o.msg)) ∧
    (∀ dst seq o g w, a.raised = false → a.ops = [(dst, seq)] → look s.wgs wid = some g → g.st = .running → look g.warps warp = some w →
      g.image = none → w.live ≠ 0 → w.dfr.length < 16 →
      ((s.stream (coresAgent die) dst).ops.find? fun o => o.seq == seq) = some o → a.since + 10000000 ≤ s.time →
      ∃ u, exec (.arrivalStall die wid warp) s = .next u ∧ u.mem = s.mem ∧
        u.warp? wid warp = some { w with dfr := w.dfr ++ [⟨0x52, BitVec.ofNat 64 (msgTag o.msg), msgPa o.msg⟩] } ∧
        { a with raised := true } ∈ (u.die die).arrivals)) ∧
  (∀ (s : State) (die k tag dst status : Nat) (o : OutOp), tag < 2 ^ 64 → dst < 2 ^ 16 → status < 6 →
    (s.die die).acks[k]? = some (ackMessage tag status) →
    let agent := tag / 2 ^ 54
    let s1 := s.modDie die fun d => { d with acks := d.acks.eraseIdx k }
    ((s.die die).ackOf.find? fun r => r.1 == tag && r.2.1 == status && (s.stream agent r.2.2).ops.any fun o => o.seq == tag % 2 ^ 54) =
      some (tag, status, dst) →
    ((s1.stream agent dst).ops.find? fun o => o.seq == tag % 2 ^ 54) = some o → o.owes = none →
    ∃ u, exec (.ackGroupReceived die k 0) s = .next u ∧ (status < 3 → u.mem = s.mem) ∧
      (status ≠ 5 ∨ 2 ≤ o.checks → (u.stream agent dst).ops = (s1.stream agent dst).ops.filter fun p => p.seq != o.seq) ∧
      (status = 5 → 2 ≤ o.checks → o.seq ∈ (u.stream agent dst).gone) ∧
      (status = 5 → o.checks < 2 → ∃ q ∈ (u.stream agent dst).ops, q.seq = o.seq ∧ q.msg = o.msg ∧ q.checks = o.checks + 1) ∧
      ∀ wid warp ord core g w, o.who = .warp wid warp ord core → look s.wgs wid = some g → look g.warps warp = some w → g.image = none →
        w.live ≠ 0 → w.dfr.length < 16 → ∃ v, u.warp? wid warp = some v ∧
          (status = 0 ∨ status = 1 ∨ status = 2 → v = w) ∧
          (∀ c : BitVec 7, (status = 3 ∧ c = 0x32) ∨ (status = 4 ∧ c = 0x38) ∨ (status = 5 ∧ 2 ≤ o.checks ∧ c = 0x51) →
            v = { w with dfr := w.dfr ++ [⟨c, BitVec.ofNat 64 (msgTag o.msg), msgPa o.msg⟩] })) ∧
  (∀ (s : State) (die k noise : Nat) (m : List Byte), (s.die die).acks[k]? = some m → msgOk (noised m noise) = false →
    exec (.ackGroupReceived die k noise) s = .next (s.modDie die fun d => { d with acks := d.acks.eraseIdx k })) ∧
  (∀ (s : State) (src dst seq t : Nat) (o : OutOp), ((s.stream src dst).ops.find? fun o => o.seq == seq) = some o → o.left = some t →
    (s.time < t + 4000 → exec (.retransmit src dst seq) s = .next s) ∧
    (t + 4000 ≤ s.time → s.mayLeave (src / 16) (msgPkg o.msg) o.msg.length = true →
      exec (.retransmit src dst seq) s = .next (s.departOp src dst seq o.msg))) ∧
  (∀ (s : State) (die k noise d : Nat) (m0 : List Byte) (r : ReplyLine), (s.die die).replies[k]? = some m0 →
    s.mayAck (pkgOfDie die) (msgTag m0) = true →
    let m := noised m0 noise
    let w := lookD (s.die die).wins (msgTag m / 2 ^ 54) ⟨0, 0⟩
    let core := 192 * paDie (msgPa m) + msgPa m / 2 ^ 17 % 256
    let line := msgPa m / 2 ^ 7 % 1024
    let gone : Prop := msgTag m % 2 ^ 54 ∈ (s.stream (msgTag m / 2 ^ 54) (512 + die)).gone
    let e : Instr := .replyBufferWrite die k noise
    (msgOk m = false ∨ w.judge (msgTag m % 2 ^ 54) = .again → ∃ u, exec e s = .next u ∧ u.mem = s.mem ∧ u.cores = s.cores) ∧
    (msgOk m = true → w.judge (msgTag m % 2 ^ 54) = .fresh d → gone → exec e s =
      .next (s.modDie die fun d => { d with replies := d.replies.eraseIdx k })) ∧
    (msgOk m = true → w.judge (msgTag m % 2 ^ 54) = .fresh d → ¬gone → look (s.core core).reply line = some r →
      ∃ u, exec e s = .next u ∧ lookD (u.die die).wins (msgTag m / 2 ^ 54) ⟨0, 0⟩ = w.mark d ∧
        (msgIdx m = 0x3F → s.rowWanted r = false → (u.core core).reply = (s.core core).reply) ∧
        (msgIdx m = 0x3F → s.rowWanted r = true →
          look (u.core core).reply line = some { r with words := some ((m.drop 20).take (m.length - 24)) }) ∧
        (msgIdx m ≠ 0x3F → s.rowWanted r = false → (u.core core).reply = del (s.core core).reply line) ∧
        (msgIdx m ≠ 0x3F → s.rowWanted r = true → look (u.core core).reply line = some { r with done := true })))
/-! ### The PHS group (17 R407-R416, R421-R433) -/

/-- O: 17 R407, R408, R410, R412, R414-R416, R430, R432: barrier networks. `HBAR` and `PHASE` with a count in range send one
arrival with the warp's phase number and block their threads; `HBAR` first waits for the warp's acknowledgements. An arrival
makes its context, is refused with PHASE_STATE for another count, waits for the next phase of a full one, or is counted; the
last completes an `HBAR` phase, and two equal balanced sweeps a `PHASE`. Every waiter is then released with its number
advanced. A node holds at most 64 contexts: an arrival that would make one more on its way waits (log 57). Points that the
spec leaves open here are the model's own choices: log entries 9 and 57. -/
def Obligations.BarrierNetworks : Prop :=
  (∀ (h : Hd) (mm : Mm) (n : BitVec 8) (a : Opnd) (ch : BitVec 4) (s : State) (x : Ix), x.on ≠ 0 →
    let bar : Instr := .hbar h mm (.s n) a ch
    let pha : Instr := .phase h (.s n) a
    let cnt := x.u32 a
    let bad := cnt = 0 ∨ 2 ^ 24 < cnt
    let k := (lookD x.w.hcnt ch.toNat 0).toNat
    let sc := mm.scope.bits.toNat
    let ps := x.kr.rc.sscope
    let owes := (∃ o ∈ x.s.warpOps (dieOf x.g.core) x.c.wid x.c.warp, o.2.ord < x.w.rseq) ∨
      ∃ j ∈ (x.s.core x.g.core).gridq ++ x.g.savedGrid, j.wid = x.c.wid ∧ j.warp = x.c.warp ∧ j.ord < x.w.rseq ∧ j.sent < j.sends.length
    let arrives (e : Instr) (s : State) (phase : Bool) (sc ch k : Nat) : Prop :=
      let b : Blocked := ⟨x.c.prio, x.c.pc, x.on, .net ⟨x.s.count, phase, sc, ch, cnt, k, n.toNat, x.c, none⟩⟩
      let u : State := { (x.s.modWarp x.c.wid x.c.warp fun w => { w with blocked := w.blocked ++ [b] }) with
        count := x.s.count + 1
        netMail := x.s.netMail ++ [⟨x.kr.ctx, ch, sc, scopeInst sc x.g.core, cnt, k % 2 == 1, x.c.wid, x.c.warp, x.s.count, x.g.core⟩] }
      ∃ t w v, exec e s = .next t ∧ u.warp? x.c.wid x.c.warp = some v ∧ OnlyWarp x u t w ∧ Settles v w ∧ SameRegs v w ∧
        w.standAt (x.c.bundle &&& ~~~x.on) x.c.prio (x.c.pc + 12)
    (bad → issuing s bar = some x → Meets bar x 0x65 x.c.bundle none) ∧
    (¬bad → owes → issuing s bar = some x → Waits bar x s .acks) ∧
    (∀ i, i = bar ∨ i = pha → ∀ y, issuing s i = some y → y.on = 0 → Leaves i y y.w) ∧
    (¬bad → ¬owes → x.s.nodeRoom sc x.g.core x.kr.ctx ch.toNat = true →
      (issuing s bar = some x → arrives bar s false sc ch.toNat k) ∧
      (∀ hold, s.held x.c.wid x.c.warp = some (hold, x) → hold.wait = .acks → hold.instr = bar →
        arrives (.fenceComplete x.c.wid x.c.warp) s false sc ch.toNat k)) ∧
    (¬bad → ¬owes → x.s.nodeRoom sc x.g.core x.kr.ctx ch.toNat = false →
      (issuing s bar = some x → exec bar s = .next { s with cur := some { x.c with ready := false } }) ∧
      (∀ hold, s.held x.c.wid x.c.warp = some (hold, x) → hold.wait = .acks → hold.instr = bar →
        exec (.fenceComplete x.c.wid x.c.warp) s = .next { x.s with cur := none })) ∧
    (bad ∨ ps = 0 → issuing s pha = some x → Meets pha x 0x65 x.c.bundle none) ∧
    (¬bad → ps ≠ 0 → issuing s pha = some x →
      (x.s.nodeRoom ps x.g.core x.kr.ctx 16 = true → arrives pha s true ps 16 x.w.ph.toNat) ∧
      (x.s.nodeRoom ps x.g.core x.kr.ctx 16 = false →
        exec pha s = .next { s with cur := some { x.c with ready := false } }))) ∧
  (∀ (s : State) (k : Nat) (a : NetArrival), s.netMail[k]? = some a →
    let e : Instr := .networkArrival k
    let s1 : State := { s with netMail := s.netMail.eraseIdx k }
    let full : Prop := ∃ lvl, 2 ≤ lvl ∧ lvl ≤ 6 ∧ lvl ≤ a.scope ∧ 64 ≤ (liveAt s.nets lvl (scopeInst lvl a.core)).length
    let made : State := { s1 with nets := s.nets ++ [⟨a.ctx, a.ch, a.scope, a.inst, a.n, a.parity, [(a.wid, a.warp, a.id)], [], [a.core], none⟩] }
    (∀ i n, s.nets.findIdx? (fun n => n.named a) = some i → s.nets[i]? = some n →
      let one : State := { s1 with nets := s.nets.set i { n with
        waits := n.waits ++ [(a.wid, a.warp, a.id)], cores := n.cores ++ [a.core], parity := a.parity } }
      (n.n ≠ a.n → ∀ g w b nw, look s.wgs a.wid = some g → look g.warps a.warp = some w → g.st = .running →
        w.blocked.find? (fun b => b.waitsFor a.id) = some b → b.why = .net nw →
        (w.hmode = true ∨ w.hold ≠ none ∨ s.storing g.core a.wid a.warp = true → exec e s = .next s) ∧
        (w.hmode = false → w.hold = none → s.storing g.core a.wid a.warp = false → exec e s = .next ((s1.modWarp a.wid a.warp fun w =>
          ({ w with blocked := w.blocked.filter fun o => !o.waitsFor a.id } : Warp).rejoin [⟨b.prio, b.pc, b.mask⟩]).takeTrap nw.cur
            ⟨0x65, nw.cur.bundle, none, none, none⟩))) ∧
      (n.n = a.n → n.n ≤ n.waits.length → exec e s =
        .next { s1 with nets := s.nets.set i { n with late := n.late ++ [(a.wid, a.warp, a.id, a.parity, a.core)] } }) ∧
      (n.n = a.n → n.waits.length + 1 < n.n ∨ (n.waits.length + 1 = n.n ∧ a.ch = 16) → exec e s = .next one) ∧
      (n.n = a.n → n.waits.length + 1 = n.n → a.ch ≠ 16 → exec e s = .next (one.netComplete i))) ∧
    (s.nets.findIdx? (fun n => n.named a) = none →
      (full → exec e s = .next s) ∧
      (¬full → a.n = 1 → a.ch ≠ 16 → exec e s = .next (made.netComplete s.nets.length)) ∧
      (¬full → a.n ≠ 1 ∨ a.ch = 16 → exec e s = .next made))) ∧
  (∀ (s : State) (k : Nat) (n : Net), s.nets[k]? = some n →
    (∃ ns : List Net, s.netComplete k = n.waits.foldl (fun s e => s.netRelease e) { s with nets := ns } ∧
      (n.late = [] → ns = s.nets.eraseIdx k) ∧
      (n.late ≠ [] → ∃ p : Bool, ns = s.nets.set k { n with
        parity := p, waits := n.late.map fun e => (e.1, e.2.1, e.2.2.1), cores := n.late.map fun e => e.2.2.2.2, late := [], sums := none })) ∧
    let r := s.sweep n.scope n.inst n.parity
    let ready := n.ch = 16 ∧ n.n ≤ n.waits.length
    (¬ready → exec (.balanceSweep k) s = .next s) ∧
    (ready → n.sums = some r → r.1 = r.2 → exec (.balanceSweep k) s = .next (s.netComplete k)) ∧
    (ready → ¬(n.sums = some r ∧ r.1 = r.2) → exec (.balanceSweep k) s =
      .next { s with nets := s.nets.set k { n with sums := some r } })) ∧
  (∀ (s : State) (scope inst : Nat) (odd : Bool),
    let total (f : Counts → Nat) : Nat :=
      ((s.cores.filter fun c => scopeInst scope c.1 == inst).map fun c => f c.2.cnt).sum +
        if scope < 4 then 0 else ((s.spires.filter fun p => scopeInst scope (192 * (p.1 / 2)) == inst).map fun p => f p.2.cnt).sum
    s.sweep scope inst odd = (total fun c => if odd then c.sent1.toNat else c.sent0.toNat,
      total fun c => if odd then c.appl1.toNat else c.appl0.toNat)) ∧
  (∀ (s : State) (wid warp : Nat) (g : Wg) (w : Warp) (b : Blocked) (n : NetWait), look s.wgs wid = some g →
    look g.warps warp = some w → w.blocked = [b] → b.why = .net n → n.ans = none →
    let u := s.netRelease (wid, warp, n.id)
    (g.st ≠ .saved → w.hmode = false → ∃ v, u.warp? wid warp = some v ∧ v.blocked = [] ∧ v.standAt b.mask b.prio (b.pc + 12) ∧
      (∀ m, v.sget m = if m = n.d then BitVec.ofNat 32 (n.k + 1) else w.sget m) ∧
      (n.phase = true → v.ph = w.ph + 1 ∧ v.hcnt = w.hcnt) ∧
      (n.phase = false → v.ph = w.ph ∧ ∀ c, lookD v.hcnt c 0 = if c = n.ch then BitVec.ofNat 32 (n.k + 1) else lookD w.hcnt c 0) ∧
      (3 ≤ n.scope → (u.core g.core).l1 = [])) ∧
    (g.st = .saved ∨ w.hmode = true → ∃ v, u.warp? wid warp = some v ∧ v.front = w.front ∧
      v.blocked = [{ b with why := .net { n with ans := some true } }])) ∧
  (∀ (h : Hd) (n : BitVec 8) (sel : BitVec 4), Gives (.phqry h (.s n) sel) (.s n) false fun x _ =>
    let c := (x.s.core x.g.core).cnt
    if sel = 0 then x.w.ph.toNat % 2 ^ 32
    else if sel = 1 then x.w.ph.toNat % 2 * 8 + x.kr.rc.sscope
    else if sel = 2 then c.sent0.toNat % 2 ^ 32
    else if sel = 3 then c.sent1.toNat % 2 ^ 32
    else if sel = 4 then c.appl0.toNat % 2 ^ 32
    else if sel = 5 then c.appl1.toNat % 2 ^ 32
    else 0)

/-- O: 17 R420-R428, R431, R433, 12 R301: ordered acts and the order log. `OAPP` and `ODECL` bind a free channel of their die
and wait, or trap OAPP_ORDER; a grant, when every act before it in grant order is made, returns the total before and adds the
count. A logged event writes its entry and the index after it; a full share stalls it, at 10 ms with LOG_FULL; a replay gives
the turn to the event that the log names, goes past the entries of warps that are over, and marks a divergence and its end;
the keyed unit, while the head of its queue waits for a later turn, takes up the instruction that the replayed log names.
`DMQRY` reads the determinism status. An entry that the unit cannot find ends a replay (log 36). Points that the spec leaves
open here are the model's own choices: log entries 13, 35, 36 and 37. -/
def Obligations.OrderedActsAndLog : Prop :=
  (∀ (h : Hd) (n : BitVec 8) (a : Opnd) (ch : BitVec 3) (s : State) (x : Ix),
    let app : Instr := .oapp h (.s n) a ch
    let dcl : Instr := .odecl h ch
    let die := dieOf x.g.core
    let c := (x.s.die die).chan ch.toNat
    let closed := x.kr.rc.det = 0 ∨ ∃ j, c.bound = some j ∧ j ≠ x.g.inst
    let u := s.modDie die fun d => { d with chans := ins d.chans ch.toNat { c with bound := some x.g.inst } }
    let granted (add : Nat) : State := (x.s.modDie die fun d => { d with chans := ins d.chans ch.toNat { c with
      total := c.total + BitVec.ofNat 64 add, rounds := ins c.rounds (32 * x.g.g + x.c.warp) (c.made x.g.g x.c.warp + 1) } }).modCore
        x.g.core fun k => { k with l1 := [] }
    (issuing s app = some x → (closed → Meets app x 0x62 x.c.bundle none) ∧ (¬closed → Waits app x u (.act ch.toNat))) ∧
    (x.on = 0 → issuing s dcl = some x → Leaves dcl x x.w) ∧
    (x.on ≠ 0 → issuing s dcl = some x → (closed → Meets dcl x 0x62 x.c.bundle none) ∧ (¬closed → Waits dcl x u (.act ch.toNat))) ∧
    (∀ hold, s.held x.c.wid x.c.warp = some (hold, x) → hold.wait = .act ch.toNat →
      s.mayAct die ch.toNat (x.c.wid / 2 ^ 48) (x.c.wid % 2 ^ 48) x.c.warp = true →
      (∀ p ∈ s.actWaiters die ch.toNat, p ≠ (x.c.wid, x.c.warp) →
        s.mayAct die ch.toNat (p.1 / 2 ^ 48) (p.1 % 2 ^ 48) p.2 = false) →
      (x.on ≠ 0 → hold.instr = app → ResumesGives (.actGrant die ch.toNat) s x (granted (x.u32 a)) (.s n) true fun _ => c.total.toNat) ∧
      (x.on = 0 ∧ hold.instr = app ∨ hold.instr = dcl → Resumes (.actGrant die ch.toNat) s x (granted 0)))) ∧
  (∀ (s : State) (die ch inst g i : Nat), s.mayAct die ch inst g i = true ↔
    ∃ k, look s.kernels inst = some k ∧ ∀ q j, q < k.rc.total → j < k.rc.warps → dieOf (k.logical q) = die → (q, j) ≠ (g, i) →
      s.warpOver k inst q j = false →
      ((s.die die).chan ch).made g i + (if q < g ∨ (q = g ∧ j < i) then 1 else 0) ≤ ((s.die die).chan ch).made q j) ∧
  (∀ (h : Hd) (n : BitVec 8), Gives (.dmqry h (.s n)) (.s n) true fun x _ =>
    let die := dieOf x.g.core
    let l := (x.s.die die).log
    let mine : Bool := x.kr.rc.det == 2 && l.bound == some x.g.inst
    (if mine then (match x.s.logIndex die with | some pa => memNat x.s.mem pa 4 | none => 0) else 0) * 2 ^ 32 +
      (if mine && l.div then 128 else 0) + (if mine && l.rend then 64 else 0) + (if mine && l.stall then 32 else 0) +
      (if mine && l.rpl then 16 else 0) + x.kr.rc.det * 4) ∧
  (∀ (s : State) (hold : Hold) (x : Ix) (full : Option Nat), s.held x.c.wid x.c.warp = some (hold, x) → hold.wait = .logged full →
    let wid := x.c.wid
    let warp := x.c.warp
    let e : Instr := .loggedEvent wid warp
    let die := dieOf x.g.core
    let log := (s.die die).log
    let traps (e : Instr) (c : BitVec 7) : Prop :=
      (x.storing = false → exec e s = .next ((x.s.modCore x.g.core fun k => { k with keyq := k.keyq.filter fun j =>
        !(j.wid == wid && j.warp == warp && j.prm.isEmpty) }).takeTrap x.c ⟨c, x.c.bundle, none, none, none⟩)) ∧
      (x.storing = true → exec e s = .next { x.s with cur := none })
    (∀ t, full = some t →
      (log.stall = true ∧ t + 10000000 ≤ s.time → traps (.logFull wid warp) 0x63) ∧
      (¬(log.stall = true ∧ t + 10000000 ≤ s.time) → exec (.logFull wid warp) s = .next s)) ∧
    (∀ u cap kind v gl pa, x.loggedEffect = (.mach u cap x.c.advance, [(kind, v)]) → x.w.keyMade = 0 →
      s.logShareOf die x.g.inst = some gl → log.bound = some x.g.inst →
      let n := memNat s.mem gl.idx 4
      s.logPa die gl.ctx (gl.base + 16 * n) = some pa →
      let word := memNat s.mem pa 8
      let g := word % 2 ^ 32
      let i := word / 2 ^ 55 % 32
      let named := g = x.g.g % 2 ^ 32 ∧ i = x.c.warp ∧ word / 2 ^ 32 % 2 ^ 23 = x.w.logSeq
      let gone := x.kr.rc.warps ≤ i ∨ ∀ q, q < x.kr.rc.total → q % 2 ^ 32 = g → x.s.warpOver x.kr x.g.inst q i = true
      let ended := gl.share ≤ n ∨ word / 2 ^ 60 = 15
      let done := u.modWarp x.c.wid x.c.warp fun w => { w with logSeq := (w.logSeq + 1) % 2 ^ 23 }
      let entry := bytesOfNat 8 (x.g.g % 2 ^ 32 + x.w.logSeq % 2 ^ 23 * 2 ^ 32 + x.c.warp * 2 ^ 55 + kind * 2 ^ 60) ++ bytesOfNat 8 v
      let next (s : State) : State := s.gwrite none false gl.idx (bytesOfNat 4 (n + 1))
      let marked (s : State) (f : OrderLog → OrderLog) : State := s.modDie die fun d => { d with log := f d.log }
      let stalled (s : State) : State := marked (s.note (pkgOfDie die) 1) fun l => { l with stall := true }
      (log.rend = false → log.rpl = false → log.stall = false → n < gl.share → done.logPa die gl.ctx (gl.base + 16 * n) = some pa →
        let t := next (done.gwrite none false pa entry)
        (t.die die).log.stall = false → Resumes e s x (if gl.share ≤ n + 1 then stalled t else t)) ∧
      (log.rend = false → log.rpl = false → log.stall = true ∨ gl.share ≤ n →
        ∃ t, exec e s = .next t ∧ t.mem = s.mem ∧ (t.die die).log = { log with stall := true } ∧
          t.warp? wid warp = some { x.w with hold := some { hold with wait := .logged (some (full.getD s.time)) } }) ∧
      (log.rend = false → log.rpl = true →
        (ended → ∃ t, exec e s = .next t ∧ t.mem = s.mem ∧ (t.die die).log = { log with rend := true } ∧
          t.warp? wid warp = some { x.w with hold := some { hold with wait := .logged none } }) ∧
        (¬ended → ¬gone → named → x.w.logSeq < 2 ^ 23 → x.c.warp < 32 → Resumes e s x
          ((next (if memNat s.mem (pa + 8) 8 = v then done else marked done fun l => { l with div := true })).logSettle die)) ∧
        (¬ended → gone → s.memWf = true → ∃ t, exec e s = .next t ∧ (t.die die).log.div = true ∧
          (∀ q, q < gl.idx ∨ gl.idx + 4 ≤ q → memGet t.mem q = memGet s.mem q) ∧ t.wgs.map (·.1) = s.wgs.map (·.1)) ∧
        (¬ended → ¬gone → ¬named → exec e s = .next s)) ∧
      (log.rend = true → (∀ h mm op nr ty d a b c, hold.instr = .atl h mm op nr ty d a b c → Resumes e s x u) ∧
        (∀ h mm op nr ty d a b c, hold.instr = .atg h mm op nr ty d a b c → x.kr.rc.det ≠ 0 →
          (x.s.chanTaken die 7 x.g.inst = true → traps e 0x62) ∧
          (x.s.chanTaken die 7 x.g.inst = false → exec e s = .next { (x.s.bindChan die 7 x.g.inst).modWarp wid warp fun w =>
            { w with hold := some { hold with wait := .act 7 } } with cur := none }))))) ∧
  (∀ (s : State) (wid warp : Nat) (g : Wg), s.held wid warp = none → look s.wgs wid = some g →
    exec (.loggedEvent wid warp) s = .next (s.logSettle (dieOf g.core))) ∧
  (∀ (s : State) (core : Nat) (j : KeyJob) (rest : List KeyJob) (hold : Hold) (x : Ix) (f : Option Nat) (gl : LogShare),
    (s.core core).keyq = j :: rest → (∀ h z d a b, j.instr ≠ .kdrn h z d a b) → s.held j.wid j.warp = some (hold, x) →
    hold.wait = .logged f → s.logShareOf (dieOf core) x.g.inst = some gl →
    let log := (s.die (dieOf core)).log
    let word := (s.logAt (dieOf core) gl (memNat s.mem gl.idx 4)).1
    let found := rest.find? fun q => q.warp == word / 2 ^ 55 % 32 && q.wid / 2 ^ 48 == x.g.inst && q.wid % 2 ^ 32 == word % 2 ^ 32
    (log.rpl = false ∨ log.rend = true ∨ x.w.keyMade ≠ 0 ∨ found = none → exec (.keyedApply core) s = .next s) ∧
    (log.rpl = true → log.rend = false → x.w.keyMade = 0 → ∀ o turn y h d a b cl, found = some o → o.prm = [] →
      s.held o.wid o.warp = some (turn, y) → turn.wait = .keyed → turn.instr = .kprb h d a b → y.g.claim = some cl → cl.ov = none →
      y.logs = true → y.w.logSeq % 2 ^ 23 = word / 2 ^ 32 % 2 ^ 23 →
      exec (.keyedApply core) s = .next { y.s.modWarp y.c.wid y.c.warp fun w => { w with hold := some { turn with wait := .logged none } }
        with cur := none })) ∧
  (∀ (s : State) (die inst : Nat) (gl : LogShare), (s.die die).log.bound = some inst → (s.die die).log.rpl = true →
    (s.die die).log.rend = false → s.logShareOf die inst = some gl →
    let n := memNat s.mem gl.idx 4
    (s.logEnds die gl n = true → s.logSettle die = s.modDie die fun d => { d with log := { d.log with rend := true } }) ∧
    (s.logEnds die gl n = false → s.logDead die inst gl n = false → s.logSettle die = s))

/-! ### The SYS group (18 R451-R457) and page walks -/

/-- O: 18 R454-R457, 15 R358, R359: `TRDC` in handler mode reads the number of deferred causes and of those lost, and `.clr`
empties them; `PPT` sets and ends a hold against pre-emption, which also runs out; `TLBINV` drops its context's translations
from every buffer of its scope and keeps walks in flight from installing; `DBG` breaks, sets single step, or the watch. A
walk that ends gives its answer to the instructions that wait and, with a page, to the buffers, which stay within their
sizes. Points that the spec leaves open here are the model's own choices: log entries 5, 25 and 58. -/
def Obligations.SystemInstructions : Prop :=
  (∀ (h : Hd) (clr all : Bool) (n : BitVec 8) (cnt : BitVec 24) (code : BitVec 16) (scope : BitVec 3) (a b : Opnd) (s : State) (x : Ix),
    x.on ≠ 0 →
    let clocks := (s.die (dieOf x.g.core)).clocks
    let odd := cnt = 0 ∨ 65536 < cnt.toNat
    let die := dieOf x.g.core
    let inScope (d : Nat) : Bool := if scope = 4 then d == die else d / 4 == die / 4
    let kept (t : List TlbEntry) : List TlbEntry := t.filter fun e => !(e.ctx == x.kr.ctx &&
      (all || (decide (e.va ≤ x.u64 a) && decide (x.u64 a < e.va + e.page.size))))
    (h.cap = false → issuing s (.trdc h clr (.s n)) = some x →
      Writes (.trdc h clr (.s n)) x (if clr then { x.w with dfr := [], lost := 0 } else x.w) (.s n) false
        fun _ => x.w.dfr.length + min x.w.lost 255 * 256) ∧
    (issuing s (.ppt h .pt cnt) = some x → Leaves (.ppt h .pt cnt) x { x.w with ppt := none, yielded := x.g.stopAt.isSome }) ∧
    (issuing s (.ppt h .rel cnt) = some x → Leaves (.ppt h .rel cnt) x { x.w with ppt := none }) ∧
    (issuing s (.ppt h .hold cnt) = some x → (odd → Meets (.ppt h .hold cnt) x 0x15 x.on none) ∧
      (¬odd → Leaves (.ppt h .hold cnt) x { x.w with ppt := some (clocks + cnt.toNat) })) ∧
    (issuing s (.tlbinv h scope all a) = some x → ∃ u : State, Makes (.tlbinv h scope all a) x u ∧
      { u with cores := s.cores, dies := s.dies } = s ∧
      (∀ c, u.core c = if inScope (dieOf c) then { s.core c with tlb := kept (s.core c).tlb } else s.core c) ∧
      (∀ d, u.die d = if inScope d then { s.die d with
        tlb := kept (s.die d).tlb, walks := (s.die d).walks.map fun w => { w with install := false } } else s.die d)) ∧
    (issuing s (.dbg h .brk a b code) = some x →
      Traps (.dbg h .brk a b code) x ⟨0x0A, x.on, none, some (code.setWidth 32), none⟩) ∧
    (issuing s (.dbg h .step a b code) = some x → Leaves (.dbg h .step a b code) x { x.w with step := true }) ∧
    (issuing s (.dbg h .nostep a b code) = some x → Leaves (.dbg h .nostep a b code) x { x.w with step := false }) ∧
    (issuing s (.dbg h .watch a b code) = some x → Leaves (.dbg h .watch a b code) x { x.w with
      watchBase := BitVec.ofNat 64 (x.u64 a), watchLen := BitVec.ofNat 32 (x.u32 b) })) ∧
  (∀ (s : State) (wid warp : Nat) (g : Wg) (w : Warp), look s.wgs wid = some g → look g.warps warp = some w →
    let now := (s.die (dieOf g.core)).clocks
    let past := ∃ t, w.ppt = some t ∧ (t ≤ now ∨ ∃ r, g.stopAt = some r ∧ r + 65536 ≤ now)
    (past → exec (.pptHoldExpiry wid warp) s = .next (s.modWarp wid warp fun w => { w with ppt := none })) ∧
    (¬past → exec (.pptHoldExpiry wid warp) s = .next s)) ∧
  (∀ (s : State) (die k : Nat), (s.die die).walks[k % 256]? = none → exec (.walkComplete die k) s = .next s) ∧
  (∀ (s : State) (die k : Nat) (q : Walk), (s.die die).walks[k % 256]? = some q →
    let r := s.walk die q.ctx q.va
    let rest := (s.die die).walks.eraseIdx (k % 256)
    ∃ u, exec (.walkComplete die k) s = .next u ∧ (u.die die).walks = rest ∧ u.mem = s.mem ∧ u.hostMem = s.hostMem ∧
      ((∀ p, r ≠ .page p) ∨ q.install = false → (u.die die).tlb = (s.die die).tlb ∧ u.cores = s.cores) ∧
      (∀ p, r = .page p → q.install = true → (s.die die).tlb.length ≤ 8192 →
        let e : TlbEntry := ⟨q.ctx, q.va / p.size * p.size, p⟩
        e ∈ (u.die die).tlb ∧ (u.die die).tlb.length ≤ 8192 ∧ (∀ f ∈ (u.die die).tlb, f ≠ e → f ∈ (s.die die).tlb) ∧
        ∀ wid warp g, q.waiters = [(wid, warp)] → look s.wgs wid = some g → (s.core g.core).tlb.length ≤ 256 →
          e ∈ (u.core g.core).tlb ∧ (u.core g.core).tlb.length ≤ 256) ∧
      ∀ wid warp w hold, q.waiters = [(wid, warp)] → s.warp? wid warp = some w → w.hold = some hold → hold.wait = .walk →
        ∃ v, u.warp? wid warp = some v ∧ { v with walked := w.walked, hold := w.hold, readySince := w.readySince } = w ∧
          look v.walked (q.va / 65536) = some r ∧
          (v.hold = if ∃ o ∈ rest, (wid, warp) ∈ o.waiters then some hold else none))

/-! ### The launch unit (04 R92-R100, 07 R182-R185, 19 R461) -/

/-- O: 04 R92, R93, R95-R98, R100, R101, 07 R182, R183, 15 R370, 19 R461: the launch port handles a good record, refuses a
bad one, counts any other write, and keeps what must wait with all that comes after it. A turn places a workgroup of the
highest level that can place one, on a core that has all that it needs, its warps as R79 starts them, reading nothing older
than its launch. A draining core that is quiescent changes its carve. A workgroup whose threads have exited and whose work is
over writes back what its stash windows hold dirty, and once that is acknowledged retires; one that was ended, or has
deferred causes pending then (log entry 55: the model's choice), faults its kernel; with the last, its kernel completes and
makes its completion arrival. Points that the spec leaves open here are the model's own choices: log entries 13, 27, 28, 36,
38, 39, 55 and 69. -/
def Obligations.LaunchAndPlacement : Prop :=
  (∀ (s : State) (pkg ctx off : Nat) (bytes : List Byte),
    let e : Instr := .launchPortWrite pkg ctx off bytes
    let p := s.pkg pkg
    let rc := launchOf bytes
    let dies := if rc.dies = 0 then (List.range 4).map fun d => 4 * pkg + d
      else ((List.range 4).filter fun d => rc.dies.getLsbD d).map fun d => 4 * pkg + d
    let good := bytes.length = 64 ∧ off % 64 = 0 ∧ off < 4096
    let fits := ∀ d ∈ dies, (s.die d).pend.length < 256
    (¬good → p.lpq = [] → ∃ t, exec e s = .next t ∧ { t with pkgs := s.pkgs } = s ∧
      t.pkg pkg = { p with bad := min (p.bad + 1) 65535, lpq := [], holdc := false }) ∧
    (∀ c bs q, p.lpq = (c, bs) :: q → bs.length = 64 → s.recBad ((portDies pkg (launchOf bs)).headD (4 * pkg)) c 4 bs = none →
      (∃ d ∈ portDies pkg (launchOf bs), 256 ≤ (s.die d).pend.length) →
      ∃ t, exec e s = .next t ∧ { t with pkgs := s.pkgs } = s ∧
        ((good → t.pkg pkg = { p with lpq := p.lpq ++ [(ctx, bytes)], holdc := true }) ∧
          (¬good → t.pkg pkg = { p with lpq := p.lpq ++ [(ctx, [])], holdc := true }))) ∧
    (good → p.lpq = [] → s.recBad (dies.headD (4 * pkg)) ctx 4 bytes = none →
      (fits → ∃ t, exec e s = .next t ∧ t.pkg pkg = { p with lpq := [], holdc := false } ∧ t.nextInst = s.nextInst + 1 ∧
        (∃ q, look t.kernels s.nextInst = some q ∧ q.rc = rc ∧ q.ctx = ctx ∧ q.dies = dies ∧ q.started = [] ∧ q.gone = []) ∧
        (∀ j, j ≠ s.nextInst → look t.kernels j = look s.kernels j) ∧
        (∀ d, (t.die d).pend = if d ∈ dies then (s.die d).pend ++ [s.nextInst] else (s.die d).pend) ∧
        t.wgs = s.wgs ∧ t.mem = s.mem ∧ t.hostMem = s.hostMem) ∧
      (¬fits → ∃ t, exec e s = .next t ∧ t.pkg pkg = { p with lpq := [(ctx, bytes)], holdc := true } ∧ { t with pkgs := s.pkgs } = s)) ∧
    (∀ c o, good → p.lpq = [] → s.recBad (dies.headD (4 * pkg)) ctx 4 bytes = some (c, o) → rc.compl = 0 →
      ∃ t, exec e s = .next t ∧ { t with pkgs := s.pkgs } = s ∧ t.pkg pkg = { p with
        lpq := [], holdc := false, ref := min (p.ref + 1) 65535, lcode := c.setWidth 8, loff := BitVec.ofNat 8 o })) ∧
  (∀ (s : State) (die : Nat), (s.die die).up = false ∨ (s.die die).clocks < (s.die die).turnAt →
    exec (.placeWorkgroup die) s = .next s) ∧
  (∀ (s : State) (die inst g c : Nat) (k : Kernel) (sl : List Nat), (s.die die).up = true →
    (s.die die).turnAt ≤ (s.die die).clocks → s.turnPick die = some (.place inst k g c sl) →
    let fresh (w : Warp) (i : Nat) : Prop := w.width = k.rc.width ∧ w.ctx0 = 32 * sl.getD i 0 ∧ w.live = lowLanes k.rc.width ∧
      w.front = [⟨0, k.rc.entry, lowLanes k.rc.width, 0, 0⟩] ∧ w.parked = [] ∧ w.blocked = [] ∧ w.hmode = false ∧ w.x = 0 ∧
      w.floor = s.past.length ∧ w.frm = 0 ∧ w.flg = 0 ∧ w.fte = 0 ∧ w.ph = 0 ∧ ∀ m l, w.vget m l = 0 ∧ w.sget m = 0 ∧ (m ≠ 7 → w.pget m = 0) ∧ w.kget m = 0
    dieOf c = die ∧ s.holds c k.rc.need = some sl ∧ inst ∈ (s.die die).pend ∧ (inst, k) ∈ s.kernels ∧
    (∀ l q, k.rc.prio < l → l < 16 → q ∈ s.levelKernels die l → s.kernelPick die q.1 q.2 = none) ∧
    (look s.kernels inst = some k → (s.pkg (pkgOfDie die)).lpq = [] →
      ∃ t h, exec (.placeWorkgroup die) s = .next t ∧ look t.wgs (inst * 2 ^ 48 + g) = some h ∧ h.inst = inst ∧ h.g = g ∧ h.core = c ∧
        h.st = .running ∧ h.mem = [] ∧ h.tiles = [] ∧ h.accs = [] ∧ h.bars = [] ∧ h.claim = none ∧
        h.warps.map (·.1) = List.range sl.length ∧ (∀ q ∈ h.warps, fresh q.2 q.1) ∧
        look t.kernels inst = some { k with started := k.started ++ [g] } ∧ (t.die die).turnAt = (s.die die).clocks + 8 ∧
        t.hostMem = s.hostMem ∧ (k.rc.det ≠ 2 → t.mem = s.mem ∧
        ∀ n o, n ≠ inst * 2 ^ 48 + g → look s.wgs n = some o → ∃ q, look t.wgs n = some q ∧ { q with stopAt := o.stopAt } = o))) ∧
  (∀ (s : State) (c : Nat) (r : LaunchRec) (sl : List Nat), s.holds c r.need = some sl →
    let ws := s.onCore c
    let v := (s.core c).carve
    v = r.carve ∧ (s.core c).drain = none ∧ (s.core c).change = none ∧
    regUnits ws + r.warps * (r.regs / 8 * 2 ^ r.wcode) ≤ 64 * v.reg ∧ total ws (·.locUnits) + r.locUnits ≤ 64 * v.loc ∧
    total ws (·.tiles) + r.tiles ≤ 16 ∧ total ws (·.accs) + r.accs ≤ 16 ∧ total ws (·.bars) + r.bars ≤ 256 ∧
    total ws (·.copies) + r.copies ≤ 128 ∧ sl.length = r.warps ∧
    (∀ i ∈ sl, i % 2 ^ r.wcode = 0 ∧ ∀ j, j < 2 ^ r.wcode → i + j ∉ usedSlots ws) ∧ sl.Nodup) ∧
  (∀ (s : State) (core : Nat), let c := s.core core
    (c.drain = none ∨ s.onCore core ≠ [] → exec (.carveChange core) s = .next s) ∧
    (∀ v, c.drain = some v → s.onCore core = [] → exec (.carveChange core) s =
      .next (s.modCore core fun c => { c with drain := none, change := some (v, s.clocksAt core + 512) })) ∧
    (c.change = none → exec (.carveChangeDone core) s = .next s) ∧
    (∀ v t, c.change = some (v, t) →
      (s.clocksAt core < t → exec (.carveChangeDone core) s = .next s) ∧
      (t ≤ s.clocksAt core → exec (.carveChangeDone core) s =
        .next (s.modCore core fun c => { c with carve := v, l1 := [], change := none })))) ∧
  (∀ (s : State) (wid : Nat) (g : Wg) (k : Kernel), look s.wgs wid = some g → look s.kernels g.inst = some k →
    let e : Instr := .workgroupRetire wid
    let gone : Kernel := { k with gone := k.gone ++ [g.g], faulted := k.faulted || (g.faulted || g.st == .ending ||
      g.warps.any fun p => !p.2.dfr.isEmpty) }
    (g.st = .saved ∨ (g.st = .running ∧ ∃ p ∈ g.warps, p.2.live ≠ 0) → exec e s = .next s) ∧
    (s.owes (dieOf g.core) wid = true ∨ s.working wid g k.ctx = true → exec e s = .next s) ∧
    let ended := (g.st = .ending ∨ (g.st = .running ∧ ∀ p ∈ g.warps, p.2.live = 0)) ∧ s.owes (dieOf g.core) wid = false ∧
      s.working wid g k.ctx = false
    let dirty := ∃ p ∈ g.stash, ∃ l ∈ p.2.lines, l.2.dirty = true
    let busy := ∃ p ∈ g.stash, ∃ l ∈ p.2.lines, l.2.wb = true
    (ended → dirty → exec e s = .next (s.modWg wid fun g => { g with stash := g.stash.map fun p => (p.1, p.2.flush false) })) ∧
    (ended → ¬dirty → busy → exec e s = .next s) ∧
    (ended → ¬dirty → ¬busy → k.rc.det ≠ 2 → (s.die (dieOf g.core)).log.rpl = false → k.complete = false → k.lost = false →
      gone.gone.length < k.rc.total ∨ k.rc.compl = 0 →
      ∃ t, exec e s = .next t ∧ t.wgs.length + 1 = s.wgs.length ∧
        ((s.wgs.map (·.1)).Pairwise (· < ·) → look t.wgs wid = none) ∧
        (∀ n o, n ≠ wid → look s.wgs n = some o → ∃ q, look t.wgs n = some q ∧ { q with unfit := o.unfit } = o) ∧ t.mem = s.mem ∧ t.hostMem = s.hostMem ∧
        look t.kernels g.inst = some { gone with complete := decide (k.rc.total ≤ gone.gone.length) })) ∧
  (∀ (s : State) (inst : Nat) (k : Kernel), k.rc.total ≤ k.gone.length → k.complete = false → k.lost = false → k.rc.det ≠ 2 →
    let u : State := { s with kernels := upd s.kernels inst fun k => { k with complete := true } }
    let agent := coresAgent k.home
    (k.rc.compl = 0 → s.completed inst k = some u) ∧
    (∀ pa, k.rc.compl ≠ 0 → u.completionPa k.home k.ctx k.rc.compl = .ok pa →
      let m : Send := ⟨pa, 6, 3, 0, false, false, none, bytesOfNat 8 (if k.faulted then 2 ^ 32 + 1 else 1), none⟩
      (u.roomFor agent true [m] = true →
        s.completed inst k = some (u.enter agent (.engine (inst * 2 ^ 48) (192 * k.home)) false none m).2) ∧
      (u.roomFor agent true [m] = false → s.completed inst k = none)) ∧
    (∀ c, k.rc.compl ≠ 0 → u.completionPa k.home k.ctx k.rc.compl = .error c → ∃ v, s.completed inst k = some v ∧
      (v.die k.home).termIdx = (s.die k.home).termIdx + 1 ∧
      look (v.die k.home).term ((s.die k.home).termIdx % 16) = some (termRecord inst 0 0 0x19
        (some ⟨c, 0, some (BitVec.ofNat 64 k.rc.compl), none, none⟩) 0 (BitVec.ofNat 64 k.rc.compl))))

/-! ### Pre-emption (18 R443-R450, 19 R463) -/

/-- O: 18 R444-R448, 19 R463, 04 R112: a stopped and drained workgroup cleans its stash windows, then its image, with header,
registers and local area where R447 puts them, is written at the first free place of the pool and its core has nothing of it;
with no place it goes on. Resumed, it runs on a core again with its registers, its area, tiles, accumulators, barriers and
threads as its image in memory holds them; the records of what was redirected to it are then zero. The host's requests stop
or end the workgroup that they name and report a status; a sleep ends at its clock. Points that the spec leaves open here are
the model's own choices: log entries 22, 29, 30, 32, 33, 76, 79 and 87. -/
def Obligations.PreemptionSavesAndResumes : Prop :=
  (∀ (s : State) (wid : Nat) (g : Wg) (k : Kernel), look s.wgs wid = some g → look s.kernels g.inst = some k →
    let e : Instr := .preemptSave wid
    let still := g.stopped (s.clocksAt g.core) = true ∧ s.drained wid g k.ctx = true
    let dirty := ∃ p ∈ g.stash, ∃ l ∈ p.2.lines, l.2.dirty = true
    let busy := ∃ p ∈ g.stash, ∃ l ∈ p.2.lines, l.2.wb = true
    let img := s.imageOf wid g k.rc
    let die := s.die (dieOf g.core)
    (g.stopAt = none ∨ (∃ p ∈ g.warps, ∃ h, p.2.hold = some h ∧ (h.wait = .flip ∨ h.wait = .wb)) ∨ (∃ j ∈ (s.core g.core).engq, j.wid = wid) ∨
      ((∃ j ∈ (s.core g.core).keyq, j.wid = wid) ∧ s.keyStuck g.core wid = false) → exec e s = .next s) ∧
    (still → dirty → exec e s = .next (s.modWg wid fun g => { g with stash := g.stash.map fun p => (p.1, p.2.flush false) })) ∧
    (still → ¬dirty → busy → exec e s = .next s) ∧
    (still → ¬dirty → ¬busy → g.killed = false →
      (∀ o, die.firstFit img.length = some o → ∃ t h, exec e s = .next t ∧ look t.wgs wid = some h ∧ h.st = .saved ∧ h.off = true ∧
        h.image = some ⟨dieOf g.core, o, img.length, s.replyLines wid⟩ ∧ h.mem = g.mem ∧ h.tiles = g.tiles ∧ h.accs = g.accs ∧ h.bars = g.bars ∧
        h.claim = g.claim ∧ t.mem = memWrite s.mem o img ∧ t.hostMem = s.hostMem ∧
        (∀ i w, look g.warps i = some w → ∃ v, look h.warps i = some v ∧ v.hold = none ∧ v.sleepUntil = 0 ∧ { v with
          hold := w.hold, due := w.due, walked := w.walked, latched := w.latched, sleepUntil := w.sleepUntil, yielded := w.yielded,
          keyMade := w.keyMade, keyKept := w.keyKept } = w) ∧
        (o, img.length, wid) ∈ (t.die (dieOf g.core)).images ∧
        (∀ j ∈ (t.core g.core).seqq, j.wid ≠ wid) ∧ (∀ j ∈ (t.core g.core).gridq, j.wid ≠ wid) ∧
        (∀ j ∈ (t.core g.core).keyq, j.wid ≠ wid) ∧ (t.core g.core).mx.holder ≠ some wid) ∧
      (die.firstFit img.length = none → ∃ t h, exec e s = .next t ∧ look t.wgs wid = some h ∧ h.st = .running ∧ h.stopAt = none ∧
        h.unfit = true ∧ h.mem = g.mem ∧ t.mem = s.mem ∧ t.hostMem = s.hostMem ∧ t.cores = s.cores)) ∧
    natOfBytes (img.take 4) = img.length % 2 ^ 32 ∧ natOfBytes ((img.drop 8).take 4) = g.g % 2 ^ 32 ∧
    natOfBytes ((img.drop 12).take 4) = g.inst % 2 ^ 32 ∧
    (∀ i w n, g.warps[i]? = some w → n < 64 →
      natOfBytes ((img.drop (256 + 4096 * i + 2048 + 4 * n)).take 4) = (w.2.sget n).toNat) ∧
    (let at_ := natOfBytes ((img.drop 0x28).take 8)
     img.length < 2 ^ 64 → (img.drop at_).take (1024 * g.locUnits) = memRead g.mem 0 (1024 * g.locUnits))) ∧
  (∀ (d : Die) (size o : Nat), d.firstFit size = some o → d.poolBase.toNat ≤ o ∧ o + size ≤ d.poolBase.toNat + d.poolLen.toNat ∧
    ∀ m ∈ d.images, o + size ≤ m.1 ∨ m.1 + m.2.1 ≤ o) ∧
  (∀ (s : State) (die : Nat), (s.die die).up = false ∨ (s.die die).clocks < (s.die die).turnAt →
    exec (.resumeWorkgroup die) s = .next s) ∧
  (∀ (s : State) (die inst wid core : Nat) (k : Kernel) (slots : List Nat) (g : Wg) (m : Image), (s.die die).up = true →
    (s.die die).turnAt ≤ (s.die die).clocks → s.turnPick die = some (.resume inst k wid core slots) →
    look s.wgs wid = some g → g.st = .saved → g.image = some m →
    let at_ (j : Nat) : Nat := m.off + memNat s.mem (m.off + 0x10 + 8 * j) 8
    let records := at_ 6 + (16 * k.rc.bars + 127) / 128 * 128
    let vec (p : Nat × Warp) : Nat := 4 * p.2.width * (k.rc.regs + p.2.x)
    (s.poisoned m.off m.size = false → Memory.wf s.mem = true → records + 16 * k.rc.bars ≤ at_ 7 →
      ∃ t h, exec (.resumeWorkgroup die) s = .next t ∧ look t.wgs wid = some h ∧ h.st = .running ∧ h.core = core ∧
        (∀ i, i < 16 * k.rc.bars → memGet t.mem (records + i) = 0) ∧
        (∀ a, (a < records ∨ records + 16 * k.rc.bars ≤ a) → memGet t.mem a = memGet s.mem a) ∧ t.hostMem = s.hostMem) ∧
    (s.poisoned m.off m.size = false → Memory.wf s.mem = true → g.warps.map (·.1) = List.range slots.length →
      (∀ p ∈ g.warps, p.2.blocked = [] ∧ p.2.width ≤ 128) → (∀ i, i < 16 * k.rc.bars → memGet s.mem (records + i) = 0) →
      at_ 1 + 4096 * slots.length ≤ at_ 2 → at_ 2 + (g.warps.map vec).sum ≤ at_ 3 → at_ 3 + 1024 * g.locUnits ≤ at_ 4 →
      at_ 4 + 8192 * k.rc.tiles + 128 ≤ at_ 5 → at_ 5 + 16384 * k.rc.accs + 128 ≤ at_ 6 → records + 16 * k.rc.bars ≤ at_ 7 →
      ∃ t h, exec (.resumeWorkgroup die) s = .next t ∧ look t.wgs wid = some h ∧ h.st = .running ∧ h.core = core ∧ h.image = none ∧
        t.mem = s.mem ∧ t.hostMem = s.hostMem ∧ (t.die die).turnAt = (s.die die).clocks + 8 ∧ (t.core core).l1 = [] ∧
        (∀ a, a < 1024 * g.locUnits → memGet h.mem a = memGet s.mem (at_ 3 + a)) ∧
        (∀ i a, i < k.rc.tiles → a < 8192 → memGet (h.tile i).bytes a = memGet s.mem (at_ 4 + 8192 * i + a)) ∧
        (∀ i n, i < k.rc.accs → n < 4096 → lookD (h.acc i).els n 0 = BitVec.ofNat 32 (memNat s.mem (at_ 5 + 16384 * i + 4 * n) 4)) ∧
        (∀ i, i < k.rc.bars → (h.bar i).image = memNat s.mem (at_ 6 + 16 * i) 16 % 2 ^ 99) ∧
        ∀ i w, look g.warps i = some w → ∃ v, look h.warps i = some v ∧
          let b := at_ 1 + 4096 * i
          let word (a : Nat) : Nat := memNat s.mem (b + a) 8
          (∀ n, n < 64 → v.sget n = BitVec.ofNat 32 (memNat s.mem (b + 2048 + 4 * n) 4)) ∧
          (∀ n, n < 8 → v.kget n = BitVec.ofNat 128 (memNat s.mem (b + 2304 + 16 * n) 16)) ∧
          (∀ n l, n < 7 → l < 128 → (v.pget n).getLsbD l = (memGet s.mem (b + 2432 + l)).getLsbD n) ∧
          v.frm = BitVec.ofNat 2 (word 2560) ∧ v.flg = BitVec.ofNat 5 (word 2564) ∧ v.fte = BitVec.ofNat 6 (word 2568) ∧
          v.rkey = BitVec.ofNat 64 (word 2576) ∧ v.rctr = BitVec.ofNat 64 (word 2584) ∧ v.ph = BitVec.ofNat 64 (word 2592) ∧
          (∀ n l, n < k.rc.regs + w.x → l < w.width → v.vget n l =
            BitVec.ofNat 32 (memNat s.mem (at_ 2 + ((g.warps.take i).map vec).sum + 4 * (w.width * n + l)) 4)) ∧
          let saved := ∀ l, l < 128 → memNat s.mem (b + 0x80 + 8 * l) 8 = (w.laneRec l).link % 2 ^ 64 ∧
            memNat s.mem (b + 0x480 + 4 * l) 4 = (w.laneRec l).word % 2 ^ 32
          (saved → v.front = w.front ∧ v.parked = w.parked ∧ v.live = w.live) ∧
          (¬saved → ∀ l, l < w.width →
            (v.live.getLsbD l = true ↔ memGet s.mem (b + 0x480 + 4 * l) ≠ 0) ∧
            (memGet s.mem (b + 0x480 + 4 * l) = 1 → ∃ q ∈ v.front, q.mask.getLsbD l = true ∧
              q.pc = BitVec.ofNat 56 (word (0x80 + 8 * l)) ∧ q.prio = BitVec.ofNat 8 (word (0x80 + 8 * l) / 2 ^ 56))) ∧
          v.x = w.x ∧ v.hcnt = w.hcnt ∧ v.hold = w.hold ∧ v.due = w.due ∧ v.width = w.width) ∧
    (s.poisoned m.off m.size = true → ∃ t h, exec (.resumeWorkgroup die) s = .next t ∧ look t.wgs wid = some h ∧ h.st = .ending ∧
      h.image = none ∧ t.mem = s.mem ∧ t.hostMem = s.hostMem)) ∧
  (∀ (s : State) (die : Nat) (v : BitVec 64),
    let wid := (v.extractLsb' 16 32).toNat * 2 ^ 48 + (v.extractLsb' 0 16).toNat
    let status (n : BitVec 3) : State := s.modDie die fun d => { d with preq := v, preqst := n }
    ((∀ g, look s.wgs wid = some g → dieOf g.core ≠ die) →
      exec (.preqPreempt die v) s = .next (status 2) ∧ exec (.preqTerminate die v) s = .next (status 2)) ∧
    (∀ g, look s.wgs wid = some g → dieOf g.core = die →
      (g.st = .running → g.stopAt = none → exec (.preqPreempt die v) s =
        .next ((status 3).modWg wid fun g => { g with stopAt := some (s.die die).clocks })) ∧
      (g.st = .running → g.stopAt ≠ none → exec (.preqPreempt die v) s = .next (status 3)) ∧
      (g.st ≠ .running → exec (.preqPreempt die v) s = .next (status 2)) ∧
      (g.st = .ending → exec (.preqTerminate die v) s = .next (status 2)) ∧
      (g.st = .running → g.stopAt ≠ none →
        exec (.preqTerminate die v) s = .next ((status 3).modWg wid fun g => { g with killed := true })) ∧
      (g.st = .saved ∨ (g.st = .running ∧ g.stopAt = none) → ∃ t h, exec (.preqTerminate die v) s = .next t ∧
        look t.wgs wid = some h ∧ h.st = .ending ∧ h.image = none ∧ h.mem = g.mem ∧ t.mem = s.mem ∧ t.hostMem = s.hostMem ∧
        (t.die die).preqst = 0 ∧ look (t.die die).term ((s.die die).termIdx % 16) = some (termRecord g.inst g.g 0 0x17 none 0 0))) ∧
    exec (.preqReserved die v) s = .next (s.modDie die fun d => { d with preqst := d.preqst ||| 4 })) ∧
  (∀ (s : State) (wid warp : Nat) (g : Wg) (w : Warp), look s.wgs wid = some g → look g.warps warp = some w →
    (w.sleepUntil ≠ 0 → w.sleepUntil ≤ s.clocksAt g.core →
      exec (.sleepEnd wid warp) s = .next (s.modWarp wid warp fun w => { w with sleepUntil := 0 })) ∧
    (w.sleepUntil = 0 ∨ s.clocksAt g.core < w.sleepUntil → exec (.sleepEnd wid warp) s = .next s))

/-! ### Optical circuit time (16 R386-R406) -/

/-- O: 16 R387, R390, R391, R393, R402-R406: arming a swap checks the inactive bank, by the first error of R405. A slot
starts when the one before is over, a rotation after its last slot; a due swap makes the armed bank active; every lane of a
lit package then stands on its code in the table in force; one in retraining, or failed, stays out of service, its share on a
spare of the slot where it has one, and a swap keeps out with it the transmit half that is retrained with it. Lanes light
only with a key; a key is loaded from `KEYIN`, which is then zero, and zeroised; a package reset puts every optical register,
lane and key at its reset value. Points that the spec leaves open here are the model's own choices: log entries 3, 23, 43, 45
and 88. -/
def Obligations.SlotTablesAndKeys : Prop :=
  (∀ (p : Pkg) (bank : Bool) (e : Nat),
    let b (i : Nat) : Nat := (memGet p.slotMem ((if bank then 0x4000 else 0) + 256 * e + i)).toNat
    let len := memNat p.slotMem ((if bank then 0x4000 else 0) + 256 * e) 8
    let odd := len < 50 ∨ 100000 < len ∨ ∃ i, 200 ≤ i ∧ i < 256 ∧ b i ≠ 0
    let wrong := ∃ l, l < 192 ∧ b (8 + l) ≠ 0x3E ∧ b (8 + l) ≠ 0x3F ∧ (b (8 + l) = 0 ∨ 47 < b (8 + l))
    let twice (at_ : Nat) : Prop := ∃ port i j, port < 12 ∧ i < 8 ∧ j < i ∧ b (at_ + 8 * port + i) = b (at_ + 8 * port + j) ∧
      1 ≤ b (at_ + 8 * port + i) ∧ b (at_ + 8 * port + i) ≤ 47
    (odd → p.entryError bank e = some 2) ∧ (¬odd → wrong → p.entryError bank e = some 3) ∧
    (¬odd → ¬wrong → twice 8 → p.entryError bank e = some 4) ∧ (¬odd → ¬wrong → ¬twice 8 → twice 104 → p.entryError bank e = some 5) ∧
    (¬odd → ¬wrong → ¬twice 8 → ¬twice 104 → p.entryError bank e = none)) ∧
  (∀ (s : State) (pkg : Nat) (n : BitVec 64),
    let p := s.pkg pkg
    let h := if p.act then p.bank0 else p.bank1
    let k := h.nslot.toNat
    let refused (c e : Nat) : Prop := exec (.armSwap pkg n) s =
      .next (s.modPkg pkg fun p => { p with ocsw := n, arm := false, err := BitVec.ofNat 4 c, eslot := BitVec.ofNat 8 e })
    let clean := ∀ e, e < k → p.entryError (!p.act) e = none
    let long := h.mode = true ∧ 400000 < ((List.range k).map fun e => p.entryLen (!p.act) e).sum
    let counted := 1 ≤ k ∧ k ≤ 64
    (¬counted → refused 1 0) ∧
    (∀ e c, counted → h.mode = true → e < k → (∀ f, f < e → p.entryError (!p.act) f = none) →
      p.entryError (!p.act) e = some c → refused c e) ∧
    (counted → clean → long → refused 6 0) ∧
    (counted → h.mode = false ∨ clean → ¬long → n.toNat ≤ p.ocrot.toNat → refused 7 0) ∧
    (counted → h.mode = false ∨ clean → ¬long → p.ocrot.toNat < n.toNat → exec (.armSwap pkg n) s =
      .next (s.modPkg pkg fun p => { p with ocsw := n, arm := true, err := 0, eslot := 0 }))) ∧
  (∀ (s : State) (pkg : Nat), pkg < s.nPkg → (∀ q, ((s.pkg q).lanes.map (·.1)).Pairwise (· < ·)) →
    let p := s.pkg pkg
    let due := p.arm = true ∧ p.ocsw.toNat ≤ p.ocrot.toNat
    let sched := p.active.mode
    let last := sched = false ∨ p.active.nslot.toNat ≤ p.slot + 1
    let fin := if sched then p.slotAt + 10 * (p.entryLen p.act p.slot % 2 ^ 17) else p.rotAt + 10000
    let away (x : Lane) : Prop := 3 ≤ x.stage ∨ x.rx.st = 5
    let tune (c : Nat) (mesh : Bool) : Nat := if mesh && c == 0x3E then 0x3F else c
    let half (h : Half) (c : Nat) (mesh : Bool) : Half :=
      if h.st = 5 ∨ h.st = 2 ∨ h.st = 3 then { h with ch := tune c mesh } else ⟨if c = 0x3E then 6 else 1, tune c mesh, 0xFF⟩
    let code (sched bank : Bool) (e at_ l : Nat) : Nat :=
      if sched then p.entryByte bank e (at_ + l) else if l % 48 = 0 then 0x3E else l % 48
    let same (t : State) : Prop := { t with pkgs := s.pkgs } = s ∧ ∀ q, q ≠ pkg → { t.pkg q with lanes := (s.pkg q).lanes } = s.pkg q
    let apart (u : State) (l : Nat) : Prop := ∀ j m, away (u.lane j m) → (j, m) ≠ (pkg, l) ∧
      ((u.lane j m).spare = some l → j ≠ pkg ∧ (u.lane j m).mate ≠ pkg) ∧ ((u.lane j m).feed = some l → (u.lane j m).mate ≠ pkg)
    let clear (t : State) (l : Nat) : Prop := l < 96 ∧ apart s l ∧ apart t l
    let ended (x : Lane) : Lane := if x.stage = 1 ∨ x.stage = 2 then { x with stage := 0, spare := none } else x
    let tuned (t : State) (over_ : Bool) (sched bank : Bool) (e : Nat) : Prop :=
      (∀ l, clear t l → t.lane pkg l = { (if over_ then ended (s.lane pkg l) else s.lane pkg l) with
        tx := half (s.lane pkg l).tx (code sched bank e 8 l) !sched, rx := half (s.lane pkg l).rx (code sched bank e 104 l) !sched, sent := 0 }) ∧
      ∀ l, l < 96 → away (s.lane pkg l) →
        let y := t.lane pkg l
        y.rx = ⟨if (s.lane pkg l).rx.st = 5 then 5 else if y.spare.isSome then 2 else 3, tune (code sched bank e 104 l) !sched, y.spare.getD 0xFF⟩ ∧
        (sched = false ∨ y.barred = true → y.spare = none) ∧
        ∀ k, y.spare = some k → (t.lane pkg k).rx = ⟨4, y.rx.ch, l⟩
    let kept (t : State) : Prop := ∀ l, clear t l → t.lane pkg l = s.lane pkg l
    (due ∨ last ∨ s.time < fin → exec (.slotStart pkg) s = .next s) ∧
    (¬due → ¬last → fin ≤ s.time → ∃ t, exec (.slotStart pkg) s = .next t ∧ same t ∧
      { t.pkg pkg with lanes := p.lanes } = { p with slot := p.slot + 1, slotAt := fin } ∧
      (p.en = true → tuned t false sched p.act (p.slot + 1)) ∧ (p.en = false → kept t)) ∧
    (due ∨ ¬last ∨ s.time < fin → exec (.rotationStart pkg) s = .next s) ∧
    (¬due → last → fin ≤ s.time → ∃ t, exec (.rotationStart pkg) s = .next t ∧ same t ∧
      { t.pkg pkg with lanes := p.lanes } = { p with ocrot := p.ocrot + 1, slot := 0, slotAt := fin, rotAt := fin } ∧
      (p.en = true → sched = true → tuned t false true p.act 0) ∧ (p.en = false ∨ sched = false → kept t) ∧
      (sched = false → ∀ l, t.lane pkg l = s.lane pkg l)) ∧
    (¬due → exec (.tableSwap pkg) s = .next s) ∧
    (due → ∃ t, exec (.tableSwap pkg) s = .next t ∧ same t ∧
      { t.pkg pkg with lanes := p.lanes } = { p with act := !p.act, arm := false, slot := 0, slotAt := p.rotAt, asks := [], ctrl := [] } ∧
      (∀ l, l < 96 → 3 ≤ (s.lane pkg l).stage → (t.lane pkg l).barred = true) ∧
      (∀ j l m, let x := s.lane j l
        j < s.nPkg → l < 96 → m < 96 → j = pkg ∨ x.mate = pkg → 3 ≤ x.stage → x.barred = false → x.feed = some m →
          (t.lane j l).kept = some (x.mate, m) ∧ ((s.lane x.mate m).tx.st = 2 ∨ (s.lane x.mate m).tx.st = 3 →
            (t.lane x.mate m).tx.st = 2 ∨ (t.lane x.mate m).tx.st = 3)) ∧
      (p.en = true → tuned t true (if p.act then p.bank0 else p.bank1).mode (!p.act) 0)) ∧
    (∀ v : BitVec 64, let en := v.getLsbD 0 && p.key.isSome
      ∃ t, exec (.laneEnable pkg v) s = .next t ∧ same t ∧ (t.pkg pkg).en = en ∧ (t.pkg pkg).rten = v.getLsbD 3 ∧
        { t.pkg pkg with lanes := p.lanes, en := p.en, rten := p.rten, asks := p.asks, ctrl := p.ctrl } = p ∧
        (en = p.en → (∀ l, t.lane pkg l = s.lane pkg l) ∧ (t.pkg pkg).ctrl = p.ctrl) ∧
        (en = true → p.en = false → tuned t false sched p.act p.slot) ∧
        (en = false → p.en = true → (t.pkg pkg).ctrl = [] ∧ ∀ l,
          let y := t.lane pkg l
          y.stage = 0 ∧ y.spare = none ∧ y.feed = none ∧ y.kept = none ∧ y.tx.st = (if (s.lane pkg l).tx.st = 5 then 5 else 0) ∧
          y.rx.st = (if (s.lane pkg l).rx.st = 5 then 5 else 0) ∧ (y.tx.st = 0 → y.tx = ⟨0, 0x3F, 0xFF⟩) ∧ (y.rx.st = 0 → y.rx = ⟨0, 0x3F, 0xFF⟩))) ∧
    (∃ t, exec (.packageReset pkg) s = .next t ∧ same t ∧ (∀ l, t.lane pkg l = Lane.reset) ∧
      t.pkg pkg = { p with
        en := false, rten := true, eslot := 0, err := 0, act := false, arm := false, ocsw := 0, thr := 891, bank0 := ⟨false, 1⟩
        bank1 := ⟨false, 1⟩, slotMem := [], keyin := [], kst := 0, key := none, slot := 0, slotAt := p.rotAt, lanes := [], flows := []
        air := [], asks := [], ctrl := [] })) ∧
  (∀ (s : State) (pkg : Nat),
    let p := s.pkg pkg
    let read := (List.range 512).map fun i => memGet p.keyin i
    (∀ k, Config.unwrapKey pkg read = some k → exec (.keyLoad pkg) s =
      .next (s.modPkg pkg fun p => { p with key := some k, kst := 1, keyin := [], flows := [] })) ∧
    (Config.unwrapKey pkg read = none → exec (.keyLoad pkg) s = .next (s.modPkg pkg fun p => { p with kst := 2, keyin := [] })) ∧
    exec (.keyZero pkg) s = .next (s.modPkg pkg fun p => { p with key := none, kst := 0, flows := [] }))

/-- O: 16 R387, R391, R392, R394-R399, R401: a lit package past the guard sends the next bytes of a queue, a control or a
fill flit, encrypted under the flow's next number, to the package that the lane's channel reaches. A flit whose tag holds
gives its payload back and takes the number nearest the highest accepted; the messages in its bytes are delivered once; a gap
is given up after 10 ms. A window above `THR` has its lane handed to a spare, retrained 400 us, and judged by a fill window;
the third failure is final. Points that the spec leaves open here are the model's own choices: log entries 6, 23, 43 and 88. -/
def Obligations.FlitsAndRetraining : Prop :=
  (∀ (s : State) (pkg lane kind : Nat),
    let p := s.pkg pkg
    let x := p.lane lane
    let c := x.tx.ch
    let dst := (pkg + c) % 48
    let linked := 1 ≤ c ∧ c ≤ 47 ∧ dst < s.nPkg
    let e : Instr := .flitSend pkg lane kind
    let fin := p.slotAt + 10 * (p.entryLen p.act p.slot % 2 ^ 17)
    let open_ := p.en = true ∧ p.key ≠ none ∧ ¬(p.arm = true ∧ p.ocsw.toNat ≤ p.ocrot.toNat) ∧
      (p.active.mode = true → p.slotAt + 250 ≤ s.time ∧ s.time < fin)
    let serves := x.tx.st = 1 ∨ x.tx.st = 4
    let n := (p.flow dst).next
    let hears (m : Nat) : Prop := let r := (s.lane dst m).rx
      (s.pkg dst).en = true ∧ m / 8 = lane / 8 ∧ r.ch = c ∧ r.st ≠ 0 ∧ r.st ≠ 5 ∧ (m = lane ∨ r.st ≠ 4)
    let sent (t : State) (kind used : Nat) (first : Option Nat) (payload : List Byte) : Prop :=
      ((t.pkg pkg).flow dst).next = n + 1 ∧ t.mem = s.mem ∧ t.cores = s.cores ∧ t.wgs = s.wgs ∧
      ((∀ m, ¬hears m) → (t.pkg dst).air = (s.pkg dst).air) ∧
      (∀ key, p.key = some key → (∃ m, hears m) → ∃ m, hears m ∧ (hears lane → m = lane) ∧ (t.pkg dst).air =
        (s.pkg dst).air ++ [⟨pkg, m, flitBytes key pkg dst n (flitHeader kind used first n) payload⟩])
    (¬linked ∨ ¬open_ → exec e s = .next s) ∧
    (linked → open_ → pkg ≠ dst →
      (kind = 0 → serves → s.nextLane pkg dst (s.queue pkg dst).last = some lane →
        let q := s.queue pkg dst
        let m := min 128 (p.roomIn x)
        let bs := (q.msgs.flatten.drop q.off).take m
        let first := if q.off = 0 then 0 else (q.msgs.headD []).length - q.off
        bs ≠ [] → ∃ t, exec e s = .next t ∧ sent t 0 bs.length (if first < bs.length then some first else none) bs ∧
          (t.queue pkg dst).last = lane ∧ (t.lane pkg lane).sent = x.sent + bs.length ∧
          (t.queue pkg dst).msgs.flatten.drop (t.queue pkg dst).off = (q.msgs.flatten.drop q.off).drop bs.length) ∧
      (∀ d, kind = 1 → serves → p.ctrl.find? (fun c => c.1 == dst) = some d → ∃ t, exec e s = .next t ∧
        sent t 1 0 none (bytesOfNat 1 d.2) ∧ (t.pkg pkg).ctrl = p.ctrl.erase d) ∧
      (2 ≤ kind → serves → (s.queue pkg dst).msgs = [] → ∃ t, exec e s = .next t ∧ sent t 2 0 none []) ∧
      (2 ≤ kind → (∃ q ∈ (s.pkg dst).lanes, q.2.stage = 4 ∧ q.2.mate = pkg ∧ q.2.feed = some lane) →
        ∃ t, exec e s = .next t ∧ sent t 2 0 none []) ∧
      (kind < 2 → ¬serves → exec e s = .next s))) ∧
  (∀ (key : BitVec 256) (src dst n : Nat) (hdr : BitVec 32) (payload : List Byte), payload.length ≤ 128 →
    flitOpen key src dst n (flitBytes key src dst n hdr payload) = some (payload ++ zeros (128 - payload.length)) ∧
    (flitBytes key src dst n hdr payload).length = 144) ∧
  (∀ high seq m : Nat, seq < 2 ^ 16 → m % 2 ^ 16 = seq →
    let n := flitNumber high seq
    let dist (k : Nat) : Nat := max k high - min k high
    n % 2 ^ 16 = seq ∧ dist n ≤ dist m ∧ (dist n = dist m → m ≤ n)) ∧
  (∀ (s : State) (pkg lane k symbols noise : Nat) (bad : Bool) (f : Flit), (s.pkg pkg).air[k]? = some f →
    let e : Instr := .flitReceived pkg lane k symbols bad noise
    let bytes := noised f.bytes noise
    let x := s.lane pkg lane
    let y := symbols % 16
    let live := x.rx.st = 1 ∨ x.rx.st = 4
    let begins := x.bits = 0 ∨ 5140 < x.bits + 1152
    let lost := (x.bits ≠ 0 ∧ x.uncor = true) ∨ (begins ∧ bad = true)
    let line : Lane := { x with bits := (x.bits + 1152) % 5140, uncor := if begins then bad else x.uncor }
    let counted : Lane :=
      if ¬begins then line
      else if x.stage = 4 then { line with win := x.win + (if bad then 0 else y), words := x.words + 1 }
      else if ¬live then line
      else if bad then { line with unc := (x.unc + 1) % 2 ^ 64, words := x.words + 1 }
      else { line with cor := (x.cor + if y = 0 then 0 else 1) % 2 ^ 64, win := x.win + y, words := x.words + 1 }
    let u := (s.modPkg pkg fun p => { p with air := p.air.eraseIdx k }).modLane pkg lane fun _ => counted
    let takes := f.lane = lane ∧ ¬(begins ∧ 2 ^ 14 ≤ x.words)
    let untagged : State := if live then u.modLane pkg lane fun x => { x with auth := (x.auth + 1) % 2 ^ 64 } else u
    (¬takes → exec e s = .next s) ∧
    (takes → lost → exec e s = .next u) ∧
    (takes → ¬lost → (s.pkg pkg).key = none → exec e s = .next untagged) ∧
    (∀ key, takes → ¬lost → (s.pkg pkg).key = some key →
      let n := flitNumber ((s.pkg pkg).flow f.src).high (fld bytes 0 4 % 2 ^ 16)
      (flitOpen key f.src pkg n bytes = none → exec e s = .next untagged) ∧
      (∀ pay, flitOpen key f.src pkg n bytes = some pay → exec e s =
        .next ((if live then u.modLane pkg lane fun x => { x with flits := (x.flits + 1) % 2 ^ 64 } else u).acceptFlit
          pkg f.src n (fld bytes 0 4) pay)))) ∧
  (∀ (s : State) (pkg src n : Nat) (m pad : List Byte), 20 ≤ m.length → m.length ≤ 128 →
    m.length = (fld m 16 4 / 2 ^ 25 % 64 + 1) * 4 →
    let f := (s.pkg pkg).flow src
    f.base = n → f.got = [] → f.part = some [] → f.given = [] →
    s.acceptFlit pkg src n (flitHeader 0 m.length (some 0) n).toNat (m ++ pad) =
      (s.modPkg pkg fun p => { p with flows := ins p.flows src { f with high := max f.high n, base := n + 1 } }).deliver m) ∧
  (∀ (s : State) (pkg src : Nat),
    let f := (s.pkg pkg).flow src
    let gap := look f.got f.base = none ∧ ∃ e ∈ f.got, f.base < e.1 ∧ e.2.2.2 + 10000000 ≤ s.time
    (gap → exec (.flowGap pkg src) s = .next ((s.modPkg pkg fun p =>
      { p with flows := ins p.flows src { f with base := f.base + 1, part := none } }).flowDeliver pkg src)) ∧
    (¬gap → exec (.flowGap pkg src) s = .next s)) ∧
  let gone (t s : State) (j l : Nat) (sp : Option Nat) : Prop :=
    let out (h : Half) : Half := { h with st := if h.st = 5 then 5 else if sp.isSome then 2 else 3, sp := sp.getD 0xFF }
    let x := s.lane j l
    let y := t.lane j l
    y.stage = 3 ∧ y.since = s.time ∧ y.rtns = min (x.rtns + 1) 255 ∧ y.rx = out x.rx ∧ y.feed = (s.feeder j l).map (·.2) ∧
    (s.feeder j l = none → y.spare = none) ∧
    ∀ i m, s.feeder j l = some (i, m) → y.mate = i ∧ y.spare = sp ∧ (sp ≠ some m → (t.lane i m).tx = out (s.lane i m).tx)
  (∀ (s : State) (pkg lane : Nat),
    let p := s.pkg pkg
    let e : Instr := .handoverRequest pkg lane
    ((∀ j, p.asks.head? ≠ some (lane, j)) → exec e s = .next s) ∧
    (∀ j rest, p.asks = (lane, j) :: rest → j ≠ pkg →
      let u := s.modPkg pkg fun p => { p with asks := rest }
      let x := s.lane j lane
      (x.stage ≠ 1 ∨ x.mate ≠ pkg → exec e s = .next u) ∧
      (∀ sp, x.stage = 1 → x.mate = pkg → s.freeSpare pkg j = some sp →
        exec e s = .next (u.modLane j lane fun x => { x with stage := 2, since := s.time, spare := some sp })) ∧
      (x.stage = 1 → x.mate = pkg → s.freeSpare pkg j = none → ∃ t, exec e s = .next t ∧ gone t s j lane none))) ∧
  (∀ (s : State) (j l i m : Nat), s.feeder j l = some (i, m) →
    let c := (s.lane j l).rx.ch
    1 ≤ c ∧ c ≤ 47 ∧ i = (j + 48 - c) % 48 ∧ m / 8 = l / 8 ∧ (s.lane i m).tx.ch = c ∧ (s.lane i m).tx.st ≠ 0 ∧ (s.lane i m).tx.st ≠ 4) ∧
  (∀ (s : State) (i j sp : Nat), s.freeSpare i j = some sp → sp < 96 ∧ (s.lane i sp).tx.st = 6 ∧ (s.lane j sp).rx.st = 6 ∧
    ∀ l, l < sp → (s.lane i l).tx.st = 6 → (s.lane j l).rx.st = 6 → s.promised i l false = true ∨ s.promised j l true = true) ∧
  (∀ (s : State) (pkg lane : Nat),
    let x := s.lane pkg lane
    let sched := (s.pkg pkg).active.mode
    let trained := x.stage = 2 ∧ x.since + 40000 ≤ s.time
    (¬trained → exec (.spareReady pkg lane) s = .next s) ∧
    (∀ i m, trained → s.feeder pkg lane = some (i, m) →
      ∃ t sp, exec (.spareReady pkg lane) s = .next t ∧ (t.lane pkg lane).stage = 3 ∧ (sched = false → sp = x.spare) ∧
        (sched = true → x.barred = true → sp = none) ∧
        (∀ k, sched = true → sp = some k → k < 96 ∧ (s.lane i k).tx.st = 6 ∧ (s.lane pkg k).rx.st = 6) ∧
        (sp ≠ some lane → gone t s pkg lane sp ∧ ∀ k, sp = some k → k ≠ m →
          (t.lane i k).tx = ⟨4, x.rx.ch, m⟩ ∧ (t.lane pkg k).rx = ⟨4, x.rx.ch, lane⟩)) ∧
    (trained → s.feeder pkg lane = none → ∃ t, exec (.spareReady pkg lane) s = .next t ∧ gone t s pkg lane none) ∧
    (x.stage = 3 → x.since + 400000 ≤ s.time →
      exec (.retrainDone pkg lane) s = .next (s.modLane pkg lane fun x => { x with stage := 4, win := 0, words := 0 })) ∧
    (x.stage ≠ 3 ∨ s.time < x.since + 400000 → exec (.retrainDone pkg lane) s = .next s)) ∧
  (∀ (s : State) (pkg lane : Nat),
    let p := s.pkg pkg
    let x := s.lane pkg lane
    let e : Instr := .fecWindowEnd pkg lane
    let past := x.rx.st = 1 ∧ x.stage ≤ 1 ∧ p.rten = true ∧ p.thr ≠ 0 ∧ p.thr.toNat < x.win ∧ 1 ≤ x.rx.ch ∧ x.rx.ch ≤ 47
    let live := x.rx.st = 1 ∨ x.rx.st = 4
    let whole := 2 ^ 14 ≤ x.words
    let alone (i m : Nat) : Prop := (∀ q, ((s.pkg q).lanes.map (·.1)).Pairwise (· < ·)) ∧ ∀ q l, (q, l) ≠ (pkg, lane) →
      (s.lane q l).kept ≠ some (i, m) ∧ (3 ≤ (s.lane q l).stage ∨ (s.lane q l).rx.st = 5 → (s.lane q l).mate = i → (s.lane q l).feed ≠ some m)
    let heard := if x.kept.isSome then x.kept else x.feed.map fun m => (x.mate, m)
    let peer := (x.kept.map (·.1)).getD x.mate
    (¬whole → exec e s = .next s) ∧
    (whole → x.stage = 4 → x.mate ≠ pkg →
      (x.win ≤ p.thr.toNat → x.spare ≠ some lane → ∃ t, exec e s = .next t ∧ (t.lane pkg lane).stage = 0 ∧ (t.lane pkg lane).fails = 0 ∧
        (t.lane pkg lane).spare = none ∧ (t.lane pkg lane).feed = none ∧ (t.lane pkg lane).kept = none ∧ (t.lane pkg lane).sym = x.win ∧ (t.lane pkg lane).win = 0 ∧
        (t.lane pkg lane).words = 0 ∧
        (x.rx.st ≠ 5 → (t.lane pkg lane).rx.st = if p.code true lane = 0x3E then 6 else 1) ∧
        (∀ i m, x.kept = some (i, m) ∨ x.feed = some m ∧ i = x.mate → alone i m → (s.lane i m).tx.st = 2 ∨ (s.lane i m).tx.st = 3 →
          (t.lane i m).tx.st = if (s.pkg i).code false m = 0x3E then 6 else 1) ∧
        ∀ sp, x.spare = some sp → (s.lane pkg sp).rx.st = 4 → (s.lane pkg sp).rx.sp = lane →
          (t.lane pkg sp).rx.st = if p.code true sp = 0x3E then 6 else 1) ∧
      (p.thr.toNat < x.win → x.fails < 2 → ∃ t, exec e s = .next t ∧ t.lane pkg lane = { x with
        fails := x.fails + 1, stage := 3, since := s.time, rtns := min (x.rtns + 1) 255, sym := x.win, win := 0, words := 0 }) ∧
      (p.thr.toNat < x.win → 2 ≤ x.fails → peer ≠ pkg → ∃ t, exec e s = .next t ∧
        t.lane pkg lane = { x with rx := { x.rx with st := 5 }, stage := 0, kept := none, sym := x.win, win := 0, words := 0 } ∧
        (∀ i m, heard = some (i, m) → (t.lane i m).tx = { (s.lane i m).tx with st := 5 }) ∧
        (∀ k, x.spare = some k → heard ≠ some (x.mate, k) → k ≠ lane → (t.lane x.mate k).tx = (s.lane x.mate k).tx ∧ t.lane pkg k = s.lane pkg k) ∧
        (t.pkg pkg).note.getLsbD 2 = true ∧ (t.pkg peer).note.getLsbD 2 = true)) ∧
    (whole → x.stage ≠ 4 → ¬live → exec e s = .next s) ∧
    (whole → x.stage ≠ 4 → live → ¬past →
      exec e s = .next (s.modLane pkg lane fun y => { y with sym := x.win, win := 0, words := 0 })) ∧
    (whole → x.stage ≠ 4 → past →
      let i := (pkg + 48 - x.rx.ch) % 48
      ∃ t, exec e s = .next t ∧ t.lane pkg lane = { x with sym := x.win, win := 0, words := 0, stage := 1, mate := i, fails := 0 } ∧
        (i, lane) ∈ (t.pkg pkg).ctrl ∧ ∀ c ∈ (t.pkg pkg).ctrl, c ≠ (i, lane) → c ∈ p.ctrl))

/-! ### The host attachment and power (19 R458-R466, 14 R332, 15 R360, R363) -/

/-- O: 19 R459, R462-R466, 16 R403, R406, 14 R332, 15 R360, R363, 17 R412: a write to a register does what the register's own
step does, read-only and unlisted ones nothing; reports, one at a time; modes and caps of a die's clock; the host reads and
writes memory through its home; DRAM errors are counted and poison their block. Forming a partition restarts streams, windows
and counters, and a package out of service stays so; a die reset ends its workgroups, restores carves and measures the
firmware. Points that the spec leaves open here are the model's own choices: log entries 3, 6, 23, 31, 41 (a report has the
nonce captured when it was asked for), 42, 44, 46, 73 and 77. -/
def Obligations.HostAttachmentActs : Prop :=
  (∀ (s : State) (pkg d o : Nat) (v : BitVec 64), d < 4 → o < 0x100000 →
    let die := 4 * pkg + d
    let e : Instr := .registerWrite pkg (0x400000 + 0x100000 * d + o) v
    let cap := (v.extractLsb' 1 11).toNat
    (o = 0 → exec e s = .next (s.modDie die fun d => { d with
      eff := v.getLsbD 0, cap := if 150 ≤ cap ∧ cap ≤ 600 then v.extractLsb' 1 11 else 0 })) ∧
    let fits (t : State) : State := { t with wgs := t.wgs.map fun w => (w.1, if dieOf w.2.core = die then { w.2 with unfit := false } else w.2) }
    (o = 0x10 → exec e s = .next (fits (s.modDie die fun d => { d with poolBase := v &&& ~~~127 }))) ∧
    (o = 0x18 → exec e s = .next (fits (s.modDie die fun d => { d with poolLen := v &&& ~~~127 }))) ∧
    (o = 0x20 → exec e s = exec (if v.getLsbD 1 then .biasForce die v else .biasFlipRequest die v) s) ∧
    (o = 0x30 → exec e s = exec (if v.extractLsb' 48 2 = 0 then .preqPreempt die v
      else if v.extractLsb' 48 2 = 1 then .preqTerminate die v else .preqReserved die v) s) ∧
    (o ∉ [0, 0x10, 0x18, 0x20, 0x30] → ∃ t, exec e s = .next t ∧ { t with dies := s.dies } = s ∧ ∀ q, t.die q = s.die q)) ∧
  (∀ (s : State) (pkg off : Nat) (v : BitVec 64),
    let e : Instr := .registerWrite pkg off v
    let p := s.pkg pkg
    (off = 0x400 → exec e s = exec (.reportRequest pkg v) s) ∧ (off = 0x100000 → exec e s = exec (.laneEnable pkg v) s) ∧
    (off = 0x100010 → exec e s = exec (.armSwap pkg v) s) ∧
    (off = 0x100300 → v.extractLsb' 0 2 = 1 → exec e s = exec (.keyLoad pkg) s) ∧
    (off = 0x100300 → v.extractLsb' 0 2 = 2 → exec e s = exec (.keyZero pkg) s) ∧
    (off = 0x2000 → exec e s = .next (s.modPkg pkg fun p => { p with note := p.note &&& ~~~(v.setWidth 5) })) ∧
    (∀ i, i < 4 → off = 0x440 + 8 * i → ∃ t, exec e s = .next t ∧ { t with pkgs := s.pkgs } = s ∧
      { t.pkg pkg with nonce := p.nonce } = p ∧ ∀ b, b < 256 → (t.pkg pkg).nonce.getLsbD b =
        if 64 * i ≤ b ∧ b < 64 * i + 64 then v.getLsbD (b - 64 * i) else p.nonce.getLsbD b) ∧
    (off = 0x100020 → exec e s = .next (s.modPkg pkg fun p => { p with thr := v.setWidth 32 })) ∧
    (∀ bank : Bool, off = (if bank then 0x100030 else 0x100028) → ∃ t, exec e s = .next t ∧ { t with pkgs := s.pkgs } = s ∧
      let h : BankHdr := if p.en = true ∧ p.act = bank then (if bank then p.bank1 else p.bank0) else ⟨v.getLsbD 7, v.extractLsb' 0 7⟩
      t.pkg pkg = if bank then { p with bank1 := h } else { p with bank0 := h }) ∧
    (off < 0x100000 → off ≠ 0x400 → off ≠ 0x2000 → off < 0x440 ∨ 0x460 ≤ off → exec e s = .next s)) ∧
  (let lane (rx tx : Half) (n : Nat) : Nat := ({ Lane.reset with rx := rx, tx := tx, rtns := n } : Lane).status;
    lane ⟨1, 19, 0xFF⟩ ⟨1, 19, 0xFF⟩ 0 = 0xFFFF000013130011 ∧ lane ⟨2, 19, 0⟩ ⟨1, 19, 0xFF⟩ 1 = 0xFF00010013130012 ∧
    lane ⟨4, 19, 19⟩ ⟨6, 0x3F, 0xFF⟩ 0 = 0xFF1300003F130064 ∧ lane ⟨6, 0x3F, 0xFF⟩ ⟨6, 0x3F, 0xFF⟩ 0 = 0xFFFF00003F3F0066) ∧
  (∀ (s : State) (pkg : Nat) (v : BitVec 64),
    let p := s.pkg pkg
    let meas (i : Nat) : List Byte := bytesOfNat 64 (lookD p.meas i 0).toNat
    (v.getLsbD 0 = true → p.repBusy = false → exec (.reportRequest pkg v) s =
      .next (s.modPkg pkg fun p => { p with repBusy := true, repNonce := p.nonce })) ∧
    (v.getLsbD 0 = false ∨ p.repBusy = true → exec (.reportRequest pkg v) s = .next s) ∧
    (p.repBusy = false → exec (.reportReady pkg) s = .next s) ∧
    (p.repBusy = true → ∃ t, exec (.reportReady pkg) s = .next t ∧ { t with pkgs := s.pkgs } = s ∧ (t.pkg pkg).repBusy = false ∧
      (t.pkg pkg).note.getLsbD 3 = true ∧ (t.pkg pkg).msi = p.msi + (if p.note.getLsbD 3 then 0 else 1) ∧
      let body := (t.pkg pkg).repOut.take 560
      (t.pkg pkg).repOut.length = 1072 ∧ body.take 32 = bytesOfNat 32 p.repNonce.toNat ∧
      (body.drop 32).take 512 = meas 0 ++ meas 1 ++ meas 2 ++ meas 3 ++ meas 4 ++ meas 5 ++ meas 6 ++ meas 7 ∧
      (body.drop 544).take 8 = bytesOfNat 8 (Config.serial pkg).toNat ∧ (body.drop 552).take 2 = [4, 0] ∧
      ((Config.signReport pkg body).length = 512 → (t.pkg pkg).repOut.drop 560 = Config.signReport pkg body))) ∧
  (∀ (s : State) (die watts : Nat) (eff : Bool) (cap : BitVec 11),
    let d := s.die die
    let freq (eff : Bool) : Nat := if eff then 120 else 170
    let want := if d.capd then min d.fnow (freq d.eff) else freq d.eff
    let above := d.cap ≠ 0 ∧ d.cap.toNat < watts
    let f := if above then max 60 (d.fnow - 10) else if d.cap ≠ 0 ∧ d.cap.toNat = watts then d.fnow
      else min (freq d.effNow) (d.fnow + 10)
    exec (.powerModeWrite die eff) s = .next (s.modDie die fun d => { d with eff := eff }) ∧
    exec (.powerCapWrite die cap) s = .next (s.modDie die fun d =>
      { d with cap := if 150 ≤ cap.toNat ∧ cap.toNat ≤ 600 then cap else 0 }) ∧
    exec (.modeSwitch die) s = .next (s.modDie die fun d =>
      { d with effNow := d.eff, fnow := want, capd := decide (want < freq d.eff) }) ∧
    ∃ t, exec (.capClockStep die watts) s = .next t ∧ { t with dies := s.dies, pkgs := s.pkgs } = s ∧
      t.die die = { d with fnow := f, capd := decide (f < freq d.effNow), energy := d.energy + BitVec.ofNat 64 (100 * watts) } ∧
      (above → d.capd = false → (t.pkg (die / 4)).note.getLsbD 4 = true) ∧
      (¬above ∨ d.capd = true → t.pkgs = s.pkgs)) ∧
  (∀ (s : State) (pa n : Nat) (bytes : List Byte) (bad : Bool),
    let homed (n : Nat) : Prop := n ≠ 0 ∧ pa + n ≤ 2 ^ 52 ∧ pa / 2 ^ 37 = (pa + n - 1) / 2 ^ 37 ∧ pa / 2 ^ 37 % 2 ^ 7 = 0 ∧
      s.reachable pa = true
    let served (n : Nat) : Prop := homed n ∧ s.inFlip pa = false ∧ s.inFlip (pa + n - 1) = false
    let stashed := ∃ g ∈ s.wgs, ∃ w ∈ g.2.stash, ∃ l ∈ w.2.lines, l.2.dirty = true ∧ l.2.pa / 128 = pa / 128
    (served n → ∃ t, exec (.hostAccess (.read pa n)) s = .next t ∧ t.hostRead = memRead s.mem pa n ∧ t.mem = s.mem ∧
      t.hostMem = s.hostMem ∧ GroupsKeep s t ∧ t.cores = s.cores) ∧
    (¬served n → exec (.hostAccess (.read pa n)) s = .next s) ∧
    (served bytes.length → ∃ t, exec (.hostAccess (.write pa bytes)) s = .next t ∧ t.mem = memWrite s.mem pa bytes ∧
      t.hostMem = s.hostMem ∧ GroupsKeep s t ∧ t.cores = s.cores) ∧
    (¬served bytes.length → exec (.hostAccess (.write pa bytes)) s = .next s) ∧
    exec (.hostAccess (.writeHost pa bytes)) s = .next { s with hostMem := memWrite s.hostMem pa bytes } ∧
    (homed 1 →
      let sp := s.spire (paSpire pa)
      ∃ t, exec (.dramError pa bad) s = .next t ∧ t.mem = s.mem ∧ (∀ q, q ≠ paSpire pa → t.spire q = s.spire q) ∧
        t.spire (paSpire pa) = (if bad then { sp with poisoned := sp.poisoned + 1 } else { sp with corrected := sp.corrected + 1 }) ∧
        ∀ b, b ∈ t.poison ↔ b ∈ s.poison ∨ (bad = true ∧ b = pa / 64 ∧ ¬stashed)) ∧
    (¬homed 1 → exec (.dramError pa bad) s = .next s)) ∧
  (∀ (s : State) (n : Nat) (roots : List (Nat × Nat × Nat)), ∃ t, exec (.partitionFormed n roots) s = .next t ∧
    t.nPkg = max 1 (min n 48) ∧ t.retired = s.retired ∧ t.nets = [] ∧ t.netMail = [] ∧ t.mem = s.mem ∧ t.hostMem = s.hostMem ∧ t.wgs = s.wgs ∧
    (∀ c, ∃ lines, t.core c = { s.core c with cnt := ⟨0, 0, 0, 0⟩, tlb := [], reply := lines } ∧
      ∀ y ∈ lines, y.2.done = true ∧ ∃ x ∈ (s.core c).reply, y = (x.1, { x.2 with done := true })) ∧
    (∀ k, (t.spire k).wins = [] ∧ (t.spire k).streams = [] ∧ (t.spire k).inbox = [] ∧ (t.spire k).cnt = ⟨0, 0, 0, 0⟩) ∧
    (∀ q, (t.pkg q).queues = [] ∧ (t.pkg q).air = [] ∧ (t.pkg q).key = (s.pkg q).key ∧
      ∀ peer, ((t.pkg q).flow peer).next = ((s.pkg q).flow peer).next ∧ ((t.pkg q).flow peer).high = ((s.pkg q).flow peer).high ∧
        ((t.pkg q).flow peer).got = []) ∧
    ∀ d, d < 4 * t.nPkg → (t.die d).streams = [] ∧ (t.die d).wins = [] ∧ (t.die d).tlb = [] ∧ (t.die d).handles = [] ∧
      ∀ ctx root, (d, ctx, root) ∈ roots → (∀ r ∈ roots, r.1 = d → r.2.1 = ctx → r.2.2 = root) → look (t.die d).roots ctx = some root) ∧
  (∀ (s : State) (die : Nat) (fw : List (List Byte)),
    let pkg := die / 4
    let digest (x : List Byte) : List Byte := bytesOfNat 64 (sha512 x).toNat
    let signed := fw ≠ [] ∧ Config.manifestSigned (sha512 (fw.headD [])) = true
    let good := signed ∧ 24 ≤ fw.length ∧
      ∀ i, 1 ≤ i → i < 24 → digest (fw.getD i []) = ((fw.headD []).drop (64 * (i - 1))).take 64
    let ext (m : BitVec 512) (x : List Byte) : BitVec 512 := sha512 (bytesOfNat 64 m.toNat ++ digest x)
    let m (t : State) (i : Nat) : BitVec 512 := lookD (t.pkg pkg).meas i 0
    ∃ t, exec (.dieReset die fw) s = .next t ∧ t.mem = s.mem ∧ t.hostMem = s.hostMem ∧ t.nPkg = s.nPkg ∧
      ((s.wgs.map (·.1)).Pairwise (· < ·) →
        ∀ wid g, look t.wgs wid = some g ↔ look s.wgs wid = some g ∧ dieOf g.core ≠ die) ∧
      (∀ c, dieOf c = die → (t.core c).carve = ⟨4, 8, 4, 0⟩ ∧ (t.core c).l1 = [] ∧ (t.core c).tlb = []) ∧
      (∀ c, dieOf c ≠ die → t.core c = s.core c) ∧
      (t.die die).fnow = 170 ∧ (t.die die).eff = false ∧ (t.die die).cap = 0 ∧ ((s.pkg pkg).lpq = [] → (t.die die).pend = []) ∧
      (t.die die).termIdx = (s.wgs.filter fun p => dieOf p.2.core == die).length ∧
      (t.die die).handles = (s.die die).handles ∧ (t.die die).roots = (s.die die).roots ∧
      (good → (t.die die).up = true ∧ pkg ∉ t.retired ∧
        m t 0 = ext 0 (fw.getD 0 []) ∧ m t 1 = ((fw.drop 1).take 4).foldl ext 0 ∧ m t 2 = ((fw.drop 5).take 8).foldl ext 0 ∧
        m t 3 = ((fw.drop 13).take 4).foldl ext 0 ∧ m t 4 = (List.replicate 12 (fw.getD 17 [])).foldl ext 0 ∧ m t 5 = ext 0 (fw.getD 18 []) ∧
        m t 6 = ((fw.drop 19).take 5).foldl ext 0 ∧
        m t 7 = ext 0 (bytesOfNat 256 (Config.fuseRecord pkg (Config.stepping pkg) (Config.serial pkg)).toNat)) ∧
      (¬signed → ∀ i, m t i = 0) ∧
      (¬good → (∀ i, i < 4 → (t.die (4 * pkg + i)).up = false) ∧ pkg ∈ t.retired))
end

