-- ==== Sys2Proof/Laws/State.lean ====
section
/-! SUPPORT. What each update of the state leaves alone: one lemma for each field and update. -/

namespace Sys2Proof.Machine

/-! ### `State.modWg` -/

@[simp] theorem State.modWg_nPkg (s : State) (n : Nat) (f : Wg → Wg) : (s.modWg n f).nPkg = s.nPkg := rfl
@[simp] theorem State.modWg_retired (s : State) (n : Nat) (f : Wg → Wg) : (s.modWg n f).retired = s.retired := rfl
@[simp] theorem State.modWg_mem (s : State) (n : Nat) (f : Wg → Wg) : (s.modWg n f).mem = s.mem := rfl
@[simp] theorem State.modWg_hostMem (s : State) (n : Nat) (f : Wg → Wg) : (s.modWg n f).hostMem = s.hostMem := rfl
@[simp] theorem State.modWg_past (s : State) (n : Nat) (f : Wg → Wg) : (s.modWg n f).past = s.past := rfl
@[simp] theorem State.modWg_poison (s : State) (n : Nat) (f : Wg → Wg) : (s.modWg n f).poison = s.poison := rfl
@[simp] theorem State.modWg_bias (s : State) (n : Nat) (f : Wg → Wg) : (s.modWg n f).bias = s.bias := rfl
@[simp] theorem State.modWg_flips (s : State) (n : Nat) (f : Wg → Wg) : (s.modWg n f).flips = s.flips := rfl
@[simp] theorem State.modWg_kernels (s : State) (n : Nat) (f : Wg → Wg) : (s.modWg n f).kernels = s.kernels := rfl
@[simp] theorem State.modWg_nextInst (s : State) (n : Nat) (f : Wg → Wg) : (s.modWg n f).nextInst = s.nextInst := rfl
@[simp] theorem State.modWg_nets (s : State) (n : Nat) (f : Wg → Wg) : (s.modWg n f).nets = s.nets := rfl
@[simp] theorem State.modWg_netMail (s : State) (n : Nat) (f : Wg → Wg) : (s.modWg n f).netMail = s.netMail := rfl
@[simp] theorem State.modWg_cores (s : State) (n : Nat) (f : Wg → Wg) : (s.modWg n f).cores = s.cores := rfl
@[simp] theorem State.modWg_dies (s : State) (n : Nat) (f : Wg → Wg) : (s.modWg n f).dies = s.dies := rfl
@[simp] theorem State.modWg_spires (s : State) (n : Nat) (f : Wg → Wg) : (s.modWg n f).spires = s.spires := rfl
@[simp] theorem State.modWg_pkgs (s : State) (n : Nat) (f : Wg → Wg) : (s.modWg n f).pkgs = s.pkgs := rfl
@[simp] theorem State.modWg_time (s : State) (n : Nat) (f : Wg → Wg) : (s.modWg n f).time = s.time := rfl
@[simp] theorem State.modWg_hostRead (s : State) (n : Nat) (f : Wg → Wg) : (s.modWg n f).hostRead = s.hostRead := rfl
@[simp] theorem State.modWg_count (s : State) (n : Nat) (f : Wg → Wg) : (s.modWg n f).count = s.count := rfl
@[simp] theorem State.modWg_tick (s : State) (n : Nat) (f : Wg → Wg) : (s.modWg n f).tick = s.tick := rfl
@[simp] theorem State.modWg_turns (s : State) (n : Nat) (f : Wg → Wg) : (s.modWg n f).turns = s.turns := rfl
@[simp] theorem State.modWg_cur (s : State) (n : Nat) (f : Wg → Wg) : (s.modWg n f).cur = s.cur := rfl
@[simp] theorem State.modWg_fresh (s : State) (n : Nat) (f : Wg → Wg) : (s.modWg n f).fresh = s.fresh := rfl

/-! ### `State.modWarp` -/

@[simp] theorem State.modWarp_nPkg (s : State) (n i : Nat) (f : Warp → Warp) : (s.modWarp n i f).nPkg = s.nPkg := rfl
@[simp] theorem State.modWarp_retired (s : State) (n i : Nat) (f : Warp → Warp) : (s.modWarp n i f).retired = s.retired := rfl
@[simp] theorem State.modWarp_mem (s : State) (n i : Nat) (f : Warp → Warp) : (s.modWarp n i f).mem = s.mem := rfl
@[simp] theorem State.modWarp_hostMem (s : State) (n i : Nat) (f : Warp → Warp) : (s.modWarp n i f).hostMem = s.hostMem := rfl
@[simp] theorem State.modWarp_past (s : State) (n i : Nat) (f : Warp → Warp) : (s.modWarp n i f).past = s.past := rfl
@[simp] theorem State.modWarp_poison (s : State) (n i : Nat) (f : Warp → Warp) : (s.modWarp n i f).poison = s.poison := rfl
@[simp] theorem State.modWarp_bias (s : State) (n i : Nat) (f : Warp → Warp) : (s.modWarp n i f).bias = s.bias := rfl
@[simp] theorem State.modWarp_flips (s : State) (n i : Nat) (f : Warp → Warp) : (s.modWarp n i f).flips = s.flips := rfl
@[simp] theorem State.modWarp_kernels (s : State) (n i : Nat) (f : Warp → Warp) : (s.modWarp n i f).kernels = s.kernels := rfl
@[simp] theorem State.modWarp_nextInst (s : State) (n i : Nat) (f : Warp → Warp) : (s.modWarp n i f).nextInst = s.nextInst := rfl
@[simp] theorem State.modWarp_nets (s : State) (n i : Nat) (f : Warp → Warp) : (s.modWarp n i f).nets = s.nets := rfl
@[simp] theorem State.modWarp_netMail (s : State) (n i : Nat) (f : Warp → Warp) : (s.modWarp n i f).netMail = s.netMail := rfl
@[simp] theorem State.modWarp_cores (s : State) (n i : Nat) (f : Warp → Warp) : (s.modWarp n i f).cores = s.cores := rfl
@[simp] theorem State.modWarp_dies (s : State) (n i : Nat) (f : Warp → Warp) : (s.modWarp n i f).dies = s.dies := rfl
@[simp] theorem State.modWarp_spires (s : State) (n i : Nat) (f : Warp → Warp) : (s.modWarp n i f).spires = s.spires := rfl
@[simp] theorem State.modWarp_pkgs (s : State) (n i : Nat) (f : Warp → Warp) : (s.modWarp n i f).pkgs = s.pkgs := rfl
@[simp] theorem State.modWarp_time (s : State) (n i : Nat) (f : Warp → Warp) : (s.modWarp n i f).time = s.time := rfl
@[simp] theorem State.modWarp_hostRead (s : State) (n i : Nat) (f : Warp → Warp) : (s.modWarp n i f).hostRead = s.hostRead := rfl
@[simp] theorem State.modWarp_count (s : State) (n i : Nat) (f : Warp → Warp) : (s.modWarp n i f).count = s.count := rfl
@[simp] theorem State.modWarp_tick (s : State) (n i : Nat) (f : Warp → Warp) : (s.modWarp n i f).tick = s.tick := rfl
@[simp] theorem State.modWarp_turns (s : State) (n i : Nat) (f : Warp → Warp) : (s.modWarp n i f).turns = s.turns := rfl
@[simp] theorem State.modWarp_cur (s : State) (n i : Nat) (f : Warp → Warp) : (s.modWarp n i f).cur = s.cur := rfl
@[simp] theorem State.modWarp_fresh (s : State) (n i : Nat) (f : Warp → Warp) : (s.modWarp n i f).fresh = s.fresh := rfl

/-! ### `State.setCore` -/

@[simp] theorem State.setCore_nPkg (s : State) (n : Nat) (c : Core) : (s.setCore n c).nPkg = s.nPkg := rfl
@[simp] theorem State.setCore_retired (s : State) (n : Nat) (c : Core) : (s.setCore n c).retired = s.retired := rfl
@[simp] theorem State.setCore_mem (s : State) (n : Nat) (c : Core) : (s.setCore n c).mem = s.mem := rfl
@[simp] theorem State.setCore_hostMem (s : State) (n : Nat) (c : Core) : (s.setCore n c).hostMem = s.hostMem := rfl
@[simp] theorem State.setCore_past (s : State) (n : Nat) (c : Core) : (s.setCore n c).past = s.past := rfl
@[simp] theorem State.setCore_poison (s : State) (n : Nat) (c : Core) : (s.setCore n c).poison = s.poison := rfl
@[simp] theorem State.setCore_bias (s : State) (n : Nat) (c : Core) : (s.setCore n c).bias = s.bias := rfl
@[simp] theorem State.setCore_flips (s : State) (n : Nat) (c : Core) : (s.setCore n c).flips = s.flips := rfl
@[simp] theorem State.setCore_kernels (s : State) (n : Nat) (c : Core) : (s.setCore n c).kernels = s.kernels := rfl
@[simp] theorem State.setCore_nextInst (s : State) (n : Nat) (c : Core) : (s.setCore n c).nextInst = s.nextInst := rfl
@[simp] theorem State.setCore_wgs (s : State) (n : Nat) (c : Core) : (s.setCore n c).wgs = s.wgs := rfl
@[simp] theorem State.setCore_nets (s : State) (n : Nat) (c : Core) : (s.setCore n c).nets = s.nets := rfl
@[simp] theorem State.setCore_netMail (s : State) (n : Nat) (c : Core) : (s.setCore n c).netMail = s.netMail := rfl
@[simp] theorem State.setCore_dies (s : State) (n : Nat) (c : Core) : (s.setCore n c).dies = s.dies := rfl
@[simp] theorem State.setCore_spires (s : State) (n : Nat) (c : Core) : (s.setCore n c).spires = s.spires := rfl
@[simp] theorem State.setCore_pkgs (s : State) (n : Nat) (c : Core) : (s.setCore n c).pkgs = s.pkgs := rfl
@[simp] theorem State.setCore_time (s : State) (n : Nat) (c : Core) : (s.setCore n c).time = s.time := rfl
@[simp] theorem State.setCore_hostRead (s : State) (n : Nat) (c : Core) : (s.setCore n c).hostRead = s.hostRead := rfl
@[simp] theorem State.setCore_count (s : State) (n : Nat) (c : Core) : (s.setCore n c).count = s.count := rfl
@[simp] theorem State.setCore_tick (s : State) (n : Nat) (c : Core) : (s.setCore n c).tick = s.tick := rfl
@[simp] theorem State.setCore_turns (s : State) (n : Nat) (c : Core) : (s.setCore n c).turns = s.turns := rfl
@[simp] theorem State.setCore_cur (s : State) (n : Nat) (c : Core) : (s.setCore n c).cur = s.cur := rfl
@[simp] theorem State.setCore_fresh (s : State) (n : Nat) (c : Core) : (s.setCore n c).fresh = s.fresh := rfl

/-! ### `State.modCore` -/

@[simp] theorem State.modCore_nPkg (s : State) (n : Nat) (f : Core → Core) : (s.modCore n f).nPkg = s.nPkg := rfl
@[simp] theorem State.modCore_retired (s : State) (n : Nat) (f : Core → Core) : (s.modCore n f).retired = s.retired := rfl
@[simp] theorem State.modCore_mem (s : State) (n : Nat) (f : Core → Core) : (s.modCore n f).mem = s.mem := rfl
@[simp] theorem State.modCore_hostMem (s : State) (n : Nat) (f : Core → Core) : (s.modCore n f).hostMem = s.hostMem := rfl
@[simp] theorem State.modCore_past (s : State) (n : Nat) (f : Core → Core) : (s.modCore n f).past = s.past := rfl
@[simp] theorem State.modCore_poison (s : State) (n : Nat) (f : Core → Core) : (s.modCore n f).poison = s.poison := rfl
@[simp] theorem State.modCore_bias (s : State) (n : Nat) (f : Core → Core) : (s.modCore n f).bias = s.bias := rfl
@[simp] theorem State.modCore_flips (s : State) (n : Nat) (f : Core → Core) : (s.modCore n f).flips = s.flips := rfl
@[simp] theorem State.modCore_kernels (s : State) (n : Nat) (f : Core → Core) : (s.modCore n f).kernels = s.kernels := rfl
@[simp] theorem State.modCore_nextInst (s : State) (n : Nat) (f : Core → Core) : (s.modCore n f).nextInst = s.nextInst := rfl
@[simp] theorem State.modCore_wgs (s : State) (n : Nat) (f : Core → Core) : (s.modCore n f).wgs = s.wgs := rfl
@[simp] theorem State.modCore_nets (s : State) (n : Nat) (f : Core → Core) : (s.modCore n f).nets = s.nets := rfl
@[simp] theorem State.modCore_netMail (s : State) (n : Nat) (f : Core → Core) : (s.modCore n f).netMail = s.netMail := rfl
@[simp] theorem State.modCore_dies (s : State) (n : Nat) (f : Core → Core) : (s.modCore n f).dies = s.dies := rfl
@[simp] theorem State.modCore_spires (s : State) (n : Nat) (f : Core → Core) : (s.modCore n f).spires = s.spires := rfl
@[simp] theorem State.modCore_pkgs (s : State) (n : Nat) (f : Core → Core) : (s.modCore n f).pkgs = s.pkgs := rfl
@[simp] theorem State.modCore_time (s : State) (n : Nat) (f : Core → Core) : (s.modCore n f).time = s.time := rfl
@[simp] theorem State.modCore_hostRead (s : State) (n : Nat) (f : Core → Core) : (s.modCore n f).hostRead = s.hostRead := rfl
@[simp] theorem State.modCore_count (s : State) (n : Nat) (f : Core → Core) : (s.modCore n f).count = s.count := rfl
@[simp] theorem State.modCore_tick (s : State) (n : Nat) (f : Core → Core) : (s.modCore n f).tick = s.tick := rfl
@[simp] theorem State.modCore_turns (s : State) (n : Nat) (f : Core → Core) : (s.modCore n f).turns = s.turns := rfl
@[simp] theorem State.modCore_cur (s : State) (n : Nat) (f : Core → Core) : (s.modCore n f).cur = s.cur := rfl
@[simp] theorem State.modCore_fresh (s : State) (n : Nat) (f : Core → Core) : (s.modCore n f).fresh = s.fresh := rfl

/-! ### `State.setDie` -/

@[simp] theorem State.setDie_nPkg (s : State) (n : Nat) (d : Die) : (s.setDie n d).nPkg = s.nPkg := rfl
@[simp] theorem State.setDie_retired (s : State) (n : Nat) (d : Die) : (s.setDie n d).retired = s.retired := rfl
@[simp] theorem State.setDie_mem (s : State) (n : Nat) (d : Die) : (s.setDie n d).mem = s.mem := rfl
@[simp] theorem State.setDie_hostMem (s : State) (n : Nat) (d : Die) : (s.setDie n d).hostMem = s.hostMem := rfl
@[simp] theorem State.setDie_past (s : State) (n : Nat) (d : Die) : (s.setDie n d).past = s.past := rfl
@[simp] theorem State.setDie_poison (s : State) (n : Nat) (d : Die) : (s.setDie n d).poison = s.poison := rfl
@[simp] theorem State.setDie_bias (s : State) (n : Nat) (d : Die) : (s.setDie n d).bias = s.bias := rfl
@[simp] theorem State.setDie_flips (s : State) (n : Nat) (d : Die) : (s.setDie n d).flips = s.flips := rfl
@[simp] theorem State.setDie_kernels (s : State) (n : Nat) (d : Die) : (s.setDie n d).kernels = s.kernels := rfl
@[simp] theorem State.setDie_nextInst (s : State) (n : Nat) (d : Die) : (s.setDie n d).nextInst = s.nextInst := rfl
@[simp] theorem State.setDie_wgs (s : State) (n : Nat) (d : Die) : (s.setDie n d).wgs = s.wgs := rfl
@[simp] theorem State.setDie_nets (s : State) (n : Nat) (d : Die) : (s.setDie n d).nets = s.nets := rfl
@[simp] theorem State.setDie_netMail (s : State) (n : Nat) (d : Die) : (s.setDie n d).netMail = s.netMail := rfl
@[simp] theorem State.setDie_cores (s : State) (n : Nat) (d : Die) : (s.setDie n d).cores = s.cores := rfl
@[simp] theorem State.setDie_spires (s : State) (n : Nat) (d : Die) : (s.setDie n d).spires = s.spires := rfl
@[simp] theorem State.setDie_pkgs (s : State) (n : Nat) (d : Die) : (s.setDie n d).pkgs = s.pkgs := rfl
@[simp] theorem State.setDie_time (s : State) (n : Nat) (d : Die) : (s.setDie n d).time = s.time := rfl
@[simp] theorem State.setDie_hostRead (s : State) (n : Nat) (d : Die) : (s.setDie n d).hostRead = s.hostRead := rfl
@[simp] theorem State.setDie_count (s : State) (n : Nat) (d : Die) : (s.setDie n d).count = s.count := rfl
@[simp] theorem State.setDie_tick (s : State) (n : Nat) (d : Die) : (s.setDie n d).tick = s.tick := rfl
@[simp] theorem State.setDie_turns (s : State) (n : Nat) (d : Die) : (s.setDie n d).turns = s.turns := rfl
@[simp] theorem State.setDie_cur (s : State) (n : Nat) (d : Die) : (s.setDie n d).cur = s.cur := rfl
@[simp] theorem State.setDie_fresh (s : State) (n : Nat) (d : Die) : (s.setDie n d).fresh = s.fresh := rfl

/-! ### `State.modDie` -/

@[simp] theorem State.modDie_nPkg (s : State) (n : Nat) (f : Die → Die) : (s.modDie n f).nPkg = s.nPkg := rfl
@[simp] theorem State.modDie_retired (s : State) (n : Nat) (f : Die → Die) : (s.modDie n f).retired = s.retired := rfl
@[simp] theorem State.modDie_mem (s : State) (n : Nat) (f : Die → Die) : (s.modDie n f).mem = s.mem := rfl
@[simp] theorem State.modDie_hostMem (s : State) (n : Nat) (f : Die → Die) : (s.modDie n f).hostMem = s.hostMem := rfl
@[simp] theorem State.modDie_past (s : State) (n : Nat) (f : Die → Die) : (s.modDie n f).past = s.past := rfl
@[simp] theorem State.modDie_poison (s : State) (n : Nat) (f : Die → Die) : (s.modDie n f).poison = s.poison := rfl
@[simp] theorem State.modDie_bias (s : State) (n : Nat) (f : Die → Die) : (s.modDie n f).bias = s.bias := rfl
@[simp] theorem State.modDie_flips (s : State) (n : Nat) (f : Die → Die) : (s.modDie n f).flips = s.flips := rfl
@[simp] theorem State.modDie_kernels (s : State) (n : Nat) (f : Die → Die) : (s.modDie n f).kernels = s.kernels := rfl
@[simp] theorem State.modDie_nextInst (s : State) (n : Nat) (f : Die → Die) : (s.modDie n f).nextInst = s.nextInst := rfl
@[simp] theorem State.modDie_wgs (s : State) (n : Nat) (f : Die → Die) : (s.modDie n f).wgs = s.wgs := rfl
@[simp] theorem State.modDie_nets (s : State) (n : Nat) (f : Die → Die) : (s.modDie n f).nets = s.nets := rfl
@[simp] theorem State.modDie_netMail (s : State) (n : Nat) (f : Die → Die) : (s.modDie n f).netMail = s.netMail := rfl
@[simp] theorem State.modDie_cores (s : State) (n : Nat) (f : Die → Die) : (s.modDie n f).cores = s.cores := rfl
@[simp] theorem State.modDie_spires (s : State) (n : Nat) (f : Die → Die) : (s.modDie n f).spires = s.spires := rfl
@[simp] theorem State.modDie_pkgs (s : State) (n : Nat) (f : Die → Die) : (s.modDie n f).pkgs = s.pkgs := rfl
@[simp] theorem State.modDie_time (s : State) (n : Nat) (f : Die → Die) : (s.modDie n f).time = s.time := rfl
@[simp] theorem State.modDie_hostRead (s : State) (n : Nat) (f : Die → Die) : (s.modDie n f).hostRead = s.hostRead := rfl
@[simp] theorem State.modDie_count (s : State) (n : Nat) (f : Die → Die) : (s.modDie n f).count = s.count := rfl
@[simp] theorem State.modDie_tick (s : State) (n : Nat) (f : Die → Die) : (s.modDie n f).tick = s.tick := rfl
@[simp] theorem State.modDie_turns (s : State) (n : Nat) (f : Die → Die) : (s.modDie n f).turns = s.turns := rfl
@[simp] theorem State.modDie_cur (s : State) (n : Nat) (f : Die → Die) : (s.modDie n f).cur = s.cur := rfl
@[simp] theorem State.modDie_fresh (s : State) (n : Nat) (f : Die → Die) : (s.modDie n f).fresh = s.fresh := rfl

/-! ### `State.modSpire` -/

@[simp] theorem State.modSpire_nPkg (s : State) (n : Nat) (f : Spire → Spire) : (s.modSpire n f).nPkg = s.nPkg := rfl
@[simp] theorem State.modSpire_retired (s : State) (n : Nat) (f : Spire → Spire) : (s.modSpire n f).retired = s.retired := rfl
@[simp] theorem State.modSpire_mem (s : State) (n : Nat) (f : Spire → Spire) : (s.modSpire n f).mem = s.mem := rfl
@[simp] theorem State.modSpire_hostMem (s : State) (n : Nat) (f : Spire → Spire) : (s.modSpire n f).hostMem = s.hostMem := rfl
@[simp] theorem State.modSpire_past (s : State) (n : Nat) (f : Spire → Spire) : (s.modSpire n f).past = s.past := rfl
@[simp] theorem State.modSpire_poison (s : State) (n : Nat) (f : Spire → Spire) : (s.modSpire n f).poison = s.poison := rfl
@[simp] theorem State.modSpire_bias (s : State) (n : Nat) (f : Spire → Spire) : (s.modSpire n f).bias = s.bias := rfl
@[simp] theorem State.modSpire_flips (s : State) (n : Nat) (f : Spire → Spire) : (s.modSpire n f).flips = s.flips := rfl
@[simp] theorem State.modSpire_kernels (s : State) (n : Nat) (f : Spire → Spire) : (s.modSpire n f).kernels = s.kernels := rfl
@[simp] theorem State.modSpire_nextInst (s : State) (n : Nat) (f : Spire → Spire) : (s.modSpire n f).nextInst = s.nextInst := rfl
@[simp] theorem State.modSpire_wgs (s : State) (n : Nat) (f : Spire → Spire) : (s.modSpire n f).wgs = s.wgs := rfl
@[simp] theorem State.modSpire_nets (s : State) (n : Nat) (f : Spire → Spire) : (s.modSpire n f).nets = s.nets := rfl
@[simp] theorem State.modSpire_netMail (s : State) (n : Nat) (f : Spire → Spire) : (s.modSpire n f).netMail = s.netMail := rfl
@[simp] theorem State.modSpire_cores (s : State) (n : Nat) (f : Spire → Spire) : (s.modSpire n f).cores = s.cores := rfl
@[simp] theorem State.modSpire_dies (s : State) (n : Nat) (f : Spire → Spire) : (s.modSpire n f).dies = s.dies := rfl
@[simp] theorem State.modSpire_pkgs (s : State) (n : Nat) (f : Spire → Spire) : (s.modSpire n f).pkgs = s.pkgs := rfl
@[simp] theorem State.modSpire_time (s : State) (n : Nat) (f : Spire → Spire) : (s.modSpire n f).time = s.time := rfl
@[simp] theorem State.modSpire_hostRead (s : State) (n : Nat) (f : Spire → Spire) : (s.modSpire n f).hostRead = s.hostRead := rfl
@[simp] theorem State.modSpire_count (s : State) (n : Nat) (f : Spire → Spire) : (s.modSpire n f).count = s.count := rfl
@[simp] theorem State.modSpire_tick (s : State) (n : Nat) (f : Spire → Spire) : (s.modSpire n f).tick = s.tick := rfl
@[simp] theorem State.modSpire_turns (s : State) (n : Nat) (f : Spire → Spire) : (s.modSpire n f).turns = s.turns := rfl
@[simp] theorem State.modSpire_cur (s : State) (n : Nat) (f : Spire → Spire) : (s.modSpire n f).cur = s.cur := rfl
@[simp] theorem State.modSpire_fresh (s : State) (n : Nat) (f : Spire → Spire) : (s.modSpire n f).fresh = s.fresh := rfl

/-! ### `State.modPkg` -/

@[simp] theorem State.modPkg_nPkg (s : State) (n : Nat) (f : Pkg → Pkg) : (s.modPkg n f).nPkg = s.nPkg := rfl
@[simp] theorem State.modPkg_retired (s : State) (n : Nat) (f : Pkg → Pkg) : (s.modPkg n f).retired = s.retired := rfl
@[simp] theorem State.modPkg_mem (s : State) (n : Nat) (f : Pkg → Pkg) : (s.modPkg n f).mem = s.mem := rfl
@[simp] theorem State.modPkg_hostMem (s : State) (n : Nat) (f : Pkg → Pkg) : (s.modPkg n f).hostMem = s.hostMem := rfl
@[simp] theorem State.modPkg_past (s : State) (n : Nat) (f : Pkg → Pkg) : (s.modPkg n f).past = s.past := rfl
@[simp] theorem State.modPkg_poison (s : State) (n : Nat) (f : Pkg → Pkg) : (s.modPkg n f).poison = s.poison := rfl
@[simp] theorem State.modPkg_bias (s : State) (n : Nat) (f : Pkg → Pkg) : (s.modPkg n f).bias = s.bias := rfl
@[simp] theorem State.modPkg_flips (s : State) (n : Nat) (f : Pkg → Pkg) : (s.modPkg n f).flips = s.flips := rfl
@[simp] theorem State.modPkg_kernels (s : State) (n : Nat) (f : Pkg → Pkg) : (s.modPkg n f).kernels = s.kernels := rfl
@[simp] theorem State.modPkg_nextInst (s : State) (n : Nat) (f : Pkg → Pkg) : (s.modPkg n f).nextInst = s.nextInst := rfl
@[simp] theorem State.modPkg_wgs (s : State) (n : Nat) (f : Pkg → Pkg) : (s.modPkg n f).wgs = s.wgs := rfl
@[simp] theorem State.modPkg_nets (s : State) (n : Nat) (f : Pkg → Pkg) : (s.modPkg n f).nets = s.nets := rfl
@[simp] theorem State.modPkg_netMail (s : State) (n : Nat) (f : Pkg → Pkg) : (s.modPkg n f).netMail = s.netMail := rfl
@[simp] theorem State.modPkg_cores (s : State) (n : Nat) (f : Pkg → Pkg) : (s.modPkg n f).cores = s.cores := rfl
@[simp] theorem State.modPkg_dies (s : State) (n : Nat) (f : Pkg → Pkg) : (s.modPkg n f).dies = s.dies := rfl
@[simp] theorem State.modPkg_spires (s : State) (n : Nat) (f : Pkg → Pkg) : (s.modPkg n f).spires = s.spires := rfl
@[simp] theorem State.modPkg_time (s : State) (n : Nat) (f : Pkg → Pkg) : (s.modPkg n f).time = s.time := rfl
@[simp] theorem State.modPkg_hostRead (s : State) (n : Nat) (f : Pkg → Pkg) : (s.modPkg n f).hostRead = s.hostRead := rfl
@[simp] theorem State.modPkg_count (s : State) (n : Nat) (f : Pkg → Pkg) : (s.modPkg n f).count = s.count := rfl
@[simp] theorem State.modPkg_tick (s : State) (n : Nat) (f : Pkg → Pkg) : (s.modPkg n f).tick = s.tick := rfl
@[simp] theorem State.modPkg_turns (s : State) (n : Nat) (f : Pkg → Pkg) : (s.modPkg n f).turns = s.turns := rfl
@[simp] theorem State.modPkg_cur (s : State) (n : Nat) (f : Pkg → Pkg) : (s.modPkg n f).cur = s.cur := rfl
@[simp] theorem State.modPkg_fresh (s : State) (n : Nat) (f : Pkg → Pkg) : (s.modPkg n f).fresh = s.fresh := rfl

/-! ### `Wg.modWarp` -/

@[simp] theorem Wg.modWarp_inst (g : Wg) (i : Nat) (f : Warp → Warp) : (g.modWarp i f).inst = g.inst := rfl
@[simp] theorem Wg.modWarp_g (g : Wg) (i : Nat) (f : Warp → Warp) : (g.modWarp i f).g = g.g := rfl
@[simp] theorem Wg.modWarp_core (g : Wg) (i : Nat) (f : Warp → Warp) : (g.modWarp i f).core = g.core := rfl
@[simp] theorem Wg.modWarp_st (g : Wg) (i : Nat) (f : Warp → Warp) : (g.modWarp i f).st = g.st := rfl
@[simp] theorem Wg.modWarp_order (g : Wg) (i : Nat) (f : Warp → Warp) : (g.modWarp i f).order = g.order := rfl
@[simp] theorem Wg.modWarp_off (g : Wg) (i : Nat) (f : Warp → Warp) : (g.modWarp i f).off = g.off := rfl
@[simp] theorem Wg.modWarp_mem (g : Wg) (i : Nat) (f : Warp → Warp) : (g.modWarp i f).mem = g.mem := rfl
@[simp] theorem Wg.modWarp_locUnits (g : Wg) (i : Nat) (f : Warp → Warp) : (g.modWarp i f).locUnits = g.locUnits := rfl
@[simp] theorem Wg.modWarp_stash (g : Wg) (i : Nat) (f : Warp → Warp) : (g.modWarp i f).stash = g.stash := rfl
@[simp] theorem Wg.modWarp_tiles (g : Wg) (i : Nat) (f : Warp → Warp) : (g.modWarp i f).tiles = g.tiles := rfl
@[simp] theorem Wg.modWarp_accs (g : Wg) (i : Nat) (f : Warp → Warp) : (g.modWarp i f).accs = g.accs := rfl
@[simp] theorem Wg.modWarp_bars (g : Wg) (i : Nat) (f : Warp → Warp) : (g.modWarp i f).bars = g.bars := rfl
@[simp] theorem Wg.modWarp_cmds (g : Wg) (i : Nat) (f : Warp → Warp) : (g.modWarp i f).cmds = g.cmds := rfl
@[simp] theorem Wg.modWarp_grps (g : Wg) (i : Nat) (f : Warp → Warp) : (g.modWarp i f).grps = g.grps := rfl
@[simp] theorem Wg.modWarp_posted (g : Wg) (i : Nat) (f : Warp → Warp) : (g.modWarp i f).posted = g.posted := rfl
@[simp] theorem Wg.modWarp_done (g : Wg) (i : Nat) (f : Warp → Warp) : (g.modWarp i f).done = g.done := rfl
@[simp] theorem Wg.modWarp_flt (g : Wg) (i : Nat) (f : Warp → Warp) : (g.modWarp i f).flt = g.flt := rfl
@[simp] theorem Wg.modWarp_claim (g : Wg) (i : Nat) (f : Warp → Warp) : (g.modWarp i f).claim = g.claim := rfl
@[simp] theorem Wg.modWarp_aqIssued (g : Wg) (i : Nat) (f : Warp → Warp) : (g.modWarp i f).aqIssued = g.aqIssued := rfl
@[simp] theorem Wg.modWarp_aqs (g : Wg) (i : Nat) (f : Warp → Warp) : (g.modWarp i f).aqs = g.aqs := rfl
@[simp] theorem Wg.modWarp_stopAt (g : Wg) (i : Nat) (f : Warp → Warp) : (g.modWarp i f).stopAt = g.stopAt := rfl
@[simp] theorem Wg.modWarp_unfit (g : Wg) (i : Nat) (f : Warp → Warp) : (g.modWarp i f).unfit = g.unfit := rfl
@[simp] theorem Wg.modWarp_killed (g : Wg) (i : Nat) (f : Warp → Warp) : (g.modWarp i f).killed = g.killed := rfl
@[simp] theorem Wg.modWarp_faulted (g : Wg) (i : Nat) (f : Warp → Warp) : (g.modWarp i f).faulted = g.faulted := rfl
@[simp] theorem Wg.modWarp_image (g : Wg) (i : Nat) (f : Warp → Warp) : (g.modWarp i f).image = g.image := rfl
@[simp] theorem Wg.modWarp_heldMatrix (g : Wg) (i : Nat) (f : Warp → Warp) : (g.modWarp i f).heldMatrix = g.heldMatrix := rfl
@[simp] theorem Wg.modWarp_savedSeq (g : Wg) (i : Nat) (f : Warp → Warp) : (g.modWarp i f).savedSeq = g.savedSeq := rfl
@[simp] theorem Wg.modWarp_savedGrid (g : Wg) (i : Nat) (f : Warp → Warp) : (g.modWarp i f).savedGrid = g.savedGrid := rfl
@[simp] theorem Wg.modWarp_savedKey (g : Wg) (i : Nat) (f : Warp → Warp) : (g.modWarp i f).savedKey = g.savedKey := rfl

/-! ### `Warp.vset` -/

@[simp] theorem Warp.vset_width (w : Warp) (n l : Nat) (x : Word) : (w.vset n l x).width = w.width := rfl
@[simp] theorem Warp.vset_ctx0 (w : Warp) (n l : Nat) (x : Word) : (w.vset n l x).ctx0 = w.ctx0 := rfl
@[simp] theorem Warp.vset_live (w : Warp) (n l : Nat) (x : Word) : (w.vset n l x).live = w.live := rfl
@[simp] theorem Warp.vset_front (w : Warp) (n l : Nat) (x : Word) : (w.vset n l x).front = w.front := rfl
@[simp] theorem Warp.vset_parked (w : Warp) (n l : Nat) (x : Word) : (w.vset n l x).parked = w.parked := rfl
@[simp] theorem Warp.vset_blocked (w : Warp) (n l : Nat) (x : Word) : (w.vset n l x).blocked = w.blocked := rfl
@[simp] theorem Warp.vset_issues (w : Warp) (n l : Nat) (x : Word) : (w.vset n l x).issues = w.issues := rfl
@[simp] theorem Warp.vset_s (w : Warp) (n l : Nat) (x : Word) : (w.vset n l x).s = w.s := rfl
@[simp] theorem Warp.vset_p (w : Warp) (n l : Nat) (x : Word) : (w.vset n l x).p = w.p := rfl
@[simp] theorem Warp.vset_k (w : Warp) (n l : Nat) (x : Word) : (w.vset n l x).k = w.k := rfl
@[simp] theorem Warp.vset_x (w : Warp) (n l : Nat) (x : Word) : (w.vset n l x).x = w.x := rfl
@[simp] theorem Warp.vset_frm (w : Warp) (n l : Nat) (x : Word) : (w.vset n l x).frm = w.frm := rfl
@[simp] theorem Warp.vset_flg (w : Warp) (n l : Nat) (x : Word) : (w.vset n l x).flg = w.flg := rfl
@[simp] theorem Warp.vset_fte (w : Warp) (n l : Nat) (x : Word) : (w.vset n l x).fte = w.fte := rfl
@[simp] theorem Warp.vset_rkey (w : Warp) (n l : Nat) (x : Word) : (w.vset n l x).rkey = w.rkey := rfl
@[simp] theorem Warp.vset_rctr (w : Warp) (n l : Nat) (x : Word) : (w.vset n l x).rctr = w.rctr := rfl
@[simp] theorem Warp.vset_ph (w : Warp) (n l : Nat) (x : Word) : (w.vset n l x).ph = w.ph := rfl
@[simp] theorem Warp.vset_hcnt (w : Warp) (n l : Nat) (x : Word) : (w.vset n l x).hcnt = w.hcnt := rfl
@[simp] theorem Warp.vset_hmode (w : Warp) (n l : Nat) (x : Word) : (w.vset n l x).hmode = w.hmode := rfl
@[simp] theorem Warp.vset_tfaddr (w : Warp) (n l : Nat) (x : Word) : (w.vset n l x).tfaddr = w.tfaddr := rfl
@[simp] theorem Warp.vset_clkHi (w : Warp) (n l : Nat) (x : Word) : (w.vset n l x).clkHi = w.clkHi := rfl
@[simp] theorem Warp.vset_tpnd (w : Warp) (n l : Nat) (x : Word) : (w.vset n l x).tpnd = w.tpnd := rfl
@[simp] theorem Warp.vset_step (w : Warp) (n l : Nat) (x : Word) : (w.vset n l x).step = w.step := rfl
@[simp] theorem Warp.vset_stepDue (w : Warp) (n l : Nat) (x : Word) : (w.vset n l x).stepDue = w.stepDue := rfl
@[simp] theorem Warp.vset_watchBase (w : Warp) (n l : Nat) (x : Word) : (w.vset n l x).watchBase = w.watchBase := rfl
@[simp] theorem Warp.vset_watchLen (w : Warp) (n l : Nat) (x : Word) : (w.vset n l x).watchLen = w.watchLen := rfl
@[simp] theorem Warp.vset_dfr (w : Warp) (n l : Nat) (x : Word) : (w.vset n l x).dfr = w.dfr := rfl
@[simp] theorem Warp.vset_lost (w : Warp) (n l : Nat) (x : Word) : (w.vset n l x).lost = w.lost := rfl
@[simp] theorem Warp.vset_hold (w : Warp) (n l : Nat) (x : Word) : (w.vset n l x).hold = w.hold := rfl
@[simp] theorem Warp.vset_walked (w : Warp) (n l : Nat) (x : Word) : (w.vset n l x).walked = w.walked := rfl
@[simp] theorem Warp.vset_latched (w : Warp) (n l : Nat) (x : Word) : (w.vset n l x).latched = w.latched := rfl
@[simp] theorem Warp.vset_await (w : Warp) (n l : Nat) (x : Word) : (w.vset n l x).await = w.await := rfl
@[simp] theorem Warp.vset_seqFlags (w : Warp) (n l : Nat) (x : Word) : (w.vset n l x).seqFlags = w.seqFlags := rfl
@[simp] theorem Warp.vset_stUntil (w : Warp) (n l : Nat) (x : Word) : (w.vset n l x).stUntil = w.stUntil := rfl
@[simp] theorem Warp.vset_sleepUntil (w : Warp) (n l : Nat) (x : Word) : (w.vset n l x).sleepUntil = w.sleepUntil := rfl
@[simp] theorem Warp.vset_readySince (w : Warp) (n l : Nat) (x : Word) : (w.vset n l x).readySince = w.readySince := rfl
@[simp] theorem Warp.vset_passOver (w : Warp) (n l : Nat) (x : Word) : (w.vset n l x).passOver = w.passOver := rfl
@[simp] theorem Warp.vset_ppt (w : Warp) (n l : Nat) (x : Word) : (w.vset n l x).ppt = w.ppt := rfl
@[simp] theorem Warp.vset_yielded (w : Warp) (n l : Nat) (x : Word) : (w.vset n l x).yielded = w.yielded := rfl
@[simp] theorem Warp.vset_due (w : Warp) (n l : Nat) (x : Word) : (w.vset n l x).due = w.due := rfl
@[simp] theorem Warp.vset_entry (w : Warp) (n l : Nat) (x : Word) : (w.vset n l x).entry = w.entry := rfl
@[simp] theorem Warp.vset_kept (w : Warp) (n l : Nat) (x : Word) : (w.vset n l x).kept = w.kept := rfl
@[simp] theorem Warp.vset_rseq (w : Warp) (n l : Nat) (x : Word) : (w.vset n l x).rseq = w.rseq := rfl
@[simp] theorem Warp.vset_keyMade (w : Warp) (n l : Nat) (x : Word) : (w.vset n l x).keyMade = w.keyMade := rfl
@[simp] theorem Warp.vset_keyKept (w : Warp) (n l : Nat) (x : Word) : (w.vset n l x).keyKept = w.keyKept := rfl
@[simp] theorem Warp.vset_logSeq (w : Warp) (n l : Nat) (x : Word) : (w.vset n l x).logSeq = w.logSeq := rfl
@[simp] theorem Warp.vset_floor (w : Warp) (n l : Nat) (x : Word) : (w.vset n l x).floor = w.floor := rfl

/-! ### `Warp.sset` -/

@[simp] theorem Warp.sset_width (w : Warp) (n : Nat) (x : Word) : (w.sset n x).width = w.width := rfl
@[simp] theorem Warp.sset_ctx0 (w : Warp) (n : Nat) (x : Word) : (w.sset n x).ctx0 = w.ctx0 := rfl
@[simp] theorem Warp.sset_live (w : Warp) (n : Nat) (x : Word) : (w.sset n x).live = w.live := rfl
@[simp] theorem Warp.sset_front (w : Warp) (n : Nat) (x : Word) : (w.sset n x).front = w.front := rfl
@[simp] theorem Warp.sset_parked (w : Warp) (n : Nat) (x : Word) : (w.sset n x).parked = w.parked := rfl
@[simp] theorem Warp.sset_blocked (w : Warp) (n : Nat) (x : Word) : (w.sset n x).blocked = w.blocked := rfl
@[simp] theorem Warp.sset_issues (w : Warp) (n : Nat) (x : Word) : (w.sset n x).issues = w.issues := rfl
@[simp] theorem Warp.sset_v (w : Warp) (n : Nat) (x : Word) : (w.sset n x).v = w.v := rfl
@[simp] theorem Warp.sset_p (w : Warp) (n : Nat) (x : Word) : (w.sset n x).p = w.p := rfl
@[simp] theorem Warp.sset_k (w : Warp) (n : Nat) (x : Word) : (w.sset n x).k = w.k := rfl
@[simp] theorem Warp.sset_x (w : Warp) (n : Nat) (x : Word) : (w.sset n x).x = w.x := rfl
@[simp] theorem Warp.sset_frm (w : Warp) (n : Nat) (x : Word) : (w.sset n x).frm = w.frm := rfl
@[simp] theorem Warp.sset_flg (w : Warp) (n : Nat) (x : Word) : (w.sset n x).flg = w.flg := rfl
@[simp] theorem Warp.sset_fte (w : Warp) (n : Nat) (x : Word) : (w.sset n x).fte = w.fte := rfl
@[simp] theorem Warp.sset_rkey (w : Warp) (n : Nat) (x : Word) : (w.sset n x).rkey = w.rkey := rfl
@[simp] theorem Warp.sset_rctr (w : Warp) (n : Nat) (x : Word) : (w.sset n x).rctr = w.rctr := rfl
@[simp] theorem Warp.sset_ph (w : Warp) (n : Nat) (x : Word) : (w.sset n x).ph = w.ph := rfl
@[simp] theorem Warp.sset_hcnt (w : Warp) (n : Nat) (x : Word) : (w.sset n x).hcnt = w.hcnt := rfl
@[simp] theorem Warp.sset_hmode (w : Warp) (n : Nat) (x : Word) : (w.sset n x).hmode = w.hmode := rfl
@[simp] theorem Warp.sset_tfaddr (w : Warp) (n : Nat) (x : Word) : (w.sset n x).tfaddr = w.tfaddr := rfl
@[simp] theorem Warp.sset_clkHi (w : Warp) (n : Nat) (x : Word) : (w.sset n x).clkHi = w.clkHi := rfl
@[simp] theorem Warp.sset_tpnd (w : Warp) (n : Nat) (x : Word) : (w.sset n x).tpnd = w.tpnd := rfl
@[simp] theorem Warp.sset_step (w : Warp) (n : Nat) (x : Word) : (w.sset n x).step = w.step := rfl
@[simp] theorem Warp.sset_stepDue (w : Warp) (n : Nat) (x : Word) : (w.sset n x).stepDue = w.stepDue := rfl
@[simp] theorem Warp.sset_watchBase (w : Warp) (n : Nat) (x : Word) : (w.sset n x).watchBase = w.watchBase := rfl
@[simp] theorem Warp.sset_watchLen (w : Warp) (n : Nat) (x : Word) : (w.sset n x).watchLen = w.watchLen := rfl
@[simp] theorem Warp.sset_dfr (w : Warp) (n : Nat) (x : Word) : (w.sset n x).dfr = w.dfr := rfl
@[simp] theorem Warp.sset_lost (w : Warp) (n : Nat) (x : Word) : (w.sset n x).lost = w.lost := rfl
@[simp] theorem Warp.sset_hold (w : Warp) (n : Nat) (x : Word) : (w.sset n x).hold = w.hold := rfl
@[simp] theorem Warp.sset_walked (w : Warp) (n : Nat) (x : Word) : (w.sset n x).walked = w.walked := rfl
@[simp] theorem Warp.sset_latched (w : Warp) (n : Nat) (x : Word) : (w.sset n x).latched = w.latched := rfl
@[simp] theorem Warp.sset_await (w : Warp) (n : Nat) (x : Word) : (w.sset n x).await = w.await := rfl
@[simp] theorem Warp.sset_seqFlags (w : Warp) (n : Nat) (x : Word) : (w.sset n x).seqFlags = w.seqFlags := rfl
@[simp] theorem Warp.sset_stUntil (w : Warp) (n : Nat) (x : Word) : (w.sset n x).stUntil = w.stUntil := rfl
@[simp] theorem Warp.sset_sleepUntil (w : Warp) (n : Nat) (x : Word) : (w.sset n x).sleepUntil = w.sleepUntil := rfl
@[simp] theorem Warp.sset_readySince (w : Warp) (n : Nat) (x : Word) : (w.sset n x).readySince = w.readySince := rfl
@[simp] theorem Warp.sset_passOver (w : Warp) (n : Nat) (x : Word) : (w.sset n x).passOver = w.passOver := rfl
@[simp] theorem Warp.sset_ppt (w : Warp) (n : Nat) (x : Word) : (w.sset n x).ppt = w.ppt := rfl
@[simp] theorem Warp.sset_yielded (w : Warp) (n : Nat) (x : Word) : (w.sset n x).yielded = w.yielded := rfl
@[simp] theorem Warp.sset_due (w : Warp) (n : Nat) (x : Word) : (w.sset n x).due = w.due := rfl
@[simp] theorem Warp.sset_entry (w : Warp) (n : Nat) (x : Word) : (w.sset n x).entry = w.entry := rfl
@[simp] theorem Warp.sset_kept (w : Warp) (n : Nat) (x : Word) : (w.sset n x).kept = w.kept := rfl
@[simp] theorem Warp.sset_rseq (w : Warp) (n : Nat) (x : Word) : (w.sset n x).rseq = w.rseq := rfl
@[simp] theorem Warp.sset_keyMade (w : Warp) (n : Nat) (x : Word) : (w.sset n x).keyMade = w.keyMade := rfl
@[simp] theorem Warp.sset_keyKept (w : Warp) (n : Nat) (x : Word) : (w.sset n x).keyKept = w.keyKept := rfl
@[simp] theorem Warp.sset_logSeq (w : Warp) (n : Nat) (x : Word) : (w.sset n x).logSeq = w.logSeq := rfl
@[simp] theorem Warp.sset_floor (w : Warp) (n : Nat) (x : Word) : (w.sset n x).floor = w.floor := rfl

/-! ### `Warp.pset` -/

@[simp] theorem Warp.pset_width (w : Warp) (n : Nat) (lanes bits : Mask) : (w.pset n lanes bits).width = w.width := rfl
@[simp] theorem Warp.pset_ctx0 (w : Warp) (n : Nat) (lanes bits : Mask) : (w.pset n lanes bits).ctx0 = w.ctx0 := rfl
@[simp] theorem Warp.pset_live (w : Warp) (n : Nat) (lanes bits : Mask) : (w.pset n lanes bits).live = w.live := rfl
@[simp] theorem Warp.pset_front (w : Warp) (n : Nat) (lanes bits : Mask) : (w.pset n lanes bits).front = w.front := rfl
@[simp] theorem Warp.pset_parked (w : Warp) (n : Nat) (lanes bits : Mask) : (w.pset n lanes bits).parked = w.parked := rfl
@[simp] theorem Warp.pset_blocked (w : Warp) (n : Nat) (lanes bits : Mask) : (w.pset n lanes bits).blocked = w.blocked := rfl
@[simp] theorem Warp.pset_issues (w : Warp) (n : Nat) (lanes bits : Mask) : (w.pset n lanes bits).issues = w.issues := rfl
@[simp] theorem Warp.pset_v (w : Warp) (n : Nat) (lanes bits : Mask) : (w.pset n lanes bits).v = w.v := rfl
@[simp] theorem Warp.pset_s (w : Warp) (n : Nat) (lanes bits : Mask) : (w.pset n lanes bits).s = w.s := rfl
@[simp] theorem Warp.pset_k (w : Warp) (n : Nat) (lanes bits : Mask) : (w.pset n lanes bits).k = w.k := rfl
@[simp] theorem Warp.pset_x (w : Warp) (n : Nat) (lanes bits : Mask) : (w.pset n lanes bits).x = w.x := rfl
@[simp] theorem Warp.pset_frm (w : Warp) (n : Nat) (lanes bits : Mask) : (w.pset n lanes bits).frm = w.frm := rfl
@[simp] theorem Warp.pset_flg (w : Warp) (n : Nat) (lanes bits : Mask) : (w.pset n lanes bits).flg = w.flg := rfl
@[simp] theorem Warp.pset_fte (w : Warp) (n : Nat) (lanes bits : Mask) : (w.pset n lanes bits).fte = w.fte := rfl
@[simp] theorem Warp.pset_rkey (w : Warp) (n : Nat) (lanes bits : Mask) : (w.pset n lanes bits).rkey = w.rkey := rfl
@[simp] theorem Warp.pset_rctr (w : Warp) (n : Nat) (lanes bits : Mask) : (w.pset n lanes bits).rctr = w.rctr := rfl
@[simp] theorem Warp.pset_ph (w : Warp) (n : Nat) (lanes bits : Mask) : (w.pset n lanes bits).ph = w.ph := rfl
@[simp] theorem Warp.pset_hcnt (w : Warp) (n : Nat) (lanes bits : Mask) : (w.pset n lanes bits).hcnt = w.hcnt := rfl
@[simp] theorem Warp.pset_hmode (w : Warp) (n : Nat) (lanes bits : Mask) : (w.pset n lanes bits).hmode = w.hmode := rfl
@[simp] theorem Warp.pset_tfaddr (w : Warp) (n : Nat) (lanes bits : Mask) : (w.pset n lanes bits).tfaddr = w.tfaddr := rfl
@[simp] theorem Warp.pset_clkHi (w : Warp) (n : Nat) (lanes bits : Mask) : (w.pset n lanes bits).clkHi = w.clkHi := rfl
@[simp] theorem Warp.pset_tpnd (w : Warp) (n : Nat) (lanes bits : Mask) : (w.pset n lanes bits).tpnd = w.tpnd := rfl
@[simp] theorem Warp.pset_step (w : Warp) (n : Nat) (lanes bits : Mask) : (w.pset n lanes bits).step = w.step := rfl
@[simp] theorem Warp.pset_stepDue (w : Warp) (n : Nat) (lanes bits : Mask) : (w.pset n lanes bits).stepDue = w.stepDue := rfl
@[simp] theorem Warp.pset_watchBase (w : Warp) (n : Nat) (lanes bits : Mask) : (w.pset n lanes bits).watchBase = w.watchBase := rfl
@[simp] theorem Warp.pset_watchLen (w : Warp) (n : Nat) (lanes bits : Mask) : (w.pset n lanes bits).watchLen = w.watchLen := rfl
@[simp] theorem Warp.pset_dfr (w : Warp) (n : Nat) (lanes bits : Mask) : (w.pset n lanes bits).dfr = w.dfr := rfl
@[simp] theorem Warp.pset_lost (w : Warp) (n : Nat) (lanes bits : Mask) : (w.pset n lanes bits).lost = w.lost := rfl
@[simp] theorem Warp.pset_hold (w : Warp) (n : Nat) (lanes bits : Mask) : (w.pset n lanes bits).hold = w.hold := rfl
@[simp] theorem Warp.pset_walked (w : Warp) (n : Nat) (lanes bits : Mask) : (w.pset n lanes bits).walked = w.walked := rfl
@[simp] theorem Warp.pset_latched (w : Warp) (n : Nat) (lanes bits : Mask) : (w.pset n lanes bits).latched = w.latched := rfl
@[simp] theorem Warp.pset_await (w : Warp) (n : Nat) (lanes bits : Mask) : (w.pset n lanes bits).await = w.await := rfl
@[simp] theorem Warp.pset_seqFlags (w : Warp) (n : Nat) (lanes bits : Mask) : (w.pset n lanes bits).seqFlags = w.seqFlags := rfl
@[simp] theorem Warp.pset_stUntil (w : Warp) (n : Nat) (lanes bits : Mask) : (w.pset n lanes bits).stUntil = w.stUntil := rfl
@[simp] theorem Warp.pset_sleepUntil (w : Warp) (n : Nat) (lanes bits : Mask) : (w.pset n lanes bits).sleepUntil = w.sleepUntil := rfl
@[simp] theorem Warp.pset_readySince (w : Warp) (n : Nat) (lanes bits : Mask) : (w.pset n lanes bits).readySince = w.readySince := rfl
@[simp] theorem Warp.pset_passOver (w : Warp) (n : Nat) (lanes bits : Mask) : (w.pset n lanes bits).passOver = w.passOver := rfl
@[simp] theorem Warp.pset_ppt (w : Warp) (n : Nat) (lanes bits : Mask) : (w.pset n lanes bits).ppt = w.ppt := rfl
@[simp] theorem Warp.pset_yielded (w : Warp) (n : Nat) (lanes bits : Mask) : (w.pset n lanes bits).yielded = w.yielded := rfl
@[simp] theorem Warp.pset_due (w : Warp) (n : Nat) (lanes bits : Mask) : (w.pset n lanes bits).due = w.due := rfl
@[simp] theorem Warp.pset_entry (w : Warp) (n : Nat) (lanes bits : Mask) : (w.pset n lanes bits).entry = w.entry := rfl
@[simp] theorem Warp.pset_kept (w : Warp) (n : Nat) (lanes bits : Mask) : (w.pset n lanes bits).kept = w.kept := rfl
@[simp] theorem Warp.pset_rseq (w : Warp) (n : Nat) (lanes bits : Mask) : (w.pset n lanes bits).rseq = w.rseq := rfl
@[simp] theorem Warp.pset_keyMade (w : Warp) (n : Nat) (lanes bits : Mask) : (w.pset n lanes bits).keyMade = w.keyMade := rfl
@[simp] theorem Warp.pset_keyKept (w : Warp) (n : Nat) (lanes bits : Mask) : (w.pset n lanes bits).keyKept = w.keyKept := rfl
@[simp] theorem Warp.pset_logSeq (w : Warp) (n : Nat) (lanes bits : Mask) : (w.pset n lanes bits).logSeq = w.logSeq := rfl
@[simp] theorem Warp.pset_floor (w : Warp) (n : Nat) (lanes bits : Mask) : (w.pset n lanes bits).floor = w.floor := rfl

/-! ### `Warp.kset` -/

@[simp] theorem Warp.kset_width (w : Warp) (k : Nat) (m : Mask) : (w.kset k m).width = w.width := rfl
@[simp] theorem Warp.kset_ctx0 (w : Warp) (k : Nat) (m : Mask) : (w.kset k m).ctx0 = w.ctx0 := rfl
@[simp] theorem Warp.kset_live (w : Warp) (k : Nat) (m : Mask) : (w.kset k m).live = w.live := rfl
@[simp] theorem Warp.kset_front (w : Warp) (k : Nat) (m : Mask) : (w.kset k m).front = w.front := rfl
@[simp] theorem Warp.kset_parked (w : Warp) (k : Nat) (m : Mask) : (w.kset k m).parked = w.parked := rfl
@[simp] theorem Warp.kset_blocked (w : Warp) (k : Nat) (m : Mask) : (w.kset k m).blocked = w.blocked := rfl
@[simp] theorem Warp.kset_issues (w : Warp) (k : Nat) (m : Mask) : (w.kset k m).issues = w.issues := rfl
@[simp] theorem Warp.kset_v (w : Warp) (k : Nat) (m : Mask) : (w.kset k m).v = w.v := rfl
@[simp] theorem Warp.kset_s (w : Warp) (k : Nat) (m : Mask) : (w.kset k m).s = w.s := rfl
@[simp] theorem Warp.kset_p (w : Warp) (k : Nat) (m : Mask) : (w.kset k m).p = w.p := rfl
@[simp] theorem Warp.kset_x (w : Warp) (k : Nat) (m : Mask) : (w.kset k m).x = w.x := rfl
@[simp] theorem Warp.kset_frm (w : Warp) (k : Nat) (m : Mask) : (w.kset k m).frm = w.frm := rfl
@[simp] theorem Warp.kset_flg (w : Warp) (k : Nat) (m : Mask) : (w.kset k m).flg = w.flg := rfl
@[simp] theorem Warp.kset_fte (w : Warp) (k : Nat) (m : Mask) : (w.kset k m).fte = w.fte := rfl
@[simp] theorem Warp.kset_rkey (w : Warp) (k : Nat) (m : Mask) : (w.kset k m).rkey = w.rkey := rfl
@[simp] theorem Warp.kset_rctr (w : Warp) (k : Nat) (m : Mask) : (w.kset k m).rctr = w.rctr := rfl
@[simp] theorem Warp.kset_ph (w : Warp) (k : Nat) (m : Mask) : (w.kset k m).ph = w.ph := rfl
@[simp] theorem Warp.kset_hcnt (w : Warp) (k : Nat) (m : Mask) : (w.kset k m).hcnt = w.hcnt := rfl
@[simp] theorem Warp.kset_hmode (w : Warp) (k : Nat) (m : Mask) : (w.kset k m).hmode = w.hmode := rfl
@[simp] theorem Warp.kset_tfaddr (w : Warp) (k : Nat) (m : Mask) : (w.kset k m).tfaddr = w.tfaddr := rfl
@[simp] theorem Warp.kset_clkHi (w : Warp) (k : Nat) (m : Mask) : (w.kset k m).clkHi = w.clkHi := rfl
@[simp] theorem Warp.kset_tpnd (w : Warp) (k : Nat) (m : Mask) : (w.kset k m).tpnd = w.tpnd := rfl
@[simp] theorem Warp.kset_step (w : Warp) (k : Nat) (m : Mask) : (w.kset k m).step = w.step := rfl
@[simp] theorem Warp.kset_stepDue (w : Warp) (k : Nat) (m : Mask) : (w.kset k m).stepDue = w.stepDue := rfl
@[simp] theorem Warp.kset_watchBase (w : Warp) (k : Nat) (m : Mask) : (w.kset k m).watchBase = w.watchBase := rfl
@[simp] theorem Warp.kset_watchLen (w : Warp) (k : Nat) (m : Mask) : (w.kset k m).watchLen = w.watchLen := rfl
@[simp] theorem Warp.kset_dfr (w : Warp) (k : Nat) (m : Mask) : (w.kset k m).dfr = w.dfr := rfl
@[simp] theorem Warp.kset_lost (w : Warp) (k : Nat) (m : Mask) : (w.kset k m).lost = w.lost := rfl
@[simp] theorem Warp.kset_hold (w : Warp) (k : Nat) (m : Mask) : (w.kset k m).hold = w.hold := rfl
@[simp] theorem Warp.kset_walked (w : Warp) (k : Nat) (m : Mask) : (w.kset k m).walked = w.walked := rfl
@[simp] theorem Warp.kset_latched (w : Warp) (k : Nat) (m : Mask) : (w.kset k m).latched = w.latched := rfl
@[simp] theorem Warp.kset_await (w : Warp) (k : Nat) (m : Mask) : (w.kset k m).await = w.await := rfl
@[simp] theorem Warp.kset_seqFlags (w : Warp) (k : Nat) (m : Mask) : (w.kset k m).seqFlags = w.seqFlags := rfl
@[simp] theorem Warp.kset_stUntil (w : Warp) (k : Nat) (m : Mask) : (w.kset k m).stUntil = w.stUntil := rfl
@[simp] theorem Warp.kset_sleepUntil (w : Warp) (k : Nat) (m : Mask) : (w.kset k m).sleepUntil = w.sleepUntil := rfl
@[simp] theorem Warp.kset_readySince (w : Warp) (k : Nat) (m : Mask) : (w.kset k m).readySince = w.readySince := rfl
@[simp] theorem Warp.kset_passOver (w : Warp) (k : Nat) (m : Mask) : (w.kset k m).passOver = w.passOver := rfl
@[simp] theorem Warp.kset_ppt (w : Warp) (k : Nat) (m : Mask) : (w.kset k m).ppt = w.ppt := rfl
@[simp] theorem Warp.kset_yielded (w : Warp) (k : Nat) (m : Mask) : (w.kset k m).yielded = w.yielded := rfl
@[simp] theorem Warp.kset_due (w : Warp) (k : Nat) (m : Mask) : (w.kset k m).due = w.due := rfl
@[simp] theorem Warp.kset_entry (w : Warp) (k : Nat) (m : Mask) : (w.kset k m).entry = w.entry := rfl
@[simp] theorem Warp.kset_kept (w : Warp) (k : Nat) (m : Mask) : (w.kset k m).kept = w.kept := rfl
@[simp] theorem Warp.kset_rseq (w : Warp) (k : Nat) (m : Mask) : (w.kset k m).rseq = w.rseq := rfl
@[simp] theorem Warp.kset_keyMade (w : Warp) (k : Nat) (m : Mask) : (w.kset k m).keyMade = w.keyMade := rfl
@[simp] theorem Warp.kset_keyKept (w : Warp) (k : Nat) (m : Mask) : (w.kset k m).keyKept = w.keyKept := rfl
@[simp] theorem Warp.kset_logSeq (w : Warp) (k : Nat) (m : Mask) : (w.kset k m).logSeq = w.logSeq := rfl
@[simp] theorem Warp.kset_floor (w : Warp) (k : Nat) (m : Mask) : (w.kset k m).floor = w.floor := rfl

/-! ### `Warp.vsetPair` -/

@[simp] theorem Warp.vsetPair_width (w : Warp) (n l : Nat) (x : BitVec 64) : (w.vsetPair n l x).width = w.width := rfl
@[simp] theorem Warp.vsetPair_ctx0 (w : Warp) (n l : Nat) (x : BitVec 64) : (w.vsetPair n l x).ctx0 = w.ctx0 := rfl
@[simp] theorem Warp.vsetPair_live (w : Warp) (n l : Nat) (x : BitVec 64) : (w.vsetPair n l x).live = w.live := rfl
@[simp] theorem Warp.vsetPair_front (w : Warp) (n l : Nat) (x : BitVec 64) : (w.vsetPair n l x).front = w.front := rfl
@[simp] theorem Warp.vsetPair_parked (w : Warp) (n l : Nat) (x : BitVec 64) : (w.vsetPair n l x).parked = w.parked := rfl
@[simp] theorem Warp.vsetPair_blocked (w : Warp) (n l : Nat) (x : BitVec 64) : (w.vsetPair n l x).blocked = w.blocked := rfl
@[simp] theorem Warp.vsetPair_issues (w : Warp) (n l : Nat) (x : BitVec 64) : (w.vsetPair n l x).issues = w.issues := rfl
@[simp] theorem Warp.vsetPair_s (w : Warp) (n l : Nat) (x : BitVec 64) : (w.vsetPair n l x).s = w.s := rfl
@[simp] theorem Warp.vsetPair_p (w : Warp) (n l : Nat) (x : BitVec 64) : (w.vsetPair n l x).p = w.p := rfl
@[simp] theorem Warp.vsetPair_k (w : Warp) (n l : Nat) (x : BitVec 64) : (w.vsetPair n l x).k = w.k := rfl
@[simp] theorem Warp.vsetPair_x (w : Warp) (n l : Nat) (x : BitVec 64) : (w.vsetPair n l x).x = w.x := rfl
@[simp] theorem Warp.vsetPair_frm (w : Warp) (n l : Nat) (x : BitVec 64) : (w.vsetPair n l x).frm = w.frm := rfl
@[simp] theorem Warp.vsetPair_flg (w : Warp) (n l : Nat) (x : BitVec 64) : (w.vsetPair n l x).flg = w.flg := rfl
@[simp] theorem Warp.vsetPair_fte (w : Warp) (n l : Nat) (x : BitVec 64) : (w.vsetPair n l x).fte = w.fte := rfl
@[simp] theorem Warp.vsetPair_rkey (w : Warp) (n l : Nat) (x : BitVec 64) : (w.vsetPair n l x).rkey = w.rkey := rfl
@[simp] theorem Warp.vsetPair_rctr (w : Warp) (n l : Nat) (x : BitVec 64) : (w.vsetPair n l x).rctr = w.rctr := rfl
@[simp] theorem Warp.vsetPair_ph (w : Warp) (n l : Nat) (x : BitVec 64) : (w.vsetPair n l x).ph = w.ph := rfl
@[simp] theorem Warp.vsetPair_hcnt (w : Warp) (n l : Nat) (x : BitVec 64) : (w.vsetPair n l x).hcnt = w.hcnt := rfl
@[simp] theorem Warp.vsetPair_hmode (w : Warp) (n l : Nat) (x : BitVec 64) : (w.vsetPair n l x).hmode = w.hmode := rfl
@[simp] theorem Warp.vsetPair_tfaddr (w : Warp) (n l : Nat) (x : BitVec 64) : (w.vsetPair n l x).tfaddr = w.tfaddr := rfl
@[simp] theorem Warp.vsetPair_clkHi (w : Warp) (n l : Nat) (x : BitVec 64) : (w.vsetPair n l x).clkHi = w.clkHi := rfl
@[simp] theorem Warp.vsetPair_tpnd (w : Warp) (n l : Nat) (x : BitVec 64) : (w.vsetPair n l x).tpnd = w.tpnd := rfl
@[simp] theorem Warp.vsetPair_step (w : Warp) (n l : Nat) (x : BitVec 64) : (w.vsetPair n l x).step = w.step := rfl
@[simp] theorem Warp.vsetPair_stepDue (w : Warp) (n l : Nat) (x : BitVec 64) : (w.vsetPair n l x).stepDue = w.stepDue := rfl
@[simp] theorem Warp.vsetPair_watchBase (w : Warp) (n l : Nat) (x : BitVec 64) : (w.vsetPair n l x).watchBase = w.watchBase := rfl
@[simp] theorem Warp.vsetPair_watchLen (w : Warp) (n l : Nat) (x : BitVec 64) : (w.vsetPair n l x).watchLen = w.watchLen := rfl
@[simp] theorem Warp.vsetPair_dfr (w : Warp) (n l : Nat) (x : BitVec 64) : (w.vsetPair n l x).dfr = w.dfr := rfl
@[simp] theorem Warp.vsetPair_lost (w : Warp) (n l : Nat) (x : BitVec 64) : (w.vsetPair n l x).lost = w.lost := rfl
@[simp] theorem Warp.vsetPair_hold (w : Warp) (n l : Nat) (x : BitVec 64) : (w.vsetPair n l x).hold = w.hold := rfl
@[simp] theorem Warp.vsetPair_walked (w : Warp) (n l : Nat) (x : BitVec 64) : (w.vsetPair n l x).walked = w.walked := rfl
@[simp] theorem Warp.vsetPair_latched (w : Warp) (n l : Nat) (x : BitVec 64) : (w.vsetPair n l x).latched = w.latched := rfl
@[simp] theorem Warp.vsetPair_await (w : Warp) (n l : Nat) (x : BitVec 64) : (w.vsetPair n l x).await = w.await := rfl
@[simp] theorem Warp.vsetPair_seqFlags (w : Warp) (n l : Nat) (x : BitVec 64) : (w.vsetPair n l x).seqFlags = w.seqFlags := rfl
@[simp] theorem Warp.vsetPair_stUntil (w : Warp) (n l : Nat) (x : BitVec 64) : (w.vsetPair n l x).stUntil = w.stUntil := rfl
@[simp] theorem Warp.vsetPair_sleepUntil (w : Warp) (n l : Nat) (x : BitVec 64) : (w.vsetPair n l x).sleepUntil = w.sleepUntil := rfl
@[simp] theorem Warp.vsetPair_readySince (w : Warp) (n l : Nat) (x : BitVec 64) : (w.vsetPair n l x).readySince = w.readySince := rfl
@[simp] theorem Warp.vsetPair_passOver (w : Warp) (n l : Nat) (x : BitVec 64) : (w.vsetPair n l x).passOver = w.passOver := rfl
@[simp] theorem Warp.vsetPair_ppt (w : Warp) (n l : Nat) (x : BitVec 64) : (w.vsetPair n l x).ppt = w.ppt := rfl
@[simp] theorem Warp.vsetPair_yielded (w : Warp) (n l : Nat) (x : BitVec 64) : (w.vsetPair n l x).yielded = w.yielded := rfl
@[simp] theorem Warp.vsetPair_due (w : Warp) (n l : Nat) (x : BitVec 64) : (w.vsetPair n l x).due = w.due := rfl
@[simp] theorem Warp.vsetPair_entry (w : Warp) (n l : Nat) (x : BitVec 64) : (w.vsetPair n l x).entry = w.entry := rfl
@[simp] theorem Warp.vsetPair_kept (w : Warp) (n l : Nat) (x : BitVec 64) : (w.vsetPair n l x).kept = w.kept := rfl
@[simp] theorem Warp.vsetPair_rseq (w : Warp) (n l : Nat) (x : BitVec 64) : (w.vsetPair n l x).rseq = w.rseq := rfl
@[simp] theorem Warp.vsetPair_keyMade (w : Warp) (n l : Nat) (x : BitVec 64) : (w.vsetPair n l x).keyMade = w.keyMade := rfl
@[simp] theorem Warp.vsetPair_keyKept (w : Warp) (n l : Nat) (x : BitVec 64) : (w.vsetPair n l x).keyKept = w.keyKept := rfl
@[simp] theorem Warp.vsetPair_logSeq (w : Warp) (n l : Nat) (x : BitVec 64) : (w.vsetPair n l x).logSeq = w.logSeq := rfl
@[simp] theorem Warp.vsetPair_floor (w : Warp) (n l : Nat) (x : BitVec 64) : (w.vsetPair n l x).floor = w.floor := rfl

/-! ### `Warp.ssetPair` -/

@[simp] theorem Warp.ssetPair_width (w : Warp) (n : Nat) (x : BitVec 64) : (w.ssetPair n x).width = w.width := rfl
@[simp] theorem Warp.ssetPair_ctx0 (w : Warp) (n : Nat) (x : BitVec 64) : (w.ssetPair n x).ctx0 = w.ctx0 := rfl
@[simp] theorem Warp.ssetPair_live (w : Warp) (n : Nat) (x : BitVec 64) : (w.ssetPair n x).live = w.live := rfl
@[simp] theorem Warp.ssetPair_front (w : Warp) (n : Nat) (x : BitVec 64) : (w.ssetPair n x).front = w.front := rfl
@[simp] theorem Warp.ssetPair_parked (w : Warp) (n : Nat) (x : BitVec 64) : (w.ssetPair n x).parked = w.parked := rfl
@[simp] theorem Warp.ssetPair_blocked (w : Warp) (n : Nat) (x : BitVec 64) : (w.ssetPair n x).blocked = w.blocked := rfl
@[simp] theorem Warp.ssetPair_issues (w : Warp) (n : Nat) (x : BitVec 64) : (w.ssetPair n x).issues = w.issues := rfl
@[simp] theorem Warp.ssetPair_v (w : Warp) (n : Nat) (x : BitVec 64) : (w.ssetPair n x).v = w.v := rfl
@[simp] theorem Warp.ssetPair_p (w : Warp) (n : Nat) (x : BitVec 64) : (w.ssetPair n x).p = w.p := rfl
@[simp] theorem Warp.ssetPair_k (w : Warp) (n : Nat) (x : BitVec 64) : (w.ssetPair n x).k = w.k := rfl
@[simp] theorem Warp.ssetPair_x (w : Warp) (n : Nat) (x : BitVec 64) : (w.ssetPair n x).x = w.x := rfl
@[simp] theorem Warp.ssetPair_frm (w : Warp) (n : Nat) (x : BitVec 64) : (w.ssetPair n x).frm = w.frm := rfl
@[simp] theorem Warp.ssetPair_flg (w : Warp) (n : Nat) (x : BitVec 64) : (w.ssetPair n x).flg = w.flg := rfl
@[simp] theorem Warp.ssetPair_fte (w : Warp) (n : Nat) (x : BitVec 64) : (w.ssetPair n x).fte = w.fte := rfl
@[simp] theorem Warp.ssetPair_rkey (w : Warp) (n : Nat) (x : BitVec 64) : (w.ssetPair n x).rkey = w.rkey := rfl
@[simp] theorem Warp.ssetPair_rctr (w : Warp) (n : Nat) (x : BitVec 64) : (w.ssetPair n x).rctr = w.rctr := rfl
@[simp] theorem Warp.ssetPair_ph (w : Warp) (n : Nat) (x : BitVec 64) : (w.ssetPair n x).ph = w.ph := rfl
@[simp] theorem Warp.ssetPair_hcnt (w : Warp) (n : Nat) (x : BitVec 64) : (w.ssetPair n x).hcnt = w.hcnt := rfl
@[simp] theorem Warp.ssetPair_hmode (w : Warp) (n : Nat) (x : BitVec 64) : (w.ssetPair n x).hmode = w.hmode := rfl
@[simp] theorem Warp.ssetPair_tfaddr (w : Warp) (n : Nat) (x : BitVec 64) : (w.ssetPair n x).tfaddr = w.tfaddr := rfl
@[simp] theorem Warp.ssetPair_clkHi (w : Warp) (n : Nat) (x : BitVec 64) : (w.ssetPair n x).clkHi = w.clkHi := rfl
@[simp] theorem Warp.ssetPair_tpnd (w : Warp) (n : Nat) (x : BitVec 64) : (w.ssetPair n x).tpnd = w.tpnd := rfl
@[simp] theorem Warp.ssetPair_step (w : Warp) (n : Nat) (x : BitVec 64) : (w.ssetPair n x).step = w.step := rfl
@[simp] theorem Warp.ssetPair_stepDue (w : Warp) (n : Nat) (x : BitVec 64) : (w.ssetPair n x).stepDue = w.stepDue := rfl
@[simp] theorem Warp.ssetPair_watchBase (w : Warp) (n : Nat) (x : BitVec 64) : (w.ssetPair n x).watchBase = w.watchBase := rfl
@[simp] theorem Warp.ssetPair_watchLen (w : Warp) (n : Nat) (x : BitVec 64) : (w.ssetPair n x).watchLen = w.watchLen := rfl
@[simp] theorem Warp.ssetPair_dfr (w : Warp) (n : Nat) (x : BitVec 64) : (w.ssetPair n x).dfr = w.dfr := rfl
@[simp] theorem Warp.ssetPair_lost (w : Warp) (n : Nat) (x : BitVec 64) : (w.ssetPair n x).lost = w.lost := rfl
@[simp] theorem Warp.ssetPair_hold (w : Warp) (n : Nat) (x : BitVec 64) : (w.ssetPair n x).hold = w.hold := rfl
@[simp] theorem Warp.ssetPair_walked (w : Warp) (n : Nat) (x : BitVec 64) : (w.ssetPair n x).walked = w.walked := rfl
@[simp] theorem Warp.ssetPair_latched (w : Warp) (n : Nat) (x : BitVec 64) : (w.ssetPair n x).latched = w.latched := rfl
@[simp] theorem Warp.ssetPair_await (w : Warp) (n : Nat) (x : BitVec 64) : (w.ssetPair n x).await = w.await := rfl
@[simp] theorem Warp.ssetPair_seqFlags (w : Warp) (n : Nat) (x : BitVec 64) : (w.ssetPair n x).seqFlags = w.seqFlags := rfl
@[simp] theorem Warp.ssetPair_stUntil (w : Warp) (n : Nat) (x : BitVec 64) : (w.ssetPair n x).stUntil = w.stUntil := rfl
@[simp] theorem Warp.ssetPair_sleepUntil (w : Warp) (n : Nat) (x : BitVec 64) : (w.ssetPair n x).sleepUntil = w.sleepUntil := rfl
@[simp] theorem Warp.ssetPair_readySince (w : Warp) (n : Nat) (x : BitVec 64) : (w.ssetPair n x).readySince = w.readySince := rfl
@[simp] theorem Warp.ssetPair_passOver (w : Warp) (n : Nat) (x : BitVec 64) : (w.ssetPair n x).passOver = w.passOver := rfl
@[simp] theorem Warp.ssetPair_ppt (w : Warp) (n : Nat) (x : BitVec 64) : (w.ssetPair n x).ppt = w.ppt := rfl
@[simp] theorem Warp.ssetPair_yielded (w : Warp) (n : Nat) (x : BitVec 64) : (w.ssetPair n x).yielded = w.yielded := rfl
@[simp] theorem Warp.ssetPair_due (w : Warp) (n : Nat) (x : BitVec 64) : (w.ssetPair n x).due = w.due := rfl
@[simp] theorem Warp.ssetPair_entry (w : Warp) (n : Nat) (x : BitVec 64) : (w.ssetPair n x).entry = w.entry := rfl
@[simp] theorem Warp.ssetPair_kept (w : Warp) (n : Nat) (x : BitVec 64) : (w.ssetPair n x).kept = w.kept := rfl
@[simp] theorem Warp.ssetPair_rseq (w : Warp) (n : Nat) (x : BitVec 64) : (w.ssetPair n x).rseq = w.rseq := rfl
@[simp] theorem Warp.ssetPair_keyMade (w : Warp) (n : Nat) (x : BitVec 64) : (w.ssetPair n x).keyMade = w.keyMade := rfl
@[simp] theorem Warp.ssetPair_keyKept (w : Warp) (n : Nat) (x : BitVec 64) : (w.ssetPair n x).keyKept = w.keyKept := rfl
@[simp] theorem Warp.ssetPair_logSeq (w : Warp) (n : Nat) (x : BitVec 64) : (w.ssetPair n x).logSeq = w.logSeq := rfl
@[simp] theorem Warp.ssetPair_floor (w : Warp) (n : Nat) (x : BitVec 64) : (w.ssetPair n x).floor = w.floor := rfl

/-! ### A port of a core -/

@[simp] theorem Core.setPort_carve (c : Core) (p : Nat) (x : Port) : (c.setPort p x).carve = c.carve := by
  unfold Core.setPort; split <;> rfl
@[simp] theorem Core.setPort_drain (c : Core) (p : Nat) (x : Port) : (c.setPort p x).drain = c.drain := by
  unfold Core.setPort; split <;> rfl
@[simp] theorem Core.setPort_change (c : Core) (p : Nat) (x : Port) : (c.setPort p x).change = c.change := by
  unfold Core.setPort; split <;> rfl
@[simp] theorem Core.setPort_asker (c : Core) (p : Nat) (x : Port) : (c.setPort p x).asker = c.asker := by
  unfold Core.setPort; split <;> rfl
@[simp] theorem Core.setPort_l1 (c : Core) (p : Nat) (x : Port) : (c.setPort p x).l1 = c.l1 := by
  unfold Core.setPort; split <;> rfl
@[simp] theorem Core.setPort_tlb (c : Core) (p : Nat) (x : Port) : (c.setPort p x).tlb = c.tlb := by
  unfold Core.setPort; split <;> rfl
@[simp] theorem Core.setPort_xq (c : Core) (p : Nat) (x : Port) : (c.setPort p x).xq = c.xq := by
  unfold Core.setPort; split <;> rfl
@[simp] theorem Core.setPort_mx (c : Core) (p : Nat) (x : Port) : (c.setPort p x).mx = c.mx := by
  unfold Core.setPort; split <;> rfl
@[simp] theorem Core.setPort_engq (c : Core) (p : Nat) (x : Port) : (c.setPort p x).engq = c.engq := by
  unfold Core.setPort; split <;> rfl
@[simp] theorem Core.setPort_engTurn (c : Core) (p : Nat) (x : Port) : (c.setPort p x).engTurn = c.engTurn := by
  unfold Core.setPort; split <;> rfl
@[simp] theorem Core.setPort_seqq (c : Core) (p : Nat) (x : Port) : (c.setPort p x).seqq = c.seqq := by
  unfold Core.setPort; split <;> rfl
@[simp] theorem Core.setPort_keyq (c : Core) (p : Nat) (x : Port) : (c.setPort p x).keyq = c.keyq := by
  unfold Core.setPort; split <;> rfl
@[simp] theorem Core.setPort_gridq (c : Core) (p : Nat) (x : Port) : (c.setPort p x).gridq = c.gridq := by
  unfold Core.setPort; split <;> rfl
@[simp] theorem Core.setPort_reply (c : Core) (p : Nat) (x : Port) : (c.setPort p x).reply = c.reply := by
  unfold Core.setPort; split <;> rfl
@[simp] theorem Core.setPort_cnt (c : Core) (p : Nat) (x : Port) : (c.setPort p x).cnt = c.cnt := by
  unfold Core.setPort; split <;> rfl

end Sys2Proof.Machine
end

