-- ==== Sys2Proof/Laws/Tab.lean ====
section
/-! SUPPORT. Tables: what a look-up gives after an entry is replaced, added, changed or removed. -/

namespace Sys2Proof.Machine

variable {α : Type}

@[simp] theorem look_nil (n : Nat) : look ([] : Tab α) n = none := rfl

/-- The entry put in is the one found. -/
@[simp] theorem look_ins_same (t : Tab α) (n : Nat) (y : α) : look (ins t n y) n = some y := by
  induction t with
  | nil => simp [ins, look]
  | cons e t ih =>
    obtain ⟨k, x⟩ := e
    simp only [ins]
    split
    · simp [look]
    · split
      · simp [look]
      · rw [look, if_neg ‹_›, if_neg ‹_›, ih]

/-- Other entries stay. -/
theorem look_ins_other (t : Tab α) (n m : Nat) (y : α) (h : m ≠ n) : look (ins t n y) m = look t m := by
  induction t with
  | nil => simp only [ins, look]; split <;> simp_all
  | cons e t ih =>
    obtain ⟨k, x⟩ := e
    simp only [ins]
    split
    · simp only [look]
      repeat' split
      all_goals first | rfl | omega
    · split
      · subst_vars; simp only [look]; repeat' split
        all_goals first | rfl | omega
      · simp only [look, ih]

theorem look_ins (t : Tab α) (n m : Nat) (y : α) : look (ins t n y) m = if m = n then some y else look t m := by
  split
  · subst_vars; simp
  · exact look_ins_other _ _ _ _ ‹_›

@[simp] theorem lookD_ins_same (t : Tab α) (n : Nat) (y d : α) : lookD (ins t n y) n d = y := by simp [lookD]

theorem lookD_ins_other (t : Tab α) (n m : Nat) (y d : α) (h : m ≠ n) : lookD (ins t n y) m d = lookD t m d := by
  simp [lookD, look_ins_other _ _ _ _ h]

/-- Changing an entry that is there. -/
theorem look_upd_same (t : Tab α) (n : Nat) (f : α → α) : look (upd t n f) n = (look t n).map f := by
  unfold upd
  split <;> simp_all

/-- Changing an entry leaves the others. -/
theorem look_upd_other (t : Tab α) (n m : Nat) (f : α → α) (h : m ≠ n) : look (upd t n f) m = look t m := by
  unfold upd
  split
  · exact look_ins_other _ _ _ _ h
  · rfl

theorem look_upd (t : Tab α) (n m : Nat) (f : α → α) :
    look (upd t n f) m = if m = n then (look t n).map f else look t m := by
  split
  · subst_vars; exact look_upd_same _ _ _
  · exact look_upd_other _ _ _ _ ‹_›

/-- A table with a key changed twice. -/
theorem ins_ins (t : Tab α) (n : Nat) (x y : α) : ins (ins t n x) n y = ins t n y := by
  induction t with
  | nil => simp [ins]
  | cons e t ih =>
    obtain ⟨k, z⟩ := e
    simp only [ins]
    split
    · simp [ins]
    · split
      · simp [ins]
      · simp only [ins, if_neg ‹¬n < k›, if_neg ‹¬k = n›, ih]

theorem upd_some (t : Tab α) (n : Nat) (x : α) (f : α → α) (h : look t n = some x) : upd t n f = ins t n (f x) := by
  simp [upd, h]

theorem upd_upd (t : Tab α) (n : Nat) (f g : α → α) : upd (upd t n f) n g = upd t n (fun x => g (f x)) := by
  cases h : look t n with
  | none => simp [upd, h]
  | some x => simp [upd, h, ins_ins]

/-- Changing a table entry by entry leaves which keys it has. -/
theorem look_mapVals (t : Tab α) (n : Nat) (f : Nat → α → α) :
    look (t.map fun p => (p.1, f p.1 p.2)) n = (look t n).map (f n) := by
  induction t with
  | nil => rfl
  | cons e t ih =>
    obtain ⟨k, x⟩ := e
    simp only [List.map, look]
    split
    · subst_vars; rfl
    · split <;> simp_all

end Sys2Proof.Machine
end

