-- ==== Sys2Proof/Laws/Issue.lean ====
section
/-! SUPPORT. What an issue can come to: the reading of `issuing`, and one lemma for each way in which an effect is settled. -/

namespace Sys2Proof.Machine

/-! ### The issue in progress -/

theorem issuing_of {s : State} {i : Instr} {x : Ix} (h : issuing s i = some x) :
    Ix.of s i = some x ∧ earlyTrap x.w x.c.bundle = none ∧ dynTrap x = none ∧ scoreHeld x = false := by
  unfold issuing at h
  split at h
  · cases h
  · rename_i y hy
    split at h
    · cases h
    · rename_i hc
      cases h
      simp only [Bool.or_eq_true, not_or, Option.isSome_iff_ne_none, Bool.not_eq_true, ne_eq, Decidable.not_not] at hc
      exact ⟨hy, hc.1.1, hc.1.2, hc.2⟩

/-- What an issue reads, read back. -/
theorem of_facts {s : State} {i : Instr} {x : Ix} (h : Ix.of s i = some x) :
    x.s = s ∧ x.i = i ∧ s.cur = some x.c ∧ look s.wgs x.c.wid = some x.g ∧ look x.g.warps x.c.warp = some x.w ∧
      look s.kernels (x.c.wid / 2 ^ 48) = some x.kr ∧ i.fields = some x.f ∧ x.on = guardLanes x.w x.f.hd x.c.bundle ∧
      x.kept = ((s.core x.g.core).port x.w.port).latchesFor x.c := by
  unfold Ix.of at h
  split at h
  · cases h
  · rename_i c hc
    split at h
    · rename_i g w k f hg hw hk hf
      cases h
      refine ⟨rfl, rfl, hc, hg, ?_, hk, hf, rfl, rfl⟩
      simpa [State.warp?, hg] using hw
    · cases h

/-! ### Effects and the stores that a trap waits for (R437) -/

@[simp] theorem entering_regs (x : Ix) (w : Warp) (cap : Option (Nat × Latch)) (go : List Move) :
    x.entering (.regs w cap go) = .regs w cap go := rfl
@[simp] theorem entering_mach (x : Ix) (s : State) (cap : Option (Nat × Latch)) (go : List Move) :
    x.entering (.mach s cap go) = .mach s cap go := rfl
@[simp] theorem entering_stall (x : Ix) : x.entering .stall = .stall := rfl
@[simp] theorem entering_hold (x : Ix) (k : Wait) (s : State) : x.entering (.hold k s) = .hold k s := rfl

/-- What settles a cause that an instruction meets. -/
theorem settle_trap (x : Ix) (t : Trap) :
    (x.storing = false → x.settle (x.entering (.trap t)) = x.s.takeTrap x.c t) ∧
    (x.storing = true → x.settle (x.entering (.trap t)) = { x.s with cur := some { x.c with ready := false } }) := by
  constructor <;> intro h <;> simp [Ix.entering, Ix.settle, h]

/-- An instruction that nothing keeps from its effect settles it. -/
theorem issue_of_issuing {s : State} {i : Instr} {x : Ix} (h : issuing s i = some x) (body : Ix → Eff) :
    issue i s body = .next (x.settle (x.entering (body x))) := by
  obtain ⟨ho, he, hd, hs⟩ := issuing_of h
  simp [issue, ho, Ix.checked, he, hd, hs]

/-- The lanes with a true guard are lanes of the bundle. -/
theorem on_bundle {s : State} {i : Instr} {x : Ix} (h : Ix.of s i = some x) (l : Nat) (hl : x.on.getLsbD l = true) :
    x.c.bundle.getLsbD l = true := by
  rw [(of_facts h).2.2.2.2.2.2.2.1] at hl
  simp only [guardLanes, BitVec.getLsbD_and, Bool.and_eq_true] at hl
  exact hl.1

/-- An instruction that meets a cause. -/
theorem traps_of_trap {s : State} {i : Instr} {x : Ix} (h : issuing s i = some x) (t : Trap)
    (he : exec i x.s = .next (x.settle (x.entering (.trap t)))) : Traps i x t := by
  obtain ⟨h1, h2⟩ := settle_trap x t
  exact ⟨fun hs => by rw [he, h1 hs], fun hs => by rw [he, h2 hs]⟩

/-! ### Where threads stand -/

/-- A thread stands in a frontier or among parked threads. -/
def standing (fs : List Entry) (ps : List Parked) (l : Nat) (pr : BitVec 8) (pc : Pc) : Prop :=
  (∃ e ∈ fs, e.mask.getLsbD l = true ∧ e.prio = pr ∧ e.pc = pc) ∨
  (∃ p ∈ ps, p.mask.getLsbD l = true ∧ p.prio = pr ∧ p.pc = pc)

theorem standing_joinEntry_self (fs : List Entry) (ps : List Parked) (e : Entry) (l : Nat) (h : e.mask.getLsbD l = true) :
    standing (joinEntry fs e) ps l e.prio e.pc := by
  left
  induction fs with
  | nil => exact ⟨e, by simp [joinEntry], h, rfl, rfl⟩
  | cons f fs ih =>
    simp only [joinEntry]
    split
    · rename_i hp
      simp only [Bool.and_eq_true, beq_iff_eq] at hp
      exact ⟨mergeEntry f e, by simp, by simp [mergeEntry, h], by simp [mergeEntry, hp.1], by simp [mergeEntry, hp.2]⟩
    · split
      · exact ⟨e, by simp, h, rfl, rfl⟩
      · obtain ⟨g, hg, r⟩ := ih
        exact ⟨g, by simp [hg], r⟩

theorem standing_joinEntry {fs : List Entry} {ps : List Parked} (e : Entry) {l : Nat} {pr : BitVec 8} {pc : Pc}
    (h : standing fs ps l pr pc) : standing (joinEntry fs e) ps l pr pc := by
  rcases h with ⟨g, hg, hm, hp, hc⟩ | h
  · left
    induction fs with
    | nil => cases hg
    | cons f fs ih =>
      simp only [joinEntry]
      split
      · rcases List.mem_cons.1 hg with rfl | hg
        · exact ⟨mergeEntry g e, by simp, by simp [mergeEntry, hm], by simp [mergeEntry, hp], by simp [mergeEntry, hc]⟩
        · exact ⟨g, by simp [hg], hm, hp, hc⟩
      · split
        · exact ⟨g, List.mem_cons_of_mem _ hg, hm, hp, hc⟩
        · rcases List.mem_cons.1 hg with rfl | hg
          · exact ⟨g, by simp, hm, hp, hc⟩
          · obtain ⟨k, hk, r⟩ := ih hg
            exact ⟨k, by simp [hk], r⟩
  · exact .inr h

theorem standing_joinMove {fs : List Entry} {ps : List Parked} (m : Move) {l : Nat} {pr : BitVec 8} {pc : Pc}
    (h : standing fs ps l pr pc) : standing (joinMove fs m) ps l pr pc := by
  unfold joinMove
  split
  · exact h
  · exact standing_joinEntry _ h

theorem standing_joinMove_self (fs : List Entry) (ps : List Parked) (m : Move) (l : Nat) (h : m.mask.getLsbD l = true) :
    standing (joinMove fs m) ps l m.prio m.pc := by
  unfold joinMove
  split
  · rename_i hz
    simp [hz] at h
  · exact standing_joinEntry_self fs ps ⟨m.prio, m.pc, m.mask, 0, 0⟩ l h

theorem standing_foldMoves {ps : List Parked} {l : Nat} {pr : BitVec 8} {pc : Pc} (ms : List Move) :
    ∀ {fs : List Entry}, standing fs ps l pr pc → standing (ms.foldl joinMove fs) ps l pr pc := by
  induction ms with
  | nil => exact fun h => h
  | cons m ms ih => exact fun h => ih (standing_joinMove m h)

/-- A thread of a move stands where the move sends it. -/
theorem standing_foldMoves_mem (fs : List Entry) (ps : List Parked) (ms : List Move) (m : Move) (hm : m ∈ ms) (l : Nat)
    (h : m.mask.getLsbD l = true) : standing (ms.foldl joinMove fs) ps l m.prio m.pc := by
  induction ms generalizing fs with
  | nil => cases hm
  | cons k ms ih =>
    rcases List.mem_cons.1 hm with rfl | hm
    · exact standing_foldMoves ms (standing_joinMove_self fs ps m l h)
    · exact ih _ hm

theorem standing_parkAll (n : Nat) (es : List Entry) : ∀ {fs : List Entry} {ps : List Parked} {l : Nat} {pr : BitVec 8} {pc : Pc},
    standing (fs ++ es) ps l pr pc → standing fs (es.foldl (parkAt n) ps) l pr pc := by
  induction es with
  | nil => intro fs ps l pr pc h; simpa using h
  | cons e es ih =>
    intro fs ps l pr pc h
    apply ih
    rcases h with ⟨g, hg, r⟩ | ⟨p, hp, r⟩
    · rcases List.mem_append.1 hg with hg | hg
      · exact .inl ⟨g, List.mem_append_left _ hg, r⟩
      · rcases List.mem_cons.1 hg with rfl | hg
        · exact .inr ⟨⟨g.prio, g.pc, g.mask, 0, n⟩, by simp [parkAt], r⟩
        · exact .inl ⟨g, List.mem_append_right _ hg, r⟩
    · exact .inr ⟨p, by simp [parkAt, hp], r⟩

theorem standing_overflow {n : Nat} {fs : List Entry} {ps : List Parked} {l : Nat} {pr : BitVec 8} {pc : Pc}
    (h : standing fs ps l pr pc) : standing (overflow n fs ps).1 (overflow n fs ps).2 l pr pc := by
  unfold overflow
  apply standing_parkAll
  simpa using h

theorem parkedMask_foldl (ps : List Parked) (g : Parked) (m : Mask) (l : Nat) :
    (ps.foldl (fun m p => if p.prio == g.prio && p.pc == g.pc then m ||| p.mask else m) m).getLsbD l = true ↔
      m.getLsbD l = true ∨ ∃ p ∈ ps, p.prio = g.prio ∧ p.pc = g.pc ∧ p.mask.getLsbD l = true := by
  induction ps generalizing m with
  | nil => simp
  | cons q ps ih =>
    simp only [List.foldl_cons, ih, List.mem_cons, exists_eq_or_imp]
    split
    · rename_i hq
      simp only [Bool.and_eq_true, beq_iff_eq] at hq
      simp [hq, or_assoc]
    · rename_i hq
      simp only [Bool.and_eq_true, beq_iff_eq] at hq
      constructor
      · rintro (h | h)
        · exact .inl h
        · exact .inr (.inr h)
      · rintro (h | ⟨h1, h2, -⟩ | h)
        · exact .inl h
        · exact absurd ⟨h1, h2⟩ hq
        · exact .inr h

/-- Moving the threads parked at a pair into a frontier keeps every thread standing. -/
theorem standing_unpark {fs : List Entry} {ps : List Parked} (g : Parked) (e : Entry) (he : e.prio = g.prio) (hc : e.pc = g.pc)
    (hm : e.mask = parkedMask ps g) {l : Nat} {pr : BitVec 8} {pc : Pc} (h : standing fs ps l pr pc) :
    standing (joinEntry fs e) (unpark ps g) l pr pc := by
  rcases h with h | ⟨p, hp, hl, hq, hr⟩
  · rcases standing_joinEntry (ps := []) e (.inl h) with h | ⟨_, h, _⟩
    · exact .inl h
    · cases h
  · by_cases hk : p.prio = g.prio ∧ p.pc = g.pc
    · have hlm : e.mask.getLsbD l = true := by
        rw [hm]
        exact (parkedMask_foldl ps g 0 l).2 (.inr ⟨p, hp, hk.1, hk.2, hl⟩)
      have := standing_joinEntry_self fs (unpark ps g) e l hlm
      rw [he, hc, ← hk.1, ← hk.2, hq, hr] at this
      exact this
    · refine .inr ⟨p, ?_, hl, hq, hr⟩
      simp only [unpark, List.mem_filter, hp, true_and, Bool.not_eq_true', Bool.and_eq_false_iff, beq_eq_false_iff_ne]
      by_cases h1 : p.prio = g.prio
      · exact .inr fun h2 => hk ⟨h1, h2⟩
      · exact .inl h1

theorem standing_reenter (k : Nat) : ∀ {fs : List Entry} {ps : List Parked} {l : Nat} {pr : BitVec 8} {pc : Pc},
    standing fs ps l pr pc → standing (reenter k fs ps).1 (reenter k fs ps).2 l pr pc := by
  induction k with
  | zero => exact fun h => h
  | succ k ih =>
    intro fs ps l pr pc h
    unfold reenter
    split
    · exact h
    · split
      · exact h
      · rename_i g hg
        apply ih
        unfold joinMove
        split
        · rename_i hz
          rcases h with h | ⟨p, hp, hl, hq, hr⟩
          · exact .inl h
          · by_cases hk : p.prio = g.prio ∧ p.pc = g.pc
            · have := (parkedMask_foldl ps g 0 l).2 (.inr ⟨p, hp, hk.1, hk.2, hl⟩)
              have hz' : parkedMask ps g = 0 := hz
              unfold parkedMask at hz'
              rw [hz'] at this
              simp at this
            · refine .inr ⟨p, ?_, hl, hq, hr⟩
              simp only [unpark, List.mem_filter, hp, true_and, Bool.not_eq_true', Bool.and_eq_false_iff, beq_eq_false_iff_ne]
              by_cases h1 : p.prio = g.prio
              · exact .inr fun h2 => hk ⟨h1, h2⟩
              · exact .inl h1
        · exact standing_unpark g _ rfl rfl rfl h

theorem standing_displace {n : Nat} {fs : List Entry} {ps : List Parked} {l : Nat} {pr : BitVec 8} {pc : Pc}
    (h : standing fs ps l pr pc) : standing (displace n fs ps).1 (displace n fs ps).2 l pr pc := by
  unfold displace
  split
  · exact h
  · split
    · rename_i g low hg hlow
      apply standing_reenter
      have hsplit : fs = fs.dropLast ++ [low] := by
        have hne : fs ≠ [] := by rintro rfl; simp at hlow
        have := List.dropLast_concat_getLast hne
        rw [List.getLast?_eq_some_getLast hne] at hlow
        cases hlow
        exact this.symm
      have h1 : standing fs.dropLast (parkAt n ps low) l pr pc := by
        rw [hsplit] at h
        simpa using standing_parkAll n [low] h
      rcases h1 with h1 | ⟨p, hp, hl, hq, hr⟩
      · rcases standing_joinEntry (ps := []) ⟨g.prio, g.pc, parkedMask ps g, 255, n⟩ (.inl h1) with h | ⟨_, h, _⟩
        · exact .inl h
        · cases h
      · simp only [parkAt, List.mem_append, List.mem_singleton] at hp
        rcases hp with hp | rfl
        · rcases standing_unpark (fs := fs.dropLast) (ps := ps) g ⟨g.prio, g.pc, parkedMask ps g, 255, n⟩ rfl rfl rfl
              (.inr ⟨p, hp, hl, hq, hr⟩) with h | ⟨q, hq', r⟩
          · exact .inl h
          · exact .inr ⟨q, by simp [parkAt, hq'], r⟩
        · exact .inr ⟨_, by simp [parkAt], hl, hq, hr⟩
    · exact h

/-- Releasing masks only adds threads to the frontier. -/
theorem standing_release (ks : List Nat) : ∀ {w : Warp} {ps : List Parked} {l : Nat} {pr : BitVec 8} {pc : Pc},
    standing w.front ps l pr pc →
    standing (ks.foldl (fun w k => if w.rejoinMet k then w.releaseMask k else w) w).front ps l pr pc := by
  induction ks with
  | nil => exact fun h => h
  | cons k ks ih =>
    intro w ps l pr pc h
    apply ih
    dsimp only
    split
    · exact standing_foldMoves _ h
    · exact h

theorem release_parked (ks : List Nat) (w : Warp) :
    (ks.foldl (fun w k => if w.rejoinMet k then w.releaseMask k else w) w).parked = w.parked := by
  induction ks generalizing w with
  | nil => rfl
  | cons k ks ih =>
    simp only [List.foldl_cons]
    rw [ih]
    split <;> rfl

/-- After an issue a thread stands where a move of the instruction sends it (R82, R83, R88). -/
theorem afterIssue_stands (w : Warp) (bundle : Mask) (ms : List Move) (m : Move) (hm : m ∈ ms) (l : Nat)
    (h : m.mask.getLsbD l = true) : (w.afterIssue bundle ms).stands l m.prio m.pc := by
  have h1 := standing_foldMoves_mem ((leaveFront w.front bundle).map (ageEntry (w.issues + 1)))
    (w.parked.map fun p => { p with age := if p.age ≥ 255 then 255 else p.age + 1 }) ms m hm l h
  show standing _ _ l m.prio m.pc
  unfold Warp.afterIssue
  dsimp only
  apply standing_displace
  apply standing_reenter
  apply standing_overflow
  unfold Warp.releaseCheck
  split
  · exact h1
  · rw [release_parked]
    exact standing_release _ h1

/-! ### Completion -/

theorem releaseFold_none (ks : List Nat) (w : Warp) (h : ∀ k ∈ ks, w.rejoinMet k = false) :
    ks.foldl (fun w k => if w.rejoinMet k then w.releaseMask k else w) w = w := by
  induction ks with
  | nil => rfl
  | cons k ks ih =>
    simp only [List.foldl_cons]
    rw [h k (by simp)]
    exact ih fun j hj => h j (by simp [hj])

theorem releaseCheck_none (w : Warp) (h : ∀ k, k < 8 → w.rejoinMet k = false) : w.releaseCheck = w := by
  unfold Warp.releaseCheck
  split
  · rfl
  · exact releaseFold_none _ _ fun k hk => h k (by simpa using hk)

theorem releaseFold_rest (ks : List Nat) (w : Warp) :
    (ks.foldl (fun w k => if w.rejoinMet k then w.releaseMask k else w) w).rest = w.rest ∧
      (ks.foldl (fun w k => if w.rejoinMet k then w.releaseMask k else w) w).v = w.v ∧
      (ks.foldl (fun w k => if w.rejoinMet k then w.releaseMask k else w) w).s = w.s ∧
      (ks.foldl (fun w k => if w.rejoinMet k then w.releaseMask k else w) w).p = w.p := by
  induction ks generalizing w with
  | nil => exact ⟨rfl, rfl, rfl, rfl⟩
  | cons k ks ih =>
    simp only [List.foldl_cons]
    split
    · exact ih (w.releaseMask k)
    · exact ih w

theorem releaseCheck_rest (w : Warp) :
    w.releaseCheck.rest = w.rest ∧ w.releaseCheck.v = w.v ∧ w.releaseCheck.s = w.s ∧ w.releaseCheck.p = w.p := by
  unfold Warp.releaseCheck
  split
  · exact ⟨rfl, rfl, rfl, rfl⟩
  · exact releaseFold_rest _ _

/-- The registers of a warp that an issue ends in are those of the warp it leaves. -/
theorem warpAfter_regs (x : Ix) (go : List Move) (w : Warp) :
    (x.warpAfter go w).v = w.v ∧ (x.warpAfter go w).s = w.s ∧ (x.warpAfter go w).p = w.p := by
  have h := releaseCheck_rest
    { w with
      issues := w.issues + 1
      front := go.foldl joinMove ((leaveFront w.front x.c.bundle).map (ageEntry (w.issues + 1)))
      parked := w.parked.map fun p => { p with age := if p.age ≥ 255 then 255 else p.age + 1 } }
  exact ⟨h.2.1, h.2.2.1, h.2.2.2⟩

theorem warpAfter_settles (x : Ix) (go : List Move) (w : Warp) : Settles w (x.warpAfter go w) where
  rest := (releaseCheck_rest
    { w with
      issues := w.issues + 1
      front := go.foldl joinMove ((leaveFront w.front x.c.bundle).map (ageEntry (w.issues + 1)))
      parked := w.parked.map fun p => { p with age := if p.age ≥ 255 then 255 else p.age + 1 } }).1
  hold := rfl
  tpnd := rfl
  masks h := by
    have := releaseCheck_none
      { w with
        issues := w.issues + 1
        front := go.foldl joinMove ((leaveFront w.front x.c.bundle).map (ageEntry (w.issues + 1)))
        parked := w.parked.map fun p => { p with age := if p.age ≥ 255 then 255 else p.age + 1 } } h
    constructor
    · have hb := congrArg Warp.blocked this
      exact hb
    · intro k
      have hk := congrArg (fun w => Warp.kget w k) this
      exact hk

theorem warpAfter_stands (x : Ix) (go : List Move) (w : Warp) (m : Move) (hm : m ∈ go) :
    (x.warpAfter go w).standAt m.mask m.prio m.pc := fun l hl => afterIssue_stands w x.c.bundle go m hm l hl

/-- Completing an issue changes the warp and the port alone. -/
theorem complete_only (x : Ix) (cap : Option (Nat × Latch)) (go : List Move) (u : State) (g : Wg) (v : Warp)
    (hg : look u.wgs x.c.wid = some g) (hv : look g.warps x.c.warp = some v) :
    OnlyWarp x u (x.complete cap go u) (x.warpAfter go v) where
  issued := rfl
  warp := by
    simp [Ix.complete, Ix.issued, State.modWarp, State.modWg, Wg.modWarp, State.warp?, look_upd, hg, hv]
  machine := rfl
  groups n hn := by
    simp [Ix.complete, Ix.issued, State.modWarp, State.modWg, look_upd, hn]
  group h hh := by
    refine ⟨h.modWarp x.c.warp (x.warpAfter go), ?_, rfl, ?_⟩
    · simp [Ix.complete, Ix.issued, State.modWarp, State.modWg, look_upd, hh]
    · intro j hj
      simp [Wg.modWarp, look_upd, hj]
  cores n hn := by
    simp [Ix.complete, Ix.issued, State.modCore, State.setCore, State.core, lookD_ins_other _ _ _ _ _ hn]
  core p := by
    simp only [Ix.complete, Ix.issued, State.modCore, State.setCore, State.core, State.modWarp, State.modWg, lookD_ins_same]
    unfold Core.setPort
    split <;> rfl
  memory a := ⟨rfl, rfl⟩

theorem Core.port_setPort (c : Core) (p : Nat) (y : Port) : (c.setPort p y).port p = y := by
  unfold Core.port Core.setPort
  split <;> simp_all

theorem complete_port (x : Ix) (cap : Option (Nat × Latch)) (go : List Move) (u : State) :
    x.portIs (x.complete cap go u) (putLatch x.kept cap) := by
  simp [Ix.portIs, Ix.complete, Ix.issued, State.modCore, State.setCore, State.core, State.modWarp, State.modWg,
    lookD_ins_same, Core.port_setPort, Ix.portAfter]

/-! ### Results -/

theorem mem_lanesOf (m : Mask) (l : Nat) : l ∈ lanesOf m ↔ m.getLsbD l = true := by
  simp only [lanesOf, List.mem_filter, List.mem_range, and_iff_right_iff_imp]
  intro h
  exact BitVec.lt_of_getLsbD h

theorem lanes_lt {m : Mask} {l : Nat} (h : m.getLsbD l = true) : l < 128 := BitVec.lt_of_getLsbD h

theorem vget_vset (w : Warp) (n l m k : Nat) (y : Word) (hl : l < 128) (hk : k < 128) :
    (w.vset n l y).vget m k = if m = n ∧ k = l then y else w.vget m k := by
  unfold Warp.vget Warp.vset
  by_cases h : m = n ∧ k = l
  · simp [h.1, h.2]
  · rw [if_neg h, lookD_ins_other]
    omega

theorem sget_sset (w : Warp) (n m : Nat) (y : Word) : (w.sset n y).sget m = if m = n then y else w.sget m := by
  unfold Warp.sget Warp.sset
  by_cases h : m = n
  · simp [h]
  · rw [if_neg h, lookD_ins_other _ _ _ _ _ h]

theorem pget_pset (w : Warp) (n m : Nat) (lanes bits : Mask) :
    (w.pset n lanes bits).pget m = if m = 7 then BitVec.allOnes 128 else
      if m = n then (w.pget n &&& ~~~lanes) ||| (bits &&& lanes) else w.pget m := by
  unfold Warp.pset
  by_cases h7 : m = 7
  · simp [Warp.pget, h7]
  · by_cases h : m = n
    · subst h
      simp [Warp.pget, h7]
    · simp only [Warp.pget, h7, if_false, h]
      rw [lookD_ins_other _ _ _ _ _ h]

theorem getLsbD_laneBit (l k : Nat) (h : l < 128) : (laneBit l).getLsbD k = decide (k = l) := by
  unfold laneBit
  rw [BitVec.getLsbD_ofNat, Nat.testBit_two_pow]
  by_cases hk : k = l
  · subst hk; simp [h]
  · have : l ≠ k := fun e => hk e.symm
    simp [hk, this]

theorem getLsbD_maskOf_foldl (ls : List Nat) (m : Mask) (k : Nat) (h : ∀ l ∈ ls, l < 128) :
    (ls.foldl (fun m l => m ||| laneBit l) m).getLsbD k = (m.getLsbD k || decide (k ∈ ls)) := by
  induction ls generalizing m with
  | nil => simp
  | cons a ls ih =>
    simp only [List.foldl_cons]
    rw [ih _ fun l hl => h l (by simp [hl]), BitVec.getLsbD_or, getLsbD_laneBit a k (h a (by simp))]
    simp [List.mem_cons, Bool.or_assoc]

theorem getLsbD_maskOf (ls : List Nat) (k : Nat) (h : ∀ l ∈ ls, l < 128) : (maskOf ls).getLsbD k = decide (k ∈ ls) := by
  have := getLsbD_maskOf_foldl ls 0 k h
  simpa [maskOf] using this

theorem mem_lanes (x : Ix) (l : Nat) : l ∈ x.lanes ↔ x.on.getLsbD l = true := mem_lanesOf _ _

theorem lanes_nil (x : Ix) : x.lanes = [] ↔ x.on = 0 := by
  constructor
  · intro h
    apply BitVec.eq_of_getLsbD_eq
    intro i _
    have : ¬ x.on.getLsbD i = true := by
      intro hi
      have := (mem_lanes x i).2 hi
      rw [h] at this
      cases this
    simpa using this
  · intro h
    apply List.eq_nil_iff_forall_not_mem.2
    intro l hl
    have := (mem_lanes x l).1 hl
    simp [h] at this

/-- A fold of writes to one v register over some lanes. -/
theorem vget_foldl_vset (ls : List Nat) (n : Nat) (f : Nat → BitVec 64) (w : Warp) (m k : Nat)
    (hl : ∀ l ∈ ls, l < 128) (hk : k < 128) :
    ((ls.map fun l => (l, f l)).foldl (fun w (r : LaneVal) => w.vset n r.1 (r.2.setWidth 32)) w).vget m k =
      if m = n ∧ k ∈ ls then (f k).setWidth 32 else w.vget m k := by
  induction ls generalizing w with
  | nil => simp
  | cons a ls ih =>
    simp only [List.map_cons, List.foldl_cons]
    rw [ih _ (fun l h => hl l (by simp [h])), vget_vset _ _ _ _ _ _ (hl a (by simp)) hk]
    by_cases hm : m = n
    · by_cases hka : k = a
      · subst hka; simp [hm]
      · by_cases hkl : k ∈ ls <;> simp [hm, hka, hkl]
    · simp [hm]

theorem vget_foldl_vsetPair (ls : List Nat) (n : Nat) (f : Nat → BitVec 64) (w : Warp) (m k : Nat)
    (hl : ∀ l ∈ ls, l < 128) (hk : k < 128) :
    ((ls.map fun l => (l, f l)).foldl (fun w (r : LaneVal) => w.vsetPair n r.1 r.2) w).vget m k =
      if k ∈ ls then (if m = n then (f k).setWidth 32 else if m = n + 1 then (f k).extractLsb' 32 32 else w.vget m k)
      else w.vget m k := by
  induction ls generalizing w with
  | nil => simp
  | cons a ls ih =>
    simp only [List.map_cons, List.foldl_cons]
    rw [ih _ (fun l h => hl l (by simp [h]))]
    have hv : (w.vsetPair n a (f a)).vget m k =
        if k = a then (if m = n then (f k).setWidth 32 else if m = n + 1 then (f k).extractLsb' 32 32 else w.vget m k)
        else w.vget m k := by
      unfold Warp.vsetPair
      rw [vget_vset _ _ _ _ _ _ (hl a (by simp)) hk, vget_vset _ _ _ _ _ _ (hl a (by simp)) hk]
      by_cases hka : k = a
      · subst hka
        by_cases hm : m = n
        · subst hm; simp
        · simp [hm]
      · simp [hka]
    rw [hv]
    by_cases hka : k = a
    · subst hka
      by_cases hkl : k ∈ ls
      · simp only [hkl, if_true, List.mem_cons, true_or]
        by_cases hm : m = n <;> by_cases hp : m = n + 1 <;> simp [hm, hp]
      · simp [hkl]
    · simp [hka]

/-- Only what a fold of updates reads of a warp matters to what stays alike. -/
theorem foldl_keeps {α β : Type} (g : Warp → β) (step : Warp → α → Warp) (h : ∀ w a, g (step w a) = g w) (ls : List α) (w : Warp) :
    g (ls.foldl step w) = g w := by
  induction ls generalizing w with
  | nil => rfl
  | cons a ls ih => rw [List.foldl_cons, ih, h]

theorem writeD_rest (w : Warp) (d : Opnd) (wide : Bool) (rs : List LaneVal) : (w.writeD d wide rs).rest = w.rest := by
  cases d <;> simp only [Warp.writeD]
  · exact foldl_keeps Warp.rest _ (fun w r => by split <;> rfl) rs w
  · exact foldl_keeps Warp.rest _ (fun w r => by split <;> rfl) rs w
  · rfl

theorem take_one (ls : List Nat) : ls.take 1 = if ls = [] then [] else [firstOf ls] := by
  cases ls <;> simp [firstOf]

theorem ofNat64_low (n : Nat) : (BitVec.ofNat 64 n).setWidth 32 = BitVec.ofNat 32 n := by
  apply BitVec.eq_of_toNat_eq
  simp only [BitVec.toNat_setWidth, BitVec.toNat_ofNat]
  omega

theorem ofNat64_high (n : Nat) : (BitVec.ofNat 64 n).extractLsb' 32 32 = BitVec.ofNat 32 (n / 2 ^ 32) := by
  apply BitVec.eq_of_toNat_eq
  simp only [BitVec.extractLsb'_toNat, BitVec.toNat_ofNat, Nat.shiftRight_eq_div_pow]
  omega

/-- What writing a result to `d` in the computing lanes leaves in the registers. -/
theorem writeD_wrote (x : Ix) (u : Warp) (d : Opnd) (wide : Bool) (f : Nat → Nat) (ls : List Nat)
    (hls : ls = x.lanes ∧ d.isS = false ∨ ls = x.lanes.take 1 ∧ d.isS = true) (hn : x.f.hd.nwb = false) :
    Wrote x u d wide f (u.writeD d wide (ls.map fun l => (l, BitVec.ofNat 64 (f l)))) := by
  have hlt : ∀ l ∈ ls, l < 128 := by
    intro l hl
    rcases hls with ⟨rfl, -⟩ | ⟨rfl, -⟩
    · exact lanes_lt ((mem_lanes x l).1 hl)
    · exact lanes_lt ((mem_lanes x l).1 (List.mem_of_mem_take hl))
  cases d with
  | v n =>
    obtain ⟨rfl, -⟩ := hls.resolve_right (by simp [Opnd.isS])
    refine ⟨?_, ?_, ?_⟩
    · intro m l hl
      simp only [Warp.writeD, Ix.vWant, hn, Bool.false_or]
      cases wide
      · simp only [Bool.false_eq_true, if_false, Bool.false_and]
        rw [vget_foldl_vset _ _ (fun l => BitVec.ofNat 64 (f l)) _ _ _ hlt hl, ofNat64_low]
        simp only [mem_lanes]
        by_cases hon : x.on.getLsbD l = true <;> by_cases hm : m = n.toNat <;> simp [hon, hm]
      · simp only [if_true, Bool.true_and]
        rw [vget_foldl_vsetPair _ _ (fun l => BitVec.ofNat 64 (f l)) _ _ _ hlt hl, ofNat64_low, ofNat64_high]
        simp only [mem_lanes]
        by_cases hon : x.on.getLsbD l = true <;> simp [hon]
    · intro m
      exact foldl_keeps (fun w => Warp.sget w m) _ (fun w r => by split <;> rfl) _ _
    · intro m l _
      exact congrArg (fun (b : Mask) => b.getLsbD l)
        (foldl_keeps (fun w => Warp.pget w m) _ (fun w r => by split <;> rfl) _ _)
  | s n =>
    obtain ⟨rfl, -⟩ := hls.resolve_left (by simp [Opnd.isS])
    have hz : (x.on == 0) = decide (x.lanes = []) := by
      by_cases h : x.on = 0
      · simp [h, (lanes_nil x).2 h]
      · have : x.lanes ≠ [] := fun e => h ((lanes_nil x).1 e)
        simpa [this] using h
    refine ⟨?_, ?_, ?_⟩
    · intro m l _
      exact foldl_keeps (fun w => Warp.vget w m l) _ (fun w r => by split <;> rfl) _ _
    · intro m
      simp only [Warp.writeD, Ix.sWant, hn, Bool.false_or, take_one, hz]
      by_cases he : x.lanes = []
      · simp [he]
      · simp only [he, if_false, List.map_cons, List.map_nil, List.foldl_cons, List.foldl_nil, decide_false, Bool.false_eq_true]
        cases wide
        · simp only [Bool.false_eq_true, if_false, Bool.false_and, sget_sset, ofNat64_low]
        · simp only [if_true, Bool.true_and, Warp.ssetPair, sget_sset, ofNat64_low, ofNat64_high, beq_iff_eq]
          by_cases hm : m = n.toNat
          · subst hm; simp
          · simp [hm]
    · intro m l _
      exact congrArg (fun (b : Mask) => b.getLsbD l)
        (foldl_keeps (fun w => Warp.pget w m) _ (fun w r => by split <;> rfl) _ _)
  | p n =>
    obtain ⟨rfl, -⟩ := hls.resolve_right (by simp [Opnd.isS])
    refine ⟨fun m l _ => rfl, fun m => rfl, ?_⟩
    intro m l hl
    simp only [Warp.writeD, Ix.pWant, hn, Bool.false_or]
    rw [pget_pset]
    by_cases h7 : m = 7
    · simp [h7, Warp.pget]
    · by_cases hm : m = n.toNat
      · subst hm
        have hset : ∀ b ∈ (x.lanes.map fun l => (l, BitVec.ofNat 64 (f l))).map (·.1), b < 128 := by
          intro b hb
          simp only [List.map_map, List.mem_map, Function.comp] at hb
          obtain ⟨a, ha, rfl⟩ := hb
          exact hlt a ha
        have hset2 : ∀ b ∈ ((x.lanes.map fun l => (l, BitVec.ofNat 64 (f l))).filter fun r => r.2 != 0).map (·.1), b < 128 := by
          intro b hb
          simp only [List.mem_map, List.mem_filter] at hb
          obtain ⟨r, ⟨⟨a, ha, rfl⟩, -⟩, rfl⟩ := hb
          exact hlt a ha
        simp only [h7, if_false, if_true, BitVec.getLsbD_or, BitVec.getLsbD_and, BitVec.getLsbD_not, getLsbD_maskOf _ _ hset,
          getLsbD_maskOf _ _ hset2, hl, decide_true, Bool.true_and]
        have e1 : (l ∈ (x.lanes.map fun l => (l, BitVec.ofNat 64 (f l))).map (·.1)) ↔ x.on.getLsbD l = true := by
          simp [List.map_map, Function.comp_def, mem_lanes]
        have e2 : (l ∈ ((x.lanes.map fun l => (l, BitVec.ofNat 64 (f l))).filter fun r => r.2 != 0).map (·.1)) ↔
            x.on.getLsbD l = true ∧ f l % 2 ^ 64 ≠ 0 := by
          constructor
          · intro h
            simp only [List.mem_map, List.mem_filter] at h
            obtain ⟨r, ⟨⟨a, ha, rfl⟩, hr⟩, rfl⟩ := h
            refine ⟨(mem_lanes x _).1 ha, ?_⟩
            intro e
            have : BitVec.ofNat 64 (f a) = 0 := by
              apply BitVec.eq_of_toNat_eq
              simpa using e
            simp [this] at hr
          · rintro ⟨h1, h2⟩
            simp only [List.mem_map, List.mem_filter]
            refine ⟨_, ⟨⟨l, (mem_lanes x l).2 h1, rfl⟩, ?_⟩, rfl⟩
            simp only [bne_iff_ne, ne_eq]
            intro e
            apply h2
            have := congrArg BitVec.toNat e
            simpa using this
        simp only [e1, e2]
        by_cases hon : x.on.getLsbD l = true
        · by_cases hf : f l % 18446744073709551616 = 0 <;> simp [hon, hf, h7]
        · simp [hon]
      · simp [h7, hm]
  | k n | t n | a n | b n | imm n => exact ⟨fun m l _ => rfl, fun m => rfl, fun m l _ => rfl⟩

theorem wrote_nwb (x : Ix) (u : Warp) (d : Opnd) (wide : Bool) (f : Nat → Nat) (hn : x.f.hd.nwb = true) :
    Wrote x u d wide f u := by
  refine ⟨fun m l _ => ?_, fun m => ?_, fun m l _ => ?_⟩ <;> cases d <;> simp [Ix.vWant, Ix.sWant, Ix.pWant, hn]

/-- What a typed result leaves in the registers (R57, R67, R130, R132). -/
theorem written_wrote (x : Ix) (u : Warp) (d : Opnd) (wide : Bool) (f : Nat → Nat) :
    Wrote x u d wide f (x.written u d wide (x.each d f)) := by
  unfold Ix.written
  split
  · rename_i h
    exact wrote_nwb x u d wide f h
  · rename_i h
    refine writeD_wrote x u d wide f (x.computing d) ?_ (by simpa using h)
    unfold Ix.computing
    by_cases hd : d.isS = true
    · exact .inr ⟨by simp [hd], hd⟩
    · exact .inl ⟨by simp [hd], by simpa using hd⟩

theorem written_rest (x : Ix) (u : Warp) (d : Opnd) (wide : Bool) (rs : List LaneVal) : (x.written u d wide rs).rest = u.rest := by
  unfold Ix.written
  split
  · rfl
  · exact writeD_rest u d wide rs

/-! ### Latches (R128) -/

theorem look_map_pairs {α : Type} (ls : List Nat) (f : Nat → α) (l : Nat) (h : ls.Pairwise (· < ·)) :
    look (ls.map fun k => (k, f k)) l = if l ∈ ls then some (f l) else none := by
  induction ls with
  | nil => rfl
  | cons a ls ih =>
    simp only [List.map_cons, look]
    by_cases ha : a = l
    · subst ha; simp
    · rw [if_neg ha]
      by_cases hl : l < a
      · rw [if_pos hl]
        have : l ∉ a :: ls := by
          intro hm
          rcases List.mem_cons.1 hm with rfl | hm
          · exact ha rfl
          · have := (List.pairwise_cons.1 h).1 l hm
            omega
        simp [this]
      · rw [if_neg hl, ih (List.pairwise_cons.1 h).2]
        have : l ≠ a := fun e => ha e.symm
        simp [this]

theorem lanesOf_sorted (m : Mask) : (lanesOf m).Pairwise (· < ·) := by
  unfold lanesOf
  exact List.Pairwise.filter _ List.pairwise_lt_range

/-- What a capture leaves in the latches. -/
theorem capture_latches (x : Ix) (d : Opnd) (wide : Bool) (f : Nat → Nat) (t : State)
    (h : x.portIs t (putLatch x.kept (x.capture d wide (x.each d f)))) : x.latches d wide f t := by
  refine ⟨_, h, ?_, ?_⟩
  · intro hc
    simp [Ix.capture, hc, putLatch]
  · intro hc
    refine ⟨?_, ?_⟩
    · intro n hn
      simp only [Ix.capture, hc, if_true, putLatch]
      exact look_ins_other _ _ _ _ hn
    · simp only [Ix.capture, hc, if_true, putLatch]
      refine ⟨_, look_ins_same _ _ _, rfl, ?_⟩
      intro l hl
      by_cases hd : d.isS = true
      · simp only [hd, if_true, Ix.each, Ix.computing, take_one]
        by_cases he : x.lanes = []
        · have : x.on = 0 := (lanes_nil x).1 he
          simp [he, this, lookD]
        · have hon : x.on ≠ 0 := fun e => he ((lanes_nil x).2 e)
          have hb : (x.on == 0) = false := by simpa using hon
          simp only [he, if_false, List.map_cons, List.map_nil, hb, Bool.false_eq_true, lookD]
          rw [look_map_pairs _ (fun _ => BitVec.ofNat 64 (f (firstOf x.lanes))) l List.pairwise_lt_range]
          simp [hl]
      · simp only [Bool.not_eq_true] at hd
        simp only [hd, Bool.false_eq_true, if_false, Ix.each, Ix.computing, lookD]
        rw [look_map_pairs x.lanes (fun l => BitVec.ofNat 64 (f l)) l (lanesOf_sorted _)]
        by_cases hon : x.on.getLsbD l = true <;> simp [mem_lanes, hon]

/-! ### The four ways in which an instruction of a core completes -/

/-- What a settled warp keeps follows from what the instruction's own change keeps. -/
theorem Settles.of_same {u v w : Warp} (hs : Settles v w) (hr : v.rest = u.rest) (hb : v.blocked = u.blocked) (hk : v.k = u.k) :
    Settles u w where
  rest := hs.rest.trans hr
  hold := hs.hold
  tpnd := hs.tpnd
  masks h := by
    have hl : v.live = u.live := by
      have := congrArg Warp.live hr
      exact this
    have hm : ∀ k, v.rejoinMet k = u.rejoinMet k := by
      intro k
      simp [Warp.rejoinMet, Warp.blockedOn, Warp.kget, hb, hk, hl]
    obtain ⟨h1, h2⟩ := hs.masks fun k hk8 => (hm k).trans (h k hk8)
    refine ⟨h1.trans hb, fun k => ?_⟩
    rw [h2 k]
    simp [Warp.kget, hk]

theorem Wrote.of_regs {x : Ix} {u v w : Warp} {d : Opnd} {wide : Bool} {f : Nat → Nat} (h : Wrote x u d wide f v)
    (hv : w.v = v.v) (hs : w.s = v.s) (hp : w.p = v.p) : Wrote x u d wide f w where
  v m l hl := by rw [← h.v m l hl]; simp [Warp.vget, hv]
  s m := by rw [← h.s m]; simp [Warp.sget, hs]
  p m l hl := by rw [← h.p m l hl]; simp [Warp.pget, hp]

theorem written_blocked (x : Ix) (u : Warp) (d : Opnd) (wide : Bool) (rs : List LaneVal) :
    (x.written u d wide rs).blocked = u.blocked ∧ (x.written u d wide rs).k = u.k := by
  unfold Ix.written
  split
  · exact ⟨rfl, rfl⟩
  · cases d <;> simp only [Warp.writeD, Warp.pset, and_self]
    · exact ⟨foldl_keeps Warp.blocked _ (fun w r => by split <;> rfl) rs u,
        foldl_keeps Warp.k _ (fun w r => by split <;> rfl) rs u⟩
    · exact ⟨foldl_keeps Warp.blocked _ (fun w r => by split <;> rfl) rs u,
        foldl_keeps Warp.k _ (fun w r => by split <;> rfl) rs u⟩

/-- The machine in which an instruction's own change of its warp has been made. -/
theorem look_modWarp {s : State} {i : Instr} {x : Ix} (h : Ix.of s i = some x) (w : Warp) :
    look (x.s.modWarp x.c.wid x.c.warp fun _ => w).wgs x.c.wid = some (x.g.modWarp x.c.warp fun _ => w) ∧
      look (x.g.modWarp x.c.warp fun _ => w).warps x.c.warp = some w := by
  obtain ⟨rfl, -, -, hg, hw, -⟩ := of_facts h
  constructor
  · simp [State.modWarp, State.modWg, look_upd, hg]
  · simp [Wg.modWarp, look_upd, hw]

/-- A change of a warp inside the machine is no change but that one. -/
theorem OnlyWarp.of_modWarp {s : State} {i : Instr} {x : Ix} (h : Ix.of s i = some x) (v w : Warp) (t : State)
    (ho : OnlyWarp x (x.s.modWarp x.c.wid x.c.warp fun _ => v) t w) : OnlyWarp x x.s t w where
  issued := ho.issued
  warp := ho.warp
  machine := by
    have := congrArg (fun y : State => { y with wgs := x.s.wgs, cores := x.s.cores, cur := x.s.cur }) ho.machine
    exact this
  groups n hn := by
    rw [ho.groups n hn]
    simp [State.modWarp, State.modWg, look_upd, hn]
  group g hg := by
    obtain ⟨h1, h2⟩ := look_modWarp h v
    obtain ⟨k, hk, he, hj⟩ := ho.group _ h1
    have hgx : g = x.g := by
      obtain ⟨-, -, -, hgg, -⟩ := of_facts h
      rw [(of_facts h).1, hgg] at hg
      cases hg
      rfl
    subst hgx
    refine ⟨k, hk, ?_, ?_⟩
    · have := congrArg (fun y : Wg => { y with warps := x.g.warps }) he
      exact this
    · intro j hjn
      rw [hj j hjn]
      simp [Wg.modWarp, look_upd, hjn]
  cores n hn := ho.cores n hn
  core p := ho.core p
  memory a := ho.memory a

/-- A register result: what an instruction that changes only its warp leaves (`exec` named by `he`). -/
theorem writes_of_regs {s : State} {i : Instr} {x : Ix} (h : issuing s i = some x) (u w : Warp) (d : Opnd) (wide : Bool)
    (f : Nat → Nat) (he : exec i s = .next (x.settle (.regs w (x.capture d wide (x.each d f)) x.c.advance)))
    (hw : Wrote x u d wide f w) (hr : w.rest = u.rest) (hb : w.blocked = u.blocked) (hk : w.k = u.k) :
    Writes i x u d wide f := by
  obtain ⟨ho, -⟩ := issuing_of h
  have hx := (of_facts ho).1
  subst hx
  obtain ⟨h1, h2⟩ := look_modWarp ho w
  have hc := complete_only x (x.capture d wide (x.each d f)) x.c.advance _ _ _ h1 h2
  refine ⟨_, x.warpAfter x.c.advance w, ?_, hc.of_modWarp ho, ?_, ?_, ?_, ?_⟩
  · exact he
  · exact (warpAfter_settles x x.c.advance w).of_same hr hb hk
  · obtain ⟨a, b, c⟩ := warpAfter_regs x x.c.advance w
    exact hw.of_regs a b c
  · exact warpAfter_stands x x.c.advance w ⟨x.c.prio, x.c.pc + 12, x.c.bundle⟩ (by simp [Cur.advance])
  · exact capture_latches x d wide f _ (complete_port x _ _ _)

/-- An instruction whose effect is one typed result. -/
theorem gives_of_give {i : Instr} {d : Opnd} {wide : Bool} {f : Ix → Nat → Nat}
    (body : Ix → Eff) (he : ∀ s, exec i s = issue i s body) (hb : ∀ x, body x = x.give d wide (x.each d (f x))) :
    Gives i d wide f := by
  intro s x h
  obtain ⟨k1, k2⟩ := written_blocked x x.w d wide (x.each d (f x))
  refine writes_of_regs h x.w _ d wide (f x) ?_ (written_wrote x x.w d wide (f x)) (written_rest _ _ _ _ _) k1 k2
  rw [he, issue_of_issuing h, hb]
  rfl

/-- An instruction that changes its warp, but for its v, s and p registers. -/
theorem leaves_of_regs {s : State} {i : Instr} {x : Ix} (h : issuing s i = some x) (w : Warp)
    (he : exec i s = .next (x.settle (.regs w none x.c.advance))) : Leaves i x w := by
  obtain ⟨ho, -⟩ := issuing_of h
  have hx := (of_facts ho).1
  subst hx
  obtain ⟨h1, h2⟩ := look_modWarp ho w
  have hc := complete_only x none x.c.advance _ _ _ h1 h2
  refine ⟨_, x.warpAfter x.c.advance w, ?_, hc.of_modWarp ho, warpAfter_settles x x.c.advance w, ?_, ?_, ?_⟩
  · exact he
  · obtain ⟨a, b, c⟩ := warpAfter_regs x x.c.advance w
    exact ⟨fun m l _ => by simp [Warp.vget, a], fun m => by simp [Warp.sget, b], fun m => by simp [Warp.pget, c]⟩
  · exact warpAfter_stands x x.c.advance w ⟨x.c.prio, x.c.pc + 12, x.c.bundle⟩ (by simp [Cur.advance])
  · exact complete_port x none _ _

/-- An instruction that changes the machine and writes no register. -/
theorem makes_of_mach {s : State} {i : Instr} {x : Ix} (h : issuing s i = some x) (u : State) (g : Wg) (v : Warp)
    (he : exec i s = .next (x.settle (.mach u none x.c.advance)))
    (hg : look u.wgs x.c.wid = some g) (hv : look g.warps x.c.warp = some v) : Makes i x u := by
  obtain ⟨ho, -⟩ := issuing_of h
  have hx := (of_facts ho).1
  subst hx
  refine ⟨_, x.warpAfter x.c.advance v, v, ?_, ?_, complete_only x none x.c.advance u g v hg hv,
    warpAfter_settles x x.c.advance v, ?_, ?_, ?_⟩
  · exact he
  · simp [State.warp?, hg, hv]
  · obtain ⟨a, b, c⟩ := warpAfter_regs x x.c.advance v
    exact ⟨fun m l _ => by simp [Warp.vget, a], fun m => by simp [Warp.sget, b], fun m => by simp [Warp.pget, c]⟩
  · exact warpAfter_stands x x.c.advance v ⟨x.c.prio, x.c.pc + 12, x.c.bundle⟩ (by simp [Cur.advance])
  · exact complete_port x none _ _

/-- An instruction that changes the machine and writes a result. -/
theorem makesGives_of_mach {s : State} {i : Instr} {x : Ix} (h : issuing s i = some x) (u : State) (g : Wg) (v w : Warp)
    (d : Opnd) (wide : Bool) (f : Nat → Nat) (s' : State)
    (he : exec i s = .next (x.settle (.mach s' (x.capture d wide (x.each d f)) x.c.advance)))
    (hs : s' = u.modWarp x.c.wid x.c.warp fun _ => w)
    (hg : look u.wgs x.c.wid = some g) (hv : look g.warps x.c.warp = some v)
    (hw : Wrote x v d wide f w) (hr : w.rest = v.rest) (hb : w.blocked = v.blocked) (hk : w.k = v.k) :
    MakesGives i x u d wide f := by
  obtain ⟨ho, -⟩ := issuing_of h
  have hx := (of_facts ho).1
  subst hx
  have h1 : look s'.wgs x.c.wid = some (g.modWarp x.c.warp fun _ => w) := by
    simp [hs, State.modWarp, State.modWg, look_upd, hg]
  have h2 : look (g.modWarp x.c.warp fun _ => w).warps x.c.warp = some w := by simp [Wg.modWarp, look_upd, hv]
  have hc := complete_only x (x.capture d wide (x.each d f)) x.c.advance s' _ _ h1 h2
  refine ⟨x.complete (x.capture d wide (x.each d f)) x.c.advance s', x.warpAfter x.c.advance w, v, he, ?_, ?_, ?_, ?_, ?_, ?_⟩
  · simp [State.warp?, hg, hv]
  · refine ⟨hc.issued, hc.warp, ?_, ?_, ?_, ?_, ?_, ?_⟩
    · have := congrArg (fun y : State => { y with wgs := u.wgs, cores := u.cores, cur := u.cur }) hc.machine
      rw [hs] at this
      rw [hs]
      exact this
    · intro n hn
      rw [hc.groups n hn]
      simp [hs, State.modWarp, State.modWg, look_upd, hn]
    · intro y hy
      rw [hg] at hy
      cases hy
      obtain ⟨k, hk', he', hj⟩ := hc.group _ h1
      refine ⟨k, hk', ?_, ?_⟩
      · have := congrArg (fun y : Wg => { y with warps := g.warps }) he'
        exact this
      · intro j hjn
        rw [hj j hjn]
        simp [Wg.modWarp, look_upd, hjn]
    · intro n hn
      rw [hc.cores n hn, hs]
      rfl
    · intro p
      rw [hc.core p, hs]
      rfl
    · intro a
      have := hc.memory a
      rw [hs] at this
      rw [hs]
      exact this
  · exact (warpAfter_settles x x.c.advance w).of_same hr hb hk
  · obtain ⟨a, b, c⟩ := warpAfter_regs x x.c.advance w
    exact hw.of_regs a b c
  · exact warpAfter_stands x x.c.advance w ⟨x.c.prio, x.c.pc + 12, x.c.bundle⟩ (by simp [Cur.advance])
  · exact capture_latches x d wide f _ (complete_port x _ _ _)

/-! ### Reads at the dome (R192, R337) -/

/-- A read at the dome changes marks of stash lines and gives up the core's L1 copies of the bytes read, nothing else. -/
theorem domeRead_frame (s : State) (core : Nat) (host : Bool) (pa n : Nat) :
    { s.domeRead core host pa n with wgs := s.wgs, cores := s.cores } = s ∧
    (∀ c, c ≠ core → (s.domeRead core host pa n).core c = s.core c) ∧
    { (s.domeRead core host pa n).core core with l1 := (s.core core).l1 } = s.core core ∧
    ∀ l ∈ ((s.domeRead core host pa n).core core).l1,
      l ∈ (s.core core).l1 ∧ (host = false → pa + n ≤ 128 * l.1 ∨ 128 * l.1 + 128 ≤ pa) := by
  cases host with
  | true => simp [State.domeRead]
  | false =>
    refine ⟨by simp [State.domeRead, State.recall, State.modCore, State.setCore], fun c hc => ?_, ?_, fun l hl => ?_⟩
    · simp [State.domeRead, State.recall, State.modCore, State.setCore, State.core, lookD_ins_other _ _ _ _ _ hc]
    · simp [State.domeRead, State.recall, State.modCore, State.setCore, State.core]
    · simp only [State.domeRead, State.recall, State.modCore, State.setCore, State.core, lookD_ins_same, Bool.false_eq_true, if_false,
        List.mem_filter, Bool.not_eq_true', Bool.and_eq_false_iff, decide_eq_false_iff_not, Nat.not_lt] at hl
      exact ⟨hl.1, fun _ => hl.2.symm.imp id id |>.symm⟩

end Sys2Proof.Machine
end

