-- ==== Sys2Proof/Laws/Fp.lean ====
section
/-! SUPPORT. What a floating-point result comes to: the flags it raises, the cause it meets, and its completion. -/

namespace Sys2Proof.Machine

theorem meeting_pairs (x : Ix) (ls : List Nat) (c : Nat → Cond) (r : Nat) :
    ((ls.map fun l => (l, c l)).filter fun k => meets x.w.enables k.2 r).map (·.1) = x.meeting ls c r := by
  induction ls with
  | nil => rfl
  | cons l ls ih =>
    simp only [Ix.meeting, List.map_cons, List.filter_cons] at ih ⊢
    split <;> simp_all

/-- What a spread list blames. -/
theorem spread_blamed (x : Ix) (d : Opnd) (c : Nat → Cond) (r : Nat) :
    ((x.spread d ((x.computing d).map fun l => (l, c l))).filter fun k => meets x.w.enables k.2 r).map (·.1) =
      x.blamed d (x.computing d) c r := by
  cases hd : d.isS
  · simp [Ix.spread, Ix.blamed, hd, meeting_pairs]
  · cases hl : x.lanes with
    | nil => simp [Ix.spread, Ix.blamed, Ix.computing, Ix.meeting, hd, hl]
    | cons l ls =>
      simp only [Ix.spread, Ix.blamed, Ix.computing, Ix.meeting, hd, hl, if_true, List.take_succ_cons, List.take_zero,
        List.map_cons, List.map_nil, beq_self_eq_true, Bool.and_self]
      cases hm : meets x.w.enables (c l) r
      · simp [hm]
      · have : (ls.map fun l' => (l', c l)).filter (fun k => meets x.w.enables k.2 r) = ls.map fun l' => (l', c l) := by
          rw [List.filter_eq_self]
          simp [hm]
        simp [hm, this, Function.comp_def]

/-- What the lanes' own conditions blame. -/
theorem lanes_blamed (x : Ix) (d : Opnd) (c : Nat → Cond) (r : Nat) :
    ((x.lanes.map fun l => (l, c l)).filter fun k => meets x.w.enables k.2 r).map (·.1) = x.blamed d x.lanes c r := by
  rw [meeting_pairs, Ix.blamed]
  split
  · rename_i h
    simp only [Bool.and_eq_true, beq_iff_eq] at h
    cases hl : x.lanes with
    | nil => simp [Ix.meeting]
    | cons l ls =>
      have : ls = [] := by
        have := h.2
        rw [hl] at this
        simpa using this
      subst this
      simp only [Ix.meeting, List.filter_cons, List.filter_nil]
      cases hm : meets x.w.enables (c l) r <;> simp
  · rfl

/-- Nothing is blamed exactly where nothing is met. -/
theorem blamed_nil (x : Ix) (d : Opnd) (ls : List Nat) (c : Nat → Cond) (r : Nat) :
    x.blamed d ls c r = [] ↔ x.meeting ls c r = [] := by
  unfold Ix.blamed
  split
  · rename_i h
    simp only [Bool.and_eq_true, beq_iff_eq] at h
    split
    · rename_i hm
      simp [hm]
    · rename_i hm
      constructor
      · intro hl
        rw [hl] at h
        simp [Ix.meeting, h.2] at hm
      · exact fun hm' => absurd hm' hm
  · rfl

/-- No condition met: no trap. -/
theorem fpTrap_none (x : Ix) (d : Opnd) (ls : List Nat) (c : Nat → Cond) (bs : List (Nat × Cond))
    (hb : ∀ r, (bs.filter fun k => meets x.w.enables k.2 r).map (·.1) = x.blamed d ls c r)
    (h : ∀ r, r < 6 → x.meeting ls c r = []) : fpTrap x.w.enables bs = none := by
  unfold fpTrap
  rw [List.findSome?_eq_none_iff]
  intro r hr
  have h1 := (blamed_nil x d ls c r).2 (h r (by simpa using hr))
  simp [hb, h1]

/-- The highest-ranked condition met traps (R49). -/
theorem fpTrap_some (x : Ix) (d : Opnd) (ls : List Nat) (c : Nat → Cond) (bs : List (Nat × Cond))
    (hb : ∀ r, (bs.filter fun k => meets x.w.enables k.2 r).map (·.1) = x.blamed d ls c r)
    (r : Nat) (hr : r < 6) (hm : x.meeting ls c r ≠ []) (hq : ∀ q, q < r → x.meeting ls c q = []) :
    fpTrap x.w.enables bs = some ⟨fpCause r, maskOf (x.blamed d ls c r), none, none, none⟩ := by
  unfold fpTrap
  rw [List.findSome?_eq_some_iff]
  refine ⟨List.range r, r, (List.range (5 - r)).map fun k => r + 1 + k, ?_, ?_, ?_⟩
  · have : r = 0 ∨ r = 1 ∨ r = 2 ∨ r = 3 ∨ r = 4 ∨ r = 5 := by omega
    rcases this with rfl | rfl | rfl | rfl | rfl | rfl <;> rfl
  · have h1 : x.blamed d ls c r ≠ [] := fun h => hm ((blamed_nil x d ls c r).1 h)
    simp [hb, h1, Trap.plain]
  · intro q hqr
    have h1 := (blamed_nil x d ls c q).2 (hq q (by simpa using hqr))
    simp [hb, h1]

/-- The flags after every condition is or-ed in (R48). -/
theorem raise_flg (ls : List Nat) (c : Nat → Cond) (f : BitVec 5) (b : Nat) (hb : b < 5) :
    ((ls.map fun l => (l, c l)).foldl (fun f k => f ||| k.2.setWidth 5) f).getLsbD b = true ↔
      f.getLsbD b = true ∨ ∃ l ∈ ls, (c l).getLsbD b = true := by
  induction ls generalizing f with
  | nil => simp
  | cons l ls ih =>
    simp only [List.map_cons, List.foldl_cons, ih]
    simp [hb, or_assoc]

/-- A typed floating-point result, once its lanes' conditions are known; `bs` are the lanes that stand behind them, `g` is what else
changes in the warp. -/
theorem writesFp_of {s : State} {i : Instr} {x : Ix} (h : issuing s i = some x) (g : Warp → Warp) (d : Opnd) (wide : Bool)
    (ls : List Nat) (f : Nat → Nat) (c : Nat → Cond) (bs : List (Nat × Cond))
    (hb : ∀ r, (bs.filter fun k => meets x.w.enables k.2 r).map (·.1) = x.blamed d ls c r)
    (he : exec i x.s = .next (x.settle (x.entering (match fpTrap x.w.enables bs with
      | some t => .trap t
      | none => .regs (g (x.written (x.w.raise (ls.map fun l => (l, c l))) d wide (x.each d f)))
          (x.capture d wide (x.each d f)) x.c.advance))))
    (hg : ∀ w fl, g (x.written { w with flg := fl } d wide (x.each d f)) =
      x.written { g w with flg := fl } d wide (x.each d f)) :
    WritesFp i x (g x.w) ls d wide f c := by
  have hx := (of_facts (issuing_of h).1).1
  subst hx
  constructor
  · intro hn
    rw [fpTrap_none x d ls c bs hb hn] at he
    refine ⟨(x.w.raise (ls.map fun l => (l, c l))).flg, fun b hb => raise_flg ls c x.w.flg b hb, ?_⟩
    have e := hg x.w (x.w.raise (ls.map fun l => (l, c l))).flg
    have e2 : x.w.raise (ls.map fun l => (l, c l)) = { x.w with flg := (x.w.raise (ls.map fun l => (l, c l))).flg } := rfl
    rw [← e2] at e
    simp only [e, entering_regs] at he
    obtain ⟨k1, k2⟩ := written_blocked x { g x.w with flg := (x.w.raise (ls.map fun l => (l, c l))).flg } d wide (x.each d f)
    exact writes_of_regs h _ _ d wide f he (written_wrote x _ d wide f) (written_rest _ _ _ _ _) k1 k2
  · intro r hr hm hq
    rw [fpTrap_some x d ls c bs hb r hr hm hq] at he
    exact traps_of_trap h _ he

/-- An instruction whose effect is `giveFp`. -/
theorem givesFp_of_giveFp {i : Instr} {d : Opnd} {wide : Bool} {f : Ix → Nat → Nat × Cond}
    (body : Ix → Eff) (he : ∀ s, exec i s = issue i s body) (hb : ∀ x, body x = x.giveFp d wide (f x)) : GivesFp i d wide f := by
  intro s x h
  have hx := (of_facts (issuing_of h).1).1
  refine writesFp_of (g := id) h d wide (x.computing d) _ _ (x.spread d ((x.computing d).map fun l => (l, (f x l).2)))
    (spread_blamed x d _) ?_ (fun _ _ => rfl)
  rw [he, hx, issue_of_issuing h, hb]
  simp only [Ix.giveFp, List.map_map, Function.comp_def, Ix.each, id]
  all_goals rfl

end Sys2Proof.Machine
end

