-- ==== Sys2Proof/Laws/Held.lean ====
section
/-! SUPPORT. What comes before an instruction's effect, instructions that wait, and how another agent's step ends them. -/

namespace Sys2Proof.Machine

/-! ### Before the effect -/

/-- An event is not an instruction of a core. -/
theorem of_none (s : State) (i : Instr) (h : i.fields = none) : Ix.of s i = none := by
  unfold Ix.of
  split
  · rfl
  · split
    · simp_all
    · rfl

/-- An instruction whose effect something else takes the place of answers that, whichever it is. -/
theorem exec_first {i : Instr} {s : State} {x : Ix} (h : Ix.of s i = some x) (t : Eff) (u : State)
    (he : ∀ e, x.checked e = t) (ht : x.settle (x.entering t) = u) (hr : ∀ w c g, t ≠ .regs w c g) : exec i s = .next u := by
  have hx := (of_facts h).1
  subst hx
  have key : ∀ body, issue i x.s body = .next u := by
    intro body; simp [issue, h, he, ht]
  have ret : x.tret = u := by
    rw [Ix.tret, he]
    cases t with
    | regs w c g => exact absurd rfl (hr w c g)
    | trap t =>
      rw [← ht]
      cases hs : x.storing <;> simp [Ix.entering, hs]
    | mach _ _ _ => exact ht
    | stall => exact ht
    | hold _ _ => exact ht
  cases i
  all_goals first
    | exact key _
    | (simp only [exec, execTret, h]
       exact congrArg _ ret)
    | (rw [of_none _ _ rfl] at h; cases h)

/-! ### Instructions in progress -/

/-- What an instruction in progress gives. -/
theorem held_facts {s : State} {wid i : Nat} {h : Hold} {x : Ix} (hh : s.held wid i = some (h, x)) :
    (∃ w, s.warp? wid i = some w ∧ w.hold = some h) ∧ ∃ y, Ix.of { s with cur := some h.cur } h.instr = some y ∧ x = { y with latch := h.latch } := by
  unfold State.held at hh
  split at hh
  · rename_i w hw
    split at hh
    · rename_i k hk
      split at hh
      · rename_i y hy
        cases hh
        exact ⟨⟨w, hw, hk⟩, y, hy, rfl⟩
      · cases hh
    · cases hh
  · cases hh

theorem endHold_some {s : State} {wid i : Nat} {h : Hold} {x : Ix} {sel : Hold → Ix → Option Eff} {e : Eff}
    (hh : s.held wid i = some (h, x)) (hs : sel h x = some e) : s.endHold wid i sel = .next (x.settleHeld e) := by
  simp [State.endHold, hh, hs]

theorem endHold_none {s : State} {wid i : Nat} {h : Hold} {x : Ix} {sel : Hold → Ix → Option Eff}
    (hh : s.held wid i = some (h, x)) (hs : sel h x = none) : s.endHold wid i sel = .next s := by
  simp [State.endHold, hh, hs]

theorem Core.setPort_setPort (c : Core) (p : Nat) (y z : Port) : (c.setPort p y).setPort p z = c.setPort p z := by
  unfold Core.setPort
  split <;> rfl

theorem Core.setPort_ite (c : Core) (q : Prop) [Decidable q] (p : Nat) (y z : Port) :
    (if q then c.setPort p y else c).setPort p z = c.setPort p z := by
  split
  · exact Core.setPort_setPort _ _ _ _
  · rfl

/-- Ending an instruction in progress changes the warp, and no more than latches of the port. -/
theorem settleHeld_only (x : Ix) (cap : Option (Nat × Latch)) (go : List Move) (u : State) (g : Wg) (v : Warp)
    (hg : look u.wgs x.c.wid = some g) (hv : look g.warps x.c.warp = some v) :
    OnlyWarp x u (x.settleHeld (.mach u cap go)) (x.warpAfter go v) where
  issued := rfl
  warp := by
    simp [Ix.settleHeld, State.modCore, State.setCore, State.modWarp, State.modWg, Wg.modWarp, State.warp?, look_upd, hg, hv]
  machine := by
    simp [Ix.settleHeld, State.modCore, State.setCore, State.modWarp, State.modWg]
  groups n hn := by
    simp [Ix.settleHeld, State.modCore, State.setCore, State.modWarp, State.modWg, look_upd, hn]
  group y hy := by
    rw [hg] at hy
    cases hy
    refine ⟨g.modWarp x.c.warp (x.warpAfter go), by
      simp [Ix.settleHeld, State.modCore, State.setCore, State.modWarp, State.modWg, look_upd, hg], rfl, ?_⟩
    intro j hj
    simp [Wg.modWarp, look_upd, hj]
  cores n hn := by
    simp [Ix.settleHeld, State.modCore, State.setCore, State.core, State.modWarp, State.modWg, lookD_ins_other _ _ _ _ _ hn]
  core p := by
    simp only [Ix.settleHeld, State.modCore, State.setCore, State.core, State.modWarp, State.modWg, lookD_ins_same]
    exact Core.setPort_ite _ _ _ _ _
  memory a := ⟨rfl, rfl⟩

/-- A step that ends an instruction in progress with a change of the machine alone. -/
theorem resumes_of_mach {e : Instr} {s : State} {x : Ix} (u : State) (g : Wg) (v : Warp)
    (he : exec e s = .next (x.settleHeld (.mach u none x.c.advance)))
    (hg : look u.wgs x.c.wid = some g) (hv : look g.warps x.c.warp = some v) : Resumes e s x u := by
  refine ⟨_, x.warpAfter x.c.advance v, v, he, by simp [State.warp?, hg, hv], settleHeld_only x none _ u g v hg hv,
    warpAfter_settles x x.c.advance v, ?_, ?_⟩
  · obtain ⟨a, b, c⟩ := warpAfter_regs x x.c.advance v
    exact ⟨fun m l _ => by simp [Warp.vget, a], fun m => by simp [Warp.sget, b], fun m => by simp [Warp.pget, c]⟩
  · exact warpAfter_stands x x.c.advance v ⟨x.c.prio, x.c.pc + 12, x.c.bundle⟩ (by simp [Cur.advance])

/-- A step that ends an instruction in progress with a change of the machine and a result. -/
theorem resumesGives_of_mach {e : Instr} {s : State} {x : Ix} (u : State) (g : Wg) (v w : Warp) (d : Opnd) (wide : Bool)
    (f : Nat → Nat) (s' : State) (cap : Option (Nat × Latch))
    (he : exec e s = .next (x.settleHeld (.mach s' cap x.c.advance))) (hs : s' = u.modWarp x.c.wid x.c.warp fun _ => w)
    (hg : look u.wgs x.c.wid = some g) (hv : look g.warps x.c.warp = some v)
    (hw : Wrote x v d wide f w) (hr : w.rest = v.rest) (hb : w.blocked = v.blocked) (hk : w.k = v.k) :
    ResumesGives e s x u d wide f := by
  have h1 : look s'.wgs x.c.wid = some (g.modWarp x.c.warp fun _ => w) := by
    simp [hs, State.modWarp, State.modWg, look_upd, hg]
  have h2 : look (g.modWarp x.c.warp fun _ => w).warps x.c.warp = some w := by simp [Wg.modWarp, look_upd, hv]
  have hc := settleHeld_only x cap x.c.advance s' _ _ h1 h2
  refine ⟨_, x.warpAfter x.c.advance w, v, he, by simp [State.warp?, hg, hv], ?_, (warpAfter_settles x _ w).of_same hr hb hk, ?_, ?_⟩
  · refine ⟨hc.issued, hc.warp, ?_, ?_, ?_, ?_, ?_, ?_⟩
    · have := congrArg (fun y : State => { y with wgs := u.wgs, cores := u.cores, cur := u.cur }) hc.machine
      rw [hs] at this
      rw [hs]
      exact this
    · intro n hn
      rw [hc.groups n hn]
      simp [hs, State.modWarp, State.modWg, look_upd, hn]
    · intro y hy
      rw [hg] at hy
      cases hy
      obtain ⟨k, hk', he', hj⟩ := hc.group _ h1
      refine ⟨k, hk', ?_, ?_⟩
      · have := congrArg (fun y : Wg => { y with warps := g.warps }) he'
        exact this
      · intro j hjn
        rw [hj j hjn]
        simp [Wg.modWarp, look_upd, hjn]
    · intro n hn
      rw [hc.cores n hn, hs]
      rfl
    · intro p
      rw [hc.core p, hs]
      rfl
    · intro a
      have := hc.memory a
      rw [hs] at this
      rw [hs]
      exact this
  · obtain ⟨a, b, c⟩ := warpAfter_regs x x.c.advance w
    exact hw.of_regs a b c
  · exact warpAfter_stands x x.c.advance w ⟨x.c.prio, x.c.pc + 12, x.c.bundle⟩ (by simp [Cur.advance])

/-! ### An issue that waits, traps or sends its threads elsewhere -/

/-- An instruction that stays in progress. -/
theorem waits_of_hold {s : State} {i : Instr} {x : Ix} (h : issuing s i = some x) (u : State) (g : Wg) (v : Warp) (k : Wait)
    (he : exec i s = .next (x.settle (.hold k u))) (hg : look u.wgs x.c.wid = some g) (hv : look g.warps x.c.warp = some v) :
    Waits i x u k := by
  obtain ⟨ho, -⟩ := issuing_of h
  have hf := of_facts ho
  obtain ⟨hx, hi, -⟩ := hf
  subst hx
  refine ⟨_, { v with hold := some ⟨x.c, i, u.time, k, x.latch⟩ }, v, he, by simp [State.warp?, hg, hv], ?_, rfl⟩
  rw [← hi]
  refine ⟨rfl, ?_, ?_, ?_, ?_, ?_, ?_, ?_⟩
  · simp [Ix.settle, Ix.issued, State.modCore, State.setCore, State.modWarp, State.modWg, Wg.modWarp, State.warp?, look_upd, hg, hv]
  · simp [Ix.settle, Ix.issued, State.modCore, State.setCore, State.modWarp, State.modWg]
  · intro n hn
    simp [Ix.settle, Ix.issued, State.modCore, State.setCore, State.modWarp, State.modWg, look_upd, hn]
  · intro y hy
    rw [hg] at hy
    cases hy
    refine ⟨g.modWarp x.c.warp fun w => { w with hold := some ⟨x.c, x.i, u.time, k, x.latch⟩ }, by
      simp [Ix.settle, Ix.issued, State.modCore, State.setCore, State.modWarp, State.modWg, look_upd, hg], rfl, ?_⟩
    intro j hj
    simp [Wg.modWarp, look_upd, hj]
  · intro n hn
    simp [Ix.settle, Ix.issued, State.modCore, State.setCore, State.core, State.modWarp, State.modWg, lookD_ins_other _ _ _ _ _ hn]
  · intro p
    simp only [Ix.settle, Ix.issued, State.modCore, State.setCore, State.core, State.modWarp, State.modWg, lookD_ins_same]
    exact Core.setPort_setPort _ _ _ _
  · exact fun a => ⟨rfl, rfl⟩

/-- An instruction that meets a cause. -/
theorem meets_of_trap {s : State} {i : Instr} {x : Ix} (h : issuing s i = some x) (c : BitVec 7) (m : Mask) (a : Option (BitVec 64))
    (he : exec i x.s = .next (x.settle (x.entering (.trap ⟨c, m, a, none, none⟩)))) : Meets i x c m a := traps_of_trap h _ he

/-- An instruction that changes its warp and sends its threads to other pairs. -/
theorem flows_of_regs {s : State} {i : Instr} {x : Ix} (h : issuing s i = some x) (w : Warp) (go : List Move)
    (he : exec i s = .next (x.settle (.regs w none go))) : Flows i x w go := by
  obtain ⟨ho, -⟩ := issuing_of h
  have hx := (of_facts ho).1
  subst hx
  obtain ⟨h1, h2⟩ := look_modWarp ho w
  have hc := complete_only x none go _ _ _ h1 h2
  refine ⟨_, x.warpAfter go w, he, hc.of_modWarp ho, warpAfter_settles x go w, ?_, ?_, ?_⟩
  · obtain ⟨a, b, c⟩ := warpAfter_regs x go w
    exact ⟨fun m l _ => by simp [Warp.vget, a], fun m => by simp [Warp.sget, b], fun m => by simp [Warp.pget, c]⟩
  · exact fun m hm => warpAfter_stands x go w m hm
  · exact complete_port x none _ _

end Sys2Proof.Machine
end

