-- ==== Sys2Proof/Laws/Mem.lean ====
section
/-! SUPPORT. Memory: reads after writes, and the canonical form that every memory operation keeps (R3). -/

namespace Sys2Proof.Machine

/-- The canonical form, as a statement about the first two entries. -/
theorem wf_cons (c : Host.Cell) (m : Mem) :
    Memory.wf (c :: m) = true ↔ c.2 ≠ blankByte ∧ (∀ d, m.head? = some d → c.1 < d.1) ∧ Memory.wf m = true := by
  cases m with
  | nil => simp [Memory.wf]
  | cons d m => simp [Memory.wf, and_assoc]

theorem wf_tail {c : Host.Cell} {m : Mem} (h : Memory.wf (c :: m) = true) : Memory.wf m = true := ((wf_cons c m).1 h).2.2

theorem memGet_before (m : Mem) (n : Nat) (h : ∀ d, m.head? = some d → n < d.1) : memGet m n = blankByte := by
  cases m with
  | nil => rfl
  | cons d m =>
    have hd := h d rfl
    obtain ⟨a, b⟩ := d
    simp only at hd
    simp only [memGet]
    rw [if_neg (by omega), if_pos hd]

/-- A byte that is put in is the one read. -/
@[simp] theorem memGet_memPut_same (m : Mem) (n : Nat) (x : Byte) : memGet (memPut m n x) n = x := by
  induction m with
  | nil => simp [memPut, memGet]
  | cons c m ih =>
    obtain ⟨a, b⟩ := c
    simp only [memPut]
    split
    · simp [memGet]
    · split
      · simp [memGet]
      · simp only [memGet]; rw [if_neg ‹_›, if_neg ‹_›, ih]

theorem memGet_memPut_other (m : Mem) (n k : Nat) (x : Byte) (h : k ≠ n) : memGet (memPut m n x) k = memGet m k := by
  induction m with
  | nil => simp only [memPut, memGet]; repeat' split
           all_goals first | rfl | omega
  | cons c m ih =>
    obtain ⟨a, b⟩ := c
    simp only [memPut]
    repeat' split
    all_goals simp only [memGet, ih]
    all_goals repeat' split
    all_goals first | rfl | omega

theorem memGet_memDrop_same (m : Mem) (n : Nat) (h : Memory.wf m = true) : memGet (memDrop m n) n = blankByte := by
  induction m with
  | nil => rfl
  | cons c m ih =>
    have hc := (wf_cons c m).1 h
    obtain ⟨a, b⟩ := c
    simp only [memDrop]
    split
    · subst_vars; exact memGet_before _ _ fun d hd => hc.2.1 d hd
    · split
      · simp only [memGet]; rw [if_neg ‹_›, if_pos ‹_›]
      · simp only [memGet]; rw [if_neg ‹_›, if_neg ‹_›, ih hc.2.2]

theorem memGet_memDrop_other (m : Mem) (n k : Nat) (h : Memory.wf m = true) (hk : k ≠ n) :
    memGet (memDrop m n) k = memGet m k := by
  induction m with
  | nil => rfl
  | cons c m ih =>
    have hc := (wf_cons c m).1 h
    obtain ⟨a, b⟩ := c
    simp only [memDrop]
    split
    · subst_vars
      simp only [memGet]
      rw [if_neg (by omega)]
      split
      · exact memGet_before _ _ fun d hd => by have := hc.2.1 d hd; simp only at this; omega
      · rfl
    · split
      · rfl
      · simp only [memGet, ih hc.2.2]

theorem head_memPut (m : Mem) (n : Nat) (x : Byte) (a : Nat) (ha : a < n) (h : ∀ d, m.head? = some d → a < d.1) :
    ∀ d, (memPut m n x).head? = some d → a < d.1 := by
  intro d hd
  cases m with
  | nil => simp [memPut] at hd; subst hd; exact ha
  | cons c m =>
    have hc := h c rfl
    obtain ⟨a', b⟩ := c
    simp only [memPut] at hd
    repeat' split at hd
    all_goals simp only [List.head?_cons, Option.some.injEq] at hd; subst hd; first | exact ha | exact hc

theorem wf_memPut (m : Mem) (n : Nat) (x : Byte) (hx : x ≠ blankByte) (h : Memory.wf m = true) :
    Memory.wf (memPut m n x) = true := by
  induction m with
  | nil => simpa [memPut, Memory.wf] using hx
  | cons c m ih =>
    have hc := (wf_cons c m).1 h
    obtain ⟨a, b⟩ := c
    simp only [memPut]
    split
    · subst_vars; exact (wf_cons _ _).2 ⟨hx, hc.2.1, hc.2.2⟩
    · split
      · refine (wf_cons _ _).2 ⟨hx, ?_, h⟩
        intro d hd; simp only [List.head?_cons, Option.some.injEq] at hd; subst hd; assumption
      · refine (wf_cons _ _).2 ⟨hc.1, ?_, ih hc.2.2⟩
        exact head_memPut m n x a (by omega) hc.2.1

theorem head_memDrop (m : Mem) (n : Nat) (a : Nat) (hw : Memory.wf m = true) (h : ∀ d, m.head? = some d → a < d.1) :
    ∀ d, (memDrop m n).head? = some d → a < d.1 := by
  intro d hd
  cases m with
  | nil => simp [memDrop] at hd
  | cons c m =>
    have hc := h c rfl
    have hw' := (wf_cons c m).1 hw
    obtain ⟨a', b⟩ := c
    simp only [memDrop] at hd
    simp only at hc
    repeat' split at hd
    · have := hw'.2.1 d hd; simp only at this; omega
    all_goals simp only [List.head?_cons, Option.some.injEq] at hd; subst hd; exact hc

theorem wf_memDrop (m : Mem) (n : Nat) (h : Memory.wf m = true) : Memory.wf (memDrop m n) = true := by
  induction m with
  | nil => rfl
  | cons c m ih =>
    have hc := (wf_cons c m).1 h
    obtain ⟨a, b⟩ := c
    simp only [memDrop]
    split
    · exact hc.2.2
    · split
      · exact h
      · exact (wf_cons _ _).2 ⟨hc.1, head_memDrop m n a hc.2.2 hc.2.1, ih hc.2.2⟩

/-- A write of one byte keeps the canonical form. -/
theorem wf_memSet (m : Mem) (n : Nat) (x : Byte) (h : Memory.wf m = true) : Memory.wf (memSet m n x) = true := by
  unfold memSet
  split
  · exact wf_memDrop m n h
  · exact wf_memPut m n x ‹_› h

/-- A byte written is the one read. -/
theorem memGet_memSet_same (m : Mem) (n : Nat) (x : Byte) (h : Memory.wf m = true) : memGet (memSet m n x) n = x := by
  unfold memSet
  split
  · subst_vars; exact memGet_memDrop_same m n h
  · simp

/-- Every other byte reads as before. -/
theorem memGet_memSet_other (m : Mem) (n k : Nat) (x : Byte) (h : Memory.wf m = true) (hk : k ≠ n) :
    memGet (memSet m n x) k = memGet m k := by
  unfold memSet
  split
  · exact memGet_memDrop_other m n k h hk
  · exact memGet_memPut_other m n k x hk

/-- A write of a run of bytes keeps the canonical form. -/
theorem wf_memWrite (m : Mem) (a : Nat) (bs : List Byte) (h : Memory.wf m = true) : Memory.wf (memWrite m a bs) = true := by
  induction bs generalizing m a with
  | nil => exact h
  | cons b bs ih => exact ih _ _ (wf_memSet m a b h)

/-- Bytes outside a written run read as before. -/
theorem memGet_memWrite_out (m : Mem) (a k : Nat) (bs : List Byte) (h : Memory.wf m = true) (hk : k < a ∨ a + bs.length ≤ k) :
    memGet (memWrite m a bs) k = memGet m k := by
  induction bs generalizing m a with
  | nil => rfl
  | cons b bs ih =>
    simp only [List.length_cons] at hk
    rw [memWrite, ih _ _ (wf_memSet m a b h) (by omega), memGet_memSet_other m a k b h (by omega)]

/-- A byte of a written run reads as written. -/
theorem memGet_memWrite_in (m : Mem) (a i : Nat) (bs : List Byte) (h : Memory.wf m = true) (hi : i < bs.length) :
    memGet (memWrite m a bs) (a + i) = bs[i] := by
  induction bs generalizing m a i with
  | nil => simp at hi
  | cons b bs ih =>
    cases i with
    | zero =>
      rw [memWrite, memGet_memWrite_out _ _ _ _ (wf_memSet m a b h) (by omega)]
      exact memGet_memSet_same m a b h
    | succ i =>
      simp only [List.length_cons] at hi
      have := ih (memSet m a b) (a + 1) i (wf_memSet m a b h) (by omega)
      rw [memWrite, show a + (i + 1) = a + 1 + i by omega, this]
      rfl

theorem length_memRead (m : Mem) (a n : Nat) : (memRead m a n).length = n := by
  induction n generalizing a with
  | zero => rfl
  | succ n ih => simp [memRead, ih]

theorem memRead_get (m : Mem) (a n i : Nat) (hi : i < (memRead m a n).length) : (memRead m a n)[i] = memGet m (a + i) := by
  induction n generalizing a i with
  | zero => simp [memRead] at hi
  | succ n ih =>
    cases i with
    | zero => rfl
    | succ i =>
      simp only [memRead, List.getElem_cons_succ]
      rw [ih, show a + 1 + i = a + (i + 1) by omega]

/-- A run of bytes read back after it is written. -/
theorem memRead_memWrite_same (m : Mem) (a : Nat) (bs : List Byte) (h : Memory.wf m = true) :
    memRead (memWrite m a bs) a bs.length = bs := by
  apply List.ext_getElem
  · exact length_memRead _ _ _
  · intro i h1 h2
    rw [memRead_get, memGet_memWrite_in m a i bs h h2]

/-- A run of bytes that a write does not touch. -/
theorem memRead_memWrite_out (m : Mem) (a k n : Nat) (bs : List Byte) (h : Memory.wf m = true)
    (hk : k + n ≤ a ∨ a + bs.length ≤ k) : memRead (memWrite m a bs) k n = memRead m k n := by
  apply List.ext_getElem
  · rw [length_memRead, length_memRead]
  · intro i h1 h2
    rw [length_memRead] at h1
    rw [memRead_get, memRead_get, memGet_memWrite_out m a _ bs h (by omega)]

end Sys2Proof.Machine
end

