-- ==== Sys2Proof/Tests/Slice0.lean ====
section
/-! SUPPORT. Small checks: words of the spec's encodings decode, ill-formed terms are refused, single steps give the values of
the spec's examples, and the hypotheses of every statement are met by a concrete state and operands. -/

set_option Elab.async false

namespace Sys2Proof.Tests

open Sys2Proof Sys2Proof.Machine

/-! ### Small machines -/

/-- A workgroup's number: instance 1, workgroup 0. -/
abbrev wid0 : Nat := 2 ^ 48

/-- A kernel of one 32-lane warp with something of everything. -/
def rec0 : LaunchRec := { wordRecord with
  regs := 64, xregs := 0, copies := 2, bars := 4, tiles := 4, accs := 4, loc := 0x4000, handler := 0x10100, det := 0, sscope := 0 }

/-- Pages of context 0: of normal memory, not writable, of accumulator lines, write-once, of counters, host memory, of the next
die. Each lies at its own address; 0xA0000 has no translation in a buffer. -/
def tlb0 : List TlbEntry :=
  [⟨0, 0x10000, ⟨0x10000, 65536, false, false, 0, true, true⟩⟩, ⟨0, 0x20000, ⟨0x20000, 65536, false, false, 0, false, true⟩⟩,
   ⟨0, 0x30000, ⟨0x30000, 65536, false, false, 1, false, true⟩⟩, ⟨0, 0x40000, ⟨0x40000, 65536, false, false, 2, false, true⟩⟩,
   ⟨0, 0x50000, ⟨0x50000, 65536, false, false, 3, false, true⟩⟩, ⟨0, 0x60000, ⟨0x60000, 65536, true, false, 0, false, true⟩⟩,
   ⟨0, 0x70000, ⟨2 ^ 44, 65536, false, false, 0, false, true⟩⟩, ⟨0, 0x80000, ⟨0x80000, 65536, false, false, 0, false, false⟩⟩]

/-- What a test changes of the machine. -/
structure Mod where
  rc : LaunchRec := rec0
  w : Warp → Warp := id
  g : Wg → Wg := id
  c : Core → Core := id
  d : Die → Die := id
  s : State → State := id

/-- One workgroup of one warp on core 0, nothing else in the pod. -/
def mach (m : Mod) : State :=
  let g := Wg.start m.rc 1 0 0 0 [0]
  m.s { State.reset with
    kernels := [(1, ⟨m.rc, 0, [0], 0, none, [0], [], false, false, false⟩)]
    wgs := [(wid0, m.g { g with warps := g.warps.map fun p => (p.1, m.w p.2) })]
    nextInst := 2
    count := 1
    cores := [(0, m.c { Core.reset with tlb := tlb0 })]
    dies := [(0, m.d Die.reset)] }

/-- The issue in progress: the warp's 32 threads at the kernel's entry. -/
def cur0 : Cur := ⟨wid0, 0, 0x10000, 0, lowLanes 32, 0, true⟩

/-- The machine with an issue in progress. -/
def running (m : Mod) : State := { mach m with cur := some ((mach m).cur.getD cur0) }

/-- The issue of an instruction that nothing comes before. -/
def iss (m : Mod) (i : Instr) : Option Ix := issuing (running m) i

/-- The state after a step of an instruction. -/
def after (m : Mod) (i : Instr) : Option State :=
  match exec i (running m) with
  | .next t => some t
  | _ => none

/-- The warp in a state. -/
def warp0 (s : State) : Warp := (s.warp? wid0 0).getD default

/-- v registers by register and lane, and s registers. -/
def regs (v : List (Nat × Nat × Word)) (s : List (Nat × Word)) (w : Warp) : Warp :=
  { w with v := v.foldl (fun t p => ins t (128 * p.1 + p.2.1) p.2.2) w.v, s := s.foldl (fun t p => ins t p.1 p.2) w.s }

/-- The head of a word with predicate 0 as its guard: no lane is on, as p0 is false. -/
def offHd : Hd := { bareHd with gp := 0 }

def mm0 : Mm := ⟨.warp, .rlx, .ord⟩

/-! ### Words (03 R55-R70): the examples of the chapters, and words written out from the encoding tables -/

theorem test_word_nop : decodeTableWord 96 0x1C00 = some (.nop bareHd) := by decide +kernel

/-- 04, "a divergent branch": `(p1) BRA.pr40 taken`. -/
theorem test_word_bra : decodeTableWord 96 0x000002002800000000000401 = some (.bra { bareHd with gp := 1 } 40 2) := by
  decide +kernel

/-- 05, "encoding and running a saturating add": `IADD.n32.sat v12, v4, s3`. -/
theorem test_word_iadd : decodeTableWord 96 0x000000000081206010061C40 = some (.iadd bareHd .n32 true (.v 12) (.v 4) (.s 3)) := by
  decide +kernel

/-- OP 0x081, D v7, EXT 0xB343 (R55, R141). -/
theorem test_word_movi : decodeTableWord 96 0x00B343000000000000039C81 = some (.movi bareHd .i32 (.v 7) 0xB343) := by
  decide +kernel

/-- OP 0x082, OPX 1, D and A v7, EXT 0x8DA6 (R55, R141). -/
theorem test_word_movh : decodeTableWord 96 0x008DA600010000001C039C82 = some (.movh bareHd 1 .i32 (.v 7) (.v 7) 0x8DA6) := by
  decide +kernel

/-- 03, "encoding a guarded floating-point add with capture": `(!p2) FADD.f32.rne v10, v4, v5 | st=2 cap=b1`. -/
theorem test_word_fadd : decodeTableWord 96 0x00000062000400A0100528C0 =
    some (.fadd ⟨true, 2, false, true, 1, false, 2⟩ .rne .f32 false (.v 10) (.v 4) (.v 5)) := by decide +kernel

/-- 06, "encoding a fused multiply-add": `FFMA.f32.rz v20, v2, v3, s7`. -/
theorem test_word_ffma : decodeTableWord 96 0x0001070000140060080A1CC3 =
    some (.ffma bareHd .rz .f32 false (.v 20) (.v 2) (.v 3) (.s 7)) := by decide +kernel

/-- OP 0x107, D s2 (R55, R167). -/
theorem test_word_flgrd : decodeTableWord 96 0x811D07 = some (.flgrd bareHd false (.s 2)) := by decide +kernel

/-- 03, "encoding a load with a memory operand": `LDG.i32.die.acq v8, [s4+v6+0x40]`. -/
theorem test_word_ldg : decodeTableWord 96 0x000040000C0000C410041D42 =
    some (.ldg bareHd ⟨.die, .acq, .ord⟩ .i32 (.v 8) (.s 4) (.v 6) 0x40) := by decide +kernel

/-- 07, "encoding a releasing local store": `STL.i32.quad.rel v9, [v2+0x80]`. -/
theorem test_word_stl : decodeTableWord 96 0x000080001300E00008049D41 =
    some (.stl bareHd ⟨.quad, .rel, .ord⟩ .i32 (.v 9) (.v 2) (.imm 0) 0x80) := by decide +kernel

/-- 08, "sealing a tensor": `SEAL.tensor s20, [s4]`. -/
theorem test_word_seal : decodeTableWord 96 0x000000000100E004108A1D80 = some (.seal bareHd .tensor (.s 20) (.s 4) (.imm 0) 0) := by
  decide +kernel

/-- 09, "encoding a row gather": `GATH.rows.g2 #3, s8, v4, s9`. -/
theorem test_word_gath : decodeTableWord 96 0x005109000000008423819DC1 =
    some (.gath bareHd false true 2 none (.imm 3) (.s 8) (.v 4) (.s 9)) := by decide +kernel

/-- 10, "one dense product and its encoding": `MMA.bf16 a2, t0, t1`. -/
theorem test_word_mma : decodeTableWord 96 0x000000000007803002811E04 = some (.mma bareHd false 0 0 .bf16 (.a 2) (.t 0) (.t 1)) := by
  decide +kernel

/-- 11, "encoding a drain with zeroing": `ADRN.bf16.z a3, s12`. -/
theorem test_word_adrn : decodeTableWord 96 0x00000000010721940C001E43 =
    some (.adrn bareHd true 0 .rne .bf16 false (.a 3) (.s 12)) := by decide +kernel

/-- 12, "encoding a combine": `KACC v4, v6`. -/
theorem test_word_kacc : decodeTableWord 96 0x00000000000000C010001E85 = some (.kacc bareHd .i32 (.v 4) (.v 6)) := by decide +kernel

/-- 13, "encoding a grid load and a scatter": `GLD v10, s3, v4`. -/
theorem test_word_gld : decodeTableWord 96 0x00000000000000840C051EC0 = some (.gld bareHd false (.v 10) (.s 3) (.v 4)) := by
  decide +kernel

/-- 13, the same example: `GSC.gen5 s3, v4, v12`. -/
theorem test_word_gsc : decodeTableWord 96 0x00280C00000000840C001EC1 = some (.gsc bareHd 5 false (.s 3) (.v 4) (.v 12)) := by
  decide +kernel

/-- 14, "encoding a remote-only release fence": `FENCE.pkg.rel.kr`. -/
theorem test_word_fence : decodeTableWord 96 0x000004001500000000001F00 =
    some (.fence bareHd ⟨.pkg, .rel, .ord⟩ true false false) := by decide +kernel

/-- 14, "encoding a flip to host": `BFLIP.host s2, s4`. -/
theorem test_word_bflip : decodeTableWord 96 0x000001000000000410811F01 = some (.bflip bareHd true (.s 2) (.s 4)) := by
  decide +kernel

/-- 15, "encoding a remote add and a contribution": `RADD.i64 v6, [s4+0x40]`. -/
theorem test_word_radd : decodeTableWord 96 0x000040000002E00410031F40 =
    some (.radd bareHd false .i64 (.v 6) (.s 4) (.imm 0) 0x40) := by decide +kernel

/-- 15, the same example: `RFXA.half.f32 v9, [s4], #5`. -/
theorem test_word_rfxa : decodeTableWord 96 0x000705000004E00410049F41 =
    some (.rfxa bareHd false false false 0 .f32 (.v 9) (.s 4) (.imm 0) (.imm 5)) := by decide +kernel

/-- 17, "encoding a die barrier": `HBAR.die.ch3 s5, s6`. -/
theorem test_word_hbar : decodeTableWord 96 0x000003000400000418829F80 =
    some (.hbar bareHd ⟨.die, .rlx, .ord⟩ (.s 5) (.s 6) 3) := by decide +kernel

/-- 18, "encoding a software trap": `TRAP #0x3`. -/
theorem test_word_trap : decodeTableWord 96 0x000003000000000000001FC0 = some (.trap bareHd 3) := by decide +kernel

/-- 18, the same example: `TRET`. -/
theorem test_word_tret : decodeTableWord 96 0x1FC1 = some (.tret bareHd) := by decide +kernel

/-- A word of an opcode that is not assigned is itself (R70). -/
theorem test_word_unassigned : decodeTableWord 96 0x1C3F = some (.unassignedOpcode 0x1C3F) := by decide +kernel

/-- What a refused word is refused with. -/
def refusal (r : Except Ill Instr) : Option Ill :=
  match r with
  | .error e => some e
  | .ok _ => none

/-- The encoder gives the words of the examples back. -/
theorem test_encode : encode (.iadd bareHd .n32 true (.v 12) (.v 4) (.s 3)) = some 0x000000000081206010061C40 ∧
    encode (.gath bareHd false true 2 none (.imm 3) (.s 8) (.v 4) (.s 9)) = some 0x005109000000008423819DC1 := by decide +kernel

/-- Words that fail one check each (R68 steps 2 to 6): a reserved bit, a negated p7, an operand class, a type, a modifier. -/
theorem test_refused_words :
    refusal (decode 0 0x9C00) = some .rsv ∧
    refusal (decode 0 0x3C40) = some .guard ∧
    refusal (decode 0 0x000000000081206012061C40) = some .cls ∧
    refusal (decode 0 0x000000000084206010061C40) = some .type ∧
    refusal (decode 0 0x1F00) = some .mod := by decide +kernel

/-- A word that fails two checks is refused with the first. -/
theorem test_refused_first : refusal (decode 0 0xBC00) = some .rsv := by decide +kernel

/-! ### Ill-formed terms -/

/-- A reserved field: a binary8 format on a type that is none. -/
theorem test_wf_reserved : WellFormed 0 (.mma bareHd false 0 3 .bf16 (.a 2) (.t 0) (.t 1)) = false := by decide +kernel

/-- A guard: !p7. -/
theorem test_wf_guard : WellFormed 0 (.iadd { bareHd with neg := true } .n32 false (.v 10) (.v 4) (.v 5)) = false := by decide +kernel

/-- An operand class: a predicate as the destination of `IADD`; a register number: s64. -/
theorem test_wf_class : WellFormed 0 (.iadd bareHd .n32 false (.p 1) (.v 4) (.v 5)) = false ∧
    WellFormed 0 (.mov bareHd .n32 (.s 64) (.s 4)) = false := by decide +kernel

/-- A type: `IADD.f32`, and an odd pair. -/
theorem test_wf_type : WellFormed 0 (.iadd bareHd .f32 false (.v 1) (.v 4) (.v 5)) = false ∧
    WellFormed 0 (.iadd bareHd .n64 false (.v 1) (.v 4) (.v 6)) = false := by decide +kernel

/-- A modifier: `MOVH.h2` on 32 bits, `.nwb` without a capture, a fence of warp scope. -/
theorem test_wf_modifier : WellFormed 0 (.movh bareHd 2 .n32 (.v 1) (.v 4) 6) = false ∧
    WellFormed 0 (.iadd { bareHd with nwb := true } .n32 false (.v 10) (.v 4) (.v 5)) = false ∧
    WellFormed 0 (.fence bareHd mm0 false false false) = false := by decide +kernel

/-- A step of another agent is no word. -/
theorem test_wf_event : WellFormed 0 (.placeWorkgroup 0) = false := by decide +kernel

/-- Hypotheses of DecodeOfEncode. -/
theorem test_wf_holds : WellFormed 0 (.fadd ⟨true, 2, false, true, 1, false, 2⟩ .rne .f32 false (.v 10) (.v 4) (.v 5)) = true := by
  decide +kernel

/-- Hypotheses of DecodeRefusesInOrder, clause by clause: a word of `IADD` or `FENCE` that fails the check and none before. -/
theorem test_refused_in_order :
    Op.ofCode (opcodeOf 0x800000000000000000001C40) = some .iadd ∧ Op.ofCode (opcodeOf 0x1F00) = some .fence ∧
    (let f := Fields.unpack .iadd 0x800000000000000000001C40
     rsvBad f (shape f) = true) ∧
    (let f := Fields.unpack .iadd 0x3C40
     rsvBad f (shape f) = false ∧ guardBad f (shape f) = true) ∧
    (let f := Fields.unpack .iadd 0x000000000081206012061C40
     rsvBad f (shape f) = false ∧ guardBad f (shape f) = false ∧ clsBad f (shape f) = true) ∧
    (let f := Fields.unpack .iadd 0x000000000084206010061C40
     rsvBad f (shape f) = false ∧ guardBad f (shape f) = false ∧ clsBad f (shape f) = false ∧ typeBad 0 f (shape f) = true) ∧
    (let f := Fields.unpack .fence 0x1F00
     rsvBad f (shape f) = false ∧ guardBad f (shape f) = false ∧ clsBad f (shape f) = false ∧ typeBad 0 f (shape f) = false ∧
       modBad 0 f (shape f) = true) := by decide +kernel

/-- Hypotheses of UnassignedOpcodesTrap. -/
theorem test_unassigned : Op.ofCode (opcodeOf 0x3FF) = none ∧ Op.ofCode (opcodeOf 0x00F) = none ∧
    (running {}).cur.isSome = true ∧ ((running {}).warp? wid0 0).any (fun w => (earlyTrap w (lowLanes 32)).isNone) = true := by
  decide +kernel

/-! ### Issue, traps and the frontier (04, 18): what the statements assume is met -/

/-- The issue of an instruction, whatever comes before its effect. -/
def reads (m : Mod) (i : Instr) : Option Ix := Ix.of (running m) i

/-- A well-formed instruction comes to its own effect, in an issue that meets `p`. -/
def met (m : Mod) (i : Instr) (p : Ix → Bool := fun _ => true) : Bool := WellFormed 0 i && (iss m i).any p

/-- An issue by some of the warp's threads. -/
def part0 (bundle : Mask) : Mod := { s := fun s => { s with cur := some { cur0 with bundle := bundle } } }

/-- The machine with one word where the next step fetches it. -/
def fetching (w : Nat) : State := State.reset.withFetchWord 96 w

/-- Hypotheses of StepRunsDecoded: the first turn is core 0's port 0's, which is free; the warp's entry is fetched and decodes. -/
theorem test_step_hypotheses :
    let s := fetching 0xB343000000000000039C81
    let x : BitVec 96 := 0xB343000000000000039C81
    let s1 : State := { s with turns := [], tick := s.tick + 1, cur := none }
    s.turns = [⟨0, .port 0 0⟩] ∧ 0 < 768 * s.nPkg ∧ ((s.core 0).port 0).busy ≤ s.clocksAt 0 ∧ (s.die (dieOf 0)).up = true ∧
    (s.core 0).port1.after ≠ s.clocksAt 0 + 1 ∧
    (match orderCands ((s1.core 0).port 0).slot (s1.cands 0 0) with
     | [c] =>
       (match s1.warp? c.wid c.warp, look s1.kernels (c.wid / 2 ^ 48) with
        | some w, some k => w.choice.any fun e =>
            let s2 := s1.clearOver 0 w.port c.wid c.warp
            decide (s2.fetchWord 0 k.ctx w.walked e.pc = .word x) && (earlyTrap w e.mask).isNone && (refusal (decode w.wcode x)).isNone &&
              (match exec (.movi bareHd .i32 (.v 7) 0xB343) { s2 with cur := some ⟨c.wid, c.warp, e.pc, e.prio, e.mask, x, true⟩ } with
               | .next u => u.cur.isNone
               | _ => false)
        | _, _ => false)
     | _ => false) = true := by decide +kernel

/-- What the step leaves: v7 as the example of R142 has it, the next program counter. -/
theorem test_step_runs :
    (match step (fetching 0xB343000000000000039C81) with
     | .next t => (t.warp? wid0 0).map fun w => (w.vget 7 31, w.front.map (·.pc))
     | _ => none) = some (0xB343, [0x1000C]) := by decide +kernel

/-- A turn of another agent is its event. -/
theorem test_step_event :
    (match step { State.reset with turns := [⟨20, .event (.powerModeWrite 0 true)⟩] } with
     | .next t => ((t.die 0).eff, t.time)
     | _ => (false, 0)) = (true, 20) := by decide +kernel

/-- Hypotheses of FetchOfAWord: the first word of a page and, at 0x1FFF4, the last. -/
theorem test_fetch :
    (∀ a ∈ [0x10000, 0x1FFF4], a % 4 = 0 ∧ a % 65536 + 12 ≤ 65536 ∧
      (mach {}).xlate 0 [] 0 a = .page ⟨0x10000, 65536, false, false, 0, true, true⟩ ∧
      (mach {}).xlate 0 [] 0 (a + 11) = .page ⟨0x10000, 65536, false, false, 0, true, true⟩ ∧
      (mach {}).inFlip (0x10000 + a % 65536) = false ∧ (mach {}).poisoned (0x10000 + a % 65536) 12 = false) ∧
    (mach {}).fetchWord 0 0 [] 0x1000C = .word 0 ∧ (mach {}).fetchWord 0 0 [] 0x10001 = .cause 0x33 := by decide +kernel

/-- Hypotheses of StepKeepsForm. -/
theorem test_form : State.reset.memWf = true ∧ State.reset.podOk = true ∧ State.reset.stashOk = true ∧
    (match step (fetching 0x1C00) with
     | .next t => t.memWf && t.podOk && t.stashOk
     | _ => false) = true := by decide +kernel

/-- A warp of two entries, one of them ready to burst with age, and the other at age 254. -/
def aged (a b : Nat) : Warp :=
  { warp0 (mach {}) with front := [⟨1, 0x10030, 0x3FF, a, 7⟩, ⟨0, 0x10018, 0xFFFFFC00, b, 3⟩] }

/-- Hypotheses of FrontierIsKept: entries ranked; lanes that an issue of lanes 0 to 9 does not move; no full counter, and one. -/
theorem test_frontier :
    ((aged 0 0).front.Pairwise fun a b => pairBefore a.prio a.pc b.prio b.pc = true) ∧
    (∃ e ∈ (aged 0 0).front, e.mask.getLsbD 10 = true ∧ e.prio = 0 ∧ e.pc = 0x10018) ∧ (0x3FF : Mask).getLsbD 10 = false ∧
    (∀ e ∈ (aged 0 254).front, e.age < 255) ∧ (∃ e ∈ (aged 0 255).front, 255 ≤ e.age) ∧
    (aged 0 254).choice = (aged 0 254).front.head? ∧ (aged 0 255).choice = some ⟨0, 0x10018, 0xFFFFFC00, 255, 3⟩ ∧
    (aged 0 254).blocked = [] ∧ (aged 0 254).parked = [] ∧ (aged 0 254).front.length + 1 ≤ 32 ∧
    (⟨0, 0x10018, 0xFFFFFC00, 254, 3⟩ : Entry) ∈ (aged 0 254).front ∧ (0xFFFFFC00 : Mask) &&& 0x3FF = 0 := by decide +kernel

/-- 04, "a divergent branch", issue 2 and 3: lanes 0 to 9 go to priority 40, and the fall-through entry ages. -/
theorem test_divergence :
    let w := (warp0 (mach {})).afterIssue (lowLanes 32) [⟨40, 0x10030, 0x3FF⟩, ⟨0, 0x10018, 0xFFFFFC00⟩]
    w.front.map (fun e => (e.prio, e.pc, e.mask)) = [(40, 0x10030, 0x3FF), (0, 0x10018, 0xFFFFFC00)] ∧
      (w.afterIssue 0x3FF [⟨40, 0x1003C, 0x3FF⟩]).front.map (fun e => (e.pc, e.age)) = [(0x1003C, 0), (0x10018, 1)] := by
  decide +kernel

/-- Hypotheses of IssueChecksInOrder: a deferred cause; a single step; PRIV; a bundle that is not every live thread; a register
that the warp does not hold; a clear latch; an engine that owes v4. -/
theorem test_checks_in_order :
    (reads { w := fun w => { w with dfr := [⟨0x38, 1, 0x20000⟩] } } (.nop bareHd)).any (fun x => !x.w.hmode) = true ∧
    (reads { w := fun w => { w with step := true, stepDue := true } } (.nop bareHd)).any
      (fun x => !x.w.hmode && x.w.dfr.isEmpty) = true ∧
    (reads {} (.tret bareHd)).any (fun x => (earlyTrap x.w x.c.bundle).isNone && !x.w.hmode) = true ∧
    (reads (part0 1) (.azero bareHd (.a 0))).any (fun x =>
      (earlyTrap x.w x.c.bundle).isNone && (shape x.f).warpWide && x.c.bundle != x.w.live) = true ∧
    (reads {} (.mov bareHd .n32 (.v 64) (.v 0))).any (fun x =>
      (vSpans x.f (shape x.f)).any fun p => decide (x.kr.rc.regs + x.w.x < p.1 + p.2)) = true ∧
    (reads {} (.mov bareHd .n32 (.v 63) (.v 0))).any (fun x =>
      (vSpans x.f (shape x.f)).any fun p => decide (x.kr.rc.regs + x.w.x < p.1 + p.2)) = false ∧
    (reads {} (.mov bareHd .n32 (.v 0) (.b 1))).any (fun x => latchBad x.latch ((shape x.f).pair.getLsbD 1) x.f.a) = true ∧
    (reads { w := fun w => { w with await := [⟨1, 4, 2, false, false⟩] } } (.mov bareHd .n32 (.v 0) (.v 5))).any
      (fun x => (dynTrap x).isNone && scoreHeld x) = true := by decide +kernel

/-- The causes that those issues meet, with the instruction's own effect left out. -/
theorem test_checks_causes :
    ([(({} : Mod), Instr.tret bareHd), (part0 1, .azero bareHd (.a 0)), ({}, .mov bareHd .n32 (.v 64) (.v 0)),
      ({}, .mov bareHd .n32 (.v 0) (.b 1)), ({ w := fun w => { w with dfr := [⟨0x38, 1, 0x20000⟩] } }, .nop bareHd)].map fun p =>
        (reads p.1 p.2).bind fun x => match x.checked .stall with
          | .trap t => some t.cause
          | _ => none) =
      [some 8, some 7, some 0x10, some 6, some 0x38] := by decide +kernel

/-! ### Traps -/

/-- Hypotheses of TrapEntersHandler and of the `TRAP` clauses. -/
theorem test_trap_hypotheses :
    ((mach {}).wgs.map fun p => (p.1, p.2.st != .ending, Memory.wf p.2.mem)) = [(wid0, true, true)] ∧
      (warp0 (mach {})).hmode = false ∧ rec0.handler ≠ 0 ∧ met {} (.trap bareHd 3) (fun x => x.on != 0) = true ∧
      met {} (.trap offHd 3) (fun x => x.on == 0) = true := by decide +kernel

/-- The frame of `TRAP #3` (R440, R452): cause 0x73, the program counter, all lanes, lane 0's pair and state. -/
theorem test_trap_frame :
    let f := (warp0 (mach {})).frame ⟨0x73, lowLanes 32, some 0, none, none⟩ cur0 0
    (natOfBytes (f.take 4), natOfBytes ((f.drop 8).take 8), natOfBytes ((f.drop 0x20).take 16), natOfBytes ((f.drop 0x80).take 8),
      natOfBytes ((f.drop 0x480).take 1), f.length) = (0x73, 0x10000, 0xFFFFFFFF, 0x10000, 1, 2048) := by decide +kernel

/-- A handler's warp of two live threads, in lanes 0 and 5, that trapped at 0x10000, with the given pair in the frame for lane 5. -/
def handler0 (link : Nat) : Mod where
  w w := { w with
    hmode := true, tfaddr := 0x4000, live := 0x21, front := [⟨0, 0x10100, 0x21, 0, 0⟩]
    entry := [(0, 1, 0x10000), (5, 1, 0x10000)] }
  g g := { g with mem := memWrite (memWrite (memWrite (memWrite [] 0x4080 (bytesOfNat 8 0x10000)) 0x40A8 (bytesOfNat 8 link)) 0x4480 [1]) 0x4494 [1] }
  s s := { s with cur := some { cur0 with pc := 0x10100, bundle := 0x21 } }

/-- Hypotheses of the `TRET` clauses: no lane refused; lane 5 refused once the handler has stored a misaligned pair. -/
theorem test_tret_hypotheses :
    met (handler0 0x1000C) (.tret bareHd) (fun x =>
      x.w.hmode && x.on != 0 && (x.w.refusedLanes x.g.mem).isEmpty && (lanesOf x.w.live).all fun l =>
        (look x.w.entry l).isSome && (frameLane x.g.mem x.w.tfaddr.toNat l).st == 1) = true ∧
    met (handler0 0x1000E) (.tret bareHd) (fun x => x.w.hmode && x.on != 0 && x.w.refusedLanes x.g.mem == [5]) = true := by
  decide +kernel

/-- `TRET` sends lane 5 where the handler stored, and lane 0 where it trapped (R453). -/
theorem test_tret :
    (after (handler0 0x1000C) (.tret bareHd)).map (fun t => ((warp0 t).hmode, (warp0 t).front.map fun e => (e.pc, e.mask))) =
      some (false, [(0x10000, 1), (0x1000C, 0x20)]) := by decide +kernel

/-- Hypotheses of TrapEndsWorkgroup, in handler mode and without a handler, and the records that they leave. -/
theorem test_trap_ends :
    (look (mach {}).kernels 1).isSome = true ∧
    (after { w := fun w => { w with hmode := true } } (.trap bareHd 0)).map (fun t =>
      ((look t.wgs wid0).map (·.st), (t.die 0).termIdx, (t.pkg 0).note)) = some (some .ending, 1, 1) ∧
    (after { rc := { rec0 with handler := 0 } } (.trap bareHd 0)).map (fun t => (look t.wgs wid0).map (·.killed)) =
      some (some true) := by decide +kernel

/-! ### The INT group (05 R133-R140) -/

/-- Hypotheses of IntInstructionsWrite: each instruction comes to its own effect. -/
theorem test_int_issue :
    ([.iadd bareHd .n32 true (.v 0) (.v 1) (.s 3), .isub bareHd .i64 false (.v 0) (.v 2) (.v 4), .imul bareHd .i16x2 false (.v 0) (.v 1) (.v 2),
      .imulh bareHd .i32 (.v 0) (.v 1) (.v 2), .imad bareHd .i32 false (.v 0) (.v 1) (.v 2) (.v 3),
      .imadw bareHd .i32 (.v 0) (.v 2) (.v 3) (.v 4), .idiv bareHd .i32 true (.v 0) (.v 1) (.v 2), .irem bareHd .n32 (.v 0) (.v 1) (.v 2),
      .imin bareHd .i32 (.v 0) (.v 1) (.v 2), .imax bareHd .n32 (.v 0) (.v 1) (.v 2), .iabs bareHd .i32 true (.v 0) (.v 1),
      .ineg bareHd .i32 false (.v 0) (.v 1)].all fun i => met {} i) = true ∧
    ([.and bareHd .n32 (.v 0) (.v 1) (.v 2), .or bareHd .n64 (.v 0) (.v 2) (.v 4), .xor bareHd .n32 (.v 0) (.v 1) (.imm 0xFF),
      .not bareHd .n32 (.v 0) (.v 1), .bool3 bareHd 0xCA .n32 (.v 0) (.v 1) (.v 2) (.v 3), .plop bareHd 0x80 (.p 0) (.p 1) (.p 2) (.p 7),
      .shl bareHd .n32 (.v 0) (.v 1) (.imm 31), .shr bareHd .n32 (.v 0) (.v 1) (.imm 32), .sar bareHd .i32 (.v 0) (.v 1) (.imm 1),
      .rot bareHd .n32 (.v 0) (.v 1) (.imm 1), .popc bareHd .n32 (.v 0) (.v 1), .clz bareHd .n32 (.v 0) (.v 1), .ctz bareHd .n32 (.v 0) (.v 1),
      .brev bareHd .n32 (.v 0) (.v 1), .bfe bareHd .n32 (.v 0) (.v 1) (.v 2), .bfi bareHd .n32 (.v 0) (.v 1) (.v 2) (.v 3),
      .iset bareHd .lt .i32 (.p 0) (.v 1) (.v 2), .isel bareHd .n32 (.v 0) (.v 1) (.v 2) (.p 1),
      .lea bareHd 2 .n32 (.v 0) (.v 2) (.v 4), .addc bareHd 1 .n32 (.v 0) (.v 1) (.v 2) (.p 1), .subb bareHd 1 .n32 (.v 0) (.v 1) (.v 2) (.p 1)].all
        fun i => met {} i) = true := by decide +kernel

/-- v12 in lane 0, whose sources hold these values, and in lane 31, whose sources hold 0. -/
def lane0 (a b : Word) (i : Instr) : Option Word :=
  (after { w := regs [(4, 0, a), (5, 0, b)] [(3, b)] } i).map fun t => (warp0 t).vget 12 0

/-- 05, "encoding and running a saturating add": 0xFFFFFFF0 + 0x20 clamps, or wraps without `.sat`. -/
theorem test_iadd : lane0 0xFFFFFFF0 0x20 (.iadd bareHd .n32 true (.v 12) (.v 4) (.s 3)) = some 0xFFFFFFFF ∧
    lane0 0xFFFFFFF0 0x20 (.iadd bareHd .n32 false (.v 12) (.v 4) (.s 3)) = some 0x10 := by decide +kernel

/-- 05, "`IDIV.i32` and `IREM.i32` at the edges". -/
theorem test_idiv :
    [(7, -2), (-7, 2), (25, 0), (0x80000000, -1)].map (fun p => lane0 p.1 p.2 (.idiv bareHd .i32 false (.v 12) (.v 4) (.v 5))) =
      [some 0xFFFFFFFD, some 0xFFFFFFFD, some 0xFFFFFFFF, some 0x80000000] ∧
    lane0 0x80000000 (-1) (.idiv bareHd .i32 true (.v 12) (.v 4) (.v 5)) = some 0x7FFFFFFF := by decide +kernel

theorem test_irem :
    [(7, -2), (-7, 2), (25, 0), (0x80000000, -1)].map (fun p => lane0 p.1 p.2 (.irem bareHd .i32 (.v 12) (.v 4) (.v 5))) =
      [some 1, some 0xFFFFFFFF, some 25, some 0] := by decide +kernel

/-- R136: the tables 0xAA, 0xCC and 0xF0 pass A, B and C through. -/
theorem test_bool3 :
    [0xAA, 0xCC, 0xF0].map (fun n => lane0 0x12345678 0x9ABCDEF0 (.bool3 bareHd n .n32 (.v 12) (.v 4) (.v 5) (.s 3))) =
      [some 0x12345678, some 0x9ABCDEF0, some 0x9ABCDEF0] := by decide +kernel

/-- R140: 0xFFFFFFFF + 1 wraps to 0 and carries, in the lane where it does. -/
theorem test_addc : (after { w := regs [(4, 0, 0xFFFFFFFF)] [(3, 1)] } (.addc bareHd 2 .n32 (.v 12) (.v 4) (.s 3) (.p 0))).map
      (fun t => ((warp0 t).vget 12 0, (warp0 t).pget 1)) = some (0, 1) ∧
    (after { w := regs [(4, 0, 0xFFFFFFFF)] [(3, 1)] } (.subb bareHd 2 .n32 (.v 12) (.v 4) (.s 3) (.p 0))).map
      (fun t => ((warp0 t).vget 12 0, (warp0 t).vget 12 1, (warp0 t).pget 1)) = some (0xFFFFFFFE, 0xFFFFFFFF, 0xFFFFFFFE) := by
  decide +kernel

/-- A lane whose guard is false keeps its register, and its thread goes on (R57, R80). -/
theorem test_guard : (after { w := fun w => { regs [(12, 1, 7)] [] w with p := [(1, 1)] } }
      (.iadd { bareHd with gp := 1 } .n32 false (.v 12) (.imm 2) (.imm 3))).map (fun t =>
        ((warp0 t).vget 12 0, (warp0 t).vget 12 1, (warp0 t).front.map fun e => (e.pc, e.mask))) =
    some (5, 7, [(0x1000C, 0xFFFFFFFF)]) := by decide +kernel

/-- Hypotheses of IntValues: an element of each packed place, a zero divisor, the most negative number by -1, and counts in range. -/
theorem test_int_values : (1 < Ty.elems .i16x2) ∧ ((0 : BitVec 32) = 0) ∧ ((5 : BitVec 32) ≠ 0) ∧
    ((0x80000000 : BitVec 32).toInt = -2147483648) ∧ ((0xFFFFFFFF : BitVec 32).toInt = -1) ∧ clzBits 32 1 = 31 ∧
    ctzBits 32 0x80000000 = 31 ∧ clzBits 32 0x80000000 = 0 := by decide +kernel

/-! ### Operands and the MOV group (05 R116-R151) -/

/-- Hypotheses of OperandForms: a latch that holds a value. -/
theorem test_latch : ((iss { c := fun c => { c with port0 := ⟨some (wid0, 0, lowLanes 32), 0, [(1, ⟨false, [(0, 9)]⟩)], 0, 0⟩ } }
      (.mov bareHd .n32 (.v 0) (.b 1))).bind fun x => (look x.latch 1).map fun q => (x.rd .n32 (.b 1) 0, q.wide)) = some (9, false) := by
  decide +kernel

/-- `SCH.CAP` captures the result, which the next instruction of the bundle reads (R128). -/
theorem test_capture : (after { w := regs [(4, 0, 7)] [] } (.iadd { bareHd with cap := true, latch := 1 } .n32 false (.v 12) (.v 4) (.imm 1))).bind
    (fun t => (look ((t.core 0).port 0).latch 1).map fun q => (lookD q.x 0 0, lookD q.x 5 0)) = some (8, 1) := by decide +kernel

/-- Hypotheses of MovesWrite and VotesWrite. -/
theorem test_mov_issue :
    ([.mov bareHd .n64 (.v 0) (.s 2), .movi bareHd .n32 (.v 0) 0xB343, .movh bareHd 1 .n32 (.v 7) (.v 7) 0x8DA6,
      .shfl bareHd .xor 3 .n32 (.v 0) (.v 1) (.imm 1), .bcast bareHd true .n32 (.s 0) (.v 1) (.imm 0),
      .bcast bareHd false .n32 (.s 0) (.v 1) (.imm 31), .pmov bareHd false 0x7F (.v 1) (.v 0), .pmov bareHd true 0x7F (.v 0) (.v 1),
      .vote bareHd .all (.p 0) (.p 1), .vote bareHd .any (.s 0) (.p 1), .vote bareHd .uni (.p 0) (.p 1), .vote bareHd .first (.p 0) (.p 7)].map
        fun i => met {} i) = List.replicate 12 true ∧
    met {} (.vote bareHd .ballot (.s 3) (.p 7)) (fun x => x.on != 0 && !x.f.hd.nwb) = true := by decide +kernel

/-- 05, "building a 32-bit constant". -/
theorem test_movh : (after { w := regs [(7, 0, 0xB343)] [] } (.movh bareHd 1 .n32 (.v 7) (.v 7) 0x8DA6)).map
    (fun t => (warp0 t).vget 7 0) = some 0x8DA6B343 := by decide +kernel

/-- R143: exclusive or within segments of eight lanes; a rotation wraps in the segment. -/
theorem test_shfl :
    (after { w := regs ((List.range 32).map fun l => (1, l, BitVec.ofNat 32 l)) [] } (.shfl bareHd .xor 3 .n32 (.v 0) (.v 1) (.imm 1))).map
      (fun t => [0, 1, 9].map ((warp0 t).vget 0)) = some [1, 0, 8] ∧
    (after { w := regs ((List.range 32).map fun l => (1, l, BitVec.ofNat 32 l)) [] } (.shfl bareHd .rotl 3 .n32 (.v 0) (.v 1) (.imm 1))).map
      (fun t => [0, 7, 15].map ((warp0 t).vget 0)) = some [1, 0, 8] := by decide +kernel

/-- R144: the ballot of lanes 0 to 7 and 31. -/
theorem test_ballot : (after { w := fun w => { w with p := [(1, 0x800000FF)] } } (.vote bareHd .ballot (.s 3) (.p 1))).map
    (fun t => (warp0 t).sget 3) = some 0x800000FF := by decide +kernel

/-- Hypotheses of SpecialRegisters: the last number of the table and the first beyond it. -/
theorem test_rdsr_issue :
    ([0x014, 0x015].map fun n => met {} (.rdsr bareHd (.v 0) (BitVec.ofNat 12 n)) fun x => x.on != 0) = [true, true] ∧
    ([0x014, 0x015].map fun n => met {} (.wrsr bareHd (.s 0) (BitVec.ofNat 12 n)) fun x => x.on != 0) = [true, true] := by
  decide +kernel

/-- 01, "identifying a thread": its `HWID` is package, die, quad, core and context in their places (R15). -/
theorem test_hwid :
    (after { w := fun w => { w with ctx0 := 1216 - 1216 % 32 } } (.rdsr bareHd (.v 0) 0x000)).map (fun t => (warp0 t).vget 0 18) =
      some (BitVec.ofNat 32 (1234 * 32)) := by decide +kernel

/-- `WRSR` clears the `FLG` bits written as ones (R47) and replaces `FRM`. -/
theorem test_wrsr : (after { w := fun w => { regs [] [(2, 0x5)] w with flg := 0x1F } } (.wrsr bareHd (.s 2) 0x00B)).map (fun t => (warp0 t).flg) =
      some 0x1A ∧
    (after { w := regs [] [(2, 3)] } (.wrsr bareHd (.s 2) 0x00A)).map (fun t => (warp0 t).frm) = some 3 := by decide +kernel

/-- A kernel that declares blocks of 32 registers. -/
def blocks : LaunchRec := { rec0 with xregs := 32 }

/-- Hypotheses of ExtendedBlocks: a size not declared; one that fits; one that does not, as another warp queues; a queue whose
head is a warp that waits. -/
theorem test_xacq :
    met { rc := blocks } (.xacq bareHd 24) (fun x => x.on != 0 && x.xbad 24) = true ∧
    met { rc := blocks } (.xacq bareHd 32) (fun x => x.on != 0 && !x.xbad 32 && (x.s.core x.g.core).xq.isEmpty &&
      decide (x.kr.rc.units 32 ≤ x.s.regFree x.g.core)) = true ∧
    met { rc := blocks, c := fun c => { c with xq := [(5, 0, 32)] } } (.xacq bareHd 32) (fun x =>
      x.on != 0 && !x.xbad 32 && !(x.s.core x.g.core).xq.isEmpty) = true ∧
    met { rc := blocks, w := fun w => { w with x := 32 } } (.xrel bareHd) (fun x => x.on != 0) = true ∧
    met { rc := blocks } (.xtry bareHd (.s 0) 32) (fun x => x.on != 0 && !x.xbad 32 && (x.s.core x.g.core).xq.isEmpty) = true := by
  decide +kernel

/-- The warp with an instruction in progress, since a time. -/
def holding (m : Mod) (i : Instr) (k : Wait) : State :=
  mach { m with w := fun w => { m.w w with hold := some ⟨cur0, i, 0, k, []⟩ } }

/-- The instruction in progress meets `p`. -/
def heldIs (s : State) (p : Hold → Ix → Bool) : Bool := (s.held wid0 0).any fun q => p q.1 q.2

theorem test_xacq_grant :
    let s := holding { rc := blocks, c := fun c => { c with xq := [(wid0, 0, 32)] } } (.xacq bareHd 32) (.xacq 32)
    heldIs s (fun h x => h.wait == .xacq 32 && (s.core 0).xq == [(wid0, 0, 32)] && decide (x.kr.rc.units 32 ≤ s.regFree 0)) = true ∧
    (match exec (.xacqGrant 0) s with
     | .next t => ((warp0 t).x, (warp0 t).hold, (t.core 0).xq, (warp0 t).front.map (·.pc))
     | _ => (0, none, [], [])) = (32, none, [], [0x1000C]) := by decide +kernel

/-! ### The FPA and CVT groups (06) -/

/-- Hypotheses of FpArithmeticWrites and FpSignsAndComparisons. -/
theorem test_fp_issue :
    ([.fadd bareHd .rne .f32 false (.v 0) (.v 1) (.v 2), .fsub bareHd .rz .f64 false (.v 0) (.v 2) (.v 4),
      .fmul bareHd .dyn .f16x2 true (.v 0) (.v 1) (.v 2), .ffma bareHd .rp .f32 false (.v 0) (.v 1) (.v 2) (.v 3),
      .fdiv bareHd .rm .f32 false (.v 0) (.v 1) (.v 2), .fsqrt bareHd .rne .f32 (.v 0) (.v 1), .fmin bareHd false .f32 (.v 0) (.v 1) (.v 2),
      .fmax bareHd true .f32 (.v 0) (.v 1) (.v 2), .frcp bareHd .f32 false (.v 0) (.v 1), .frsq bareHd .f32 (.v 0) (.v 1),
      .fexp2 bareHd .f32 false (.v 0) (.v 1), .flog2 bareHd .f32 (.v 0) (.v 1), .fsin bareHd .f32 (.v 0) (.v 1), .fcos bareHd .f32 (.v 0) (.v 1),
      .fscale bareHd .rne .f32 false (.v 0) (.v 1) (.v 2), .frnd bareHd true .rne .f32 (.v 0) (.v 1),
      .fdot2 bareHd .rne .f16x2 false (.v 0) (.v 1) (.v 2) (.v 3)].map fun i => met {} i) = List.replicate 17 true ∧
    ([.fabs bareHd .f32 (.v 0) (.v 1), .fneg bareHd .f16x2 (.v 0) (.v 1), .fcpys bareHd .f32 (.v 0) (.v 1) (.v 2), .fclass bareHd .f32 (.v 0) (.v 1),
      .fset bareHd .lt .f32 (.p 0) (.v 1) (.v 2)].map fun i => met {} i) = List.replicate 5 true := by decide +kernel

/-- The predicate and `FLG` after a comparison of a quiet NaN with 1.0. -/
def nanSet (cmp : FCmp) : Option (Bool × BitVec 5) :=
  (after { w := regs ((List.range 32).map fun l => (2, l, 0x7FC00000)) [(3, 0x3F800000)] } (.fset bareHd cmp .f32 (.p 1) (.v 2) (.s 3))).map
    fun t => (((warp0 t).pget 1).getLsbD 0, (warp0 t).flg)

/-- 06, "comparisons against a quiet NaN". -/
theorem test_fset : [FCmp.eq, .ne, .un, .lt].map nanSet = [some (false, 0), some (true, 0), some (true, 0), some (false, 1)] := by decide +kernel

/-- The same with `FTE.IVE` set: `.lt` meets FP_INVALID and has no other effect. -/
theorem test_fset_trap :
    (iss { w := fun w => { regs [(2, 0, 0x7FC00000)] [(3, 0x3F800000)] w with fte := 1 } } (.fset bareHd .lt .f32 (.p 1) (.v 2) (.s 3))).any
      (fun x => x.meeting x.lanes (fun l => (fcmp .lt (f32.decode (x.w.vget 2 l).toNat) (.fin false 1 0)).2) 1 != [] ||
        x.meeting x.lanes (fun l => (fcmp .lt (f32.decode (x.w.vget 2 l).toNat) (.fin false 1 0)).2) 0 != []) = true := by decide +kernel

/-- 1.5 + 2.25, 3 * 0.1 rounded, 1 / 3 in each mode, as IEEE 754 gives them. -/
theorem test_fadd : lane0 0x3FC00000 0x40100000 (.fadd bareHd .rne .f32 false (.v 12) (.v 4) (.v 5)) = some 0x40700000 ∧
    lane0 0x40400000 0x3DCCCCCD (.fmul bareHd .rne .f32 false (.v 12) (.v 4) (.v 5)) = some 0x3E99999A ∧
    [Rnd.rne, .rz, .rp, .rm].map (fun r => lane0 0x3F800000 0x40400000 (.fdiv bareHd r .f32 false (.v 12) (.v 4) (.v 5))) =
      [some 0x3EAAAAAB, some 0x3EAAAAAA, some 0x3EAAAAAB, some 0x3EAAAAAA] := by decide +kernel

/-- Exact results of the functions of R165: 1/4, 1/sqrt 4, 2^3, log2 8, and the square root of 2. -/
theorem test_frcp : lane0 0x40800000 0 (.frcp bareHd .f32 false (.v 12) (.v 4)) = some 0x3E800000 ∧
    lane0 0x40800000 0 (.frsq bareHd .f32 (.v 12) (.v 4)) = some 0x3F000000 ∧
    lane0 0x40400000 0 (.fexp2 bareHd .f32 false (.v 12) (.v 4)) = some 0x41000000 ∧
    lane0 0x41000000 0 (.flog2 bareHd .f32 (.v 12) (.v 4)) = some 0x40400000 ∧
    lane0 0x40000000 0 (.fsqrt bareHd .rne .f32 (.v 12) (.v 4)) = some 0x3FB504F3 := by decide +kernel

/-- R162: 1.0 is a positive normal number, -0 a negative zero. -/
theorem test_fneg : lane0 0x7FC00000 0 (.fneg bareHd .f32 (.v 12) (.v 4)) = some 0xFFC00000 ∧
    lane0 0xBF800000 0 (.fabs bareHd .f32 (.v 12) (.v 4)) = some 0x3F800000 := by decide +kernel

/-- Hypotheses of OneRounding: 13 at step 4 in each mode; a magnitude in range and one beyond it. -/
theorem test_rounding :
    ((0 : Int) < 2) ∧ [Mode.rne, .rz, .rp, .rm, .sr 0].map (fun m => (roundAt m false 13 0 false 2).1) = [3, 3, 4, 3, 4] ∧ f32 ∈ [f16, bf16, f32, f64] ∧
    dyGt (roundAt .rne false 13 0 false (-20)).1 (-20) f32.fmt.maxM f32.fmt.maxE = false ∧
    dyGt (roundAt .rne false 1 200 false 177).1 177 f32.fmt.maxM f32.fmt.maxE = true := by decide +kernel

/-- 02, "converting 3.3 to `.b8s4`": 0x4D to nearest; stochastically 0x4D from 13107 on and 0x4E below. The value is 3.3's FP64. -/
theorem test_b8 :
    let x := f64.decode 0x400A666666666666
    ([Mode.rne, .sr 13107, .sr 13106].map fun m => ((B8.ofCode 3).convert m false x).1) = [0x4D, 0x4D, 0x4E] := by decide +kernel

/-- 02, "format codes": the codes that name a format, and one that does not (R35). -/
theorem test_format_codes : [(0x03 : BitVec 5), 0x0B, 0x10, 0x1F, 0x07].map fmtOk = [true, true, true, true, false] := by decide +kernel

/-- Hypotheses of EncodingsRoundTrip: the largest encoding; a format; a line at the edges of its fields. -/
theorem test_encodings :
    0xFFFF < 2 ^ (f16.p + f16.w) ∧ fmtOk 3 = true ∧
    (let l : Line := { Line.ofBytes false (zeros 64) with count := 2 ^ 32 - 1, gen := 255, a := 2 ^ 447 - 1 }
     l.weight = -149 ∧ l.inx = false ∧ -(2 ^ (8 * lineBytes false - 1) : Int) ≤ l.a ∧ l.a < (2 ^ (8 * lineBytes false - 1) : Int)) ∧
    (let l : Line := { Line.ofBytes true (zeros 128) with weight := -2048 }
     l.weight < 2048 ∧ -2048 ≤ l.weight) := by decide +kernel

/-- 02, "exact and ordinary sums compared": 1.0, 2^-149 and -1.0 leave A = 1, `COUNT` 3, and read 2^-149 without a flag. -/
theorem test_line :
    let l := [f32.decode 0x3F800000, f32.decode 1, f32.decode 0xBF800000].foldl (Line.add false)
      { Line.ofBytes false (zeros 64) with gen := 5 }
    natOfBytes ((l.bytes false).take 8) = 0x0000000305000000 ∧ natOfBytes ((l.bytes false).drop 8) = 1 ∧
      f32.encode (l.read f32.fmt false).1 = 1 ∧ (l.read f32.fmt false).2 = 0 := by decide +kernel

/-- Hypotheses of ConversionsWrite. -/
theorem test_cvt_issue :
    ([.cvt bareHd .f32 .rne .i32 false (.v 0) (.v 1), .cvtb8 bareHd false true true .f32 3 .rne false (.v 0) (.v 1) (.v 2),
      .cvtb8 bareHd true false false .f32 3 .rne false (.v 0) (.v 2) (.imm 0), .mxq bareHd false .f32 3 .rne (.v 0) (.v 1),
      .mxd bareHd .f32 3 .rne false (.v 0) (.v 1) (.v 2), .amax bareHd .f32 (.s 0) (.v 1) (.s 2)].map fun i => met {} i) =
    List.replicate 6 true := by decide +kernel

/-- 02, "one block in `.b8s4`": scale 0x80 and the bytes of 300.0, -0.7, 0.001 and 0. -/
theorem test_mxq : (after { w := regs [(4, 0, 0x43960000), (4, 1, 0xBF333333), (4, 2, 0x3A83126F)] [] }
      (.mxq bareHd false .f32 3 .rne (.v 12) (.v 4))).map (fun t => [0, 1, 2, 3].map ((warp0 t).vget 12)) =
    some [0x8079, 0x80B3, 0x8001, 0x8000] := by decide +kernel

/-- Hypotheses of StreamAndFlags. -/
theorem test_stream_issue :
    ([.rng bareHd .n32 (.v 0), .rngkey bareHd false (.s 0) (.s 2) (.s 4), .rngkey bareHd true (.s 0) (.imm 0) (.imm 0), .flgrd bareHd true (.s 0),
      .flgclr bareHd (.imm 1), .flgen bareHd .or (.imm 1), .frmset bareHd (.s 0) (.imm 1)].map fun i => met {} i) =
    List.replicate 7 true := by decide +kernel

/-- 06, "draws across a divergent warp": a guarded stochastic conversion takes 32 counters; then lanes 16 to 31 draw: lane 20 gets
mix(K, 0x134), and the counter becomes 0x140. -/
theorem test_rng :
    (after { w := fun w => { w with rctr := 0x100 } } (.cvtb8 { bareHd with gp := 1 } false false true .f32 3 .rne false (.v 9) (.v 2) (.v 3))).map
      (fun t => (warp0 t).rctr) = some 0x120 ∧
    (after { w := fun w => { w with rctr := 0x120, rkey := 5 }, s := fun s => { s with cur := some { cur0 with bundle := 0xFFFF0000 } } }
      (.rng bareHd .n32 (.v 10))).map (fun t => ((warp0 t).vget 10 20, (warp0 t).vget 10 3, (warp0 t).rctr)) =
        some (BitVec.ofNat 32 (mix 5 0x134), 0, 0x140) := by decide +kernel

/-- Bool forms of what Safety.lean calls clear, sound and reaching, with the proof that they say it. -/
def clearB (x : Ix) (as : List Acc1) (chk : Nat → Tr → Ranked) : Bool :=
  as.all fun a => decide (a.2.1 % a.2.2 = 0) && (match x.xlate a.2.1 with
    | .page p => (chk a.2.1 (.page p)).isNone && (p.hmem || !x.s.inFlip (p.pa a.2.1))
    | _ => false)

theorem clear_of (x : Ix) (as : List Acc1) (chk : Nat → Tr → Ranked) (h : clearB x as chk = true) : x.clear as chk := by
  intro a ha
  have := List.all_eq_true.mp h a ha
  simp only [Bool.and_eq_true, decide_eq_true_eq] at this
  refine ⟨this.1, ?_⟩
  have h2 := this.2
  split at h2
  · rename_i p hp
    simp only [Bool.and_eq_true, Option.isNone_iff_eq_none, Bool.or_eq_true, Bool.not_eq_true'] at h2
    exact ⟨p, hp, h2.1, fun hm => by simpa [hm] using h2.2⟩
  · exact absurd h2 (by simp)

def soundB (x : Ix) (as : List Acc1) : Bool :=
  as.all fun a => match x.xlate a.2.1 with
    | .page p => p.hmem || !x.s.poisoned (p.pa a.2.1) a.2.2
    | _ => true

theorem sound_of (x : Ix) (as : List Acc1) (h : soundB x as = true) : x.sound as := by
  intro a ha p hp hm
  have := List.all_eq_true.mp h a ha
  simpa [hp, hm] using this

def reachesB (x : Ix) (as : List Acc1) : Bool :=
  as.all fun a => decide (a.2.1 % a.2.2 = 0) && (match x.reach a.2.1 a.2.2 with
    | .area _ _ => true
    | _ => false)

theorem reaches_of (x : Ix) (as : List Acc1) (h : reachesB x as = true) : x.reaches as := by
  intro a ha
  have := List.all_eq_true.mp h a ha
  simp only [Bool.and_eq_true, decide_eq_true_eq] at this
  refine ⟨this.1, ?_⟩
  have h2 := this.2
  split at h2
  · rename_i wid off hp
    exact ⟨wid, off, hp⟩
  · exact absurd h2 (by simp)

/-- A machine whose s4-s5 hold an address. -/
def based (va : Nat) (m : Mod := {}) : Mod :=
  { m with w := fun w => m.w (regs [] [(4, BitVec.ofNat 32 va), (5, BitVec.ofNat 32 (va / 2 ^ 32))] w) }

/-- Hypotheses of LinesAreRead; of its causes, a page of another class and one on the next die. -/
theorem test_fxcvt_issue :
    met (based 0x30000) (.fxcvt bareHd false .f32 false (.v 6) (.s 4) (.imm 0) 0) (fun x =>
      let as : List Acc1 := (x.computing (.v 6)).map fun l => (l, x.gaddr (.s 4) (.imm 0) 0 l, 64)
      clearB x as (lineCause x.s x.g.core) && soundB x as) = true ∧
    (paDie (2 ^ 44) ≠ dieOf 0) ∧ (mach {}).hostBiased 0x30000 = false := by decide +kernel

/-- 06, "reading the half-line of R46's example": every lane reads 0x00000001, with no flag. -/
theorem test_fxcvt : (after (based 0x30000 { s := fun s => { s with mem := memWrite (memWrite [] 0x30000 (bytesOfNat 8 0x0000000305000000)) 0x30008 [1] } })
      (.fxcvt bareHd false .f32 false (.v 6) (.s 4) (.imm 0) 0)).map (fun t => ((warp0 t).vget 6 0, (warp0 t).vget 6 31, (warp0 t).flg)) =
    some (1, 1, 0) := by decide +kernel

/-! ### The CTL group (04 R80-R112) -/

/-- Hypotheses of ThreadsMove: each instruction comes to its own effect; the links of a return aligned, and one not. -/
theorem test_ctl_issue :
    ([.nop bareHd, .yield bareHd, .bra { bareHd with gp := 1 } 40 2, .call bareHd 0 (.v 0) 2, .prio bareHd 5, .sleep bareHd 0,
      .exit bareHd].map fun i => met {} i) = List.replicate 7 true ∧
    ([.brx bareHd (.v 0), .ret bareHd (.v 0)].map fun i => met {} i fun x => (x.lanes.filter fun l => x.rd64 (.v 0) l % 4 != 0).isEmpty) =
      [true, true] ∧
    ([.brx bareHd (.v 0), .ret bareHd (.v 0)].map fun i => met { w := regs [(0, 3, 2)] [] } i fun x =>
      (x.lanes.filter fun l => x.rd64 (.v 0) l % 4 != 0) == [3]) = [true, true] := by decide +kernel

/-- Lanes 0 to 15 wait on mask 0, of which all lanes are members. -/
def waiting (w : Warp) : Warp :=
  { w with
    k := [(0, 0xFFFFFFFF)], live := 0xFFFFFFFF, front := [⟨0, 0x10000, 0xFFFF0000, 0, 0⟩]
    blocked := [⟨0, 0x10048, 0xFFFF, .rejoin 0 20⟩] }

/-- Lanes 0 to 7 wait on mask 0 and lanes 8 to 15 on mask 1, each mask with all sixteen as members. -/
def crossed (w : Warp) : Warp :=
  { w with
    k := [(0, 0xFFFF), (1, 0xFFFF)], live := 0xFFFFFFFF, front := [⟨0, 0x10000, 0xFFFF0000, 0, 0⟩]
    blocked := [⟨0, 0x10048, 0xFF, .rejoin 0 20⟩, ⟨0, 0x10060, 0xFF00, .rejoin 1 20⟩] }

/-- An issue by lanes 16 to 31. -/
def upper (w : Warp → Warp) : Mod := { w := w, s := fun s => { s with cur := some { cur0 with bundle := 0xFFFF0000 } } }

/-- `EXIT` that leaves every live thread blocked on a mask not met, and one that does not (R90). -/
theorem test_exit_hypotheses :
    met (upper crossed) (.exit bareHd) (fun x => ({ x.w with live := x.w.live &&& ~~~x.on } : Warp).deadlocked) = true ∧
    met (upper waiting) (.exit bareHd) (fun x => !({ x.w with live := x.w.live &&& ~~~x.on } : Warp).deadlocked &&
      x.on == 0xFFFF0000 && x.w.parked.isEmpty && x.w.blocked.all fun p => !p.mask.getLsbD 31) = true := by
  decide +kernel

/-- 04, "a divergent branch", issue 2: lanes 0 to 9 go to the target at priority 40, the others fall through. -/
theorem test_bra : (after { w := fun w => { w with p := [(1, 0x3FF)] } } (.bra { bareHd with gp := 1 } 40 2)).map
    (fun t => (warp0 t).front.map fun e => (e.prio, e.pc, e.mask)) = some [(40, 0x10024, 0x3FF), (0, 0x1000C, 0xFFFFFC00)] := by
  decide +kernel

/-- `CALL` leaves the link of R81 and `BRX` follows one, with the priority in its top byte. -/
theorem test_call : (after {} (.call bareHd 7 (.v 0) 1)).map (fun t =>
      ((warp0 t).vpair 0 31, (warp0 t).front.map fun e => (e.prio, e.pc))) = some (0x1000C, [(7, 0x10018)]) ∧
    (after { w := regs [(0, 1, 0x20000), (1, 1, 0x05000000)] [] , s := fun s => { s with cur := some { cur0 with bundle := 2 } } }
      (.brx bareHd (.v 0))).map (fun t => (warp0 t).front.map fun e => (e.prio, e.pc, e.mask)) = some [(5, 0x20000, 2), (0, 0x10000, 0xFFFFFFFD)] := by
  decide +kernel

theorem test_exit : (after { w := fun w => { w with p := [(1, 0x3FF)] } } (.exit { bareHd with gp := 1 })).map (fun t =>
    ((warp0 t).live, (warp0 t).front.map fun e => (e.pc, e.mask))) = some (0xFFFFFC00, [(0x1000C, 0xFFFFFC00)]) := by decide +kernel

theorem test_sleep : (after { d := fun d => { d with clkAcc := 20000 } } (.sleep bareHd 7)).map (fun t => (warp0 t).sleepUntil) = some 107 := by
  decide +kernel

/-- A record in slot 1 of context 0 of the own die, generation 5, of a kind: its handle is 0x00010005. -/
def sealed (kind : Nat) (bs : List Byte) (m : Mod := {}) : Mod :=
  { m with
    d := fun d => { m.d d with handles := [(0, [(1, ⟨5, true, false, kind, bs⟩)])] }
    w := fun w => regs [] [(8, 0x00010005)] (m.w w) }

/-- A bucket table of two entries at 0x20000. -/
def table : List Byte := bytesOfNat 8 0x20000 ++ bytesOfNat 4 2 ++ zeros 244

/-- Hypotheses of the `BKT` clauses: an index at the count, and indexes 0 and 1 with aligned entries. -/
theorem test_bkt_hypotheses :
    met (sealed 3 table { w := regs [(0, 4, 2)] [] }) (.bkt bareHd 9 (.s 8) (.v 0)) (fun x =>
      (match x.handle (x.u32 (.s 8)) 3 with
       | .ok bs => (x.lanes.filter fun l => decide (fld bs 8 4 ≤ x.rd32 (.v 0) l)) == [4]
       | .error _ => false)) = true ∧
    met (sealed 3 table { w := regs [(0, 4, 1)] [] }) (.bkt bareHd 9 (.s 8) (.v 0)) (fun x =>
      (match x.handle (x.u32 (.s 8)) 3 with
       | .ok bs =>
         let ea (l : Nat) : Nat := fld bs 0 8 + 8 * x.rd32 (.v 0) l
         let as : List Acc1 := x.lanes.map fun l => (l, ea l, 8)
         (x.lanes.filter fun l => decide (fld bs 8 4 ≤ x.rd32 (.v 0) l)).isEmpty && clearB x as (plainCause x.s x.g.core .load) && soundB x as &&
           x.lanes.all fun l => natOfBytes (x.bytesAt (ea l) 8) % 4 == 0
       | .error _ => false)) = true := by decide +kernel

/-- `BKT` sends lane 4 to entry 1 and the others to entry 0 (R109). -/
theorem test_bkt : (after (sealed 3 table { w := regs [(0, 4, 1)] [], s := fun s => { s with mem := memWrite [] 0x20000 (bytesOfNat 8 0x10200 ++ bytesOfNat 8 0x10300) } })
      (.bkt bareHd 9 (.s 8) (.v 0))).map (fun t => (warp0 t).front.map fun e => (e.prio, e.pc, e.mask)) =
    some [(9, 0x10200, 0xFFFFFFEF), (9, 0x10300, 0x10)] := by decide +kernel

/-- Hypotheses of RejoinMasks: every clause; `RJWAIT` by the last members, and with no mask that could be met. -/
theorem test_rejoin_issue :
    ([.rjset bareHd (.k 0), .rjdrop bareHd (.k 0)].map fun i => met {} i) = [true, true] ∧
    met (upper waiting) (.rjwait bareHd 20 (.k 0)) (fun x =>
      !({ x.w with blocked := x.w.blocked ++ [⟨x.c.prio, x.c.pc, x.on &&& x.w.kget 0, .rejoin 0 20⟩] } : Warp).deadlocked) = true ∧
    met (upper fun w => { w with k := [(0, 0xFFFF0000), (1, 0xFFFFFFFF)], live := 0xFFFFFFFF, blocked := [⟨0, 0x10048, 0xFFFF, .rejoin 1 20⟩] })
      (.rjwait bareHd 20 (.k 1)) (fun x => x.on &&& x.w.kget 1 != 0) = true ∧
    ([.kmov bareHd (.k 1) (.k 0), .kmov bareHd (.k 1) (.s 4), .kmov bareHd (.s 4) (.k 0)].map fun i => met {} i fun x => x.on != 0 && !x.f.hd.nwb) =
      [true, true, true] := by decide +kernel

/-- A warp whose every live thread would wait, lanes 0 to 15 on mask 1 and the rest on mask 0, each with a member on the other. -/
theorem test_rejoin_deadlock :
    met (upper fun w => { w with
      k := [(0, 0xFFFFFFFF), (1, 0xFFFFFFFF)], live := 0xFFFFFFFF, front := [⟨0, 0x10000, 0xFFFF0000, 0, 0⟩]
      blocked := [⟨0, 0x10048, 0xFFFF, .rejoin 1 20⟩] }) (.rjwait bareHd 20 (.k 0)) (fun x =>
        ({ x.w with blocked := x.w.blocked ++ [⟨x.c.prio, x.c.pc, x.on &&& x.w.kget 0, .rejoin 0 20⟩] } : Warp).deadlocked) = true := by
  decide +kernel

/-- 04, "a divergent branch", issue 8: the last members block, and all 32 lanes stand after the `RJWAIT` in one entry. -/
theorem test_rjwait : (after { upper waiting with s := fun s => { s with cur := some { cur0 with pc := 0x10048, bundle := 0xFFFF0000 } } }
      (.rjwait bareHd 20 (.k 0))).map (fun t => ((warp0 t).front.map fun e => (e.prio, e.pc, e.mask), (warp0 t).blocked, (warp0 t).kget 0)) =
    some ([(20, 0x10054, 0xFFFFFFFF)], [], 0) := by decide +kernel

theorem test_rjset : (after { w := fun w => { w with p := [(1, 0x3FF)], k := [(2, 7)] } } (.rjset { bareHd with gp := 1 } (.k 2))).map
      (fun t => (warp0 t).kget 2) = some 0x3FF ∧
    (after { w := fun w => { w with p := [(1, 0x3FF)], k := [(2, 7)] } } (.rjdrop { bareHd with gp := 1 } (.k 2))).map (fun t => (warp0 t).kget 2) =
      some 0 := by decide +kernel

theorem test_kmov : (after { w := fun w => { w with k := [(0, 0x00010002000300040005000600070008)] } } (.kmov bareHd (.s 4) (.k 0))).map
    (fun t => [4, 5, 6, 7, 8].map (warp0 t).sget) = some [0x00070008, 0x00050006, 0x00030004, 0x00010002, 0] := by decide +kernel

/-- Hypotheses of the masks' second and third clauses: a mask met, and one not. -/
theorem test_rejoin_met :
    (waiting (warp0 (mach {}))).rejoinMet 0 = false ∧
    ({ waiting (warp0 (mach {})) with k := [(0, 0xFFFF)] } : Warp).rejoinMet 0 = true ∧ (waiting (warp0 (mach {}))).hmode = false := by
  decide +kernel

/-- A launch record of one 32-lane warp at 0x10000, and one with a completion word at 0x50008. -/
def launch0 (compl : Nat) : List Byte :=
  bytesOfNat 8 0x10000 ++ zeros 8 ++ bytesOfNat 8 (2 ^ 48 + 2 ^ 32 + 2 ^ 16 + 1) ++ bytesOfNat 8 0x48400008 ++ zeros 16 ++ bytesOfNat 8 compl ++ zeros 8

/-- Hypotheses of LaunchAndWait: no named die up, a full table, room in the own die's; no completion word, its target met and not. -/
theorem test_launch_hypotheses :
    met (sealed 4 (launch0 0) { d := fun d => { d with up := false } }) (.launch bareHd (.s 0) (.s 8)) (fun x =>
      x.on != 0 && (match x.handle (x.u32 (.s 8)) 4 with | .ok bs => (launchOf bs).dies == 0 | .error _ => false) && !(x.s.die 0).up) = true ∧
    met (sealed 4 (launch0 0) { d := fun d => { d with pend := List.range 256 } }) (.launch bareHd (.s 0) (.s 8)) (fun x =>
      x.on != 0 && (x.s.die 0).up && decide (256 ≤ (x.s.die 0).pend.length)) = true ∧
    met (sealed 4 (launch0 0) { d := fun d => { d with pend := List.range 255 } }) (.launch bareHd (.s 0) (.s 8)) (fun x =>
      x.on != 0 && (x.s.die 0).up && !decide (256 ≤ (x.s.die 0).pend.length)) = true ∧
    met (sealed 4 (launch0 0)) (.waitk bareHd (.s 0) (.s 8) (.imm 1)) (fun x =>
      (match x.handle (x.u32 (.s 8)) 4 with | .ok bs => (launchOf bs).compl == 0 | .error _ => false)) = true ∧
    ([0, 1].map fun n => met (sealed 4 (launch0 0x50008)) (.waitk bareHd (.s 0) (.s 8) (.imm (BitVec.ofNat 8 n))) (fun x =>
      let chk (va : Nat) (tr : Tr) : Ranked :=
        match tr with
        | .page p => if p.cls ≠ 3 ∨ p.hmem = true then some (4, 0x32)
          else if paDie (p.pa va) ≠ dieOf x.g.core then some (5, 0x35) else none
        | _ => none
      let as : List Acc1 := [(0, 0x50008, 8)]
      clearB x as chk && soundB x as && decide (n ≤ natOfBytes (x.bytesAt 0x50008 8) % 2 ^ 32))) = [true, false] := by decide +kernel

/-- `LAUNCH` answers 0 and the new instance stands in the own die's table (R110). -/
theorem test_launch : (after (sealed 4 (launch0 0)) (.launch bareHd (.s 0) (.s 8))).map (fun t =>
    ((warp0 t).sget 0, (t.die 0).pend, (look t.kernels 2).map (·.rc.entry))) = some (0, [2], some 0x10000) := by decide +kernel

/-- `WAITK` waits for the target and is woken by it (R111). -/
theorem test_waitk :
    let s := holding (sealed 4 (launch0 0x50008) { s := fun s => { s with mem := memWrite [] 0x50008 [1] } }) (.waitk bareHd (.s 0) (.s 8) (.imm 1)) (.waitk 0x50008 0x50008 1)
    (match exec (.waitkWake wid0 0) s with
     | .next t => ((warp0 t).sget 0, (warp0 t).hold)
     | _ => (0, none)) = (1, none) := by decide +kernel

/-! ### The LOC group (07 R186-R207) -/

/-- The issue reaches the areas it names, for a list of accesses. -/
def reaching (m : Mod) (i : Instr) (as : Ix → List Acc1) (p : Ix → Bool := fun _ => true) : Bool := met m i fun x => reachesB x (as x) && p x

/-- The issue's accesses are clear, sound and unwatched. -/
def clearing (m : Mod) (i : Instr) (as : Ix → List Acc1) (chk : Ix → Nat → Tr → Ranked) (p : Ix → Bool := fun _ => true) : Bool :=
  met m i fun x => clearB x (as x) (chk x) && soundB x (as x) && (x.watched (as x)).isNone && p x

/-- Hypotheses of LocalAccesses: the last bytes of the area; a misaligned one; an address beyond it, and one in no range. -/
theorem test_local_hypotheses :
    (mach {}).memWf = true ∧
    reaching { w := regs [(0, 5, 0x3FFC)] [] } (.ldl bareHd mm0 .n32 (.v 2) (.v 0) (.v 1) 0) (fun x => (x.computing (.v 2)).map fun l =>
      (l, x.laddr (.v 0) (.v 1) 0 l, 4)) = true ∧
    reaching { w := regs [(0, 5, 0x3FFC)] [] } (.stl bareHd mm0 .n32 (.v 2) (.v 0) (.v 1) 0) (fun x => x.lanes.map fun l =>
      (l, x.laddr (.v 0) (.v 1) 0 l, 4)) = true ∧
    ([.stl bareHd mm0 .n32 (.v 2) (.v 0) (.v 1) 0, .ldl bareHd mm0 .n32 (.v 2) (.v 0) (.v 1) 0].map fun i =>
      met { w := regs [(0, 5, 2)] [] } i fun x => (x.lanes.filter fun l => x.laddr (.v 0) (.v 1) 0 l % 4 != 0) == [5]) = [true, true] ∧
    ([.stl bareHd mm0 .n32 (.v 2) (.v 0) (.v 1) 0, .ldl bareHd mm0 .n32 (.v 2) (.v 0) (.v 1) 0].map fun i =>
      [0x4000, 0x80000000].map fun ea => met { w := regs [(0, 5, ea)] [] } i fun x =>
        (x.lanes.filter fun l => x.laddr (.v 0) (.v 1) 0 l % 4 != 0).isEmpty &&
          (x.lanes.filter fun l => x.reach (x.laddr (.v 0) (.v 1) 0 l) 4 == .nothing) == [5]) = [[true, true], [true, true]] := by
  decide +kernel

/-- R200: a byte is sign-extended, a half-word zero-extended; an `STL` stores the low bytes of the lane's register. -/
theorem test_ldl :
    (after { g := fun g => { g with mem := memWrite [] 0x10 [0x80, 0x81, 0x82, 0x83] } } (.ldl bareHd mm0 .i8 (.v 2) (.v 0) (.v 1) 0x11)).map
      (fun t => (warp0 t).vget 2 9) = some 0xFFFFFF81 ∧
    (after { g := fun g => { g with mem := memWrite [] 0x10 [0x80, 0x81, 0x82, 0x83] } } (.ldl bareHd mm0 .f16 (.v 2) (.v 0) (.v 1) 0x12)).map
      (fun t => (warp0 t).vget 2 9) = some 0x8382 ∧
    (after { w := regs [(2, 5, 0x11223344), (0, 5, 0x100)] [] } (.stl bareHd mm0 .f16 (.v 2) (.v 0) (.v 1) 0)).map
      (fun t => t.lread wid0 0xFF 4) = some [0, 0x44, 0x33, 0] := by decide +kernel

/-- Hypotheses of GlobalAccesses: a page of normal memory, of a copy in the L1, in host memory, watched bytes elsewhere. -/
theorem test_global_hypotheses :
    (mach {}).stashOk = true ∧
    clearing (based 0x20000) (.ldg bareHd mm0 .n32 (.v 6) (.s 4) (.v 0) 0) (fun x => (x.computing (.v 6)).map fun l => (l, x.gaddr (.s 4) (.v 0) 0 l, 4))
      (fun x => x.globCause .load) = true ∧
    clearing (based 0x20000 { w := fun w => { w with watchBase := 0x2FFF8, watchLen := 8 } }) (.stg bareHd mm0 .n32 (.v 6) (.s 4) (.v 0) 0)
      (fun x => x.lanes.map fun l => (l, x.gaddr (.s 4) (.v 0) 0 l, 4)) (fun x => x.globCause .store) = true ∧
    clearing (based 0x60000) (.stg bareHd mm0 .n32 (.v 6) (.s 4) (.v 0) 0) (fun x => x.lanes.map fun l => (l, x.gaddr (.s 4) (.v 0) 0 l, 4))
      (fun x => x.globCause .store) = true := by decide +kernel

/-- A store by every lane to one address leaves the highest lane's bytes (R201), and a load reads them. -/
theorem test_stg :
    (after (based 0x20000 { w := regs ((List.range 32).map fun l => (6, l, BitVec.ofNat 32 (0x100 + l))) [] })
      (.stg bareHd mm0 .n32 (.v 6) (.s 4) (.v 0) 0x10)).map (fun t => (memRead t.mem 0x20010 4, t.mem.length)) = some ([0x1F, 1, 0, 0], 2) ∧
    (after (based 0x20000 { s := fun s => { s with mem := memWrite [] 0x20010 [1, 2, 3, 4] } }) (.ldg bareHd mm0 .n32 (.v 6) (.s 4) (.v 0) 0x10)).map
      (fun t => (warp0 t).vget 6 17) = some 0x04030201 := by decide +kernel

/-- Hypotheses of GlobalChecksInOrder: a misaligned lane; a page not yet walked; a page of another die, of another class, one
that is not writable. -/
theorem test_global_checks :
    ((iss (based 0x20000 { w := regs [(0, 5, 2)] [] }) (.stg bareHd mm0 .n32 (.v 6) (.s 4) (.v 0) 0)).any fun x =>
      (x.lanes.filter fun l => x.gaddr (.s 4) (.v 0) 0 l % 4 != 0) == [5]) = true ∧
    ((iss (based 0x20000 { w := regs [(0, 5, 0x80000)] [] }) (.stg bareHd mm0 .n32 (.v 6) (.s 4) (.v 0) 0)).any fun x =>
      (x.lanes.filter fun l => x.gaddr (.s 4) (.v 0) 0 l % 4 != 0).isEmpty &&
        (x.lanes.filter fun l => x.xlate (x.gaddr (.s 4) (.v 0) 0 l) == .miss) == [5]) = true ∧
    ([(0x50000, 5, (0x35 : BitVec 7)), (0x10000, 4, 0x32), (0x60000, 3, 0x31)].map fun p =>
      (iss (based 0x20000 { w := regs [(0, 5, p.1)] [] }) (.stg bareHd mm0 .n32 (.v 6) (.s 4) (.v 0) 0)).any fun x =>
        (x.lanes.filter fun l => x.xlate (x.gaddr (.s 4) (.v 0) 0 l) == .miss).isEmpty &&
          (x.lanes.filter fun l => x.globCause .store (x.gaddr (.s 4) (.v 0) 0 l) (x.xlate (x.gaddr (.s 4) (.v 0) 0 l)) == some p.2) == [5] &&
          x.lanes.all fun l => l == 5 || (x.globCause .store (x.gaddr (.s 4) (.v 0) 0 l) (x.xlate (x.gaddr (.s 4) (.v 0) 0 l))).isNone) =
      [true, true, true] := by decide +kernel

/-- A kernel of another mode of determinism, with an order log. -/
def mode (det : Nat) (m : Mod := {}) : Mod :=
  { m with
    rc := { m.rc with det := det }
    s := fun s => m.s { s with kernels := s.kernels.map fun p => (p.1, { p.2 with olog := if det = 2 then some (0x51000, 64, 0x50100) else none }) } }

/-- Hypotheses of AtomicsAct: local and global, by mode; a channel free and taken. -/
theorem test_atomic_hypotheses :
    let at_ : Instr := .atl bareHd mm0 .add false .n32 (.v 2) (.v 0) (.v 1) (.v 3)
    let ag : Instr := .atg bareHd mm0 .add false .n32 (.v 6) (.s 4) (.v 0) (.v 3)
    let las (x : Ix) : List Acc1 := x.lanes.map fun l => (l, x.laddr (.v 0) (.v 1) 0 l, 4)
    let gas (x : Ix) : List Acc1 := x.lanes.map fun l => (l, x.gaddr (.s 4) (.v 0) 0 l, 4)
    reaching {} at_ las (fun x => x.on != 0 && !x.logs) = true ∧ reaching (mode 2) at_ las (fun x => x.on != 0 && x.logs) = true ∧
    clearing (based 0x20000) ag gas (fun x => x.globCause .atomic) (fun x => x.on != 0 && !x.logs && !x.orders) = true ∧
    clearing (mode 2 (based 0x20000)) ag gas (fun x => x.globCause .atomic) (fun x => x.on != 0 && x.logs) = true ∧
    clearing (mode 1 (based 0x20000)) ag gas (fun x => x.globCause .atomic) (fun x => !x.logs && x.orders && !x.s.chanTaken 0 7 x.g.inst) = true ∧
    clearing (mode 1 (based 0x20000 { d := fun d => { d with chans := [(7, ⟨some 9, 0, []⟩)] } })) ag gas (fun x => x.globCause .atomic)
      (fun x => !x.logs && x.orders && x.s.chanTaken 0 7 x.g.inst) = true := by decide +kernel

/-- R203: `.add` in ascending lane order; lane l reads l; 32 remains. -/
theorem test_atl : (after { w := fun w => regs ((List.range 32).map fun l => (3, l, 1)) [] w } (.atl bareHd mm0 .add false .n32 (.v 2) (.v 0) (.v 1) (.v 3))).map
    (fun t => ([0, 7, 31].map ((warp0 t).vget 2), t.lread wid0 0 4)) = some ([0, 7, 31], [32, 0, 0, 0]) := by decide +kernel

/-- R203: `.inc` counts up to C and starts again at 0; `.cas` with C and the register after it. -/
theorem test_atg : [(5, 5), (4, 5), (6, 5)].map (fun p => atomNew .inc false 32 p.1 p.2 0) = [0, 5, 0] ∧
    (after (based 0x20000 { w := regs ((List.range 32).map fun l => (3, l, BitVec.ofNat 32 l) ) [] }) (.atg bareHd mm0 .max true .n32 (.v 0) (.s 4) (.v 0) (.v 3))).map
      (fun t => memRead t.mem 0x20000 4) = some [31, 0, 0, 0] ∧
    atomNew .cas false 32 7 7 9 = 9 ∧ atomNew .cas false 32 8 7 9 = 8 := by decide +kernel

/-- One window, of 256 bytes at 0x20000 kept at local address 0x100, with one line. -/
def window (l : StashLine) : Mod := { g := fun g => { g with stash := [(0, ⟨0x20000, 0x100, 256, [(1, l)]⟩)] } }

/-- s4-s5 and s6, s7: a window's global and local base and its length. -/
def windowRegs (g l n : Nat) (m : Mod := {}) : Mod := based g { m with w := fun w => m.w (regs [] [(6, BitVec.ofNat 32 l), (7, BitVec.ofNat 32 n)] w) }

/-- Hypotheses of StashAndL1: what `STASH` does, in each of its clauses. -/
theorem test_stash_hypotheses :
    let i : Instr := .stash bareHd 0 (.s 4) (.s 6) (.s 7)
    let clean := window ⟨false, false, 0x20080, false⟩
    ([windowRegs 0x20000 0x100 0, windowRegs 0x20000 0x100 256, windowRegs 0x20000 0x100 256 clean, windowRegs 0x20000 0x180 255,
      windowRegs 0x20000 0x3F80 256].map fun m => met m i fun x => x.on != 0) = List.replicate 5 true ∧
    met (windowRegs 0x20100 0x180 128 clean) (.stash bareHd 1 (.s 4) (.s 6) (.s 7)) (fun x =>
      (look x.g.stash 1).isNone && (vals x.g.stash).any fun o => decide (x.u32 (.s 6) < o.l + o.n)) = true := by decide +kernel

/-- Hypotheses of the rest of StashAndL1. -/
theorem test_flush_hypotheses :
    ([⟨false, false, 0x20080, false⟩, ⟨true, true, 0x20080, false⟩].map fun l => [.stfl bareHd false 0, .stinv bareHd true 0].map fun i =>
      met (window l) i fun x => x.on != 0) = [[true, true], [true, true]] ∧
    met {} (.l1inv bareHd) (fun x => x.on != 0) = true ∧
    met (based 0x20000) (.pref bareHd (.s 4) (.v 0) 0) (fun x => x.lanes.all fun l => x.xlate (x.gaddr (.s 4) (.v 0) 0 l) != .miss) = true ∧
    heldIs (holding (window ⟨true, false, 0x20080, true⟩) (.stfl bareHd false 0) .wb) (fun h x =>
      h.wait == .wb && x.g.warps.length == 1 && x.g.stash.length == 1) = true := by decide +kernel

/-- R190: `STASH` opens a window and with length 0 closes it; a first touch fills the line (R191). -/
theorem test_stash :
    (after (windowRegs 0x20000 0x100 256) (.stash bareHd 3 (.s 4) (.s 6) (.s 7))).map (fun t => (look t.wgs wid0).map (·.stash)) =
      some (some [(3, ⟨0x20000, 0x100, 256, []⟩)]) ∧
    (after (based 0x20080 { g := fun g => { g with stash := [(0, ⟨0x20000, 0x100, 256, []⟩)] }, s := fun s => { s with mem := memWrite [] 0x20080 [7] } })
      (.ldg bareHd mm0 .n32 (.v 6) (.s 4) (.v 0) 0)).map (fun t => ((warp0 t).vget 6 3, t.lread wid0 0x180 1, (look t.wgs wid0).map (·.stash))) =
        some (7, [7], some [(0, ⟨0x20000, 0x100, 256, [(1, ⟨false, false, 0x20080, false⟩)]⟩)]) := by decide +kernel

/-- The write-back ends the wait of `STFL` (R205). -/
theorem test_stfl :
    (match exec (.writeBackComplete wid0 0 1) (holding (window ⟨true, false, 0x20080, true⟩) (.stfl bareHd false 0) .wb) with
     | .next t => ((warp0 t).hold, (warp0 t).front.map (·.pc))
     | _ => (none, [])) = (none, [0x1000C]) := by decide +kernel

/-! ### Handles (08) and the CPY group (09) -/

/-- The tensor record of R219's example, with its base in page 0x20000 and a first stride. -/
def tensor0 (stride : Nat) : List Byte :=
  bytesOfNat 8 0x20000 ++ bytesOfNat 4 0x407 ++ zeros 4 ++ bytesOfNat 4 64 ++ bytesOfNat 4 256 ++ zeros 12 ++ bytesOfNat 4 stride ++
    bytesOfNat 4 128 ++ zeros 20

/-- The record lies at 0x20000, whose address is in s4-s5; some slots of context 0 are taken. -/
def recordAt (bs : List Byte) (slots : Tab Slot) : Mod :=
  based 0x20000 { s := fun s => { s with mem := memWrite s.mem 0x20000 bs }, d := fun d => { d with handles := [(0, slots)] } }

/-- Hypotheses of SealedRecords: a record that passes, and one whose first stride is 3, with slot 1 retired. -/
theorem test_seal_hypotheses :
    ([2, 3].map fun n => met (recordAt (tensor0 n) [(1, ⟨0xFFFF, false, true, 0, []⟩)]) (.seal bareHd .tensor (.s 20) (.s 4) (.imm 0) 0) fun x =>
      x.on != 0 && clearB x [(firstOf x.lanes, x.gaddr (.s 4) (.imm 0) 0 (firstOf x.lanes), 32)] (x.recordCause 64) &&
        !x.s.poisoned (x.paAt 0x20000) 64 && (x.s.slotOf 0 0 1).retired && !(x.s.slotOf 0 0 2).live &&
        x.s.recBad 0 0 1 (memRead x.s.mem 0x20000 64) == (if n = 2 then none else some (0x42, 0x24))) = [true, true] ∧
    ([.unseal bareHd (.s 8), .unseal bareHd (.s 9), .hqry bareHd false (.s 0) (.s 8) 0].map fun i =>
      met (sealed 1 (tensor0 2)) i fun x => x.on != 0) = [true, true, true] := by decide +kernel

/-- 08, "sealing a tensor and reusing its slot". -/
theorem test_seal :
    (after (recordAt (tensor0 2) []) (.seal bareHd .tensor (.s 20) (.s 4) (.imm 0) 0)).map (fun t => (warp0 t).sget 20) = some 0x00010000 ∧
    (after (recordAt (tensor0 2) [(1, ⟨1, false, false, 0, []⟩)]) (.seal bareHd .tensor (.s 21) (.s 4) (.imm 0) 0)).map (fun t => (warp0 t).sget 21) =
      some 0x00010001 := by decide +kernel

theorem test_unseal :
    (after (sealed 1 (tensor0 2)) (.unseal bareHd (.s 8))).map (fun t => t.slotOf 0 0 1) = some ⟨6, false, false, 0, []⟩ ∧
    (after (sealed 1 (tensor0 2) { d := fun d => d }) (.hqry bareHd false (.s 22) (.s 8) 0)).map (fun t => (warp0 t).sget 22) = some 0x00050001 ∧
    (after { d := fun d => { d with handles := [(0, [(1, ⟨1, false, false, 0, []⟩)])] }, w := regs [] [(20, 0x00010000)] }
      (.hqry bareHd false (.s 22) (.s 20) 0)).map (fun t => (warp0 t).sget 22) = some 0x00010000 := by decide +kernel

/-- A workgroup with one barrier in some state and s5 holding a token. -/
def barAt (b : Bar) (token : Word := 0) : Mod :=
  { g := fun g => { g with bars := ins g.bars 3 b }, w := regs [] [(5, token)] }

/-- Hypotheses of LandingBarriers: own barriers, barriers of the position in the quad, indexes that are bad, phases in progress,
just completed and older, and an underflow. -/
theorem test_barrier_hypotheses :
    ([.binit bareHd (.imm 3) (.imm 1), .barv bareHd false (.s 0) (.imm 3) (.imm 1) (.imm 0), .bexp bareHd (.s 0) (.imm 3) (.imm 1),
      .bwait bareHd (.p 1) (.imm 3) (.s 5) (.p 2), .btest bareHd false (.p 0) (.imm 3) (.s 5), .btest bareHd true (.s 0) (.imm 3) (.v 0)].map
        fun i => met {} i fun x => x.on != 0 && x.kr.rc.bars == 4) = List.replicate 6 true ∧
    ([.binit bareHd (.imm 4) (.imm 1), .barv bareHd false (.s 0) (.imm 4) (.imm 1) (.imm 0), .bexp bareHd (.s 0) (.imm 4) (.imm 1),
      .bwait bareHd (.p 1) (.imm 4) (.s 5) (.p 2), .btest bareHd false (.p 0) (.imm 4) (.s 5)].map fun i => met {} i fun x => x.on != 0) =
      List.replicate 5 true ∧
    met { w := regs [] [(6, 0x403)] } (.barv bareHd false (.s 0) (.s 6) (.imm 1) (.imm 0)) (fun x =>
      x.partnerOf 0 == .here wid0 && (look x.s.wgs wid0).any fun g => g.st != .saved) = true ∧
    ([(⟨1, 0, 0, 5, false, false, false⟩ : Bar), ⟨1, 0, 0, 6, false, true, false⟩, ⟨1, 0, 0, 7, false, false, false⟩, ⟨1, 0, 0, 5, true, false, true⟩].map
      fun b => met (barAt b 5) (.bwait bareHd (.p 1) (.imm 3) (.s 5) (.p 2)) fun x => (x.g.bar 3).phase == b.phase) = List.replicate 4 true := by
  decide +kernel

/-- Hypotheses of the rest of LandingBarriers: a phase completed by an arrival, and not; a bar update that pulses nothing. -/
theorem test_barrier_updates :
    (Bar.arrive 1 4 ⟨1, 0, 4, 7, true, false, false⟩) = (⟨1, 0, 0, 8, false, true, false⟩, true) ∧
    (Bar.arrive 1 5 ⟨1, 0, 4, 7, false, false, false⟩) = (⟨1, 1, 0, 7, false, false, true⟩, false) ∧
    (Bar.init 2 ⟨9, 9, 9, 7, true, true, true⟩).2 = false ∧ (Bar.owe (2 ^ 48) ⟨1, 0, 0, 0, false, false, false⟩).1.u = true := by decide +kernel

/-- 09, "a stale token": `BWAIT` with token 5 at phase 7 continues with stale true and fault false. -/
theorem test_bwait :
    (after (barAt ⟨1, 0, 0, 7, false, true, false⟩ 5) (.bwait bareHd (.p 1) (.imm 3) (.s 5) (.p 2))).map (fun t =>
      ((warp0 t).pget 1, (warp0 t).pget 2, (warp0 t).front.map (·.pc))) = some (0xFFFFFFFF, 0, [0x1000C]) ∧
    (after (barAt ⟨1, 0, 0, 5, false, true, false⟩ 5) (.bwait bareHd (.p 1) (.imm 3) (.s 5) (.p 2))).map (fun t =>
      ((warp0 t).blocked.map (·.mask), (warp0 t).front)) = some ([0xFFFFFFFF], []) := by decide +kernel

/-- 09, "a gather that loses a link": `BINIT` and `BEXP`, and the image that `BTEST.img` then reads. -/
theorem test_binit :
    (after {} (.binit bareHd (.imm 3) (.imm 32))).map (fun t => (look t.wgs wid0).map fun g => g.bar 3) = some (some ⟨32, 0, 0, 2, false, false, false⟩) ∧
    (after (barAt ⟨32, 0, 0, 2, false, false, false⟩ 8192) (.bexp bareHd (.s 13) (.imm 3) (.s 5))).map (fun t =>
      ((warp0 t).sget 13, (look t.wgs wid0).map fun g => (g.bar 3).pend)) = some (2, some 8192) ∧
    (after (barAt ⟨32, 0, 0, 3, false, true, false⟩) (.btest bareHd true (.s 24) (.imm 3) (.v 0))).map (fun t => [24, 25, 26, 27].map (warp0 t).sget) =
      some [0x20, 0, 0x30000, 2] := by decide +kernel

/-- The last arrival completes the phase (R227), which releases the threads that wait for it. -/
theorem test_barv : (after (barAt ⟨32, 0, 0, 5, false, false, false⟩) (.barv bareHd true (.s 0) (.imm 3) (.imm 0) (.imm 0))).map (fun t =>
      ((warp0 t).sget 0, (look t.wgs wid0).map fun g => g.bar 3)) = some (5, some ⟨32, 0, 0, 6, false, false, false⟩) ∧
    ({ warp0 (mach {}) with blocked := [⟨0, 0x10000, 1, .bar 3 5 1 2⟩] } : Warp).hmode = false := by decide +kernel

/-- The matrix held by some workgroup, with group 2 routed to column 5. -/
def matrix (holder : Option Nat) (cnt : Tab Nat := []) (m : Mod := {}) : Mod :=
  { m with c := fun c => m.c { c with mx := ⟨holder, [(2, 0x20)], cnt, []⟩ } }

/-- Hypotheses of EventMatrixActs, in each of its clauses. -/
theorem test_matrix_hypotheses :
    let v (a b : Nat) (m : Mod) : Mod := { m with w := regs [] [(6, BitVec.ofNat 32 a), (7, BitVec.ofNat 32 b)] }
    ([(EvSet.route, 0x20, 15), (.route, 0x20, 16), (.watch, 3, 3), (.watch, 3, 4), (.pulse, 0, 14), (.pulse, 1, 15), (.pulse, 0, 13)].map
      fun p => [none, some wid0].map fun o => met (v p.2.1 p.2.2 (matrix o)) (.evmset bareHd p.1 (.s 0) (.s 6) (.s 7)) fun x => x.on != 0) =
      List.replicate 7 [true, true] ∧
    met (matrix (some 5)) (.evmset bareHd .route (.s 0) (.imm 1) (.imm 2)) (fun x => x.on != 0) = true ∧
    ([EvClr.route, .cnt, .watch, .rel].map fun k => [some wid0, some 5].map fun o => met (matrix o) (.evmclr bareHd k (.imm 0) (.imm 0)) fun x =>
      x.on != 0) = List.replicate 4 [true, true] := by decide +kernel

/-- A command of the workgroup, posted under 0. -/
def cmd0 (job : Job) (running : Bool) (todo : List Nat) (on : Option Nat := none) : Cmd :=
  ⟨0, 0, job, 2, on, running, (wid0, 3), todo, [], [], 0, 0, none, none⟩

/-- The workgroup has posted a command. -/
def posted (c : Cmd) (m : Mod := {}) : Mod := { m with g := fun g => m.g { g with cmds := [(0, c)] } }

/-- A held command keeps the matrix from being released; a pulse starts it at once, or counts up to 0xFFFF. -/
theorem test_matrix_held :
    met (posted (cmd0 (.copy .l2g 0x20000 0 64) false [] (some 5)) (matrix (some wid0))) (.evmclr bareHd .rel (.imm 0) (.imm 0)) (fun x =>
      (vals x.g.cmds).any fun c => c.on.isSome) = true ∧
    (mach (matrix (some wid0))).column 0 wid0 5 = [] ∧
    (let s := (mach (posted (cmd0 (.copy .l2g 0x20000 0 64) false [] (some 5)) (matrix (some wid0)))).pulse 0 wid0 2
     ((look s.wgs wid0).bind fun g => (look g.cmds 0).map (·.on), lookD (s.core 0).mx.cnt 5 0)) = (some none, 0) ∧
    lookD (((mach (matrix (some wid0) [(5, 0xFFFF)])).pulse 0 wid0 2).core 0).mx.cnt 5 0 = 0xFFFF := by decide +kernel

/-- 09, "a chained copy": `EVMSET.route` takes the matrix and routes group 2 to column 5. -/
theorem test_evmset : (after { w := regs [] [(1, 0x20)] } (.evmset bareHd .route (.s 0) (.s 1) (.imm 2))).map (fun t =>
    ((warp0 t).sget 0, (t.core 0).mx.holder, lookD (t.core 0).mx.rows 2 0)) = some (0, some wid0, 0x20) := by decide +kernel

/-- A table of 128 BF16 elements per row and 4096 rows, of which the first 256 lie in page 0x20000. -/
def rows0 : List Byte :=
  bytesOfNat 8 0x20000 ++ bytesOfNat 4 0x407 ++ zeros 4 ++ bytesOfNat 4 128 ++ bytesOfNat 4 4096 ++ zeros 12 ++ bytesOfNat 4 2 ++
    bytesOfNat 4 256 ++ zeros 20

/-- A `CPY`'s operands in s10 to s15: local 0, global 0x20000, 256 bytes. -/
def copyRegs (len : Nat) : List (Nat × Word) := [(10, 0), (11, 0), (12, 0x20000), (13, 0), (14, BitVec.ofNat 32 len), (15, 0x2000)]

/-- Hypotheses of CopyCommandsPost. -/
theorem test_copy_hypotheses :
    let m (len : Nat) : Mod := { w := regs [] (copyRegs len) }
    ([.cpy bareHd .g2l 3 none (.imm 1) (.s 10) (.s 12) (.s 14), .cpy bareHd .l2g 3 none (.imm 1) (.s 12) (.s 10) (.s 14),
      .cpy bareHd .l2l 3 none (.imm 1) (.s 10) (.s 15) (.s 14)].map fun i => met (m 256) i fun x =>
        decide (x.g.cmds.length < x.kr.rc.copies) && (match x.reach 0 256 with | .area _ _ => true | _ => false) &&
          (match x.reach 0x2000 256 with | .area _ _ => true | _ => false)) = [true, true, true] ∧
    met (matrix (some wid0) [] (m 256)) (.cpy bareHd .g2g 3 (some 5) (.imm 1) (.s 12) (.s 12) (.s 14)) (fun x =>
      lookD (x.s.core 0).mx.cnt 5 0 == 0) = true ∧
    met (posted (cmd0 (.copy .g2l 0 0x20000 64) true []) { rc := { rec0 with copies := 1 }, w := regs [] (copyRegs 256) })
      (.cpy bareHd .g2l 3 none (.imm 1) (.s 10) (.s 12) (.s 14)) (fun x => !decide (x.g.cmds.length < x.kr.rc.copies)) = true ∧
    ([0, 6, 2 ^ 24 + 4].map fun len => met (m len) (.cpy bareHd .g2l 3 none (.imm 1) (.s 10) (.s 12) (.s 14)) fun x => x.u32 (.s 14) == len) =
      [true, true, true] := by decide +kernel

/-- Hypotheses of the clauses of `GATH` and `SCAT`: a list of two rows in local memory, one of too many; lanes' indexes. -/
theorem test_gather_hypotheses :
    let m (n : Nat) : Mod := sealed 1 rows0
      { g := fun g => { g with mem := memWrite [] 0x10 (bytesOfNat 4 n ++ bytesOfNat 4 7) }
        w := fun w => regs ((List.range 32).map fun l => (4, l, BitVec.ofNat 32 l)) [(10, 0x1000), (11, 0x10)] w }
    (([.gath bareHd false true 2 none (.imm 3) (.s 10) (.v 4) (.s 8), .scat bareHd false true 2 none (.imm 3) (.s 10) (.v 4) (.s 8)] : List Instr).map
      fun i => met (m 0) i fun x => (match x.handle (x.u32 (.s 8)) 1 with | .ok bs => (tensorOf bs).rowsOk | .error _ => false) &&
        (List.range 32).all fun l => match x.reach ((0x1000 + l * 256) % 2 ^ 32) 256 with | .area _ _ => true | _ => false) = [true, true] ∧
    ([0, 2, 65536].map fun n => met (m n) (.gath bareHd true true 2 none (.imm 3) (.s 10) (.s 11) (.s 8)) fun x =>
      (match areaOf x.c.wid 0x10 with | some (w, o) => natOfBytes (x.s.lread w o 4) == n | none => false)) = [true, true, true] ∧
    ([.cpyq bareHd true (.s 0) (.imm 2), .cpyq bareHd true (.s 0) (.imm 8), .cpyk bareHd (.s 0) (.imm 7), .cpyk bareHd (.s 0) (.imm 8)].map fun i =>
      met {} i fun x => x.on != 0) = List.replicate 4 true := by decide +kernel

/-- `CPY` posts under the machine's next number, and `GATH.rows.g2 #3, s8, v4, s9` of R244's example does. -/
theorem test_cpy : (after { w := regs [] (copyRegs 256) } (.cpy bareHd .g2l 3 none (.imm 1) (.s 10) (.s 12) (.s 14))).map (fun t =>
    (t.cmd? wid0 1).map fun q => (q.2.1.job, q.2.1.grp, q.2.1.bar)) = some (some (.copy .g2l 0 0x20000 256, 3, (wid0, 1))) := by decide +kernel

/-- 09, "a gather that loses a link": `CPYQ` reads 0x00A10000 after the fault, and clears the record. -/
theorem test_cpyq : (after { g := fun g => { g with grps := [(2, ⟨0x50, true⟩)] } } (.cpyq bareHd true (.s 20) (.imm 2))).map (fun t =>
      ((warp0 t).sget 20, (look t.wgs wid0).map fun g => g.grps.length)) = some (0x00A10000, some 0) ∧
    (after (posted (cmd0 (.copy .l2g 0x20000 0 64) false [] (some 5)) (matrix (some wid0))) (.cpyk bareHd (.s 0) (.imm 2))).map (fun t =>
      ((warp0 t).sget 0, (look t.wgs wid0).map fun g => (g.cmds.length, g.group 2))) = some (1, some (0, ⟨0, true⟩)) := by decide +kernel

/-! #### The copy engine -/

/-- A gather of the rows of `rows0` of two lanes, on the die and, at 0x70000, away. -/
def gather0 : Job := .rows true true false 0x1000 (tensorOf rows0) ([some 1, some 0x500] ++ List.replicate 30 none) 0 32

/-- Hypotheses of CopyEngineWorks: a start; a piece that goes through, and one that meets a cause. -/
theorem test_engine_copy :
    (let s := mach (posted (cmd0 (.copy .g2l 0 0x20040 256) false []))
     (s.begun wid0 (cmd0 (.copy .g2l 0 0x20040 256) false [])).todo) = [0, 1] ∧
    copyPieces 0x20040 256 = [0, 1, 2] ∧ ([0, 1, 2].map (copyPiece 0x20040 256)) = [(0, 64), (64, 128), (192, 64)] ∧
    (let s := mach (posted (cmd0 (.copy .l2g 0x20040 0 256) true [0, 1, 2]))
     (s.cmd? wid0 0).any fun q =>
       let r := s.cmdRead q.1 0 wid0 false 128 64
       (match r.1, (r.2.cmdMayWrite q.1 0 wid0 true 0x20080 64).1 with | .ok _, .ok _ => true | _, _ => false) &&
       (match (s.cmdRead q.1 0 wid0 true 0xA0000 64).1 with | .bad e => e == 0x30 | _ => true)) = true := by decide +kernel

/-- Rows: one here, one of a number beyond the table, one away, a reply that is there, one not. -/
theorem test_engine_rows :
    let s := mach (posted (cmd0 gather0 true [0, 1]))
    (s.cmd? wid0 0).any (fun q => (look q.2.1.far 0).isNone) = true ∧ (tensorOf rows0).rowAt 1 = 0x20100 ∧
    (match (s.rowHome 0 0 0x20100 256).1, (s.rowHome 0 0 0x70000 256).1 with | .here, .away _ => true | _, _ => false) = true ∧
    (match (s.engRead 0 0 0x20100 256).1, (s.engMayWrite 0 0 0x20100 256).1, s.areaRead wid0 0x1100 256 with
     | .ok bs, .ok _, some cs => bs.length == 256 && cs.length == 256 | _, _, _ => false) = true := by decide +kernel

/-- A piece lands and is counted; the last completes the phase (R227, R237). -/
theorem test_piece :
    (match exec (.pieceLanded wid0 0 1) (mach (posted (cmd0 (.copy .g2l 0x100 0x20000 256) true [1])
        { g := fun g => { g with bars := ins g.bars 3 ⟨0, 0, 128, 7, false, false, false⟩ }, s := fun s => { s with mem := memWrite [] 0x20080 [5] } })) with
     | .next t => (t.lread wid0 0x180 1, (look t.wgs wid0).map fun g => (g.bar 3, (look g.cmds 0).map (·.todo)))
     | _ => ([], none)) = ([5], some (⟨0, 0, 0, 8, false, false, false⟩, some [])) := by decide +kernel

/-- The end of the gather that lost a link: its group marked, the fault update of three rows of 256 bytes (R223). -/
theorem test_command_complete :
    (match exec (.commandComplete wid0 0) (mach (posted { cmd0 gather0 true [] with cause := some 0x50, missing := 768, missRows := 3 }
        { g := fun g => { g with bars := ins g.bars 3 ⟨32, 29, 768, 2, false, false, false⟩ } })) with
     | .next t => (look t.wgs wid0).map fun g => (g.bar 3, g.group 2, g.cmds.length)
     | _ => none) = some (⟨32, 0, 0, 3, false, true, false⟩, ⟨0x50, true⟩, 0) := by decide +kernel

/-! ### The TIL and ACC groups (10, 11) -/

/-- Tiles of the workgroup: number, `TCFG` value, bytes. -/
def tiled (ts : List (Nat × Nat × List Byte)) (m : Mod := {}) : Mod :=
  { m with g := fun g => m.g { g with tiles := ts.foldl (fun t p => ins t p.1 ⟨BitVec.ofNat 32 p.2.1, memWrite [] 0 p.2.2⟩) g.tiles } }

/-- s4, s5 and s6. -/
def s456 (a b c : Nat) (m : Mod := {}) : Mod :=
  { m with w := fun w => regs [] [(4, BitVec.ofNat 32 a), (5, BitVec.ofNat 32 b), (6, BitVec.ofNat 32 c)] (m.w w) }

/-- Hypotheses of TileInstructionsQueue: `TCFG`, and what reads memory or writes it. -/
theorem test_tile_moves :
    ([0x4003, 0xC003, 0x4041].map fun v => met (s456 v 0 0) (.tcfg bareHd (.t 0) (.s 4)) fun x => cfgOk (x.u32 (.s 4))) = [true, false, false] ∧
    met (s456 0x4003 0 0) (.tcfg bareHd (.t 4) (.s 4)) = true ∧
    ([(0x100, 8), (0x102, 8), (0x100, 0), (0x3FFC, 8)].map fun p =>
      [.tld bareHd .none (.t 0) (.s 4) (.s 5) 0, .tst bareHd (.t 0) (.s 4) (.s 5) 0].map fun i =>
        met (s456 p.1 p.2 0 (tiled [(0, 0x4103, [])])) i fun x => (tileRuns .none (edgeOf (x.cfg (.t 0))) p.1 p.2).all (fun r =>
          match x.reach r.1 r.2 with | .area _ _ => true | _ => false) == decide (p.1 ≤ 0x102)) =
      [[true, true], [true, true], [true, true], [true, true]] ∧
    met (s456 0x100 8 0 (tiled [(0, 0x0103, [])])) (.tld bareHd .tr8 (.t 0) (.s 4) (.s 5) 0) (fun x => (edgeOf (x.cfg (.t 0))).e == 1) = true := by
  decide +kernel

/-- Hypotheses of TileInstructionsQueue: products, moves, queries. -/
theorem test_tile_products :
    let m := tiled [(0, 0x4003, []), (1, 0x4103, []), (2, 0x0001, [])]
    ([.mma bareHd false 0 0 .bf16 (.a 2) (.t 0) (.t 1), .mma bareHd false 0 0 .bf16 (.a 4) (.t 0) (.t 1), .mma bareHd false 0 0 .i8 (.a 2) (.t 0) (.t 1),
      .mmasp bareHd false .s24 0 0 .bf16 (.a 3) (.t 0) (.t 1) (.t 2), .mmasp bareHd false .s24 0 0 .bf16 (.a 3) (.t 0) (.t 1) (.t 1),
      .mmasp bareHd false .s24 0 0 .bf16 (.a 5) (.t 0) (.t 1) (.t 2), .tzero bareHd (.t 0), .tzero bareHd (.t 9),
      .tmov bareHd .tt (.t 0) (.t 1) (.imm 0), .tmov bareHd .tt (.t 0) (.t 9) (.imm 0), .tmov bareHd .t2v (.v 8) (.t 1) (.imm 63), .tmov bareHd .t2v (.v 8) (.t 1) (.imm 64),
      .tmov bareHd .v2t (.t 1) (.v 8) (.imm 63), .tmov bareHd .v2t (.t 1) (.v 8) (.imm 64), .tqry bareHd true (.s 0) (.v 0), .tqry bareHd false (.s 0) (.t 1),
      .tqry bareHd false (.s 0) (.t 9)].map fun i => met m i fun x => x.on != 0 && x.kr.rc.tiles == 4 && x.kr.rc.accs == 4) = List.replicate 17 true := by
  decide +kernel

/-- An instruction at the head of core 0's engine, issued by the warp's threads. -/
def atEngine (i : Instr) (prm : List Nat) (m : Mod := {}) (ten : List Tensor := []) (vals : Tab Word := []) : State :=
  mach { m with c := fun c => m.c { c with engq := [⟨0, wid0, 0, i, lowLanes 32, prm.map (BitVec.ofNat 64), ten, vals, 0⟩] } }

/-- Bool form of `State.atHead`. -/
def headB (s : State) : Bool := (s.core 0).engq.length == 1 && !(s.core 0).engTurn && s.memWf

/-- A step of the engine, as it leaves the machine. -/
def engine (s : State) : Option State :=
  match exec (.engineComplete 0) s with
  | .next t => some t
  | _ => none

/-- 10, "one dense product": t0 and t1 after their loads. -/
def dense : List (Nat × Nat × List Byte) :=
  [(0, 0x4003, [0x80, 0x4B, 0x80, 0x3F, 0x80, 0x3F]),
   (1, 0x4103, [0x80, 0x3F, 0x80, 0x3F, 0x80, 0x3F] ++ zeros 122 ++ [0, 0, 0x80, 0x3F, 0, 0])]

/-- L[0][0] = 0x4B800001 and L[0][1] = 1.0, without a flag (R51, R253). -/
theorem test_mma :
    let s := atEngine (.mma bareHd false 0 0 .bf16 (.a 2) (.t 0) (.t 1)) [0x4003, 0x4103] (tiled dense)
    headB s = true ∧ (engine s).map (fun t => (((look t.wgs wid0).map fun g => [(0, 0), (0, 1), (0, 2), (1, 0)].map fun p =>
      (g.acc 2).get false p.1 p.2), (warp0 t).flg)) = some (some [0x4B800001, 0x3F800000, 0, 0], 0) := by decide +kernel

/-- 10, "a sparse row and a short edge": 8.0 with four columns, 3.0 with two. -/
theorem test_mmasp :
    ([0x4004, 0x4002].map fun cfg => (engine (atEngine (.mmasp bareHd false .s24 0 0 .bf16 (.a 3) (.t 0) (.t 1) (.t 2)) [0x4002, cfg, 0x0001]
      (tiled [(0, 0x4002, [0x40, 0x40, 0xA0, 0x40]), (1, cfg, [0x80, 0x3F, 0x80, 0x3F, 0x80, 0x3F, 0x80, 0x3F]), (2, 1, [0x31])]))).map fun t =>
        (look t.wgs wid0).map fun g => (g.acc 3).get false 0 0) = [some (some 0x41000000), some (some 0x40400000)] := by decide +kernel

/-- `TLD` of two rows of three halves from 0x110 and 0x118 (R259), and `.tr8` turns bytes about. -/
theorem test_tld :
    let mem := memWrite [] 0x110 [1, 2, 3, 4, 5, 6, 7, 8, 9, 10, 11, 12, 13, 14]
    (engine (atEngine (.tld bareHd .none (.t 1) (.s 6) (.s 7) 0x10) [0x4103, 0x110, 8] (tiled [(1, 0x4103, [])] { g := fun g => { g with mem := mem } }))).map (fun t =>
      (look t.wgs wid0).map fun g => (memRead (g.tile 1).bytes 0 7, memRead (g.tile 1).bytes 128 7)) = some (some ([1, 2, 3, 4, 5, 6, 0], [9, 10, 11, 12, 13, 14, 0])) ∧
    (engine (atEngine (.tld bareHd .tr8 (.t 1) (.s 6) (.s 7) 0x10) [0x0103, 0x110, 4] (tiled [(1, 0x0103, [])] { g := fun g => { g with mem := mem } }))).map (fun t =>
      (look t.wgs wid0).map fun g => (memRead (g.tile 1).bytes 0 3, memRead (g.tile 1).bytes 128 3)) = some (some ([1, 5, 9], [2, 6, 10])) := by
  decide +kernel

/-- `TST`, `TMOV` and `TZERO` (R256, R259). -/
theorem test_tst :
    (engine (atEngine (.tst bareHd (.t 0) (.s 6) (.s 7) 0) [0x4103, 0x200, 8] (tiled [(0, 0x4103, [1, 2, 3, 4, 5, 6, 7])]))).map (fun t => t.lread wid0 0x200 9) =
      some [1, 2, 3, 4, 5, 6, 0, 0, 0] ∧
    (engine (atEngine (.tmov bareHd .t2v (.v 8) (.t 0) (.imm 0)) [0x4103, 0] (tiled [(0, 0x4103, [1, 2, 3, 4, 5, 6, 7])]))).map (fun t =>
      [0, 1, 2].map ((warp0 t).vget 8)) = some [0x04030201, 0x0605, 0] ∧
    (engine (atEngine (.tzero bareHd (.t 0)) [] (tiled dense))).map (fun t => (look t.wgs wid0).map fun g => (g.tile 0).bytes) = some (some []) := by
  decide +kernel

/-- `TMOV.v2t` writes the first word of a row, within its edge (R256). -/
theorem test_tmov :
    let vs : Tab Word := [(0, 0x04030201), (1, 0x08070605)]
    let s := atEngine (.tmov bareHd .v2t (.t 0) (.v 8) (.imm 0)) [0x4103, 0] (tiled [(0, 0x4103, [])]) [] vs
    headB s = true ∧ vs.Pairwise (fun u v => u.1 < v.1) ∧
    (engine s).map (fun t => (look t.wgs wid0).map fun g => memRead (g.tile 0).bytes 0 8) = some (some [1, 2, 3, 4, 5, 6, 0, 0]) := by decide +kernel

theorem test_engine_sum : (engineSum .i8 0 0 4 true 5 [(0, 0xFF, 2), (1, 3, 3)]).1 = 12 := by decide +kernel

/-- 11, "one lane's elements under the mapping". -/
theorem test_mapping : [(0, 8), (1, 8), (2, 8), (3, 8), (0, 40), (1, 40), (2, 40), (3, 40)].map (fun p => accPlace 64 16 p.1 p.2) =
    [(16, 8), (16, 40), (18, 8), (18, 40), (17, 8), (17, 40), (19, 8), (19, 40)] := by decide +kernel

/-- A tensor of rank 2 in local memory: base, elements of a row, rows, type, element size, row pitch. -/
def local0 (base n m ty e pitch : Nat) : List Byte :=
  bytesOfNat 8 base ++ bytesOfNat 4 (0x400 + ty) ++ zeros 4 ++ bytesOfNat 4 n ++ bytesOfNat 4 m ++ zeros 12 ++ bytesOfNat 4 e ++ bytesOfNat 4 pitch ++ zeros 20

/-- Hypotheses of SequencerRuns' first clause: all checks pass; a tile, a geometry and a range that fail; a stale handle. -/
theorem test_mmseq_hypotheses :
    let i (d : Nat) (on : Start) : Instr := .mmseq bareHd false on 0 0 .bf16 (.a (BitVec.ofNat 8 d)) (.s 8) (.s 8)
    (match local0 0x100 64 4 7 2 128 with
     | bs => (tensorOf bs).last == 0x2FF && (tensorOf bs).rank == 2) = true ∧
    met (sealed 1 (local0 0x100 64 4 7 2 128)) (i 0 none) (fun x => match x.handle (x.u32 (.s 8)) 1, x.reach 0x100 0x200 with
      | .ok _, .area _ _ => (x.s.core x.g.core).seqq.isEmpty | _, _ => false) = true ∧
    ([local0 0x100 64 4 7 2 130, local0 0x100 64 65 7 2 128, local0 0x3F00 64 4 7 2 128].map fun bs => met (sealed 1 bs) (i 0 none)) = [true, true, true] ∧
    met (sealed 1 (local0 0x100 64 4 7 2 128)) (i 9 none) = true ∧ met {} (i 0 none) = true ∧
    met (matrix none [] (sealed 1 (local0 0x100 64 4 7 2 128))) (i 0 (some 5)) (fun x => (x.s.core x.g.core).mx.holder.isNone) = true := by
  decide +kernel

/-- `MMSEQ` of 640 BF16 elements in a row: 10 steps, five of them made. -/
def seq0 (run : Bool) (step k : Nat) : SeqJob :=
  ⟨0, wid0, 0, 0, .bf16, 0, 0, false, tensorOf (local0 0x100 k 1 7 2 1280), tensorOf (local0 0x1000 k 1 7 2 1280), none, run, step, 0⟩

/-- A core with an `MMSEQ` in its sequencer. -/
def sequencing (q : SeqJob) (m : Mod := {}) : Mod := { m with c := fun c => m.c { c with seqq := [q] }, g := fun g => m.g { g with posted := 1 } }

/-- Hypotheses of the other clauses of SequencerRuns. -/
theorem test_sequencer_hypotheses :
    (sequencing (seq0 true 5 640) |> fun m => met m (.seqst bareHd false false (.s 20)) fun x => x.on != 0 &&
      ((x.s.core x.g.core).seqq.filter fun j => j.wid == x.c.wid && j.run).length == 1) = true ∧
    met {} (.seqst bareHd true true (.s 20)) (fun x => x.on != 0 && (x.s.core x.g.core).seqq.isEmpty) = true ∧
    met (sequencing (seq0 true 5 640)) (.seqst bareHd true true (.s 20)) (fun x => (x.s.core x.g.core).seqq.any fun j => j.wid == x.c.wid && j.warp == x.c.warp) = true ∧
    ([([] : List SeqJob), [seq0 true 5 640]].map fun q => heldIs (holding { c := fun c => { c with seqq := q } } (.seqst bareHd true false (.s 20)) .seqst) fun h x =>
      h.wait == .seqst && x.on != 0 && (x.s.core x.g.core).seqq == q) = [true, true] ∧
    ((mach (sequencing (seq0 true 5 640))).seqHead 0 == some (seq0 true 5 640) && ((mach (sequencing (seq0 true 5 640))).core 0).engq.isEmpty) = true ∧
    ([0, 1].map fun n => (look (mach { g := fun g => { g with stash := if n = 0 then [] else [(0, ⟨0x20000, 0, 0x1000, []⟩)] } }).wgs wid0).any fun g =>
      !g.stepBlocked (seq0 true 5 640).ta 320 64) = [true, false] := by decide +kernel

/-- 10, "a sequenced product cut by a pre-emption": `SEQST s20` reads 0x8002800A and 0x00010000. -/
theorem test_seqst : (after (sequencing (seq0 true 5 640)) (.seqst bareHd false false (.s 20))).map (fun t => ((warp0 t).sget 20, (warp0 t).sget 21)) =
    some (0x8002800A, 0x00010000) := by decide +kernel

/-- One step adds the products of its 64 columns, here 2 x 3; the last completes the job (R264, R265). -/
theorem test_sequencer :
    (match exec (.sequencerStep 0) (mach (sequencing (seq0 false 0 2) { g := fun g => { g with
        mem := memWrite (memWrite [] 0x100 [0, 0x40]) 0x1000 [0x40, 0x40] } })) with
     | .next t => ((look t.wgs wid0).map fun g => ((g.acc 0).get false 0 0, g.done), (t.core 0).seqq.length)
     | _ => (none, 9)) = (some (0x40C00000, 1), 0) := by decide +kernel

/-! #### Accumulators -/

/-- Accumulator tiles: number, kind, elements. -/
def accs0 (ts : List (Nat × AccKind × Tab Word)) (m : Mod := {}) : Mod :=
  { m with g := fun g => m.g { g with accs := ts.foldl (fun t p => ins t p.1 ⟨p.2.1, .plain, p.2.2⟩) g.accs } }

/-- Hypotheses of AccumulatorInstructionsQueue: `ALD`, `AST`, `AZERO`, `ACQRY`, `ADRN`. -/
theorem test_acc_moves :
    ([.ald bareHd 2 (.v 8) (.a 0) (.imm 62), .ald bareHd 2 (.v 8) (.a 0) (.imm 63), .ast bareHd 2 .f32 (.a 0) (.v 8) (.imm 0), .ast bareHd 2 .i32 (.a 1) (.v 8) (.imm 0),
      .ast bareHd 2 .f32 (.a 1) (.v 8) (.imm 63), .azero bareHd (.a 0), .azero bareHd (.a 4), .acqry bareHd (.s 0) (.a 1), .acqry bareHd (.s 0) (.a 4)].map fun i =>
        met (accs0 [(1, .f32, [])]) i fun x => x.on != 0 && (x.g.acc 1).kind == .f32) = List.replicate 9 true ∧
    ([local0 0x100 64 64 7 2 128, local0 0x100 64 65 7 2 128].map fun bs => met (accs0 [(1, .f32, [])] (sealed 1 bs))
      (.adrn bareHd true 0 .rne .bf16 false (.a 1) (.s 8)) fun x => (match x.handle (x.u32 (.s 8)) 1 with | .ok _ => true | .error _ => false) &&
        (List.range 64).all fun i => match x.reach (0x100 + 128 * i) 128 with | .area _ _ => true | _ => false) = [true, true] ∧
    met (accs0 [(1, .f32, [])] (sealed 1 (local0 0x100 64 64 7 2 128))) (.adrn bareHd true 0 .rne .bf16 false (.a 4) (.s 8)) = true := by decide +kernel

/-- Two handles of local tensors, in s8 and s14, and the parameters s12, s13. -/
def twoHandles (a b : List Byte) (p q : Nat) (m : Mod := {}) : Mod :=
  { m with
    d := fun d => { m.d d with handles := [(0, [(1, ⟨5, true, false, 1, a⟩), (2, ⟨5, true, false, 1, b⟩)])] }
    w := fun w => regs [] [(8, 0x00010005), (12, BitVec.ofNat 32 p), (13, BitVec.ofNat 32 q), (14, 0x00020005)] (m.w w) }

/-- Hypotheses of AccumulatorInstructionsQueue: `ADRU`, `ASCA`, `SPLIT`, `RECOMB`. -/
theorem test_acc_records :
    let w := local0 0x100 16 16 4 4 64
    let mo := local0 0x2000 16 16 4 4 64
    met (accs0 [(1, .f32, [])] (twoHandles w mo 0 0)) (.adru bareHd .mom false false .f32 false (.a 1) (.s 8) (.s 12)) (fun x =>
      (match x.handle (x.u32 (.s 8)) 1, x.handle (x.w.sget 14).toNat 1 with | .ok _, .ok _ => true | _, _ => false) && !(tensorOf w).meets (tensorOf mo)) = true ∧
    ([0, 1].map fun z => met { accs0 [(1, .f32, [])] (twoHandles w mo 0 0) with w := regs [] [(8, 0x00010005), (14, BitVec.ofNat 32 z)] }
      (.adru bareHd .wd true false .f32 false (.a 1) (.s 8) (.s 12)) fun x => (x.w.sget 14).toNat == z) = [true, true] ∧
    ([.asca bareHd false (.a 0) (.a 1) (.s 12), .asca bareHd false (.a 1) (.a 2) (.s 12), .asca bareHd false (.a 4) (.a 1) (.s 12)].map fun i =>
      met (accs0 [(1, .i32, [])] (twoHandles [] [] 0x100 0x200)) i fun x => match x.reach 0x100 64, x.reach 0x200 64 with | .area _ _, .area _ _ => true | _, _ => false) =
      [true, true, true] ∧
    ([0, 3].map fun t => met (sealed 1 (local0 0x100 2 1 5 8 16) { w := regs [] [(9, 0x10)] }) (.split bareHd 2 false (.t (BitVec.ofNat 8 t)) (.s 8) (.s 9)) fun x =>
      match x.handle (x.u32 (.s 8)) 1, x.reach 0x10 4 with | .ok _, .area _ _ => true | _, _ => false) = [true, true] ∧
    ([(1, .i32), (1, .f32), (4, .i32)].map fun p => met (accs0 [(1, p.2, [])] (twoHandles [] [] 0x100 0x200)) (.recomb bareHd 2 1 (.v 8) (.a (BitVec.ofNat 8 p.1)) (.s 12))
      fun x => x.w.width == 32) = [true, true, true] := by decide +kernel

/-- A kernel of mode D1, and `AQRED` at position 0 with room for its staging, and beyond the tiles at position 1. -/
theorem test_aqred_hypotheses :
    met (accs0 [(1, .f32, [])] { twoHandles (local0 0x3000 16 16 4 4 64) [] 0 0 with rc := { rec0 with det := 1, loc := 0x8000 } })
      (.aqred bareHd true false 0 .rne .f32 false (.a 1) (.s 9) (.s 8)) (fun x => x.kr.rc.det != 0 && x.g.g % 4 == 0 &&
        (match x.handle (x.u32 (.s 8)) 1, x.reach 0 16384 with | .ok _, .area _ _ => true | _, _ => false)) = true ∧
    met { rc := { rec0 with det := 1 }, g := fun g => { g with g := 1 } } (.aqred bareHd true false 0 .rne .f32 false (.a 4) (.s 9) (.s 8)) (fun x =>
      x.g.g % 4 == 1) = true := by decide +kernel

/-- `ALD` and `AST` (R271, R276): element (0, 3) of a0 to v8 of lane 3, and back. -/
theorem test_ald :
    (engine (atEngine (.ald bareHd 1 (.v 8) (.a 0) (.imm 0)) [5, 0] (accs0 [(0, .f32, [(3, 7), (35, 9)])]))).map (fun t => ((warp0 t).vget 8 3, (warp0 t).vget 9 3)) =
      some (7, 9) ∧
    (let s := atEngine (.ast bareHd 1 .f32 (.a 0) (.v 8) (.imm 0)) [5, 0] (accs0 [(0, .f32, [])]) [] [(3, 7), (131, 9)]
     headB s = true ∧ (engine s).map (fun t => (look t.wgs wid0).map fun g => ((g.acc 0).get false 0 3, (g.acc 0).get false 0 35)) = some (some (7, 9))) ∧
    (engine (atEngine (.azero bareHd (.a 0)) [] (accs0 [(0, .f32, [(3, 7)])]))).map (fun t => (look t.wgs wid0).map fun g => (g.acc 0).get false 0 3) = some (some 0) := by
  decide +kernel

/-- `ADRN.bf16.z` stores 1.5 as 0x3FC0 and empties the tile (R277, R280). -/
theorem test_adrn :
    (engine (atEngine (.adrn bareHd true 0 .rne .bf16 false (.a 0) (.s 8)) [5] (accs0 [(0, .f32, [(1, 0x3FC00000)])]) [tensorOf (local0 0x100 2 1 7 2 4)])).map
      (fun t => (t.lread wid0 0x100 4, (look t.wgs wid0).map fun g => (g.acc 0).get false 0 1)) = some ([0, 0, 0xC0, 0x3F], some 0) := by decide +kernel

/-- 11, "a two-slice dot product": exponent 2 and the slices 96, 0 and -22, -51. -/
theorem test_split :
    let xs := [f64.decode 0x4008000000000000, f64.decode 0xBFE6666666666666]
    let r := splitRow 2 none xs
    r.1 = 2 ∧ [(1, 0), (2, 0), (1, 1), (2, 1)].map (fun p => asSigned 8 (r.2.1 p.1 p.2)) = [96, 0, -22, -51] ∧ maxExp xs = some (2 - 1) := by decide +kernel

/-- The same: -3264 at level 3, then 1664 at level 2, end at 0.800048828125. -/
theorem test_recomb :
    let a := (recombEl 3 2 1 (BitVec.ofInt 32 (-3264)) 0).1
    a = 0xBF89800000000000 ∧ (recombEl 2 2 1 1664 a).1 = 0x3FE99A0000000000 ∧ (recombEl 2 0x7FFFFFFF 1 5 0).1 = f64.nan := by decide +kernel

/-- 11, "allowed and forbidden sums": each step is one rounded addition; partners that do not take part. -/
theorem test_aqred :
    f32.encode (fpAdd f32.fmt .rne false (f32.decode 0x4B800000) (f32.decode 0x3F800000)).1 = 0x4B800000 ∧
    f32.encode (fpAdd f32.fmt .rne false (f32.decode 0x4B800000) (f32.decode 0x40000000)).1 = 0x4B800001 ∧
    (let q : Aq := ⟨1, 0, 0, .aqred bareHd true false 0 .rne .f32 false (.a 1) (.imm 0) (.s 8), 0, none, 0, 0, 0⟩
     let s := mach { rc := { rec0 with det := 1 }, g := fun g => { g with aqs := [q] } }
     ((look s.wgs wid0).any fun g => g.aqs == [q] && g.st == .running && g.g % 4 == 0) && s.memWf) = true := by decide +kernel

/-! ### The KEY and GRD groups (12, 13) -/

/-- A claim of 64 buckets with some slots. -/
def claimed (kind : KeyKind) (slots : Tab KeyVal) (m : Mod := {}) : Mod :=
  { m with
    c := fun c => m.c { c with carve := { c.carve with key := 1 } }
    g := fun g => m.g { g with claim := some ⟨0, 64, kind, 0, none, 0, slots, 0, false⟩ } }

/-- 12, the drain example's pairs: v4-v5 the keys of lanes 0 to 7, all ones beyond, v6-v7 the lane's number and 1. -/
def keys0 : List (Nat × Nat × Word) :=
  (([32, 1, 8, 32, 15, 1, 25, 4] : List Nat).zipIdx.map fun p => (4, p.2, BitVec.ofNat 32 p.1)) ++
    ((List.range 24).map fun l => [(4, l + 8, 0xFFFFFFFF), (5, l + 8, 0xFFFFFFFF)]).flatten ++ (List.range 32).map fun l => (6, l, BitVec.ofNat 32 (l + 1))

/-- Hypotheses of KeyedAreasAct on claims: room, none, bad arguments, an overflow record that is stale, and one that is live. -/
theorem test_claim_hypotheses :
    let m (k : Nat) : Mod := { w := regs [] [(4, BitVec.ofNat 32 k), (9, 0x00010005)], c := fun c => { c with carve := { c.carve with key := 1 } } }
    ([64, 1024, 2048, 96].map fun k => met (m k) (.kclaim bareHd .add 0 (.s 2) (.s 4) (.imm 0) 0) fun x => x.on != 0 && (x.s.core 0).carve.key == 1) =
      List.replicate 4 true ∧
    met (claimed .add [] (m 1024)) (.kclaim bareHd .add 0 (.s 2) (.s 4) (.imm 0) 0) (fun x => x.g.claim.isSome) = true ∧
    met (m 64) (.kclaim bareHd .add 0 (.s 2) (.s 4) (.s 9) 0) (fun x => match x.handle (x.u32 (.s 9)) 5 with | .error e => e == 0x40 | .ok _ => false) = true ∧
    met (sealed 5 (bytesOfNat 8 0x20000 ++ bytesOfNat 8 0x20100 ++ bytesOfNat 8 16 ++ zeros 8) (m 64)) (.kclaim bareHd .add 0 (.s 2) (.s 4) (.s 8) 0) (fun x =>
      clearB x [(0, 0x20100, 8)] (fun va tr => plainCause x.s x.g.core .atomic va tr)) = true := by decide +kernel

/-- Hypotheses of the other clauses on issue: with a claim and without, with work queued and without. -/
theorem test_key_hypotheses :
    ([.kins bareHd (.p 1) (.v 4) (.v 6), .kprb bareHd (.v 8) (.v 4) (.p 1), .kdel bareHd (.p 1) (.v 4), .kacc bareHd .i32 (.v 4) (.v 6), .kfree bareHd,
      .kstat bareHd true (.s 10), .kdrn bareHd true (.imm 0) (.s 6) (.s 7)].map fun i =>
        ([{}, claimed .add []] : List Mod).map fun m => met m i fun x => x.on != 0) = List.replicate 7 [true, true] ∧
    ([(0x108, 16), (0x100, 65536)].map fun p => met (claimed .add [] { w := regs [] [(6, BitVec.ofNat 32 p.1), (7, BitVec.ofNat 32 p.2)] })
      (.kdrn bareHd true (.imm 0) (.s 6) (.s 7)) fun x => x.u32 (.s 6) == p.1) = [true, true] ∧
    met (claimed .add [] { c := fun c => { c with keyq := [⟨0, wid0, 0, .kdrn bareHd true (.imm 0) (.s 6) (.s 7), [0, 0, 16]⟩] } }) (.kfree bareHd)
      (fun x => (x.s.core x.g.core).keyq.any fun j => j.wid == x.c.wid) = true := by decide +kernel

/-- The warp waits with a keyed instruction at the head of the core's queue. -/
def keyed (i : Instr) (kind : KeyKind) (slots : Tab KeyVal) : State :=
  holding (claimed kind slots { w := regs keys0 [], c := fun c => { c with keyq := [⟨0, wid0, 0, i, []⟩] } }) i .keyed

/-- Hypotheses of KEYED_APPLY's clauses: none of the lanes is turned away. -/
theorem test_keyed_hypotheses :
    ([Instr.kins bareHd (.p 1) (.v 4) (.v 6), .kprb bareHd (.v 8) (.v 4) (.p 1), .kdel bareHd (.p 1) (.v 4), .kacc bareHd .i32 (.v 4) (.v 6)].map fun i =>
      let s := keyed i .add []
      heldIs (s.modCore 0 fun k => { k with keyq := [] }) fun h x => h.wait == .keyed && h.instr == i && x.g.core == 0 && !x.logs &&
        x.g.claim.any (fun c => c.ov.isNone)) = List.replicate 4 true := by decide +kernel

/-- 12, "equal keys, shared homes and an ordered drain": the homes, and what the combines leave in buckets 45 and 53. -/
theorem test_kacc :
    [1, 32, 8, 15, 25, 4].map (homeBucket 64) = [45, 45, 43, 41, 47, 53] ∧
    (match exec (.keyedApply 0) (keyed (.kacc bareHd .i32 (.v 4) (.v 6)) .add []) with
     | .next t => (look t.wgs wid0).bind fun g => g.claim.map fun c => [180, 181, 212, 172, 164, 188].map fun p => lookD c.slots p (0, 0)
     | _ => none) = some [(1, 8), (32, 5), (4, 8), (8, 3), (15, 5), (25, 7)] := by decide +kernel

/-- `KINS` tells which lanes found their key (R300, R303). -/
theorem test_kins :
    (match exec (.keyedApply 0) (keyed (.kins bareHd (.p 1) (.v 4) (.v 6)) .add []) with
     | .next t => some ((warp0 t).pget 1, (warp0 t).hold)
     | _ => none) = some (0xD7, none) := by decide +kernel

theorem test_kprb :
    (match exec (.keyedApply 0) (keyed (.kprb bareHd (.v 8) (.v 4) (.p 1)) .add [(180, (1, 8)), (181, (32, 5))]) with
     | .next t => ([0, 1, 2].map ((warp0 t).vget 8), (warp0 t).pget 1)
     | _ => ([], 0)) = ([5, 8, 0], 0x2B) := by decide +kernel

/-- The drain writes N, the number written, and the entries in order of home and key (R305). -/
theorem test_kdrn :
    (match exec (.keyedApply 0) (mach (claimed .add [(180, (1, 8)), (181, (32, 5)), (164, (15, 5))] { c := fun c => { c with
        keyq := [⟨0, wid0, 0, .kdrn bareHd true (.imm 0) (.s 6) (.s 7), [0, 0x100, 2]⟩] } })) with
     | .next t => ([0x100, 0x104, 0x110, 0x118, 0x120, 0x128, 0x130].map fun a => natOfBytes (t.lread wid0 a 4), (look t.wgs wid0).bind fun g => g.claim.map (·.slots.length))
     | _ => ([], none)) = ([3, 2, 15, 5, 1, 8, 0], some 3) := by decide +kernel

/-- A claim, its state, a contribution of 2.5 at weight -1, and one beyond the range (R296, R306, R307). -/
theorem test_kclaim :
    (after { w := regs [] [(4, 64)], c := fun c => { c with carve := { c.carve with key := 1 } } } (.kclaim bareHd .add 0 (.s 2) (.s 4) (.imm 0) 0)).map
      (fun t => ((warp0 t).sget 2, (look t.wgs wid0).bind fun g => g.claim.map fun c => (c.base, c.n))) = some (0, some (0, 64)) ∧
    (after (claimed .add [(180, (1, 8)), (181, (32, 5))]) (.kstat bareHd false (.s 10))).map (fun t => ((warp0 t).sget 10, (warp0 t).sget 11)) =
      some (BitVec.ofNat 32 (1 + 2 ^ 16 * 6 + 2 ^ 20 * KeyKind.add.bits.toNat), 2) ∧
    fixContribution (-1) (.fin false 5 (-1)) = (some 5, 0) ∧ (fixContribution 0 (.fin false 1 63)).1 = none := by decide +kernel

/-! #### Grids -/

/-- 13, "two lanes through a dense level and a hashed level": the descriptor, its table in page 0x20000 and its lines in 0x90000. -/
def grid0 (grad : Nat) : List Byte :=
  bytesOfNat 8 0x20000 ++ bytesOfNat 8 grad ++ bytesOfNat 4 0x22 ++ zeros 44 ++ bytesOfNat 4 2 ++ bytesOfNat 2 10 ++ bytesOfNat 4 64 ++ bytesOfNat 2 10 ++ zeros 180

/-- v4-v5 of lanes 0 and 1 are the example's coordinates. -/
def grids (grad : Nat) (m : Mod := {}) : Mod :=
  sealed 2 (grid0 grad) { m with
    c := fun c => m.c { c with tlb := [0x90000, 0xA0000].map (fun a => ⟨0, a, ⟨a, 65536, false, false, 1, false, true⟩⟩) ++ c.tlb }
    w := fun w => m.w (regs [(4, 0, 0x3EC00000), (5, 0, 0x3F400000), (4, 1, 0x3F800000), (5, 1, 0xBE4CCCCD), (4, 2, 0x7FC00000)] [] { w with p := [(1, 7)] }) }

def hd1 : Hd := { bareHd with gp := 1 }

/-- Hypotheses of GridUnitActs: each instruction; registers that do not fit; no gradient base; no handle. -/
theorem test_grid_hypotheses :
    ([.gld hd1 false (.v 10) (.s 8) (.v 4), .gsc hd1 5 false (.s 8) (.v 4) (.v 12), .gidx hd1 true (.v 10) (.s 8) (.v 4) 1, .gqry hd1 (.s 0) (.s 8) 3].map fun i =>
      ([grids 0x90000, grids 0] : List Mod).map fun m => met m i fun x => x.on != 0 && (match x.handle (x.u32 (.s 8)) 2 with
        | .ok bs => (gridOf bs).dim == 2 && (gridOf bs).levels == 2 && (gridOf bs).feats == 1 | .error _ => false)) = List.replicate 4 [true, true] ∧
    ([.gld hd1 false (.v 10) (.s 9) (.v 4), .gsc hd1 5 false (.s 9) (.v 4) (.v 12), .gidx hd1 true (.v 10) (.s 9) (.v 4) 1].map fun i =>
      met (grids 0x30000) i fun x => match x.handle (x.u32 (.s 9)) 2 with | .ok _ => false | .error e => e == 0x40) = [true, true, true] ∧
    met (grids 0x30000) (.gld hd1 false (.v 63) (.s 8) (.v 4)) = true ∧
    met (grids 0x30000) (.gld hd1 false (.v 10) (.s 8) (.v 4)) (fun x =>
      let as : List Acc1 := (([0, 1] : List Nat).map fun l => (([0, 1] : List Nat).map fun v => ((gridOf (grid0 0x30000)).corners v
        [f32.decode (x.w.vget 4 l).toNat, f32.decode (x.w.vget 5 l).toNat]).map fun c => (l, (gridOf (grid0 0x30000)).featAt v c.1 0, 4)).flatten).flatten
      decide (as.length = 16) && clearB x as x.featCause && soundB x as) = true := by decide +kernel

/-- The example's corners: lane 0's indexes at both levels. -/
theorem test_corners :
    let g := gridOf (grid0 0x30000)
    let c := [f32.decode 0x3EC00000, f32.decode 0x3F400000]
    (g.corners 0 c).map (fun p => (p.1, f32.encode p.2)) = [(3, 0x3E000000), (4, 0x3EC00000), (6, 0x3E000000), (7, 0x3EC00000)] ∧
    (g.corners 1 c).map (·.1) = [136, 137, 971, 970] ∧ g.featAt 1 136 0 = 0x21220 ∧ g.gradAt 1 1 0 = 0x40040 := by decide +kernel

/-- `GLD` issues; the grid unit writes 5.25 (R328). -/
theorem test_gld :
    let table := ((List.range 9).map fun j => bytesOfNat 4 (f32.encode (.fin false j 0))).flatten
    let s := after (grids 0x30000 { s := fun s => { s with mem := memWrite [] 0x20000 table } }) (.gld hd1 false (.v 10) (.s 8) (.v 4))
    s.any (fun t => (t.core 0).gridq.length == 1 && (warp0 t).await.length == 1) = true ∧
    (s.bind fun t => match exec (.gridComplete 0) t with
      | .next u => some ([0, 2].map ((warp0 u).vget 10), (warp0 u).await.length, (warp0 u).flg)
      | _ => none) = some ([0x40A80000, 0x7FC00000], 0, 1) := by decide +kernel

/-- `GSC` owes 4 contributions at each level for each lane; one that has room leaves. -/
theorem test_gsc :
    let s := after (grids 0x90000) (.gsc hd1 5 false (.s 8) (.v 4) (.v 12))
    s.any (fun t => (t.core 0).gridq.any fun j => j.sends.length == 16 && j.gen == 5 && (j.sends[0]?.map (·.1)) == some 0x900C0) = true ∧
    (s.bind fun t => match exec (.gscSend 0) t with
      | .next u => (u.core 0).gridq.head?.map (·.sent)
      | _ => none) = some 1 := by decide +kernel

/-- `GIDX` and `GQRY` (R318, R329): the index of the first corner; level 1 is hashed, its table of 2^10 entries, resolution 64. -/
theorem test_gidx :
    ((after (grids 0x30000) (.gidx hd1 false (.v 10) (.s 8) (.v 4) 1)).map fun t => (t.core 0).gridq.any fun j => j.outs.contains (10, 0, 136)) = some true ∧
    (after (grids 0x30000) (.gqry hd1 (.s 0) (.s 8) 3)).map (fun t => (warp0 t).sget 0) = some (BitVec.ofNat 32 (10 * 2 ^ 25 + 64)) ∧
    (after (grids 0x30000) (.gqry hd1 (.s 0) (.s 8) 2)).map (fun t => (warp0 t).sget 0) = some (BitVec.ofNat 32 (2 ^ 30 + 10 * 2 ^ 25 + 2)) := by decide +kernel

/-- Hypotheses of the last clauses: a coordinate in a cell, and one that reaches 1. -/
theorem test_cell : (cellOf 2 (.fin false 3 (-3))).1 = 0 ∧ f32.encode (cellOf 2 (.fin false 3 (-3))).2 = 0x3F400000 ∧ cellOf 2 (.fin false 1 0) = (1, .fin false 1 0) := by decide +kernel

/-! ### The ORD and RMT groups (14, 15) -/

/-- An operation of the warp that is not acknowledged, homed on a die. -/
def owed0 (pa : Nat) (who : Issuer := .warp wid0 0 0 0) : OutOp :=
  ⟨7, message 7 pa 0 (zeros 8), some 0, 0, who, none, none, none⟩

/-- The own die's stream to a spire base holds operations. -/
def streaming (ops : List OutOp) (m : Mod := {}) : Mod := { m with d := fun d => { m.d d with streams := [(2, ⟨8, ops, []⟩)] } }

/-- Hypotheses of FencesAndBias: a fence with nothing to wait for, and one that waits for an operation to the next die. -/
theorem test_fence_hypotheses :
    let i : Instr := .fence bareHd ⟨.pkg, .ar, .ord⟩ true false false
    ([[], [owed0 (2 ^ 44)]].map fun ops => met (streaming ops) i fun x => x.on != 0 &&
      (x.s.warpOps 0 x.c.wid x.c.warp).any (fun o => pkgOfDie (paDie (msgPa o.2.msg)) == 0) == !ops.isEmpty) = [true, true] ∧
    ([[], [owed0 (2 ^ 44)]].map fun ops => heldIs (holding (streaming ops) i (.fence true)) fun h x => h.wait == .fence true && h.instr == i &&
      (x.s.warpOps 0 x.c.wid x.c.warp).isEmpty == ops.isEmpty) = [true, true] := by decide +kernel

/-- The page of the test's normal memory, with some bias. -/
def biased (host : Bool) (m : Mod := {}) : Mod := based 0x20000 { m with s := fun s => { m.s s with bias := if host then [2] else [] } }

/-- Hypotheses of `BFLIP` and `BQRY`, and of the flips. -/
theorem test_flip_hypotheses :
    ([false, true].map fun b => met (biased b) (.bflip bareHd true (.s 2) (.s 4)) fun x => x.on != 0 && clearB x [(firstOf x.lanes, x.u64 (.s 4), 1)] x.flipCause &&
      x.s.hostBiased (x.paAt 0x20000) == b) = [true, true] ∧
    met (biased false { w := regs [(8, 3, 0x60000)] [] }) (.bqry bareHd (.v 0) (.v 8)) (fun x => x.xlate 0x60000 != .miss) = true ∧
    met (biased true) (.bqry bareHd (.s 0) (.s 4)) (fun x => (match x.xlate (x.rd64 (.s 4) 0) with | .page p => (x.queryCause 0x20000 (.page p)).isNone | _ => false)) = true ∧
    heldIs (holding { s := fun s => { s with flips := [⟨0x20000, 65536, true, some (wid0, 0), 0⟩] } } (.bflip bareHd true (.s 2) (.s 4)) .flip) (fun h _ =>
      h.wait == .flip) = true := by decide +kernel

/-- 14: `BQRY` of a host-biased page of normal memory reads 1, of host memory 33, of counters 0xC0 (R351). -/
theorem test_bqry : (after (biased true) (.bqry bareHd (.s 0) (.s 4))).map (fun t => (warp0 t).sget 0) = some 1 ∧
    (after (based 0x60000) (.bqry bareHd (.s 0) (.s 4))).map (fun t => (warp0 t).sget 0) = some 33 ∧
    (after (based 0x50000) (.bqry bareHd (.s 0) (.s 4))).map (fun t => (warp0 t).sget 0) = some 0xC0 := by decide +kernel

/-- A flip asked for completes, and answers 0; one to the bias that the page has answers 1 (R350). -/
theorem test_bflip :
    (after (biased true) (.bflip bareHd true (.s 2) (.s 4))).map (fun t => ((warp0 t).sget 2, (warp0 t).hold.isSome)) = some (1, false) ∧
    (match exec (.flipComplete 0) (holding (biased false { w := regs [] [(2, 9)], s := fun s => { s with flips := [⟨0x20000, 65536, true, some (wid0, 0), 0⟩] } })
        (.bflip bareHd true (.s 2) (.s 4)) .flip) with
     | .next t => ((warp0 t).sget 2, t.hostBiased 0x20000, t.hostBiased 0x30000, t.flips.length)
     | _ => (9, false, false, 9)) = (0, true, false, 0) := by decide +kernel

/-- `FENCE` of remote operations waits for the acknowledgement; without one it ends at once (R349). -/
theorem test_fence :
    ([[], [owed0 (2 ^ 44)]].map fun ops => (after (streaming ops) (.fence bareHd ⟨.pkg, .rel, .ord⟩ true false false)).map fun t => (warp0 t).hold.isSome) =
      [some false, some true] := by decide +kernel

/-- Hypotheses of RemoteInstructionsSend's updates and write-once words. -/
theorem test_remote_hypotheses :
    let ea (x : Ix) (l : Nat) : Nat := x.gaddr (.s 4) (.imm 0) 0 l
    let goes (m : Mod) (i : Instr) (size : Nat) (t : Aim) (full : Bool) : Bool := met m i fun x => x.on != 0 &&
      (x.lanes.all fun l => ea x l % size == 0 && (match x.xlate (ea x l) with | .page p => (x.rmtCause t (ea x l) (.page p)).isNone | _ => false)) &&
      (x.watched (x.lanes.map fun l => (l, ea x l, size))).isNone && x.mayEnter (x.lanes.map fun l => ⟨x.paAt (ea x l), 0, 0, 0, false, false, none, zeros 8, none⟩) false == !full
    ([.radd bareHd false .i64 (.v 6) (.s 4) (.imm 0) 0, .rmin bareHd false .i64 (.v 6) (.s 4) (.imm 0) 0, .rmax bareHd false .i64 (.v 6) (.s 4) (.imm 0) 0,
      .ror bareHd false .n64 (.v 6) (.s 4) (.imm 0) 0].map fun i => goes (based 0x20000) i 8 ⟨some 0, true, false⟩ false) = List.replicate 4 true ∧
    goes (based 0x40008) (.rwo bareHd false .n64 (.v 6) (.s 4) (.imm 0) 0) 8 ⟨some 2, true, false⟩ false = true ∧
    goes (based 0x50008) (.rarv bareHd .n64 (.v 6) (.s 4) (.imm 0) 0) 8 ⟨some 3, true, false⟩ false = true ∧
    goes (based 0x30000) (.rfxa bareHd false false false 0 .f32 (.v 6) (.s 4) (.imm 0) (.imm 5)) 64 ⟨some 1, true, false⟩ false = true ∧
    (iss (based 0x30000) (.rfxa bareHd false false false 0 .f32 (.v 6) (.s 4) (.imm 0) (.imm 5))).any (fun x => x.u32 (.imm 5) / 256 == 0) = true := by decide +kernel

/-- `RREQ` of a word at 0x20000 into the write-once line at 0x40000, counted at 0x50008; no room in a full stream; a signalling NaN. -/
theorem test_request_hypotheses :
    met { w := regs ((List.range 32).map fun l => [(8, l, 0x20000), (10, l, 0x40008), (12, l, 0x50008)]).flatten [] }
      (.rreq bareHd false 1 (.v 10) (.v 8) (.v 12)) (fun x => x.on != 0 && x.lanes.all fun l =>
        let there (va : Nat) (t : Aim) : Bool := match x.xlate va with | .page p => (x.rmtCause t va (.page p)).isNone | _ => false
        x.rd64 (.v 8) l % 8 == 0 && x.rd64 (.v 10) l % 128 == 8 && there (x.rd64 (.v 8) l) ⟨none, false, false⟩ && there (x.rd64 (.v 10) l) ⟨some 2, false, false⟩ &&
          there (x.rd64 (.v 12) l) ⟨some 3, false, false⟩) = true ∧
    met (based 0x20000 { d := fun d => { d with streams := [(0, ⟨0, List.replicate 4096 { owed0 0 with msg := [] }, []⟩)] } }) (.radd bareHd false .i64 (.v 6) (.s 4) (.imm 0) 0)
      (fun x => !x.mayEnter (x.lanes.map fun _ => ⟨0x20000, 0, 2, 0, false, false, none, zeros 8, none⟩) false) = true ∧
    met (based 0x30000 { w := regs [(6, 0, 0x7F800001)] [] }) (.rfxa bareHd false false false 0 .f32 (.v 6) (.s 4) (.imm 0) (.imm 5)) (fun x =>
      (match engineNum .f32 0 (x.rd .f32 (.v 6) 0 % 2 ^ Ty.f32.ew) with | .nan true => true | _ => false) && (List.range 6).all fun r => !meets x.w.enables cSN r) = true ∧
    (let r := (mach {}).enter 0 (.warp wid0 0 0 0) true none ⟨0x20000, 0, 2, 0, false, false, none, zeros 8, none⟩
     r.1 == ((0, 0) : Nat × Nat) && (r.2.stream 0 0).next == 1) = true := by decide +kernel

/-- `RADD.i64` puts 32 operations into the stream of its home, numbered from 0, with the value of each lane's pair (R364, R377). -/
theorem test_radd :
    (after (based 0x20040 { w := regs [(6, 3, 5)] [] }) (.radd bareHd false .i64 (.v 6) (.s 4) (.imm 0) 0)).map (fun t =>
      ((t.spire 0).inbox.length, (t.stream 0 0).ops.length, ((t.stream 0 0).ops.drop 3).head?.map fun o =>
        [o.seq, msgTag o.msg, msgPa o.msg, msgIdx o.msg, fld o.msg 20 8])) = some (32, 32, some [3, 3, 0x20040, 0, 5]) := by decide +kernel

/-- `RARV` joins the lanes of one word and sums them (R376). -/
theorem test_rarv :
    (after (based 0x50008 { w := regs ((List.range 32).map fun l => (6, l, 1)) [] }) (.rarv bareHd .n64 (.v 6) (.s 4) (.imm 0) 0)).map (fun t =>
      ((t.stream 0 0).ops.map fun o => (msgIdx o.msg, fld o.msg 20 8))) = some [(6, 32)] := by decide +kernel

/-! #### Homes -/

/-- Messages at the spire base of 0x30000 from package 3, die 1. -/
def atHome (ms : List (List Byte)) (win : Window) (mem : Mem) : State :=
  { State.reset with mem := mem, spires := [(0, { Spire.reset with inbox := ms, wins := [(52, win)] })] }

/-- A contribution of the example, by number, FP32 value and generation. -/
def contrib (seq v gen : Nat) : List Byte :=
  message (52 * 2 ^ 54 + seq) 0x30000 (1 + 4 * 2 ^ 6) (bytesOfNat 8 v ++ bytesOfNat 4 gen)

/-- The line of the example: generation 7, nothing added. -/
def line7 : Mem := memWrite [] 0x30000 (bytesOfNat 8 0x07000000)

/-- One event of a state, and then a list of them. -/
def events (s : State) (es : List Instr) : Option State :=
  es.foldl (fun r e => r.bind fun s => match exec e s with | .next t => some t | _ => none) (some s)

/-- 15, "duplicates and a late contribution": tag, header and sum; the resend is applied no second time. -/
theorem test_contribution :
    msgTag (contrib 1001 0 7) = 0x0D000000000003E9 ∧
    ((events (atHome [contrib 1001 0x3E800000 7, contrib 1002 0x41000000 6, contrib 1000 0x3FC00000 7, contrib 1001 0x3E800000 7] ⟨1000, 0⟩ line7)
      (List.replicate 4 (.applyContribution 0 0 0))).map fun t =>
        (memNat t.mem 0x30000 8, memNat t.mem 0x30008 24 == 7 * 2 ^ 147, (t.spire 0).late, (lookD (t.spire 0).wins 52 ⟨0, 0⟩).base)) =
      some (0x0000000207000000, true, 1, 1003) := by decide +kernel

/-- An update of the word at 0x20000 by index and type. -/
def update (idx ty v : Nat) (pa : Nat := 0x20000) : List Byte := message (52 * 2 ^ 54) pa (idx + ty * 2 ^ 6) (bytesOfNat 8 v)

/-- Hypotheses of HomesApplyOnce: messages of each index with a sound code; a window that has not seen the number; room for the
acknowledgement; host bias and poison. -/
theorem test_home_hypotheses :
    ([update 0 0 5, update 2 0 5, update 3 0 5, update 4 1 5, update 5 3 5 0x40008, update 5 3 0 0x40000, update 6 3 5 0x50008, contrib 0 0 7,
      message (52 * 2 ^ 54) 0x30000 (1 + 2 ^ 16) (zeros 8 ++ bytesOfNat 4 8), message (52 * 2 ^ 54) 0x40008 0x3F (bytesOfNat 8 5),
      message (52 * 2 ^ 54) 0x20000 7 (bytesOfNat 8 0x40008 ++ bytesOfNat 8 0x50008 ++ [1])].map fun m =>
      let s := atHome [m] ⟨0, 0⟩ []
      msgOk m && !msgOk (noised m 1) && !s.inFlip (msgPa m) && s.mayAck 0 (msgTag m) && (match (⟨0, 0⟩ : Window).judge (msgTag m % 2 ^ 54) with | .fresh 0 => true | _ => false) &&
        (msgTouches m).all fun r => !s.poisoned r.1 r.2) = List.replicate 11 true ∧
    (match (⟨0, 1⟩ : Window).judge 0, (⟨5, 0⟩ : Window).judge 4, ((⟨0, 0⟩ : Window).mark 3).judge 3 with | .again, .again, .again => true | _, _, _ => false) = true ∧
    ({ atHome [update 0 0 5] ⟨0, 0⟩ [] with bias := [2] } : State).hostBiased 0x20000 = true ∧
    ({ atHome [update 0 0 5] ⟨0, 0⟩ [] with poison := [0x20000 / 64] } : State).poisoned 0x20000 4 = true := by decide +kernel

/-- What one message does to the four bytes at its address. -/
def applied (e : Instr) (m : List Byte) (mem : Mem) (n : Nat := 4) : Option Nat :=
  (events (atHome [m] ⟨0, 0⟩ mem) [e]).map fun t => memNat t.mem (msgPa m) n

/-- R379: sums wrap, minima and maxima by the type's sign, a bitwise or. -/
theorem test_updates :
    let m := memWrite [] 0x20000 [0xFE, 0xFF, 0xFF, 0xFF]
    applied (.applyRadd 0 0 0) (update 0 0 5) m = some 3 ∧ applied (.applyRmin 0 0 0) (update 2 0 5) m = some 0xFFFFFFFE ∧
    applied (.applyRmin 0 0 0) (update 2 1 5) m = some 5 ∧ applied (.applyRmax 0 0 0) (update 3 0 5) m = some 5 ∧
    applied (.applyRmax 0 0 0) (update 3 1 5) m = some 0xFFFFFFFE ∧ applied (.applyRor 0 0 0) (update 4 1 5) m = some 0xFFFFFFFF := by decide +kernel

/-- R372, R374, R375: an initialisation of another generation; a word written once, and again, which marks it; an arrival. -/
theorem test_homes :
    ((events (atHome [message (52 * 2 ^ 54) 0x30000 (1 + 2 ^ 16) (zeros 8 ++ bytesOfNat 4 8)] ⟨0, 0⟩ (memWrite line7 0x30008 [9])) [.applyLineInit 0 0 0]).map fun t =>
      (memNat t.mem 0x30000 8, memNat t.mem 0x30008 8)) = some (0x08000010, 0) ∧
    ((events (atHome [update 5 3 5 0x40008] ⟨0, 0⟩ []) [.applyWriteOnce 0 0 0]).map fun t => (memNat t.mem 0x40000 8, memNat t.mem 0x40008 8)) = some (1, 5) ∧
    ((events (atHome [update 5 3 6 0x40008] ⟨0, 0⟩ (memWrite [] 0x40000 [1, 0, 0, 0, 0, 0, 0, 0, 5])) [.applyWriteOnce 0 0 0]).map fun t =>
      (memNat t.mem 0x40000 8, memNat t.mem 0x40008 8)) = some (0x8001, 5) ∧
    applied (.applyArrival 0 0 0) (update 6 3 5 0x50008) (memWrite [] 0x50008 [2]) 8 = some 7 := by decide +kernel

/-- A read request is answered by a reply with the words, which its spire base writes once (R383). -/
theorem test_request :
    ((events (atHome [message (52 * 2 ^ 54) 0x20000 7 (bytesOfNat 8 0x40008 ++ bytesOfNat 8 0x50008 ++ [1])] ⟨0, 0⟩ (memWrite [] 0x20000 [9])) [.serveReadRequest 0 0 0]).map
      fun t => ((t.stream (spireAgent 0) 0).ops.map fun o => (msgIdx o.msg, msgPa o.msg, fld o.msg 20 8))) = some [(0x3F, 0x40008, 9)] ∧
    ((events (atHome [message (52 * 2 ^ 54) 0x40008 0x3F (bytesOfNat 8 9)] ⟨0, 0⟩ []) [.applyReply 0 0 0]).map fun t => memNat t.mem 0x40008 8) = some 9 := by decide +kernel

/-! ### Waits, barrier networks, ordered acts (15, 17) -/

/-- A counter word at 0x50008 of the own die; its value. -/
def counter (v : Nat) (m : Mod := {}) : Mod := based 0x50008 { m with s := fun s => { m.s s with mem := memWrite s.mem 0x50008 (bytesOfNat 8 v) } }

/-- `WAITC s0, s4, #3, #c`. -/
def waitc0 (c : Nat) : Instr := .waitc bareHd (.s 0) (.s 4) (.imm 3) (.imm (BitVec.ofNat 8 c))

/-- A `WAITC` that waits, with a watch or without, with a deadline in 5 us or without; and a `WAITK`. -/
def waits0 (v : Nat) (k : Wait) (i : Instr := waitc0 0) (m : Mod := {}) : State :=
  holding (counter v { m with s := fun s => { m.s s with spires := [(0, { Spire.reset with watches := [(wid0, 0)] })], time := 6000 } }) i k

/-- Hypotheses of WaitsAndAcknowledgements: `WAITC` at its target, before it, past a deadline. -/
theorem test_waitc_hypotheses :
    ([(3, 0), (2, 0), (2, 5)].map fun p => met (counter p.1) (waitc0 p.2) fun x =>
      let as : List Acc1 := [(firstOf x.lanes, x.u64 (.s 4), 8)]
      x.on != 0 && clearB x as (fun va tr => match tr with
        | .page p => if p.cls ≠ 3 ∨ p.hmem = true then some (4, 0x32) else if paDie (p.pa va) ≠ dieOf x.g.core then some (5, 0x35) else none
        | _ => none) && soundB x as && natOfBytes (x.bytesAt 0x50008 8) == p.1) = [true, true, true] ∧
    met (counter 2 { w := fun w => { w with due := some 0 } }) (waitc0 5) (fun x => x.w.due == some x.s.time) = true ∧
    ([(3, Wait.waitc 0x50008 0x50008 3 none true, waitc0 0), (2, .waitc 0x50008 0x50008 3 (some 5000) false, waitc0 5), (2, .waitk 0x50008 0x50008 3, .waitk bareHd (.s 0) (.s 8) (.imm 3)),
      (0, .flip, .bflip bareHd true (.s 2) (.s 4)), (0, .room [⟨0x20000, 0, 2, 0, false, false, none, zeros 8, none⟩] false, .radd bareHd false .i64 (.v 6) (.s 4) (.imm 0) 0)].map fun p =>
        let s := waits0 p.1 p.2.1 p.2.2
        heldIs s (fun h x => h.wait == p.2.1 && x.on != 0 && !s.inFlip 0x50008 && !s.poisoned 0x50008 8)) = List.replicate 5 true := by decide +kernel

/-- 15, R384: at its target `WAITC` answers the word, by its watch, or past its deadline. -/
theorem test_waitc :
    ([(3, Wait.waitc 0x50008 0x50008 3 none true, waitc0 0, Instr.watchFire 0 0), (2, .waitc 0x50008 0x50008 3 none true, waitc0 0, .watchFire 0 0),
      (2, .waitc 0x50008 0x50008 3 (some 5000) true, waitc0 5, .waitcDeadline wid0 0), (2, .waitc 0x50008 0x50008 3 (some 7000) true, waitc0 7, .waitcDeadline wid0 0),
      (3, .waitc 0x50008 0x50008 3 none false, waitc0 0, .watchPoll wid0 0)].map fun p => (events (waits0 p.1 p.2.1 p.2.2.1) [p.2.2.2]).map fun t =>
        ((warp0 t).hold.isSome, (warp0 t).sget 0)) = [some (false, 3), some (true, 0), some (false, 2), some (true, 0), some (false, 3)] := by decide +kernel

/-- An operation that found no room enters when there is some; after 10 ms it gives up (R364, R371). -/
theorem test_stream_entry :
    let s := waits0 0 (.room [⟨0x20000, 0, 2, 0, false, false, none, zeros 8, none⟩] false) (.radd bareHd false .i64 (.v 6) (.s 4) (.imm 0) 0)
    ((events s [.streamEntry (.warp wid0 0)]).map fun t => ((warp0 t).hold.isSome, (t.stream 0 0).ops.length)) = some (false, 1) ∧
    ((events s [.streamStall wid0 0]).map fun t => (warp0 t).hold.isSome) = some true := by decide +kernel

/-- A spire base owes a reply; a command waits to ask; an arrival waits for its warp's earlier operation, and not. -/
theorem test_entry_hypotheses :
    let x : Send := ⟨0x20000, 0, 2, 0, false, false, none, zeros 8, none⟩
    ((({ State.reset with spires := [(0, { Spire.reset with owed := [(x, none)] })] } : State).spire 0).owed.length == 1 &&
      ({ State.reset with spires := [(0, { Spire.reset with owed := [(x, none)] })] } : State).roomFor 1 true [x]) = true ∧
    ((mach (posted { cmd0 gather0 true [] with asks := [(0, x)] })).cmd? wid0 0).any (fun q => q.2.1.asks.length == 1) = true ∧
    ([[owed0 0x20000], []].map fun ops => (mach (streaming ops)).warpOps 0 wid0 0 |>.any fun o => o.2.ord < 1) = [true, false] := by decide +kernel

/-- The arrival leaves once nothing earlier is owed (R376); with an unacknowledged operation before it, it stays. -/
theorem test_rarv_depart :
    let a : WaitingArrival := ⟨wid0, 0, 1, 0, false, [(2, 8)]⟩
    let o : OutOp := ⟨8, message 8 0x50008 6 (zeros 8), none, 0, .warp wid0 0 1 0, none, none, none⟩
    let s (ops : List OutOp) := mach { d := fun d => { d with streams := [(2, ⟨9, ops, []⟩)], arrivals := [a] } }
    ([[owed0 0x20000, o], [o]].map fun ops => (events (s ops) [.rarvDepart 0 wid0 0]).map fun t => ((t.die 0).arrivals.length, (t.spire 0).inbox.length)) =
      [some (1, 0), some (0, 1)] := by decide +kernel

/-- An acknowledgement of operation 7, by status: applied, a failed check once, and refused for its class. -/
theorem test_ack :
    let s (st : Nat) := mach (streaming [owed0 (2 ^ 44)] { d := fun d => { d with acks := [ackMessage 7 st], ackOf := [(7, st, 2)] } })
    ([0, 5, 3].map fun st => (events (s st) [.ackGroupReceived 0 0 0]).map fun t =>
      ((t.stream 0 2).ops.map (·.checks), (warp0 t).dfr.map (·.cause))) = [some ([], []), some ([1], []), some ([], [0x32])] ∧
    msgOk (noised (ackMessage 7 0) 1) = false := by decide +kernel

/-- After 4 us the operation is sent again (R364). -/
theorem test_retransmit :
    ([3999, 4000].map fun t => (events { mach (streaming [owed0 0x20000]) with time := t } [.retransmit 0 2 7]).map fun t => (t.spire 0).inbox.length) =
      [some 0, some 1] := by decide +kernel

/-- A reply to line 3 of core 0's buffer (R238, L17). -/
theorem test_reply :
    let m := message (52 * 2 ^ 54) (2 ^ 43 + 3 * 2 ^ 7) 0x3F (bytesOfNat 8 9)
    let s := mach (posted { cmd0 gather0 true [] with far := [(1, ⟨[3], 0, 1, 0x500⟩)] }
      { c := fun c => { c with reply := [(3, ⟨wid0, 0, 1, none, false⟩)] }, d := fun d => { d with replies := [m] } })
    msgOk m = true ∧ s.rowWanted ⟨wid0, 0, 1, none, false⟩ = true ∧ s.mayAck 0 (msgTag m) = true ∧
    ((events s [.replyBufferWrite 0 0 0]).map fun t => (look (t.core 0).reply 3).bind (·.words)) = some (some (bytesOfNat 8 9)) := by decide +kernel

/-! #### Barrier networks -/

/-- `HBAR` at the scope of the die with two participants, `PHASE` of a kernel in superstep mode. -/
def hbar0 (n : Nat) : Instr := .hbar bareHd ⟨.die, .rlx, .ord⟩ (.s 0) (.imm (BitVec.ofNat 8 n)) 1
def phased (m : Mod := {}) : Mod := { m with rc := { m.rc with sscope := 4 } }

/-- Hypotheses of BarrierNetworks' first clause: counts good and bad, an operation owed, no room at the node. -/
theorem test_hbar_hypotheses :
    let full : Mod := { s := fun s => { s with nets := (List.range 64).map fun k => ⟨k + 1, 0, 4, 0, 2, false, [(k, 0, 0)], [], [0], none⟩ } }
    ([0, 2].map fun n => met {} (hbar0 n) fun x => x.on != 0 && x.u32 (.imm (BitVec.ofNat 8 n)) == n && x.s.nodeRoom 4 0 0 1) = [true, true] ∧
    met (streaming [owed0 0x20000] { w := fun w => { w with rseq := 1 } }) (hbar0 2) (fun x => (x.s.warpOps 0 x.c.wid x.c.warp).any fun o => o.2.ord < x.w.rseq) = true ∧
    heldIs (holding {} (hbar0 2) .acks) (fun h x => h.wait == .acks && (x.s.warpOps 0 x.c.wid x.c.warp).isEmpty) = true ∧
    ([met {} (.phase bareHd (.s 0) (.imm 2)), met (phased) (.phase bareHd (.s 0) (.imm 2)) (fun x => x.kr.rc.sscope == 4 && x.s.nodeRoom 4 0 0 16),
      met (phased) (.phase bareHd (.s 0) (.imm 0))]) = [true, true, true] ∧
    met full (hbar0 2) (fun x => !x.s.nodeRoom 4 0 0 1) = true ∧
    met (phased full) (.phase bareHd (.s 0) (.imm 2)) (fun x => !x.s.nodeRoom 4 0 0 16) = true := by decide +kernel

/-- A warp that waits on arrival 5 of channel 1. -/
def atNet (phase : Bool) (m : Mod := {}) : Mod :=
  { m with w := fun w => { m.w w with front := [], blocked := [⟨0, 0x10000, 0xFFFFFFFF, .net ⟨5, phase, 4, if phase then 16 else 1, 2, 0, 7, cur0, none⟩⟩] } }

/-- An arrival in the mail and a context at the node that it names, for so many participants and with so many waiting. -/
def mailed (n : Nat) (waits : List (Nat × Nat × Nat)) (ch : Nat := 1) : State :=
  mach (atNet (ch == 16) { s := fun s => { s with netMail := [⟨0, ch, 4, 0, 2, false, wid0, 0, 5, 0⟩], nets := [⟨0, ch, 4, 0, n, false, waits, [], [0], none⟩] } })

/-- Hypotheses of the arrivals' clauses: another count; a full context; one more to come, and the last; none yet. -/
theorem test_arrival_hypotheses :
    ([(3, []), (2, [(0, 0, 1), (0, 0, 2)]), (2, []), (2, [(0, 0, 1)])].map fun p => let s := mailed p.1 p.2
      (s.netMail[0]?).bind fun a => s.nets.findIdx? fun n => n.named a) = List.replicate 4 (some 0) ∧
    ({ mailed 2 [] with nets := [] } : State).nets.findIdx? (fun n => n.named ⟨0, 1, 4, 0, 2, false, wid0, 0, 5, 0⟩) = none ∧
    (warp0 (mailed 3 [])).blocked.any (fun b => b.waitsFor 5) = true := by decide +kernel

/-- The last arrival releases the waiter, with the phase number advanced (R408, R430). -/
theorem test_network :
    ((events (mailed 2 [(0, 0, 1)]) [.networkArrival 0]).map fun t =>
      ((warp0 t).blocked.length, (warp0 t).front.map (·.pc), (warp0 t).sget 7, lookD (warp0 t).hcnt 1 0, t.nets.length)) = some (0, [0x1000C], 1, 1, 0) ∧
    ((events (mailed 2 [(0, 0, 1)] 16) [.networkArrival 0]).map fun t => ((warp0 t).blocked.length, t.nets.map (·.waits.length))) = some (1, [2]) := by decide +kernel

/-- Two sweeps that agree and balance end a `PHASE` (R414); traffic not yet applied keeps it. -/
theorem test_sweep :
    let s (sent : Nat) : State := { mach (atNet true { c := fun c => { c with cnt := { c.cnt with sent0 := BitVec.ofNat 48 sent } } }) with
      nets := [⟨0, 16, 4, 0, 2, false, [(wid0, 0, 5), (0, 0, 1)], [], [0], none⟩] }
    ([0, 3].map fun n => (events (s n) [.balanceSweep 0, .balanceSweep 0]).map fun t => ((warp0 t).blocked.length, (warp0 t).ph, t.nets.length)) =
      [some (0, 1, 0), some (1, 0, 1)] := by decide +kernel

/-- Hypotheses of the release clauses: a saved workgroup, and handler mode, keep the answer. -/
theorem test_release_hypotheses :
    ([(WgSt.running, false), (.saved, false), (.running, true)].map fun p =>
      let s := (mach (atNet false { w := fun w => { w with hmode := p.2 }, g := fun g => { g with st := p.1 } })).netRelease (wid0, 0, 5)
      (warp0 s).blocked.map fun b => match b.why with | .net n => n.ans | _ => none) = [[], [some true], [some true]] ∧
    (after (phased { w := fun w => { w with ph := 5 } }) (.phqry bareHd (.s 0) 1)).map (fun t => (warp0 t).sget 0) = some 12 := by decide +kernel

/-! #### Ordered acts and the order log -/

/-- Hypotheses of OrderedActsAndLog: channels free and taken, `ODECL` with no lane, acts granted and not. -/
theorem test_act_hypotheses :
    let taken : Mod := mode 1 { d := fun d => { d with chans := [(2, ⟨some 9, 0, []⟩)] } }
    ([mode 1, taken, {}].map fun m => [.oapp bareHd (.s 4) (.imm 5) 2, .odecl bareHd 2].map fun i => met m i fun x => x.on != 0) = List.replicate 3 [true, true] ∧
    met (mode 1) (.odecl offHd 2) (fun x => x.on == 0) = true ∧
    ([.oapp bareHd (.s 4) (.imm 5) 2, .oapp offHd (.s 4) (.imm 5) 2, .odecl bareHd 2].map fun i =>
      let s := holding (mode 1 { d := fun d => { d with chans := [(2, ⟨some 1, 3, []⟩)] } }) i (.act 2)
      heldIs s (fun h x => h.wait == .act 2 && s.mayAct 0 2 1 0 0 && (s.actWaiters 0 2) == [(x.c.wid, x.c.warp)])) = [true, true, true] := by decide +kernel

/-- 17, "ordered claims": workgroup 1, whose count is 3, receives 5 once workgroup 0 has acted; before that it waits. -/
theorem test_oapp :
    let w1 := wid0 + 1
    let rc := { rec0 with det := 1, gx := 3 }
    let g : Wg := Wg.start rc 1 1 0 0 [0]
    let h : Hold := ⟨{ cur0 with wid := w1 }, .oapp bareHd (.s 4) (.s 9) 2, 0, .act 2, []⟩
    let s (c : Channel) : State := mach { rc := rc, d := fun d => { d with chans := [(2, c)] }, s := fun s => { s with
      wgs := s.wgs ++ [(w1, { g with warps := g.warps.map fun p => (p.1, { p.2 with s := [(9, 3)], hold := some h }) })] } }
    ((events (s ⟨some 1, 5, [(0, 1)]⟩) [.actGrant 0 2]).map fun t => ((t.warp? w1 0).map fun w => (w.hold.isSome, w.sget 4), ((t.die 0).chan 2).total)) =
      some (some (false, 5), 8) ∧
    ((events (s ⟨some 1, 0, []⟩) [.actGrant 0 2]).map fun t => (t.warp? w1 0).map fun w => w.hold.isSome) = some (some true) := by decide +kernel

/-- A page table that maps all of the first GiB to itself, writable, for context 0 of die 0. -/
def mapped (m : Mod := {}) : Mod :=
  { m with
    d := fun d => { m.d d with roots := [(0, 0x100000)] }
    s := fun s => m.s { s with mem := memWrite (memWrite s.mem 0x100000 (bytesOfNat 8 0x101001)) 0x101000 [0x0B] } }

/-- A D2 kernel whose log is bound, with an `ATL` of lane 0 that waits for its turn; the log's first word and index. -/
def logged (rpl rend : Bool) (index entry value : Nat) (full : Option Nat := none) : State :=
  let m := mode 2 (mapped { d := fun d => { d with log := { d.log with bound := some 1, rpl := rpl, rend := rend, stall := full.isSome } } })
  let s := holding { m with w := fun w => { w with p := [(1, 1)] } } (.atl hd1 mm0 .add false .n32 (.v 2) (.v 0) (.v 1) (.v 3)) (.logged full)
  { s with mem := memWrite (memWrite (memWrite s.mem 0x50100 (bytesOfNat 4 index)) 0x51000 (bytesOfNat 8 entry)) 0x51008 (bytesOfNat 8 value) }

/-- Hypotheses of the logged events: an effect of one entry, its share of 64 entries, an entry that names it, another's, the end mark. -/
theorem test_log_hypotheses :
    heldIs (logged false false 0 0 0) (fun h x => h.wait == .logged none && (match x.loggedEffect with
      | (.mach _ _ go, [(_, _)]) => go == x.c.advance | _ => false)) = true ∧
    (logged false false 0 0 0).logShareOf 0 1 = some ⟨0, 64, 0x51000, 0x50100⟩ ∧ (logged false false 0 0 0).logPa 0 0 0x51000 = some 0x51000 ∧
    ((logged true false 0 7 0).warpOver { rc := rec0, ctx := 0, dies := [0], home := 0, olog := none, started := [0], gone := [], faulted := false, lost := false, complete := false } 1 0 0) = false := by
  decide +kernel

/-- The event is logged and the index moves; replayed; a different value diverges; a full share stalls; the end mark ends the replay. -/
theorem test_log :
    let go (s : State) : Option (Bool × Nat × Bool × Bool × Bool) := (events s [.loggedEvent wid0 0]).map fun t =>
      ((warp0 t).hold.isSome, memNat t.mem 0x50100 4, (t.die 0).log.div, (t.die 0).log.rend, (t.die 0).log.stall)
    ([go (logged false false 0 0 0), go (logged false false 64 0 0), go (logged true false 0 0xF000000000000000 0)]) =
      [some (false, 1, false, false, false), some (true, 64, false, false, true), some (true, 0, false, true, false)] ∧
    ((events (logged false false 0 0 0) [.loggedEvent wid0 0]).bind fun t => go (logged true false 0 (memNat t.mem 0x51000 8) (memNat t.mem 0x51008 8 + 1))) =
      some (false, 1, true, false, false) := by decide +kernel

/-- A full log for 10 ms is given up with LOG_FULL; `DMQRY` reads mode 2 and the replay bit (R428, R431). -/
theorem test_dmqry :
    ([9999999, 10000000].map fun t => (events { logged false false 64 0 0 (some 0) with time := t } [.logFull wid0 0]).map fun u => (warp0 u).hold.isSome) = [some true, some false] ∧
    (after (mode 2 (mapped { d := fun d => { d with log := { d.log with bound := some 1, rpl := true } } })) (.dmqry bareHd (.s 0))).map (fun t => (warp0 t).sget 0) =
      some 0x18 := by decide +kernel

/-! ### The SYS group, the launch unit, pre-emption (18, 15, 04, 19) -/

/-- Hypotheses of SystemInstructions: each instruction; holds of too many clocks and of none. -/
theorem test_sys_hypotheses :
    met { w := fun w => { w with hmode := true } } (.trdc bareHd true (.s 0)) (fun x => x.on != 0) = true ∧
    ([.ppt bareHd .pt 0, .ppt bareHd .rel 0, .ppt bareHd .hold 100, .ppt bareHd .hold 0, .ppt bareHd .hold 65537, .tlbinv bareHd 4 true (.imm 0), .tlbinv bareHd 5 false (.s 4),
      .dbg bareHd .brk (.v 0) (.v 0) 7, .dbg bareHd .step (.v 0) (.v 0) 0, .dbg bareHd .nostep (.v 0) (.v 0) 0, .dbg bareHd .watch (.s 4) (.s 6) 0].map fun i =>
        met {} i fun x => x.on != 0) = List.replicate 11 true := by decide +kernel

/-- `TRDC` counts deferred causes and what was lost, and `.clr` empties both (R454). -/
theorem test_trdc : (after { w := fun w => { w with hmode := true, dfr := [⟨0x38, 1, 0⟩, ⟨0x32, 2, 0⟩], lost := 300 } } (.trdc bareHd true (.s 0))).map (fun t =>
    ((warp0 t).sget 0, (warp0 t).dfr.length, (warp0 t).lost)) = some (2 + 255 * 256, 0, 0) := by decide +kernel

/-- `TLBINV` of one page in the die leaves the others (R456). -/
theorem test_tlbinv : (after (based 0x20008) (.tlbinv bareHd 4 false (.s 4))).map (fun t => ((t.core 0).tlb.length, tlbFind (t.core 0).tlb 0 0x20000)) =
    some (7, none) := by decide +kernel

/-- `PPT.hold` ends at its clock, or 65,536 clocks after a request (R455). -/
theorem test_ppt :
    (after { d := fun d => { d with clkAcc := 20000 } } (.ppt bareHd .hold 50)).map (fun t => (warp0 t).ppt) = some (some 150) ∧
    ([(149, none), (150, none), (65636, some 100)].map fun p => (events (mach {
        w := fun w => { w with ppt := some (if p.2.isSome then 10 ^ 6 else 150) }
        g := fun g => { g with stopAt := p.2 }
        d := fun d => { d with clkAcc := 200 * p.1 } }) [.pptHoldExpiry wid0 0]).map fun t => (warp0 t).ppt.isSome) =
      [some true, some false, some false] := by decide +kernel

/-- `DBG.watch` and `.step` (R457): a watched access of a later instruction traps DBG_WATCH. -/
theorem test_dbg : (after { w := regs [] [(4, 0x20000), (6, 8)] } (.dbg bareHd .watch (.s 4) (.s 6) 0)).map (fun t => ((warp0 t).watchBase, (warp0 t).watchLen)) =
      some (0x20000, 8) ∧
    (iss (based 0x20000 { w := fun w => { w with watchBase := 0x20004, watchLen := 4 } }) (.stg bareHd mm0 .n32 (.v 6) (.s 4) (.v 0) 4)).any
      (fun x => (x.watched (x.lanes.map fun l => (l, x.gaddr (.s 4) (.v 0) 4 l, 4))).isSome) = true := by decide +kernel

/-- A walk for the warp's page 0x20000, whose translation the tables hold. -/
def walking (install : Bool) : State :=
  holding (mapped { d := fun d => { d with walks := [⟨0, 0x20000, [(wid0, 0)], install⟩] }, c := fun c => { c with tlb := [] } })
    (.ldg bareHd mm0 .n32 (.v 6) (.s 4) (.v 0) 0) .walk

/-- The walk ends: its answer is the page of 1 GiB, which enters both buffers unless it may not (R358). -/
theorem test_walk :
    (walking true).walk 0 0 0x20000 = .page ⟨0, 2 ^ 30, false, false, 0, false, true⟩ ∧ (walking true).walk 0 0 (2 ^ 30) = .absent ∧
    ([true, false].map fun i => (events (walking i) [.walkComplete 0 0]).map fun t =>
      ((warp0 t).hold.isSome, (look (warp0 t).walked 2).isSome, (t.core 0).tlb.length, (t.die 0).tlb.length)) = [some (false, true, 1, 1), some (false, true, 0, 0)] := by
  decide +kernel

/-! #### The launch unit -/

/-- Bytes of a launch record of context 0: the example's, with its register count. -/
def record0 (regs : Nat) (compl : Nat := 0) : List Byte :=
  bytesOfNat 8 0x10000 ++ zeros 8 ++ bytesOfNat 8 (2 ^ 48 + 2 ^ 32 + 2 ^ 16 + 1) ++ bytesOfNat 8 (0x48400000 + regs) ++ zeros 16 ++ bytesOfNat 8 compl ++ zeros 8

/-- Hypotheses of LaunchAndPlacement on the port: a good record and a bad one, a full table. -/
theorem test_port_hypotheses :
    State.reset.recBad 0 0 4 (record0 8) = none ∧ State.reset.recBad 0 0 4 (record0 12) = some (0x42, 0x18) ∧ (launchOf (record0 8)).dies = 0 ∧
    (State.reset.pkg 0).lpq = [] ∧ (record0 8).length = 64 ∧ ((State.reset.die 0).pend.length < 256) ∧
    (({ State.reset with dies := [(2, { Die.reset with pend := List.range 256 })] } : State).die 2).pend.length = 256 := by decide +kernel

/-- 19, "a refused record": REF 1, LCODE 0x42, LOFF 0x18. -/
theorem test_port :
    ((events State.reset [.launchPortWrite 0 0 0 (record0 12)]).map fun t => ((t.pkg 0).ref, (t.pkg 0).lcode, (t.pkg 0).loff)) = some (1, 0x42, 0x18) ∧
    ((events State.reset [.launchPortWrite 0 0 0 (record0 8)]).map fun t => ((t.die 0).pend, (t.die 3).pend, (look t.kernels 1).map (·.dies))) =
      some ([1], [1], some [0, 1, 2, 3]) ∧
    ((events State.reset [.launchPortWrite 0 0 0 [1]]).map fun t => (t.pkg 0).bad) = some 1 := by decide +kernel

/-- A record handled, and the state in which die 0's next turn places its workgroup. -/
def launched : State := (events State.reset [.launchPortWrite 0 0 0 (record0 8)]).getD State.reset

/-- Die 0's turn places workgroup 0 of instance 1 on a core whose carve is the record's (R97). -/
theorem test_place :
    let s := { launched with cores := [(0, { Core.reset with carve := (launchOf (record0 8)).carve })] }
    (match s.turnPick 0 with
     | some (.place 1 _ 0 0 sl) => sl
     | _ => []) = [0] ∧
    ((events s [.placeWorkgroup 0]).map fun t => ((look t.wgs wid0).map fun g => (g.core, g.warps.length), (t.die 0).turnAt, (warp0 t).front.map (·.pc))) =
      some (some (0, 1), 8, [0x10000]) := by decide +kernel

/-- A draining core: quiescent, then 512 clocks (R183). -/
theorem test_carve :
    let s : State := { State.reset with cores := [(0, { Core.reset with drain := some ⟨4, 7, 4, 1⟩ })] }
    ((events s [.carveChange 0]).map fun t => ((t.core 0).drain, (t.core 0).change)) = some (none, some (⟨4, 7, 4, 1⟩, 512)) ∧
    ([511, 512].map fun n => (events { s with cores := [(0, { Core.reset with change := some (⟨4, 7, 4, 1⟩, 512) })], dies := [(0, { Die.reset with clkAcc := 200 * n })] }
      [.carveChangeDone 0]).map fun t => ((t.core 0).carve.loc, (t.core 0).change.isSome)) = [some (Core.reset.carve.loc, true), some (7, false)] := by decide +kernel

/-- Hypotheses of the retirement: threads live, an operation owed, nothing left. -/
theorem test_retire_hypotheses :
    ([(1, []), (0, [owed0 0x20000]), (0, [])].map fun p => let s := mach (streaming p.2 { w := fun w => { w with live := BitVec.ofNat 128 p.1, front := [] } })
      (look s.wgs wid0).any fun g => (s.owes 0 wid0 == !p.2.isEmpty) && !s.working wid0 g 0 && (g.warps.any fun q => q.2.live != 0) == decide (p.1 = 1)) = [true, true, true] := by
  decide +kernel

/-- The last workgroup retires and the kernel completes (R100); with a completion word an arrival of 1 leaves for it. -/
theorem test_retire :
    let s (compl : Nat) := mach (mapped { rc := { rec0 with compl := compl }, w := fun w => { w with live := 0, front := [] } })
    ((events (s 0) [.workgroupRetire wid0]).map fun t => (t.wgs.length, (look t.kernels 1).map (·.complete), (t.die 0).termIdx)) = some (0, some true, 0) ∧
    ([s 0x50008, mach {}].map fun s => match s.completionPa 0 0 0x50008 with | .ok _ => 0 | .error c => c) = [0x32, 0x30] := by decide +kernel

/-- A completion word in a counter page, whose arrival finds room (R100). -/
theorem test_completion :
    let s := mach { mapped { rc := { rec0 with compl := 0x50008 }, w := fun w => { w with live := 0, front := [] } } with
      s := fun s => { s with mem := memWrite (memWrite s.mem 0x100000 (bytesOfNat 8 0x101001)) 0x101000 [0x6B] } }
    (match s.completionPa 0 0 0x50008 with | .ok a => a | .error _ => 0) = 0x50008 ∧
    ((events s [.workgroupRetire wid0]).map fun t => (t.wgs.length, (t.spire 0).inbox.map fun m => (msgPa m, fld m 20 8))) = some (0, [(0x50008, 1)]) := by decide +kernel

/-! #### Pre-emption -/

/-- A record without local memory and of the fewest registers. -/
def small : LaunchRec := { rec0 with regs := 8, loc := 0, copies := 0, bars := 0, tiles := 0, accs := 0, handler := 0 }

/-- A workgroup asked to stop, on a die whose pool has some bytes. -/
def stopping (pool : Nat) (m : Mod := {}) : Mod :=
  { m with
    rc := small
    g := fun g => m.g { g with stopAt := some 0 }
    d := fun d => { m.d d with poolBase := 0x200000, poolLen := BitVec.ofNat 64 pool } }

/-- Hypotheses of PreemptionSavesAndResumes on saving: stopped and drained, with dirty lines, lines under way, and none. -/
theorem test_save_hypotheses :
    let s (l : StashLine) := mach (stopping 0x10000 (window l))
    ([⟨true, true, 0x20080, false⟩, ⟨true, false, 0x20080, true⟩].map fun l => (look (s l).wgs wid0).any fun g =>
      g.stopped 0 && (s l).drained wid0 g 0 && g.stash.any fun p => p.2.lines.any fun q => q.2.dirty == l.dirty && q.2.wb == l.wb) = [true, true] ∧
    (look (mach (stopping 0x10000)).wgs wid0).any (fun g => g.stopped 0 && (mach (stopping 0x10000)).drained wid0 g 0 && g.stash.isEmpty) = true ∧
    ([.flip, .wb].map fun k => (holding (stopping 0x10000) (.nop bareHd) k) |> fun s => (look s.wgs wid0).any fun g => g.stopAt.isSome) = [true, true] := by
  decide +kernel

/-- A workgroup that has stopped and drained is saved at the pool's first place: an image of 22,016 bytes, by R447's sections. -/
theorem test_save :
    ((events (mach (stopping 0x10000)) [.preemptSave wid0]).map fun t => (look t.wgs wid0).map fun g => (g.st, g.image)) =
      some (some (.saved, some ⟨0, 0x200000, 22016, []⟩)) := by decide +kernel

/-- A place in the pool is the first that is free (R445). -/
theorem test_first_fit :
    let d (is : List (Nat × Nat × Nat)) (n : Nat) : Die := { Die.reset with poolBase := 0x200000, poolLen := BitVec.ofNat 64 n, images := is }
    (d [] 0x10000).firstFit 0x8000 = some 0x200000 ∧ (d [(0x200000, 0x4000, 7)] 0x10000).firstFit 0x8000 = some 0x204000 ∧
    (d [(0x200000, 0x4000, 7)] 0x10000).firstFit 0x10000 = none := by decide +kernel

/-- A hand-made image of that workgroup at 0x200000: its sections' places, the link values and states of its lanes, lane 0 at
0x10024, s3, v1 of lane 2 and a byte of its area. -/
def imageAt : Mem :=
  [(0x200019, 0x01), (0x200021, 0x11), (0x200029, 0x15), (0x200031, 0x19), (0x200039, 0x1D), (0x200041, 0x21), (0x200049, 0x25),
    (0x200051, 0x25), (0x200059, 0x25), (0x200180, 0x24)] ++ ((List.range 32).map fun l => (0x200182 + 8 * l, 1#8)) ++
  ((List.range 32).map fun l => (0x200580 + 4 * l, 1#8)) ++ [(0x20090C, 0x55), (0x201188, 0x77), (0x201505, 6)]

/-- A saved workgroup whose image that is, with some blocks poisoned. -/
def savedAt (poison : List Nat) : State := mach {
  rc := { small with loc := 1024 }
  c := fun c => { c with carve := small.carve }
  g := fun g => { g with st := .saved, off := true, image := some ⟨0, 0x200000, 0x3000, []⟩ }
  d := fun d => { d with images := [(0x200000, 0x3000, wid0)] }
  s := fun s => { s with poison := poison, mem := imageAt } }

/-- It is resumed at its die's turn from what its image in memory holds (R446, R476). -/
theorem test_resume :
    (match (savedAt []).turnPick 0 with
      | some (.resume 1 _ w 0 [0]) => decide (w = wid0)
      | _ => false) = true ∧
    ((events (savedAt []) [.resumeWorkgroup 0]).map fun t => ((warp0 t).front.map fun e => (e.pc, e.mask))) =
      some [(0x10000, 0xFFFFFFFE), (0x10024, 1)] ∧
    ((events (savedAt []) [.resumeWorkgroup 0]).map fun t => ((warp0 t).sget 3, (warp0 t).vget 1 2)) = some (0x55, 0x77) ∧
    ((events (savedAt []) [.resumeWorkgroup 0]).map fun t => (look t.wgs wid0).map fun g => (g.st, g.mem)) =
      some (some (.running, [(5, 6)])) := by decide +kernel

/-- The hypotheses on its memory; one whose image is poisoned ends. -/
theorem test_resume_hypotheses :
    Memory.wf (savedAt []).mem = true ∧ (memNat (savedAt []).mem 0x200180 8 == ((warp0 (savedAt [])).laneRec 0).link % 2 ^ 64) = false ∧
    (memRead (savedAt []).mem 0x200018 40 == [0x100, 0x1100, 0x1500, 0x1900, 0x1D00].flatMap (bytesOfNat 8)) = true ∧
    ((events (savedAt [0x200000 / 64]) [.resumeWorkgroup 0]).map fun t => (look t.wgs wid0).map fun g => g.st) = some (some .ending) := by
  decide +kernel

/-- The host's requests: to stop, a second one, and of a workgroup that is not there (R463). -/
theorem test_preq :
    let v : BitVec 64 := 0x10000
    ((events (mach {}) [.preqPreempt 0 v]).map fun t => ((t.die 0).preqst, (look t.wgs wid0).map (·.stopAt))) = some (3, some (some 0)) ∧
    ((events (mach {}) [.preqPreempt 0 0x20000]).map fun t => (t.die 0).preqst) = some 2 ∧
    ((events (mach {}) [.preqTerminate 0 v]).map fun t => ((t.die 0).preqst, (look t.wgs wid0).map (·.st), (look (t.die 0).term 0).isSome)) =
      some (0, some .ending, true) ∧
    ((events (mach {}) [.preqReserved 0 v]).map fun t => (t.die 0).preqst) = some 4 := by decide +kernel

/-- A sleep ends at its clock (R112). -/
theorem test_sleep_end :
    ([99, 100].map fun n => (events (mach { w := fun w => { w with sleepUntil := 100 }, d := fun d => { d with clkAcc := 200 * n } }) [.sleepEnd wid0 0]).map fun t =>
      (warp0 t).sleepUntil) = [some 100, some 0] := by decide +kernel

/-! ### Optical circuit time (16) and the host (19) -/

/-- A pod of two packages with a change to package 0. -/
def pod (f : Pkg → Pkg) (s : State → State := id) : State := s { State.reset with nPkg := 2, pkgs := [(0, f Pkg.reset)] }

/-- A slot entry: its length and what each lane stands on. -/
def entry0 (len : Nat) (tx : Nat → Nat) : List Byte :=
  bytesOfNat 8 len ++ (List.range 96).map (fun l => BitVec.ofNat 8 (tx l)) ++ (List.range 96).map (fun l => BitVec.ofNat 8 (tx l)) ++ zeros 56

/-- A package whose bank 1 (at 0x4000) holds one entry. -/
def bank1 (len : Nat) (tx : Nat → Nat) (p : Pkg) : Pkg := { p with bank1 := ⟨true, 1⟩, slotMem := memWrite [] 0x4000 (entry0 len tx) }

/-- Lane l of each port stands on l mod 8, none on 0. -/
def good0 (l : Nat) : Nat := if l % 8 = 0 then 0x3E else l % 8

/-- Hypotheses of SlotTablesAndKeys on entries: a short one, one of code 0. -/
theorem test_entry_errors :
    [bank1 49 good0 Pkg.reset, { Pkg.reset with slotMem := [(0x4000, 100)] }].map (fun p => p.entryError true 0) = [some 2, some 3] := by decide +kernel

/-- A channel twice in a port, twice in two ports, and on a receive lane (R405). -/
theorem test_clash :
    ([(9, 10), (15, 16), (105, 106)].map fun q => (Pkg.clash { Pkg.reset with slotMem := [(0x4000 + q.1, 1), (0x4000 + q.2, 1)] } true 0 8,
      Pkg.clash { Pkg.reset with slotMem := [(0x4000 + q.1, 1), (0x4000 + q.2, 1)] } true 0 104)) = [(true, false), (false, false), (false, true)] := by decide +kernel

/-- Arming (R405): a bad count, a bad entry, a rotation too early, and one that is armed. -/
theorem test_arm :
    [pod fun p => { p with bank1 := ⟨false, 0⟩ }, pod fun p => { p with bank1 := ⟨true, 1⟩ }, pod fun p => { p with ocrot := 5 }, pod id].map
      (fun s => (events s [.armSwap 0 5]).map fun t => ((t.pkg 0).arm, (t.pkg 0).err)) =
      [some (false, 1), some (false, 2), some (false, 7), some (true, 0)] := by decide +kernel

/-- A lit package in scheduled mode with two slots of 1 us, its rotation begun at 0. -/
def scheduled (p : Pkg) : Pkg :=
  { p with en := true, key := some 0, bank0 := ⟨true, 2⟩, slotMem := [(0, 100), (256, 100)] }

/-- Slots, rotations, swaps (R391, R393, R404): before their time nothing. -/
theorem test_slots :
    ([999, 1000].map fun n => (events { pod scheduled with time := n } [.slotStart 0]).map fun t => (t.pkg 0).slot) = [some 0, some 1] ∧
    ([(1, 1999), (1, 2000), (0, 5000)].map fun q => (events { pod (fun p => { scheduled p with slot := q.1, slotAt := 1000 * q.1 }) with time := q.2 } [.rotationStart 0]).map fun t =>
      (t.pkg 0).ocrot) = [some 0, some 1, some 0] ∧
    ([0, 1].map fun n => (events (pod fun p => { scheduled p with arm := true, ocsw := BitVec.ofNat 64 n }) [.tableSwap 0]).map fun t => (t.pkg 0).act) = [some true, some false] := by
  decide +kernel

/-- Every lane of the reset state stands in a state that the second clause asks for; a lit one stands on its table's code. -/
theorem test_lanes :
    ((State.reset.lane 5 19).stage = 0 ∧ (State.reset.lane 5 19).spare = none ∧ (State.reset.lane 5 19).tx.st ∈ [0, 1, 5, 6]) ∧
    ((events (pod fun p => { p with key := some 0 }) [.laneEnable 0 9]).map fun t => ((t.pkg 0).en, (t.lane 0 19).tx, (t.lane 0 48).tx.st)) = some (true, ⟨1, 19, 0xFF⟩, 6) ∧
    ((events (pod id) [.laneEnable 0 1]).map fun t => (t.pkg 0).en) = some false ∧
    ((events (pod scheduled) [.packageReset 0]).map fun t => ((t.pkg 0).en, (t.pkg 0).key, (t.pkg 0).bank0, (t.lane 0 3).tx.st)) = some (false, none, ⟨false, 1⟩, 0) ∧
    ((events (pod scheduled) [.keyZero 0]).map fun t => ((t.pkg 0).key, (t.pkg 0).kst)) = some (none, 0) := by decide +kernel

/-- Two lit packages in mesh mode, package 0's queue to package 1 holding a message. -/
def linked (m : List Byte) : State :=
  (events { State.reset with nPkg := 2, pkgs := [0, 1].map fun k => (k, { Pkg.reset with key := some 0, queues := if k = 0 then [(1, ⟨[m], 0, 95⟩)] else [] }) }
    [.laneEnable 0 9, .laneEnable 1 9]).getD State.reset

/-- Hypotheses of FlitsAndRetraining on sending: lane 1 joins package 0 to package 1, serves, and is the next to take a flit. -/
theorem test_flit_hypotheses :
    let s := linked (message 0 (2 ^ 46) 0 (zeros 8))
    (s.lane 0 1).tx = ⟨1, 1, 0xFF⟩ ∧ (s.lane 1 1).rx.ch = 1 ∧ (s.lane 1 1).rx.st = 1 ∧ s.nextLane 0 1 (s.queue 0 1).last = some 1 ∧ (s.pkg 0).active.mode = false ∧
    0 < (s.pkg 0).roomIn (s.lane 0 1) := by decide +kernel

/-- A data flit leaves: the queue is sent, the flow's next number is 1, one flit is on its way (R392, R394). -/
theorem test_flit_send :
    ((events (linked (message 0 (2 ^ 46) 0 (zeros 8))) [.flitSend 0 1 0]).map fun t =>
      (((t.pkg 0).flow 1).next, (t.pkg 1).air.length, (t.queue 0 1).msgs.flatten.length, (t.queue 0 1).last)) = some (1, 1, 0, 1) ∧
    ((events (linked []) [.flitSend 0 2 0]).map fun t => (t.pkg 1).air.length) = some 0 := by decide +kernel

/-- Hypotheses on receiving: a message of 36 bytes in the next flit is delivered; a gap of 10 ms is given up. -/
theorem test_flow :
    let m := message 0 (2 ^ 46) 0 (zeros 8)
    let s := { linked [] with time := 10000000 }
    (m.length = 32 ∧ m.length = (fld m 16 4 / 2 ^ 25 % 64 + 1) * 4) ∧ (((s.pkg 1).flow 0).got = [] ∧ ((s.pkg 1).flow 0).part = some [] ∧ ((s.pkg 1).flow 0).given = []) ∧
    (s.acceptFlit 1 0 0 (flitHeader 0 m.length (some 0) 0).toNat m |> fun t => ((t.spire 8).inbox, ((t.pkg 1).flow 0).base)) = ([m], 1) ∧
    flitNumber 0xFFFF 1 = 0x10001 ∧ flitNumber 0x10001 0xFFFF = 0xFFFF := by decide +kernel

theorem test_flow_gap :
    ([9999999, 10000000].map fun n => (events ({ (linked []).modPkg 1 (fun p => { p with flows := [(0, ⟨0, 1, 0, [(1, [], none, 0)], some [], []⟩)] }) with time := n })
      [.flowGap 1 0]).map fun t => ((t.pkg 1).flow 0).base) = [some 0, some 2] := by decide +kernel

/-- Lane 1 of package 1 is above its threshold: a request goes out (R398), is answered with a spare, which is trained, and the lane retrains. -/
theorem test_retrain :
    let s := (linked []).modLane 1 1 fun x => { x with win := 892, words := 16384 }
    ((events s [.fecWindowEnd 1 1]).map fun t => ((t.lane 1 1).stage, (t.lane 1 1).mate, (t.lane 1 1).sym, (t.pkg 1).ctrl)) = some (1, 0, 892, [(0, 1)]) ∧
    ((events { s.modLane 1 1 (fun x => { x with stage := 1, mate := 0 }) with time := 0 } []).bind fun t =>
      (events (t.modPkg 0 fun p => { p with asks := [(1, 1)] }) [.handoverRequest 0 1]).map fun u => ((u.lane 1 1).stage, (u.lane 1 1).spare)) = some (2, some 0) := by
  decide +kernel

/-- The spare is ready after 40 us, the retraining over after 400 us, and the fill window judges it; the third failure is final. -/
theorem test_retrain_ends :
    let s := (linked []).modLane 1 1 fun x => { x with stage := 2, mate := 0, since := 0, spare := some 0 }
    ([39999, 40000].map fun n => (events { s with time := n } [.spareReady 1 1]).map fun t => ((t.lane 1 0).rx, (t.lane 0 1).tx, (t.lane 1 1).stage)) =
      [some (⟨6, 0x3F, 0xFF⟩, ⟨1, 1, 0xFF⟩, 2), some (⟨4, 1, 1⟩, ⟨2, 1, 0⟩, 3)] ∧
    ([399999, 400000].map fun n => (events { s.modLane 1 1 (fun x => { x with stage := 3 }) with time := n } [.retrainDone 1 1]).map fun t => (t.lane 1 1).stage) = [some 3, some 4] ∧
    ([(891, 2), (892, 1), (892, 2)].map fun q => (events (s.modLane 1 1 fun x => { x with stage := 4, win := q.1, words := 16384, feed := some 1, fails := q.2, rx := { x.rx with st := 2 } }) [.fecWindowEnd 1 1]).map
      fun t => ((t.lane 1 1).stage, (t.lane 1 1).rx.st, (t.pkg 1).note)) = [some (0, 1, 0), some (3, 2, 0), some (0, 5, 4)] := by decide +kernel

/-! #### The host -/

/-- Registers (R459): `POWER`, `NOTE`, `OCTHR`, one that is not there; and `OCLANE` of the spec's retraining example. -/
theorem test_registers :
    ((events (pod id) [.registerWrite 0 0x400000 (1 + 2 * 300)]).map fun t => ((t.die 0).eff, (t.die 0).cap)) = some (true, 300) ∧
    ((events (pod id) [.registerWrite 0 0x500000 (2 * 100)]).map fun t => ((t.die 1).eff, (t.die 1).cap)) = some (false, 0) ∧
    ((events (pod fun p => { p with note := 0x1F }) [.registerWrite 0 0x2000 5]).map fun t => (t.pkg 0).note) = some 0x1A ∧
    ((events (pod id) [.registerWrite 0 0x100020 77]).map fun t => (t.pkg 0).thr) = some 77 ∧
    (match exec (.registerWrite 0 0x500 1) (pod id) with | .next t => decide (t = pod id) | _ => false) = true := by decide +kernel

/-- A report: asked for, ready (R465). -/
theorem test_report :
    ((events (pod id) [.reportRequest 0 1]).map fun t => (t.pkg 0).repBusy) = some true ∧ ((events (pod id) [.reportRequest 0 2]).map fun t => (t.pkg 0).repBusy) = some false ∧
    ((events (pod fun p => { p with repBusy := true }) [.reportReady 0]).map fun t => ((t.pkg 0).repBusy, (t.pkg 0).note, (t.pkg 0).msi)) = some (false, 8, 1) := by decide +kernel

/-- Modes and caps (R466): above its cap a die's clock loses 10, from 170 to 160, and it is notified once. -/
theorem test_power :
    ((events (pod id) [.powerModeWrite 0 true, .modeSwitch 0]).map fun t => ((t.die 0).effNow, (t.die 0).fnow)) = some (true, 120) ∧
    ((events (pod id) [.powerCapWrite 0 300, .capClockStep 0 301]).map fun t => ((t.die 0).fnow, (t.die 0).capd, (t.die 0).energy, (t.pkg 0).note)) =
      some (160, true, 30100, 16) ∧
    ((events (pod id) [.powerCapWrite 0 149]).map fun t => (t.die 0).cap) = some 0 := by decide +kernel

/-- The host's accesses (R332), DRAM errors (R360). -/
theorem test_host_access :
    ((events (pod id) [.hostAccess (.write 0x1000 [1, 2]), .hostAccess (.read 0x1000 3)]).map fun t => t.hostRead) = some [1, 2, 0] ∧
    ((events (pod id) [.hostAccess (.writeHost 0x1000 [7])]).map fun t => (memGet t.hostMem 0x1000, t.mem.length)) = some (7, 0) ∧
    ((events (pod id) [.dramError 0x1000 true]).map fun t => (t.poison, (t.spire 0).poisoned)) = some ([0x40], 1) ∧
    (pod id).reachable (2 ^ 47) = false := by decide +kernel

/-- A partition of three packages with a root; a reset of die 0 without a manifest retires its package. -/
theorem test_partition :
    ((events (mach (streaming [owed0 0x20000])) [.partitionFormed 3 [(0, 5, 0x100000)]]).map fun t => (t.nPkg, (t.stream 0 2).ops.length, look (t.die 0).roots 5)) =
      some (3, 0, some 0x100000) ∧
    ((events (mach {}) [.dieReset 0 []]).map fun t => (t.wgs.length, (t.die 0).up, t.retired, (t.die 0).termIdx)) = some (0, false, [0], 1) := by decide +kernel

/-! ### Clauses at their edges -/

/-- A `TST` of the warp in the engine's queue: its traps wait for it (R251, R437). -/
def storing0 (m : Mod := {}) : Mod := { m with c := fun c => m.c { c with
  engq := [⟨0, wid0, 0, .tst bareHd (.t 0) (.s 4) (.s 5) 0, lowLanes 32, [0x4103, 0x100, 8], [], [], 0⟩] } }

theorem test_trap_waits :
    (mach (storing0)).storing 0 wid0 0 = true ∧ met (storing0) (.trap bareHd 3) = true ∧
    (after (storing0) (.trap bareHd 3)).map (fun t => ((warp0 t).hmode, (warp0 t).front.map (·.pc))) = some (false, [0x10000]) := by
  decide +kernel

/-- Hypotheses of SpecialRegisterReads and of the register blocks with no lane on, and a block of a size that there is not. -/
theorem test_off_hypotheses :
    met { rc := blocks } (.xtry bareHd (.s 0) 64) (fun x => x.on != 0 && x.xbad 64) = true ∧
    met { rc := blocks } (.xtry offHd (.s 0) 32) (fun x => x.on == 0) = true ∧
    ([.atl offHd mm0 .add false .n32 (.v 2) (.v 0) (.v 1) (.v 3), .atg offHd mm0 .add true .n32 (.v 0) (.s 4) (.v 0) (.v 3),
      .stash offHd 0 (.s 4) (.s 6) (.s 7), .stfl offHd true 0, .stinv offHd false 0, .l1inv offHd].map fun i => met {} i fun x => x.on == 0) =
      List.replicate 6 true := by decide +kernel

/-- Hypotheses of LinesAreRead's causes: a misaligned lane; a page of host bias, of another class, on another die; poison. -/
theorem test_fxcvt_causes :
    let i : Instr := .fxcvt bareHd false .f32 false (.v 6) (.s 4) (.v 0) 0
    let ea (x : Ix) (l : Nat) : Nat := x.gaddr (.s 4) (.v 0) 0 l
    met (based 0x30000 { w := regs [(0, 5, 32)] [] }) i (fun x => (x.computing (.v 6)).filter (fun l => ea x l % 64 != 0) == [5]) = true ∧
    ([(0x20000, [], 4), (0x30000, [3], 4), (2 ^ 44, [], 5)].map fun p =>
      met (based p.1 { c := fun c => { c with tlb := ⟨0, 2 ^ 44, ⟨2 ^ 44, 65536, false, false, 1, false, true⟩⟩ :: c.tlb }
                       s := fun s => { s with bias := p.2.1 } }) i fun x =>
        (lineCause x.s x.g.core (ea x 5) (x.xlate (ea x 5))).any fun r => r.1 == p.2.2) = [true, true, true] ∧
    met (based 0x30000 { s := fun s => { s with poison := [0x30000 / 64] } }) i (fun x =>
      clearB x ((x.computing (.v 6)).map fun l => (l, ea x l, 64)) (lineCause x.s x.g.core) && x.s.poisoned 0x30000 64) = true ∧
    met (based 0x30000 { s := fun s => { s with poison := [0x30000 / 64] } }) (.fxcvt bareHd false .f32 false (.s 6) (.s 4) (.imm 0) 0) (fun x =>
      (x.computing (.s 6)).length == 1 && x.named (.s 6) [0] == 0xFFFFFFFF) = true := by decide +kernel

/-- A partner that has not come yet: an access to its area waits (07 R188). -/
theorem test_local_wait :
    ([.ldl bareHd mm0 .n32 (.v 2) (.v 0) (.v 1) 0, .stl bareHd mm0 .n32 (.v 2) (.v 0) (.v 1) 0].map fun i =>
      met { rc := { rec0 with gx := 4, det := 1 }, w := regs ((List.range 32).map fun l => (0, l, 0x40100000)) [] } i fun x =>
        x.reach (x.laddr (.v 0) (.v 1) 0 3) 4 == .wait) = [true, true] := by decide +kernel

/-- Quantum and spec reads (14 R340), as `.or` of zero: of a location that held another value, one of the two. -/
theorem test_once_hypotheses :
    let past : Mod := { g := fun g => { g with mem := [(0, 9)] }, s := fun s => { s with past := [⟨some wid0, 0, [7, 0, 0, 0], none, false⟩] } }
    ([Use.quant, .spec].map fun u => reaching past (.atl bareHd ⟨.warp, .rlx, u⟩ .or false .n32 (.v 2) (.v 0) (.v 1) (.imm 0)) fun x =>
      x.lanes.map fun l => (l, x.laddr (.v 0) (.v 1) 0 l, 4)) = [true, true] ∧
    before [⟨some wid0, 0, [7, 0, 0, 0], none, false⟩] (some wid0) 0 [9, 0, 0, 0] = [7, 0, 0, 0] ∧
    before [⟨some wid0, 1, [7], none, false⟩] (some wid0) 0 [9, 1, 0, 0] = [9, 7, 0, 0] ∧
    (after past (.atl bareHd ⟨.warp, .rlx, .quant⟩ .or false .n32 (.v 2) (.v 0) (.v 1) (.imm 0))).map (fun t => t.lread wid0 0 4) =
      some [9, 0, 0, 0] := by decide +kernel

/-- `PREF` to a page that needs a walk. -/
theorem test_pref_walk :
    met (based 0xA0000) (.pref bareHd (.s 4) (.v 0) 0) (fun x => x.lanes.all fun l => x.xlate (x.gaddr (.s 4) (.v 0) 0 l) == .miss) = true ∧
    (after (based 0xA0000) (.pref bareHd (.s 4) (.v 0) 0)).map (fun t => ((warp0 t).hold.map (·.wait), (t.die 0).walks.length)) =
      some (some .walk, 1) := by decide +kernel

/-- A warp in an `STINV` of a window, or in one of all, with write-backs under way in two windows. -/
def flushing (all : Bool) (l : StashLine) : State :=
  holding { g := fun g => { g with stash := [(0, ⟨0x20000, 0x100, 256, [(1, l)]⟩), (2, ⟨0x30000, 0x300, 256, [(0, ⟨true, false, 0x30000, true⟩)]⟩)] } }
    (.stinv bareHd all 0) .wb

/-- Acknowledged, a line that `STINV` covers goes; the warp goes on once nothing that it covers is under way (R192, R205, R206). -/
theorem test_write_backs :
    ([(false, true), (true, true), (false, false)].map fun p =>
      (events (flushing p.1 ⟨true, false, 0x20080, p.2⟩) [.writeBackComplete wid0 0 1]).map fun t =>
        ((look t.wgs wid0).map fun g => g.stash.map fun q => q.2.lines.length, (warp0 t).hold.isSome)) =
      [some (some [0, 1], false), some (some [0, 1], true), some (some [0, 1], false)] ∧
    ((events (flushing false ⟨true, false, 0x20080, true⟩) [.writeBackComplete wid0 2 0]).map fun t =>
      ((look t.wgs wid0).map fun g => g.stash.map fun q => q.2.lines.map fun l => l.2.wb, (warp0 t).hold.isSome)) =
      some (some [[true], [false]], true) := by decide +kernel

/-- A saved partner's barrier: the arrival and its bytes are added to its redirect record (R448). -/
theorem test_saved_partner :
    let w1 := wid0 + 1
    let g : Wg := Wg.start { rec0 with det := 1, gx := 4 } 1 1 0 0 [0]
    let m : Mod := { rc := { rec0 with det := 1, gx := 4 }, w := regs [] [(6, 0x503)]
                     s := fun s => { s with wgs := s.wgs ++ [(w1, { g with st := .saved, off := true, image := some ⟨0, 0x200000, 0x8000, []⟩ })] } }
    met m (.barv bareHd false (.s 0) (.s 6) (.imm 1) (.imm 0)) (fun x => x.partnerOf 1 == .saved w1 && x.u32 (.s 6) == 0x503) = true ∧
    (after m (.barv bareHd false (.s 0) (.s 6) (.imm 1) (.imm 0))).map (fun t => ((warp0 t).sget 0, t.mem.length)) = some (0, 1) := by
  decide +kernel

/-- A gather of lane 0's row, of a base, in superstep mode at the scope of the die. -/
def strayAt (base : Nat) (list : Bool) : Mod :=
  { phased (sealed 1 (bytesOfNat 8 base ++ rows0.drop 8)) with
    g := fun g => { g with mem := memWrite [] 0x10 (bytesOfNat 4 1 ++ bytesOfNat 4 0) }
    w := fun w => regs ((List.range 31).map fun l => (4, l + 1, 0xFFFFFFFF)) [(10, 0x1000), (11, 0x10)]
      ((sealed 1 (bytesOfNat 8 base ++ rows0.drop 8)).w w) }

/-- 17 R413: a row on another die, and one that ends there, trap PHASE_STATE; one of the own die is posted. -/
theorem test_strays :
    ([0x20000, 0x70000, 0x6FF80].map fun b => [false, true].map fun list => (after (strayAt b list)
      (.gath bareHd list true 2 none (.imm 3) (.s 10) (if list then .s 11 else .v 4) (.s 8))).map fun t =>
        ((warp0 t).hmode, (look t.wgs wid0).map (·.cmds.length))) =
      [[some (false, some 1), some (false, some 1)], [some (true, some 0), some (true, some 0)],
       [some (true, some 0), some (true, some 0)]] := by decide +kernel

/-- Rows away: one asked for, whose replies are there; its 64 us (R238). -/
theorem test_late_rows :
    let w (since : Nat) : RowWait := ⟨[3], 0, since, 0x500⟩
    let s := mach (posted { cmd0 gather0 true [] with far := [(1, w 1)] } { c := fun c => { c with reply := [(3, ⟨wid0, 0, 1, some (zeros 256), false⟩)] } })
    (s.rowReplies (w 1)).isSome = true ∧ s.areaThere wid0 0x1100 = true ∧
    ([(0, 63999), (1, 63999), (1, 64000)].map fun p => (w p.1).late p.2) = [false, false, true] ∧
    ([63999, 64000].map fun n => (events { s with time := n } [.gatherRowTimeout wid0 0 1]).map fun t => (t.cmd? wid0 0).map fun q => q.2.1.far.length) =
      [some (some 1), some (some 0)] := by decide +kernel
/-- What ends a workgroup that has no handler: the cause and the fault address in its termination record (R441, R480). -/
def unhandled (m : Mod) (i : Instr) : Option (Nat × Nat) :=
  (after { m with rc := { m.rc with handler := 0 } } i).bind fun t => (look (t.die 0).term 0).map fun r => (fld r 16 1, fld r 32 8)

/-- 10 R257: a misaligned address and a misaligned pitch; a run that leaves the area, at its first byte outside. -/
theorem test_tile_causes :
    ([(0x102, 8), (0x100, 6), (0x3FF8, 8), (0x3FFC, 8)].map fun p =>
      unhandled (s456 p.1 p.2 0 (tiled [(0, 0x4103, [])])) (.tst bareHd (.t 0) (.s 4) (.s 5) 0)) =
      [some (0x33, 0x102), some (0x33, 0x106), some (0x34, 0x4000), some (0x34, 0x4000)] ∧
    unhandled (s456 0x100 8 0 (tiled [(0, 0x4103, [])])) (.tld bareHd .tr8 (.t 0) (.s 4) (.s 5) 0) = some (0x33, 0x100) := by
  decide +kernel

/-- 02 R51: products in one group, and a second group added to it; a product of zero and infinity makes the sum NaN, with IV. -/
theorem test_engine_sums :
    engineSum .bf16 0 0 2 true 0x3F800000 [(0, 0x4000, 0x4040), (1, 0x3F80, 0x3F80)] = (0x41000000, 0) ∧
    engineSum .bf16 0 0 17 true 0x3F800000 [(0, 0x4000, 0x4040), (16, 0x3F80, 0xBF80)] = (0x40C00000, 0) ∧
    (engineSum .bf16 0 0 1 true 0 [(0, 0, 0x7F80)]).1 = 0x7FC00000 ∧
    (engineSum .bf16 0 0 1 true 0 [(0, 0, 0x7F80)]).2.getLsbD 0 = true := by decide +kernel

/-- `SEQST` with no lane on; `MMSEQ` of a tensor that is misaligned, and one whose last bytes lie outside the area. -/
theorem test_mmseq_edges :
    (iss (sequencing (seq0 true 5 640)) (.seqst offHd true true (.s 20))).any (fun x => x.on == 0) = true ∧
    ([local0 0x102 64 4 7 2 128, local0 0x3F00 64 4 7 2 128].map fun bs =>
      unhandled (sealed 1 bs) (.mmseq bareHd false none 0 0 .bf16 (.a 0) (.s 8) (.s 8))) =
      [some (0x44, 0x00010005), some (0x34, 0x4000)] := by decide +kernel

/-- `ADRU.axpy`: w + eta * g of 1, 2 and 0.5 (R281); `ASCA`: 3 * 2 * 4 added to 1 (R282). -/
theorem test_adru :
    (engine (atEngine (.adru bareHd .axpy true false .f32 false (.a 1) (.s 8) (.s 12)) [5, 0x40000000, 0]
      (accs0 [(1, .f32, [(0, 0x3F000000)])] { g := fun g => { g with mem := memWrite [] 0x100 [0, 0, 0x80, 0x3F] } })
      [tensorOf (local0 0x100 1 1 4 4 4)])).map (fun t => (t.lread wid0 0x100 4, (warp0 t).flg)) = some ([0, 0, 0, 0x40], 0) ∧
    (let s := atEngine (.asca bareHd false (.a 0) (.a 1) (.s 12)) [5, 6, 0x200, 0x240] (accs0 [(0, .f32, [(0, 0x3F800000)]), (1, .i32, [(0, 3)])]
      { g := fun g => { g with mem := [(0x200, 128), (0x240, 129)] } })
     headB s = true ∧ (s.core 0).engq.any (fun j => j.p 0 / 4 == 1) = true) := by decide +kernel

/-- `SPLIT` of two values in two slices, its exponent at s9's address (R286); `RECOMB` adds to a pair (R288). -/
theorem test_split_engine :
    (engine (atEngine (.split bareHd 2 false (.t 0) (.s 8) (.s 9)) [0x10]
      { g := fun g => { g with mem := memWrite (memWrite [] 0x106 [8, 0x40]) 0x108 [0x66, 0x66, 0x66, 0x66, 0x66, 0x66, 0xE6, 0xBF] } }
      [tensorOf (local0 0x100 2 1 5 8 16)])).map (fun t => (t.lread wid0 0x10 4, (look t.wgs wid0).map fun g =>
        [0, 1].map fun k => (memRead (g.tile k).bytes 0 2).map fun b => asSigned 8 b.toNat)) = some ([2, 0, 0, 0], some [[96, -22], [0, -51]]) ∧
    (engine (atEngine (.recomb bareHd 2 0 (.v 8) (.a 1) (.s 12)) [5, 0, 0x10, 0x20]
      (accs0 [(1, .i32, [(0, 1664)])] { g := fun g => { g with mem := [(0x10, 2), (0x20, 1)] } }))).map (fun t =>
        (warp0 t).vpair 8 0) = some 0x3FEA000000000000 := by decide +kernel

/-- Position 0 of a quad of one: its partners do not take part, so it adds zeros twice; then it stores the output (R284, R285). -/
def reducing (steps : Nat) : State := mach {
  rc := { rec0 with det := 1, loc := 0x8000 }
  g := fun g => { g with mem := [(2, 0xC0), (3, 0x3F)], aqs := [⟨1, 9, 0, .aqred bareHd true false 0 .rne .bf16 false (.a 1) (.imm 0) (.s 8), 0,
    some (tensorOf (local0 0x4000 2 1 7 2 4)), 0, steps, 8⟩] } }

theorem test_aqred_step :
    (look (reducing 0).wgs wid0).map (fun g => (reducing 0).partSum g 1 1 0) = some .zeros ∧
    ((events (reducing 2) [.aqredStep wid0]).map fun t => (t.lread wid0 0x4000 4, (look t.wgs wid0).map fun g => g.aqs.length, (warp0 t).flg)) =
      some ([0xC0, 0x3F, 0, 0], some 0, 8) := by decide +kernel
/-- Keys whose home among 64 buckets is 45 (R295): numbers that the hash takes to 45 * 2^58 and the numbers after it. -/
def homed45 (i : Nat) : BitVec 64 := BitVec.ofNat 64 (0xE101C0290E88972B * (45 * 2 ^ 58 + i))

/-- The 32 buckets from 45 on, full of such keys. -/
def full45 : Tab KeyVal := sortOn (·.1) ((List.range 128).map fun i => (4 * ((45 + i / 4) % 64) + i % 4, (homed45 i, 7)))

/-- Lane 0 alone, with such a key in v4-v5. -/
def keyedOne (i : Instr) (ov : Option Overflow) (ovfn : Nat) (slots : Tab KeyVal) (key : BitVec 64) (m : Mod := {}) : State :=
  let w : Warp → Warp := fun w => regs [(4, 0, key.setWidth 32), (5, 0, (key >>> 32).setWidth 32), (6, 0, 3)] [] { w with p := [(1, 1)] }
  let g : Wg → Wg := fun g => { g with claim := some ⟨0, 64, .add, 0, ov, 0, slots, ovfn, false⟩ }
  holding { m with w := w, g := g, c := fun c => { c with carve := { c.carve with key := 1 }, keyq := [⟨0, wid0, 0, i, []⟩] } } i .keyed

/-- An insert into a claim whose buckets within reach are full: an entry spills (R297, R298), and with no list traps. -/
theorem test_key_full :
    (keyInsert 64 full45 (homed45 128, 3)).2.isSome = true ∧ homeBucket 64 (homed45 128) = 45 ∧
    ((events (keyedOne (.kins hd1 (.p 1) (.v 4) (.v 6)) none 0 full45 (homed45 128)) [.keyedApply 0]).map fun t =>
      ((warp0 t).hmode, (t.core 0).keyq.length)) = some (true, 0) := by decide +kernel

/-- A list of 16 records at 0x20000, its count word at 0x20100, with one record: key 32 and value 5. -/
def list0 : Overflow := ⟨0x20000, 0x20100, 16⟩
def listMem : Mem := [(0x20000, 32), (0x20008, 5), (0x20100, 1)]

/-- A key that the list holds is found, deleted or combined there; a poisoned record is a cause (R298, R299, R360). -/
theorem test_key_list :
    let run (i : Instr) : Option State := events (keyedOne i (some list0) 1 [] 32 { s := fun s => { s with mem := listMem } }) [.keyedApply 0]
    (run (.kprb hd1 (.v 8) (.v 4) (.p 1))).map (fun t => ((warp0 t).vget 8 0, (warp0 t).pget 1)) = some (5, 1) ∧
    (run (.kacc hd1 .i32 (.v 4) (.v 6))).map (fun t => memNat t.mem 0x20008 8) = some 8 ∧
    (run (.kdel hd1 (.p 1) (.v 4))).map (fun t => ((warp0 t).pget 1, memNat t.mem 0x20000 8)) = some (1, 2 ^ 64 - 1) ∧
    (run (.kins hd1 (.p 1) (.v 4) (.v 6))).map (fun t => (warp0 t).pget 1) = some 0 ∧
    ((keyedOne (.kprb hd1 (.v 8) (.v 4) (.p 1)) (some list0) 1 [] 32 { s := fun s => { s with mem := listMem, poison := [0x20000 / 64] } }).keyRead 0 0 0x20000 8
      |> fun r => match r.1 with | .error c => c | .ok _ => ((0, 0), 0)) = ((6, 0x38), 0x20000) := by decide +kernel

/-- Hypotheses of the clauses on spills: the count word's index below the capacity and at it; the places of word and record. -/
theorem test_key_spill :
    ([1, 16].map fun n => heldIs ((keyedOne (.kins hd1 (.p 1) (.v 4) (.v 6)) (some { list0 with cap := 16 }) 0 full45 (homed45 128)
        { s := fun s => { s with mem := [(0x20100, BitVec.ofNat 8 n)] } }).modCore 0 fun k => { k with keyq := [] }) fun h x =>
      h.wait == .keyed && x.lanes == [0] && !x.logs && !x.orders && x.g.claim.any (fun c => !x.listFlips c) &&
        (match (x.s.keyRead 0 0 0x20100 8).1, (x.s.keyPa 0 0 0x20100).1, (x.s.keyPa 0 0 (0x20000 + 16 * n)).1 with
         | .ok v, .ok p, .ok q => v == n && p == 0x20100 && q == 0x20000 + 16 * n
         | _, _, _ => false)) = [true, true] := by decide +kernel

/-- A drain that cannot read the list's record counts on its barrier with `F` (R305, R359). -/
theorem test_drain_fault :
    (events (mach (claimed .add [(180, (1, 8))] {
        c := fun c => { c with keyq := [⟨0, wid0, 0, .kdrn bareHd true (.imm 0) (.s 6) (.s 7), [0, 0x100, 2]⟩] }
        s := fun s => { { s with mem := listMem, poison := [0x20000 / 64] } with wgs := s.wgs.map fun p =>
          (p.1, { p.2 with claim := p.2.claim.map fun c => { c with ov := some list0, ovfn := 1 }, bars := [(0, ⟨1, 0, 0, 5, false, false, false⟩)] }) } }))
      [.keyedApply 0]).map (fun t => ((look t.wgs wid0).map fun g => (g.bar 0).pf, natOfBytes (t.lread wid0 0x100 4))) = some (some true, 1) := by
  decide +kernel

/-- `GIDX` of a level that there is not; a `GLD` with no lane on; one that waits for a page in flip. -/
theorem test_grid_edges :
    met (grids 0x30000) (.gidx hd1 true (.v 10) (.s 8) (.v 4) 2) (fun x => x.on != 0) = true ∧
    met (grids 0x30000) (.gld offHd false (.v 10) (.s 8) (.v 4)) (fun x => x.on == 0) = true ∧
    ((after (grids 0x30000) (.gld hd1 false (.v 10) (.s 8) (.v 4))).bind fun t =>
      (events { t with flips := [⟨0x20000, 65536, true, none, 0⟩] } [.gridComplete 0]).map fun u => (u.core 0).gridq.length) = some 1 := by
  decide +kernel

/-- `BFLIP` while an operation of its warp is owed is not issued (R350); with no lane on, it and `FENCE` only advance. -/
theorem test_bflip_owed :
    met (streaming [owed0 (2 ^ 44)] (biased false { w := fun w => { w with rseq := 1 } })) (.bflip bareHd true (.s 2) (.s 4)) (fun x => !x.allAcked) = true ∧
    (after (streaming [owed0 (2 ^ 44)] (biased false { w := fun w => { w with rseq := 1 } })) (.bflip bareHd true (.s 2) (.s 4))).map (fun t =>
      (t.flips.length, (warp0 t).front.map (·.pc))) = some (0, [0x10000]) ∧
    ([.bflip offHd true (.s 2) (.s 4), .fence offHd ⟨.pkg, .ar, .ord⟩ true false false].map fun i => met {} i fun x => x.on == 0) = [true, true] := by
  decide +kernel
/-- A read request of two words from an address, into 0x40008, counted at 0x50008. -/
def request0 (h : Hd) (src : Nat) : Option (Mod × Instr) :=
  some ({ w := fun w => regs ((List.range 32).map fun l => [(8, l, BitVec.ofNat 32 src), (10, l, 0x40008), (12, l, 0x50008)]).flatten [] { w with p := [(1, 1)] } },
    .rreq h false 2 (.v 10) (.v 8) (.v 12))

/-- A run that goes on in the next page of the same frame, one whose next page lies elsewhere, and a misaligned address of one lane
(R383, log 54). -/
theorem test_request_pages :
    ([0x3FFF8, 0x7FFF8].map fun a => (request0 hd1 a).bind fun q => (after q.1 q.2).map fun t =>
      ((t.die 0).streams.map fun p => p.2.ops.map (·.rest)).flatten) = [some [none], some [some 0x80000]] ∧
    (request0 hd1 0x20004).any (fun q => met q.1 q.2 fun x => x.lanes == [0] && x.rd64 (.v 8) 0 % 8 == 4) = true ∧
    ([.rreq offHd false 1 (.v 10) (.v 8) (.v 12), .radd offHd false .i64 (.v 6) (.s 4) (.imm 0) 0].map fun i => met {} i fun x => x.on == 0) =
      [true, true] := by decide +kernel

/-- A home reads both parts of such a run (R383). -/
theorem test_request_parts :
    let m := message (52 * 2 ^ 54) 0x2FFF8 7 (bytesOfNat 8 0x40008 ++ bytesOfNat 8 0x50008 ++ [2])
    let s : State := { atHome [m] ⟨0, 0⟩ [(0x2FFF8, 9), (0x80000, 7)] with
      dies := [(13, { Die.reset with streams := [(0, ⟨1, [⟨0, m, some 0, 0, .warp wid0 0 0 0, none, none, some 0x80000⟩], []⟩)] })] }
    (s.stream 52 0).ops.length = 1 → s.reqParts 0 m = [(0x2FFF8, 8), (0x80000, 8)] := by decide +kernel

/-- STREAM_STALL 10 ms after an operation found no room (R371); not once its acknowledgements are there (R430). -/
theorem test_stall :
    let x : Send := ⟨0x20000, 0, 2, 0, false, false, none, zeros 8, none⟩
    ([9999999, 10000000].map fun n => (events { waits0 0 (.room [x] false) (.radd bareHd false .i64 (.v 6) (.s 4) (.imm 0) 0) with time := n }
      [.streamStall wid0 0]).map fun t => (warp0 t).hmode) = [some false, some true] ∧
    ((events { holding {} (hbar0 2) .acks with time := 10 ^ 8 } [.streamStall wid0 0]).map fun t => (warp0 t).hmode) = some false ∧
    heldIs (holding {} (hbar0 2) .acks) (fun h x => h.wait == .acks && x.allAcked) = true := by decide +kernel

/-- An arrival that a full node keeps, one whose warp is in its handler, and one whose warp has an instruction in progress (R407). -/
theorem test_arrival_waits :
    let full : State := { mailed 2 [] with nets := (List.range 64).map fun k => ⟨k + 1, 0, 4, 0, 2, false, [(k, 0, 0)], [], [0], none⟩ }
    ((events full [.networkArrival 0]).map fun t => (t.netMail.length, t.nets.length)) = some (1, 64) ∧
    ((events ((mailed 3 []).modWarp wid0 0 fun w => { w with hmode := true }) [.networkArrival 0]).map fun t => t.netMail.length) = some 1 ∧
    ((events (mailed 3 []) [.networkArrival 0]).map fun t => (t.netMail.length, (warp0 t).hmode)) = some (0, true) := by decide +kernel

/-- A replay goes past an entry of a workgroup that the kernel has not; with no event waiting, the unit does so by itself (R427). -/
theorem test_replay :
    let idle : State := { logged true false 0 5 0 with wgs := (logged true false 0 5 0).wgs.map fun p =>
      (p.1, { p.2 with warps := p.2.warps.map fun q => (q.1, { q.2 with hold := none }) }) }
    (logged true false 0 5 0).memWf = true ∧
    ([logged true false 0 5 0, idle].map fun s => (events s [.loggedEvent wid0 0]).map fun t => ((t.die 0).log.div, (t.die 0).log.rend, memNat t.mem 0x50100 4)) =
      [some (true, false, 1), some (true, false, 1)] ∧
    (idle.held wid0 0).isNone = true := by decide +kernel

/-- `DBG.brk` traps DBG_BREAK in every thread (R457). -/
theorem test_brk :
    (unhandled {} (.dbg bareHd .brk (.v 0) (.v 0) 7)).map (·.1) = some 0x0A ∧
    (after {} (.dbg bareHd .step (.v 0) (.v 0) 0)).map (fun t => (warp0 t).step) = some true := by decide +kernel

/-- A workgroup that is over writes back its window's line, waits for the acknowledgement, and retires (R182, R193). -/
theorem test_retire_stash :
    let s (l : StashLine) := mach { window l with w := fun w => { w with live := 0, front := [] } }
    ([⟨true, true, 0x20080, false⟩, ⟨true, false, 0x20080, true⟩, ⟨true, false, 0x20080, false⟩].map fun l => (events (s l) [.workgroupRetire wid0]).map fun t =>
      t.wgs.map fun p => p.2.stash.map fun p => p.2.lines.map fun q => (q.2.dirty, q.2.wb)) =
      [some [[[(false, true)]]], some [[[(false, true)]]], some []] := by decide +kernel

/-- A workgroup that finds no place in the pool goes on, and is not asked for again (R445). -/
theorem test_no_place :
    ((events (mach (stopping 0x1000)) [.preemptSave wid0]).map fun t => (look t.wgs wid0).map fun g => (g.st, g.stopAt, g.unfit)) =
      some (some (.running, none, true)) := by decide +kernel

/-- `LAUNCH` of a record of mode D2 with a live order log, a stale one, and one of another kind (R212). -/
theorem test_launch_log :
    let bs (h : Nat) : List Byte := (launch0 0).take 0x17 ++ [9] ++ ((launch0 0).drop 0x18).take 0x20 ++ bytesOfNat 4 h ++ zeros 4
    let m (h : Nat) : Mod := { sealed 4 (bs h) with d := fun d => { d with handles := [(0, [(1, ⟨5, true, false, 4, bs h⟩),
      (2, ⟨5, true, false, 6, bytesOfNat 8 0x51000 ++ bytesOfNat 8 0x50100 ++ bytesOfNat 8 64 ++ zeros 8⟩)])] } }
    (launchOf (bs 0x00020005)).det = 2 ∧ (launchOf (bs 0x00020005)).olog = 0x00020005 ∧
    ([0x00020005, 0x00020004, 0x00010005].map fun h => (iss (m h) (.launch bareHd (.s 0) (.s 8))).map fun x =>
      match x.handle h 6 with | .ok _ => 0 | .error e => e) = [some 0, some 0x40, some 0x41] ∧
    (unhandled (m 0x00020004) (.launch bareHd (.s 0) (.s 8))).map (·.1) = some 0x40 := by decide +kernel

/-- A flit is heard by the lane of the port that stands on its channel, of another number too (R387). -/
theorem test_listener :
    let s := (linked (message 0 (2 ^ 46) 0 (zeros 8))).modLane 1 1 fun x => { x with rx := { x.rx with ch := 3 } }
    let t := s.modLane 1 2 fun x => { x with rx := { x.rx with ch := 1 } }
    ([s, t].map fun s => (events s [.flitSend 0 1 0]).map fun t => (t.pkg 1).air.map (·.lane)) = [some [], some [2]] := by decide +kernel

/-- A slot while another package's lane is away on this one's light: the lanes that it does not touch stand on the entry's codes. -/
theorem test_slot_away :
    let s : State := { State.reset with nPkg := 2, time := 1000, pkgs := [(0, { scheduled Pkg.reset with slotMem := [(0, 100), (256, 100), (256 + 8 + 1, 1), (256 + 104 + 1, 1)] }), (1, Pkg.reset)] }
    let s := s.modLane 1 9 fun x => { x with stage := 3, mate := 0, spare := some 40, feed := some 41 }
    ((events s [.slotStart 0]).map fun t => ((t.lane 0 1).tx, (t.lane 0 1).rx, (t.lane 1 9).stage)) = some (⟨1, 1, 0xFF⟩, ⟨1, 1, 0xFF⟩, 3) := by
  decide +kernel

/-- A flit in the middle of an uncorrectable code word is lost; one that would begin a code word past the window's last waits (R396). -/
theorem test_code_words :
    let s (bits words : Nat) (unc : Bool) : State := ((linked []).modLane 1 1 fun x => { x with bits := bits, words := words, uncor := unc }).modPkg 1 fun p =>
      { p with air := [⟨0, 1, zeros 144⟩], key := none }
    ([(1152, 0, true), (1152, 0, false), (0, 16383, false), (0, 16384, false)].map fun q => (events (s q.1 q.2.1 q.2.2) [.flitReceived 1 1 0 3 false 0]).map fun t =>
      ((t.pkg 1).air.length, (t.lane 1 1).auth, (t.lane 1 1).words, (t.lane 1 1).cor)) =
      [some (0, 0, 0, 0), some (0, 1, 0, 0), some (0, 1, 16384, 1), some (1, 0, 16384, 0)] := by decide +kernel

/-- FIPS 180-4's example: SHA-512 of "abc". -/
theorem test_sha512 :
    natOfBytes (bytesOfNat 64 (sha512 [0x61, 0x62, 0x63]).toNat).reverse =
      0xDDAF35A193617ABACC417349AE20413112E6FA4E89A97EA20A9EEEE64B55D39A2192992A274FC1A836BA3C23A3FEEBBD454D4423643CE80E2A9AC94FA54CA49F := by
  decide +kernel

/-- Errors of DRAM (R360): poison, but not of a block that a window holds dirty; an address that no spire has is nothing (R353). -/
theorem test_dram :
    let s := mach (window ⟨true, true, 0x20080, false⟩)
    ([0x20080, 0x20100, 2 ^ 37].map fun a => (events s [.dramError a true]).map fun t => (t.poison, (t.spire 0).poisoned)) =
      [some ([], 1), some ([0x20100 / 64], 1), some ([], 0)] := by decide +kernel

/-- R31: the zero of a difference of unlike zeros, by mode. -/
theorem test_fsub_zero :
    ([(Rnd.rne, 0x80000000, 0), (.rp, 0x80000000, 0), (.rm, 0x80000000, 0), (.rm, 0, 0x80000000), (.rne, 0x80000000, 0x80000000)].map fun p =>
      lane0 p.2.1 p.2.2 (.fsub bareHd p.1 .f32 false (.v 12) (.v 4) (.v 5))) =
      [some 0, some 0, some 0x80000000, some 0x80000000, some 0] := by decide +kernel

/-! ### Hypotheses of the clauses on traps, replies, replays and retrained pairs -/

/-- `BKT` with no handle; with a misaligned entry; with a misaligned table, and one that is poisoned (R109). -/
theorem test_bkt_traps :
    let i : Instr := .bkt bareHd 9 (.s 8) (.v 0)
    let table1 : List Byte := bytesOfNat 8 0x20004 ++ bytesOfNat 4 2 ++ zeros 244
    let odd : Mod := sealed 3 table { s := fun s => { s with mem := [(0x20000, 2)] } }
    met {} i (fun x => match x.handle (x.u32 (.s 8)) 3 with | .error c => c == 0x40 || c == 0x41 | .ok _ => false) = true ∧
    met odd i (fun x => natOfBytes (x.bytesAt 0x20000 8) % 4 != 0 && x.lanes.all (fun l => x.rd32 (.v 0) l == 0)) = true ∧
    ([({} : Mod), odd, sealed 3 table1, sealed 3 table { s := fun s => { s with poison := [0x20000 / 64] } }].map fun m => (unhandled m i).map (·.1)) =
      [some 0x40, some 0x33, some 0x33, some 0x38] := by decide +kernel

/-- A remote update that is misaligned, of a page that is not writable, of another class and in a watch range; a line accumulator
whose parameter word is bad, and a signalling NaN that `FTE` traps (R378, R380, R457). -/
theorem test_remote_traps :
    let radd : Instr := .radd bareHd false .i64 (.v 6) (.s 4) (.imm 0) 0
    let rfxa : Instr := .rfxa bareHd false false false 0 .f32 (.v 6) (.s 4) (.imm 0) (.s 12)
    let watch : Mod := { w := fun w => { w with watchBase := 0x20000, watchLen := 8 } }
    ([(0x20004, ({} : Mod)), (0x80000, {}), (0x30000, {}), (0x20000, watch)].map fun p => (unhandled (based p.1 p.2) radd).map (·.1)) =
      [some 0x33, some 0x31, some 0x32, some 0x0C] ∧
    (unhandled (based 0x30000 { w := regs [] [(12, 0x100)] }) rfxa).map (·.1) = some 0x53 ∧
    (unhandled (based 0x30000 { w := fun w => { regs [(6, 0, 0x7F800001)] [(12, 5)] w with fte := 1 } }) rfxa).isSome = true ∧
    met (based 0x20000 watch) radd (fun x => (x.watched (x.lanes.map fun l => (l, 0x20000, 8))).isSome) = true := by decide +kernel

/-- A read request whose reply lies at a line's header, one whose page has no translation in the buffer, one whose counter is of another
class, and one of a watched source (R378, R383). -/
theorem test_request_traps :
    let m (src rep cnt : Nat) (w : Warp → Warp := id) : Mod :=
      { w := fun u => w (regs ((List.range 32).map fun l => [(8, l, BitVec.ofNat 32 src), (10, l, BitVec.ofNat 32 rep), (12, l, BitVec.ofNat 32 cnt)]).flatten [] u) }
    let i : Instr := .rreq bareHd false 1 (.v 10) (.v 8) (.v 12)
    ([m 0x20000 0x40000 0x50008, m 0x20000 0x40008 0x20008, m 0x20000 0x40008 0x50008 (fun w => { w with watchBase := 0x20000, watchLen := 8 })].map fun m =>
      (unhandled m i).map (·.1)) = [some 0x33, some 0x32, some 0x0C] ∧
    ((after (m 0xA0000 0x40008 0x50008) i).bind fun t => (warp0 t).hold).map (·.wait) = some .walk := by decide +kernel

/-- A home past which its source has given the operation up; host bias (R368). -/
theorem test_home_gone :
    let m := update 0 0 5
    let at_ (gone : List Nat) (bias : List Nat) : State :=
      { atHome [m] ⟨0, 0⟩ [] with dies := [(13, { Die.reset with streams := [(0, ⟨1, [], gone⟩)] })], bias := bias }
    ([at_ [0] [], at_ [] [], at_ [] [2]].map fun s => (events s [.applyRadd 0 0 0]).map fun t =>
      ((t.spire 0).inbox.length, (t.spire 0).wins.map fun w => w.2.base, memNat t.mem 0x20000 4, (t.queue 0 3).msgs.length)) =
      [some (0, [0], 0, 0), some (0, [1], 5, 1), some (0, [1], 0, 1)] := by decide +kernel

/-- A reply that comes too late leaves its line, whose arrival then frees it; an arrival of a row that is waited for marks it (R238). -/
theorem test_reply_lines :
    let reply := message (52 * 2 ^ 54) (2 ^ 43 + 3 * 2 ^ 7) 0x3F (bytesOfNat 8 9)
    let arrival := message (52 * 2 ^ 54) (2 ^ 43 + 3 * 2 ^ 7) (6 + 3 * 2 ^ 6) (bytesOfNat 8 1)
    let s (far : Bool) (m : List Byte) : State := mach (posted { cmd0 gather0 true [] with far := if far then [(1, ⟨[3], 0, 1, 0x500⟩)] else [] }
      { c := fun c => { c with reply := [(3, ⟨wid0, 0, 1, none, false⟩)] }, d := fun d => { d with replies := [m] } })
    (msgOk arrival = true ∧ msgIdx arrival ≠ 0x3F) ∧
    ([(true, reply), (false, reply), (true, arrival), (false, arrival)].map fun p => (events (s p.1 p.2) [.replyBufferWrite 0 0 0]).map fun t =>
      (look (t.core 0).reply 3).map fun r => (r.words.isSome, r.done)) =
      [some (some (true, false)), some (some (false, false)), some (some (false, true)), some none] := by decide +kernel

/-- Two warps in the keyed queue of a replay, the log naming the second: its `KPRB` takes its turn first (R301, R427). -/
def replayed (entry : Nat) : State :=
  let m := mode 2 (claimed .add [] (mapped { d := fun d => { d with log := { d.log with bound := some 1, rpl := true } } }))
  let i : Instr := .kprb bareHd (.v 8) (.v 4) (.p 1)
  let s := holding { m with rc := { rec0 with gx := 2, det := 2 }, c := fun c => { m.c c with keyq := [⟨0, wid0, 0, i, []⟩, ⟨1, wid0 + 1, 0, i, []⟩] } } i (.logged none)
  let h : Hold := ⟨{ cur0 with wid := wid0 + 1 }, i, 0, .keyed, []⟩
  { s with
    wgs := s.wgs.flatMap fun p => [p, (wid0 + 1, { p.2 with g := 1, warps := p.2.warps.map fun q => (q.1, { q.2 with hold := some h }) })]
    mem := memWrite (memWrite s.mem 0x50100 (bytesOfNat 4 0)) 0x51000 (bytesOfNat 8 entry) }

theorem test_key_replay :
    ([0, 1].map fun e => (events (replayed e) [.keyedApply 0]).map fun t => [0, 1].map fun g => ((t.warp? (wid0 + g) 0).bind (·.hold)).map (·.wait)) =
      [some [some (.logged none), some .keyed], some [some (.logged none), some (.logged none)]] ∧
    ((replayed 1).held (wid0 + 1) 0).any (fun p => p.2.logs && p.1.wait == .keyed && p.2.g.claim.isSome) = true := by decide +kernel

/-- A keyed instruction that made an act before its trap goes on with it made; another does not (R422, log 80). -/
theorem test_key_kept :
    let i : Instr := .kacc bareHd .i32 (.v 4) (.v 6)
    let m (pc : Pc) : Mod := claimed .add [] { w := fun w => { w with keyKept := some (pc, lowLanes 32, 2) } }
    ([0x10000, 0x1000C].map fun pc => (after (m pc) i).map fun t => ((warp0 t).keyMade, (warp0 t).hold.map (·.wait))) =
      [some (2, some .keyed), some (0, some .keyed)] ∧
    ((events (claimed .add [] { w := fun w => { w with keyMade := 2 } } |> fun m => mach { m with s := fun s => { s with cur := some cur0 } }) []).map fun t =>
      (warp0 (t.takeTrap cur0 (Trap.plain cKEY_STATE (lowLanes 32)))).keyKept) = some (some (0x10000, lowLanes 32, 2)) := by decide +kernel

/-- A write to the launch port that is malformed: counted at once, but behind a record that waits, with it (R461). -/
theorem test_port_waits :
    let full : State := { State.reset with dies := [(0, { Die.reset with pend := List.range 256 })] }
    let waits := (events full [.launchPortWrite 0 0 0 (record0 8)]).getD State.reset
    (waits.pkg 0).lpq.length = 1 ∧
    ([[1], record0 8].map fun bs => (events waits [.launchPortWrite 0 0 0 bs]).map fun t => ((t.pkg 0).bad, (t.pkg 0).lpq.map (·.2.length), (t.pkg 0).holdc)) =
      [some (0, [64, 0], true), some (0, [64, 64], true)] := by decide +kernel

/-- A resume zeroes the redirect records (R448): `savedAt` has none; a claim of the pool with four barriers has 64 bytes of them. -/
theorem test_resume_records :
    let m := (savedAt []).mem
    (savedAt []).poisoned 0x200000 0x3000 = false ∧ (memNat m (0x200010 + 48) 8 = 0x2100 ∧ memNat m (0x200010 + 56) 8 = 0x2500) := by decide +kernel

/-- Lane 1 of package 1 and the transmit lane of package 0 that it hears, in retraining, at a swap of package 1's tables (R399): both
stay out; they come back when the retraining ends, or fail. -/
theorem test_swap_keeps :
    let s0 := (linked []).modLane 1 1 fun x => { x with stage := 3, mate := 0, feed := some 1, rx := ⟨3, 1, 0xFF⟩ }
    let s := (s0.modLane 0 1 fun x => { x with tx := ⟨3, 1, 0xFF⟩ }).modPkg 1 fun p => { p with arm := true }
    let t := (events s [.tableSwap 1]).getD State.reset
    let last (win fails : Nat) := (events (t.modLane 1 1 fun x => { x with stage := 4, win := win, words := 16384, fails := fails }) [.fecWindowEnd 1 1]).map fun u =>
      ((u.lane 1 1).stage, (u.lane 1 1).kept, (u.lane 0 1).tx.st, (u.lane 1 1).rx.st)
    ((t.lane 1 1).kept, (t.lane 1 1).barred) = (some (0, 1), true) ∧ ((t.lane 0 1).tx.st = 3 ∧ (t.lane 1 1).rx.st = 3) ∧
    [last 891 0, last 892 2] = [some (0, none, 1, 1), some (0, none, 5, 5)] := by
  decide +kernel

/-- `CVT`, binary8 and block scales: types, a format and its largest value, a block of zeros, and one with a NaN (R38, R42). -/
theorem test_convert_hypotheses :
    fmtOk 3 = true ∧ (B8.ofCode 3).decode 0x7F = .fin false 15 4 ∧ (B8.ofCode 11).decode 0x7E = .fin false 14 4 ∧ Ty.f32.ew = 32 ∧
    f32.decode 0x7F800001 = .nan true ∧ f32.decode 0xFF800000 = .inf true ∧ f32.decode 0x3F800000 = .fin false 0x800000 (-23) ∧
    (mxScale (B8.ofCode 3) [.fin false 0 0] = some (0, -127) ∧ mxScale (B8.ofCode 3) [.nan false] = none) ∧
    Ty.f16x2.isFp = true ∧ 1 < Ty.f16x2.elems ∧ f32 ∈ [f16, bf16, f32, f64] := by decide +kernel

/-- A partition marks the lines that are waited for as done, and a package out of service stays so (R464). -/
theorem test_partition_keeps :
    (events { mach (posted { cmd0 gather0 true [] with far := [(1, ⟨[3], 0, 1, 0x500⟩)] } { c := fun c => { c with
        reply := [(3, ⟨wid0, 0, 1, none, false⟩), (4, ⟨wid0, 9, 1, none, false⟩)] } }) with retired := [2] } [.partitionFormed 3 []]).map (fun t =>
      (t.retired, (t.core 0).reply.map fun p => (p.1, p.2.done))) = some ([2], [(3, true)]) := by decide +kernel
end Sys2Proof.Tests
end

section
/-! PROOF of O3: the fetch of a word that lies on one page (R56, R3). The fetch checks its bytes as two runs, one on each page
that it may touch; when the word lies on one page the second run is empty, and all there is to see is that the empty run is
not poisoned where the first is not. -/

namespace Sys2Proof.Machine

/-- The end of a run of bytes within 64 KiB either follows its first byte as virtual addresses do, or is the end of the page,
whose offset is 0. -/
theorem Page.pa_end_of_run (p : Page) (a n : Nat) (hsize : p.size % 65536 = 0) (hrun : a % 65536 + n ≤ 65536) :
    p.pa (a + n) = p.pa a + n ∨ p.pa (a + n) = p.frame := by
  have hoff : a % p.size % 65536 = a % 65536 := Nat.mod_mod_of_dvd a (Nat.dvd_of_mod_eq_zero hsize)
  have hend : (a + n) % p.size = (a % p.size + n) % p.size := (Nat.mod_add_mod a p.size n).symm
  unfold Page.pa
  rcases Nat.eq_zero_or_pos p.size with hzero | hpos
  · simp only [hzero, Nat.mod_zero]
    omega
  · have hlt : a % p.size < p.size := Nat.mod_lt a hpos
    have hle : a % p.size + n ≤ p.size := by omega
    rcases Nat.lt_or_eq_of_le hle with hin | hout
    · rw [hend, Nat.mod_eq_of_lt hin]
      omega
    · rw [hend, hout, Nat.mod_self]
      omega

/-- A run is free of poison when no poisoned block meets it (R360). -/
theorem State.poisoned_eq_false_iff (s : State) (pa n : Nat) :
    s.poisoned pa n = false ↔ ∀ b ∈ s.poison, 64 * b < pa + n → 64 * b + 64 ≤ pa := by
  simp [State.poisoned]

/-- The empty run at a multiple of 64 meets no block. -/
theorem State.poisoned_empty_aligned (s : State) (pa : Nat) (h : pa % 64 = 0) : s.poisoned pa 0 = false :=
  (s.poisoned_eq_false_iff pa 0).2 fun b _ hb => by omega

/-- The empty run that ends a run free of poison meets no block either. -/
theorem State.poisoned_empty_at_end (s : State) (pa n : Nat) (h : s.poisoned pa n = false) : s.poisoned (pa + n) 0 = false := by
  rw [State.poisoned_eq_false_iff] at h ⊢
  intro b hb hlt
  have := h b hb hlt
  omega

/-- The same of a run on a page, whose end may be that of the page. -/
theorem State.poisoned_end_of_run (s : State) (p : Page) (a n : Nat) (hframe : p.frame % 65536 = 0) (hsize : p.size % 65536 = 0)
    (hrun : a % 65536 + n ≤ 65536) (h : s.poisoned (p.pa a) n = false) : s.poisoned (p.pa (a + n)) 0 = false := by
  rcases p.pa_end_of_run a n hsize hrun with hnext | hwrap
  · rw [hnext]
    exact s.poisoned_empty_at_end _ n h
  · rw [hwrap]
    exact s.poisoned_empty_aligned _ (by omega)

/-- The bytes of a word within one page of device memory are one run of it (R56). -/
theorem State.fetchBytes_within_page (s : State) (p q : Page) (a : Nat) (hrun : a % 65536 + 12 ≤ 65536) (hmem : p.hmem = false) :
    s.fetchBytes p q a = wordOfBytes (memRead s.mem (p.pa a) 12) := by
  have hlen : min 12 (65536 - a % 65536) = 12 := by omega
  simp [State.fetchBytes, State.gread, hlen, hmem, memRead]

/-- A page of code that may be executed raises no cause for a fetch (R359). -/
theorem Tr.cause_fetch_page (p : Page) (hx : p.x = true) : (Tr.page p).cause true false = none := by
  simp [Tr.cause, hx]

/-- A program counter that is not a multiple of 4 traps, whatever memory holds (R56). -/
theorem State.fetchWord_misaligned (s : State) (core ctx : Nat) (walked : Tab Walked) (pc : Pc) (h : pc.toNat % 4 ≠ 0) :
    s.fetchWord core ctx walked pc = .cause cMISALIGNED := by
  simp [State.fetchWord, h]

/-- A fetch whose first and last byte translate to one page of code is decided by flip and poison alone: of its two runs the
second is empty (R56, R350, R360). -/
theorem State.fetchWord_on_page (s : State) (core ctx : Nat) (walked : Tab Walked) (pc : Pc) (p : Page)
    (halign : pc.toNat % 4 = 0) (hrun : pc.toNat % 65536 + 12 ≤ 65536)
    (hfirst : s.xlate core walked ctx pc.toNat = .page p) (hlast : s.xlate core walked ctx (pc.toNat + 11) = .page p)
    (hx : p.x = true) (hcls : p.cls = 0) (hmem : p.hmem = false) :
    s.fetchWord core ctx walked pc =
      if s.inFlip (p.pa pc.toNat) then .wait
      else if s.poisoned (p.pa pc.toNat) 12 || s.poisoned (p.pa (pc.toNat + 12)) 0 then .cause cMEM_UNCORR
      else .word (s.fetchBytes p p pc.toNat) := by
  have hnowrap : (pc.toNat + 11) % 2 ^ 56 = pc.toNat + 11 := Nat.mod_eq_of_lt (by have := pc.isLt; omega)
  have hlen : min 12 (65536 - pc.toNat % 65536) = 12 := by omega
  simp only [State.fetchWord, hnowrap, hfirst, hlast, Tr.cause_fetch_page p hx]
  simp [halign, Tr.isMiss, hcls, hmem, hlen]

/-- Settles O3: on one page the fetch is decided by flip and poison, and its empty second run is free of poison with the
first. -/
theorem fetchOfAWord : Obligations.FetchOfAWord := by
  unfold Obligations.FetchOfAWord
  refine ⟨?_, State.fetchWord_misaligned⟩
  intro s core ctx walked pc pg halign hrun hframe hsize hfirst hlast hx hcls hmem hflip hpoison
  have hend := s.poisoned_end_of_run pg pc.toNat 12 hframe hsize hrun hpoison
  rw [s.fetchWord_on_page core ctx walked pc pg halign hrun hfirst hlast hx hcls hmem,
    s.fetchBytes_within_page pg pg pc.toNat hrun hmem]
  simp [hflip, hpoison, hend]

end Sys2Proof.Machine
end

section
/-! PROOF of O6 and O7: the decoder and the encoder (R55, R68, R70). A word of an assigned opcode is refused exactly with what
`checkWord` finds; an instruction's word carries its fields, and its fields build it again (`Laws.Encoding`). -/

namespace Sys2Proof

/-! ### The checks of a word, in their order (R68, steps 2 to 6) -/

section
variable {wc : Nat} {f : Fields}

/-- Step 2. -/
theorem checkWord_of_rsvBad (hrsv : rsvBad f (shape f) = true) : checkWord wc f = some .rsv := by
  simp [checkWord, hrsv]

/-- Step 3. -/
theorem checkWord_of_guardBad (hrsv : rsvBad f (shape f) = false) (hguard : guardBad f (shape f) = true) :
    checkWord wc f = some .guard := by
  simp [checkWord, hrsv, hguard]

/-- Step 4. -/
theorem checkWord_of_clsBad (hrsv : rsvBad f (shape f) = false) (hguard : guardBad f (shape f) = false)
    (hcls : clsBad f (shape f) = true) : checkWord wc f = some .cls := by
  simp [checkWord, hrsv, hguard, hcls]

/-- Step 5. -/
theorem checkWord_of_typeBad (hrsv : rsvBad f (shape f) = false) (hguard : guardBad f (shape f) = false)
    (hcls : clsBad f (shape f) = false) (htype : typeBad wc f (shape f) = true) : checkWord wc f = some .type := by
  simp [checkWord, hrsv, hguard, hcls, htype]

/-- Step 6. -/
theorem checkWord_of_modBad (hrsv : rsvBad f (shape f) = false) (hguard : guardBad f (shape f) = false)
    (hcls : clsBad f (shape f) = false) (htype : typeBad wc f (shape f) = false) (hmod : modBad wc f (shape f) = true) :
    checkWord wc f = some .mod := by
  simp [checkWord, hrsv, hguard, hcls, htype, hmod]

end

/-! ### The decoder -/

/-- A word of an unassigned opcode stands for itself (R70). -/
theorem decode_unassigned (wc : Nat) {w : BitVec 96} (hop : Op.ofCode (opcodeOf w) = none) :
    decode wc w = .ok (.unassignedOpcode w) := by
  simp [decode, hop]

/-- A word of an assigned opcode that fails a check is refused with it. -/
theorem decode_refused {wc : Nat} {w : BitVec 96} {o : Op} {e : Ill} (hop : Op.ofCode (opcodeOf w) = some o)
    (hcheck : checkWord wc (Fields.unpack o w) = some e) : decode wc w = .error e := by
  simp [decode, hop, hcheck]

/-- A word that passes the checks is the instruction that its fields build. -/
theorem decode_built {wc : Nat} {w : BitVec 96} {o : Op} {i : Instr} (hop : Op.ofCode (opcodeOf w) = some o)
    (hcheck : checkWord wc (Fields.unpack o w) = none) (hbuild : (Fields.unpack o w).build = some i) : decode wc w = .ok i := by
  simp [decode, hop, hcheck, hbuild]

/-- A word that decodes has passed the checks. -/
theorem checkWord_of_decode_ok {wc : Nat} {w : BitVec 96} {o : Op} {i : Instr} (hop : Op.ofCode (opcodeOf w) = some o)
    (hok : decode wc w = .ok i) : checkWord wc (Fields.unpack o w) = none := by
  cases hcheck : checkWord wc (Fields.unpack o w) with
  | none => rfl
  | some e =>
    rw [decode_refused hop hcheck] at hok
    cases hok

/-- Settles O7: `checkWord` asks the checks in their order, and the decoder refuses a word with what it finds. -/
theorem decodeRefusesInOrder : Obligations.DecodeRefusesInOrder := by
  unfold Obligations.DecodeRefusesInOrder
  intro wc w o hop f sh
  exact ⟨fun hrsv => decode_refused hop (checkWord_of_rsvBad hrsv),
    fun hrsv hguard => decode_refused hop (checkWord_of_guardBad hrsv hguard),
    fun hrsv hguard hcls => decode_refused hop (checkWord_of_clsBad hrsv hguard hcls),
    fun hrsv hguard hcls htype => decode_refused hop (checkWord_of_typeBad hrsv hguard hcls htype),
    fun hrsv hguard hcls htype hmod => decode_refused hop (checkWord_of_modBad hrsv hguard hcls htype hmod),
    fun _ => checkWord_of_decode_ok hop⟩

/-! ### The encoder -/

namespace Laws

/-- Every instruction is the one that its fields build; a step of another agent has none. -/
theorem Encoding.statement (i : Instr) : Encoding.Statement i := by
  match i with
  | .nop .. => apply Encoding.nop | .bra .. => apply Encoding.bra | .brx .. => apply Encoding.brx | .call .. => apply Encoding.call
  | .ret .. => apply Encoding.ret | .rjset .. => apply Encoding.rjset | .rjwait .. => apply Encoding.rjwait
  | .rjdrop .. => apply Encoding.rjdrop | .exit .. => apply Encoding.exit | .yield .. => apply Encoding.yield
  | .prio .. => apply Encoding.prio | .bkt .. => apply Encoding.bkt | .launch .. => apply Encoding.launch
  | .waitk .. => apply Encoding.waitk | .sleep .. => apply Encoding.sleep
  | .iadd .. => apply Encoding.iadd | .isub .. => apply Encoding.isub | .imul .. => apply Encoding.imul | .imulh .. => apply Encoding.imulh
  | .imad .. => apply Encoding.imad | .imadw .. => apply Encoding.imadw | .idiv .. => apply Encoding.idiv | .irem .. => apply Encoding.irem
  | .imin .. => apply Encoding.imin | .imax .. => apply Encoding.imax | .iabs .. => apply Encoding.iabs | .ineg .. => apply Encoding.ineg
  | .and .. => apply Encoding.and | .or .. => apply Encoding.or | .xor .. => apply Encoding.xor | .not .. => apply Encoding.not
  | .bool3 .. => apply Encoding.bool3 | .shl .. => apply Encoding.shl | .shr .. => apply Encoding.shr | .sar .. => apply Encoding.sar
  | .rot .. => apply Encoding.rot | .popc .. => apply Encoding.popc | .clz .. => apply Encoding.clz | .ctz .. => apply Encoding.ctz
  | .brev .. => apply Encoding.brev | .bfe .. => apply Encoding.bfe | .bfi .. => apply Encoding.bfi | .iset .. => apply Encoding.iset
  | .isel .. => apply Encoding.isel | .lea .. => apply Encoding.lea | .addc .. => apply Encoding.addc | .subb .. => apply Encoding.subb
  | .plop .. => apply Encoding.plop
  | .mov .. => apply Encoding.mov | .movi .. => apply Encoding.movi | .movh .. => apply Encoding.movh | .shfl .. => apply Encoding.shfl
  | .vote .. => apply Encoding.vote | .bcast .. => apply Encoding.bcast | .rdsr .. => apply Encoding.rdsr | .wrsr .. => apply Encoding.wrsr
  | .xacq .. => apply Encoding.xacq | .xrel .. => apply Encoding.xrel | .xtry .. => apply Encoding.xtry | .pmov .. => apply Encoding.pmov
  | .kmov .. => apply Encoding.kmov
  | .fadd .. => apply Encoding.fadd | .fsub .. => apply Encoding.fsub | .fmul .. => apply Encoding.fmul | .ffma .. => apply Encoding.ffma
  | .fmin .. => apply Encoding.fmin | .fmax .. => apply Encoding.fmax | .fabs .. => apply Encoding.fabs | .fneg .. => apply Encoding.fneg
  | .fcpys .. => apply Encoding.fcpys | .fdiv .. => apply Encoding.fdiv | .fsqrt .. => apply Encoding.fsqrt
  | .frcp .. => apply Encoding.frcp | .frsq .. => apply Encoding.frsq | .fexp2 .. => apply Encoding.fexp2
  | .flog2 .. => apply Encoding.flog2 | .fsin .. => apply Encoding.fsin | .fcos .. => apply Encoding.fcos | .fset .. => apply Encoding.fset
  | .fclass .. => apply Encoding.fclass | .fscale .. => apply Encoding.fscale | .frnd .. => apply Encoding.frnd
  | .fdot2 .. => apply Encoding.fdot2
  | .cvt .. => apply Encoding.cvt | .cvtb8 .. => apply Encoding.cvtb8 | .mxq .. => apply Encoding.mxq | .mxd .. => apply Encoding.mxd
  | .amax .. => apply Encoding.amax | .rng .. => apply Encoding.rng | .rngkey .. => apply Encoding.rngkey
  | .flgrd .. => apply Encoding.flgrd | .flgclr .. => apply Encoding.flgclr | .flgen .. => apply Encoding.flgen
  | .frmset .. => apply Encoding.frmset | .fxcvt .. => apply Encoding.fxcvt
  | .ldl .. => apply Encoding.ldl | .stl .. => apply Encoding.stl | .ldg .. => apply Encoding.ldg | .stg .. => apply Encoding.stg
  | .atl .. => apply Encoding.atl | .atg .. => apply Encoding.atg | .stash .. => apply Encoding.stash | .stfl .. => apply Encoding.stfl
  | .stinv .. => apply Encoding.stinv | .l1inv .. => apply Encoding.l1inv | .pref .. => apply Encoding.pref
  | .seal .. => apply Encoding.seal | .unseal .. => apply Encoding.unseal | .hqry .. => apply Encoding.hqry
  | .cpy .. => apply Encoding.cpy | .gath .. => apply Encoding.gath | .scat .. => apply Encoding.scat | .binit .. => apply Encoding.binit
  | .barv .. => apply Encoding.barv | .bexp .. => apply Encoding.bexp | .bwait .. => apply Encoding.bwait
  | .btest .. => apply Encoding.btest | .evmset .. => apply Encoding.evmset | .evmclr .. => apply Encoding.evmclr
  | .cpyq .. => apply Encoding.cpyq | .cpyk .. => apply Encoding.cpyk
  | .tcfg .. => apply Encoding.tcfg | .tld .. => apply Encoding.tld | .tst .. => apply Encoding.tst | .tzero .. => apply Encoding.tzero
  | .mma .. => apply Encoding.mma | .mmasp .. => apply Encoding.mmasp | .mmseq .. => apply Encoding.mmseq
  | .seqst .. => apply Encoding.seqst | .tmov .. => apply Encoding.tmov | .tqry .. => apply Encoding.tqry
  | .ald .. => apply Encoding.ald | .ast .. => apply Encoding.ast | .azero .. => apply Encoding.azero | .adrn .. => apply Encoding.adrn
  | .adru .. => apply Encoding.adru | .asca .. => apply Encoding.asca | .aqred .. => apply Encoding.aqred
  | .split .. => apply Encoding.split | .recomb .. => apply Encoding.recomb | .acqry .. => apply Encoding.acqry
  | .kclaim .. => apply Encoding.kclaim | .kfree .. => apply Encoding.kfree | .kins .. => apply Encoding.kins
  | .kprb .. => apply Encoding.kprb | .kdel .. => apply Encoding.kdel | .kacc .. => apply Encoding.kacc | .kdrn .. => apply Encoding.kdrn
  | .kstat .. => apply Encoding.kstat
  | .gld .. => apply Encoding.gld | .gsc .. => apply Encoding.gsc | .gidx .. => apply Encoding.gidx | .gqry .. => apply Encoding.gqry
  | .fence .. => apply Encoding.fence | .bflip .. => apply Encoding.bflip | .bqry .. => apply Encoding.bqry
  | .radd .. => apply Encoding.radd | .rfxa .. => apply Encoding.rfxa | .rmin .. => apply Encoding.rmin | .rmax .. => apply Encoding.rmax
  | .ror .. => apply Encoding.ror | .rwo .. => apply Encoding.rwo | .rarv .. => apply Encoding.rarv | .rreq .. => apply Encoding.rreq
  | .waitc .. => apply Encoding.waitc
  | .hbar .. => apply Encoding.hbar | .phase .. => apply Encoding.phase | .phqry .. => apply Encoding.phqry
  | .oapp .. => apply Encoding.oapp | .odecl .. => apply Encoding.odecl | .dmqry .. => apply Encoding.dmqry
  | .trap .. => apply Encoding.trap | .tret .. => apply Encoding.tret | .trdc .. => apply Encoding.trdc | .ppt .. => apply Encoding.ppt
  | .tlbinv .. => apply Encoding.tlbinv | .dbg .. => apply Encoding.dbg
  | .unassignedOpcode .. | .placeWorkgroup .. | .carveChange .. | .carveChangeDone .. | .preemptSave .. | .resumeWorkgroup ..
  | .workgroupRetire .. | .xacqGrant .. | .sleepEnd .. | .waitkWake .. | .commandStart .. | .pieceLanded .. | .rowLanded ..
  | .gatherRowTimeout .. | .commandComplete .. | .replyBufferWrite .. | .engineComplete .. | .sequencerStep .. | .seqstWaitReturn ..
  | .aqredStep .. | .keyedApply .. | .gridComplete .. | .gscSend .. | .walkComplete .. | .streamEntry .. | .retransmit .. | .rarvDepart ..
  | .streamStall .. | .arrivalStall .. | .applyRadd .. | .applyRmin .. | .applyRmax .. | .applyRor .. | .applyContribution ..
  | .applyLineInit .. | .applyWriteOnce .. | .applyArrival .. | .serveReadRequest .. | .applyReply .. | .ackGroupReceived .. | .watchFire ..
  | .watchPoll .. | .waitcDeadline .. | .fenceComplete .. | .networkArrival .. | .balanceSweep .. | .actGrant .. | .loggedEvent ..
  | .logFull .. | .pptHoldExpiry .. | .launchPortWrite .. | .preqPreempt .. | .preqTerminate .. | .preqReserved .. | .biasFlipRequest ..
  | .biasForce .. | .reportRequest .. | .reportReady .. | .powerModeWrite .. | .modeSwitch .. | .powerCapWrite .. | .capClockStep ..
  | .armSwap .. | .tableSwap .. | .keyLoad .. | .keyZero .. | .laneEnable .. | .registerWrite .. | .slotStart .. | .flitReceived ..
  | .flowGap .. | .fecWindowEnd .. | .handoverRequest .. | .spareReady .. | .retrainDone .. | .hostAccess .. | .partitionFormed ..
  | .dieReset .. | .packageReset .. | .dramError .. | .flipComplete .. | .writeBackComplete .. | .rotationStart .. | .flitSend .. =>
    exact unbuilt rfl

end Laws

/-- The word of an instruction holds its fields. -/
theorem encode_of_fields {i : Instr} {f : Fields} (hf : i.fields = some f) : encode i = some f.pack := by
  unfold encode
  split
  · cases hf
  · simp [hf]

/-- A word packed from fields that pass the checks decodes to what the fields build. -/
theorem decode_pack {wc : Nat} {f : Fields} {i : Instr} (hcheck : checkWord wc f = none) (hbuild : f.build = some i) :
    decode wc f.pack = .ok i := by
  have hop : Op.ofCode (opcodeOf f.pack) = some f.op := by rw [Laws.opcode_pack, Laws.ofCode_code]
  rw [← Laws.unpack_pack f] at hcheck hbuild
  exact decode_built hop hcheck hbuild

/-- A well-formed instruction is a word of an unassigned opcode or has fields that pass the checks. -/
theorem wellFormed_cases {wc : Nat} {i : Instr} (h : WellFormed wc i = true) :
    (∃ w, i = .unassignedOpcode w ∧ Op.ofCode (opcodeOf w) = none) ∨ ∃ f, i.fields = some f ∧ checkWord wc f = none := by
  unfold WellFormed at h
  split at h
  · next w => exact .inl ⟨w, rfl, by simpa using h⟩
  · split at h
    · next f hf => exact .inr ⟨f, hf, by simpa using h⟩
    · cases h

/-- Settles O6: the word packed from an instruction's fields has its opcode and gives the fields back, which build it. -/
theorem decodeOfEncode : Obligations.DecodeOfEncode := by
  unfold Obligations.DecodeOfEncode
  intro wc i hwf
  rcases wellFormed_cases hwf with ⟨w, rfl, hop⟩ | ⟨f, hf, hcheck⟩
  · exact ⟨w, rfl, decode_unassigned wc hop⟩
  · exact ⟨f.pack, encode_of_fields hf, decode_pack hcheck (Laws.Encoding.statement i f hf)⟩

end Sys2Proof
end

section
/-! PROOF of O8: the opcodes that are not assigned (R69, R70), and the trap of their words (R436, R437). -/

namespace Sys2Proof

/-- How many opcodes a group of the map assigns: the first of its 64 (R69). -/
def opcodesOfGroup (g : Nat) : Nat := [15, 33, 13, 22, 12, 11, 3, 12, 10, 10, 8, 4, 3, 9, 6, 6].getD g 0

/-- A group has 64 opcodes. -/
theorem opcodesOfGroup_le : ∀ g < 16, opcodesOfGroup g ≤ 64 := by decide

/-- The opcodes of the map, in order: of each group a first run. -/
theorem codes_eq_runs : (Op.all.map fun o => o.code.toNat) =
    (List.range 16).flatMap fun g => (List.range (opcodesOfGroup g)).map fun i => 64 * g + i := by
  decide +kernel

/-- An opcode is assigned when its index within its group is below the group's number (R69). -/
theorem ofCode_isSome_iff (c : BitVec 10) : (Op.ofCode c).isSome = true ↔ c.toNat % 64 < opcodesOfGroup (c.toNat / 64) := by
  have hmem : (Op.ofCode c).isSome = true ↔ c.toNat ∈ Op.all.map fun o => o.code.toNat := by
    simp [Op.ofCode, BitVec.toNat_inj]
  rw [hmem, codes_eq_runs]
  simp only [List.mem_flatMap, List.mem_map, List.mem_range]
  constructor
  · rintro ⟨g, hg, i, hi, hc⟩
    have := opcodesOfGroup_le g hg
    have hdiv : c.toNat / 64 = g := by omega
    rw [hdiv]
    omega
  · intro h
    exact ⟨c.toNat / 64, by omega, c.toNat % 64, h, by omega⟩

/-- The same of a number below 1,024. -/
theorem ofCode_ofNat_isSome {n : Nat} (hn : n < 1024) :
    (Op.ofCode (BitVec.ofNat 10 n)).isSome = decide (n % 64 < opcodesOfGroup (n / 64)) := by
  rw [Bool.eq_iff_iff, ofCode_isSome_iff, BitVec.toNat_ofNat, Nat.mod_eq_of_lt hn, decide_eq_true_iff]

/-- Of the 1,024 opcode values 847 are not assigned (R70). -/
theorem unassigned_count : ((List.range 1024).filter fun n => (Op.ofCode (BitVec.ofNat 10 n)).isNone).length = 847 := by
  have hfilter : ((List.range 1024).filter fun n => (Op.ofCode (BitVec.ofNat 10 n)).isNone) =
      (List.range 1024).filter fun n => decide (opcodesOfGroup (n / 64) ≤ n % 64) := by
    apply List.filter_congr
    intro n hn
    rw [← Option.not_isSome, ofCode_ofNat_isSome (List.mem_range.1 hn), ← decide_not, decide_eq_decide]
    exact Nat.not_lt
  rw [hfilter]
  decide +kernel

namespace Machine

/-- A word of an unassigned opcode, issued by a warp with nothing that comes first, waits for the warp's engine stores and
then traps with ILL_OP (R70, R437). -/
theorem exec_unassignedOpcode (w : BitVec 96) {s : State} {c : Cur} {p : Warp} (hcur : s.cur = some c)
    (hwarp : s.warp? c.wid c.warp = some p) (hearly : earlyTrap p c.bundle = none) :
    exec (.unassignedOpcode w) s =
      if s.storingOf c.wid c.warp then .next { s with cur := some { c with ready := false } }
      else .next (s.takeTrap c (Trap.plain cILL_OP c.bundle)) := by
  simp [exec, execUnassignedOpcode, hcur, hwarp, hearly]

end Machine

/-- Settles O8: every group assigns a first run of its 64 opcodes, 177 in all. -/
theorem unassignedOpcodesTrap : Obligations.UnassignedOpcodesTrap := by
  unfold Obligations.UnassignedOpcodesTrap
  refine ⟨unassigned_count, ?_, fun wc w => decode_unassigned wc, ?_⟩
  · intro g hg
    refine ⟨opcodesOfGroup g, opcodesOfGroup_le g hg, fun i hi => ?_⟩
    rw [ofCode_ofNat_isSome (by omega), show (64 * g + i) % 64 = i by omega, show (64 * g + i) / 64 = g by omega]
  · intro w s c p hcur hwarp hearly
    rw [Machine.exec_unassignedOpcode w hcur hwarp hearly]
    exact ⟨fun hs => by rw [hs]; rfl, fun hs => by rw [hs]; rfl⟩

end Sys2Proof
end

section
/-! PROOF of O10: what comes before an instruction's own effect (R436, R68 steps 7 to 10, R84). The checks of an issue answer
for every instruction alike, whatever its effect: with a cause that it meets, or with a wait for an engine. -/

namespace Sys2Proof.Machine

/-! ### Every instruction is issued -/

/-- An instruction of a core but `TRET`, whose completion is its own (R453), is issued with its effect. A step of another agent
has no fields. -/
theorem exec_eq_issue {i : Instr} {f : Fields} (hf : i.fields = some f) (htret : ∀ h, i ≠ .tret h) (s : State) :
    ∃ body, exec i s = issue i s body := by
  cases i
  case tret h => exact absurd rfl (htret h)
  all_goals cases hf <;> exact ⟨_, rfl⟩

/-- A cause that waits for stores is a stall: what is not a result of registers does not become one. -/
theorem entering_ne_regs (x : Ix) {r : Eff} (hr : ∀ w cap go, r ≠ .regs w cap go) (w : Warp) (cap : Option (Nat × Latch))
    (go : List Move) : x.entering r ≠ .regs w cap go := by
  cases r with
  | trap t =>
    simp only [Ix.entering]
    split <;> simp
  | _ => exact hr w cap go

/-- A `TRET` whose checks settle it settles as any instruction does. -/
theorem tret_of_entering {x : Ix} {r : Eff} (h : x.entering (x.checked x.tretEff) = r) (hr : ∀ w cap go, r ≠ .regs w cap go) :
    x.tret = x.settle r := by
  unfold Ix.tret
  rw [h]
  cases r with
  | regs w cap go => exact absurd rfl (hr w cap go)
  | _ => rfl

/-- An issue that its checks settle, whatever its effect would be, settles what they find. -/
theorem exec_of_checked {i : Instr} {s : State} {x : Ix} {r : Eff} (hx : Ix.of s i = some x) (hchecked : ∀ e, x.checked e = r)
    (hr : ∀ w cap go, r ≠ .regs w cap go) : exec i s = .next (x.settle (x.entering r)) := by
  by_cases htret : ∃ h, i = .tret h
  · obtain ⟨h, rfl⟩ := htret
    have hret := tret_of_entering (congrArg x.entering (hchecked x.tretEff)) (entering_ne_regs x hr)
    simp only [exec, execTret, hx, hret]
  · obtain ⟨-, -, -, -, -, -, hf, -⟩ := of_facts hx
    obtain ⟨body, hbody⟩ := exec_eq_issue hf (fun h hi => htret ⟨h, hi⟩) s
    simp only [hbody, issue, hx, hchecked]

/-- An issue whose checks meet a cause takes the trap (R437). -/
theorem traps_of_checked {i : Instr} {s : State} {x : Ix} {t : Trap} (hx : Ix.of s i = some x) (ht : ∀ e, x.checked e = .trap t) :
    Traps i x t := by
  have hexec := exec_of_checked hx ht (by simp)
  obtain ⟨rfl, -⟩ := of_facts hx
  obtain ⟨hfree, hwait⟩ := settle_trap x t
  exact ⟨fun hs => by rw [hexec, hfree hs], fun hs => by rw [hexec, hwait hs]⟩

/-! ### The checks in their order -/

/-- A deferred cause or the single step comes first (R436). -/
theorem checked_of_earlyTrap {x : Ix} {t : Trap} (h : earlyTrap x.w x.c.bundle = some t) (e : Eff) : x.checked e = .trap t := by
  simp [Ix.checked, h]

/-- Then steps 7 to 10 of R68. -/
theorem checked_of_dynTrap {x : Ix} {t : Trap} (hearly : earlyTrap x.w x.c.bundle = none) (h : dynTrap x = some t) (e : Eff) :
    x.checked e = .trap t := by
  simp [Ix.checked, hearly, h]

/-- Then the scoreboard (R84). -/
theorem checked_of_scoreHeld {x : Ix} (hearly : earlyTrap x.w x.c.bundle = none) (hdyn : dynTrap x = none)
    (h : scoreHeld x = true) (e : Eff) : x.checked e = .stall := by
  simp [Ix.checked, hearly, hdyn, h]

/-- Outside handler mode the oldest deferred cause comes first of all. -/
theorem earlyTrap_of_deferred {w : Warp} {d : Deferred} {ds : List Deferred} (hmode : w.hmode = false) (hdfr : w.dfr = d :: ds)
    (bundle : Mask) : earlyTrap w bundle = some ⟨d.cause, bundle, some (BitVec.ofNat 64 d.pa), none, some d.tag⟩ := by
  simp [earlyTrap, hmode, hdfr]

/-- With none deferred a single-stepped warp that has issued traps. -/
theorem earlyTrap_of_step {w : Warp} (hmode : w.hmode = false) (hdfr : w.dfr = []) (hstep : w.step = true)
    (hdue : w.stepDue = true) (bundle : Mask) : earlyTrap w bundle = some (Trap.plain cDBG_STEP bundle) := by
  simp [earlyTrap, hmode, hdfr, hstep, hdue]

/-- Step 7: an instruction of handler mode alone, outside it. -/
theorem dynTrap_of_priv {x : Ix} (hop : x.f.op = .tret ∨ x.f.op = .trdc) (hmode : x.w.hmode = false) :
    dynTrap x = some (Trap.plain cPRIV x.c.bundle) := by
  rcases hop with hop | hop <;> simp [dynTrap, hop, hmode]

/-- A word names a v register beyond those that its warp holds (R119). -/
theorem vSpans_any_iff (x : Ix) : ((vSpans x.f (shape x.f)).any fun p => decide (p.1 + p.2 > x.w.held x.kr.rc)) = true ↔
    ∃ p ∈ vSpans x.f (shape x.f), x.kr.rc.regs + x.w.x < p.1 + p.2 := by
  simp only [List.any_eq_true, decide_eq_true_eq, gt_iff_lt, Warp.held]

/-- What is left of steps 7 to 10 when step 7 finds nothing: steps 8, 9 and 10 as three conditions. -/
theorem dynTrap_of_not_priv {x : Ix} (hpriv : ¬((x.f.op = .tret ∨ x.f.op = .trdc) ∧ x.w.hmode = false)) :
    dynTrap x =
      if (shape x.f).warpWide = true ∧ x.c.bundle ≠ x.w.live then some (Trap.plain cPARTIAL_MASK x.c.bundle)
      else if ∃ p ∈ vSpans x.f (shape x.f), x.kr.rc.regs + x.w.x < p.1 + p.2 then some (Trap.plain cREG_RANGE x.c.bundle)
      else if latchBad x.latch ((shape x.f).pair.getLsbD 1) x.f.a = true ∨ latchBad x.latch ((shape x.f).pair.getLsbD 2) x.f.b = true ∨
          (usesC (shape x.f) = true ∧ latchBad x.latch ((shape x.f).pair.getLsbD 3) x.f.c = true)
        then some (Trap.plain cSTALE_LATCH x.c.bundle)
      else none := by
  unfold dynTrap
  simp only [vSpans_any_iff, Bool.and_eq_true, Bool.or_eq_true, bne_iff_ne, or_assoc]
  split
  case h_3 => simp
  all_goals next hop => simp [show x.w.hmode = true by simpa [hop] using hpriv]

/-- Settles O10: the checks of an issue stand in the order of R436 and R68, and what they find settles every instruction. -/
theorem issueChecksInOrder : Obligations.IssueChecksInOrder := by
  unfold Obligations.IssueChecksInOrder
  refine ⟨?_, ?_, ?_⟩
  · intro i s x hx hmode
    exact ⟨fun d ds hdfr => traps_of_checked hx (checked_of_earlyTrap (earlyTrap_of_deferred hmode hdfr _)),
      fun hdfr hstep hdue => traps_of_checked hx (checked_of_earlyTrap (earlyTrap_of_step hmode hdfr hstep hdue _))⟩
  · intro i s x hx hearly taken sh priv part range stale
    have htaken {c : BitVec 7} (hdyn : dynTrap x = some (Trap.plain c x.c.bundle)) : taken c :=
      traps_of_checked hx (checked_of_dynTrap hearly hdyn)
    refine ⟨fun hpriv => htaken (dynTrap_of_priv hpriv.1 hpriv.2), ?_, ?_, ?_⟩
    · intro hpriv hpart
      exact htaken ((dynTrap_of_not_priv hpriv).trans (if_pos hpart))
    · intro hpriv hpart hrange
      exact htaken ((dynTrap_of_not_priv hpriv).trans ((if_neg hpart).trans (if_pos hrange)))
    · intro hpriv hpart hrange hstale
      exact htaken ((dynTrap_of_not_priv hpriv).trans ((if_neg hpart).trans ((if_neg hrange).trans (if_pos hstale))))
  · intro i s x hx hearly hdyn hheld
    have hexec := exec_of_checked hx (checked_of_scoreHeld hearly hdyn hheld) (by simp)
    obtain ⟨rfl, -⟩ := of_facts hx
    exact hexec

end Sys2Proof.Machine
end

section
/-! PROOF of O2: a turn of an issue port runs the instruction that its first warp's word decodes to; another agent's turn is
its event (R56, R68, R78, R84, R86). -/

namespace Sys2Proof.Machine

/-- A warp's entry whose word is fetched, with nothing before the checks of the word, runs what the word decodes to (R68). -/
theorem State.take_run {s : State} {core ctx wid i : Nat} {w : Warp} {e : Entry} {x : BitVec 96} {ins : Instr}
    (hfetch : s.fetchWord core ctx w.walked e.pc = .word x) (hearly : earlyTrap w e.mask = none) (hdec : decode w.wcode x = .ok ins) :
    s.take core ctx wid i w e = .run ins { s with cur := some ⟨wid, i, e.pc, e.prio, e.mask, x, true⟩ } := by
  simp [State.take, hfetch, hearly, hdec]

/-- What a port finds for a warp of a kernel is what it takes of the entry that the warp would issue (R84). -/
theorem State.look_of_choice {s : State} {core : Nat} {c : Cand} {w : Warp} {k : Kernel} {e : Entry}
    (hwarp : s.warp? c.wid c.warp = some w) (hkernel : Machine.look s.kernels (c.wid / 2 ^ 48) = some k) (hchoice : w.choice = some e) :
    s.look core c = (s.clearOver core w.port c.wid c.warp).take core k.ctx c.wid c.warp w e := by
  simp only [State.look, hwarp, hkernel, hchoice]

/-- A warp whose instruction completes has issued. -/
theorem State.tried_run {s t u : State} {core : Nat} {c : Cand} {i : Instr} (hlook : s.look core c = .run i t)
    (hexec : exec i t = .next u) (hcur : u.cur = none) : s.tried core c = some (.next u) := by
  simp [State.tried, hlook, hexec, hcur]

/-- A free port's cycle, when the first warp that it takes issues (R78, R86). -/
theorem portStep_first {s u : State} {core p : Nat} {c : Cand} {cs : List Cand} (hcore : core < 768 * s.nPkg)
    (hbusy : ((s.core core).port p).busy ≤ s.clocksAt core) (hafter : ¬(p = 0 ∧ (s.core core).port1.after = s.clocksAt core + 1))
    (hup : (s.die (dieOf core)).up = true) (hcands : orderCands ((s.core core).port p).slot (s.cands core p) = c :: cs)
    (htried : s.tried core c = some (.next u)) :
    portStep core p s = .next (u.markReady core p (cs.filter fun d => (s.tried core d).isSome)) := by
  have hpod : ¬core ≥ 768 * s.nPkg := by omega
  have hfree : (decide (s.clocksAt core < ((s.core core).port p).busy) || (p == 0 && (s.core core).port1.after == s.clocksAt core + 1) ||
      !(s.die (dieOf core)).up) = false := by
    simp only [hup, Bool.or_eq_false_iff, decide_eq_false_iff_not, Bool.and_eq_false_imp, beq_iff_eq, beq_eq_false_iff_ne]
    exact ⟨⟨by omega, fun hp ha => hafter ⟨hp, ha⟩⟩, rfl⟩
  simp [portStep, hpod, hfree, hcands, portTry, htried]

/-- The step of a queued turn is what the turn does, and then its time passes. -/
theorem step_of_turn {s u : State} {dt : Nat} {a : Act} {ts : List Turn} (hturns : s.turns = ⟨dt, a⟩ :: ts)
    (hact : act a { s with turns := ts, tick := s.tick + 1, cur := none } = .next u) : step s = .next (u.elapse dt) := by
  simp [step, State.nextTurn, hturns, hact]

/-- Settles O2: the free port takes its first warp, whose word decodes, and the step is what the instruction answers. -/
theorem stepRunsDecoded : Obligations.StepRunsDecoded := by
  unfold Obligations.StepRunsDecoded
  refine ⟨?_, fun s u dt ts i hturns hexec => step_of_turn hturns hexec⟩
  intro s u dt core p ts c cs w k e x i hturns hcore hbusy hafter hup s1 hcands hwarp hkernel hchoice s2 hfetch hearly hdec hexec hcur
  have hlook : s1.look core c = .run i { s2 with cur := some ⟨c.wid, c.warp, e.pc, e.prio, e.mask, x, true⟩ } :=
    (State.look_of_choice hwarp hkernel hchoice).trans (State.take_run hfetch hearly hdec)
  exact step_of_turn hturns (portStep_first (s := s1) hcore hbusy hafter hup hcands (State.tried_run hlook hexec hcur))

end Sys2Proof.Machine
end

section
/-! PROOF of O22: the sign operations, FCLASS and FSET (R160-R162). Each of the five completes as any result does; what is
left is what the three functions of the model compute. A sign operation is read bit by bit from `packEls`; a comparison is
what its code accepts of an ordering (`FCmp.accepts`), with no condition, unless an operand is a NaN; and a class is read
from the exponent field, because the leading bit of a number's magnitude stands below the smallest normal exactly when that
field is zero. -/

namespace Sys2Proof

/-! ### Bits of elements (R27) -/

theorem testBit_elemOf (ew x e k : Nat) : (elemOf ew x e).testBit k = (decide (k < ew) && x.testBit (ew * e + k)) := by
  rw [elemOf, Nat.testBit_mod_two_pow, Nat.testBit_div_two_pow, Nat.add_comm k]

theorem testBit_packEls {ew k : Nat} (hk : k < ew) (xs : List Nat) (e : Nat) :
    (packEls ew xs).testBit (ew * e + k) = (xs[e]?.getD 0).testBit k := by
  induction xs generalizing e with
  | nil => simp [packEls]
  | cons x xs ih =>
    rw [packEls, Nat.add_comm (x % 2 ^ ew), Nat.testBit_two_pow_mul_add _ (Nat.mod_lt _ (Nat.two_pow_pos ew))]
    cases e with
    | zero => simp [hk]
    | succ e =>
      have hat : ew * (e + 1) + k = ew + (ew * e + k) := by rw [Nat.mul_add_one]; omega
      have hover : ¬ew + (ew * e + k) < ew := by omega
      rw [hat, if_neg hover, Nat.add_sub_cancel_left, ih, List.getElem?_cons_succ]

/-- The sign bit of an element, as the number that the sign operations are given. -/
theorem elemOf_sign {ew : Nat} (hpos : 0 < ew) (x e : Nat) :
    elemOf ew x e / 2 ^ (ew - 1) = (x.testBit (ew * e + (ew - 1))).toNat := by
  rw [elemOf, ← Nat.two_pow_pred_mul_two hpos, Nat.mod_mul_right_div_self, Nat.div_div_eq_div_mul, ← Nat.pow_add, Nat.toNat_testBit]

end Sys2Proof

namespace Sys2Proof.Machine

/-! ### Sign operations (R160) -/

/-- A sign operation rewrites the top bit of each element, from the signs of the two elements, and keeps every other bit. -/
theorem testBit_signEls (ty : Ty) (f : Nat → Nat → Nat) (a b : Nat) {e k : Nat} (he : e < ty.elems) (hk : k < ty.ew) :
    (signEls ty f a b).testBit (ty.ew * e + k) =
      if k = ty.ew - 1 then
        (f (a.testBit (ty.ew * e + k)).toNat (b.testBit (ty.ew * e + k)).toNat).testBit 0
      else a.testBit (ty.ew * e + k) := by
  have hpos : 0 < ty.ew := by omega
  rw [signEls, testBit_packEls hk]
  simp only [List.getElem?_map, List.getElem?_range he, Option.map_some, Option.getD_some, elemOf_sign hpos]
  rw [Nat.add_comm, Nat.testBit_two_pow_mul_add _ (Nat.mod_lt _ (Nat.two_pow_pos _))]
  by_cases htop : k = ty.ew - 1
  · simp [htop]
  · have hlow : k < ty.ew - 1 := by omega
    simp [htop, hlow, hk, Nat.testBit_mod_two_pow, testBit_elemOf]

end Sys2Proof.Machine

namespace Sys2Proof

/-! ### Comparisons (R161) -/

/-- The orderings of a to b, neither a NaN, in which a comparison holds. -/
def FCmp.accepts : FCmp → Ordering → Bool
  | .eq, o => o == .eq
  | .ne, o => o != .eq
  | .lt, o => o == .lt
  | .le, o => o != .gt
  | .gt, o => o == .gt
  | .ge, o => o != .lt
  | .un, _ => false
  | .ord, _ => true

/-- The comparisons that raise IV with a quiet NaN. -/
def FCmp.loud (c : FCmp) : Bool := c == .lt || c == .le || c == .gt || c == .ge

end Sys2Proof

namespace Sys2Proof.Machine

theorem cmpNum_of_unordered {a b : Num} (h : a.isNan = true ∨ b.isNan = true) : cmpNum a b = none := by
  cases a <;> cases b <;> simp [Num.isNan, cmpNum] at h ⊢

theorem snOf_of_not_isNan {a : Num} (h : a.isNan = false) : snOf a = cNone := by
  cases a with
  | nan s => simp [Num.isNan] at h
  | inf n | fin n m e => rfl

theorem snOf_eq (a : Num) : snOf a = if a = .nan true then cSN else cNone := by
  unfold snOf
  split
  · rfl
  · rename_i h
    rw [if_neg h]

theorem getLsbD_cIV (q : Nat) : cIV.getLsbD q = decide (q = 0) := by
  simp [cIV, BitVec.getLsbD_one]

/-- The signalling mark is IV and the bit that `FTE.SNAN` tests (R30, R49). -/
theorem getLsbD_cSN (q : Nat) : cSN.getLsbD q = decide (q = 0 ∨ q = 5) := by
  have hsplit : cSN = cIV ||| BitVec.twoPow 6 5 := rfl
  rw [hsplit, BitVec.getLsbD_or, getLsbD_cIV, BitVec.getLsbD_twoPow]
  simp [eq_comm]

theorem getLsbD_snOf (a : Num) (q : Nat) : (snOf a).getLsbD q = decide (a = .nan true ∧ (q = 0 ∨ q = 5)) := by
  rw [snOf_eq]
  split
  · rename_i h
    simp [h, getLsbD_cSN]
  · rename_i h
    simp [h, cNone]

theorem fcmp_conditions (c : FCmp) (a b : Num) :
    (fcmp c a b).2 = if (a.isNan || b.isNan) && c.loud then snOf a ||| snOf b ||| cIV else snOf a ||| snOf b := by
  cases c <;> simp [fcmp, FCmp.loud]

/-- The conditions of a comparison, bit by bit. -/
theorem getLsbD_fcmp_conditions (c : FCmp) (a b : Num) (q : Nat) :
    (fcmp c a b).2.getLsbD q = true ↔
      (a = .nan true ∨ b = .nan true) ∧ (q = 0 ∨ q = 5) ∨ (a.isNan = true ∨ b.isNan = true) ∧ c.loud = true ∧ q = 0 := by
  rw [fcmp_conditions]
  split
  · rename_i h
    obtain ⟨hun, hloud⟩ : (a.isNan = true ∨ b.isNan = true) ∧ c.loud = true := by simpa using h
    simp [getLsbD_snOf, getLsbD_cIV, hun, hloud, or_and_right]
  · rename_i h
    have hquiet : ¬((a.isNan = true ∨ b.isNan = true) ∧ c.loud = true) := by simpa using h
    have hnone : ¬((a.isNan = true ∨ b.isNan = true) ∧ c.loud = true ∧ q = 0) := fun ⟨hun, hloud, _⟩ => hquiet ⟨hun, hloud⟩
    simp only [BitVec.getLsbD_or, getLsbD_snOf, Bool.or_eq_true, decide_eq_true_eq, hnone, or_false, or_and_right]

theorem fcmp_of_unordered {a b : Num} (h : a.isNan = true ∨ b.isNan = true) (c : FCmp) :
    (fcmp c a b).1 = (c == .ne || c == .un) := by
  have hun : (a.isNan || b.isNan) = true := by simpa using h
  cases c <;> simp [fcmp, cmpNum_of_unordered h, hun]

theorem isNan_of_cmpNum {a b : Num} {o : Ordering} (h : cmpNum a b = some o) : a.isNan = false ∧ b.isNan = false := by
  have hord : ¬(a.isNan = true ∨ b.isNan = true) := fun hun => by simp [cmpNum_of_unordered hun] at h
  simpa using hord

/-- Two numbers that compare as `o`: what the comparison accepts, and no condition. -/
theorem fcmp_of_cmpNum {a b : Num} {o : Ordering} (h : cmpNum a b = some o) (c : FCmp) :
    fcmp c a b = (c.accepts o, cNone) := by
  obtain ⟨ha, hb⟩ := isNan_of_cmpNum h
  have hcond : snOf a ||| snOf b = cNone := by simp [snOf_of_not_isNan, ha, hb, cNone]
  cases c <;> cases o <;> simp [fcmp, FCmp.accepts, h, ha, hb, hcond, bne]

/-- An infinity compares with any number that is no NaN: negative infinity is below, positive infinity above, all that differ. -/
theorem cmpNum_of_inf {a b : Num} (ha : a.isNan = false) (hb : b.isNan = false) (hinf : ∃ n, a = .inf n ∨ b = .inf n) :
    ∃ o, cmpNum a b = some o ∧ (o = .eq ↔ a = b) ∧
      (o = .lt ↔ (a = .inf true ∧ b ≠ .inf true) ∨ (b = .inf false ∧ a ≠ .inf false)) := by
  obtain ⟨n, rfl | rfl⟩ := hinf
  · cases b with
    | nan s => simp [Num.isNan] at hb
    | inf p => cases n <;> cases p <;> simp [cmpNum]
    | fin p m e => cases n <;> simp [cmpNum]
  · cases a with
    | nan s => simp [Num.isNan] at ha
    | inf p => cases n <;> cases p <;> simp [cmpNum]
    | fin p m e => cases n <;> simp [cmpNum]

theorem cmpNum_fin (n1 n2 : Bool) (m1 m2 : Nat) (e1 e2 : Int) :
    cmpNum (.fin n1 m1 e1) (.fin n2 m2 e2) =
      some (compare (sgn n1 (m1 * pow2 (e1 - min e1 e2))) (sgn n2 (m2 * pow2 (e2 - min e1 e2)))) := by
  rw [cmpNum, Int.min_def]

/-! ### Classes (R162) -/

/-- The highest of the bits that a value may have. -/
theorem shiftRight_top {v n : Nat} (hv : v < 2 ^ (n + 1)) : (v >>> n % 2 == 1) = decide (2 ^ n ≤ v) := by
  have hlt : v / 2 ^ n < 2 := by rwa [Nat.div_lt_iff_lt_mul (Nat.two_pow_pos n), ← Nat.pow_succ']
  have hpos : 1 ≤ v / 2 ^ n ↔ 2 ^ n ≤ v := by rw [Nat.le_div_iff_mul_le (Nat.two_pow_pos n), Nat.one_mul]
  rw [Nat.shiftRight_eq_div_pow, Nat.mod_eq_of_lt hlt, Bool.eq_iff_iff, beq_iff_eq, decide_eq_true_eq, ← hpos]
  omega

theorem log2_add_two_pow {m t : Nat} (h : m < 2 ^ t) : (m + 2 ^ t).log2 = t := by
  have hne : m + 2 ^ t ≠ 0 := by have := Nat.two_pow_pos t; omega
  rw [Nat.log2_eq_iff hne, Nat.pow_succ]
  omega

section
variable {f : Ieee} {v : Nat} {neg : Bool} {m : Nat}

theorem fclassBit_nan {s : Bool} (h : f.decode v = .nan s) : fclassBit f v = if s then 0 else 1 := by
  rw [fclassBit, h]

theorem fclassBit_inf (h : f.decode v = .inf neg) : fclassBit f v = if neg then 2 else 9 := by
  rw [fclassBit, h]

theorem fclassBit_zero {e : Int} (h : f.decode v = .fin neg 0 e) : fclassBit f v = if neg then 5 else 6 := by
  simp [fclassBit, h]

/-- A magnitude on the subnormal grid, without the leading bit of a normal number. -/
theorem fclassBit_subnormal {t : Nat} (hm : m ≠ 0) (hlt : m < 2 ^ t)
    (h : f.decode v = .fin neg m (1 - (f.bias : Int) - t)) : fclassBit f v = if neg then 4 else 7 := by
  have hlog : m.log2 < t := (Nat.log2_lt hm).2 hlt
  have hbelow : 1 - (f.bias : Int) - t + (m.log2 : Int) < f.fmt.emin := by simp only [Ieee.fmt]; omega
  simp [fclassBit, h, hm, hbelow]

/-- A magnitude with its leading bit, under an exponent field of at least 1. -/
theorem fclassBit_normal {t e : Nat} (hlt : m < 2 ^ t) (he : e ≠ 0)
    (h : f.decode v = .fin neg (m + 2 ^ t) (e - (f.bias : Int) - t)) : fclassBit f v = if neg then 3 else 8 := by
  have hlog : (m + 2 ^ t).log2 = t := log2_add_two_pow hlt
  have hbelow : ¬(e - (f.bias : Int) - t + ((m + 2 ^ t).log2 : Int) < f.fmt.emin) := by simp only [Ieee.fmt, hlog]; omega
  have hm : m + 2 ^ t ≠ 0 := by have := Nat.two_pow_pos t; omega
  rw [fclassBit, h]
  simp only [if_neg hm, if_neg hbelow]

end

/-- The class of an encoding by its sign, exponent and fraction fields. -/
theorem fclassBit_eq {f : Ieee} {v t e m : Nat} (ht : t = f.p - 1) (he : e = v / 2 ^ t % 2 ^ f.w) (hm : m = v % 2 ^ t)
    (hv : v < 2 ^ (t + f.w + 1)) :
    fclassBit f v =
      if e = 2 ^ f.w - 1 then (if m = 0 then (if 2 ^ (t + f.w) ≤ v then 2 else 9) else if m < 2 ^ (t - 1) then 0 else 1)
      else if e = 0 then (if m = 0 then (if 2 ^ (t + f.w) ≤ v then 5 else 6) else if 2 ^ (t + f.w) ≤ v then 4 else 7)
      else if 2 ^ (t + f.w) ≤ v then 3 else 8 := by
  have hlt : m < 2 ^ t := hm ▸ Nat.mod_lt _ (Nat.two_pow_pos t)
  have hdec : f.decode v =
      if e = 2 ^ f.w - 1 then (if m = 0 then .inf (decide (2 ^ (t + f.w) ≤ v)) else .nan (decide (m < 2 ^ (t - 1))))
      else if e = 0 then .fin (decide (2 ^ (t + f.w) ≤ v)) m (1 - (f.bias : Int) - t)
      else .fin (decide (2 ^ (t + f.w) ≤ v)) (m + 2 ^ t) (e - (f.bias : Int) - t) := by
    rw [← shiftRight_top hv, he, hm, ht, ← Nat.shiftRight_eq_div_pow v (f.p - 1), Ieee.decode]
  by_cases htop : e = 2 ^ f.w - 1
  · rw [if_pos htop] at hdec ⊢
    by_cases hzero : m = 0
    · rw [if_pos hzero] at hdec ⊢
      simpa using fclassBit_inf hdec
    · rw [if_neg hzero] at hdec ⊢
      simpa using fclassBit_nan hdec
  · rw [if_neg htop] at hdec ⊢
    by_cases hsub : e = 0
    · rw [if_pos hsub] at hdec ⊢
      by_cases hzero : m = 0
      · rw [hzero] at hdec
        simpa [hzero] using fclassBit_zero hdec
      · rw [if_neg hzero]
        simpa using fclassBit_subnormal hzero hlt hdec
    · rw [if_neg hsub] at hdec ⊢
      simpa using fclassBit_normal hlt hsub hdec

/-! ### The statement -/

/-- The four instructions whose result raises nothing, and FSET, which answers a value and conditions. -/
theorem signs_and_comparisons_give (h : Hd) (cmp : FCmp) (ty : Ty) (d a b : Opnd) :
    Gives (.fabs h ty d a) d ty.wide (fun x l => signEls ty (fun _ _ => 0) (x.rd ty a l) 0) ∧
    Gives (.fneg h ty d a) d ty.wide (fun x l => signEls ty (fun p _ => 1 - p) (x.rd ty a l) 0) ∧
    Gives (.fcpys h ty d a b) d ty.wide (fun x l => signEls ty (fun _ q => q) (x.rd ty a l) (x.rd ty b l)) ∧
    Gives (.fclass h ty d a) d false (fun x l => 2 ^ fclassBit ty.ieee (elemOf ty.ew (x.rd ty a l) 0)) ∧
    GivesFp (.fset h cmp ty d a b) d false (fun x l =>
      let r := fcmp cmp (fpElem ty (x.rd ty a l) 0) (fpElem ty (x.rd ty b l) 0)
      (if r.1 then 1 else 0, r.2)) :=
  ⟨gives_of_give _ (fun _ => rfl) fun _ => rfl, gives_of_give _ (fun _ => rfl) fun _ => rfl,
    gives_of_give _ (fun _ => rfl) fun _ => rfl, gives_of_give _ (fun _ => rfl) fun _ => rfl,
    givesFp_of_giveFp _ (fun _ => rfl) fun _ => rfl⟩

/-- Settles O22: the five completions, then the bits of a sign operation, the conditions and orderings of a comparison, and the
fields of an encoding. -/
theorem fpSignsAndComparisons : Obligations.FpSignsAndComparisons := by
  unfold Obligations.FpSignsAndComparisons
  refine ⟨signs_and_comparisons_give, ?_, ?_, ?_, ?_⟩
  · intro ty a b e k _ he hk at_ top
    have hbit := fun f b => testBit_signEls ty f a b he hk
    refine ⟨?_, ?_, ?_⟩
    · simp [at_, top, hbit]
    · cases hs : a.testBit (ty.ew * e + k) <;> simp [at_, top, hbit, hs]
    · cases hs : b.testBit (ty.ew * e + k) <;> simp [at_, top, hbit, hs]
  · intro cmp a b loud signalling unordered
    have hloud : cmp.loud = true ↔ loud := by simp [FCmp.loud, loud, or_assoc]
    refine ⟨fun hun => fcmp_of_unordered hun cmp, ?_, ?_, ?_, ?_⟩
    · rw [getLsbD_fcmp_conditions, hloud]
      simp [signalling, unordered]
    · rw [getLsbD_fcmp_conditions]
      simp [signalling]
    · intro q h0 h5
      simp [← Bool.not_eq_true, getLsbD_fcmp_conditions, h0, h5]
    · intro hord hinf less
      obtain ⟨ha, hb⟩ : a.isNan = false ∧ b.isNan = false := by simpa [unordered] using hord
      obtain ⟨o, hcmp, heq, hlt⟩ := cmpNum_of_inf ha hb hinf
      have hless : less ↔ o = .lt := hlt.symm
      rw [fcmp_of_cmpNum hcmp]
      simp only [ne_eq, ← heq, hless]
      cases cmp <;> cases o <;> simp [FCmp.accepts]
  · intro f v hf hv t neg e m
    have hpos : ∀ g ∈ [f16, bf16, f32, f64], 0 < g.p := by decide
    have hwidth : f.p + f.w = t + f.w + 1 := by have := hpos f hf; omega
    exact fclassBit_eq rfl rfl rfl (hwidth ▸ hv)
  · intro cmp n1 n2 m1 m2 e1 e2 i j
    rw [fcmp_of_cmpNum (cmpNum_fin n1 n2 m1 m2 e1 e2)]
    change (cmp.accepts (compare i j), cNone) = _
    rcases Int.lt_trichotomy i j with hij | hij | hij
    · rw [Int.compare_eq_lt.2 hij]
      cases cmp <;> simp [FCmp.accepts, hij, Int.le_of_lt hij, Int.ne_of_lt hij, Int.lt_asymm hij, Int.not_le.2 hij]
    · rw [Int.compare_eq_eq.2 hij]
      cases cmp <;> simp [FCmp.accepts, hij]
    · rw [Int.compare_eq_gt.2 hij]
      cases cmp <;> simp [FCmp.accepts, hij, Int.le_of_lt hij, Int.ne_of_gt hij, Int.lt_asymm hij, Int.not_le.2 hij]

end Sys2Proof.Machine
end
